-- ==== Sys2Proof/Word.lean ====
section
/-!
DEFINITION. The plain words of the machine (R4) and nothing else.
-/

-- Declarations are elaborated one after the other, which bounds the memory that a check of the package takes.
set_option Elab.async false

namespace Sys2Proof

/-- A dword, 64 bits (R4): the width of q, n and a registers and of addresses. -/
abbrev Word := BitVec 64
/-- A word, 32 bits (R4): the unit of instructions and of ownership (R180). -/
abbrev W32 := BitVec 32
/-- A byte of memory. -/
abbrev Byte := BitVec 8
/-- A set of the 32 lanes of a wave (R22). -/
abbrev LaneMask := BitVec 32
/-- A release signature (R181). -/
abbrev Sig := BitVec 512

end Sys2Proof
end

