-- ==== Sys2Proof/Syntax.lean ====
section
/-!
DEFINITION. The one inductive of instructions and device steps: one constructor per row of the opcode table, over
the field types of R72 to R92. A field record holds the fields of one class layout; what an instruction encodes in
FN, CMD or CF stands as typed arguments of its constructor.
-/

namespace Sys2Proof

/-- Source specifiers (R76). -/
inductive Src where
  | q (k : Fin 16) | h (k : Fin 3) | lit | zero | one | n (k : Fin 32)
  deriving DecidableEq, Repr

/-- Destination specifiers (R77). -/
inductive Dst where
  | push | void | n (k : Fin 32)
  deriving DecidableEq, Repr

/-- Route codes (R64). -/
inductive Route where
  | own | rot (p : Fin 32) | bc (p : Fin 32) | bfly (p : Fin 32) | idx (k : Fin 16)
  deriving DecidableEq, Repr

/-- Sub-element widths 8, 16, 32 and 64 (R55). -/
inductive Width where
  | b8 | b16 | b32 | b64
  deriving DecidableEq, Repr

/-- Integer types: i when signed, w when not (R92 codes 0 to 7). -/
structure ITy where
  signed : Bool
  width  : Width
  deriving DecidableEq, Repr

/-- Wide float types (R92 codes 8 to 11). -/
inductive FTy where
  | f64 | f32 | f16 | bf16
  deriving DecidableEq, Repr

/-- The types of the transcendentals (R94). -/
inductive TTy where
  | f32 | f16
  deriving DecidableEq, Repr

/-- Every type code of R92 but the reserved one. -/
inductive Ty where
  | int (t : ITy) | flt (t : FTy) | e5m2 | e4m3 | e2m1
  deriving DecidableEq, Repr

/-- RM (R79). -/
inductive Rm where
  | ne | tz | dn | up
  deriving DecidableEq, Repr

/-- HOLD (R60). -/
inductive Hold where
  | off | a | b | c
  deriving DecidableEq, Repr

/-- ICMP and ACMP relations, FN codes 0 to 5 (R81, R211). -/
inductive Icc where
  | eq | ne | lt | le | gt | ge
  deriving DecidableEq, Repr

/-- FCMP relations, FN codes 0 to 7 (R81). -/
inductive Fcc where
  | eq | ne | lt | le | gt | ge | uo | ord
  deriving DecidableEq, Repr

/-- RED and SCAN operations (R95). -/
inductive RedOp where
  | add | min | max | and | or | xor
  deriving DecidableEq, Repr

/-- VOTE functions, FN codes 0 to 3 (R81). -/
inductive VoteFn where
  | all | any | ballot | uniform
  deriving DecidableEq, Repr

/-- Atomic operations, AOP codes 0 to 12 (R83). -/
inductive AOp where
  | add | smin | smax | umin | umax | and | or | xor | exch | cas | fadd | fmin | fmax
  deriving DecidableEq, Repr

/-- ORD of an atomic (R83). -/
inductive Ord4 where
  | plain | acq | rel | ar
  deriving DecidableEq, Repr

/-- BRA and ABR conditions, CF codes 0 to 2 (R87). -/
inductive BrCond where
  | always | nonzero | zero
  deriving DecidableEq, Repr

/-- LOD modes of TEX and TEXG, CMD codes 0 to 2 (R305). -/
inductive Lod where
  | implicit | bias | level
  deriving DecidableEq, Repr

/-- Collective kinds (R321). -/
inductive CollKind where
  | allReduce | reduceScatter | allGather | broadcast
  deriving DecidableEq, Repr

/-- Collective operations (R321). -/
inductive CollOp where
  | add | min | max
  deriving DecidableEq, Repr

/-- Collective element types (R321). -/
inductive CollTy where
  | f32 | f64 | bf16 | f16 | i32 | i64
  deriving DecidableEq, Repr

/-- ALU class fields (R80). For an instruction that reads FN, `c` is `zero` and `xc` is `own`. A literal stands
exactly in X format (R72, R88). -/
structure Alu where
  e    : Bool
  pm   : Fin 8
  d    : Dst
  a    : Src
  b    : Src
  c    : Src
  hold : Hold
  xa   : Route
  xb   : Route
  xc   : Route
  rm   : Rm
  lit  : Option W32
  deriving DecidableEq, Repr

/-- MEM class fields (R82). In X format `lit` is the byte offset and `off` is 0 (R88). -/
structure Mem where
  e   : Bool
  pm  : Fin 8
  d   : Dst
  a   : Src
  b   : Src
  off : BitVec 12
  pn  : Bool
  ch  : Bool
  xa  : Route
  xb  : Route
  w   : Width
  lit : Option W32
  deriving DecidableEq, Repr

/-- MAT class fields (R84). -/
structure Mat where
  e    : Bool
  pm   : Fin 8
  s    : Fin 32
  a    : Src
  b    : Src
  d    : Dst
  hold : Hold
  xa   : Route
  xb   : Route
  fs   : Fin 8
  kc   : Fin 16
  pn   : Bool
  lit  : Option W32
  deriving DecidableEq, Repr

/-- ENG class fields (R85). `t` is a token register, a destination or `void` by instruction; `n` is the first named
register of a range, or none. -/
structure Eng where
  e    : Bool
  pm   : Fin 8
  t    : Dst
  a    : Src
  b    : Src
  n    : Option (Fin 32)
  hold : Hold
  xa   : Route
  xb   : Route
  pn   : Bool
  lit  : Option W32
  deriving DecidableEq, Repr

/-- CTL class fields of the instructions that read them (R86). PM is 0 in this class. -/
structure Ctl where
  e   : Bool
  d   : Dst
  a   : Src
  xa  : Route
  off : BitVec 16
  lit : Option W32
  deriving DecidableEq, Repr

/-- S format fields (R74). -/
structure Short where
  e  : Bool
  d  : Dst
  a  : Src
  b  : Src
  pm : Fin 8
  ha : Bool
  deriving DecidableEq, Repr

/-- Stream source specifiers (R89). -/
inductive ASrc where
  | a (k : Fin 16) | zero | one | lit
  deriving DecidableEq, Repr

/-- Stream fields in the ALU layout (R89). `d` is an a register or none (0x01). -/
structure Str where
  e   : Bool
  d   : Option (Fin 16)
  a   : ASrc
  b   : ASrc
  c   : ASrc
  lit : Option W32
  deriving DecidableEq, Repr

/-- Stream fields in the CTL layout, for ABR and ALOOP (R89). -/
structure StrCtl where
  e   : Bool
  a   : ASrc
  off : BitVec 16
  lit : Option W32
  deriving DecidableEq, Repr

/-- A block header (R90). FLAGS[3] is reserved and never set in a header that decodes. -/
structure Header where
  len   : BitVec 10
  live  : W32
  join  : BitVec 14
  pf    : Fin 4
  cold  : Bool
  loop  : Bool
  entry : Bool
  deriving DecidableEq, Repr

/-- A fabric identity as a request carries it (R313). -/
abbrev Ident := W32

/-- A memory request from outside (R318). -/
inductive ReqKind where
  | read (n : Nat)
  | write (bytes : List Byte)
  | stl (bytes : List Byte) (sig : BitVec 512)
  | atomic (op : AOp) (ord : Ord4) (wide : Bool) (v cmp : Word) (sig : BitVec 512)
  deriving DecidableEq, Repr

/-- The part of another rank in a collective, as it arrives over the fabric (R322). -/
structure CollPeer where
  rank   : Nat
  kind   : CollKind
  op     : CollOp
  ty     : CollTy
  count  : Nat
  root   : Nat
  source : List Byte
  deriving DecidableEq, Repr

/-- A management access to a register (R6). -/
inductive RegAccess where
  | read | write (v : Word)
  deriving DecidableEq, Repr

/-- What the host node answers to the boot controller's read of the firmware image (R337). -/
structure BootImage where
  image     : List Byte
  signature : List Byte
  version   : Nat
  stages    : List (BitVec 256)
  mgrid     : W32
  parts     : List Nat
  deriving DecidableEq, Repr

/-- Instructions and device steps, one constructor per row of the opcode table. Teams are named by JOBID and team
index, waves by their index in the team, engine commands by the number the model gives each at commit. -/
inductive Instr where
  -- integer block (R93)
  | iadd (sat : Bool) (ty : ITy) (f : Alu)
  | isub (sat : Bool) (ty : ITy) (f : Alu)
  | imul (ty : ITy) (f : Alu)
  | imulh (ty : ITy) (f : Alu)
  | imad (ty : ITy) (f : Alu)
  | imin (ty : ITy) (f : Alu)
  | imax (ty : ITy) (f : Alu)
  | iabs (w : Width) (f : Alu)
  | ineg (w : Width) (f : Alu)
  | icmp (cc : Icc) (ty : ITy) (f : Alu)
  | lea (signed : Bool) (sh : Fin 8) (f : Alu)
  | andI (ty : ITy) (f : Alu)
  | andn (ty : ITy) (f : Alu)
  | orI (ty : ITy) (f : Alu)
  | xorI (ty : ITy) (f : Alu)
  | notI (ty : ITy) (f : Alu)
  | shl (ty : ITy) (f : Alu)
  | shr (ty : ITy) (f : Alu)
  | sar (ty : ITy) (f : Alu)
  | rol (ty : ITy) (f : Alu)
  | popc (ty : ITy) (f : Alu)
  | clz (ty : ITy) (f : Alu)
  | brev (ty : ITy) (f : Alu)
  | bfe (ty : ITy) (f : Alu)
  | bfi (ty : ITy) (f : Alu)
  | sel (ty : ITy) (f : Alu)
  -- float block (R94)
  | fadd (ty : FTy) (f : Alu)
  | fsub (ty : FTy) (f : Alu)
  | fmul (ty : FTy) (f : Alu)
  | ffma (ty : FTy) (f : Alu)
  | fmin (ty : FTy) (f : Alu)
  | fmax (ty : FTy) (f : Alu)
  | fcmp (cc : Fcc) (ty : FTy) (f : Alu)
  | fclass (ty : FTy) (f : Alu)
  | frnd (ty : FTy) (f : Alu)
  | frcp (ty : TTy) (f : Alu)
  | frsq (ty : TTy) (f : Alu)
  | fsqrt (ty : TTy) (f : Alu)
  | fexp2 (ty : TTy) (f : Alu)
  | flog2 (ty : TTy) (f : Alu)
  | fsin (ty : TTy) (f : Alu)
  | fcos (ty : TTy) (f : Alu)
  | ftanh (ty : TTy) (f : Alu)
  | fsigm (ty : TTy) (f : Alu)
  -- cross-lane, conversion and the rest of the ALU class (R95)
  | red (op : RedOp) (ty : Ty) (f : Alu)
  | scan (op : RedOp) (excl : Bool) (ty : Ty) (f : Alu)
  | cvt (dst src : Ty) (part : Fin 4) (f : Alu)
  | amax (ty : FTy) (f : Alu)
  | qscale (fs : Fin 8) (f : Alu)
  | qpack (fs : Fin 8) (f : Alu)
  | qunpack (fs : Fin 8) (f : Alu)
  | bpsplit (fs : Fin 8) (f : Alu)
  | bpjoin (fs : Fin 8) (f : Alu)
  | perm (ty : Ty) (f : Alu)
  | vote (fn : VoteFn) (f : Alu)
  | matchI (ty : Ty) (f : Alu)
  | wsync (f : Alu)
  | mov (ty : Ty) (f : Alu)
  | movm (k : Fin 8) (toReg : Bool) (w : Width) (f : Alu)
  | movs (code : Fin 64) (f : Alu)
  -- MEM class (R82)
  | ld (f : Mem)
  | st (f : Mem)
  | lda (f : Mem)
  | stl (f : Mem)
  | lds (f : Mem)
  | sts (f : Mem)
  | ldx (f : Mem)
  | stx (f : Mem)
  | ldc (f : Mem)
  | atom (op : AOp) (ord : Ord4) (f : Mem)
  | atoms (op : AOp) (ord : Ord4) (f : Mem)
  | fence (f : Mem)
  -- MAT class (R84)
  | mma (f : Mat)
  | accload (f : Mat)
  | accdrain (f : Mat)
  | accrel (f : Mat)
  -- ENG class (R85)
  | copy (lg : Width) (srcS dstS : Bool) (f : Eng)
  | engage (f : Eng)
  | rdv (f : Eng)
  | semsig (k : Fin 8) (f : Eng)
  | semwait (k : Fin 8) (f : Eng)
  | qpop (k : Fin 4) (f : Eng)
  | qpush (k : Fin 4) (f : Eng)
  | ncall (kin : Fin 8) (mout : Fin 4) (f : Eng)
  | nflush (all : Bool) (f : Eng)
  | wbind (f : Eng)
  | wpin (f : Eng)
  | wunpin (f : Eng)
  | wpref (f : Eng)
  | gmv (fs : Fin 8) (f : Eng)
  | gmm (v : Fin 4) (fs : Fin 8) (f : Eng)
  | binapp (op : AOp) (wide : Bool) (f : Eng)
  | binreplay (f : Eng)
  | wlinit (f : Eng)
  | wlpush (f : Eng)
  | wlins (f : Eng)
  | wlpopb (f : Eng)
  | hashb (kin : Fin 8) (proj : Fin 16) (f : Eng)
  | enq (f : Eng)
  | depdec (set : Bool) (f : Eng)
  | tex (lod : Lod) (f : Eng)
  | texg (lod : Lod) (ch : Fin 4) (f : Eng)
  | attr (f : Eng)
  | exportV (tgt : Fin 16) (depth : Bool) (f : Eng)
  | discard (f : Eng)
  | rayq (any cull : Bool) (f : Eng)
  | coll (kind : CollKind) (op : CollOp) (ty : CollTy) (f : Eng)
  | deal (f : Eng)
  -- CTL class (R86)
  | bra (c : BrCond) (f : Ctl)
  | brx (f : Ctl)
  | call (f : Ctl)
  | ret (f : Ctl)
  | exit (e : Bool)
  | lsetup (k : Fin 4) (len2 : BitVec 10) (f : Ctl)
  | fork (f : Ctl)
  | fjoin (e : Bool)
  | bar (e : Bool)
  | cbar (hold : Bool) (e : Bool)
  | yield (e : Bool)
  | nop (e : Bool)
  | trig (e : Bool)
  | trap (code : BitVec 16) (e : Bool)
  | rft (skip : Bool) (e : Bool)
  | csrr (num : BitVec 12) (e : Bool) (d : Dst)
  | csrw (num : BitVec 12) (f : Ctl)
  | brk (code : BitVec 16) (e : Bool)
  | halt (e : Bool)
  -- S format (R96)
  | nopS (e : Bool)
  | movS (f : Short)
  | ldS64 (f : Short)
  | stS64 (f : Short)
  | ldsS64 (f : Short)
  | stsS64 (f : Short)
  | ldS32 (f : Short)
  | stS32 (f : Short)
  | ldsS32 (f : Short)
  | stsS32 (f : Short)
  | iaddS (ty : ITy) (f : Short)
  | isubS (ty : ITy) (f : Short)
  | imulS (ty : ITy) (f : Short)
  | andS (ty : ITy) (f : Short)
  | orS (ty : ITy) (f : Short)
  | xorS (ty : ITy) (f : Short)
  | shlS (ty : ITy) (f : Short)
  | shrS (ty : ITy) (f : Short)
  | iminS (ty : ITy) (f : Short)
  | imaxS (ty : ITy) (f : Short)
  | faddS (ty : FTy) (f : Short)
  | fsubS (ty : FTy) (f : Short)
  | fmulS (ty : FTy) (f : Short)
  | fminS (ty : FTy) (f : Short)
  | fmaxS (ty : FTy) (f : Short)
  -- stream engine (R95, R211)
  | amov (hi : Bool) (f : Str)
  | aadd (f : Str)
  | acmp (cc : Icc) (f : Str)
  | abr (c : BrCond) (f : StrCtl)
  | aloop (k : Fin 4) (len2 : BitVec 10) (f : StrCtl)
  | amove (f : Str)
  | agather (f : Str)
  | ascatter (f : Str)
  | asig (k : Fin 8) (f : Str)
  | await (k : Fin 8) (f : Str)
  | ahalt (f : Str)
  -- waits that end (R26, R37, R40, R44, R209 to R216)
  | takenWaitResumeBar (job team : Nat)
  | cbarComplete (job cohort : Nat)
  | fjoinComplete (job team wave : Nat)
  | wsyncRelease (job team wave : Nat) (pc : Word)
  | rejoinTimeout (job team wave entry : Nat)
  | semwaitComplete (job team : Nat) (k : Fin 8)
  | awaitComplete (job team : Nat)
  | streamOwnerAcquire (job team : Nat)
  | qpopComplete (job team : Nat) (k : Fin 4)
  | qpushComplete (job team : Nat) (k : Fin 4)
  | engageStart (job team : Nat)
  | rdvComplete (job team : Nat)
  | streamFault (job team : Nat)
  | dqGrow (job team : Nat)
  -- engine commands that finish, fault or wait (R218 to R322)
  | copyComplete (cmd : Nat)
  | copyFault (cmd : Nat)
  | indexElementPark (cmd element : Nat)
  | mmaComplete (cmd : Nat)
  | accdrainComplete (cmd : Nat)
  | jobLeaveEngine (job cluster : Nat)
  | binDispatchTimer (bin : Nat)
  | binDispatchBlocked (cluster : Nat)
  | belfryLoad (cluster vf handle : Nat)
  | ncallComplete (cmd : Nat)
  | wbindComplete (cmd : Nat)
  | grammarComplete (cmd : Nat)
  | binappAppend (cmd : Nat)
  | binreplayComplete (cmd : Nat)
  | worklistApply (cmd : Nat)
  | enqComplete (cmd : Nat)
  | collComplete (cmd : Nat) (peers : List CollPeer)
  | rayqComplete (cmd : Nat)
  | commandTranslationFault (cmd : Nat)
  | remoteTimeout (job team wave : Nat) (lane : Fin 32) (hpa : Word) (write : Bool)
  | remoteRequest (dev part : Nat) (hpa : Word) (k : ReqKind)
  | l1LineExpire (core : Nat) (line : Nat)
  | registerFileError (job team wave : Nat) (lane : Fin 32) (r : Src)
  | starvationPromote (job team wave : Nat) (pc : Word)
  | guardExpire (job team : Nat)
  -- scheduler (R278 to R296, R335)
  | cardLaunch (vf queue : Nat)
  | earlyLaunch (job : Nat)
  | jobComplete (job : Nat)
  | teamAdmit (job cohort cluster : Nat) (cores : List Nat)
  | sliceStep (cluster : Nat)
  | preempt (job cohort : Nat)
  | restore (job team wave : Nat)
  | parking (job team wave : Nat)
  | swapping (job cohort : Nat)
  | kettleGrant (demands : List Nat)
  -- rendering (R296 to R309)
  | drawLaunch (vf queue : Nat)
  | rasterise (draw : Nat)
  | fragmentBlend (draw : Nat)
  | drawComplete (draw : Nat)
  -- management requests (R173, R191, R195 to R198, R281, R285, R312 to R342)
  | qnotify (by_ : Ident) (vf : Nat) (v : Word)
  | faultackRetry (by_ : Ident) (vf : Nat) (ticket : W32)
  | faultackDeliver (by_ : Ident) (vf : Nat) (ticket : W32)
  | faultackTerminate (by_ : Ident) (vf : Nat) (ticket : W32)
  | tlbinv (by_ : Ident) (vf : Nat) (v : Word)
  | tlbinvDone (vf : Nat)
  | bankcfgWrite (by_ : Ident) (part bank : Nat) (v : W32)
  | bankcfgChangeDone (bank : Nat)
  | partownWrite (by_ : Ident) (part : Nat) (v : BitVec 384)
  | harvestStart (by_ : Ident) (vf : Nat) (v : Word)
  | harvestDone (vf : Nat)
  | fqcfgWrite (by_ : Ident) (vf : Nat) (v : Word)
  | fqptrWrite (by_ : Ident) (vf : Nat) (v : Word)
  | sysasdWrite (by_ : Ident) (vf : Nat) (v : Word)
  | sampcfgWrite (by_ : Ident) (vf : Nat) (v : Word)
  | vfcfgWrite (by_ : Ident) (vf : Nat) (v : Word)
  | vfquotaWrite (by_ : Ident) (vf : Nat) (v : Word)
  | kbudgetWrite (by_ : Ident) (v : Word)
  | irqlogWrite (by_ : Ident) (vf : Nat) (v : Word)
  | hvidWrite (by_ : Ident) (part : Nat) (v : Word)
  | vftablesRead (by_ : Ident) (vf : Nat)
  | irqptrRead (by_ : Ident) (vf : Nat)
  | sampptrRead (by_ : Ident) (vf : Nat)
  | qctlGo (by_ : Ident) (part : Nat) (v : Word)
  | quoteDone (part : Nat)
  | registerWrite (by_ : Ident) (space index offset : Nat) (a : RegAccess)
  -- freeze, test port, power (R332 to R337)
  | frzNAssert
  | freezeWrite (by_ : Ident) (v : Word)
  | bypass
  | idcode
  | scanrd
  | rstN
  | measuredBoot (img : BootImage)
  | gddr7UncorrectableError (hpa : Word) (corrected : Bool)
  | remoteRefusal (job team wave : Nat) (lane : Fin 32) (hpa : Word) (write : Bool)
  deriving DecidableEq, Repr

end Sys2Proof
end

