-- ==== Sys2Proof/WellFormed.lean ====
section
/-!
DEFINITION. Which instruction terms are instructions of the spec (the fates of R97 that the text of one instruction
decides), each refused by name, and the common view of an instruction: its sources, routes, holds, destinations and
named registers.
-/

namespace Sys2Proof

/-- Why an encoding is not an instruction (R97). -/
inductive Bad where
  | reservedOpc | reservedSrc | reservedDst | reservedRoute | routeOnConstant | litOutsideX | holdUnread
  | reservedFn | reservedCf | reservedCmd | reservedAop | reservedW | rmNotAllowed | unusedField | reservedBit
  | xFormNotAllowed | dstNotAllowed | haOnMem | pmInCtl | typeNotAllowed | header | truncated | notCode
  deriving DecidableEq, Repr

def Width.bits : Width → Nat
  | .b8 => 8 | .b16 => 16 | .b32 => 32 | .b64 => 64

def Width.bytes : Width → Nat
  | .b8 => 1 | .b16 => 2 | .b32 => 4 | .b64 => 8

/-- The sub-element count, 64 divided by the width (R55). -/
def Width.count (w : Width) : Nat := 64 / w.bits

def FTy.width : FTy → Width
  | .f64 => .b64 | .f32 => .b32 | .f16 => .b16 | .bf16 => .b16

def TTy.fty : TTy → FTy
  | .f32 => .f32 | .f16 => .f16

/-- The width a type gives to predication; e2m1 codes are handled by CVT alone (R55). -/
def Ty.width : Ty → Width
  | .int t => t.width | .flt t => t.width | .e5m2 => .b8 | .e4m3 => .b8 | .e2m1 => .b8

/-- The width in bits, with 4 for e2m1 (R381). -/
def Ty.bits : Ty → Nat
  | .e2m1 => 4 | t => t.width.bits

/-- Is every value of `src` exactly representable in `dst` (R79, R381)? Integer-to-integer conversions do not round. -/
def Ty.exactIn (src dst : Ty) : Bool :=
  match src, dst with
  | .int _, .int _ => true
  | .int t, .flt .f64 => t.width.bits ≤ 32
  | .int t, .flt .f32 => t.width.bits ≤ 16
  | .int t, .flt .f16 => t.width.bits ≤ 8
  | .int t, .flt .bf16 => t.width.bits ≤ 8
  | .flt s, .flt d => s == d || d == .f64 || (d == .f32 && s != .f64)
  | .e5m2, .flt d => d != .f16
  | .e4m3, .flt _ => true
  | .e2m1, .flt _ => true
  | .e5m2, .e5m2 => true
  | .e4m3, .e4m3 => true
  | .e2m1, .e5m2 => true
  | .e2m1, .e4m3 => true
  | .e2m1, .e2m1 => true
  | _, _ => false

/-- The CVT part p must be below min(r, 4), r the ratio of the widths (R381). -/
def Ty.partOk (dst src : Ty) (p : Fin 4) : Bool :=
  let r := max dst.bits src.bits / min dst.bits src.bits
  p.val < min r 4

/-- The L form of an S word of an ALU entry (R74). -/
def Short.alu (f : Short) : Alu :=
  { e := f.e, pm := f.pm, d := f.d, a := f.a, b := f.b, c := .zero, hold := if f.ha then .a else .off,
    xa := .own, xb := .own, xc := .own, rm := .ne, lit := none }

/-- The L form of an S word of a MEM entry (R74, R96). -/
def Short.mem (f : Short) (w : Width) : Mem :=
  { e := f.e, pm := f.pm, d := f.d, a := f.a, b := f.b, off := 0, pn := false, ch := false,
    xa := .own, xb := .own, w := w, lit := none }

/-- The layouts of R75. -/
inductive Cls where
  | alu | mem | mat | eng | ctl
  deriving DecidableEq, Repr

/-- What an instruction reads and writes, as its text gives it: the sources it reads in the order A, B, C, the
destination it writes, the further named registers it names, and its length in words. -/
structure Shape where
  cls   : Cls
  e     : Bool
  pm    : Fin 8
  pn    : Bool
  srcs  : List (Src × Route)
  hold  : Hold
  dst   : Dst
  reads : List Nat          -- further named registers read (N ranges, slot, cas comparand)
  writes : List Nat         -- further named registers written (tokens, slot, outputs)
  lit   : Option W32
  words : Nat
  deriving DecidableEq, Repr

def litWords (l : Option W32) : Nat := if l.isSome then 3 else 2

def Alu.shape (f : Alu) (n : Nat) : Shape :=
  { cls := .alu, e := f.e, pm := f.pm, pn := false,
    srcs := [(f.a, f.xa), (f.b, f.xb), (f.c, f.xc)].take n, hold := f.hold, dst := f.d, reads := [], writes := [],
    lit := f.lit, words := litWords f.lit }

def Mem.shape (f : Mem) (n : Nat) (reads : List Nat) : Shape :=
  { cls := .mem, e := f.e, pm := f.pm, pn := f.pn, srcs := [(f.a, f.xa), (f.b, f.xb)].take n, hold := .off,
    dst := f.d, reads := reads, writes := [], lit := f.lit, words := litWords f.lit }

def Mat.shape (f : Mat) (n : Nat) (writes : List Nat) : Shape :=
  { cls := .mat, e := f.e, pm := f.pm, pn := f.pn, srcs := [(f.a, f.xa), (f.b, f.xb)].take n, hold := f.hold,
    dst := f.d, reads := [f.s.val], writes := writes, lit := f.lit, words := litWords f.lit }

/-- `k` registers from `n` on (R85); a range may pass n31, which R52 refuses. -/
def Eng.range (f : Eng) (k : Nat) : List Nat :=
  match f.n with
  | none => []
  | some n => (List.range k).map (n.val + ·)

def Dst.reg : Dst → List Nat
  | .n k => [k.val]
  | _ => []

/-- An ENG instruction whose T is a destination specifier. -/
def Eng.shapeD (f : Eng) (n : Nat) (k : Nat) : Shape :=
  { cls := .eng, e := f.e, pm := f.pm, pn := f.pn, srcs := [(f.a, f.xa), (f.b, f.xb)].take n, hold := f.hold,
    dst := f.t, reads := f.range k, writes := [], lit := f.lit, words := litWords f.lit }

/-- An ENG instruction whose T is a token register (R69) or 0x01. -/
def Eng.shapeT (f : Eng) (n : Nat) (k : Nat) (outs : List Nat) : Shape :=
  { cls := .eng, e := f.e, pm := f.pm, pn := f.pn, srcs := [(f.a, f.xa), (f.b, f.xb)].take n, hold := f.hold,
    dst := .void, reads := f.range k, writes := f.t.reg ++ outs, lit := f.lit, words := litWords f.lit }

def Ctl.shape (f : Ctl) (n : Nat) : Shape :=
  { cls := .ctl, e := f.e, pm := 0, pn := false, srcs := [(f.a, f.xa)].take n, hold := .off, dst := f.d,
    reads := [], writes := [], lit := none, words := litWords f.lit }

def plainCtl (e : Bool) : Shape :=
  { cls := .ctl, e := e, pm := 0, pn := false, srcs := [], hold := .off, dst := .void, reads := [], writes := [],
    lit := none, words := 2 }

def Short.aluShape (f : Short) (n : Nat) : Shape := { f.alu.shape n with words := 1 }
def Short.memShape (f : Short) (n : Nat) : Shape := { (f.mem .b64).shape n [] with words := 1 }

def Src.reg : Src → List Nat
  | .n k => [k.val]
  | _ => []

/-- NCALL's output registers, m of them from the register that B names (R243). -/
def Eng.outRange (f : Eng) (m : Fin 4) : List Nat :=
  match f.b with
  | .n r => (List.range (m.val + 1)).map (r.val + ·)
  | _ => []

def atomReads (op : AOp) (f : Mem) : List Nat := if op = .cas then f.d.reg else []

/-- The view of a SIMT instruction; none for a stream instruction or a device step. -/
def Instr.shape : Instr → Option Shape
  | .iadd _ _ f => some (f.shape 2) | .isub _ _ f => some (f.shape 2)
  | .imul _ f => some (f.shape 2) | .imulh _ f => some (f.shape 2)
  | .imad _ f => some (f.shape 3)
  | .imin _ f => some (f.shape 2) | .imax _ f => some (f.shape 2)
  | .iabs _ f => some (f.shape 1) | .ineg _ f => some (f.shape 1)
  | .icmp _ _ f => some (f.shape 2) | .lea _ _ f => some (f.shape 2)
  | .andI _ f => some (f.shape 2) | .andn _ f => some (f.shape 2) | .orI _ f => some (f.shape 2)
  | .xorI _ f => some (f.shape 2) | .notI _ f => some (f.shape 1)
  | .shl _ f => some (f.shape 2) | .shr _ f => some (f.shape 2) | .sar _ f => some (f.shape 2)
  | .rol _ f => some (f.shape 2)
  | .popc _ f => some (f.shape 1) | .clz _ f => some (f.shape 1) | .brev _ f => some (f.shape 1)
  | .bfe _ f => some (f.shape 3) | .bfi _ f => some (f.shape 3) | .sel _ f => some (f.shape 3)
  | .fadd _ f => some (f.shape 2) | .fsub _ f => some (f.shape 2) | .fmul _ f => some (f.shape 2)
  | .ffma _ f => some (f.shape 3)
  | .fmin _ f => some (f.shape 2) | .fmax _ f => some (f.shape 2) | .fcmp _ _ f => some (f.shape 2)
  | .fclass _ f => some (f.shape 1) | .frnd _ f => some (f.shape 1)
  | .frcp _ f => some (f.shape 1) | .frsq _ f => some (f.shape 1) | .fsqrt _ f => some (f.shape 1)
  | .fexp2 _ f => some (f.shape 1) | .flog2 _ f => some (f.shape 1) | .fsin _ f => some (f.shape 1)
  | .fcos _ f => some (f.shape 1) | .ftanh _ f => some (f.shape 1) | .fsigm _ f => some (f.shape 1)
  | .red _ _ f => some (f.shape 1) | .scan _ _ _ f => some (f.shape 1)
  | .cvt _ _ _ f => some (f.shape 1) | .amax _ f => some (f.shape 2)
  | .qscale _ f => some (f.shape 1) | .qpack _ f => some (f.shape 2) | .qunpack _ f => some (f.shape 2)
  | .bpsplit _ f => some (f.shape 1) | .bpjoin _ f => some (f.shape 1)
  | .perm _ f => some (f.shape 2) | .vote _ f => some (f.shape 1) | .matchI _ f => some (f.shape 1)
  | .wsync f => some (f.shape 1) | .mov _ f => some (f.shape 1)
  | .movm _ toReg _ f => some (f.shape (if toReg then 0 else 1))
  | .movs _ f => some (f.shape 0)
  | .ld f => some (f.shape 1 []) | .lda f => some (f.shape 1 []) | .lds f => some (f.shape 1 [])
  | .ldx f => some (f.shape 1 []) | .ldc f => some (f.shape 1 [])
  | .st f => some (f.shape 2 []) | .stl f => some (f.shape 2 []) | .sts f => some (f.shape 2 [])
  | .stx f => some (f.shape 2 [])
  | .atom op _ f => some (f.shape 2 (atomReads op f)) | .atoms op _ f => some (f.shape 2 (atomReads op f))
  | .fence f => some (f.shape 0 [])
  | .mma f => some (f.shape 2 [f.s.val]) | .accload f => some (f.shape 1 [])
  | .accdrain f => some (f.shape 2 []) | .accrel f => some (f.shape 0 [f.s.val])
  | .copy _ _ _ f => some (f.shapeT 2 1 []) | .engage f => some (f.shapeT 2 0 [])
  | .rdv f => some (f.shapeT 0 0 []) | .semsig _ f => some (f.shapeT 1 0 [])
  | .semwait _ f => some (f.shapeT 1 0 [])
  | .qpop _ f => some (f.shapeD 0 0) | .qpush _ f => some (f.shapeT 1 0 [])
  | .ncall k m f => some (f.shapeT 1 (k.val + 1)
      (f.outRange m))
  | .nflush all f => some (f.shapeT (if all then 0 else 1) 0 [])
  | .wbind f => some (f.shapeT 2 0 []) | .wpin f => some (f.shapeT 1 0 [])
  | .wunpin f => some (f.shapeT 1 0 []) | .wpref f => some (f.shapeT 1 0 [])
  | .gmv _ f => some (f.shapeT 2 1 []) | .gmm _ _ f => some (f.shapeT 2 2 [])
  | .binapp _ _ f => some (f.shapeT 2 1 []) | .binreplay f => some (f.shapeT 2 1 [])
  | .wlinit f => some (f.shapeT 1 0 []) | .wlpush f => some (f.shapeT 2 0 [])
  | .wlins f => some (f.shapeD 2 0) | .wlpopb f => some (f.shapeD 1 0)
  | .hashb k _ f => some (f.shapeD 1 (k.val + 1))
  | .enq f => some (f.shapeD 2 0) | .depdec _ f => some (f.shapeT 2 0 [])
  | .tex _ f => some (f.shapeD 2 2) | .texg _ _ f => some (f.shapeD 2 2) | .attr f => some (f.shapeD 2 0)
  | .exportV _ _ f => some (f.shapeT 2 0 []) | .discard f => some (f.shapeT 0 0 [])
  | .rayq _ _ f => some (f.shapeT 1 4 ((f.range 4).take 2))
  | .coll _ _ _ f => some (f.shapeT 2 2 []) | .deal f => some (f.shapeD 0 0)
  | .bra c f => some (f.shape (if c = .always then 0 else 1))
  | .brx f => some (f.shape 1) | .call f => some (f.shape 0) | .ret f => some (f.shape 1)
  | .exit e => some (plainCtl e) | .lsetup _ _ f => some (f.shape 1) | .fork f => some (f.shape 1)
  | .fjoin e => some (plainCtl e) | .bar e => some (plainCtl e) | .cbar _ e => some (plainCtl e)
  | .yield e => some (plainCtl e) | .nop e => some (plainCtl e) | .trig e => some (plainCtl e)
  | .trap _ e => some (plainCtl e) | .rft _ e => some (plainCtl e)
  | .csrr _ e d => some { plainCtl e with dst := d }
  | .csrw _ f => some (f.shape 1) | .brk _ e => some (plainCtl e) | .halt e => some (plainCtl e)
  | .nopS e => some { plainCtl e with words := 1 }
  | .movS f => some (f.aluShape 1)
  | .ldS64 f => some (f.memShape 1) | .stS64 f => some (f.memShape 2) | .ldsS64 f => some (f.memShape 1)
  | .stsS64 f => some (f.memShape 2) | .ldS32 f => some (f.memShape 1) | .stS32 f => some (f.memShape 2)
  | .ldsS32 f => some (f.memShape 1) | .stsS32 f => some (f.memShape 2)
  | .iaddS _ f => some (f.aluShape 2) | .isubS _ f => some (f.aluShape 2) | .imulS _ f => some (f.aluShape 2)
  | .andS _ f => some (f.aluShape 2) | .orS _ f => some (f.aluShape 2) | .xorS _ f => some (f.aluShape 2)
  | .shlS _ f => some (f.aluShape 2) | .shrS _ f => some (f.aluShape 2) | .iminS _ f => some (f.aluShape 2)
  | .imaxS _ f => some (f.aluShape 2) | .faddS _ f => some (f.aluShape 2) | .fsubS _ f => some (f.aluShape 2)
  | .fmulS _ f => some (f.aluShape 2) | .fminS _ f => some (f.aluShape 2) | .fmaxS _ f => some (f.aluShape 2)
  | _ => none

/-- The first check that fails, by name. -/
def firstBad : List (Bool × Bad) → Option Bad
  | [] => none
  | (ok, b) :: rest => if ok then firstBad rest else some b

/-- May a source carry a route (R65)? -/
def Src.routable : Src → Bool
  | .q _ => true | .n _ => true | _ => false

def routeOk (s : Src) (x : Route) : Bool := x = .own || s.routable
def litOk (s : Src) (l : Option W32) : Bool := s ≠ .lit || l.isSome

/-- Checks shared by the ALU class: `n` sources read, `rnd` true when RM may be other than 00. -/
def Alu.checks (f : Alu) (n : Nat) (rnd : Bool) : List (Bool × Bad) :=
  [ (n ≥ 1 || (f.a = .zero && f.xa = .own), .unusedField),
    (n ≥ 2 || (f.b = .zero && f.xb = .own), .unusedField),
    (n ≥ 3 || (f.c = .zero && f.xc = .own), .unusedField),
    (litOk f.a f.lit && litOk f.b f.lit && litOk f.c f.lit, .litOutsideX),
    (routeOk f.a f.xa && routeOk f.b f.xb && routeOk f.c f.xc, .routeOnConstant),
    (match f.hold with | .off => true | .a => n ≥ 1 | .b => n ≥ 2 | .c => n ≥ 3, .holdUnread),
    (rnd || f.rm = .ne, .rmNotAllowed) ]

/-- A MEM instruction's X literal is its offset: OFF is then 0, and lit may not be named (R88). -/
def Mem.checks (f : Mem) (n : Nat) (store : Bool) (chOk : Bool) (narrow : Bool) : List (Bool × Bad) :=
  [ (n ≥ 1 || (f.a = .zero && f.xa = .own), .unusedField),
    (n ≥ 2 || (f.b = .zero && f.xb = .own), .unusedField),
    (f.a ≠ .lit && f.b ≠ .lit, .litOutsideX),
    (routeOk f.a f.xa && routeOk f.b f.xb, .routeOnConstant),
    (!store || f.d = .void, .dstNotAllowed),
    (chOk || !f.ch, .unusedField),
    (narrow || f.w = .b32 || f.w = .b64, .reservedW),
    (f.lit.isNone || f.off = 0, .unusedField) ]

def Mem.atomChecks (op : AOp) (f : Mem) : List (Bool × Bad) :=
  [ (f.a ≠ .lit && f.b ≠ .lit, .litOutsideX),
    (routeOk f.a f.xa && routeOk f.b f.xb, .routeOnConstant),
    (f.lit.isNone, .xFormNotAllowed),
    (f.off = 0 && !f.ch, .unusedField),
    (f.w = .b32 || f.w = .b64, .reservedW),
    (op ≠ .cas || f.d.reg ≠ [], .dstNotAllowed) ]

def holdEng (h : Hold) (n : Nat) : Bool :=
  match h with | .off => true | .a => n ≥ 1 | .b => n ≥ 2 | .c => false

def Mat.checks (f : Mat) (n : Nat) (hasD hasFs hasKc : Bool) : List (Bool × Bad) :=
  [ (n ≥ 1 || (f.a = .zero && f.xa = .own), .unusedField),
    (n ≥ 2 || (f.b = .zero && f.xb = .own), .unusedField),
    (litOk f.a f.lit && litOk f.b f.lit, .litOutsideX),
    (routeOk f.a f.xa && routeOk f.b f.xb, .routeOnConstant),
    (hasD || f.d = .void, .dstNotAllowed),
    (holdEng f.hold n, .holdUnread),
    (hasFs || f.fs = 0, .unusedField),
    (if hasKc then f.kc ≠ 0 else f.kc = 0, .unusedField) ]

/-- The role of T (R85). -/
inductive TRole where
  | token | dest | none
  deriving DecidableEq, Repr

def TRole.ok (r : TRole) (t : Dst) : Bool :=
  match r with | .token => t.reg ≠ [] | .dest => true | .none => t = .void

def Eng.checks (f : Eng) (n : Nat) (r : TRole) (hasN : Bool) : List (Bool × Bad) :=
  [ (n ≥ 1 || (f.a = .zero && f.xa = .own), .unusedField),
    (n ≥ 2 || (f.b = .zero && f.xb = .own), .unusedField),
    (litOk f.a f.lit && litOk f.b f.lit, .litOutsideX),
    (routeOk f.a f.xa && routeOk f.b f.xb, .routeOnConstant),
    (r.ok f.t, .dstNotAllowed),
    (hasN == f.n.isSome, .unusedField),
    (holdEng f.hold n, .holdUnread) ]

/-- A token register equal to a register of the N range is ILLEGAL (R257, R310, R321, R369, R379). -/
def Eng.tokenOutside (f : Eng) (k : Nat) : Bool := f.t.reg.all fun t => !(f.range k).contains t

/-- The control registers that exist: 1 to 3 for users, 0x800 and above for the system (R380). -/
def csrKnown (k : BitVec 12) : Bool := k = 1 || k = 2 || k = 3 || 0x800 ≤ k.toNat

/-- NCALL's B names its output range, unrouted (R243). -/
def Eng.ncallChecks (f : Eng) : List (Bool × Bad) :=
  [ (litOk f.a f.lit, .litOutsideX), (routeOk f.a f.xa, .routeOnConstant), (f.xb = .own, .unusedField),
    (TRole.token.ok f.t, .dstNotAllowed), (f.b.reg ≠ [], .reservedSrc), (f.n.isSome, .unusedField),
    (holdEng f.hold 1, .holdUnread) ]

def Ctl.checks (f : Ctl) (n : Nat) (target : Bool) (dOk : Bool) : List (Bool × Bad) :=
  [ (n ≥ 1 || (f.a = .zero && f.xa = .own), .unusedField),
    (f.a ≠ .lit, .litOutsideX),
    (routeOk f.a f.xa, .routeOnConstant),
    (dOk, .dstNotAllowed),
    (target || f.off = 0, .unusedField),
    (target || f.lit.isNone, .xFormNotAllowed),
    (f.lit.isNone || f.off = 0, .unusedField) ]

/-- S words: no lit, no route (R74); MEM entries hold nothing (R96). -/
def Short.checks (f : Short) (n : Nat) (mem store : Bool) : List (Bool × Bad) :=
  [ (f.a ≠ .lit && f.b ≠ .lit, .litOutsideX),
    (n ≥ 2 || f.b = .zero, .unusedField),
    (!mem || !f.ha, .haOnMem),
    (!store || f.d = .void, .dstNotAllowed) ]

def ASrc.ok (s : ASrc) (l : Option W32) : Bool := s ≠ .lit || l.isSome

def Str.checks (f : Str) (n : Nat) (hasD : Bool) : List (Bool × Bad) :=
  [ (f.a.ok f.lit && f.b.ok f.lit && f.c.ok f.lit, .litOutsideX),
    (n ≥ 1 || f.a = .zero, .unusedField), (n ≥ 2 || f.b = .zero, .unusedField),
    (n ≥ 3 || f.c = .zero, .unusedField), (hasD || f.d = none, .dstNotAllowed) ]

def ASrc.isReg : ASrc → Bool | .a _ => true | _ => false

/-- ABR's condition and ALOOP's count are a registers (R346, R348, R355). -/
def StrCtl.checks (f : StrCtl) (n : Nat) : List (Bool × Bad) :=
  [ (f.a ≠ .lit, .litOutsideX), (if n ≥ 1 then f.a.isReg else f.a = .zero, if n ≥ 1 then .reservedSrc else .unusedField),
    (f.lit.isNone || f.off = 0, .unusedField) ]

def redTypeOk (op : RedOp) (t : Ty) : Bool :=
  match t with
  | .int _ => true
  | .flt _ => op = .add || op = .min || op = .max
  | _ => false

def redRnd (op : RedOp) (t : Ty) : Bool :=
  match t with | .flt _ => op = .add | _ => false

/-- Every check that the text of the instruction alone decides (R97), in order. -/
def Instr.checks : Instr → List (Bool × Bad)
  | .iadd _ _ f => f.checks 2 false | .isub _ _ f => f.checks 2 false
  | .imul _ f => f.checks 2 false | .imulh _ f => f.checks 2 false | .imad _ f => f.checks 3 false
  | .imin _ f => f.checks 2 false | .imax _ f => f.checks 2 false
  | .iabs _ f => f.checks 1 false | .ineg _ f => f.checks 1 false
  | .icmp _ _ f => f.checks 2 false | .lea _ _ f => f.checks 2 false
  | .andI _ f => f.checks 2 false | .andn _ f => f.checks 2 false | .orI _ f => f.checks 2 false
  | .xorI _ f => f.checks 2 false | .notI _ f => f.checks 1 false
  | .shl _ f => f.checks 2 false | .shr _ f => f.checks 2 false | .sar _ f => f.checks 2 false
  | .rol _ f => f.checks 2 false
  | .popc _ f => f.checks 1 false | .clz _ f => f.checks 1 false | .brev _ f => f.checks 1 false
  | .bfe _ f => f.checks 3 false | .bfi _ f => f.checks 3 false | .sel _ f => f.checks 3 false
  | .fadd _ f => f.checks 2 true | .fsub _ f => f.checks 2 true | .fmul _ f => f.checks 2 true
  | .ffma _ f => f.checks 3 true
  | .fmin _ f => f.checks 2 false | .fmax _ f => f.checks 2 false | .fcmp _ _ f => f.checks 2 false
  | .fclass _ f => f.checks 1 false | .frnd _ f => f.checks 1 true
  | .frcp _ f => f.checks 1 true | .frsq _ f => f.checks 1 true | .fsqrt _ f => f.checks 1 true
  | .fexp2 _ f => f.checks 1 true | .flog2 _ f => f.checks 1 true | .fsin _ f => f.checks 1 true
  | .fcos _ f => f.checks 1 true | .ftanh _ f => f.checks 1 true | .fsigm _ f => f.checks 1 true
  | .red op t f => (redTypeOk op t, .typeNotAllowed) :: f.checks 1 (redRnd op t)
  | .scan op _ t f => (redTypeOk op t, .typeNotAllowed) :: f.checks 1 (redRnd op t)
  | .cvt d s p f => (Ty.partOk d s p, .reservedFn) :: f.checks 1 (!s.exactIn d)
  | .amax _ f => f.checks 2 false
  | .qscale _ f => f.checks 1 false | .qpack _ f => f.checks 2 false | .qunpack _ f => f.checks 2 false
  | .bpsplit _ f => f.checks 1 false | .bpjoin _ f => f.checks 1 false
  | .perm t f => (t ≠ .e2m1, .reservedFn) :: f.checks 2 false
  | .vote _ f => f.checks 1 false
  | .matchI t f => (t ≠ .e2m1, .reservedFn) :: f.checks 1 false
  | .wsync f => (f.d = .void, .dstNotAllowed) :: (f.hold = .off, .holdUnread) :: (f.pm = 0, .unusedField) :: f.checks 1 false
  | .mov t f => (t ≠ .e2m1, .reservedFn) :: f.checks 1 false
  | .movm _ toReg _ f => (toReg || f.d = .void, .dstNotAllowed) :: f.checks (if toReg then 0 else 1) false
  | .movs c f => (c.val ≤ 20, .reservedFn) :: f.checks 0 false
  | .ld f => f.checks 1 false true true | .lda f => f.checks 1 false false false
  | .lds f => f.checks 1 false false true | .ldx f => f.checks 1 false false true
  | .ldc f => f.checks 1 false false true
  | .st f => f.checks 2 true false true | .stl f => f.checks 2 true false false
  | .sts f => f.checks 2 true false true | .stx f => f.checks 2 true false true
  | .atom op _ f => f.atomChecks op | .atoms op _ f => f.atomChecks op
  | .fence f => (f.off = 0, .unusedField) :: (f.w = .b8, .reservedW) :: f.checks 0 true false true
  | .mma f => f.checks 2 false true true | .accload f => f.checks 1 true false false
  | .accdrain f => f.checks 2 false true false | .accrel f => f.checks 0 false false false
  | .copy _ _ _ f => (f.tokenOutside 1, .dstNotAllowed) :: f.checks 2 .token true
  | .engage f => f.checks 2 .none false | .rdv f => f.checks 0 .none false
  | .semsig _ f => f.checks 1 .none false | .semwait _ f => f.checks 1 .none false
  | .qpop _ f => f.checks 0 .dest false | .qpush _ f => f.checks 1 .none false
  | .ncall _ m f => (f.t.reg.all (fun t => !(f.outRange m).contains t), .dstNotAllowed) :: f.ncallChecks
  | .nflush all f => f.checks (if all then 0 else 1) .none false
  | .wbind f => (f.xb = .own, .unusedField) :: f.checks 2 .none false | .wpin f => f.checks 1 .none false
  | .wunpin f => f.checks 1 .none false | .wpref f => f.checks 1 .none false
  | .gmv _ f => (f.tokenOutside 1, .dstNotAllowed) :: f.checks 2 .token true
  | .gmm _ _ f => (f.tokenOutside 2, .dstNotAllowed) :: f.checks 2 .token true
  | .binapp op _ f => (op ≠ .cas, .reservedAop) :: f.checks 2 .none true
  | .binreplay f => (f.tokenOutside 1, .dstNotAllowed) :: f.checks 2 .token true
  | .wlinit f => f.checks 1 .none false | .wlpush f => f.checks 2 .none false
  | .wlins f => f.checks 2 .dest false | .wlpopb f => f.checks 1 .dest false
  | .hashb _ _ f => f.checks 1 .dest true | .enq f => f.checks 2 .dest false
  | .depdec _ f => f.checks 2 .none false
  -- an implicit level reads no B (R78, R306)
  | .tex lod f => f.checks (if lod = .implicit then 1 else 2) .dest true
  | .texg lod _ f => f.checks (if lod = .implicit then 1 else 2) .dest true
  | .attr f => f.checks 2 .dest false
  -- B is read with a position, or for depth (R78, R308)
  | .exportV t d f => (t.val ≤ 12, .reservedCmd) :: (!d || f.b ≠ .zero, .reservedCmd) ::
      f.checks (if d || t.val = 12 then 2 else 1) .none false
  | .discard f => f.checks 0 .none false | .rayq _ _ f => (f.tokenOutside 4, .dstNotAllowed) :: f.checks 1 .token true
  | .coll k o _ f => (k = .allReduce || k = .reduceScatter || o = .add, .reservedCmd) ::
      (f.tokenOutside 2, .dstNotAllowed) :: f.checks 2 .token true
  | .deal f => f.checks 0 .dest false
  | .bra c f => f.checks (if c = .always then 0 else 1) true (f.d = .void)
  | .brx f => f.checks 1 false (f.d = .void) | .call f => f.checks 0 true (f.d ≠ .void)
  | .ret f => f.checks 1 false (f.d = .void)
  | .lsetup _ l f => (l ≠ 0, .unusedField) :: f.checks 1 true (f.d = .void)
  | .fork f => f.checks 1 true (f.d ≠ .void)
  | .csrr k _ _ => [(csrKnown k, .reservedBit)]
  | .csrw k f => (csrKnown k, .reservedBit) :: f.checks 1 false (f.d = .void)
  | .movS f => f.checks 1 false false
  | .ldS64 f => f.checks 1 true false | .stS64 f => f.checks 2 true true
  | .ldsS64 f => f.checks 1 true false | .stsS64 f => f.checks 2 true true
  | .ldS32 f => f.checks 1 true false | .stS32 f => f.checks 2 true true
  | .ldsS32 f => f.checks 1 true false | .stsS32 f => f.checks 2 true true
  | .iaddS _ f => f.checks 2 false false | .isubS _ f => f.checks 2 false false
  | .imulS _ f => f.checks 2 false false | .andS _ f => f.checks 2 false false
  | .orS _ f => f.checks 2 false false | .xorS _ f => f.checks 2 false false
  | .shlS _ f => f.checks 2 false false | .shrS _ f => f.checks 2 false false
  | .iminS _ f => f.checks 2 false false | .imaxS _ f => f.checks 2 false false
  | .faddS _ f => f.checks 2 false false | .fsubS _ f => f.checks 2 false false
  | .fmulS _ f => f.checks 2 false false | .fminS _ f => f.checks 2 false false
  | .fmaxS _ f => f.checks 2 false false
  | .amov _ f => f.checks 1 true | .aadd f => f.checks 2 true | .acmp _ f => f.checks 2 true
  | .abr c f => f.checks (if c = .always then 0 else 1)
  | .aloop _ l f => (l ≠ 0, .unusedField) :: f.checks 1
  | .amove f => (f.d ≠ none, .dstNotAllowed) :: f.checks 2 true
  | .agather f => (f.d ≠ none, .dstNotAllowed) :: f.checks 3 true
  | .ascatter f => (f.d ≠ none, .dstNotAllowed) :: f.checks 3 true
  | .asig _ f => f.checks 1 false | .await _ f => f.checks 1 false | .ahalt f => f.checks 0 false
  | _ => []

/-- The first fate of R97 that an instruction term has, if any. -/
def Instr.check (i : Instr) : Option Bad := firstBad i.checks

/-- Does a device step stand here, which no word encodes? -/
def Instr.isStream : Instr → Bool
  | .amov .. => true | .aadd _ => true | .acmp .. => true | .abr .. => true | .aloop .. => true
  | .amove _ => true | .agather _ => true | .ascatter _ => true | .asig .. => true | .await .. => true
  | .ahalt _ => true | _ => false

/-- An instruction that some words encode: no fate of R97, and no device step. -/
def Instr.WellFormed (i : Instr) : Bool := i.check.isNone && (i.shape.isSome || i.isStream)

end Sys2Proof
end

