-- ==== Sys2Proof/Decode.lean ====
section
/-!
DEFINITION. The decoder, total on any bytes and refusing by name (R72 to R97), and the encoder written from the same
tables.
-/

namespace Sys2Proof

/-! ### Field codes -/

def Src.code : Src → BitVec 6
  | .q k => BitVec.ofNat 6 k.val
  | .h k => BitVec.ofNat 6 (0x10 + k.val)
  | .lit => 0x13
  | .zero => 0x14
  | .one => 0x15
  | .n k => BitVec.ofNat 6 (0x20 + k.val)

/-- R76. -/
def srcOf (v : BitVec 6) : Except Bad Src :=
  let x := v.toNat
  if h : x < 16 then .ok (.q ⟨x, h⟩)
  else if h : x - 16 < 3 then .ok (.h ⟨x - 16, h⟩)
  else if x = 0x13 then .ok .lit
  else if x = 0x14 then .ok .zero
  else if x = 0x15 then .ok .one
  else if x < 0x20 then .error .reservedSrc
  else if h : x - 0x20 < 32 then .ok (.n ⟨x - 0x20, h⟩)
  else .error .reservedSrc

def Dst.code : Dst → BitVec 6
  | .push => 0
  | .void => 1
  | .n k => BitVec.ofNat 6 (0x20 + k.val)

/-- R77. -/
def dstOf (v : BitVec 6) : Except Bad Dst :=
  let x := v.toNat
  if x = 0 then .ok .push
  else if x = 1 then .ok .void
  else if x < 0x20 then .error .reservedDst
  else if h : x - 0x20 < 32 then .ok (.n ⟨x - 0x20, h⟩)
  else .error .reservedDst

def Route.code : Route → BitVec 7
  | .own => 0
  | .rot p => BitVec.ofNat 7 (0x20 + p.val)
  | .bc p => BitVec.ofNat 7 (0x40 + p.val)
  | .bfly p => BitVec.ofNat 7 (0x60 + p.val)
  | .idx k => BitVec.ofNat 7 (0x10 + k.val)

/-- R64. -/
def routeOf (v : BitVec 7) : Except Bad Route :=
  let x := v.toNat
  if x = 0 then .ok .own
  else if x < 0x10 then .error .reservedRoute
  else if h : x - 0x10 < 16 then .ok (.idx ⟨x - 0x10, h⟩)
  else if h : x - 0x20 < 32 then .ok (.rot ⟨x - 0x20, h⟩)
  else if h : x - 0x40 < 32 then .ok (.bc ⟨x - 0x40, h⟩)
  else if h : x - 0x60 < 32 then .ok (.bfly ⟨x - 0x60, h⟩)
  else .error .reservedRoute

def Hold.code : Hold → BitVec 2
  | .off => 0 | .a => 1 | .b => 2 | .c => 3

/-- R60. -/
def holdOf (v : BitVec 2) : Hold :=
  if v = 0 then .off else if v = 1 then .a else if v = 2 then .b else .c

def Rm.code : Rm → BitVec 2
  | .ne => 0 | .tz => 1 | .dn => 2 | .up => 3

/-- R79. -/
def rmOf (v : BitVec 2) : Rm :=
  if v = 0 then .ne else if v = 1 then .tz else if v = 2 then .dn else .up

def Width.code : Width → Nat
  | .b8 => 0 | .b16 => 1 | .b32 => 2 | .b64 => 3

/-- Codes 0 to 3 for 8, 16, 32 and 64 bits (R82, R92). -/
def widthOf (c : Nat) : Width :=
  match c with | 0 => .b8 | 1 => .b16 | 2 => .b32 | _ => .b64

def ITy.code (t : ITy) : Nat := (if t.signed then 0 else 4) + t.width.code

/-- Type codes 0 to 7 (R92). -/
def ityOf (c : Nat) : ITy := { signed := c < 4, width := widthOf (c % 4) }

def FTy.code : FTy → Nat
  | .f64 => 8 | .f32 => 9 | .f16 => 10 | .bf16 => 11

/-- Type codes 8 to 11, given minus 8 (R92, R94). -/
def ftyOf (c : Nat) : FTy :=
  match c with | 0 => .f64 | 1 => .f32 | 2 => .f16 | _ => .bf16

def Ty.code : Ty → Nat
  | .int t => t.code | .flt t => t.code | .e5m2 => 12 | .e4m3 => 13 | .e2m1 => 14

/-- R92; code 15 is reserved. -/
def tyOf (c : Nat) : Except Bad Ty :=
  if c < 8 then .ok (.int (ityOf c))
  else if c < 12 then .ok (.flt (ftyOf (c - 8)))
  else match c with
    | 12 => .ok .e5m2 | 13 => .ok .e4m3 | 14 => .ok .e2m1 | _ => .error .reservedFn

def TTy.code : TTy → Nat
  | .f32 => 9 | .f16 => 10

def ttyOf (c : Nat) : Except Bad TTy :=
  match c with | 1 => .ok .f32 | 2 => .ok .f16 | _ => .error .reservedOpc

def Icc.code : Icc → Nat
  | .eq => 0 | .ne => 1 | .lt => 2 | .le => 3 | .gt => 4 | .ge => 5

def iccOf (c : Nat) : Except Bad Icc :=
  match c with
  | 0 => .ok .eq | 1 => .ok .ne | 2 => .ok .lt | 3 => .ok .le | 4 => .ok .gt | 5 => .ok .ge
  | _ => .error .reservedFn

def Fcc.code : Fcc → Nat
  | .eq => 0 | .ne => 1 | .lt => 2 | .le => 3 | .gt => 4 | .ge => 5 | .uo => 6 | .ord => 7

def fccOf (c : Nat) : Except Bad Fcc :=
  match c with
  | 0 => .ok .eq | 1 => .ok .ne | 2 => .ok .lt | 3 => .ok .le | 4 => .ok .gt | 5 => .ok .ge
  | 6 => .ok .uo | 7 => .ok .ord | _ => .error .reservedFn

def RedOp.code : RedOp → Nat
  | .add => 0 | .min => 1 | .max => 2 | .and => 3 | .or => 4 | .xor => 5

def redOf (c : Nat) : Except Bad RedOp :=
  match c with
  | 0 => .ok .add | 1 => .ok .min | 2 => .ok .max | 3 => .ok .and | 4 => .ok .or | 5 => .ok .xor
  | _ => .error .reservedOpc

def VoteFn.code : VoteFn → Nat
  | .all => 0 | .any => 1 | .ballot => 2 | .uniform => 3

def voteOf (c : Nat) : Except Bad VoteFn :=
  match c with
  | 0 => .ok .all | 1 => .ok .any | 2 => .ok .ballot | 3 => .ok .uniform | _ => .error .reservedFn

def AOp.code : AOp → Nat
  | .add => 0 | .smin => 1 | .smax => 2 | .umin => 3 | .umax => 4 | .and => 5 | .or => 6 | .xor => 7
  | .exch => 8 | .cas => 9 | .fadd => 10 | .fmin => 11 | .fmax => 12

/-- R83. -/
def aopOf (c : Nat) : Except Bad AOp :=
  match c with
  | 0 => .ok .add | 1 => .ok .smin | 2 => .ok .smax | 3 => .ok .umin | 4 => .ok .umax | 5 => .ok .and
  | 6 => .ok .or | 7 => .ok .xor | 8 => .ok .exch | 9 => .ok .cas | 10 => .ok .fadd | 11 => .ok .fmin
  | 12 => .ok .fmax | _ => .error .reservedAop

def Ord4.code : Ord4 → BitVec 2
  | .plain => 0 | .acq => 1 | .rel => 2 | .ar => 3

def ordOf (v : BitVec 2) : Ord4 :=
  if v = 0 then .plain else if v = 1 then .acq else if v = 2 then .rel else .ar

def BrCond.code : BrCond → Nat
  | .always => 0 | .nonzero => 1 | .zero => 2

def brOf (c : Nat) : Except Bad BrCond :=
  match c with | 0 => .ok .always | 1 => .ok .nonzero | 2 => .ok .zero | _ => .error .reservedCf

def Lod.code : Lod → Nat
  | .implicit => 0 | .bias => 1 | .level => 2

def lodOf (c : Nat) : Except Bad Lod :=
  match c with | 0 => .ok .implicit | 1 => .ok .bias | 2 => .ok .level | _ => .error .reservedCmd

def CollKind.code : CollKind → Nat
  | .allReduce => 0 | .reduceScatter => 1 | .allGather => 2 | .broadcast => 3

def collKindOf (c : Nat) : CollKind :=
  match c with | 0 => .allReduce | 1 => .reduceScatter | 2 => .allGather | _ => .broadcast

def CollOp.code : CollOp → Nat
  | .add => 0 | .min => 1 | .max => 2

def collOpOf (c : Nat) : Except Bad CollOp :=
  match c with | 0 => .ok .add | 1 => .ok .min | 2 => .ok .max | _ => .error .reservedCmd

def CollTy.code : CollTy → Nat
  | .f32 => 0 | .f64 => 1 | .bf16 => 2 | .f16 => 3 | .i32 => 4 | .i64 => 5

def collTyOf (c : Nat) : Except Bad CollTy :=
  match c with
  | 0 => .ok .f32 | 1 => .ok .f64 | 2 => .ok .bf16 | 3 => .ok .f16 | 4 => .ok .i32 | 5 => .ok .i64
  | _ => .error .reservedCmd

def ASrc.code : ASrc → BitVec 6
  | .a k => BitVec.ofNat 6 (0x20 + k.val)
  | .zero => 0x14 | .one => 0x15 | .lit => 0x13

/-- R89. -/
def asrcOf (v : BitVec 6) : Except Bad ASrc :=
  let x := v.toNat
  if x = 0x13 then .ok .lit
  else if x = 0x14 then .ok .zero
  else if x = 0x15 then .ok .one
  else if x < 0x20 then .error .reservedSrc
  else if h : x - 0x20 < 16 then .ok (.a ⟨x - 0x20, h⟩)
  else .error .reservedSrc

def adstCode : Option (Fin 16) → BitVec 6
  | none => 1
  | some k => BitVec.ofNat 6 (0x20 + k.val)

/-- R89: a stream destination is an a register or 0x01. -/
def adstOf (v : BitVec 6) : Except Bad (Option (Fin 16)) :=
  let x := v.toNat
  if x = 1 then .ok none
  else if x < 0x20 then .error .reservedDst
  else if h : x - 0x20 < 16 then .ok (some ⟨x - 0x20, h⟩)
  else .error .reservedDst

/-- N of R85: a named register, or 0x01 for none. -/
def nOf (v : BitVec 6) : Except Bad (Option (Fin 32)) :=
  let x := v.toNat
  if x = 1 then .ok none
  else if x < 0x20 then .error .reservedDst
  else if h : x - 0x20 < 32 then .ok (some ⟨x - 0x20, h⟩)
  else .error .reservedDst

def nCode : Option (Fin 32) → BitVec 6
  | none => 1
  | some k => BitVec.ofNat 6 (0x20 + k.val)

def bit1 (b : Bool) : BitVec 1 := if b then 1 else 0

/-- Bits [63:62] of an L or X word (R72). -/
def fmtCode (l : Option W32) : BitVec 2 := if l.isSome then 2 else 1

/-- Refuse by name unless a check holds. -/
def need (ok : Bool) (b : Bad) : Except Bad Unit := if ok then .ok () else .error b

/-! ### Class layouts -/

/-- ALU class (R80); `fn` replaces C in the instructions of R81. -/
def encAlu (opc : Nat) (fn : Option Nat) (f : Alu) : BitVec 64 :=
  fmtCode f.lit ++ bit1 f.e ++ BitVec.ofNat 9 opc ++ BitVec.ofNat 3 f.pm.val ++ f.d.code ++ f.a.code ++ f.b.code ++
    (match fn with | some x => BitVec.ofNat 6 x | none => f.c.code) ++ f.hold.code ++ f.xa.code ++ f.xb.code ++
    f.xc.code ++ f.rm.code

def aluOf (w : BitVec 64) (lit : Option W32) (c : Src) : Except Bad Alu := do
  let d ← dstOf (w.extractLsb' 43 6)
  let a ← srcOf (w.extractLsb' 37 6)
  let b ← srcOf (w.extractLsb' 31 6)
  let xa ← routeOf (w.extractLsb' 16 7)
  let xb ← routeOf (w.extractLsb' 9 7)
  let xc ← routeOf (w.extractLsb' 2 7)
  return { e := w.getLsbD 61, pm := Fin.ofNat 8 (w.extractLsb' 49 3).toNat, d := d, a := a, b := b, c := c,
           hold := holdOf (w.extractLsb' 23 2), xa := xa, xb := xb, xc := xc, rm := rmOf (w.extractLsb' 0 2),
           lit := lit }

/-- An ALU instruction that reads C or leaves it unused. -/
def aluC (w : BitVec 64) (lit : Option W32) : Except Bad Alu := do
  let c ← srcOf (w.extractLsb' 25 6)
  aluOf w lit c

/-- The FN field (R81). -/
def fnOf (w : BitVec 64) : Nat := (w.extractLsb' 25 6).toNat

/-- MEM class (R82); AOP and ORD take the place of OFF[11:6] in the atomics. -/
def encMem (opc : Nat) (hi : BitVec 6) (f : Mem) : BitVec 64 :=
  fmtCode f.lit ++ bit1 f.e ++ BitVec.ofNat 9 opc ++ BitVec.ofNat 3 f.pm.val ++ f.d.code ++ f.a.code ++ f.b.code ++
    hi ++ bit1 f.pn ++ bit1 f.ch ++ f.xa.code ++ f.xb.code ++ f.off.extractLsb' 0 6 ++ BitVec.ofNat 3 f.w.code

def memOf (w : BitVec 64) (lit : Option W32) (off : BitVec 12) : Except Bad Mem := do
  let d ← dstOf (w.extractLsb' 43 6)
  let a ← srcOf (w.extractLsb' 37 6)
  let b ← srcOf (w.extractLsb' 31 6)
  let xa ← routeOf (w.extractLsb' 16 7)
  let xb ← routeOf (w.extractLsb' 9 7)
  let sz := (w.extractLsb' 0 3).toNat
  need (sz < 4) .reservedW
  return { e := w.getLsbD 61, pm := Fin.ofNat 8 (w.extractLsb' 49 3).toNat, d := d, a := a, b := b, off := off,
           pn := w.getLsbD 24, ch := w.getLsbD 23, xa := xa, xb := xb, w := widthOf sz, lit := lit }

def offOf (w : BitVec 64) : BitVec 12 := w.extractLsb' 25 6 ++ w.extractLsb' 3 6

/-- MAT class (R84). -/
def encMat (opc : Nat) (f : Mat) : BitVec 64 :=
  fmtCode f.lit ++ bit1 f.e ++ BitVec.ofNat 9 opc ++ BitVec.ofNat 3 f.pm.val ++ BitVec.ofNat 6 (0x20 + f.s.val) ++
    f.a.code ++ f.b.code ++ f.d.code ++ f.hold.code ++ f.xa.code ++ f.xb.code ++ BitVec.ofNat 3 f.fs.val ++
    BitVec.ofNat 4 f.kc.val ++ 0#1 ++ bit1 f.pn

def matOf (w : BitVec 64) (lit : Option W32) : Except Bad Mat := do
  let s := (w.extractLsb' 43 6).toNat
  need (0x20 ≤ s) .dstNotAllowed
  let a ← srcOf (w.extractLsb' 37 6)
  let b ← srcOf (w.extractLsb' 31 6)
  let d ← dstOf (w.extractLsb' 25 6)
  let xa ← routeOf (w.extractLsb' 16 7)
  let xb ← routeOf (w.extractLsb' 9 7)
  need (!w.getLsbD 1) .reservedBit
  return { e := w.getLsbD 61, pm := Fin.ofNat 8 (w.extractLsb' 49 3).toNat, s := Fin.ofNat 32 (s - 0x20), a := a, b := b,
           d := d, hold := holdOf (w.extractLsb' 23 2), xa := xa, xb := xb, fs := Fin.ofNat 8 (w.extractLsb' 6 3).toNat,
           kc := Fin.ofNat 16 (w.extractLsb' 2 4).toNat, pn := w.getLsbD 0, lit := lit }

/-- ENG class (R85). -/
def encEng (opc cmd : Nat) (f : Eng) : BitVec 64 :=
  fmtCode f.lit ++ bit1 f.e ++ BitVec.ofNat 9 opc ++ BitVec.ofNat 3 f.pm.val ++ f.t.code ++ f.a.code ++ f.b.code ++
    nCode f.n ++ f.hold.code ++ f.xa.code ++ f.xb.code ++ BitVec.ofNat 7 cmd ++ 0#1 ++ bit1 f.pn

def engOf (w : BitVec 64) (lit : Option W32) : Except Bad Eng := do
  let t ← dstOf (w.extractLsb' 43 6)
  let a ← srcOf (w.extractLsb' 37 6)
  let b ← srcOf (w.extractLsb' 31 6)
  let n ← nOf (w.extractLsb' 25 6)
  let xa ← routeOf (w.extractLsb' 16 7)
  let xb ← routeOf (w.extractLsb' 9 7)
  need (!w.getLsbD 1) .reservedBit
  return { e := w.getLsbD 61, pm := Fin.ofNat 8 (w.extractLsb' 49 3).toNat, t := t, a := a, b := b, n := n,
           hold := holdOf (w.extractLsb' 23 2), xa := xa, xb := xb, pn := w.getLsbD 0, lit := lit }

def cmdOf (w : BitVec 64) : Nat := (w.extractLsb' 2 7).toNat

/-- CTL class (R86). -/
def encCtl (opc cf : Nat) (len2 : BitVec 10) (f : Ctl) : BitVec 64 :=
  fmtCode f.lit ++ bit1 f.e ++ BitVec.ofNat 9 opc ++ 0#3 ++ f.d.code ++ f.a.code ++ BitVec.ofNat 4 cf ++ len2 ++
    f.xa.code ++ f.off

def plainCtlF (e : Bool) (off : BitVec 16) : Ctl :=
  { e := e, d := .void, a := .zero, xa := .own, off := off, lit := none }

def ctlOf (w : BitVec 64) (lit : Option W32) : Except Bad Ctl := do
  need (w.extractLsb' 49 3 = 0) .pmInCtl
  let d ← dstOf (w.extractLsb' 43 6)
  let a ← srcOf (w.extractLsb' 37 6)
  let xa ← routeOf (w.extractLsb' 16 7)
  return { e := w.getLsbD 61, d := d, a := a, xa := xa, off := w.extractLsb' 0 16, lit := lit }

def cfOf (w : BitVec 64) : Nat := (w.extractLsb' 33 4).toNat
def len2Of (w : BitVec 64) : BitVec 10 := w.extractLsb' 23 10

/-- A CTL instruction of which only E (and a code in OFF) varies. -/
def plainOf (w : BitVec 64) (lit : Option W32) (code : Bool) : Except Bad (Bool × BitVec 16) := do
  let f ← ctlOf w lit
  need lit.isNone .xFormNotAllowed
  need (f.d = .void && f.a = .zero && f.xa = .own && len2Of w = 0 && (code || f.off = 0)) .unusedField
  return (f.e, f.off)

/-- Stream instructions in the ALU layout (R89). -/
def encStr (opc : Nat) (fn : Option Nat) (f : Str) : BitVec 64 :=
  fmtCode f.lit ++ bit1 f.e ++ BitVec.ofNat 9 opc ++ 0#3 ++ adstCode f.d ++ f.a.code ++ f.b.code ++
    (match fn with | some x => BitVec.ofNat 6 x | none => f.c.code) ++ 0#25

def strOf (w : BitVec 64) (lit : Option W32) (c : ASrc) : Except Bad Str := do
  need (w.extractLsb' 49 3 = 0 && w.extractLsb' 0 25 = 0) .unusedField
  let d ← adstOf (w.extractLsb' 43 6)
  let a ← asrcOf (w.extractLsb' 37 6)
  let b ← asrcOf (w.extractLsb' 31 6)
  return { e := w.getLsbD 61, d := d, a := a, b := b, c := c, lit := lit }

/-- Stream instructions in the CTL layout (R89). -/
def encStrCtl (opc cf : Nat) (len2 : BitVec 10) (f : StrCtl) : BitVec 64 :=
  fmtCode f.lit ++ bit1 f.e ++ BitVec.ofNat 9 opc ++ 0#3 ++ 1#6 ++ f.a.code ++ BitVec.ofNat 4 cf ++ len2 ++ 0#7 ++ f.off

def strCtlOf (w : BitVec 64) (lit : Option W32) : Except Bad StrCtl := do
  need (w.extractLsb' 49 3 = 0 && w.extractLsb' 16 7 = 0 && w.extractLsb' 43 6 = 1) .unusedField
  let a ← asrcOf (w.extractLsb' 37 6)
  return { e := w.getLsbD 61, a := a, off := w.extractLsb' 0 16, lit := lit }

/-! ### The opcode map (R93 to R95) -/

/-- Integer block, OPC = 8 x row + type code (R93). -/
def decodeInt (row tc : Nat) (w : BitVec 64) (lit : Option W32) : Except Bad Instr := do
  let t := ityOf tc
  let fn := fnOf w
  match row with
  | 0 => need (fn < 2) .reservedFn; return .iadd (fn = 1) t (← aluOf w lit .zero)
  | 1 => need (fn < 2) .reservedFn; return .isub (fn = 1) t (← aluOf w lit .zero)
  | 2 => return .imul t (← aluC w lit)
  | 3 => return .imulh t (← aluC w lit)
  | 4 => return .imad t (← aluC w lit)
  | 5 => return .imin t (← aluC w lit)
  | 6 => return .imax t (← aluC w lit)
  | 7 => need (tc < 4) .typeNotAllowed; return .iabs t.width (← aluC w lit)
  | 8 => need (tc < 4) .typeNotAllowed; return .ineg t.width (← aluC w lit)
  | 9 => return .icmp (← iccOf fn) t (← aluOf w lit .zero)
  | 10 => need (tc % 4 = 3) .typeNotAllowed; need (fn < 8) .reservedFn
          return .lea t.signed (Fin.ofNat 8 fn) (← aluOf w lit .zero)
  | 11 => return .andI t (← aluC w lit)
  | 12 => return .andn t (← aluC w lit)
  | 13 => return .orI t (← aluC w lit)
  | 14 => return .xorI t (← aluC w lit)
  | 15 => return .notI t (← aluC w lit)
  | 16 => return .shl t (← aluC w lit)
  | 17 => return .shr t (← aluC w lit)
  | 18 => return .sar t (← aluC w lit)
  | 19 => return .rol t (← aluC w lit)
  | 20 => return .popc t (← aluC w lit)
  | 21 => return .clz t (← aluC w lit)
  | 22 => return .brev t (← aluC w lit)
  | 23 => return .bfe t (← aluC w lit)
  | 24 => return .bfi t (← aluC w lit)
  | 25 => return .sel t (← aluC w lit)
  | _ => .error .reservedOpc

/-- Float block, OPC = 0x100 + 4 x row + (type code - 8) (R94). -/
def decodeFlt (row tc : Nat) (w : BitVec 64) (lit : Option W32) : Except Bad Instr := do
  let t := ftyOf tc
  let fn := fnOf w
  match row with
  | 0 => return .fadd t (← aluC w lit)
  | 1 => return .fsub t (← aluC w lit)
  | 2 => return .fmul t (← aluC w lit)
  | 3 => return .ffma t (← aluC w lit)
  | 4 => return .fmin t (← aluC w lit)
  | 5 => return .fmax t (← aluC w lit)
  | 6 => return .fcmp (← fccOf fn) t (← aluOf w lit .zero)
  | 7 => return .fclass t (← aluC w lit)
  | 8 => return .frnd t (← aluC w lit)
  | 9 => return .frcp (← ttyOf tc) (← aluC w lit)
  | 10 => return .frsq (← ttyOf tc) (← aluC w lit)
  | 11 => return .fsqrt (← ttyOf tc) (← aluC w lit)
  | 12 => return .fexp2 (← ttyOf tc) (← aluC w lit)
  | 13 => return .flog2 (← ttyOf tc) (← aluC w lit)
  | 14 => return .fsin (← ttyOf tc) (← aluC w lit)
  | 15 => return .fcos (← ttyOf tc) (← aluC w lit)
  | 16 => return .ftanh (← ttyOf tc) (← aluC w lit)
  | 17 => return .fsigm (← ttyOf tc) (← aluC w lit)
  | _ => .error .reservedOpc

/-- Stream opcodes 0x160 to 0x16A (R95). -/
def decodeStr (k : Nat) (w : BitVec 64) (lit : Option W32) : Except Bad Instr := do
  let fn := fnOf w
  match k with
  | 0 => need (fn < 2) .reservedFn; return .amov (fn = 1) (← strOf w lit .zero)
  | 1 => need (fn = 0) .reservedFn; return .aadd (← strOf w lit .zero)
  | 2 => return .acmp (← iccOf fn) (← strOf w lit .zero)
  | 3 => need (len2Of w = 0) .unusedField; return .abr (← brOf (cfOf w)) (← strCtlOf w lit)
  | 4 => need (cfOf w % 4 = 0) .reservedCf; return .aloop (Fin.ofNat 4 (cfOf w / 4)) (len2Of w) (← strCtlOf w lit)
  | 5 => need (fn = 0) .reservedFn; return .amove (← strOf w lit .zero)
  | 6 => return .agather (← strOf w lit (← asrcOf (w.extractLsb' 25 6)))
  | 7 => return .ascatter (← strOf w lit (← asrcOf (w.extractLsb' 25 6)))
  | 8 => need (fn < 8) .reservedFn; return .asig (Fin.ofNat 8 fn) (← strOf w lit .zero)
  | 9 => need (fn < 8) .reservedFn; return .await (Fin.ofNat 8 fn) (← strOf w lit .zero)
  | 10 => need (fn = 0) .reservedFn; return .ahalt (← strOf w lit .zero)
  | _ => .error .reservedOpc

/-- ALU opcodes 0x180 to 0x1AC (R95), given minus 0x180. -/
def decodeAlu2 (k : Nat) (w : BitVec 64) (lit : Option W32) : Except Bad Instr := do
  let fn := fnOf w
  let f ← aluOf w lit .zero
  if k < 8 then
    need (fn < 16) .reservedFn; return .red (← redOf k) (← tyOf fn) f
  else if k < 16 then
    need (fn < 32) .reservedFn; return .scan (← redOf (k - 8)) (16 ≤ fn) (← tyOf (fn % 16)) f
  else if k < 32 then
    return .cvt (← tyOf (fn % 16)) (← tyOf (k - 16)) (Fin.ofNat 4 (fn / 16)) f
  else match k - 32 with
  | 0 => need (8 ≤ fn && fn < 12) .reservedFn; return .amax (ftyOf (fn - 8)) f
  | 1 => need (fn < 8) .reservedFn; return .qscale (Fin.ofNat 8 fn) f
  | 2 => need (fn < 8) .reservedFn; return .qpack (Fin.ofNat 8 fn) f
  | 3 => need (fn < 8) .reservedFn; return .qunpack (Fin.ofNat 8 fn) f
  | 4 => need (fn < 8) .reservedFn; return .bpsplit (Fin.ofNat 8 fn) f
  | 5 => need (fn < 8) .reservedFn; return .bpjoin (Fin.ofNat 8 fn) f
  | 6 => need (fn < 16) .reservedFn; return .perm (← tyOf fn) f
  | 7 => return .vote (← voteOf fn) f
  | 8 => need (fn < 16) .reservedFn; return .matchI (← tyOf fn) f
  | 9 => return .wsync (← aluC w lit)
  | 10 => need (fn < 16) .reservedFn; return .mov (← tyOf fn) f
  | 11 => return .movm (Fin.ofNat 8 (fn / 8)) (fn / 4 % 2 = 1) (widthOf (3 - fn % 4)) f
  | 12 => return .movs (Fin.ofNat 64 fn) f
  | _ => .error .reservedOpc

/-- MEM opcodes 0x1B0 to 0x1BB (R95), given minus 0x1B0. -/
def decodeMem (k : Nat) (w : BitVec 64) (lit : Option W32) : Except Bad Instr := do
  if k = 9 || k = 10 then
    let op ← aopOf (w.extractLsb' 27 4).toNat
    let ord := ordOf (w.extractLsb' 25 2)
    let f ← memOf w lit (0#6 ++ w.extractLsb' 3 6)
    return if k = 9 then .atom op ord f else .atoms op ord f
  else
    let f ← memOf w lit (offOf w)
    match k with
    | 0 => return .ld f
    | 1 => return .st f
    | 2 => return .lda f
    | 3 => return .stl f
    | 4 => return .lds f
    | 5 => return .sts f
    | 6 => return .ldx f
    | 7 => return .stx f
    | 8 => return .ldc f
    | 11 => return .fence f
    | _ => .error .reservedOpc

/-- MAT opcodes 0x1C0 to 0x1C3 (R95), given minus 0x1C0. -/
def decodeMat (k : Nat) (w : BitVec 64) (lit : Option W32) : Except Bad Instr := do
  let f ← matOf w lit
  match k with
  | 0 => return .mma f
  | 1 => return .accload f
  | 2 => return .accdrain f
  | 3 => return .accrel f
  | _ => .error .reservedOpc

/-- ENG opcodes 0x1C8 to 0x1E7 (R95), given minus 0x1C8. -/
def decodeEng (k : Nat) (w : BitVec 64) (lit : Option W32) : Except Bad Instr := do
  let f ← engOf w lit
  let c := cmdOf w
  match k with
  | 0 => need (c < 16) .reservedCmd; return .copy (widthOf (c % 4)) (c / 4 % 2 = 1) (c / 8 % 2 = 1) f
  | 1 => need (c = 0) .reservedCmd; return .engage f
  | 2 => need (c = 0) .reservedCmd; return .rdv f
  | 3 => need (c < 8) .reservedCmd; return .semsig (Fin.ofNat 8 c) f
  | 4 => need (c < 8) .reservedCmd; return .semwait (Fin.ofNat 8 c) f
  | 5 => need (c < 4) .reservedCmd; return .qpop (Fin.ofNat 4 c) f
  | 6 => need (c < 4) .reservedCmd; return .qpush (Fin.ofNat 4 c) f
  | 7 => need (c < 32) .reservedCmd; return .ncall (Fin.ofNat 8 (c % 8)) (Fin.ofNat 4 (c / 8)) f
  | 8 => need (c < 2) .reservedCmd; return .nflush (c = 1) f
  | 9 => need (c = 0) .reservedCmd; return .wbind f
  | 10 => need (c = 0) .reservedCmd; return .wpin f
  | 11 => need (c = 0) .reservedCmd; return .wunpin f
  | 12 => need (c = 0) .reservedCmd; return .wpref f
  | 13 => need (c % 4 = 0 && c < 32) .reservedCmd; return .gmv (Fin.ofNat 8 (c / 4)) f
  | 14 => need (c < 32) .reservedCmd; return .gmm (Fin.ofNat 4 (c % 4)) (Fin.ofNat 8 (c / 4)) f
  | 15 => need (c < 32) .reservedCmd; return .binapp (← aopOf (c % 16)) (16 ≤ c) f
  | 16 => need (c = 0) .reservedCmd; return .binreplay f
  | 17 => need (c = 0) .reservedCmd; return .wlinit f
  | 18 => need (c = 0) .reservedCmd; return .wlpush f
  | 19 => need (c = 0) .reservedCmd; return .wlins f
  | 20 => need (c = 0) .reservedCmd; return .wlpopb f
  | 21 => return .hashb (Fin.ofNat 8 (c % 8)) (Fin.ofNat 16 (c / 8)) f
  | 22 => need (c = 0) .reservedCmd; return .enq f
  | 23 => need (c < 2) .reservedCmd; return .depdec (c = 1) f
  | 24 => need (c < 4) .reservedCmd; return .tex (← lodOf c) f
  | 25 => need (c < 16) .reservedCmd; return .texg (← lodOf (c % 4)) (Fin.ofNat 4 (c / 4)) f
  | 26 => need (c = 0) .reservedCmd; return .attr f
  | 27 => need (c < 32) .reservedCmd; return .exportV (Fin.ofNat 16 (c % 16)) (16 ≤ c) f
  | 28 => need (c = 0) .reservedCmd; return .discard f
  | 29 => need (c < 4) .reservedCmd; return .rayq (c % 2 = 1) (2 ≤ c) f
  | 30 => return .coll (collKindOf (c % 4)) (← collOpOf (c / 4 % 4)) (← collTyOf (c / 16)) f
  | 31 => need (c = 0) .reservedCmd; return .deal f
  | _ => .error .reservedOpc

/-- CTL opcodes 0x1E8 to 0x1FA (R95), given minus 0x1E8. -/
def decodeCtl (k : Nat) (w : BitVec 64) (lit : Option W32) : Except Bad Instr := do
  let cf := cfOf w
  match k with
  | 0 => need (len2Of w = 0) .unusedField; return .bra (← brOf cf) (← ctlOf w lit)
  | 1 => need (cf = 0 && len2Of w = 0) .reservedCf; return .brx (← ctlOf w lit)
  | 2 => need (cf = 0 && len2Of w = 0) .reservedCf; return .call (← ctlOf w lit)
  | 3 => need (cf = 0 && len2Of w = 0) .reservedCf; return .ret (← ctlOf w lit)
  | 4 => need (cf = 0) .reservedCf; return .exit (← plainOf w lit false).1
  | 5 => need (cf % 4 = 0) .reservedCf; return .lsetup (Fin.ofNat 4 (cf / 4)) (len2Of w) (← ctlOf w lit)
  | 6 => need (cf = 0 && len2Of w = 0) .reservedCf; return .fork (← ctlOf w lit)
  | 7 => need (cf = 0) .reservedCf; return .fjoin (← plainOf w lit false).1
  | 8 => need (cf = 0) .reservedCf; return .bar (← plainOf w lit false).1
  | 9 => need (cf < 2) .reservedCf; return .cbar (cf = 1) (← plainOf w lit false).1
  | 10 => need (cf = 0) .reservedCf; return .yield (← plainOf w lit false).1
  | 11 => need (cf = 0) .reservedCf; return .nop (← plainOf w lit false).1
  | 12 => need (cf = 0) .reservedCf; return .trig (← plainOf w lit false).1
  | 13 => need (cf = 0) .reservedCf; let (e, o) ← plainOf w lit true; return .trap o e
  | 14 => need (cf < 2) .reservedCf; return .rft (cf = 1) (← plainOf w lit false).1
  | 15 =>
    need (cf = 0 && len2Of w = 0 && lit.isNone) .reservedCf
    let f ← ctlOf w lit
    need (f.a = .zero && f.xa = .own && f.off.toNat < 4096) .unusedField
    return .csrr (f.off.extractLsb' 0 12) f.e f.d
  | 16 =>
    need (cf = 0 && len2Of w = 0 && lit.isNone) .reservedCf
    let f ← ctlOf w lit
    need (f.off.toNat < 4096) .unusedField
    return .csrw (f.off.extractLsb' 0 12) { f with off := 0 }
  | 17 => need (cf = 0) .reservedCf; let (e, o) ← plainOf w lit true; return .brk o e
  | 18 => need (cf = 0) .reservedCf; return .halt (← plainOf w lit false).1
  | _ => .error .reservedOpc

/-- An L or X word by its opcode (R93 to R95), before the checks of its text. -/
def decodeOpc (w : BitVec 64) (lit : Option W32) : Except Bad Instr :=
  let opc := (w.extractLsb' 52 9).toNat
  if opc < 0x100 then decodeInt (opc / 8) (opc % 8) w lit
  else if opc < 0x160 then decodeFlt ((opc - 0x100) / 4) (opc % 4) w lit
  else if opc < 0x180 then decodeStr (opc - 0x160) w lit
  else if opc < 0x1B0 then decodeAlu2 (opc - 0x180) w lit
  else if opc < 0x1C0 then decodeMem (opc - 0x1B0) w lit
  else if opc < 0x1C8 then decodeMat (opc - 0x1C0) w lit
  else if opc < 0x1E8 then decodeEng (opc - 0x1C8) w lit
  else decodeCtl (opc - 0x1E8) w lit

/-- S format (R74). -/
def encShort (ops : Nat) (f : Short) : W32 :=
  0#2 ++ bit1 f.e ++ BitVec.ofNat 7 ops ++ f.d.code ++ f.a.code ++ f.b.code ++ BitVec.ofNat 3 f.pm.val ++ bit1 f.ha

def shortOf (w : W32) : Except Bad Short := do
  let d ← dstOf (w.extractLsb' 16 6)
  let a ← srcOf (w.extractLsb' 10 6)
  let b ← srcOf (w.extractLsb' 4 6)
  return { e := w.getLsbD 29, d := d, a := a, b := b, pm := Fin.ofNat 8 (w.extractLsb' 1 3).toNat, ha := w.getLsbD 0 }

/-- The short-opcode map (R96). -/
def decodeShort (w : W32) : Except Bad Instr := do
  let ops := (w.extractLsb' 22 7).toNat
  let f ← shortOf w
  let t := ityOf (ops % 8)
  let u := ftyOf (ops % 4)
  match ops with
  | 0 => need (f.d = .void && f.a = .zero && f.b = .zero && f.pm = 0 && !f.ha) .unusedField; return .nopS f.e
  | 1 => return .movS f
  | 2 => return .ldS64 f
  | 3 => return .stS64 f
  | 4 => return .ldsS64 f
  | 5 => return .stsS64 f
  | 6 => return .ldS32 f
  | 7 => return .stS32 f
  | 0x6C => return .ldsS32 f
  | 0x6D => return .stsS32 f
  | _ =>
    match ops / 8 with
    | 1 => return .iaddS t f
    | 2 => return .isubS t f
    | 3 => return .imulS t f
    | 4 => return .andS t f
    | 5 => return .orS t f
    | 6 => return .xorS t f
    | 7 => return .shlS t f
    | 8 => return .shrS t f
    | 9 => return .iminS t f
    | 10 => return .imaxS t f
    | _ =>
      match ops / 4 with
      | 0x16 => return .faddS u f
      | 0x17 => return .fsubS u f
      | 0x18 => return .fmulS u f
      | 0x19 => return .fminS u f
      | 0x1A => return .fmaxS u f
      | _ => .error .reservedOpc

/-- Apply the checks of R97 that the text decides. -/
def checked (i : Instr) : Except Bad Instr :=
  match i.check with
  | none => .ok i
  | some b => .error b

/-- The instruction at the head of a list of words, and how many words it takes (R72). -/
def decodeWords : List W32 → Except Bad (Instr × Nat)
  | [] => .error .truncated
  | w0 :: rest =>
    match (w0.extractLsb' 30 2).toNat, rest with
    | 0, _ => do let i ← decodeShort w0; return (← checked i, 1)
    | 1, w1 :: _ => do let i ← decodeOpc (w0 ++ w1) none; return (← checked i, 2)
    | 2, w1 :: w2 :: _ => do let i ← decodeOpc (w0 ++ w1) (some w2); return (← checked i, 3)
    | 3, _ => .error .header
    | _, _ => .error .truncated

/-- How many words the format bits of a first word announce (R72). -/
def formatWords (w0 : W32) : Nat :=
  match (w0.extractLsb' 30 2).toNat with | 0 => 1 | 2 => 3 | _ => 2

def isHeader (w0 : W32) : Bool := w0.extractLsb' 30 2 = 3

/-- A block header (R90); LEN below 3 or FLAGS[3] = 1 is refused (R97). -/
def headerOf (w0 w1 : W32) : Except Bad Header := do
  let w : BitVec 64 := w0 ++ w1
  need (isHeader w0) .header
  let len := w.extractLsb' 52 10
  need (3 ≤ len.toNat && !w.getLsbD 3) .reservedBit
  return { len := len, live := w.extractLsb' 20 32, join := w.extractLsb' 6 14,
           pf := Fin.ofNat 4 (w.extractLsb' 4 2).toNat, cold := w.getLsbD 2, loop := w.getLsbD 1, entry := w.getLsbD 0 }

def Header.encode (h : Header) : List W32 :=
  let w : BitVec 64 := 3#2 ++ h.len ++ h.live ++ h.join ++ BitVec.ofNat 2 h.pf.val ++ 0#1 ++ bit1 h.cold ++ bit1 h.loop ++
    bit1 h.entry
  [w.extractLsb' 32 32, w.extractLsb' 0 32]

/-- A word from four bytes, least significant first (R4). -/
def wordOfBytes (b0 b1 b2 b3 : Byte) : W32 := b3 ++ b2 ++ b1 ++ b0

def bytesOfWord (w : W32) : List Byte :=
  [w.extractLsb' 0 8, w.extractLsb' 8 8, w.extractLsb' 16 8, w.extractLsb' 24 8]

def wordsOfBytes : List Byte → List W32
  | b0 :: b1 :: b2 :: b3 :: rest => wordOfBytes b0 b1 b2 b3 :: wordsOfBytes rest
  | _ => []

/-- The instruction at the head of a list of bytes as memory stores them, and the bytes after it. -/
def decodeBytes (bs : List Byte) : Except Bad (Instr × List Byte) := do
  let (i, n) ← decodeWords (wordsOfBytes bs)
  return (i, bs.drop (4 * n))

/-! ### The encoder -/

/-- The words of an L or X instruction, most significant first (R72). -/
def wordsLX (w : BitVec 64) (lit : Option W32) : List W32 :=
  [w.extractLsb' 32 32, w.extractLsb' 0 32] ++ lit.toList

def boolN (b : Bool) : Nat := if b then 1 else 0

/-- The words of an instruction, first word first; none for a device step, which no word encodes. -/
def encode : Instr → List W32
  | .iadd s t f => wordsLX (encAlu (t.code) (some (boolN s)) f) f.lit
  | .isub s t f => wordsLX (encAlu (8 + t.code) (some (boolN s)) f) f.lit
  | .imul t f => wordsLX (encAlu (16 + t.code) (none) f) f.lit
  | .imulh t f => wordsLX (encAlu (24 + t.code) (none) f) f.lit
  | .imad t f => wordsLX (encAlu (32 + t.code) (none) f) f.lit
  | .imin t f => wordsLX (encAlu (40 + t.code) (none) f) f.lit
  | .imax t f => wordsLX (encAlu (48 + t.code) (none) f) f.lit
  | .iabs w f => wordsLX (encAlu (56 + w.code) (none) f) f.lit
  | .ineg w f => wordsLX (encAlu (64 + w.code) (none) f) f.lit
  | .icmp c t f => wordsLX (encAlu (72 + t.code) (some c.code) f) f.lit
  | .lea s k f => wordsLX (encAlu (if s then 0x53 else 0x57) (some k.val) f) f.lit
  | .andI t f => wordsLX (encAlu (88 + t.code) (none) f) f.lit
  | .andn t f => wordsLX (encAlu (96 + t.code) (none) f) f.lit
  | .orI t f => wordsLX (encAlu (104 + t.code) (none) f) f.lit
  | .xorI t f => wordsLX (encAlu (112 + t.code) (none) f) f.lit
  | .notI t f => wordsLX (encAlu (120 + t.code) (none) f) f.lit
  | .shl t f => wordsLX (encAlu (128 + t.code) (none) f) f.lit
  | .shr t f => wordsLX (encAlu (136 + t.code) (none) f) f.lit
  | .sar t f => wordsLX (encAlu (144 + t.code) (none) f) f.lit
  | .rol t f => wordsLX (encAlu (152 + t.code) (none) f) f.lit
  | .popc t f => wordsLX (encAlu (160 + t.code) (none) f) f.lit
  | .clz t f => wordsLX (encAlu (168 + t.code) (none) f) f.lit
  | .brev t f => wordsLX (encAlu (176 + t.code) (none) f) f.lit
  | .bfe t f => wordsLX (encAlu (184 + t.code) (none) f) f.lit
  | .bfi t f => wordsLX (encAlu (192 + t.code) (none) f) f.lit
  | .sel t f => wordsLX (encAlu (200 + t.code) (none) f) f.lit
  | .fadd t f => wordsLX (encAlu (248 + t.code) (none) f) f.lit
  | .fsub t f => wordsLX (encAlu (252 + t.code) (none) f) f.lit
  | .fmul t f => wordsLX (encAlu (256 + t.code) (none) f) f.lit
  | .ffma t f => wordsLX (encAlu (260 + t.code) (none) f) f.lit
  | .fmin t f => wordsLX (encAlu (264 + t.code) (none) f) f.lit
  | .fmax t f => wordsLX (encAlu (268 + t.code) (none) f) f.lit
  | .fcmp c t f => wordsLX (encAlu (272 + t.code) (some c.code) f) f.lit
  | .fclass t f => wordsLX (encAlu (276 + t.code) (none) f) f.lit
  | .frnd t f => wordsLX (encAlu (280 + t.code) (none) f) f.lit
  | .frcp t f => wordsLX (encAlu (284 + t.code) (none) f) f.lit
  | .frsq t f => wordsLX (encAlu (288 + t.code) (none) f) f.lit
  | .fsqrt t f => wordsLX (encAlu (292 + t.code) (none) f) f.lit
  | .fexp2 t f => wordsLX (encAlu (296 + t.code) (none) f) f.lit
  | .flog2 t f => wordsLX (encAlu (300 + t.code) (none) f) f.lit
  | .fsin t f => wordsLX (encAlu (304 + t.code) (none) f) f.lit
  | .fcos t f => wordsLX (encAlu (308 + t.code) (none) f) f.lit
  | .ftanh t f => wordsLX (encAlu (312 + t.code) (none) f) f.lit
  | .fsigm t f => wordsLX (encAlu (316 + t.code) (none) f) f.lit
  | .red o t f => wordsLX (encAlu (0x180 + o.code) (some t.code) f) f.lit
  | .scan o x t f => wordsLX (encAlu (0x188 + o.code) (some (16 * boolN x + t.code)) f) f.lit
  | .cvt d s p f => wordsLX (encAlu (0x190 + s.code) (some (16 * p.val + d.code)) f) f.lit
  | .amax t f => wordsLX (encAlu (0x1A0) (some t.code) f) f.lit
  | .qscale k f => wordsLX (encAlu (0x1a1) (some k.val) f) f.lit
  | .qpack k f => wordsLX (encAlu (0x1a2) (some k.val) f) f.lit
  | .qunpack k f => wordsLX (encAlu (0x1a3) (some k.val) f) f.lit
  | .bpsplit k f => wordsLX (encAlu (0x1a4) (some k.val) f) f.lit
  | .bpjoin k f => wordsLX (encAlu (0x1a5) (some k.val) f) f.lit
  | .perm t f => wordsLX (encAlu (0x1A6) (some t.code) f) f.lit
  | .vote v f => wordsLX (encAlu (0x1A7) (some v.code) f) f.lit
  | .matchI t f => wordsLX (encAlu (0x1A8) (some t.code) f) f.lit
  | .wsync f => wordsLX (encAlu (0x1A9) (none) f) f.lit
  | .mov t f => wordsLX (encAlu (0x1AA) (some t.code) f) f.lit
  | .movm k r w f => wordsLX (encAlu (0x1AB) (some (8 * k.val + 4 * boolN r + (3 - w.code))) f) f.lit
  | .movs c f => wordsLX (encAlu (0x1AC) (some c.val) f) f.lit
  | .ld f => wordsLX (encMem 0x1b0 (f.off.extractLsb' 6 6) f) f.lit
  | .st f => wordsLX (encMem 0x1b1 (f.off.extractLsb' 6 6) f) f.lit
  | .lda f => wordsLX (encMem 0x1b2 (f.off.extractLsb' 6 6) f) f.lit
  | .stl f => wordsLX (encMem 0x1b3 (f.off.extractLsb' 6 6) f) f.lit
  | .lds f => wordsLX (encMem 0x1b4 (f.off.extractLsb' 6 6) f) f.lit
  | .sts f => wordsLX (encMem 0x1b5 (f.off.extractLsb' 6 6) f) f.lit
  | .ldx f => wordsLX (encMem 0x1b6 (f.off.extractLsb' 6 6) f) f.lit
  | .stx f => wordsLX (encMem 0x1b7 (f.off.extractLsb' 6 6) f) f.lit
  | .ldc f => wordsLX (encMem 0x1b8 (f.off.extractLsb' 6 6) f) f.lit
  | .atom op o f => wordsLX (encMem 0x1b9 (BitVec.ofNat 4 op.code ++ o.code) f) f.lit
  | .atoms op o f => wordsLX (encMem 0x1ba (BitVec.ofNat 4 op.code ++ o.code) f) f.lit
  | .fence f => wordsLX (encMem 0x1BB (f.off.extractLsb' 6 6) f) f.lit
  | .mma f => wordsLX (encMat 0x1c0 f) f.lit
  | .accload f => wordsLX (encMat 0x1c1 f) f.lit
  | .accdrain f => wordsLX (encMat 0x1c2 f) f.lit
  | .accrel f => wordsLX (encMat 0x1c3 f) f.lit
  | .copy l s d f => wordsLX (encEng 0x1c8 (l.code + 4 * boolN s + 8 * boolN d) f) f.lit
  | .engage f => wordsLX (encEng 0x1c9 (0) f) f.lit
  | .rdv f => wordsLX (encEng 0x1ca (0) f) f.lit
  | .semsig k f => wordsLX (encEng 0x1cb (k.val) f) f.lit
  | .semwait k f => wordsLX (encEng 0x1cc (k.val) f) f.lit
  | .qpop k f => wordsLX (encEng 0x1cd (k.val) f) f.lit
  | .qpush k f => wordsLX (encEng 0x1ce (k.val) f) f.lit
  | .ncall k m f => wordsLX (encEng 0x1cf (k.val + 8 * m.val) f) f.lit
  | .nflush a f => wordsLX (encEng 0x1d0 (boolN a) f) f.lit
  | .wbind f => wordsLX (encEng 0x1d1 (0) f) f.lit
  | .wpin f => wordsLX (encEng 0x1d2 (0) f) f.lit
  | .wunpin f => wordsLX (encEng 0x1d3 (0) f) f.lit
  | .wpref f => wordsLX (encEng 0x1d4 (0) f) f.lit
  | .gmv s f => wordsLX (encEng 0x1d5 (4 * s.val) f) f.lit
  | .gmm v s f => wordsLX (encEng 0x1d6 (v.val + 4 * s.val) f) f.lit
  | .binapp o w f => wordsLX (encEng 0x1d7 (o.code + 16 * boolN w) f) f.lit
  | .binreplay f => wordsLX (encEng 0x1d8 (0) f) f.lit
  | .wlinit f => wordsLX (encEng 0x1d9 (0) f) f.lit
  | .wlpush f => wordsLX (encEng 0x1da (0) f) f.lit
  | .wlins f => wordsLX (encEng 0x1db (0) f) f.lit
  | .wlpopb f => wordsLX (encEng 0x1dc (0) f) f.lit
  | .hashb k p f => wordsLX (encEng 0x1dd (k.val + 8 * p.val) f) f.lit
  | .enq f => wordsLX (encEng 0x1de (0) f) f.lit
  | .depdec s f => wordsLX (encEng 0x1df (boolN s) f) f.lit
  | .tex l f => wordsLX (encEng 0x1e0 (l.code) f) f.lit
  | .texg l c f => wordsLX (encEng 0x1e1 (l.code + 4 * c.val) f) f.lit
  | .attr f => wordsLX (encEng 0x1e2 (0) f) f.lit
  | .exportV t d f => wordsLX (encEng 0x1e3 (t.val + 16 * boolN d) f) f.lit
  | .discard f => wordsLX (encEng 0x1e4 (0) f) f.lit
  | .rayq a c f => wordsLX (encEng 0x1e5 (boolN a + 2 * boolN c) f) f.lit
  | .coll k o t f => wordsLX (encEng 0x1e6 (k.code + 4 * o.code + 16 * t.code) f) f.lit
  | .deal f => wordsLX (encEng 0x1e7 (0) f) f.lit
  | .bra c f => wordsLX (encCtl 0x1e8 (c.code) (0) (f)) f.lit
  | .brx f => wordsLX (encCtl 0x1e9 (0) (0) (f)) f.lit
  | .call f => wordsLX (encCtl 0x1ea (0) (0) (f)) f.lit
  | .ret f => wordsLX (encCtl 0x1eb (0) (0) (f)) f.lit
  | .exit e => wordsLX (encCtl 0x1ec (0) (0) (plainCtlF e 0)) none
  | .lsetup k l f => wordsLX (encCtl 0x1ed (4 * k.val) (l) (f)) f.lit
  | .fork f => wordsLX (encCtl 0x1ee (0) (0) (f)) f.lit
  | .fjoin e => wordsLX (encCtl 0x1ef (0) (0) (plainCtlF e 0)) none
  | .bar e => wordsLX (encCtl 0x1f0 (0) (0) (plainCtlF e 0)) none
  | .cbar h e => wordsLX (encCtl 0x1f1 (boolN h) (0) (plainCtlF e 0)) none
  | .yield e => wordsLX (encCtl 0x1f2 (0) (0) (plainCtlF e 0)) none
  | .nop e => wordsLX (encCtl 0x1f3 (0) (0) (plainCtlF e 0)) none
  | .trig e => wordsLX (encCtl 0x1f4 (0) (0) (plainCtlF e 0)) none
  | .trap c e => wordsLX (encCtl 0x1f5 (0) (0) (plainCtlF e c)) none
  | .rft s e => wordsLX (encCtl 0x1f6 (boolN s) (0) (plainCtlF e 0)) none
  | .csrr k e d => wordsLX (encCtl 0x1f7 (0) (0) ({ plainCtlF e (k.zeroExtend 16) with d := d })) none
  | .csrw k f => wordsLX (encCtl 0x1f8 0 0 { f with off := k.zeroExtend 16 }) f.lit
  | .brk c e => wordsLX (encCtl 0x1f9 (0) (0) (plainCtlF e c)) none
  | .halt e => wordsLX (encCtl 0x1fa (0) (0) (plainCtlF e 0)) none
  | .nopS e => [encShort 0 { e := e, d := .void, a := .zero, b := .zero, pm := 0, ha := false }]
  | .movS f => [encShort 0x1 f]
  | .ldS64 f => [encShort 0x2 f]
  | .stS64 f => [encShort 0x3 f]
  | .ldsS64 f => [encShort 0x4 f]
  | .stsS64 f => [encShort 0x5 f]
  | .ldS32 f => [encShort 0x6 f]
  | .stS32 f => [encShort 0x7 f]
  | .ldsS32 f => [encShort 0x6c f]
  | .stsS32 f => [encShort 0x6d f]
  | .iaddS t f => [encShort (0x8 + t.code) f]
  | .isubS t f => [encShort (0x10 + t.code) f]
  | .imulS t f => [encShort (0x18 + t.code) f]
  | .andS t f => [encShort (0x20 + t.code) f]
  | .orS t f => [encShort (0x28 + t.code) f]
  | .xorS t f => [encShort (0x30 + t.code) f]
  | .shlS t f => [encShort (0x38 + t.code) f]
  | .shrS t f => [encShort (0x40 + t.code) f]
  | .iminS t f => [encShort (0x48 + t.code) f]
  | .imaxS t f => [encShort (0x50 + t.code) f]
  | .faddS t f => [encShort (0x50 + t.code) f]
  | .fsubS t f => [encShort (0x54 + t.code) f]
  | .fmulS t f => [encShort (0x58 + t.code) f]
  | .fminS t f => [encShort (0x5c + t.code) f]
  | .fmaxS t f => [encShort (0x60 + t.code) f]
  | .amov h f => wordsLX (encStr 0x160 (some (boolN h)) f) f.lit
  | .aadd f => wordsLX (encStr 0x161 (some 0) f) f.lit
  | .acmp c f => wordsLX (encStr 0x162 (some c.code) f) f.lit
  | .abr c f => wordsLX (encStrCtl 0x163 c.code 0 f) f.lit
  | .aloop k l f => wordsLX (encStrCtl 0x164 (4 * k.val) l f) f.lit
  | .amove f => wordsLX (encStr 0x165 (some 0) f) f.lit
  | .agather f => wordsLX (encStr 0x166 (none) f) f.lit
  | .ascatter f => wordsLX (encStr 0x167 (none) f) f.lit
  | .asig k f => wordsLX (encStr 0x168 (some k.val) f) f.lit
  | .await k f => wordsLX (encStr 0x169 (some k.val) f) f.lit
  | .ahalt f => wordsLX (encStr 0x16a (some 0) f) f.lit
  | _ => []

/-- The instruction that the decoder reads from the bits that the opcode table numbers: bit 0 is bit 0 of the first
word, and later words follow above it. -/
def decodeTableWord (nbits w : Nat) : Option Instr :=
  let v := w % 2 ^ nbits
  let word := fun k => BitVec.ofNat 32 (v / 2 ^ (32 * k))
  match decodeBytes ([word 0, word 1, word 2].flatMap bytesOfWord) with
  | .ok (i, _) => some i
  | .error _ => none

end Sys2Proof
end

