-- ==== Sys2Proof/Config.lean ====
section
/-!
DEFINITION. What one device fixes and the spec leaves open. Every constant here is opaque: nothing can be proved of its
value. The first argument of most is the step count of the state they are used in, so that each use is a fresh value.
-/

namespace Sys2Proof.Config

/-- A number from which a choice among several allowed ones is taken (R21, R179, R188, R244, R280, R291, R311): the step,
the kind of choice, and which one of that kind. DESIGN CHOICE, unsafe (log 6). -/
opaque freePick : Nat → Nat → Nat → Nat
/-- A byte the spec leaves open: staging hall after a replay (R271), destinations of a mismatched collective (R322).
DESIGN CHOICE, safe (log 23, 53). -/
opaque freeByte : Nat → Nat → Nat → Byte
/-- A dword the spec leaves open: the step, the kind of value, and which one of that kind. -/
opaque freeWord : Nat → Nat → Nat → Word
/-- Cycles that pass in one step (R2, R345: latencies are typical). DESIGN CHOICE, unsafe (log 4). -/
opaque freeCycles : Nat → Nat
/-- Does another device answer a request to this address now (R318, R319)? DESIGN CHOICE, safe (log 11). -/
opaque peerAnswers : Nat → Nat → Bool
/-- A byte of another device's memory as it answers now (R164); other devices write it at any time.
DESIGN CHOICE, safe (log 11). -/
opaque peerByte : Nat → Nat → Byte
/-- The correctly rounded value of a transcendental whose enclosure does not decide it (R148): function, type, operand
and mode give the result's bits. DESIGN CHOICE, safe (log 3). -/
opaque transcendental : Nat → Nat → Nat → Nat → Nat
/-- Fused identity: serial (R341), root public key of 68 bytes (R337). DESIGN CHOICE, safe (log 52). -/
opaque serial : Word
/-- DESIGN CHOICE, safe (log 52). -/
opaque rootKey : Nat → Byte
/-- The fused rollback counter (R337). DESIGN CHOICE, safe (log 52). -/
opaque rollback : Nat
/-- What IDCODE shifts out (R333). -/
opaque idcode : W32
/-- The ROM's digest, log entry 0 (R337). DESIGN CHOICE, safe (log 52). -/
opaque romDigest : BitVec 256
/-- The keys of the device, by number (R339): the start of each chain of each leaf, which never leaves the die; the public seed;
and the key that gives a signature its randomness. DESIGN CHOICE, safe (log 52). -/
opaque xmssSecret : Nat → Nat → Nat → BitVec 256
/-- DESIGN CHOICE, safe (log 52). -/
opaque xmssSeed : Nat → BitVec 256
/-- DESIGN CHOICE, safe (log 52). -/
opaque xmssPrfKey : Nat → BitVec 256

/-- Is a triangle whose vertices turn counter-clockwise, seen from the ray's origin, front-facing (R310)?
DESIGN CHOICE, unsafe (log 22). -/
opaque rayCcwFront : Bool

end Sys2Proof.Config
end

