-- ==== Sys2Proof/Machine/Bits.lean ====
section
/-!
DEFINITION. Bit fields, sub-elements (R54, R55), byte order (R4) and sets of lanes.
-/

namespace Sys2Proof.Machine

open Sys2Proof

/-- Bits [hi:lo] of a number. -/
def fld (x : Nat) (hi lo : Nat) : Nat := x / 2 ^ lo % 2 ^ (hi + 1 - lo)

/-- Bits [hi:lo] of a dword. -/
def bits (x : Word) (hi lo : Nat) : Nat := fld x.toNat hi lo

def w64 (n : Nat) : Word := BitVec.ofNat 64 n
def w32 (n : Nat) : W32 := BitVec.ofNat 32 n
def low32 (x : Word) : Nat := bits x 31 0
def high32 (x : Word) : Nat := bits x 63 32

/-- Sub-element j of b bits. -/
def subN (b : Nat) (x : Word) (j : Nat) : Nat := x.toNat / 2 ^ (b * j) % 2 ^ b

/-- The dword of sub-elements of b bits, sub-element 0 first. -/
def packN (b : Nat) : List Nat → Nat
  | [] => 0
  | v :: vs => v % 2 ^ b + 2 ^ b * packN b vs

/-- The dword whose sub-element j is f j (R54). -/
def ofSubs (w : Width) (f : Nat → Nat) : Word := w64 (packN w.bits ((List.range w.count).map f))

def sub (w : Width) (x : Word) (j : Nat) : Nat := subN w.bits x j

/-- An unsigned b-bit number as two's complement. -/
def signed (b v : Nat) : Int := if v < 2 ^ (b - 1) then v else (v : Int) - (2 ^ b : Nat)

/-- The low b bits of an integer. -/
def wrap (b : Nat) (v : Int) : Nat := (v % (2 ^ b : Nat)).toNat

/-- The bits of the sub-elements that a mask of sub-elements enables. -/
def spread (w : Width) (m : BitVec 8) : Word :=
  ofSubs w fun j => if m.getLsbD j then 2 ^ w.bits - 1 else 0

/-- `new` in enabled sub-elements and `old` in the others (R59). -/
def merge (w : Width) (m : BitVec 8) (new old : Word) : Word :=
  (new &&& spread w m) ||| (old &&& ~~~(spread w m))

/-- One poison bit per byte: those of the enabled sub-elements. -/
def bytesMask (w : Width) (m : BitVec 8) : BitVec 8 :=
  BitVec.ofNat 8 (packN 1 ((List.range 8).map fun i => if m.getLsbD (i / w.bytes) then 1 else 0))

/-- DESIGN CHOICE, unsafe (log 51). -/
def mergePoison (w : Width) (m : BitVec 8) (new old : BitVec 8) : BitVec 8 :=
  (new &&& bytesMask w m) ||| (old &&& ~~~(bytesMask w m))

/-- Bytes of a number, least significant first (R4). -/
def bytesLE : Nat → Nat → List Byte
  | 0, _ => []
  | k + 1, v => BitVec.ofNat 8 v :: bytesLE k (v / 256)

def natLE : List Byte → Nat
  | [] => 0
  | b :: bs => b.toNat + 256 * natLE bs

def lanesAll : List (Fin 32) := List.finRange 32

def LaneMask.has (m : LaneMask) (l : Fin 32) : Bool := m.getLsbD l.val

def laneBit (l : Fin 32) : LaneMask := BitVec.ofNat 32 (2 ^ l.val)

/-- The lanes of a mask, ascending. -/
def lanesOf (m : LaneMask) : List (Fin 32) := lanesAll.filter fun l => LaneMask.has m l

def lowestLane (m : LaneMask) : Fin 32 := (lanesOf m).headD 0

def maskOf (ls : List (Fin 32)) : LaneMask := ls.foldl (fun m l => m ||| laneBit l) 0

/-- The lane mask of a test. -/
def maskWhere (p : Fin 32 → Bool) : LaneMask := maskOf (lanesAll.filter p)

def ceilDiv (a b : Nat) : Nat := (a + b - 1) / b
def roundUp (a b : Nat) : Nat := ceilDiv a b * b

/-- One of several allowed choices: the only one where there is one, else one that the free number picks.
DESIGN CHOICE, safe (log 48). -/
def choose {α : Type} (free : Nat) (l : List α) : Option α :=
  match l with
  | [] => none
  | [x] => some x
  | l => l[free % l.length]?

/-- A list in a free order (R179). DESIGN CHOICE, safe (log 48). -/
def shuffle {α : Type} [DecidableEq α] (pick : Nat → Nat) : Nat → List α → List α
  | 0, l => l
  | n + 1, l =>
    match choose (pick n) l with
    | some x => x :: shuffle pick n (l.erase x)
    | none => l

/-- A list in the order of a key, equal keys as they stand. -/
def sortInsert {α : Type} (key : α → Nat) (x : α) : List α → List α
  | [] => [x]
  | y :: ys => if key x < key y then x :: y :: ys else y :: sortInsert key x ys

def sortOn {α : Type} (key : α → Nat) (l : List α) : List α := l.foldl (fun acc x => sortInsert key x acc) []

/-- Replace or add an entry of a table. -/
def putAssoc {α β : Type} [DecidableEq α] (k : α) (v : β) : List (α × β) → List (α × β)
  | [] => [(k, v)]
  | (k', v') :: rest => if k' = k then (k, v) :: rest else (k', v') :: putAssoc k v rest

def getAssoc {α β : Type} [DecidableEq α] (k : α) : List (α × β) → Option β
  | [] => none
  | (k', v') :: rest => if k' = k then some v' else getAssoc k rest

end Sys2Proof.Machine
end

