-- ==== Sys2Proof/Machine/State.lean ====
section
/-!
DEFINITION. The state of one CX-P960: everything the spec gives the machine, as plain data, and its value after reset.
Tables that are almost everywhere at their reset value are lists of the entries that are not.
-/

namespace Sys2Proof.Machine

open Sys2Proof

/-- How a step of the model itself stops. -/
inductive Fault where
  /-- Raised by `exec` of an instruction of a thread in a state with no run in progress: there is no issue group whose
  instruction it could be. Safe: no such step exists on the device (R24). -/
  | noIssueGroup
  deriving DecidableEq, Repr

/-- Why a meaning is refused. -/
inductive Refusal where
  /-- Raised by an arm of `exec` whose instruction has no meaning yet. Safe. -/
  | notModelled (mnemonic : String)
  deriving DecidableEq, Repr

/-! ## Memory -/

/-- Bytes by address, R4. Cells stand in strictly rising order of address and none holds 0, which is what an address
without a cell reads as (log 1). DESIGN CHOICE, unsafe (log 1, 51). -/
structure Memory where
  cells : List Host.Cell
  deriving DecidableEq, Repr

/-! ## Threads -/

/-- A 64-bit register with one poison bit for each byte (R49, R52, R194). DESIGN CHOICE, unsafe (log 51). -/
structure Val where
  bits   : Word
  poison : BitVec 8
  deriving DecidableEq, Repr

/-- A loop register (R45, R70). -/
structure Loop where
  start  : Word
  stop   : Word
  count  : W32
  active : Bool
  deriving DecidableEq, Repr

/-- The registers that a run changes speculatively (R31): committed in a thread, speculative in a run. -/
structure Regs where
  q      : Vector Val 16
  n      : Vector Val 32
  m      : Vector (BitVec 8) 8
  lc     : Vector Loop 4
  fpstat : W32
  fpen   : W32
  gstat  : W32
  deriving DecidableEq, Repr

structure TeamId where
  job  : Nat
  team : Nat
  deriving DecidableEq, Repr

/-- A lane of a wave, which a thread keeps from launch to exit (R22). The unique number tells a wave from a later one
of the same index (R43). -/
structure WaveId where
  team : TeamId
  wave : Nat
  uid  : Nat
  deriving DecidableEq, Repr

/-- What a thread in the waiting state waits at (R32). -/
inductive Wait where
  | rejoin (target : Word)
  | bar | cbar | fjoin
  | joined (sig : Sig)         -- an FJOIN whose counter has read 0 since its commit (R395), with the exits' signatures
  | wsync (mask : LaneMask)
  | streamOwner | semwait | engage | rdv | qpop | qpush
  | command                    -- an engine command's result (R230, R242, R274, R283)
  | ringFull                   -- a handler entry whose record is held back (R199)
  | remote                     -- an atomic at a device that has not answered (R319)
  deriving DecidableEq, Repr

inductive Status where
  | empty | ready | waiting (w : Wait) | parked (ticket : W32) | exited | killed
  deriving DecidableEq, Repr

/-- A recorded EXPORT (R308). -/
structure Export where
  tgt   : Nat
  a     : Word
  b     : Word
  depth : Bool
  deriving DecidableEq, Repr

/-- The fragment or vertex a thread of a draw's stage stands for (R299, R301). -/
structure Frag where
  draw  : Nat
  prim  : Nat        -- place in primitive order; the pair number of a vertex thread
  x     : Nat
  y     : Nat
  depth : W32
  deriving DecidableEq, Repr

structure Thread where
  status    : Status
  pc        : Word        -- a block's header when the thread stands at its start (R35)
  next      : Word        -- where a waiting thread goes on (R32)
  blk       : Word        -- header of the block of `pc`
  regs      : Regs
  wid       : Word
  cause     : W32
  epc       : Word
  inHandler : Bool
  snapshot  : Vector Val 16
  resumePc  : Word        -- after the faulting run's last instruction (R199, R433)
  resumeBlk : Word
  resumeLen : Nat         -- words of the faulting run
  pend      : BitVec 32   -- named registers pending (R69)
  tokSig    : Option Sig  -- signature a token completion brought, acquired at the first read (R176)
  tokReg    : BitVec 32   -- the token registers it came with
  sig       : Sig         -- lines written since the last release (R181)
  helper    : Bool        -- R302
  trig      : Bool        -- R289
  exports   : List Export
  frag      : Option Frag
  since     : Nat         -- cycle at which the thread became ready (R293)
  yielded   : Bool        -- R448
  pass      : Bool        -- its next run does not stop at a breakpoint (R327)
  stepping  : Bool        -- R328
  stepLatch : List Val    -- the latch between two steps of one run (R328)
  stopped   : Bool        -- stopped with its team (R326)
  deriving DecidableEq, Repr

/-- A rejoin entry (R36, R37); the oldest stands last. -/
structure Rejoin where
  mask   : LaneMask
  target : Word
  arrived : LaneMask
  timer  : Option Nat         -- resident cycles left, once a thread has arrived
  deriving DecidableEq, Repr

structure Wave where
  idx      : Nat
  uid      : Nat
  parent   : Option Nat       -- uid of the forking wave (R43)
  lanes    : Vector Thread 32
  rejoin   : List Rejoin
  joins    : Nat              -- R43
  joinSig  : Sig              -- signatures of the children's exits (R44)
  cmds     : W32              -- command counter (R220)
  rx       : Bool             -- R67
  groups   : List LaneMask    -- groups WSYNC released and that have not issued (R40)
  slot     : Option Nat       -- resident slot 0-15 (R22)
  promoted : List (Word × Nat) -- program counters of promoted groups and when (R293)
  deriving DecidableEq, Repr

/-! ## Teams -/

/-- Where a team stands (R22, R291, R292). -/
inductive Place where
  | resident | parked | swapped | ended
  deriving DecidableEq, Repr

/-- A scratchpad is live, held after CBAR with HOLD, or released (R154). -/
inductive ScrState where
  | live | held | released
  deriving DecidableEq, Repr

/-- A stream operation of a group, with the operands it took at commit (R209, R214, R216). -/
inductive WaitOp where
  | sig (k : Fin 8) (count : Nat)
  | sem (k : Fin 8) (count : Nat)
  | pop (k : Fin 4) (d : Dst)
  | push (k : Fin 4) (entry : List Val)
  | engage (entry arg : Word) (seq : W32)
  | rdv
  deriving DecidableEq, Repr

/-- A group at a stream operation (R216): `owned` once its team is the stream owner. -/
structure Waiter where
  wave  : WaveId
  mask  : LaneMask        -- threads of the group
  act   : LaneMask        -- of them, those that take part (R75)
  pc    : Word
  op    : WaitOp
  owned : Bool
  order : Nat             -- arrival
  enc   : List W32        -- words of the instruction (R197)
  deriving DecidableEq, Repr

/-- An index element set aside (R275): its number, and how FAULTACK answered it. -/
structure Parked where
  element : Nat
  ticket  : W32
  deriving DecidableEq, Repr

/-- What the stream program of a team does (R211, R212). -/
inductive StrState where
  | idle | running
  | awaiting (order : Nat) (k : Fin 8) (count : Nat)
  | blocked (k : Fin 4) (full : Bool)      -- at a full or an empty queue (R212)
  | suspended (ticket : W32)
  deriving DecidableEq, Repr

/-- Where a byte of an access lies: a host-physical address as a partition sees it (R161), or a scratchpad byte. -/
inductive Loc where
  | phys (part hpa : Nat)
  | scr (t : TeamId) (off : Nat)
  deriving DecidableEq, Repr

structure Stream where
  st     : StrState
  pc     : Word
  blk    : Word
  a      : Vector Word 16
  loops  : Vector Loop 4
  site   : Word           -- PC of the ENGAGE (R212)
  seq    : W32
  wave   : Nat            -- of the ENGAGE
  order  : Nat            -- of the ENGAGE, among its team's stream operations (R276)
  cursor : Nat            -- elements already moved by the instruction in progress
  parked : List Parked    -- index elements waiting for an answer
  drop   : List Nat       -- index elements answered by ACT 1
  held   : List (Nat × Nat × Val) -- index elements set aside: number, index, and the value to scatter (R275)
  passed : List (Nat × Nat) -- elements scattered while others are set aside, with their indices (R360)
  front  : Nat            -- gathered elements already pushed
  got    : List (Nat × Val) -- slots read and not yet pushed
  entry  : List Val       -- what is left of the queue entry in hand
  shadow : List (Loc × Byte) -- unpublished scratchpad and hall bytes, in order of writing (R187, R211)
  bad    : List Loc       -- places whose lines the shadow poisons
  sig    : Sig
  enc    : List W32       -- words of the ENGAGE (R197)
  deriving DecidableEq, Repr

/-- The stage of a draw that a team runs (R297). -/
inductive Stage where
  | vertex (draw : Nat) | pixel (draw : Nat)
  deriving DecidableEq, Repr

structure Team where
  id        : TeamId
  cohort    : Nat
  f1        : Nat
  cluster   : Nat
  core      : Nat
  place     : Place
  waves     : List Wave
  nextUid   : Nat
  scrSize   : Nat
  scr       : Memory
  scrPoison : List Nat        -- poisoned lines of the scratchpad
  scrState  : ScrState
  cbarHold  : Bool            -- the last completed CBAR was executed with HOLD (R154)
  cbarAsked : Bool            -- a thread of the team arrived with HOLD at the CBAR in progress
  cbarGen   : Nat             -- CBARs completed
  barGen    : Nat             -- BARs completed (R365)
  barSig    : Sig
  cbarSig   : Sig
  barCut    : Nat × Nat       -- commands and stream operations committed before the latest arrival at the BAR (R276)
  cbarCut   : Nat × Nat       -- the same, for the CBAR
  stream    : Stream
  owner     : Bool            -- stream owner of its core (R209)
  sem       : Vector Nat 8    -- R216, below 65,536
  semSig    : Vector Sig 8
  dq        : Vector (List (List Val)) 4
  dqSig     : Vector Sig 4
  dqCap     : Vector Nat 4    -- R213
  waiters   : List Waiter
  arrivals  : Nat
  guard     : Nat             -- cycle until which the scheduler leaves it resident (R34)
  image     : Option Nat      -- directory entry of its image in the save area, while it has one (R206)
  written   : List Byte       -- that image as the device last wrote it: what differs from it a debugger wrote (R327)
  since     : Nat             -- cycle of the last change of `place`
  stage     : Option Stage
  deriving DecidableEq, Repr

/-! ## A run in progress (R29 to R33) -/

/-- The home of a word: a byte of the device's own memory, by its place in the memory devices, or of a scratchpad. -/
inductive Home where
  | mem (key : Nat)
  | scr (t : TeamId) (off : Nat)
  deriving DecidableEq, Repr

/-- What a store does at its home beside writing (R174, R180, R182). -/
inductive StoreKind where
  | plain | marked
  deriving DecidableEq, Repr

/-- An entry of a run store buffer (R31). -/
structure Store where
  lane   : Fin 32
  loc    : Loc
  va     : Word                 -- the address it was translated from
  bytes  : List Byte
  poison : Bool
  kind   : StoreKind
  inst   : Nat                  -- the instruction's number in its run
  pc     : Word                 -- and its address
  enc    : List W32             -- its words (R197)
  deriving DecidableEq, Repr

/-- A memory request that carries a sample (R331): its instruction, whether another device or a bank step serves it. -/
structure Sample where
  pc     : Word
  remote : Bool
  bank   : Bool
  deriving DecidableEq, Repr

structure Run where
  wave      : WaveId
  group     : LaneMask
  start     : Word              -- address of the run's first instruction
  blk       : Word
  pc        : Word              -- next instruction
  count     : Nat               -- instructions executed
  pushes    : Nat               -- results pushed (R49)
  spec      : Vector Regs 32
  latch     : Vector (List Val) 32  -- h0 first, at most three (R60)
  holds     : Nat               -- values held so far in the run
  stores    : List Store        -- in program order
  flags     : Vector W32 32     -- flags to be set at commit (R130)
  rx        : Bool
  fence     : LaneMask          -- threads that executed a FENCE in the run (R184, R394)
  samples   : List Sample       -- those of its loads (R331)
  suspended : Bool              -- waits at `pc` (R24)
  reserve   : Option (Nat × Nat) -- the context and accumulator slot that its waiting MMA has reserved (R224)
  wiped     : List (Fin 32 × Fin 32 × BitVec 8) -- lane, poisoned named register, its bytes that were written (R194)
  deriving DecidableEq, Repr

/-! ## Jobs, draws -/

/-- The fields of a job card or stage record (R278, R297). -/
structure Card where
  handler : Word
  early   : Word
  signal  : Nat
  wait    : Nat
  cmin    : Nat
  cohm1   : Nat
  cls     : Nat
  cohort  : Nat
  scratch : Nat
  named   : Nat
  waves   : Nat
  slots   : Vector W32 8
  widths  : Vector Nat 6
  nrec    : W32
  recSize : W32
  args    : Word
  entry   : Word
  deriving DecidableEq, Repr

/-- An address-space descriptor (R166). -/
structure Asd where
  vf     : Nat
  ctx    : Nat
  s2root : Nat
  s2en   : Bool
  s1root : Nat
  deriving DecidableEq, Repr

structure Job where
  id         : Nat
  vf         : Nat
  part       : Nat
  queue      : Option Nat      -- none for an early successor
  cardIdx    : W32
  cardAddr   : Word
  card       : Card
  asd        : Asd
  status     : Nat
  nextRec    : Nat             -- R290
  nextCohort : Nat             -- cohorts launched so far (R280, R291)
  earlyDone  : Bool
  trigSig    : Sig
  launched   : Nat             -- cycle of the launch
  rejected   : Bool            -- complete since its launch (R279)
  draw       : Option (Nat × Bool) -- the draw whose stage it is; true for its vertex stage
  recorded   : Bool            -- its completion record was made (R288)
  completed  : Bool            -- complete; kept for an early successor that has not launched (R289)
  deriving DecidableEq, Repr

/-- A fragment that waits for the blend unit (R308, R309); dropped when its thread became a helper or was killed. -/
structure Fragment where
  frag    : Frag
  exports : List Export
  dropped : Bool
  deriving DecidableEq, Repr

/-- What a thread of a draw's stage starts with: n0 up, and whether its pixel is covered (R301). -/
structure Seed where
  frag    : Frag
  n       : List Word
  covered : Bool
  deriving DecidableEq, Repr

/-- A pixel team as the front end filled it: lanes of its waves, and its attribute blocks (R297, R299). -/
structure PixelTeam where
  waves : List (List (Option Seed))
  attrs : List Byte
  deriving DecidableEq, Repr

/-- Vertex results as they leave at EXIT (R299). -/
structure VertexOut where
  pair  : Nat
  pos   : Vector W32 4            -- x, y, z, w
  attrs : Vector (Vector W32 2) 4
  deriving DecidableEq, Repr

/-- A draw in progress (R296 to R300). -/
structure Draw where
  id       : Nat                  -- its JOBID
  vf       : Nat
  part     : Nat
  queue    : Nat
  cardIdx  : W32
  cardAddr : Word
  card     : BitVec 1024
  asd      : Asd
  vjob     : Nat                  -- JOBIDs of its stages
  pjob     : Nat
  status   : Nat                  -- the first code recorded of either stage (R300)
  verts    : List Word            -- the index of each vertex of an instance (R296)
  vout     : List VertexOut
  nextPrim : Nat                  -- primitives rasterised
  formed   : List PixelTeam
  pending  : List Frag            -- fragments launched and not yet blended, in primitive order
  ready    : List Fragment        -- fragments whose threads have exited
  rejected : Bool
  recorded : Bool
  deriving DecidableEq, Repr

/-! ## Engines -/

/-- One accumulator slot that is or was allocated (R221 to R224): its data is 64 rows of 64 binary64 elements. -/
structure AccSlot where
  cluster : Nat
  ctx     : Nat
  slot    : Nat
  gen     : BitVec 16
  owner   : Option TeamId
  data    : List (Nat × Word)      -- element 64r + c, those that are not +0
  poison  : List Nat
  deriving DecidableEq, Repr

/-- A context of a cluster's matrix engine and the job it is bound to (R223). -/
structure Context where
  cluster : Nat
  ctx     : Nat
  job     : Nat
  deriving DecidableEq, Repr

/-- A context's contents after its job left the engine (R234): slot number, GEN, owner, data. -/
structure SavedCtx where
  cluster : Nat
  job     : Nat
  old     : Nat
  slots   : List AccSlot
  image   : Option Nat              -- its entry in the cluster's image directory (R206)
  deriving DecidableEq, Repr

/-- A copy (R217 to R219). Registers that name a token are given by lane. -/
structure Copy where
  log2   : Nat
  dst    : Word
  src    : Word
  count  : Nat
  srcS   : Bool
  dstS   : Bool
  cursor : Nat
  shadow : List Byte               -- unpublished, for a scratchpad or hall destination
  wrote  : List Nat                -- words of a global destination that have been written before the end (R188)
  deriving DecidableEq, Repr

/-- What an engine command does, with the operands it took at commit. -/
inductive CmdKind where
  | copy (c : Copy)
  | mma (ctx slot fs kc : Nat) (rows : LaneMask) (a b : Word)
  | drain (ctx slot fs : Nat) (rows : LaneMask) (a rowv colv : Word)
  | grammar (k fs : Nat) (a b out : Word) (inStride outStride : Nat) (trapen : Bool)
  | binapp (op : AOp) (wide : Bool) (recs : List (Nat × Word × Word × Word)) -- lane, descriptor, offset, value
  | binreplay (desc : Word) (region : Nat) (stage : Word)
  | wlinit (desc : Word)
  | wlpush (desc : Word) (items : List (Nat × W32))
  | wlins (desc : Word) (keys : List (Nat × W32)) (d : Dst)
  | wlpopb (desc : Word) (lanes : LaneMask) (d : Dst)
  | enq (cards : List (Nat × Nat × Word)) (d : Dst)
  | wbind (handle : Nat) (addr : Word)
  | coll (kind : CollKind) (op : CollOp) (ty : CollTy) (desc src dst : Word) (count root : Nat)
  | rayq (any cull : Bool) (root : Word) (ray : List Word) (n : Nat)
  deriving DecidableEq, Repr

/-- A value that a rule engine read or computed, with its poison. -/
structure GVal where
  code : Nat
  bad  : Bool
  deriving DecidableEq, Repr

/-- A rule that has been evaluated: its depth and its value for each vector (R258, R259). -/
structure Rule where
  depth : Nat
  vals  : List GVal
  deriving DecidableEq, Repr

/-- What a rule-engine command that suspended has done (R257): the rules it has evaluated, the row it stands at, and of that
row's values those not yet written. -/
structure GramPart where
  desc    : Option Nat              -- its descriptor, once read
  rules   : List Rule
  row     : Nat
  vec     : Nat
  vals    : Option (List GVal)      -- of the row in hand, from that vector on
  zero    : Bool                    -- that row is an empty one
  growPtr : Bool
  words   : List (Nat × List Byte)  -- bytes written of words that are not whole yet (R263)
  deriving DecidableEq, Repr

/-- An engine command that has committed and not completed (R220). -/
structure Cmd where
  id      : Nat
  wave    : WaveId
  lanes   : LaneMask               -- threads its result or token goes to
  tok     : Option Nat             -- token register
  seq     : W32
  pc      : Word
  cls     : Nat
  cluster : Nat
  core    : Nat
  wid     : Word                   -- of the commanding thread
  kind    : CmdKind
  ticket  : Option W32             -- suspended at a fault (R219)
  parked  : List Parked            -- index elements (R275)
  drop    : List Nat
  done    : List Nat               -- index elements dealt with
  part    : Option GramPart        -- what a suspended rule-engine command has done
  started : Option Nat             -- for a BINREPLAY that has started: commands accepted by then (R271)
  sig     : Sig
  silent  : Bool                   -- its team was terminated (R200)
  enc     : List W32               -- words of the instruction that launched it (R197)
  vf      : Nat                    -- its job's virtual function, partition and address space, which a collective
  partNo  : Nat                    -- of a terminated team keeps (R322)
  asd     : Asd
  mem0    : Memory                 -- memory and its team's scratchpad as they stood at commit (R186)
  scr0    : Memory
  deriving DecidableEq, Repr

/-- One neural call in a bin (R243 to R245). -/
structure Call where
  wave  : WaveId
  lane  : Fin 32
  tok   : Nat
  out   : Nat
  outs  : Nat                       -- output registers
  x     : List Word                 -- input registers
  at_   : Nat                       -- cycle of commit
  id    : Nat
  cluster : Nat
  seq   : W32
  pc    : Word
  deriving DecidableEq, Repr

/-- The weights of a bin: not loaded, of no valid set, or as the tile read them (R239, R240). -/
inductive Weights where
  | waiting | missing
  | loaded (bytes : List Byte) (poison : Bool)
  deriving DecidableEq, Repr

structure Bin where
  id         : Nat
  cluster    : Nat
  job        : Nat
  vf         : Nat
  handle     : Nat
  calls      : List Call            -- in arrival order
  dispatched : Bool
  entry      : Nat                  -- its place among the commands of its context's queue, once dispatched (R246, R251)
  weights    : Weights
  ran        : Nat                  -- turns of its tile that are over, one for each layer (R233, R246)
  deriving DecidableEq, Repr

/-- A weight set in a cluster's Belfry (R240), with the bytes it loaded. -/
structure BelfrySet where
  cluster : Nat
  vf      : Nat
  handle  : Nat
  bytes   : List Byte
  poison  : Bool
  used    : Nat
  deriving DecidableEq, Repr

/-- A job's pin of a handle in a cluster's Belfry (R240). -/
structure Pin where
  cluster : Nat
  job     : Nat
  handle  : Nat
  deriving DecidableEq, Repr

/-- A bound entry of a handle table (R239). -/
structure Handle where
  vf     : Nat
  handle : Nat
  hpa    : Nat
  size   : Nat
  deriving DecidableEq, Repr

/-! ## Caches -/

/-- A line of a core's L1 (R156, R180); `core` numbers cores over the device, 12 x cluster + core. -/
structure L1Line where
  core  : Nat
  ctx   : Nat
  vline : Nat
  pline : Nat
  data  : List Byte
  own   : Bool
  fill  : Nat
  deriving DecidableEq, Repr

/-- A line of a core's constant cache (R155). -/
structure CLine where
  core  : Nat
  ctx   : Nat
  vline : Nat
  pline : Nat
  data  : List Byte
  deriving DecidableEq, Repr

/-- Permissions of one stage (R168). -/
structure Perm where
  r : Bool
  w : Bool
  x : Bool
  deriving DecidableEq, Repr

/-- A TLB entry (R172): `unit` is a core for the first level and a cluster for the second. -/
structure TlbEntry where
  level2 : Bool
  unit   : Nat
  ctx    : Nat
  vf     : Nat
  va     : Nat                      -- page base
  gpa    : Nat                      -- the guest-physical page base it goes through
  log2   : Nat                      -- log2 of the page's bytes
  hpa    : Nat
  perm1  : Perm
  perm2  : Perm
  sys    : Bool
  nc     : Bool
  dirty  : Bool                     -- D is set in every leaf used
  deriving DecidableEq, Repr

/-- An entry of a signature table (R182): tables 0-191 are the banks', 192 + c is that of core c. -/
structure SigEntry where
  home  : Home
  table : Nat
  sig  : Sig
  deriving DecidableEq, Repr

/-! ## Faults held, management registers -/

/-- What a ticket stands for (R198). -/
inductive TicketOf where
  | threads (w : WaveId) (mask : LaneMask)
  | command (id : Nat)
  | element (id : Nat) (e : Nat)
  | stream (t : TeamId)
  | streamElement (t : TeamId) (e : Nat)
  deriving DecidableEq, Repr

structure Ticket where
  num  : W32
  vf   : Nat
  who  : TicketOf
  code : Nat
  sub  : Nat
  stop : Bool                       -- a breakpoint's or step's (R327)
  deriving DecidableEq, Repr

/-- Rings in which the device writes for system software (R196). -/
inductive RingKind where
  | fault | sample | completion (job : Nat)
  deriving DecidableEq, Repr

/-- A record that could not be written (R195, R196, R288); `into` are the threads that enter their handler when it is
(R199). -/
structure Held where
  vf    : Nat
  kind  : RingKind
  record : BitVec 512
  into : Option (WaveId × LaneMask)
  deriving DecidableEq, Repr

/-- The registers of one virtual function (R173, R195, R196, R281, R313, R316, R323, R325, R331). -/
structure VfRegs where
  vfquota  : Word
  qtbase   : Word
  pnovf    : Nat
  vfcfg    : Word
  irqlog   : Word
  irqhead  : Nat
  irqtail  : Nat
  irqpend  : BitVec 4
  gbase    : Word
  ngran    : Word
  harvest  : Word
  sysasd   : Word
  guestid  : Word
  fqcfg    : Word
  fqhead   : Nat
  fqtail   : Nat
  tlbinv   : Word
  dbgctl   : Word
  dbgbp    : Vector Word 4
  sampcfg  : Word
  samphead : Nat
  samptail : Nat
  sampdrop : Nat
  stalled  : Bool                   -- the scheduling interrupt of a held ring write was raised (R196)
  sampled  : Nat                    -- requests since the last sample (R331)
  deriving DecidableEq, Repr

/-- The registers of one partition (R313, R314, R316, R318, R342). -/
structure PartRegs where
  partown : BitVec 384
  grants  : Vector Word 64
  hvirq   : Word
  hvid    : Word
  qnonce  : BitVec 256
  qgo     : Bool
  qstatus : Nat
  qresp   : List Byte               -- of the last quote; bytes past its end read 0
  deriving DecidableEq, Repr

/-- One counter of R329, present when it is not zero. -/
structure Counter where
  vf    : Nat
  unit  : Nat
  k     : Nat
  event : BitVec 8
  count : BitVec 48
  deriving DecidableEq, Repr

/-- A hardware slot and the queue mapped to it (R285). -/
structure SlotMap where
  part   : Nat
  vf     : Nat
  queue  : Nat
  since  : Nat
  deriving DecidableEq, Repr

/-- BANKCFG of one bank (R157), present when it is not at its reset value; `due` is the state a change leads to. -/
structure BankReg where
  bank : Nat
  cfg  : W32
  due  : Option W32
  deriving DecidableEq, Repr

/-- A boot's outcome (R337, R338). -/
inductive Boot where
  | pending | done | failed
  deriving DecidableEq, Repr

/-- A quote request in arrival order (R340). -/
structure QuoteReq where
  part  : Nat
  nonce : BitVec 256
  deriving DecidableEq, Repr

/-- A request to another device that has not been answered (R319): a store or atomic that has left (`write`), a load, or
a store that is still in its run (`held`). -/
structure Remote where
  wave  : WaveId
  lane  : Fin 32
  hpa   : Nat
  write : Bool
  dst   : Dst                       -- where an atomic's result goes
  since : Nat
  pc    : Word
  acq   : Bool                      -- an atomic with an acquire part (R176)
  held  : Bool                      -- a store of a run whose commit waits for its acknowledgement (R181)
  refused : Bool                    -- and that the other device has refused
  enc   : List W32                  -- words of the instruction (R197)
  deriving DecidableEq, Repr

/-- Which agent the instruction in hand belongs to: the group of the first run of `runs`, or a stream program. -/
inductive Focus where
  | simt | stream (t : TeamId)
  deriving DecidableEq, Repr

structure State where
  tick      : Nat
  clock     : Word
  now       : Nat                    -- cycles since reset, for the timers; `clock` is its low 64 bits
  frozen    : Bool
  boot      : Boot
  restricted : Bool                  -- the test port answers only BYPASS and IDCODE (R338)
  devNum    : Nat
  inputs    : List Instr
  focus     : Focus
  runs      : List Run
  mem       : Memory                 -- by place in the memory devices
  poisoned  : List Nat               -- lines of it (R165)
  corrected : Nat                    -- corrected errors counted (R165)
  owners    : List (Nat × Nat)       -- word index, core (R180)
  sigs      : List SigEntry
  l1        : List L1Line
  ccache    : List CLine
  tlb       : List TlbEntry
  jobs      : List Job
  nextJob   : Nat
  draws     : List Draw
  teams     : List Team
  acc       : List AccSlot
  contexts  : List Context
  turn      : List (Nat × Nat)       -- cluster, and the context its engine served last (R233)
  savedCtx  : List SavedCtx
  cmds      : List Cmd
  nextCmd   : Nat
  bins      : List Bin
  belfry    : List BelfrySet
  pins      : List Pin
  handles   : List Handle
  counters  : List (Nat × Nat × W32) -- partition, hardware counter, value when not 0 (R287)
  slots     : List SlotMap
  lastVf    : Nat                    -- round robin of R286
  sliceAt   : List (Nat × Nat)       -- cluster and the cycle of its last slice step (R292)
  served    : List (Nat × Nat)       -- pipe, and the slot whose wave it chose last (R293)
  asked     : List Nat               -- virtual functions that may have requests under way in shared units (R329, R330)
  tickets   : List Ticket
  nextTicket : W32
  held      : List Held
  remotes   : List Remote
  vfs       : List (Nat × VfRegs)
  parts     : List (Nat × PartRegs)
  banks     : List BankReg
  perf      : List Counter
  kbudget   : Word
  grantsW   : List Nat               -- the Kettle's grants of the period (R335)
  periodAt  : Nat
  mgrid     : Word
  digest    : BitVec 256             -- D (R337)
  log       : List (BitVec 256)
  digestAtBoot : BitVec 256          -- the D the identity key signed
  bootLeaf  : Nat                    -- the identity leaf of this boot
  attested  : Bool                   -- the identity key had a leaf for this boot (R339)
  idLeaves  : Nat                    -- identity leaves used; kept by a reset (R339)
  quoteLeaf : Nat                    -- per-boot leaves used (R340)
  quotes    : List QuoteReq
  dropped   : List TeamId            -- terminated teams whose commands still drain
  resp      : Option (Word × Bool)   -- last management or memory response and its error flag (R312)
  readData  : List Byte              -- data of the last memory read answered (R318)
  ir        : BitVec 8               -- the test port's instruction register (R333)
  tdo       : List Word              -- what the test port shifted out last (R333)
  deriving DecidableEq, Repr

/-! ## Reset values -/

def Val.zero : Val := ⟨0, 0⟩
/-- DESIGN CHOICE, unsafe (log 2). -/
def Loop.idle : Loop := ⟨0, 0, 0, false⟩

/-- Registers at a thread's launch (R51). -/
def Regs.launch : Regs :=
  { q := Vector.replicate 16 Val.zero, n := Vector.replicate 32 Val.zero, m := Vector.replicate 8 0,
    lc := Vector.replicate 4 Loop.idle, fpstat := 0, fpen := 0, gstat := 0 }

/-- A lane without a thread (R22). DESIGN CHOICE, unsafe (log 2). -/
def Thread.blank : Thread :=
  { status := .empty, pc := 0, next := 0, blk := 0, regs := Regs.launch, wid := 0, cause := 0, epc := 0,
    inHandler := false, snapshot := Vector.replicate 16 Val.zero, resumePc := 0, resumeBlk := 0, resumeLen := 0,
    pend := 0, tokSig := none, tokReg := 0, sig := 0, helper := false, trig := false, exports := [],
    frag := none, since := 0, yielded := false, pass := false, stepping := false, stepLatch := [], stopped := false }

/-- A new stream owner's program state (R209). DESIGN CHOICE, unsafe (log 2). -/
def Stream.idle : Stream :=
  { st := .idle, pc := 0, blk := 0, a := Vector.replicate 16 0, loops := Vector.replicate 4 Loop.idle, site := 0,
    seq := 0, wave := 0, order := 0, cursor := 0, parked := [], drop := [], held := [], passed := [], front := 0, got := [],
    entry := [], shadow := [], bad := [], sig := 0, enc := [] }

/-- Every register of a virtual function at its reset value. DESIGN CHOICE, unsafe (log 2). -/
def VfRegs.reset : VfRegs :=
  { vfquota := 0, qtbase := 0, pnovf := 0, vfcfg := 0, irqlog := 0x400, irqhead := 0, irqtail := 0, irqpend := 0,
    gbase := 0, ngran := 0, harvest := 0, sysasd := 0, guestid := 0, fqcfg := 4, fqhead := 0, fqtail := 0,
    tlbinv := 0, dbgctl := 0, dbgbp := Vector.replicate 4 0, sampcfg := 0, samphead := 0, samptail := 0,
    sampdrop := 0, stalled := false, sampled := 0 }

/-- PARTOWN of partition 0 owns every unit after reset (R314); the others own none. DESIGN CHOICE, unsafe (log 2). -/
def PartRegs.reset (p : Nat) : PartRegs :=
  { partown := if p = 0 then BitVec.ofNat 384 (2 ^ 276 - 1) else 0, grants := Vector.replicate 64 0, hvirq := 0,
    hvid := 0, qnonce := 0, qgo := false, qstatus := 0, qresp := [] }

/-- The machine right after RST_N (R337): the registers at their reset values, every memory and table empty. The
fields of the model's own (tick, now, focus, inputs, log 56) start at 0 or empty. DESIGN CHOICE, unsafe (log 2). -/
def State.reset : State :=
  { tick := 0, clock := 0, now := 0, frozen := false, boot := .pending, restricted := false, devNum := 0, inputs := [],
    focus := .simt, runs := [], mem := ⟨[]⟩, poisoned := [], corrected := 0, owners := [], sigs := [], l1 := [], ccache := [],
    tlb := [], jobs := [], nextJob := 1, draws := [], teams := [], acc := [], contexts := [], turn := [], savedCtx := [],
    cmds := [], nextCmd := 0, bins := [], belfry := [], pins := [], handles := [], counters := [], slots := [],
    lastVf := 0, sliceAt := [], served := [], asked := [], tickets := [], nextTicket := 1, held := [], remotes := [], vfs := [], parts := [],
    banks := [], perf := [], kbudget := 0x00280500, grantsW := [], periodAt := 0, mgrid := 0,
    digest := 0, log := [], digestAtBoot := 0, bootLeaf := 0, attested := false, idLeaves := 0, quoteLeaf := 0,
    quotes := [], dropped := [], resp := none, readData := [], ir := 0x01, tdo := [] }

end Sys2Proof.Machine
end

