-- ==== Sys2Proof/Machine/Lookup.lean ====
section
/-!
DEFINITION. Finding and replacing the parts of the state: jobs, teams, waves, threads, and the management registers
with their reset values.
-/

namespace Sys2Proof.Machine

open Sys2Proof

/-! ## Registers of virtual functions, partitions and banks -/

def State.vf (s : State) (v : Nat) : VfRegs := (getAssoc v s.vfs).getD VfRegs.reset
def State.setVf (s : State) (v : Nat) (r : VfRegs) : State := { s with vfs := putAssoc v r s.vfs }
def State.part (s : State) (p : Nat) : PartRegs := (getAssoc p s.parts).getD (PartRegs.reset p)
def State.setPart (s : State) (p : Nat) (r : PartRegs) : State := { s with parts := putAssoc p r s.parts }

def PartRegs.run (r : PartRegs) : Bool := r.partown.getLsbD 383

/-- The units of a kind that a partition owns, ascending: `lo` is the kind's first bit in PARTOWN (R314). -/
def PartRegs.units (r : PartRegs) (lo n : Nat) : List Nat := (List.range n).filter fun i => r.partown.getLsbD (lo + i)

def PartRegs.banks (r : PartRegs) : List Nat := r.units 0 192
def PartRegs.channels (r : PartRegs) : List Nat := r.units 192 24
def PartRegs.clusters (r : PartRegs) : List Nat := r.units 216 16
def PartRegs.ruleEngines (r : PartRegs) : List Nat := r.units 232 16
def PartRegs.binEngines (r : PartRegs) : List Nat := r.units 248 16
def PartRegs.ports (r : PartRegs) : List Nat := r.units 264 12

/-- BANKCFG after reset (R157). -/
def bankReset (b : Nat) : W32 := if b % 12 < 4 then 0x30 else 0x20

def State.bankReg (s : State) (b : Nat) : BankReg :=
  (s.banks.find? (fun r => r.bank = b)).getD { bank := b, cfg := bankReset b, due := none }
def State.hall (s : State) (b : Nat) : Nat := (s.bankReg b).cfg.toNat % 16
def State.save (s : State) (b : Nat) : Nat := (s.bankReg b).cfg.toNat / 16 % 16

/-- Registers of VFCFG and VFQUOTA (R281, R316). -/
def VfRegs.partition (r : VfRegs) : Nat := bits r.vfcfg 4 0
def VfRegs.guest (r : VfRegs) : Bool := r.vfcfg.getLsbD 5
def VfRegs.enabled (r : VfRegs) : Bool := r.vfcfg.getLsbD 6
def VfRegs.resident (r : VfRegs) : Bool := r.vfcfg.getLsbD 7
def VfRegs.ccount (r : VfRegs) : Nat := bits r.vfquota 63 48
def VfRegs.cfirst (r : VfRegs) : Nat := bits r.vfquota 47 32
def VfRegs.qcount (r : VfRegs) : Nat := bits r.vfquota 28 16

/-! ## Jobs, teams, waves, threads -/

/-- The card of no job: every field 0. -/
def Card.blank : Card :=
  { handler := 0, early := 0, signal := 0, wait := 0, cmin := 0, cohm1 := 0, cls := 0, cohort := 1, scratch := 0,
    named := 1, waves := 1, slots := Vector.replicate 8 0, widths := Vector.replicate 6 0, nrec := 0, recSize := 0,
    args := 0, entry := 0 }

def Asd.blank : Asd := { vf := 0, ctx := 0, s2root := 0, s2en := false, s1root := 0 }

def Job.blank : Job :=
  { id := 0, vf := 0, part := 0, queue := none, cardIdx := 0, cardAddr := 0, card := Card.blank,
    asd := Asd.blank, status := 0, nextRec := 0, nextCohort := 0, earlyDone := false, trigSig := 0, launched := 0,
    rejected := false, draw := none, recorded := false, completed := false }

def Wave.blank : Wave :=
  { idx := 0, uid := 0, parent := none, lanes := Vector.replicate 32 Thread.blank, rejoin := [], joins := 0,
    joinSig := 0, cmds := 0, rx := false, groups := [], slot := none, promoted := [] }

/-- A team before its first wave (R151, R209). DESIGN CHOICE, unsafe (log 1). -/
def Team.new (id : TeamId) : Team :=
  { id := id, cohort := 0, f1 := 0, cluster := 0, core := 0, place := .resident, waves := [], nextUid := 0,
    scrSize := 0, scr := ⟨[]⟩, scrPoison := [], scrState := .live, cbarHold := false, cbarAsked := false, cbarGen := 0,
    barGen := 0, barSig := 0, cbarSig := 0, barCut := (0, 0), cbarCut := (0, 0), stream := Stream.idle, owner := false, sem := Vector.replicate 8 0,
    semSig := Vector.replicate 8 0, dq := Vector.replicate 4 [], dqSig := Vector.replicate 4 0,
    dqCap := Vector.replicate 4 16, waiters := [], arrivals := 0, guard := 0, image := none, written := [],
    since := 0, stage := none }

def State.job (s : State) (id : Nat) : Job := (s.jobs.find? (fun j => j.id = id)).getD Job.blank
def State.modJob (s : State) (id : Nat) (f : Job → Job) : State :=
  { s with jobs := s.jobs.map fun j => if j.id = id then f j else j }

def State.team? (s : State) (t : TeamId) : Option Team := s.teams.find? (fun u => u.id = t)
def State.team (s : State) (t : TeamId) : Team := (s.team? t).getD (Team.new t)
def State.modTeam (s : State) (t : TeamId) (f : Team → Team) : State :=
  { s with teams := s.teams.map fun u => if u.id = t then f u else u }

def Team.wave? (t : Team) (uid : Nat) : Option Wave := t.waves.find? (fun w => w.uid = uid)
def State.wave (s : State) (w : WaveId) : Wave := ((s.team w.team).wave? w.uid).getD Wave.blank
def State.modWave (s : State) (w : WaveId) (f : Wave → Wave) : State :=
  s.modTeam w.team fun t => { t with waves := t.waves.map fun v => if v.uid = w.uid then f v else v }

def State.thread (s : State) (w : WaveId) (l : Fin 32) : Thread := (s.wave w).lanes[l]
def State.modLanes (s : State) (w : WaveId) (m : LaneMask) (f : Fin 32 → Thread → Thread) : State :=
  s.modWave w fun v =>
    { v with lanes := v.lanes.mapFinIdx fun i t h => if LaneMask.has m ⟨i, h⟩ then f ⟨i, h⟩ t else t }

/-- The wave of a team that has an index now (R43). -/
def Team.waveId (t : Team) (idx : Nat) : WaveId :=
  match t.waves.find? (fun w => w.idx = idx) with
  | some w => { team := t.id, wave := idx, uid := w.uid }
  | none => { team := t.id, wave := idx, uid := t.nextUid }

def Status.live : Status → Bool
  | .empty => false | .exited => false | .killed => false | _ => true

/-- The unexited threads of a wave. -/
def Wave.liveMask (w : Wave) : LaneMask := maskWhere fun l => w.lanes[l].status.live
def Wave.isLive (w : Wave) : Bool := w.lanes.toList.any fun t => t.status.live
def Team.isLive (t : Team) : Bool := t.waves.any Wave.isLive

/-- Device number of a core (R11). -/
def Team.coreNo (t : Team) : Nat := 12 * t.cluster + t.core

def State.jobOf (s : State) (w : WaveId) : Job := s.job w.team.job

/-! ## Counters (R329, R330) -/

def State.counterAt (s : State) (v u k : Nat) : Counter :=
  (s.perf.find? fun c => c.vf = v && c.unit = u && c.k = k).getD { vf := v, unit := u, k := k, event := 0, count := 0 }

def State.setCounterAt (s : State) (c : Counter) : State :=
  { s with perf := (s.perf.filter fun x => !(x.vf = c.vf && x.unit = c.unit && x.k = c.k)) ++
      (if c.event = 0 && c.count = 0 then [] else [c]) }

/-- Does a partition own the unit of a counter bank? The crossbar and the units of clusters come with them. -/
def PartRegs.ownsUnit (r : PartRegs) (u : Nat) : Bool :=
  if u < 192 then r.partown.getLsbD u
  else if u = 192 then !r.clusters.isEmpty
  else if u < 217 then r.channels.contains (u - 193)
  else if u < 229 then r.ports.contains (u - 217)
  else if 261 ≤ u && u < 277 then r.ruleEngines.contains (u - 261)
  else r.clusters.contains ((u - 229) % 16)

/-- Is an event of a unit counted where it happens, by `tally` alone? Of the units of clusters, commands accepted but by a Belfry;
padding rows, tile operations, symbols and refused pins. DESIGN CHOICE, safe (log 49). -/
def exactEvent (u : Nat) (event : BitVec 8) : Bool :=
  229 ≤ u && (event = 4 || (event = 1 && u < 277))

/-- An event happens n times in a unit that serves a virtual function. DESIGN CHOICE, safe (log 49). -/
def State.tally (s : State) (v u : Nat) (event : BitVec 8) (n : Nat) : State :=
  if (s.part (s.vf v).partition).ownsUnit u then
    { s with perf := s.perf.map fun (c : Counter) =>
        if c.vf = v && c.unit = u && c.event = event then { c with count := c.count + BitVec.ofNat 48 n } else c }
  else s

/-- A number that picks among allowed choices at this step: the i-th choice of a kind. DESIGN CHOICE, safe (log 56). -/
def State.pickNo (s : State) (kind i : Nat) : Nat := Config.freePick s.tick kind i

/-- A dword that the spec leaves open at this step: the i-th of a kind.
DEDUCED, safe (log 12); DESIGN CHOICE, unsafe (log 21); DESIGN CHOICE, safe (log 56). -/
def State.openWord (s : State) (kind i : Nat) : Word := Config.freeWord s.tick kind i

end Sys2Proof.Machine
end

