-- ==== Sys2Proof/Machine/Memory.lean ====
section
/-!
DEFINITION. Memory as canonical cells, the host-physical map (R161, R162), and word homes: owners, poison, signature
tables and cached lines as writes change them (R156, R165, R180 to R182).
-/

namespace Sys2Proof.Machine

open Sys2Proof

/-! ## Cells -/

/-- DESIGN CHOICE, unsafe (log 1). -/
def cellGet : List Host.Cell → Nat → Byte
  | [], _ => 0
  | (k, c) :: rest, a => if k = a then c else cellGet rest a

/-- Keeps the cells rising and free of zeros when they are. -/
def cellPut : List Host.Cell → Nat → Byte → List Host.Cell
  | [], a, b => if b = 0 then [] else [(a, b)]
  | (k, c) :: rest, a, b =>
    if a < k then (if b = 0 then (k, c) :: rest else (a, b) :: (k, c) :: rest)
    else if a = k then (if b = 0 then rest else (a, b) :: rest)
    else (k, c) :: cellPut rest a b

/-- Strictly rising from a bound, and no cell 0. -/
def cellsFrom : Nat → List Host.Cell → Bool
  | _, [] => true
  | lo, (k, c) :: rest => lo ≤ k && c != 0 && cellsFrom (k + 1) rest

/-- The canonical form: equal memories are equal data. -/
def Memory.wf (m : Memory) : Bool := cellsFrom 0 m.cells

/-- DESIGN CHOICE, unsafe (log 1). -/
def Memory.read (m : Memory) (a : Nat) : Byte := cellGet m.cells a
def Memory.write (m : Memory) (a : Nat) (b : Byte) : Memory := ⟨cellPut m.cells a b⟩

def Memory.readN (m : Memory) (a n : Nat) : List Byte := (List.range n).map fun i => m.read (a + i)

def Memory.writeL (m : Memory) (a : Nat) : List Byte → Memory
  | [] => m
  | b :: bs => (m.write a b).writeL (a + 1) bs

/-- Every cell of a range back to 0. -/
def Memory.clear (m : Memory) (lo hi : Nat) : Memory := ⟨m.cells.filter fun c => !(lo ≤ c.1 && c.1 < hi)⟩

/-! ## The host-physical map -/

/-- What lies at an address of this device (R161). -/
inductive Region where
  | gddr | hall (bank : Nat) | save (bank : Nat)
  deriving DecidableEq, Repr

def gddrBytes : Nat := 2 ^ 33
def bankBase : Nat := 0x400000000000

/-- DESIGN CHOICE, safe (log 11, 30). -/
def State.isLocal (s : State) (hpa : Nat) : Bool := hpa / 2 ^ 48 = s.devNum

/-- The region of a local address in a partition; none is PROT of the host kind (R161). -/
def State.region (s : State) (part hpa : Nat) : Option Region :=
  let a := hpa % 2 ^ 48
  let r := s.part part
  if a < r.channels.length * gddrBytes then some .gddr
  else if bankBase ≤ a && a < bankBase + 192 * 0x100000 then
    let b := (a - bankBase) / 0x100000
    let o := a % 0x100000
    if !r.partown.getLsbD b then none
    else if o < s.hall b * 0x20000 then some (.hall b)
    else if (8 - s.save b) * 0x20000 ≤ o then some (.save b)
    else none
  else none

/-- Where a local byte lies in the memory devices: channel and place for GDDR 7 (R162), bank and offset for a bank. -/
def State.key (s : State) (part hpa : Nat) : Nat :=
  let a := hpa % 2 ^ 48
  if a < bankBase then
    let ch := (s.part part).channels
    let m := a / 256
    ch.getD (m % ch.length) 0 * gddrBytes + m / ch.length * 256 + a % 256
  else a

/-- The home bank of a local address (R162). -/
def State.homeBank (s : State) (part hpa : Nat) : Nat :=
  let a := hpa % 2 ^ 48
  if a < bankBase then
    let l := a / 128
    let fold := (List.range 6).foldl (fun x i => x ^^^ (l / 2 ^ (6 * i) % 64)) 0
    let bs := (s.part part).banks
    bs.getD ((64 * (l % 3) + fold) % bs.length) 0
  else (a - bankBase) / 0x100000

/-- The word at an address: where its owner and signature are kept. -/
def State.home (s : State) : Loc → Home
  | .phys p hpa => .mem (s.key p (hpa / 4 * 4))
  | .scr t o => .scr t (o / 4 * 4)

/-! ## Reading and writing bytes -/

/-- Bytes of a line index that another device answers with (R164). DESIGN CHOICE, unsafe (log 1). -/
def State.readPhys (s : State) (part hpa n : Nat) : List Byte :=
  if s.isLocal hpa then (List.range n).map fun i => s.mem.read (s.key part (hpa + i))
  else (List.range n).map fun i => Config.peerByte s.tick (hpa + i)

/-- Bytes that the device reads for a partition at an address that system software gave: 0 where the partition's map has no such
address, so that no unit of another one is used (R315). DESIGN CHOICE, unsafe (log 79). -/
def State.readOwn (s : State) (part hpa n : Nat) : List Byte :=
  if s.isLocal hpa && (s.region part hpa).isNone then List.replicate n 0 else s.readPhys part hpa n

/-- DESIGN CHOICE, unsafe (log 5, 51). -/
def State.linePoisoned (s : State) (part hpa : Nat) : Bool :=
  s.isLocal hpa && s.poisoned.contains (s.key part hpa / 128)

/-- DESIGN CHOICE, unsafe (log 1). -/
def State.readScr (s : State) (t : TeamId) (o n : Nat) : List Byte := (s.team t).scr.readN o n

/-- Who writes (R180): a core's store, or any other agent. -/
inductive Writer where
  | core (c : Nat) | other
  deriving DecidableEq, Repr

/-- Bytes replaced in a cached line's data. -/
def patch (data : List Byte) (off : Nat) (bs : List Byte) : List Byte :=
  data.take off ++ bs ++ data.drop (off + bs.length)

/-- Every O bit of the line that another core holds is revoked; the writing core's own lines take the bytes, whatever
their tag (R156, R180). -/
def State.touchL1 (s : State) (w : Writer) (hpa : Nat) (bs : List Byte) : State :=
  { s with l1 := s.l1.map fun l =>
      if l.pline = hpa / 128 then
        match w with
        | .core c => if l.core = c then { l with data := patch l.data (hpa % 128) bs } else { l with own := false }
        | .other => { l with own := false }
      else l }

def wordsOf (a n : Nat) : List Nat := (List.range ((a + n - 1) / 4 + 1 - a / 4)).map fun i => a / 4 + i

/-- A write of bytes to a local address at its home bank: memory, owners, cached lines; a write that is neither an STL
nor an atomic clears the words' signatures (R180, R182). DESIGN CHOICE, unsafe (log 5). -/
def State.writeMem (s : State) (w : Writer) (keepSig : Bool) (part hpa : Nat) (bs : List Byte) : State :=
  let ks := (wordsOf hpa bs.length).map fun i => s.key part (4 * i)
  let owners := s.owners.filter fun o => !ks.contains o.1
  let s := s.touchL1 w hpa bs
  { s with
    mem := (List.range bs.length).foldl (fun m i => m.write (s.key part (hpa + i)) (bs.getD i 0)) s.mem,
    owners := match w with | .core c => ks.map (fun k => (k, c)) ++ owners | .other => owners,
    sigs := if keepSig then s.sigs else s.sigs.filter fun e => !ks.any fun k => e.home = .mem k }

/-- A write of bytes by any agent that is not a core's store, where the partition's map has the address (R161, R315);
another device's memory is written where it answers. -/
def State.writePhys (s : State) (part hpa : Nat) (bs : List Byte) : State :=
  if s.isLocal hpa && (s.region part hpa).isSome then s.writeMem .other false part hpa bs else s

/-- A write by the device to a scratchpad; it clears the words' signatures when it is no STS of ATOMS (R182). -/
def State.writeScr (s : State) (t : TeamId) (o : Nat) (bs : List Byte) : State :=
  let ws := (wordsOf o bs.length).map fun i => 4 * i
  let s := s.modTeam t fun u => { u with scr := u.scr.writeL o bs }
  { s with sigs := s.sigs.filter fun e => !ws.any fun w => e.home = .scr t w }

/-- Marks or clears the poison of the line of a written byte. A whole-line write is no cleaning: only a clean store of
the whole line's words would be, which the spec does not describe (log 5).
DESIGN CHOICE, unsafe (log 5); DEDUCED, unsafe (log 34). -/
def State.poisonLine (s : State) (part hpa : Nat) : State :=
  let k := s.key part hpa / 128
  if s.isLocal hpa && !s.poisoned.contains k then { s with poisoned := k :: s.poisoned } else s

/-! ## Signatures (R181, R182) -/

/-- The two bits of a line (R181). -/
def lineSig (hpa : Nat) : Sig :=
  let l := hpa / 128
  let f := fun i => l / 2 ^ (9 * i) % 512
  let h1 := f 0 ^^^ f 1 ^^^ f 2 ^^^ f 3 ^^^ f 4 ^^^ (l / 2 ^ 45 % 32)
  let h2 := l * 0x9E3779B97F4A7C15 % 2 ^ 64 / 2 ^ 55
  BitVec.ofNat 512 (2 ^ h1) ||| BitVec.ofNat 512 (2 ^ h2)

def Sig.all : Sig := BitVec.allOnes 512

def lineMatches (sig : Sig) (hpa : Nat) : Bool := lineSig hpa &&& sig = lineSig hpa

/-- The signature table that keeps a word's entry. -/
def State.sigTable (s : State) : Loc → Nat
  | .phys p hpa => s.homeBank p hpa
  | .scr t _ => 192 + (s.team t).coreNo

/-- A release writes its signature at the word (R182): `merge` for an .ar atomic. A full table loses one entry.
DESIGN CHOICE, safe (log 47). -/
def State.putSig (s : State) (loc : Loc) (sig : Sig) (merge : Bool) : State :=
  let h := s.home loc
  let old := s.sigs.find? fun e => e.home = h
  let rest := s.sigs.filter fun e => !(e.home = h)
  let cap := match loc with | .phys .. => 256 | .scr .. => 64
  let mine := rest.filter fun e => e.table = s.sigTable loc
  let rest :=
    if mine.length < cap then rest
    else match mine[s.pickNo 5 (s.sigTable loc) % mine.length]? with
      | some v => rest.filter fun e => !(e.home = v.home)
      | none => rest
  let new := match old, merge with
    | some e, true => e.sig ||| sig
    | none, true => Sig.all
    | _, false => sig
  { s with sigs := { home := h, table := s.sigTable loc, sig := new } :: rest }

/-- What an acquire that reads the word receives: all ones where there is no entry (R182). -/
def State.getSig (s : State) (loc : Loc) : Sig :=
  match s.sigs.find? (fun e => e.home = s.home loc) with
  | some e => e.sig
  | none => Sig.all

/-- The places of the aligned words that an access of n bytes touches: each has an entry of its own (R182). -/
def Loc.words (loc : Loc) (n : Nat) : List Loc :=
  match loc with
  | .phys p hpa => (wordsOf hpa n).map fun w => .phys p (4 * w)
  | .scr t o => (wordsOf o n).map fun w => .scr t (4 * w)

/-- A release at every word of an access. -/
def State.putSigs (s : State) (loc : Loc) (n : Nat) (sig : Sig) (merge : Bool) : State :=
  (loc.words n).foldl (fun s x => s.putSig x sig merge) s

/-- What an acquire that reads n bytes receives: the entries of all their words. -/
def State.getSigs (s : State) (loc : Loc) (n : Nat) : Sig :=
  (loc.words n).foldl (fun a x => a ||| s.getSig x) 0

/-- Once a core has read a line's bytes at their home, it reads no older ones from its L1 (R178): lines there that are not
its own go. -/
def State.dropStale (s : State) (core hpa : Nat) : State :=
  { s with l1 := s.l1.filter fun l => l.own || l.core ≠ core || l.pline ≠ hpa / 128 }

/-- Each home bank that stores or atomics of an instruction reach accepts at least one request of them (R329).
DESIGN CHOICE, safe (log 49). -/
def State.tallyHomes (s : State) (v : Nat) (ls : List Loc) : State :=
  ((ls.filterMap fun l => match l with
      | .phys p a => if s.isLocal a then some (s.homeBank p a) else none
      | .scr .. => none).eraseDups).foldl (fun s b => s.tally v b 1 1) s

/-- No core's cache keeps a line whose bytes have been published (R187). -/
def State.uncache (s : State) (hpa : Nat) : State :=
  { s with
    l1 := s.l1.filter fun l => l.pline ≠ hpa / 128,
    ccache := s.ccache.filter fun l => l.pline ≠ hpa / 128 }

/-- The acquire step in a core (R183). -/
def State.acquire (s : State) (core : Nat) (sig : Sig) : State :=
  { s with
    l1 := s.l1.filter fun l => !(l.core = core && (!l.own || lineMatches sig (128 * l.pline))),
    ccache := s.ccache.filter fun l => !(l.core = core && lineMatches sig (128 * l.pline)) }

end Sys2Proof.Machine
end

