-- ==== Sys2Proof/Machine/Translate.lean ====
section
/-!
DEFINITION. Translation in two stages (R166 to R172), with A and D, and the address an access ends at.
-/

namespace Sys2Proof.Machine

open Sys2Proof

inductive Acc where
  | read | write | fetch
  deriving DecidableEq, Repr

/-- XLATE, PROT of the page kind, PROT of the host kind. -/
inductive XKind where
  | xlate | page | host
  deriving DecidableEq, Repr

/-- Why an address is not reached, with the stage of an XLATE or of the page kind. `addr` is what a record's ADDR holds:
the virtual address, or the GPA for stage 2 (R197). `marks` are the entries of the leaves that the failed walk used, each
with whether D is set beside A (R170). -/
structure XErr where
  kind  : XKind
  stage : Nat
  addr  : Nat
  marks : List (Nat × Bool) := []
  deriving DecidableEq, Repr

def XErr.xlate (stage addr : Nat) : XErr := { kind := .xlate, stage := stage, addr := addr }
def XErr.page (stage addr : Nat) : XErr := { kind := .page, stage := stage, addr := addr }
def XErr.host (addr : Nat) : XErr := { kind := .host, stage := 0, addr := addr }

/-- The same, met after leaves were used. -/
def XErr.after (ms : List (Nat × Bool)) (e : XErr) : XErr := { e with marks := ms ++ e.marks }

/-- Fields of a translation table entry (R168). -/
structure Pte where
  v : Bool
  leaf : Bool
  r : Bool
  w : Bool
  x : Bool
  sys : Bool
  nc : Bool
  size : Nat
  addr : Nat
  reserved : Bool
  deriving DecidableEq, Repr

def Pte.of (e : Word) : Pte :=
  { v := e.getLsbD 0, leaf := e.getLsbD 1, r := e.getLsbD 2, w := e.getLsbD 3, x := e.getLsbD 4, sys := e.getLsbD 5,
    nc := e.getLsbD 57, size := bits e 11 8, addr := bits e 56 12 * 4096, reserved := bits e 63 58 ≠ 0 }

/-- Is an entry met at a level one that the walk goes on through (a table), ends at (a leaf), or refuses (R168)? -/
inductive Met where
  | table | leaf | bad
  deriving DecidableEq, Repr

def Pte.met (p : Pte) (level : Nat) (stage2 : Bool) : Met :=
  if !p.v || p.reserved || (stage2 && p.sys) then .bad
  else if p.leaf then
    if p.size / 9 = level && level ≤ 1 && p.addr % (4096 * 2 ^ p.size) = 0 then .leaf else .bad
  else if level = 0 || p.size ≠ 0 then .bad
  else .table

def permits (p : Perm) (a : Acc) : Bool :=
  match a with
  | .read => p.r | .write => p.r && p.w | .fetch => p.x

def Pte.perm (p : Pte) : Perm := { r := p.r, w := p.w, x := p.x }

/-- The entry's dword with A set, and D too for a store. -/
def withAD (e : Word) (a : Acc) : Word := e ||| (if a = .write then 0xC0 else 0x40)

/-- A stage's result: the address, the page's log2 and the leaf. -/
structure Leaf where
  addr : Nat
  log2 : Nat
  perm : Perm
  sys  : Bool
  nc   : Bool
  used : List (Nat × Bool)         -- entries of the leaves the walk used, with whether D is set
  deriving DecidableEq, Repr

def State.readDword (s : State) (part hpa : Nat) : Word := w64 (natLE (s.readPhys part hpa 8))

/-- A table read or update by the device needs a local address of the map or a remote one that answers. -/
def State.reachable (s : State) (part hpa : Nat) : Bool :=
  if s.isLocal hpa then (s.region part hpa).isSome else Config.peerAnswers s.tick hpa

/-- Sets A, and D where it says so, in entries of leaves that a walk used before it failed (R170). -/
def State.markLeaves (s : State) (part : Nat) (ms : List (Nat × Bool)) : State :=
  ms.foldl
    (fun s m =>
      let e := s.readDword part m.1
      let e' := withAD e (if m.2 then .write else .read)
      if e' = e then s else s.writePhys part m.1 (bytesLE 8 e'.toNat)) s

/-- Stage 2 from a level down (R167): the guest-physical address to a host-physical one. -/
def State.walk2 (s : State) (part gpa : Nat) (a : Acc) : Nat → Nat → Except XErr (Leaf × State)
  | 0, _ => .error (.xlate 2 gpa)
  | level + 1, table => do
    let at_ := table + 8 * (gpa / 2 ^ (12 + 9 * level) % 512)
    if !s.reachable part at_ then throw (.host at_)
    let e := s.readDword part at_
    let p := Pte.of e
    match p.met level true with
    | .bad => throw (.xlate 2 gpa)
    | .table => s.walk2 part gpa a level p.addr
    | .leaf =>
      if !permits p.perm a then throw (.page 2 gpa)
      let s := if withAD e a = e then s else s.writePhys part at_ (bytesLE 8 (withAD e a).toNat)
      let log2 := 12 + p.size
      pure ({ addr := p.addr + gpa % 2 ^ log2, log2 := log2, perm := p.perm, sys := false, nc := p.nc,
              used := [(at_, decide (a = .write))] }, s)

def State.stage2 (s : State) (part : Nat) (d : Asd) (gpa : Nat) (a : Acc) : Except XErr (Leaf × State) :=
  if d.s2en then s.walk2 part gpa a 5 d.s2root
  else .ok ({ addr := gpa, log2 := 57, perm := ⟨true, true, true⟩, sys := false, nc := false, used := [] }, s)

/-- Stage 1 from a level down: its tables are read through stage 2 as loads, and an update of A or D is a store
through it (R167, R170). Of the repeated entries of a leaf the one that the address indexes is walked, though the
device may use any of them where they differ (R169). `ms` are the stage-2 leaves used so far.
DESIGN CHOICE, unsafe (log 72). -/
def State.walk1 (s : State) (part : Nat) (d : Asd) (sys : Bool) (va : Nat) (a : Acc) (ms : List (Nat × Bool)) :
    Nat → Nat → Except XErr (Leaf × State)
  | 0, _ => .error ((XErr.xlate 1 va).after ms)
  | level + 1, table => do
    let gpa := table + 8 * (va / 2 ^ (12 + 9 * level) % 512)
    let (l, s) ← (s.stage2 part d gpa .read).mapError (XErr.after ms)
    let ms := ms ++ l.used
    if !s.reachable part l.addr then throw ((XErr.host l.addr).after ms)
    let e := s.readDword part l.addr
    let p := Pte.of e
    match p.met level false with
    | .bad => throw ((XErr.xlate 1 va).after ms)
    | .table => s.walk1 part d sys va a ms level p.addr
    | .leaf =>
      if (p.sys && !sys) || !permits p.perm a then throw ((XErr.page 1 va).after ms)
      let (ms, s) ←
        if withAD e a = e then pure (ms, s)
        else do
          let (l, s) ← (s.stage2 part d gpa .write).mapError (XErr.after ms)
          pure (ms ++ l.used, s.writePhys part l.addr (bytesLE 8 (withAD e a).toNat))
      let log2 := 12 + p.size
      pure ({ addr := p.addr + va % 2 ^ log2, log2 := log2, perm := p.perm, sys := p.sys, nc := p.nc,
              used := ms ++ [(l.addr, decide (a = .write))] }, s)

/-- Who translates: a core, whose TLBs are used, or the device itself. -/
structure Xctx where
  part    : Nat
  cluster : Nat
  core    : Option Nat             -- device number
  asd     : Asd
  sys     : Bool                   -- the device's own rings (R196)
  old     : Option Memory := none  -- what an engine's source reads may still find (R186)
  deriving DecidableEq, Repr

def TlbEntry.hits (e : TlbEntry) (c : Xctx) (va : Nat) : Bool :=
  e.ctx = c.asd.ctx && va / 2 ^ e.log2 * 2 ^ e.log2 = e.va &&
    (if e.level2 then e.unit = c.cluster else some e.unit = c.core)

/-- An entry serves an access when the permissions of both stages allow it and D needs no setting (R170, R172). -/
def TlbEntry.serves (e : TlbEntry) (c : Xctx) (a : Acc) : Bool :=
  (!e.sys || c.sys) && permits e.perm1 a && permits e.perm2 a && (a ≠ .write || e.dirty)

/-- Adds an entry to a TLB of at most `cap` entries; a full one loses one that the device picks.
DESIGN CHOICE, safe (log 47). -/
def State.tlbAdd (s : State) (e : TlbEntry) (cap : Nat) : State :=
  let same := fun (x : TlbEntry) => x.level2 = e.level2 && x.unit = e.unit
  let old := s.tlb.filter fun x => !(same x && x.ctx = e.ctx && x.va = e.va && x.log2 = e.log2)
  let mine := old.filter same
  let old := if mine.length < cap then old else
    match mine[s.pickNo 11 (2 * e.va + if e.level2 then 1 else 0) % mine.length]? with
    | some v => old.filter fun x => x ≠ v
    | none => old
  { s with tlb := e :: old }

structure Xlat where
  hpa  : Nat
  nc   : Bool
  used : List (Nat × Bool)         -- leaves that the walk used, none where a TLB had the page
  deriving DecidableEq, Repr

/-- May an access end at a host-physical address (R161)? Save steps are the device's own. -/
def State.hostOk (s : State) (part hpa : Nat) : Bool :=
  if s.isLocal hpa then
    match s.region part hpa with
    | some .gddr => true | some (.hall _) => true | _ => false
  else true

/-- A virtual address to a host-physical one (R167, R170): from a TLB, or by a walk that fills them. -/
def State.translate (s : State) (c : Xctx) (va : Nat) (a : Acc) : Except XErr (Xlat × State) := do
  if va / 2 ^ 57 ≠ 0 then throw (.xlate 1 va)
  let (x, s) ←
    match s.tlb.find? (fun e => e.hits c va && e.serves c a) with
    | some e => pure ({ hpa := e.hpa + va % 2 ^ e.log2, nc := e.nc, used := [] : Xlat }, s)
    | none => do
      let (l1, s) ← s.walk1 c.part c.asd c.sys va a [] 5 c.asd.s1root
      let (l2, s) ← (s.stage2 c.part c.asd l1.addr a).mapError (XErr.after l1.used)
      let log2 := min l1.log2 l2.log2
      let e : TlbEntry :=
        { level2 := true, unit := c.cluster, ctx := c.asd.ctx, vf := c.asd.vf, va := va / 2 ^ log2 * 2 ^ log2,
          gpa := l1.addr / 2 ^ log2 * 2 ^ log2, log2 := log2, hpa := l2.addr / 2 ^ log2 * 2 ^ log2,
          perm1 := l1.perm, perm2 := l2.perm, sys := l1.sys, nc := l1.nc || l2.nc, dirty := a = .write }
      let s := match c.core with
        | some k => (s.tlbAdd e 16384).tlbAdd { e with level2 := false, unit := k } 384
        | none => s
      pure ({ hpa := l2.addr, nc := l1.nc || l2.nc, used := l1.used ++ l2.used }, s)
  if s.hostOk c.part x.hpa then pure (x, s) else throw ((XErr.host x.hpa).after x.used)

/-- The state after a translation, whether it ends at an address or not. -/
def State.touch (s : State) (c : Xctx) (va : Nat) (a : Acc) : State :=
  match s.translate c va a with
  | .ok (_, s) => s
  | .error e => s.markLeaves c.part e.marks

/-- The leaves that an address's translation uses, where it ends at one: what a fault met later still has to set (R170). -/
def State.usedAt (s : State) (c : Xctx) (a : Acc) (va : Nat) : List (Nat × Bool) :=
  match s.translate c va a with
  | .ok (x, _) => x.used
  | .error _ => []

/-- Where a range enters each 4 KB page. -/
def pageStarts (va n : Nat) : List Nat :=
  if n = 0 then [] else va :: (List.range ((va + n - 1) / 4096 - va / 4096)).map fun i => (va / 4096 + 1 + i) * 4096

/-- Those of a range. -/
def State.usedOf (s : State) (c : Xctx) (a : Acc) (va n : Nat) : List (Nat × Bool) := (pageStarts va n).flatMap (s.usedAt c a)

/-- A job's accesses from its team's core. -/
def State.xctx (s : State) (w : WaveId) : Xctx :=
  let t := s.team w.team
  let j := s.job w.team.job
  { part := j.part, cluster := t.cluster, core := some t.coreNo, asd := j.asd, sys := false }

/-- An engine's accesses for a job: through the tables alone. -/
def State.engineCtx (s : State) (job cluster : Nat) : Xctx :=
  let j := s.job job
  { part := j.part, cluster := cluster, core := none, asd := j.asd, sys := false }

def State.readAsd (s : State) (part hpa : Nat) : Asd :=
  let d := natLE (s.readOwn part hpa 32)
  { vf := fld d 146 140, ctx := fld d 139 128, s2root := fld d 120 76 * 4096, s2en := fld d 64 64 = 1,
    s1root := fld d 56 12 * 4096 }

/-- The system address space of a virtual function (R196); none while its V is 0 or its descriptor names another. -/
def State.sysCtx (s : State) (v : Nat) : Option Xctx :=
  let r := s.vf v
  let part := r.partition
  let d := s.readAsd part (bits r.sysasd 56 5 * 32)
  if r.sysasd.getLsbD 0 && s.reachable part (bits r.sysasd 56 5 * 32) && d.vf = v then
    some { part := part, cluster := 0, core := none, asd := d, sys := true }
  else none

/-- Reads n bytes through translation, byte runs cut at 4 KB pages; `fuel` bounds the pages. -/
def State.xread (s : State) (c : Xctx) : Nat → Nat → Nat → Except XErr (List Byte × Bool × State)
  | 0, _, _ => .ok ([], false, s)
  | fuel + 1, va, n =>
    if n = 0 then .ok ([], false, s)
    else do
      let k := min n (4096 - va % 4096)
      let (x, s) ← s.translate c va .read
      let (rest, p, s) ← (s.xread c fuel (va + k) (n - k)).mapError (XErr.after x.used)
      let lines := (List.range ((va % 128 + k + 127) / 128)).any fun i => s.linePoisoned c.part (x.hpa / 128 * 128 + 128 * i)
      pure (s.readPhys c.part x.hpa k ++ rest, p || lines, s)

def pages (n : Nat) : Nat := n / 4096 + 2

def State.xreadN (s : State) (c : Xctx) (va n : Nat) : Except XErr (List Byte × Bool × State) := s.xread c (pages n) va n

def State.xreadNat (s : State) (c : Xctx) (va n : Nat) : Except XErr (Nat × State) := do
  let (bs, _, s) ← s.xreadN c va n
  pure (natLE bs, s)

/-- Translates every page of a range. -/
def State.xrange (s : State) (c : Xctx) (a : Acc) : Nat → Nat → Nat → Except XErr State
  | 0, _, _ => .ok s
  | fuel + 1, va, n =>
    if n = 0 then .ok s
    else do
      let k := min n (4096 - va % 4096)
      let (x, s) ← s.translate c va a
      (s.xrange c a fuel (va + k) (n - k)).mapError (XErr.after x.used)

/-- Writes bytes through translation as an engine, page by page, each page only once it is translated. -/
def State.xwrite (s : State) (c : Xctx) : Nat → Nat → List Byte → Except XErr State
  | 0, _, _ => .ok s
  | fuel + 1, va, bs =>
    if bs.isEmpty then .ok s
    else do
      let k := min bs.length (4096 - va % 4096)
      let (x, s) ← s.translate c va .write
      ((s.writePhys c.part x.hpa (bs.take k)).xwrite c fuel (va + k) (bs.drop k)).mapError (XErr.after x.used)

def State.xwriteL (s : State) (c : Xctx) (va : Nat) (bs : List Byte) : Except XErr State :=
  s.xwrite c (pages bs.length) va bs

end Sys2Proof.Machine
end

