-- ==== Sys2Proof/Machine/Report.lean ====
section
/-!
DEFINITION. Interrupts (R316, R317), fault records (R197) and the rings the device writes for system software (R195,
R196).
-/

namespace Sys2Proof.Machine

open Sys2Proof

/-- A no-return atomic add of 1 to a dword at its home (R317). -/
def State.countUp (s : State) (part hpa : Nat) : State :=
  s.writePhys part hpa (bytesLE 8 (natLE (s.readOwn part hpa 8) + 1))

/-- Full when TAIL + 1 = HEAD modulo the ring's size (R195, R316). -/
def ringFull (head tail n : Nat) : Bool := (tail + 1) % n = head % n

/-- An interrupt of source 0, 1 or 3 to a virtual function (R317). -/
def State.irqVf (s : State) (v src : Nat) : State :=
  let r := s.vf v
  if r.resident then s.countUp r.partition (bits r.vfcfg 56 8 * 256 + 8 * src)
  else
    let n := 2 ^ bits r.irqlog 11 8
    if ringFull r.irqhead r.irqtail n then s.setVf v { r with irqpend := r.irqpend ||| BitVec.ofNat 4 (2 ^ src) }
    else
      let s := s.writePhys r.partition (bits r.irqlog 56 12 * 4096 + 16 * (r.irqtail % n))
        (bytesLE 8 src ++ bytesLE 8 s.clock.toNat)
      s.setVf v { r with irqtail := (r.irqtail + 1) % n }

/-- The scheduling interrupt, source 2, of a partition (R316). -/
def State.irqHv (s : State) (p : Nat) : State := s.countUp p (bits (s.part p).hvirq 56 8 * 256 + 16)

/-- An interrupt of a source that concerns a virtual function. -/
def State.irq (s : State) (v src : Nat) : State := if src = 2 then s.irqHv (s.vf v).partition else s.irqVf v src

/-- The fields of a fault record (R197). -/
structure FaultRec where
  addr : Nat := 0
  pc : Nat := 0
  seq : Nat := 0xFFFFFFFF
  lanes : Nat := 0
  enc : List W32 := []
  slotw : Nat := 0
  team : Nat := 0
  jobid : Nat := 0
  ticket : Nat := 0
  sub : Nat := 0
  code : Nat := 0
  vf : Nat := 0
  part : Nat := 0
  cluster : Nat := 0
  core : Nat := 0
  wave : Nat := 0
  kind : Nat := 0
  action : Nat := 0
  deriving DecidableEq, Repr

/-- A field of w bits at a place. -/
def place (w lo v : Nat) : Nat := v % 2 ^ w * 2 ^ lo

def FaultRec.encode (f : FaultRec) : BitVec 512 :=
  BitVec.ofNat 512
    (place 64 448 f.addr + place 64 384 f.pc + place 32 352 f.seq + place 32 320 f.lanes
      + place 32 288 (f.enc.getD 0 0).toNat + place 32 256 (f.enc.getD 1 0).toNat
      + place 32 224 (f.enc.getD 2 0).toNat + place 32 192 f.slotw + place 32 160 f.team + place 32 128 f.jobid
      + place 32 96 f.ticket + place 16 80 f.sub + place 16 64 f.code + place 7 57 f.vf + place 5 52 f.part
      + place 4 48 f.cluster + place 4 44 f.core + place 5 39 f.wave + place 2 37 f.kind + place 3 34 f.action + 1)

/-- A record that was held back has OVF = 1 (R195); the bit belongs to fault records alone. -/
def withOvf (k : RingKind) (r : BitVec 512) : BitVec 512 := if k = .fault then r ||| BitVec.ofNat 512 (2 ^ 33) else r

/-- The completion ring of a job's or draw's queue: entry address and length are fixed when the record is made, in the
record's bits above its 128 (R288). -/
def complAddr (r : BitVec 512) : Nat := r.toNat / 2 ^ 128 % 2 ^ 64

/-- Writes a record into its ring, or answers none while the ring is full, SYSASD is not valid or the write cannot be
translated (R195, R196, R288, R331); a sample is lost to a full ring. -/
def State.ringWrite (s : State) (v : Nat) (k : RingKind) (record : BitVec 512) : Option State :=
  let r := s.vf v
  match s.sysCtx v with
  | none => none
  | some c =>
    match k with
    | .fault =>
      let n := 2 ^ bits r.fqcfg 4 0
      if ringFull r.fqhead r.fqtail n then none
      else
        match s.xwriteL c (bits r.fqcfg 63 12 * 4096 + 64 * (r.fqtail % n)) (bytesLE 64 record.toNat) with
        | .error _ => none
        | .ok s => some ((s.setVf v { s.vf v with fqtail := (r.fqtail + 1) % n }).irq v 0)
    | .sample =>
      let n := 2 ^ (bits r.sampcfg 11 8 + 6)
      if ringFull r.samphead r.samptail n then
        some (s.setVf v { r with sampdrop := min 65535 (r.sampdrop + 1) })
      else match s.xwriteL c (bits r.sampcfg 63 12 * 4096 + 32 * (r.samptail % n)) (bytesLE 32 record.toNat) with
      | .error _ => none
      | .ok s => some (s.setVf v { s.vf v with samptail := (r.samptail + 1) % n })
    | .completion _ =>
      match s.xwriteL c (complAddr record) (bytesLE 16 record.toNat) with
      | .error _ => none
      | .ok s => some (s.irq v 1)

/-- Is a write that cannot be made stalled by V = 0 or for want of a translation, and not by a full ring alone (R196)? -/
def State.ringStalled (s : State) (v : Nat) (k : RingKind) : Bool :=
  let r := s.vf v
  match k with
  | .fault => (s.sysCtx v).isNone || !ringFull r.fqhead r.fqtail (2 ^ bits r.fqcfg 4 0)
  | _ => true

/-- The first record that a stall holds back raises the hypervisor's scheduling interrupt (R196). -/
def State.noteStall (s : State) (v : Nat) (k : RingKind) : State :=
  if s.ringStalled v k && !(s.vf v).stalled then (s.setVf v { s.vf v with stalled := true }).irq v 2 else s

/-- Writes a record or holds it back (R195, R196). -/
def State.report (s : State) (v : Nat) (k : RingKind) (record : BitVec 512) (into : Option (WaveId × LaneMask)) :
    State × Bool :=
  let waiting := s.held.any fun h => h.vf = v && h.kind = k
  match if waiting then none else s.ringWrite v k record with
  | some s => (s, true)
  | none =>
    let s := { s with
      held := s.held ++ [({ vf := v, kind := k, record := withOvf k record, into := into } : Held)] }
    (s.noteStall v k, false)

/-! ## Samples (R331) -/

/-- RATE of SAMPCFG; a reserved value is off. DESIGN CHOICE, unsafe (log 29). -/
def VfRegs.sampleRate (r : VfRegs) : Option Nat :=
  let n := bits r.sampcfg 7 3
  if 6 ≤ n && n ≤ 20 then some n else none

/-- Counts one request of a virtual function; is it the one in 2^RATE that carries a record?
DESIGN CHOICE, unsafe (log 29). -/
def State.sampleHit (s : State) (v : Nat) : Bool × State :=
  let r := s.vf v
  match r.sampleRate with
  | none => (false, s)
  | some n =>
    if r.sampled + 1 < 2 ^ n then (false, s.setVf v { r with sampled := r.sampled + 1 })
    else (true, s.setVf v { r with sampled := 0 })

/-- The request of an instruction to a place in memory. -/
def State.sampleAt (s : State) (pc : Word) (part hpa : Nat) : Sample :=
  { pc := pc, remote := !s.isLocal hpa,
    bank := s.isLocal hpa && match s.region part hpa with | some .gddr => false | _ => true }

/-- A sample record. Its stage counts are open; a local request has no port count, and none that a bank serves has one of
a memory controller. DESIGN CHOICE, safe (log 50). -/
def State.sampleRecord (s : State) (v : Nat) (x : Sample) (ab st : Bool) : State :=
  let free := fun (i : Nat) => bits (s.openWord 7 (8 * x.pc.toNat + i)) 15 0
  let hit := x.remote || x.bank || (s.openWord 7 (8 * x.pc.toNat + 5)).getLsbD 0
  let record := place 64 192 x.pc.toNat + place 32 160 0xFFFFFFFF + place 16 144 (free 0) + place 16 128 (free 1)
    + place 16 112 (if x.remote then 0 else free 2) + place 16 96 (if x.remote then free 3 else 0)
    + place 16 80 (if hit then 0 else free 4) + (if ab then 2 else 0) + if st then 1 else 0
  (s.report v .sample (BitVec.ofNat 512 record) none).1

/-- Of a list of requests, those that carry a sample. DESIGN CHOICE, safe (log 50). -/
def State.sampled (s : State) (v : Nat) : List Sample → List Sample × State
  | [] => ([], s)
  | x :: xs =>
    let (hit, s) := s.sampleHit v
    let (rest, s) := s.sampled v xs
    (if hit then x :: rest else rest, s)

def State.sampleRecords (s : State) (v : Nat) (xs : List Sample) (ab st : Bool) : State :=
  xs.foldl (fun s x => s.sampleRecord v x ab st) s

/-- Runs leave the machine uncommitted; samples of their loads are written as aborted. -/
def State.dropRuns (s : State) (p : Run → Bool) : State :=
  let s' := { s with runs := s.runs.filter fun r => !p r }
  (s.runs.filter p).foldl (fun s r => s.sampleRecords (s.jobOf r.wave).vf r.samples true false) s'

/-- A log record for poison that is scrubbed (R194). DEDUCED, unsafe (log 34). -/
def State.logPoison (s : State) (w : WaveId) (lane : Fin 32) : State :=
  let t := s.team w.team
  let j := s.job w.team.job
  (s.report j.vf .fault
    (FaultRec.encode
      { pc := (s.thread w lane).pc.toNat, lanes := (laneBit lane).toNat, team := w.team.team, jobid := j.id, code := 7,
        vf := j.vf, part := j.part, cluster := t.cluster, core := t.core, wave := w.wave, kind := 2, action := 3 })
    none).1

/-- One log record for each of n scrubbed registers. -/
def State.logScrubbed (s : State) (w : WaveId) (lane : Fin 32) (n : Nat) : State :=
  (List.range n).foldl (fun s _ => s.logPoison w lane) s

end Sys2Proof.Machine
end

