-- ==== Sys2Proof/Machine/Save.lean ====
section
/-!
DEFINITION. The save area of a cluster (R205), its fence words, image directory and team images (R203, R206), as a
debugger sees and changes them while threads are stopped (R326, R327). Where R203 gives an order and no offsets, the
places inside a record are this model's (log 20).
-/

namespace Sys2Proof.Machine

open Sys2Proof

/-! ## Addresses -/

/-- The save banks of an owned cluster (R205). -/
def State.saveBanks (s : State) (part cluster : Nat) : List Nat :=
  let r := s.part part
  let bs := r.banks
  let k := r.clusters.length
  let c := r.clusters.idxOf cluster
  ((List.range bs.length).filter fun j => j * k / bs.length = c).map fun j => bs.getD j 0

/-- The smallest SAVE of a list of banks. -/
def State.saveMin (s : State) : List Nat → Nat
  | [] => 0
  | b :: bs => bs.foldl (fun a b => min a (s.save b)) (s.save b)

def State.bankHpa (s : State) (bank off : Nat) : Nat := s.devNum * 2 ^ 48 + bankBase + bank * 0x100000 + off

def stepBytes : Nat := 0x20000

/-- Bytes of the uniform region. -/
def State.saveUniform (s : State) (part cluster : Nat) : Nat :=
  let bs := s.saveBanks part cluster
  bs.length * s.saveMin bs * stepBytes

/-- An offset in the tiers of the overflow region, from tier r up. -/
def State.tierHpa (s : State) (banks : List Nat) (s0 : Nat) : Nat → Nat → Nat → Option Nat
  | 0, _, _ => none
  | n + 1, r, off =>
    let tier := banks.filter fun b => s.save b ≥ s0 + r
    if tier.isEmpty then none
    else if off < tier.length * stepBytes then
      let l := off / 128
      some (s.bankHpa (tier.getD (l % tier.length) 0) ((8 - s0 - r) * stepBytes + l / tier.length * 128 + off % 128))
    else s.tierHpa banks s0 n (r + 1) (off - tier.length * stepBytes)

/-- The host-physical address of a save offset (R205). -/
def State.saveHpa (s : State) (part cluster off : Nat) : Option Nat :=
  let bs := s.saveBanks part cluster
  let s0 := s.saveMin bs
  let u := s.saveUniform part cluster
  if off < u then
    let l := off / 128
    some (s.bankHpa (bs.getD (l % bs.length) 0) ((8 - s0) * stepBytes + l / bs.length * 128 + off % 128))
  else s.tierHpa bs s0 8 1 (off - u)

/-- Has the cluster an overflow region? -/
def State.saveTiers (s : State) (part cluster : Nat) : Bool :=
  let bs := s.saveBanks part cluster
  bs.any fun b => s.save b > s.saveMin bs

/-- Save offsets of the image directory, the fence words and the end of the core images (R206). -/
def State.dirOff (s : State) (part cluster : Nat) : Nat :=
  let u := s.saveUniform part cluster
  if s.saveTiers part cluster then u else u - 13 * 1024

def State.imageEnd (s : State) (part cluster : Nat) : Nat :=
  let u := s.saveUniform part cluster
  if s.saveTiers part cluster then u else u - 13 * 1024

/-- SAVE steps enough for every owned cluster (R158). -/
def State.saveEnough (s : State) (r : PartRegs) : Bool :=
  (r.banks.map fun b => s.save b).foldl (· + ·) 0 ≥ 28 * r.clusters.length

/-- The fence word of a virtual function (R184, R206). -/
def State.fenceWord (s : State) (part vf : Nat) : Option Nat :=
  match (s.part part).clusters with
  | [] => none
  | c :: _ => s.saveHpa part c (s.dirOff part c + 12288 + 8 * vf)

/-! ## Reading and writing the save area -/

def State.saveRead (s : State) (part cluster off n : Nat) : List Byte :=
  (List.range n).map fun i =>
    match s.saveHpa part cluster (off + i) with
    | some h => s.mem.read (s.key part h)
    | none => 0

def State.saveWrite (s : State) (part cluster : Nat) : Nat → List Byte → State
  | _, [] => s
  | off, b :: bs =>
    let s := match s.saveHpa part cluster off with
      | some h => s.writePhys part h [b]
      | none => s
    s.saveWrite part cluster (off + 1) bs

/-! ## Image directory (R206) -/

structure DirEntry where
  job    : Nat
  team   : Nat
  off    : Nat
  lines  : Nat
  core   : Nat
  kind   : Nat
  stop   : Bool
  valid  : Bool
  deriving DecidableEq, Repr

def DirEntry.decode (v : Nat) : DirEntry :=
  { job := fld v 127 96, team := fld v 95 64, off := fld v 63 32, lines := fld v 31 8, core := fld v 7 4,
    kind := fld v 3 2, stop := fld v 1 1 = 1, valid := fld v 0 0 = 1 }

def DirEntry.encode (e : DirEntry) : Nat :=
  e.job % 2 ^ 32 * 2 ^ 96 + e.team % 2 ^ 32 * 2 ^ 64 + e.off % 2 ^ 32 * 2 ^ 32 + e.lines % 2 ^ 24 * 2 ^ 8
    + e.core % 16 * 16 + e.kind % 4 * 4 + (if e.stop then 2 else 0) + (if e.valid then 1 else 0)

def State.dirEntry (s : State) (part cluster i : Nat) : DirEntry :=
  DirEntry.decode (natLE (s.saveRead part cluster (s.dirOff part cluster + 16 * i) 16))

def State.setDir (s : State) (part cluster i : Nat) (e : DirEntry) : State :=
  s.saveWrite part cluster (s.dirOff part cluster + 16 * i) (bytesLE 16 e.encode)

/-! ## Images -/

/-- Length of a thread record for N named registers (R206). DESIGN CHOICE, unsafe (log 20). -/
def threadRec (named : Nat) : Nat := roundUp (256 + 8 * named) 128

def zeros (n : Nat) : List Byte := List.replicate n 0

/-- Bytes of a wave with its threads. -/
def waveLen (named : Nat) : Nat := 256 + 32 * threadRec named

/-- Image offset of a wave's record, behind a team record of some length. -/
def waveAt (teamLen named w : Nat) : Nat := 128 + teamLen + w * waveLen named

/-- Image offset of a thread's record. -/
def threadAt (teamLen named w : Nat) (l : Fin 32) : Nat := waveAt teamLen named w + 256 + l.val * threadRec named

def loopWord (l : Loop) : Nat :=
  l.count.toNat + (bits l.stop 33 2 + 2 ^ 32 - bits l.start 33 2) % 2 ^ 31 * 2 ^ 32 + (if l.active then 2 ^ 63 else 0)

def loopBytes (l : Loop) : List Byte := bytesLE 8 l.start.toNat ++ bytesLE 8 (loopWord l)

def qBytes (q : Vector Val 16) : List Byte := q.toList.flatMap fun v => bytesLE 8 v.bits.toNat

/-- A thread record: PC; masks; loops; flags; cause and epc; in-handler bit and, in bits [63:32], where the image holds
the queue snapshot; q; n (R203, R206). DESIGN CHOICE, unsafe (log 20). -/
def threadBytes (named snapAt : Nat) (t : Thread) : List Byte :=
  if !t.status.live then zeros (threadRec named)
  else
    let d := bytesLE 8
    d t.pc.toNat
      ++ d (packN 8 ((List.range 8).map fun k => if k < 7 then (t.regs.m.toList.getD (k + 1) 0).toNat else 0))
      ++ t.regs.lc.toList.flatMap loopBytes
      ++ d t.regs.fpstat.toNat ++ d t.regs.fpen.toNat ++ d t.regs.gstat.toNat
      ++ d t.cause.toNat ++ d t.epc.toNat
      ++ d (if t.inHandler then 1 + snapAt % 2 ^ 32 * 2 ^ 32 else 0)
      ++ qBytes t.regs.q
      ++ (t.regs.n.toList.take named).flatMap (fun v => d v.bits.toNat)
      ++ zeros (threadRec named - 256 - 8 * named)

/-- The named registers that are pending in some lane (R69, R203). -/
def Wave.pendMask (w : Wave) : BitVec 32 := w.lanes.toList.foldl (fun m t => m ||| t.pend) 0

def rejoinBytes (e : Rejoin) : List Byte :=
  bytesLE 8 e.target.toNat ++ bytesLE 4 e.mask.toNat ++ bytesLE 4 (match e.timer with | some n => 2 ^ 31 + n | none => 0)

/-- The pending WSYNC groups: for each lane a byte, 0 or the number of its group from 1 on. -/
def groupBytes (gs : List LaneMask) : List Byte :=
  (List.finRange 32).map fun l =>
    let k := gs.findIdx fun g => LaneMask.has g l
    if k < gs.length then BitVec.ofNat 8 (k + 1) else 0

/-- A wave record: rejoin entries, join counter, command counter, RX, pending WSYNC groups, pending tokens, in 192 bytes.
DESIGN CHOICE, unsafe (log 20). -/
def waveBytes (w : Wave) : List Byte :=
  let d := bytesLE 8
  (w.rejoin.take 8).flatMap rejoinBytes ++ zeros (16 * (8 - w.rejoin.length))
    ++ d w.joins ++ d w.cmds.toNat ++ d (if w.rx then 1 else 0)
    ++ groupBytes w.groups ++ d w.pendMask.toNat ++ zeros 64

/-- The copies of a team, in order of commit. -/
def State.copiesIn (s : State) (t : TeamId) : List (Nat × Copy) :=
  s.cmds.filterMap fun c => if c.wave.team = t then (match c.kind with | .copy k => some (c.id, k) | _ => none) else none

/-- The snapshots that a team's image holds: of each thread in its handler, by wave and lane (R199, R203). -/
def Team.inHandlers (t : Team) : List (Nat × Fin 32 × Thread) :=
  (sortOn (fun w => w.idx) t.waves).flatMap fun w =>
    ((List.finRange 32).filter fun l => w.lanes[l].inHandler && w.lanes[l].status.live).map fun l => (w.idx, l, w.lanes[l])

/-- The part of the team record before the snapshots: semaphores, a0-a15 and the stream loops, the stream cursor and
CBAR's HOLD state, lengths and capacities of the data queues, copy cursors, queue entries slot by slot.
DESIGN CHOICE, unsafe (log 20). -/
def State.teamHead (s : State) (t : Team) : List Byte :=
  let d := bytesLE 8
  t.sem.toList.flatMap (fun v => bytesLE 2 v)
    ++ t.stream.a.toList.flatMap (fun a => d a.toNat) ++ t.stream.loops.toList.flatMap loopBytes
    ++ d t.stream.cursor ++ d ((if t.cbarHold then 1 else 0) + if t.cbarAsked then 2 else 0)
    ++ (List.finRange 4).flatMap (fun k => d (t.dq[k].length + 2 ^ 32 * t.dqCap[k]))
    ++ d (s.copiesIn t.id).length
    ++ (s.copiesIn t.id).flatMap (fun c => d c.1 ++ d c.2.cursor)
    ++ t.dq.toList.flatMap (fun es => es.flatMap fun e => d e.length ++ e.flatMap fun v => d v.bits.toNat)

/-- Bytes of that part. -/
def State.teamHeadLen (s : State) (t : Team) : Nat :=
  264 + 16 * (s.copiesIn t.id).length
    + (t.dq.toList.map fun es => (es.map fun e => 8 + 8 * e.length).foldl (· + ·) 0).foldl (· + ·) 0

/-- TEAMLEN: the team record with its snapshots (R206). -/
def State.teamLen (s : State) (t : Team) : Nat := max 512 (roundUp (s.teamHeadLen t + 128 * t.inHandlers.length) 128)

/-- Where the image holds a thread's snapshot. -/
def State.snapAt (s : State) (t : Team) (w : Nat) (l : Fin 32) : Nat :=
  128 + s.teamHeadLen t + 128 * (t.inHandlers.findIdx fun x => x.1 = w && x.2.1 = l)

/-- Unpublished shadow bytes: of the stream program, then of each copy (R187, R206). -/
def State.shadowBytes (s : State) (t : Team) : List Byte :=
  t.stream.shadow.map (fun p => p.2) ++ (s.copiesIn t.id).flatMap fun c => c.2.shadow

/-- Has a thread of a wave parked or stopped? -/
def Wave.holdsStopped (w : Wave) : Bool :=
  w.lanes.toList.any fun t => t.stopped || (match t.status with | .parked _ => true | _ => false)

/-- TEAMLEN and WAVES of the image that the device wrote (R206). -/
def Team.writtenLen (t : Team) : Nat := natLE ((t.written.drop 20).take 4)
def Team.writtenWaves (t : Team) : Nat := natLE ((t.written.drop 10).take 2) / 16 % 64

/-- Waves of a team's image: up to the last that holds a slot, or whose threads have stopped, and those that the image of a
team that left its slots has. A wave that is parked while its team is resident is held as R292 has it.
DESIGN CHOICE, unsafe (log 20). -/
def Team.waveSpan (t : Team) : Nat :=
  ((t.waves.filter fun w => w.slot.isSome || w.holdsStopped).map fun w => w.idx + 1).foldl max
    (if t.place = .resident then 0 else t.writtenWaves)

/-- The waves of a team, up to the last (R43). -/
def Team.allWaves (t : Team) : Nat := (t.waves.map fun w => w.idx + 1).foldl max 0

/-- Bytes of an image of a team with some number of waves, in whole lines (R203). -/
def State.imageLenOf (s : State) (t : Team) (named teamLen waves : Nat) : Nat :=
  roundUp (waveAt teamLen named waves + t.scrSize + (s.shadowBytes t).length) 128

/-- Bytes of a team's image (R203). -/
def State.imageLen (s : State) (t : Team) (named : Nat) : Nat := s.imageLenOf t named (s.teamLen t) t.waveSpan

/-- The longest that a team record may become: its queues full, at 264 bytes an entry, and each of its threads in the
handler, where it has one. DEDUCED, unsafe (log 59). -/
def State.teamBound (s : State) (t : Team) (handler : Bool) : Nat :=
  let live := (t.waves.map fun w => (lanesOf w.liveMask).length).foldl (· + ·) 0
  max 512 (roundUp (264 + 16 * (s.copiesIn t.id).length + 264 * t.dqCap.toList.foldl (· + ·) 0
    + 128 * (if handler then live else t.inHandlers.length)) 128)

/-- Bytes that an image of a team with some number of waves could take (R203). DEDUCED, unsafe (log 59). -/
def State.imageBound (s : State) (t : Team) (waves : Nat) : Nat :=
  let c := (s.job t.id.job).card
  s.imageLenOf t c.named (s.teamBound t (decide (c.handler ≠ 0))) waves

/-- Save-area bytes that images on a cluster could take: of its resident teams, and of those whose image is there (R203). -/
def State.imageUsed (s : State) (cluster : Nat) : Nat :=
  ((s.teams.filter fun t => t.cluster = cluster && (t.place = .resident || t.image.isSome)).map fun t =>
    if t.image.isSome && t.place ≠ .resident then t.written.length else s.imageBound t t.waveSpan).foldl (· + ·) 0

/-- Do the images that could be written on a cluster fit its uniform region (R203, R206)? -/
def State.imagesFit (s : State) (part cluster : Nat) : Bool := s.imageUsed cluster ≤ s.imageEnd part cluster

/-- The image of a team: header, team record, waves in ascending index, scratchpad, shadows. `keep` puts
into the record of a wave or of a thread what a debugger has written there. DESIGN CHOICE, unsafe (log 20). -/
def State.imageBytes (s : State) (named : Nat) (t : Team) (keep : Nat → Option (Fin 32) → List Byte → List Byte) : List Byte :=
  let waves := t.waveSpan
  let len := s.teamLen t
  let hdr := t.id.job % 2 ^ 32 + t.id.team % 2 ^ 32 * 2 ^ 32 + waves % 64 * 2 ^ 84 + named % 64 * 2 ^ 90
    + threadRec named * 2 ^ 128 + len * 2 ^ 160 + (t.scrSize + (s.shadowBytes t).length) * 2 ^ 192
    + waveAt len named waves * 2 ^ 224
  let team := s.teamHead t ++ t.inHandlers.flatMap fun x => qBytes x.2.2.snapshot
  bytesLE 128 hdr ++ team ++ zeros (len - team.length)
    ++ (List.range waves).flatMap (fun i =>
        match t.waves.find? (fun w => w.idx = i) with
        | some w => keep i none (waveBytes w) ++ (List.finRange 32).flatMap fun l =>
            keep i (some l) (threadBytes named (s.snapAt t i l) w.lanes[l])
        | none => zeros (waveLen named))
    ++ t.scr.readN 0 t.scrSize ++ s.shadowBytes t

/-- Do two stretches of the save area overlap? -/
def stretchesMeet (o n p m : Nat) : Bool := decide (o < p + m) && decide (p < o + n)

/-- The lowest stretch of n bytes of a part of the save area that no valid image of a kind lies in (R206). -/
def State.hole (s : State) (part cluster kind lo hi n : Nat) : Option Nat :=
  let taken := ((List.range 768).map (s.dirEntry part cluster)).filter fun e => e.valid && e.kind = kind
  (sortOn id (lo :: taken.map fun e => e.off + 128 * e.lines)).find? fun o =>
    o + n ≤ hi && taken.all fun e => !stretchesMeet o n e.off (128 * e.lines)

/-- Room for a team's image in the uniform region, below its last 13 KB where that holds the directory. -/
def State.imageHole (s : State) (part cluster n : Nat) : Option Nat :=
  s.hole part cluster 0 0 (s.imageEnd part cluster) n

/-- Bytes of the save area, its tiers included (R205). -/
def State.saveBytes (s : State) (part cluster : Nat) : Nat :=
  ((s.saveBanks part cluster).map fun b => s.save b * stepBytes).foldl (· + ·) 0

/-- Room for an accumulator context: the rest of the overflow region, where there is one (R206). -/
def State.ctxHole (s : State) (part cluster n : Nat) : Option Nat :=
  if s.saveTiers part cluster then
    s.hole part cluster 1 (s.dirOff part cluster + 13 * 1024) (s.saveBytes part cluster) n
  else none

/-- The first directory entry that names no image. -/
def State.freeEntry (s : State) (part cluster : Nat) : Option Nat :=
  (List.range 768).find? fun i => !(s.dirEntry part cluster i).valid

/-- Where a team's image is, if it has one. -/
def State.imageOf (s : State) (t : Team) (part : Nat) : Option DirEntry := t.image.map (s.dirEntry part t.cluster)

end Sys2Proof.Machine
end

