-- ==== Sys2Proof/Machine/Threads.lean ====
section
/-!
DEFINITION. Threads between runs: headers and loops (R35, R46), rejoin entries (R36 to R38), waits that end (R26, R40,
R44), exits and the end of a team (R43, R48, R154, R209, R224, R236).
-/

namespace Sys2Proof.Machine

open Sys2Proof

/-! ## Code in memory -/

/-- Words of an instruction or of an H word, by its first (R73, R90). -/
def wordsFrom (w0 : W32) : Nat := if isHeader w0 then 2 else formatWords w0

/-- Every word of the instruction or H word at an address, translated as a fetch: those of its fetch line, and, of what
crosses the line, those of the next (R73, R170, R171). DEDUCED, safe (log 38). -/
def State.fetchInstr (s : State) (c : Xctx) (va : Word) : Except (Word × XErr) (List W32 × State) :=
  match s.translate c va.toNat .fetch with
  | .error e => .error (va, e)
  | .ok (x, s) =>
    let ws := wordsOfBytes (s.readPhys c.part x.hpa (min 12 (128 - x.hpa % 128)))
    let n := wordsFrom (ws.headD 0)
    if n ≤ ws.length then .ok (ws.take n, s)
    else
      let next := va + w64 (4 * ws.length)
      match s.translate c next.toNat .fetch with
      | .error e => .error (next, e)
      | .ok (y, s) => .ok (ws ++ wordsOfBytes (s.readPhys c.part y.hpa (4 * (n - ws.length))), s)

/-- Those words, without effect on the state. -/
def State.peekWords (s : State) (c : Xctx) (va : Word) : Option (List W32) :=
  match s.fetchInstr c va with
  | .error _ => none
  | .ok (ws, _) => some ws

/-- The first word there. -/
def State.peekWord (s : State) (c : Xctx) (va : Word) : Option W32 := (s.peekWords c va).bind fun ws => ws[0]?

/-- Does an H word stand there (R35)? -/
def State.isH (s : State) (c : Xctx) (va : Word) : Bool :=
  match s.peekWord c va with
  | some w => va.toNat % 4 = 0 && isHeader w
  | none => false

/-- LEN of the H word there (R90); the most there is, where its page is translated no longer when a later run of its block
issues, which then ends by itself. DEDUCED, unsafe (log 37). -/
def State.headerLen (s : State) (c : Xctx) (va : Word) : Nat :=
  match s.peekWord c va with
  | some w => (w.extractLsb' 20 10).toNat
  | none => 1023

/-- JOIN of the H word there (R90). -/
def State.headerJoin (s : State) (c : Xctx) (va : Word) : Word :=
  match s.peekWords c va with
  | some (_ :: w1 :: _) => (w1.extractLsb' 6 14).signExtend 64
  | _ => 0

/-- Word offset times 4 from an address (R87, R90). -/
def wordsAfter (pc : Word) (off : Word) : Word := pc + off * 4

/-! ## Loops and rejoin entries -/

/-- The loop check at a header from register k on (R46): the registers and the header the thread stands at. -/
def loopFrom (h : Word) : Nat → Nat → Vector Loop 4 → Vector Loop 4 × Word
  | 0, _, lc => (lc, h)
  | n + 1, k, lc =>
    if hk : k < 4 then
      let l := lc[k]
      if l.active && l.stop = h then
        if l.count.toNat > 1 then (lc.set k { l with count := l.count - 1 }, l.start)
        else loopFrom h n (k + 1) (lc.set k { l with active := false })
      else loopFrom h n (k + 1) lc
    else (lc, h)

def loopCheck (lc : Vector Loop 4) (h : Word) : Vector Loop 4 × Word := loopFrom h 4 0 lc

def Thread.go (t : Thread) (now : Nat) : Thread := { t with status := .ready, since := now }

def Wave.modLanes (w : Wave) (m : LaneMask) (f : Thread → Thread) : Wave :=
  { w with lanes := w.lanes.mapFinIdx fun i t h => if LaneMask.has m ⟨i, h⟩ then f t else t }

/-- Entries whose outstanding part is empty are released: their waiting threads go on (R37, R38). -/
def Wave.releaseRejoin (w : Wave) (now : Nat) : Wave :=
  let done := w.rejoin.filter fun e => e.mask &&& ~~~e.arrived = 0
  let w := { w with rejoin := w.rejoin.filter fun e => !(e.mask &&& ~~~e.arrived = 0) }
  done.foldl
    (fun w e => w.modLanes e.arrived fun t =>
      if t.status = .waiting (.rejoin e.target) then t.go now else t) w

/-- Marks the arrival at the most recent matching entry; answers whether there is one (R37). -/
def arriveAt (l : Fin 32) (h : Word) : List Rejoin → List Rejoin × Bool
  | [] => ([], false)
  | e :: es =>
    if e.target = h && LaneMask.has e.mask l then
      ({ e with arrived := e.arrived ||| laneBit l, timer := some (e.timer.getD 4096) } :: es, true)
    else
      let (es', found) := arriveAt l h es
      (e :: es', found)

/-- A committed run sends a thread to a header: the loop check, then the match of its rejoin entry (R37, R46). -/
def Wave.arrive (w : Wave) (now : Nat) (l : Fin 32) (h : Word) : Wave :=
  let t := w.lanes[l]
  let (lc, h') := loopCheck t.regs.lc h
  let (es, found) := arriveAt l h' w.rejoin
  let t := { t with
    pc := h', next := h', blk := h', regs := { t.regs with lc := lc }, since := now,
    status := if found then .waiting (.rejoin h') else .ready }
  { w with lanes := w.lanes.set l t, rejoin := es }

/-- Pushes the entry of a divergent transfer; a ninth entry discards the oldest, whose waiting threads go on (R36). -/
def Wave.pushRejoin (w : Wave) (now : Nat) (mask : LaneMask) (target : Word) : Wave :=
  let es := ({ mask := mask, target := target, arrived := 0, timer := none } : Rejoin) :: w.rejoin
  let w := { w with rejoin := es.take 8 }
  (es.drop 8).foldl
    (fun w e => w.modLanes e.arrived fun t =>
      if t.status = .waiting (.rejoin e.target) then t.go now else t) w

/-- Sends the threads of a mask on from a committed instruction to the address after it: the next run of the block, or
the header that ends it (R91). -/
def State.goOn (s : State) (w : WaveId) (m : LaneMask) (next : Word) : State :=
  if s.isH (s.xctx w) next then
    s.modWave w fun v => ((lanesOf m).foldl (fun v l => v.arrive s.now l next) v).releaseRejoin s.now
  else s.modLanes w m fun _ t => { t with pc := next, next := next, status := .ready, since := s.now }

/-- The rejoin entry of a transfer that sends the threads of a mask to more than one address (R36, R91). -/
def State.pushDiverge (s : State) (w : WaveId) (m : LaneMask) (blk : Word) (goal : Fin 32 → Word) : State :=
  let c := s.xctx w
  let diverge := match lanesOf m with
    | [] => false
    | l :: rest => rest.any fun k => goal k ≠ goal l
  let join := s.headerJoin c blk
  let target := wordsAfter blk join
  if diverge && join ≠ 0 && s.isH c target then s.modWave w fun v => v.pushRejoin s.now m target else s

/-- Sends each thread of a mask to its own header after a transfer, with the rejoin entry of a divergence. -/
def State.transfer (s : State) (w : WaveId) (m : LaneMask) (blk : Word) (goal : Fin 32 → Word) : State :=
  (s.pushDiverge w m blk goal).modWave w fun v =>
    ((lanesOf m).foldl (fun v l => v.arrive s.now l (goal l)) v).releaseRejoin s.now

/-- Puts the threads of a mask into the waiting state at an instruction, everything before it committed (R32). -/
def State.waitAt (s : State) (w : WaveId) (m : LaneMask) (pc next : Word) (k : Wait) : State :=
  s.modLanes w m fun _ t => { t with status := .waiting k, pc := pc, next := next }

/-- Waiting threads of a mask go on past the instruction they wait at. -/
def State.resume (s : State) (w : WaveId) (m : LaneMask) : State :=
  (lanesOf m).foldl (fun s l => s.goOn w (laneBit l) (s.thread w l).next) s

/-! ## Signatures of threads -/

/-- The release step of threads: what they wrote since their last one (R181). -/
def State.takeSig (s : State) (w : WaveId) (m : LaneMask) : Sig × State :=
  ((lanesOf m).foldl (fun a l => a ||| (s.thread w l).sig) 0, s.modLanes w m fun _ t => { t with sig := 0 })

/-- Lines a token's engine wrote, acquired at the first read of the token, join the thread's next release (R176, R230). -/
def Thread.addSig (t : Thread) (sig : Sig) : Thread := { t with sig := t.sig ||| sig }

/-! ## Ends of threads, waves, teams -/

/-- Once the join counter reads 0, the FJOINs that wait are satisfied, whatever forks later (R44, R395). -/
def Wave.joinZero (w : Wave) : Wave :=
  if w.joins = 0 then
    { w with lanes := w.lanes.map fun t =>
        if t.status = .waiting .fjoin then { t with status := .waiting (.joined w.joinSig) } else t }
  else w

/-- A child that exits or is killed counts down its parent's wave while that has an unexited thread (R43, R44). -/
def Team.childGone (t : Team) (parent : Option Nat) (sig : Sig) : Team :=
  match parent with
  | none => t
  | some u =>
    { t with waves := t.waves.map fun v =>
        if v.uid = u && v.isLive then
          ({ v with joins := v.joins - 1, joinSig := v.joinSig ||| sig } : Wave).joinZero
        else v }

/-- What a vertex thread recorded (R299): position from TGT 12, attribute pairs from TGT 8 to 11. -/
def vertexOut (pair : Nat) (es : List Export) : VertexOut :=
  let get := fun k => es.find? fun e => e.tgt = k
  { pair := pair,
    pos := match get 12 with
      | some e => #v[w32 (low32 e.a), w32 (high32 e.a), w32 (low32 e.b), w32 (high32 e.b)]
      | none => Vector.replicate 4 0,
    attrs := Vector.ofFn fun p : Fin 4 => match get (8 + p.val) with
      | some e => #v[w32 (low32 e.a), w32 (high32 e.a)]
      | none => Vector.replicate 2 0 }

/-- A thread of a draw's stage hands over its recorded values (R299, R308). -/
def Draw.take (d : Draw) (vertex : Bool) (f : Frag) (es : List Export) (dropped : Bool) : Draw :=
  if vertex then { d with vout := d.vout ++ [vertexOut f.prim es] }
  else { d with ready := d.ready ++ [{ frag := f, exports := es, dropped := dropped }] }

/-- The threads of a mask leave their draw: with their records at EXIT, with none when they are killed (R308).
DEDUCED, unsafe (log 15). -/
def State.leaveDraw (s : State) (w : WaveId) (m : LaneMask) (exit : Bool) : State :=
  let vertex := match (s.team w.team).stage with | some (.vertex _) => true | _ => false
  (lanesOf m).foldl
    (fun s l =>
      let t := s.thread w l
      match t.frag with
      | none => s
      | some f =>
        { s with draws := s.draws.map fun (d : Draw) =>
            if d.id = f.draw then
              let dropped := !exit || t.helper
              d.take vertex f (if dropped then [] else t.exports) dropped
            else d }) s

/-- Ends the threads of a mask of one wave: rejoin masks, join counter, pending bits (R38, R43, R48).
DEDUCED, unsafe (log 15). -/
def State.endThreads (s : State) (w : WaveId) (m : LaneMask) (how : Status) : State :=
  let wave := s.wave w
  let gone := lanesOf (m &&& wave.liveMask)
  let s := s.leaveDraw w (maskOf gone) (how = .exited)
  let s := s.modTeam w.team fun t =>
    gone.foldl (fun t l => t.childGone wave.parent (wave.lanes[l].sig)) t
  s.modWave w fun v =>
    let v := v.modLanes (maskOf gone) fun t => { t with status := how, pend := 0 }
    let v := { v with rejoin := v.rejoin.map fun (e : Rejoin) => { e with mask := e.mask &&& ~~~(maskOf gone) } }
    v.releaseRejoin s.now

def CmdKind.isColl : CmdKind → Bool | .coll .. => true | _ => false

/-- Does an engine still owe the team a result (R236)? DEDUCED, unsafe (log 15). -/
def State.owes (s : State) (t : TeamId) : Bool :=
  s.cmds.any (fun c => c.wave.team = t && !c.silent) || s.bins.any (fun b => b.calls.any fun c => c.wave.team = t)
    || s.remotes.any (fun r => r.wave.team = t)

/-- Frees the accumulator slots of a team; their GEN advances (R224). DEDUCED, unsafe (log 42). -/
def State.freeSlots (s : State) (t : TeamId) : State :=
  { s with
    acc := s.acc.map fun a =>
      if a.owner = some t then { a with owner := none, gen := a.gen + 1, data := [], poison := [] } else a,
    savedCtx := s.savedCtx.map fun c => { c with slots := c.slots.filter fun a => a.owner ≠ some t } }

/-- Unbinds the contexts of jobs whose last team on the cluster has ended (R223, R252). -/
def State.unbindIdle (s : State) : State :=
  { s with contexts := s.contexts.filter fun c =>
      s.teams.any (fun t => t.id.job = c.job && t.cluster = c.cluster && t.place ≠ .ended)
        || s.cmds.any (fun k => k.wave.team.job = c.job && k.cluster = c.cluster && !k.silent) }

/-- Has every other team of the cohort completed a later CBAR than this one's last, or exited (R154)? -/
def State.heldDone (s : State) (t : Team) : Bool :=
  s.teams.all fun u =>
    u.id = t.id || u.id.job ≠ t.id.job || u.cohort ≠ t.cohort || u.place = .ended || u.cbarGen > t.cbarGen

/-- Does an uncommitted run hold a checked peer store to the team's scratchpad (R154)? DEDUCED, unsafe (log 15). -/
def State.peerStorePending (s : State) (t : TeamId) : Bool :=
  s.runs.any fun r => r.wave.team ≠ t && r.stores.any fun e => match e.loc with | .scr u _ => u = t | _ => false

/-- Has a team an unexited thread in a wave with a slot (R22)? -/
def Team.hasSlot (t : Team) : Bool := t.waves.any fun w => w.isLive && w.slot.isSome

/-- Uncommitted runs of a team abort (R201). -/
def State.abortTeam (s : State) (t : TeamId) : State :=
  let s := s.dropRuns fun r => r.wave.team = t
  { s with
    remotes := s.remotes.filter fun x => !(x.wave.team = t && !x.write) }

/-- A wave leaves its slot; its uncommitted runs abort. -/
def State.parkWave (s : State) (w : WaveId) : State :=
  let s := s.dropRuns fun r => r.wave = w
  { s with remotes := s.remotes.filter fun x => !(x.wave = w && !x.write) }.modWave w fun v => { v with slot := none }

/-- A team leaves its core's slots, to be parked or swapped: its runs abort, its stream ownership ends, and its operations
there wait for it again (R201, R209). -/
def State.unplace (s : State) (t : TeamId) (p : Place) : State :=
  (s.abortTeam t).modTeam t fun u =>
    { u with
      place := p, owner := false,
      since := if p = .parked then u.since else s.now,
      waves := u.waves.map fun (w : Wave) => { w with slot := none },
      waiters := u.waiters.map fun (x : Waiter) => { x with owned := x.op = .rdv } }

/-- The teams of a cohort that have not ended. -/
def State.cohortTeams (s : State) (job cohort : Nat) : List Team :=
  s.teams.filter fun t => t.id.job = job && t.cohort = cohort && t.place ≠ .ended

/-- The resident teams of a cohort are parked together (R154). -/
def State.parkCohort (s : State) (job cohort : Nat) : State :=
  ((s.cohortTeams job cohort).filter fun t => t.place = .resident).foldl (fun s t => s.unplace t.id .parked) s

/-- A team none of whose unexited waves holds a slot any more is parked (R22), with its cohort.
DEDUCED, unsafe (log 67). -/
def State.parkStranded (s : State) : State :=
  (s.teams.filter fun t => t.place = .resident && t.isLive && !t.hasSlot).foldl
    (fun s t => s.parkCohort t.id.job t.cohort) s

/-- Ends the teams whose last thread has exited and whose commands have completed (R154, R209, R224, R236), and
releases held scratchpads whose cohort has moved on. DEDUCED, unsafe (log 15). -/
def State.settle (s : State) : State :=
  let ended := s.teams.filter fun t =>
    t.place ≠ .ended && !t.isLive && !s.owes t.id && t.stream.st = .idle && !s.peerStorePending t.id
  let s := ended.foldl
    (fun s t =>
      let s := s.modTeam t.id fun t =>
        { t with
          place := .ended, since := s.now, owner := false, stream := Stream.idle, waiters := [], waves := [],
          scrState := if t.cbarHold then .held else .released,
          scr := if t.cbarHold then t.scr else ⟨[]⟩ }
      s.freeSlots t.id) s
  let release := fun (t : Team) =>
    if t.scrState = .held && (!t.cbarHold || s.heldDone t) && !s.peerStorePending t.id then
      { t with scrState := .released, scr := ⟨[]⟩ }
    else t
  { s with teams := s.teams.map release }.unbindIdle.parkStranded

/-- Waves whose threads have all gone leave the team's indexes (R43). -/
def State.dropWaves (s : State) (t : TeamId) : State :=
  s.modTeam t fun u => { u with waves := u.waves.filter fun w => w.isLive }

end Sys2Proof.Machine
end

