-- ==== Sys2Proof/Machine/Image.lean ====
section
/-!
DEFINITION. Images in the save area: writing them (R201, R206, R326), what restoration (R204) and a resumed debugger stop
(R327) take back, and what a completion for a saved team changes there (R69, R204). A dword of an image that still is what
the device wrote tells nothing new, so that the register it stands for keeps what it holds, its poison too.
-/

namespace Sys2Proof.Machine

open Sys2Proof

/-! ## Fields of an image, each beside the bytes that the device wrote there -/

def dwordAt (bs : List Byte) (o : Nat) : Word := w64 (natLE ((bs.drop o).take 8))

/-- Has a dword been written since the device wrote it? -/
def changedAt (bs was : List Byte) (o : Nat) : Bool := dwordAt bs o ≠ dwordAt was o

/-- A dword as the image has it, or what stands for it where nobody has written it. -/
def dwordOr (bs was : List Byte) (o : Nat) (old : Word) : Word := if changedAt bs was o then dwordAt bs o else old

def valAt (bs was : List Byte) (o : Nat) (old : Val) : Val := if changedAt bs was o then ⟨dwordAt bs o, 0⟩ else old

def loopAt (bs was : List Byte) (o : Nat) (old : Loop) : Loop :=
  let v := dwordAt bs (o + 8)
  if changedAt bs was o || changedAt bs was (o + 8) then
    { start := dwordAt bs o, stop := dwordAt bs o + w64 (4 * bits v 62 32), count := w32 (low32 v), active := v.getLsbD 63 }
  else old

/-- Bytes with those that differ from what the device wrote put over them. -/
def mergeBytes (m : Memory) (bs was : List Byte) : Memory :=
  (((bs.zip was).zip (List.range bs.length)).filter fun p => p.1.1 ≠ p.1.2).foldl (fun m p => m.write p.2 p.1.1) m

/-! ## Records -/

/-- A thread as its record in an image says (R203, R206); bits that a register reserves stay 0 (R8). `snap` is what the
image holds where the record says its snapshot is. DESIGN CHOICE, unsafe (log 20). -/
def threadOf (named : Nat) (bs was snap snapWas : List Byte) (t : Thread) : Thread :=
  let at_ := dwordOr bs was
  let small := fun (o : Nat) (mask old : W32) => w32 (low32 (at_ o (old.zeroExtend 64))) &&& mask
  let inside := if changedAt bs was 120 then (dwordAt bs 120).getLsbD 0 else t.inHandler
  { t with
    pc := at_ 0 t.pc,
    regs := { t.regs with
      m := if changedAt bs was 8 then
          t.regs.m.mapFinIdx fun i v _ => if i = 0 then v else BitVec.ofNat 8 (subN 8 (dwordAt bs 8) (i - 1))
        else t.regs.m,
      lc := t.regs.lc.mapFinIdx fun i l _ => loopAt bs was (16 + 16 * i) l,
      fpstat := small 80 0x1F t.regs.fpstat, fpen := small 88 0x1F t.regs.fpen, gstat := small 96 0x101 t.regs.gstat,
      q := t.regs.q.mapFinIdx fun i v _ => valAt bs was (128 + 8 * i) v,
      n := t.regs.n.mapFinIdx fun i v _ => if i < named then valAt bs was (256 + 8 * i) v else v },
    cause := w32 (low32 (at_ 104 (t.cause.zeroExtend 64))), epc := at_ 112 t.epc, inHandler := inside,
    snapshot := if !inside then t.snapshot
      else if changedAt bs was 120 then Vector.ofFn fun i : Fin 16 => ⟨dwordAt snap (8 * i.val), 0⟩
      else t.snapshot.mapFinIdx fun i v _ => valAt snap snapWas (8 * i) v }

/-- The rejoin entries of a wave record; which threads have arrived stays on the die. -/
def rejoinOf (bs was : List Byte) (old : List Rejoin) : List Rejoin :=
  if (bs.take 128) = (was.take 128) then old
  else
    (List.range 8).filterMap fun k =>
      let mask : LaneMask := BitVec.ofNat 32 (natLE ((bs.drop (16 * k + 8)).take 4))
      let time := natLE ((bs.drop (16 * k + 12)).take 4)
      if mask = 0 then none
      else some
        { mask := mask, target := dwordAt bs (16 * k), arrived := ((old[k]?).map fun e => e.arrived).getD 0,
          timer := if time / 2 ^ 31 = 1 then some (time % 2 ^ 31) else none }

/-- The WSYNC groups that a wave record names by lane. -/
def groupsOf (bs was : List Byte) (old : List LaneMask) : List LaneMask :=
  let of := fun (x : List Byte) => (x.drop 152).take 32
  if of bs = of was then old
  else
    ((List.range 32).map fun k => maskWhere fun l => ((of bs).getD l.val 0).toNat = k + 1).filter fun g => g ≠ 0

/-- A wave as its record says. -/
def waveOf (bs was : List Byte) (w : Wave) : Wave :=
  { w with
    rejoin := rejoinOf bs was w.rejoin, joins := (low32 (dwordOr bs was 128 (w64 w.joins))),
    cmds := w32 (low32 (dwordOr bs was 136 (w.cmds.zeroExtend 64))), rx := dwordOr bs was 144 (if w.rx then 1 else 0) ≠ 0,
    groups := groupsOf bs was w.groups }

/-- Queue entries as a team record has them, from a byte on, and where they end. -/
def entriesOf (bs : List Byte) : Nat → Nat → List (List Val) × Nat
  | 0, o => ([], o)
  | n + 1, o =>
    let k := min 32 (dwordAt bs o).toNat
    let e : List Val := (List.range k).map fun i => ⟨dwordAt bs (o + 8 + 8 * i), 0⟩
    let (rest, o') := entriesOf bs n (o + 8 + 8 * k)
    (e :: rest, o')

/-- The four data queues that a team record holds, one after another, and where they end. -/
def queuesOf (bs : List Byte) : Vector (List (List Val)) 4 × Nat :=
  let len := fun (k : Nat) => min 1088 (low32 (dwordAt bs (224 + 8 * k)))
  let q0 := entriesOf bs (len 0) (264 + 16 * (dwordAt bs 256).toNat)
  let q1 := entriesOf bs (len 1) q0.2
  let q2 := entriesOf bs (len 2) q1.2
  let q3 := entriesOf bs (len 3) q2.2
  (#v[q0.1, q1.1, q2.1, q3.1], q3.2)

/-- A team as its record says. -/
def teamOf (bs was : List Byte) (t : Team) : Team :=
  let queues := fun (x : List Byte) => (x.take (queuesOf was).2).drop 224
  { t with
    sem := t.sem.mapFinIdx fun i v _ =>
      let of := fun (x : List Byte) => (x.drop (2 * i)).take 2
      if of bs = of was then v else natLE (of bs),
    stream := { t.stream with
      a := t.stream.a.mapFinIdx fun i v _ => dwordOr bs was (16 + 8 * i) v,
      loops := t.stream.loops.mapFinIdx fun i l _ => loopAt bs was (144 + 16 * i) l,
      cursor := if changedAt bs was 208 then (dwordAt bs 208).toNat else t.stream.cursor },
    cbarHold := if changedAt bs was 216 then (dwordAt bs 216).getLsbD 0 else t.cbarHold,
    cbarAsked := if changedAt bs was 216 then (dwordAt bs 216).getLsbD 1 else t.cbarAsked,
    dqCap := t.dqCap.mapFinIdx fun i v _ =>
      if changedAt bs was (224 + 8 * i) then high32 (dwordAt bs (224 + 8 * i)) else v,
    dq := if queues bs = queues was then t.dq else (queuesOf bs).1 }

/-! ## Taking an image back (R204, R327) -/

/-- A thread that comes to stand at a header stands at that block's start (R35). -/
def State.fixBlocks (s : State) (w : WaveId) (m : LaneMask) : State :=
  let c := s.xctx w
  s.modLanes w m fun _ t => if s.isH c t.pc then { t with blk := t.pc } else t

/-- Bytes of a team's image, as it stands and as the device wrote it. -/
def State.imageAt (s : State) (t : Team) (part : Nat) (e : DirEntry) (o n : Nat) : List Byte × List Byte :=
  (s.saveRead part t.cluster (e.off + o) n, (t.written.drop o).take n)

/-- The threads of a mask take their registers, and their wave its RX, from the team's image (R327).
DESIGN CHOICE, unsafe (log 20). -/
def State.readThreads (s : State) (w : WaveId) (m : LaneMask) (part named : Nat) : State :=
  let t := s.team w.team
  match s.imageOf t part with
  | none => s
  | some e =>
    if w.wave ≥ t.writtenWaves then s
    else
      let get := s.imageAt t part e
      let len := t.writtenLen
      let rx := get (waveAt len named w.wave + 144) 8
      let s' := s.modLanes w m fun l th =>
        let r := get (threadAt len named w.wave l) (threadRec named)
        let snap := get (high32 (dwordAt r.1 120)) 128
        threadOf named r.1 r.2 snap.1 snap.2 th
      (s'.modWave w fun v => if rx.1 = rx.2 then v else { v with rx := rx.1.any fun b => b ≠ 0 }).fixBlocks w m

/-- Shadow bytes put back behind the addresses they belong to (R187). -/
def Stream.reshadow (x : Stream) (bs : List Byte) : Stream :=
  { x with shadow := (x.shadow.zip (List.range x.shadow.length)).map fun p => (p.1.1, bs.getD p.2 p.1.2) }

/-- The cursors of a team's copies, from its record. -/
def State.readCursors (s : State) (t : TeamId) (bs was : List Byte) : State :=
  (List.range (dwordAt was 256).toNat).foldl
    (fun s i =>
      let o := 264 + 16 * i
      if !changedAt bs was (o + 8) then s
      else { s with cmds := s.cmds.map fun (x : Cmd) =>
        if x.wave.team = t && w64 x.id = dwordAt was o then
          match x.kind with
          | .copy k => { x with kind := .copy { k with cursor := (dwordAt bs (o + 8)).toNat } }
          | _ => x
        else x }) s

/-- The shadows of a team, of its stream program and then of each copy, where somebody has written them (R206). -/
def State.readShadows (s : State) (t : Team) (bs was : List Byte) : State :=
  if bs = was || bs.length ≠ (s.shadowBytes t).length then s
  else
    let s := s.modTeam t.id fun u => { u with stream := u.stream.reshadow bs }
    ((s.copiesIn t.id).foldl
      (fun (a : Nat × State) c =>
        (a.1 + c.2.shadow.length,
         { a.2 with cmds := a.2.cmds.map fun (x : Cmd) =>
            if x.id = c.1 then { x with kind := .copy { c.2 with shadow := (bs.drop a.1).take c.2.shadow.length } } else x }))
      (t.stream.shadow.length, s)).2

/-- A team whole, as its image says: threads, waves, the team record, the scratchpad and shadows (R204, R327). What engines
have changed since, where nobody has written the image, stays. DESIGN CHOICE, unsafe (log 20). -/
def State.readTeam (s : State) (id : TeamId) (part named : Nat) : State :=
  let t := s.team id
  match s.imageOf t part with
  | none => s
  | some e =>
    let get := s.imageAt t part e
    let len := t.writtenLen
    let scrOff := waveAt len named t.writtenWaves
    let scr := get scrOff t.scrSize
    let shadow := get (scrOff + t.scrSize) (natLE ((t.written.drop 24).take 4) - t.scrSize)
    let rec_ := get 128 len
    let s := (t.waves.filter fun v => v.idx < t.writtenWaves).foldl
      (fun s v =>
        let w : WaveId := { team := id, wave := v.idx, uid := v.uid }
        let r := get (waveAt len named v.idx) 256
        (s.readThreads w v.liveMask part named).modWave w fun v => waveOf r.1 r.2 v) s
    let s := (s.readCursors id rec_.1 rec_.2).readShadows t shadow.1 shadow.2
    s.modTeam id fun u => { teamOf rec_.1 rec_.2 u with scr := mergeBytes u.scr scr.1 scr.2 }

/-! ## Writing an image (R201, R206, R326) -/

/-- Has a team an unanswered stop? Its image then stays in the save area, with STOP = 1 (R326, R327). -/
def State.hasStop (s : State) (t : TeamId) : Bool :=
  s.tickets.any fun k => k.stop && (match k.who with | .threads v _ => v.team = t | _ => false)

/-- A record with the dwords over it that somebody has written in another. -/
def mergeDwords (bs was new : List Byte) : List Byte :=
  (List.range (new.length / 8)).flatMap fun i =>
    if changedAt bs was (8 * i) then (bs.drop (8 * i)).take 8 else (new.drop (8 * i)).take 8

/-- The record of a wave or a thread with what a debugger has changed in the image that stands. -/
def State.keptRec (s : State) (t : Team) (part named : Nat) (held : Nat → Fin 32 → Bool) (w : Nat) (l : Option (Fin 32))
    (new : List Byte) : List Byte :=
  match s.imageOf t part with
  | some e =>
    let at_ := match l with
      | some l => (held w l, threadAt t.writtenLen named w l)
      | none => (lanesAll.any (held w), waveAt t.writtenLen named w)
    if at_.1 && w < t.writtenWaves then
      let r := s.imageAt t part e at_.2 new.length
      mergeDwords r.1 r.2 new
    else new
  | none => new

/-- The image is gone: its entry is cleared (R206). -/
def State.dropImage (s : State) (t : Team) (part : Nat) : State :=
  match t.image with
  | some i =>
    (s.setDir part t.cluster i { s.dirEntry part t.cluster i with valid := false }).modTeam t.id fun u =>
      { u with image := none, written := [] }
  | none => s

/-- An image leaves the save area for parking space, in which the team's contents stand as they are (R206, R292). -/
def State.evictImage (s : State) (t : TeamId) (part : Nat) : State :=
  let s := s.readTeam t part (s.job t.job).card.named
  s.dropImage (s.team t) part

/-- The images of a cluster moved together, in the order in which they lie. -/
def State.packImages (s : State) (part cluster : Nat) : State :=
  let es := ((List.range 768).map fun i => (i, s.dirEntry part cluster i)).filter fun e => e.2.valid && e.2.kind = 0
  ((sortOn (fun e => e.2.off) es).foldl
    (fun (a : Nat × State) e =>
      (a.1 + 128 * e.2.lines,
       (a.2.saveWrite part cluster a.1 (a.2.saveRead part cluster e.2.off (128 * e.2.lines))).setDir part cluster e.1
         { e.2 with off := a.1 })) (0, s)).2

/-- Room for an image of n bytes: where there is no stretch, images of parked teams go to parking space, and then those that
are left move together (R201, R206, R292). DESIGN CHOICE, unsafe (log 20). -/
def State.makeRoom (s : State) (part cluster n : Nat) : State :=
  if (s.imageHole part cluster n).isSome then s
  else
    let s := (s.teams.filter fun t => t.cluster = cluster && t.image.isSome && !s.hasStop t.id).foldl
      (fun s t => if (s.imageHole part cluster n).isSome then s else s.evictImage t.id part) s
    if (s.imageHole part cluster n).isSome then s else s.packImages part cluster

/-- Writes a team's image and its directory entry, in place of the image it has. Answers the image's save offset. `held` are
threads whose record an image has already. Contents that are longer than all the room there is stay in parking space.
DESIGN CHOICE, unsafe (log 20). -/
def State.writeImage (s : State) (t : Team) (part named : Nat) (stop : Bool) (held : Nat → Fin 32 → Bool) : Nat × State :=
  let bs := s.imageBytes named t (s.keptRec t part named held)
  let own := s.imageBytes named t fun _ _ r => r
  let n := roundUp bs.length 128
  let s := (s.dropImage t part).makeRoom part t.cluster n
  match s.freeEntry part t.cluster, s.imageHole part t.cluster n with
  | some i, some off =>
    let e : DirEntry :=
      { job := t.id.job, team := t.id.team, off := off, lines := ceilDiv bs.length 128, core := t.core, kind := 0,
        stop := stop, valid := true }
    (off, ((s.setDir part t.cluster i e).saveWrite part t.cluster off bs).modTeam t.id fun u =>
      { u with image := some i, written := own })
  | _, _ => (0, s)

/-! ## Changes of a saved team (R69, R199, R204) -/

/-- Dwords of a record that a change of the state alters are altered in the image too, as the device's own. -/
def State.saveDiff (s : State) (t : TeamId) (part cluster base o : Nat) (old new : List Byte) : State :=
  (List.range (new.length / 8)).foldl
    (fun s i =>
      if dwordAt old (8 * i) = dwordAt new (8 * i) then s
      else
        let bs := (new.drop (8 * i)).take 8
        (s.saveWrite part cluster (base + o + 8 * i) bs).modTeam t fun u => { u with written := patch u.written (o + 8 * i) bs }) s

/-- What a completion changes in a thread and its wave reaches the image of a team that is saved (R69, R204). -/
def State.imaged (s old : State) (w : WaveId) (l : Fin 32) : State :=
  let t := s.team w.team
  let j := s.job w.team.job
  match s.imageOf t j.part with
  | none => s
  | some e =>
    if w.wave ≥ t.writtenWaves then s
    else
      let len := t.writtenLen
      let named := j.card.named
      (s.saveDiff w.team j.part t.cluster e.off (threadAt len named w.wave l)
          (threadBytes named 0 (old.thread w l)) (threadBytes named 0 (s.thread w l))).saveDiff
        w.team j.part t.cluster e.off (waveAt len named w.wave) (waveBytes (old.wave w)) (waveBytes (s.wave w))

/-- The same for threads of a wave. -/
def State.reimaged (s old : State) (w : WaveId) (m : LaneMask) : State :=
  (lanesOf m).foldl (fun t l => t.imaged old w l) s

end Sys2Proof.Machine
end

