-- ==== Sys2Proof/Machine/Num.lean ====
section
/-!
DEFINITION. Numbers: the formats of R126, R131 to R133 as exact values, the one rounding of R128, R137 to R140, the
exact sums of R146, and the functions of R148.
-/

namespace Sys2Proof.Machine

open Sys2Proof

/-- `fpstat` bit masks (R129). -/
abbrev Flags := BitVec 5
def Flags.nv : Flags := 1
def Flags.dz : Flags := 2
def Flags.of : Flags := 4
def Flags.uf : Flags := 8
def Flags.nx : Flags := 16

/-- A float format: exponent and fraction widths, and whether it has infinities and NaNs (R126, R131). -/
structure Fmt where
  eb   : Nat
  mb   : Nat
  ieee : Bool
  deriving DecidableEq, Repr

def Fmt.f64 : Fmt := ⟨11, 52, true⟩
def Fmt.f32 : Fmt := ⟨8, 23, true⟩
def Fmt.f16 : Fmt := ⟨5, 10, true⟩
def Fmt.bf16 : Fmt := ⟨8, 7, true⟩
def Fmt.e4m3 : Fmt := ⟨4, 3, false⟩
def Fmt.e5m2 : Fmt := ⟨5, 2, false⟩
def Fmt.e2m1 : Fmt := ⟨2, 1, false⟩

def Fmt.ofF : FTy → Fmt
  | .f64 => .f64 | .f32 => .f32 | .f16 => .f16 | .bf16 => .bf16

def Fmt.width (f : Fmt) : Nat := 1 + f.eb + f.mb
def Fmt.bias (f : Fmt) : Nat := 2 ^ (f.eb - 1) - 1
def Fmt.signBit (f : Fmt) (neg : Bool) : Nat := if neg then 2 ^ (f.eb + f.mb) else 0
/-- The largest exponent field of a finite number. -/
def Fmt.maxExp (f : Fmt) : Nat := if f.ieee then 2 ^ f.eb - 2 else 2 ^ f.eb - 1
def Fmt.largest (f : Fmt) (neg : Bool) : Nat := f.signBit neg + f.maxExp * 2 ^ f.mb + (2 ^ f.mb - 1)
def Fmt.inf (f : Fmt) (neg : Bool) : Nat := f.signBit neg + (2 ^ f.eb - 1) * 2 ^ f.mb
/-- The canonical quiet NaN (R127). -/
def Fmt.nan (f : Fmt) : Nat := (2 ^ f.eb - 1) * 2 ^ f.mb + 2 ^ (f.mb - 1)

/-- A value that a float code stands for; `fin neg m e` is ±m × 2^e, and keeps the sign of a zero. -/
inductive Fp where
  | nan (signalling : Bool)
  | inf (neg : Bool)
  | fin (neg : Bool) (m : Nat) (e : Int)
  deriving DecidableEq, Repr

/-- The value of a code (R126, R131). -/
def Fmt.decode (f : Fmt) (v : Nat) : Fp :=
  let frac := v % 2 ^ f.mb
  let ex := v / 2 ^ f.mb % 2 ^ f.eb
  let neg := v / 2 ^ (f.eb + f.mb) % 2 = 1
  if f.ieee && ex = 2 ^ f.eb - 1 then
    if frac = 0 then .inf neg else .nan (frac < 2 ^ (f.mb - 1))
  else if ex = 0 then .fin neg frac (1 - (f.bias : Int) - f.mb)
  else .fin neg (2 ^ f.mb + frac) ((ex : Int) - f.bias - f.mb)

/-- Rounding modes: RM (R79), or a draw of 32 bits (R138). -/
inductive Mode where
  | ne | tz | dn | up | draw (r : Nat)
  deriving DecidableEq, Repr

def Mode.ofRm : Rm → Mode
  | .ne => .ne | .tz => .tz | .dn => .dn | .up => .up

def shl (n : Nat) (k : Int) : Nat := n * 2 ^ k.toNat

/-- The integer nearest n / d in a mode, of a value with the given sign, and whether it was changed (R137, R138). -/
def roundNat (m : Mode) (neg : Bool) (n d : Nat) : Nat × Bool :=
  let q := n / d
  let r := n % d
  if r = 0 then (q, false)
  else
    let up := match m with
      | .ne => 2 * r > d || (2 * r = d && q % 2 = 1)
      | .tz => false
      | .dn => neg
      | .up => !neg
      | .draw x => x < r * 2 ^ 32 / d
    (if up then q + 1 else q, true)

/-- floor (log2 (n / d)) for positive n and d. -/
def log2Div (n d : Nat) : Int :=
  let l : Int := (n.log2 : Int) - d.log2
  if d * 2 ^ l.toNat ≤ n * 2 ^ (-l).toNat then l else l - 1

/-- A rounded code and the flags of the rounding. -/
structure Rnd where
  bits  : Nat
  flags : Flags
  deriving DecidableEq, Repr

/-- Overflow of a finite value (R128, R138, R139). -/
def Fmt.overflow (f : Fmt) (m : Mode) (neg : Bool) : Rnd :=
  let toInf := match m with
    | .ne => true | .draw _ => true | .tz => false | .dn => neg | .up => !neg
  { bits := if f.ieee && toInf then f.inf neg else f.largest neg, flags := Flags.of ||| Flags.nx }

/-- Is a value with binary exponent `e` tiny after rounding (R129, IEEE 754-2019 7.5; R139 for a narrow format, whose
rounded result has the exponent field `ef`)? -/
def Fmt.tiny (f : Fmt) (m : Mode) (neg : Bool) (n d : Nat) (x e : Int) (ef : Nat) : Bool :=
  if !f.ieee then ef = 0
  else
    let emin : Int := 1 - f.bias
    if e < emin - 1 then true
    else if e = emin - 1 then
      let q := e - f.mb
      (roundNat m neg (shl n (x - q)) (shl d (q - x))).1 < 2 ^ (f.mb + 1)
    else false

/-- ±n/d × 2^x rounded once to a format (R128, R137 to R139). A zero keeps its sign. -/
def Fmt.round (f : Fmt) (m : Mode) (neg : Bool) (n d : Nat) (x : Int) : Rnd :=
  if n = 0 then { bits := f.signBit neg, flags := 0 }
  else
    let e := log2Div n d + x
    let q := max e (1 - (f.bias : Int)) - f.mb
    let (k, inexact) := roundNat m neg (shl n (x - q)) (shl d (q - x))
    let (k, q) := if k = 2 ^ (f.mb + 1) then (2 ^ f.mb, q + 1) else (k, q)
    let ef := if k < 2 ^ f.mb then 0 else (q + f.mb + f.bias).toNat
    if ef > f.maxExp then f.overflow m neg
    else
      { bits := f.signBit neg + ef * 2 ^ f.mb + k % 2 ^ f.mb,
        flags := if inexact then
            (if f.tiny m neg n d x e ef then Flags.nx ||| Flags.uf else Flags.nx) else 0 }

/-- ±n/d × 2^x rounded and saturated to an integer of w bits (R140; R138 for a draw): the low w bits. -/
def roundInt (w : Nat) (signed : Bool) (m : Mode) (neg : Bool) (n d : Nat) (x : Int) : Rnd :=
  let (k, inexact) := roundNat m neg (shl n x) (shl d (-x))
  let v : Int := if neg then -(k : Int) else k
  let lo : Int := if signed then -(2 ^ (w - 1) : Nat) else 0
  let hi : Int := if signed then (2 ^ (w - 1) : Nat) - 1 else (2 ^ w : Nat) - 1
  let wrap := fun (i : Int) => (i % (2 ^ w : Nat)).toNat
  if v < lo || v > hi then
    { bits := wrap (if v < lo then lo else hi),
      flags := match m with | .draw _ => Flags.of ||| Flags.nx | _ => Flags.nv }
  else { bits := wrap v, flags := if inexact then Flags.nx else 0 }

/-- A value converted to a float format (R127, R128, R139). -/
def Fmt.convert (f : Fmt) (m : Mode) (v : Fp) : Rnd :=
  match v with
  | .nan s => if f.ieee then { bits := f.nan, flags := if s then Flags.nv else 0 } else { bits := 0, flags := Flags.nv }
  | .inf neg => if f.ieee then { bits := f.inf neg, flags := 0 } else { bits := f.largest neg, flags := Flags.of }
  | .fin neg k e => f.round m neg k 1 e

/-- A value converted to an integer type (R140). -/
def toInt (w : Nat) (signed : Bool) (m : Mode) (v : Fp) : Rnd :=
  match v with
  | .nan _ => { bits := 0, flags := Flags.nv }
  | .inf neg =>
    { bits := if neg then (if signed then 2 ^ (w - 1) else 0)
        else (if signed then 2 ^ (w - 1) - 1 else 2 ^ w - 1),
      flags := Flags.nv }
  | .fin neg k e => roundInt w signed m neg k 1 e

/-! ## Exact arithmetic -/

/-- m × 2^e. -/
structure Dy where
  m : Int
  e : Int
  deriving DecidableEq, Repr

def Dy.add (a b : Dy) : Dy :=
  let e := min a.e b.e
  { m := a.m * (2 ^ (a.e - e).toNat : Nat) + b.m * (2 ^ (b.e - e).toNat : Nat), e := e }

def Dy.mul (a b : Dy) : Dy := { m := a.m * b.m, e := a.e + b.e }

/-- Sign of an exact value: -1, 0 or 1. -/
def Dy.sign (a : Dy) : Int := a.m.sign

def Dy.lt (a b : Dy) : Bool := (a.add { b with m := -b.m }).m < 0
def Dy.eq (a b : Dy) : Bool := (a.add { b with m := -b.m }).m = 0
def Dy.neg (a : Dy) : Dy := { a with m := -a.m }

def Fp.dy : Fp → Dy
  | .fin neg m e => { m := if neg then -(m : Int) else m, e := e }
  | _ => { m := 0, e := 0 }

def Fp.isNan : Fp → Bool | .nan _ => true | _ => false
def Fp.isSnan : Fp → Bool | .nan s => s | _ => false
def Fp.isInf : Fp → Bool | .inf _ => true | _ => false
def Fp.neg : Fp → Bool | .nan _ => false | .inf n => n | .fin n _ _ => n
def Fp.isZero : Fp → Bool | .fin _ m _ => m = 0 | _ => false
def Fp.negate : Fp → Fp | .nan s => .nan s | .inf n => .inf (!n) | .fin n m e => .fin (!n) m e

/-- An exact dyadic rounded; an exact zero gets the sign `z`. -/
def Fmt.roundDy (f : Fmt) (m : Mode) (v : Dy) (z : Bool) : Rnd :=
  f.round m (if v.m = 0 then z else v.m < 0) v.m.natAbs 1 v.e

def nvIf (b : Bool) : Flags := if b then Flags.nv else 0

/-- A NaN result: the canonical NaN, with NV when it arises here or an operand signals (R127, R129). -/
def Fmt.nanRnd (f : Fmt) (invalid : Bool) : Rnd := { bits := f.nan, flags := nvIf invalid }

/-- The sign of an exact zero sum of two values (R389): x − x is +0 but in mode down. -/
def zeroSum (m : Mode) (n₁ n₂ : Bool) : Bool := if n₁ = n₂ then n₁ else m = .dn

/-- a + b rounded once (R128, R389). -/
def Fmt.add (f : Fmt) (m : Mode) (a b : Fp) : Rnd :=
  match a, b with
  | .nan s, y => f.nanRnd (s || y.isSnan)
  | _, .nan s => f.nanRnd s
  | .inf n, .inf n' => if n = n' then { bits := f.inf n, flags := 0 } else f.nanRnd true
  | .inf n, _ => { bits := f.inf n, flags := 0 }
  | _, .inf n => { bits := f.inf n, flags := 0 }
  | .fin n₁ m₁ e₁, .fin n₂ m₂ e₂ =>
    f.roundDy m ((Fp.fin n₁ m₁ e₁).dy.add (Fp.fin n₂ m₂ e₂).dy) (zeroSum m n₁ n₂)

/-- a × b rounded once (R128, R389). -/
def Fmt.mul (f : Fmt) (m : Mode) (a b : Fp) : Rnd :=
  match a, b with
  | .nan s, y => f.nanRnd (s || y.isSnan)
  | _, .nan s => f.nanRnd s
  | .inf n, y => if y.isZero then f.nanRnd true else { bits := f.inf (n != y.neg), flags := 0 }
  | x, .inf n => if x.isZero then f.nanRnd true else { bits := f.inf (x.neg != n), flags := 0 }
  | .fin n₁ m₁ e₁, .fin n₂ m₂ e₂ => f.round m (n₁ != n₂) (m₁ * m₂) 1 (e₁ + e₂)

/-- a × b + c rounded once (R128, R389). -/
def Fmt.fma (f : Fmt) (m : Mode) (a b c : Fp) : Rnd :=
  let bad := (a.isInf && b.isZero) || (a.isZero && b.isInf)
  if a.isNan || b.isNan || c.isNan then f.nanRnd (bad || a.isSnan || b.isSnan || c.isSnan)
  else if bad then f.nanRnd true
  else
    let pn := a.neg != b.neg
    if a.isInf || b.isInf then
      if c.isInf && c.neg != pn then f.nanRnd true else { bits := f.inf pn, flags := 0 }
    else if c.isInf then { bits := f.inf c.neg, flags := 0 }
    else f.roundDy m ((a.dy.mul b.dy).add c.dy) (zeroSum m pn c.neg)

/-- Order of two values that are no NaNs, with −0 below +0 when `total` (R128), else −0 = +0 (R391). -/
def Fp.lt (total : Bool) (a b : Fp) : Bool :=
  match a, b with
  | .inf n, .inf n' => n && !n'
  | .inf n, _ => n
  | _, .inf n => !n
  | .fin n m e, .fin n' m' e' =>
    let x := (Fp.fin n m e).dy
    let y := (Fp.fin n' m' e').dy
    x.lt y || (total && x.m = 0 && y.m = 0 && n && !n')
  | _, _ => false

def Fp.same (a b : Fp) : Bool := !a.isNan && !b.isNan && !Fp.lt false a b && !Fp.lt false b a

/-- minimumNumber and maximumNumber over codes (R128, R389). -/
def Fmt.minmax (f : Fmt) (max : Bool) (a b : Nat) : Rnd :=
  let x := f.decode a
  let y := f.decode b
  let flags := nvIf (x.isSnan || y.isSnan)
  if x.isNan && y.isNan then { bits := f.nan, flags := flags }
  else if x.isNan then { bits := b, flags := flags }
  else if y.isNan then { bits := a, flags := flags }
  else if max then { bits := if Fp.lt true x y then b else a, flags := flags }
  else { bits := if Fp.lt true y x then b else a, flags := flags }

/-- a / b in the extended reals, converted by `k` from the sign and the exact quotient or by `v` (R144). -/
def divide (a b : Fp) (k : Bool → Nat → Nat → Int → Rnd) (v : Fp → Rnd) : Rnd :=
  match a, b with
  | .fin n m e, .fin n' m' e' => k (n != n') m m' (e - e')
  | .fin n _ _, .inf n' => v (.fin (n != n') 0 0)
  | .inf n, .fin n' _ _ => v (.inf (n != n'))
  | _, _ => v (.nan false)

/-- The sum of R146: addends below 2^(E − 120) truncated toward zero at that window, E the exponent of the largest. -/
def windowSum (ts : List Dy) : Dy :=
  let nz := ts.filter (fun t => t.m ≠ 0)
  match nz with
  | [] => { m := 0, e := 0 }
  | t :: rest =>
    let top := fun (t : Dy) => (t.m.natAbs.log2 : Int) + t.e
    let base := rest.foldl (fun acc t => max acc (top t)) (top t) - 120
    let cut := fun (t : Dy) =>
      if t.e ≥ base then t.m * (2 ^ (t.e - base).toNat : Nat)
      else t.m.sign * (t.m.natAbs / 2 ^ (base - t.e).toNat : Nat)
    { m := nz.foldl (fun acc t => acc + cut t) 0, e := base }

/-! ## Stochastic draws -/

def mix (x : Word) : Word :=
  let x := (x ^^^ (x >>> 30)) * 0xBF58476D1CE4E5B9
  let x := (x ^^^ (x >>> 27)) * 0x94D049BB133111EB
  x ^^^ (x >>> 31)

/-- The 32 bits of R138. -/
def draw (seed : Nat) (wid : Word) (j : Nat) : Nat :=
  (mix (wid + 0x9E3779B97F4A7C15 * BitVec.ofNat 64 (seed * 256 + j + 1))).toNat / 2 ^ 32

/-! ## Transcendentals (R148)

Every function below encloses the exact value between two integers over 2^prec; the two are rounded, and when they
round alike that is the correctly rounded result. -/

/-- DESIGN CHOICE, safe (log 3). -/
def prec : Nat := 704
/-- π and ln 2 truncated at 2^-704. -/
def piFix : Nat := 0x3243f6a8885a308d313198a2e03707344a4093822299f31d0082efa98ec4e6c89452821e638d01377be5466cf34e90c6cc0ac29b7c97c50dd3f84d5b5b54709179216d5d98979fb1bd1310ba698dfb5ac2ffd72dbd01adfb7
def ln2Fix : Nat := 0xb17217f7d1cf79abc9e3b39803f2f6af40f343267298b62d8a0d175b8baafa2be7b876206debac98559552fb4afa1b10ed2eae35c138214427573b291169b8253e96ca16224ae8c51acbda11317c387eb9ea9bc3b136603b

def fixMul (a b : Int) : Int := a * b / (2 ^ prec : Nat)

/-- Sum of a series with terms t_k = t_(k-1) × x × num k / den k, over k = 1 .. n. -/
def series (x : Int) (num den : Nat → Int) : Nat → Nat → Int → Int → Int
  | 0, _, _, acc => acc
  | n + 1, k, t, acc =>
    let t' := fixMul t x * num k / den k
    series x num den n (k + 1) t' (acc + t')

def fixOne : Int := (2 ^ prec : Nat)

/-- e^y for a fixed-point y in [0, 1). -/
def expFix (y : Int) : Int := series y (fun _ => 1) (fun k => k) 140 1 fixOne fixOne
/-- sin r and cos r for a fixed-point |r| ≤ 1. -/
def sinFix (r : Int) : Int :=
  let r2 := fixMul r r
  series r2 (fun _ => -1) (fun k => (2 * k) * (2 * k + 1)) 75 1 r r
def cosFix (r : Int) : Int :=
  let r2 := fixMul r r
  series r2 (fun _ => -1) (fun k => (2 * k - 1) * (2 * k)) 75 1 fixOne fixOne

/-- Sum of z^(2k+1) / (2k+1): the inverse hyperbolic tangent of |z| ≤ 1/3. -/
def atanhGo (z2 : Int) : Nat → Nat → Int → Int → Int
  | 0, _, _, acc => acc
  | n + 1, k, t, acc =>
    let t' := fixMul t z2
    atanhGo z2 n (k + 1) t' (acc + t' / (2 * k + 1))

def atanhFix (z : Int) : Int := atanhGo (fixMul z z) 230 1 z z

/-- m × 2^e as a fixed-point number, rounded down. -/
def toFix (v : Dy) : Int :=
  let s : Int := v.e + prec
  if s ≥ 0 then v.m * (2 ^ s.toNat : Nat) else v.m / (2 ^ (-s).toNat : Nat)

/-- The roundings of the two ends of an enclosure v ± 2^40 units, scaled by 2^k. DESIGN CHOICE, safe (log 3). -/
def Fmt.enclose (f : Fmt) (m : Mode) (v : Int) (k : Int) (free : Nat) : Rnd :=
  let err : Int := (2 ^ 40 : Nat)
  let one := fun (i : Int) => f.round m (i < 0) i.natAbs 1 (k - prec)
  if one (v - err) = one (v + err) && (v - err).sign = (v + err).sign then one v
  else { bits := free, flags := Flags.nx }

/-- Integer square root, one bit at a time from bit `k` down. -/
def isqrtGo (n : Nat) : Nat → Nat → Nat
  | 0, r => r
  | k + 1, r =>
    let c := r + 2 ^ k
    isqrtGo n k (if c * c ≤ n then c else r)

def isqrt (n : Nat) : Nat := isqrtGo n (n.log2 / 2 + 1) 0

/-- √(n/d × 2^x) rounded; the remainder of the root is kept as one more bit. -/
def Fmt.sqrtRnd (f : Fmt) (m : Mode) (n d : Nat) (x : Int) : Rnd :=
  let x' := if x % 2 = 0 then x else x - 1
  let n' := (if x % 2 = 0 then n else 2 * n) * 2 ^ 160
  let q := n' / d
  let s := isqrt q
  let exact := n' % d = 0 && s * s = q
  f.round m false (if exact then 2 * s else 2 * s + 1) 2 (x' / 2 - 80)

/-- 2^v for a finite v (R148). Values beyond any format's range stand for themselves by one beyond it. -/
def Fmt.exp2Rnd (f : Fmt) (m : Mode) (v : Dy) (free : Nat) : Rnd :=
  let i := v.m * (2 ^ v.e.toNat : Nat) / (2 ^ (-v.e).toNat : Nat)
  if v.lt { m := -400, e := 0 } then { f.round m false 1 1 (-400) with flags := Flags.nx ||| Flags.uf }
  else if (Dy.mk 400 0).lt v then f.overflow m false
  else
    let frac := toFix (v.add { m := -i, e := 0 })
    if v.eq { m := i, e := 0 } then f.round m false 1 1 i
    else f.enclose m (expFix (fixMul frac ln2Fix)) i free

/-- log2 of n × 2^e, n > 0. -/
def Fmt.log2Rnd (f : Fmt) (m : Mode) (n : Nat) (e : Int) (free : Nat) : Rnd :=
  let l := n.log2
  let i : Int := l + e
  if n = 2 ^ l then f.round m (i < 0) i.natAbs 1 0
  else
    -- n / 2^l lies in (1, 2): z = (n - 2^l) / (n + 2^l)
    let z : Int := (n - 2 ^ l : Int) * fixOne / ((n : Int) + (2 ^ l : Nat))
    let ln := 2 * atanhFix z
    f.enclose m (i * fixOne + ln * fixOne / ln2Fix) 0 free

/-- sin and cos of m × 2^e by its distance from the nearest multiple of π/2, with the quadrant. -/
def reduce (v : Dy) : Nat × Int :=
  let x := toFix v
  let half : Int := piFix / 2
  let k := (2 * x + half) / (2 * half)
  ((k % 4).toNat, x - k * (piFix : Int) / 2)

def Fmt.sinRnd (f : Fmt) (m : Mode) (v : Dy) (cos : Bool) (free : Nat) : Rnd :=
  let (q, r) := reduce v
  let q := if cos then (q + 1) % 4 else q
  let y := match q with
    | 0 => sinFix r | 1 => cosFix r | 2 => -sinFix r | _ => -cosFix r
  -- an operand above 2^128 times the error of π would pass the enclosure: formats of R148 end below it
  let err : Int := (2 ^ 180 : Nat)
  let one := fun (i : Int) => f.round m (i < 0) i.natAbs 1 (-(prec : Int))
  if one (y - err) = one (y + err) && (y - err).sign = (y + err).sign then one y
  else { bits := free, flags := Flags.nx }

/-- e^y for a fixed-point y ≥ 0 below 128, as a fixed-point number and a power of two. -/
def expBig (y : Int) : Int × Int :=
  let k := y / ln2Fix
  (expFix (y - k * ln2Fix), k)

/-- tanh of a finite x ≠ 0: (e^2|x| − 1) / (e^2|x| + 1). -/
def Fmt.tanhRnd (f : Fmt) (m : Mode) (v : Dy) (free : Nat) : Rnd :=
  let neg := v.m < 0
  let a := if neg then v.neg else v
  let y := if (Dy.mk 60 0).lt a then fixOne - (2 ^ (prec - 80) : Nat)
    else
      let (p, k) := expBig (toFix { a with e := a.e + 1 })
      let ex := p * (2 ^ k.toNat : Nat)
      (ex - fixOne) * fixOne / (ex + fixOne)
  f.enclose m (if neg then -y else y) 0 free

/-- 1 / (1 + e^-x) for a finite x. -/
def Fmt.sigmRnd (f : Fmt) (m : Mode) (v : Dy) (free : Nat) : Rnd :=
  let neg := v.m < 0
  let a := if neg then v.neg else v
  if v.m = 0 then f.round m false 1 1 (-1)
  else if (Dy.mk 120 0).lt a then
    f.enclose m (if neg then (2 ^ (prec - 160) : Nat) else fixOne - (2 ^ (prec - 80) : Nat)) 0 free
  else
    let (p, k) := expBig (toFix a)
    let ex := p * (2 ^ k.toNat : Nat)
    f.enclose m (if neg then fixOne * fixOne / (fixOne + ex) else ex * fixOne / (fixOne + ex)) 0 free

/-- The nine functions of R392. DESIGN CHOICE, safe (log 3). -/
inductive TFn where
  | rcp | rsq | sqrt | exp2 | log2 | sin | cos | tanh | sigm
  deriving DecidableEq, Repr

def TFn.code : TFn → Nat
  | .rcp => 0 | .rsq => 1 | .sqrt => 2 | .exp2 => 3 | .log2 => 4 | .sin => 5 | .cos => 6 | .tanh => 7 | .sigm => 8

def Mode.code : Mode → Nat
  | .ne => 0 | .tz => 1 | .dn => 2 | .up => 3 | .draw _ => 4

/-- The value of a function at a code (R148, R392), special cases first. DESIGN CHOICE, safe (log 3). -/
def Fmt.transcend (f : Fmt) (fn : TFn) (m : Mode) (a : Nat) : Rnd :=
  let free := Config.transcendental fn.code f.width a m.code % 2 ^ f.width
  let ok := fun (b : Nat) => ({ bits := b, flags := 0 } : Rnd)
  match f.decode a with
  | .nan s => f.nanRnd s
  | .inf neg =>
    match fn with
    | .rcp => ok (f.signBit neg)
    | .rsq => if neg then f.nanRnd true else ok 0
    | .sqrt => if neg then f.nanRnd true else ok (f.inf false)
    | .log2 => if neg then f.nanRnd true else ok (f.inf false)
    | .exp2 => ok (if neg then 0 else f.inf false)
    | .sin | .cos => f.nanRnd true
    | .tanh => f.round m neg 1 1 0
    | .sigm => if neg then ok 0 else f.round m false 1 1 0
  | .fin neg k e =>
    let v := (Fp.fin neg k e).dy
    match fn with
    | .rcp => if k = 0 then { bits := f.inf neg, flags := Flags.dz } else f.round m neg 1 k (-e)
    | .rsq =>
      if k = 0 then { bits := f.inf neg, flags := Flags.dz }
      else if neg then f.nanRnd true else f.sqrtRnd m 1 k (-e)
    | .sqrt => if k = 0 then ok a else if neg then f.nanRnd true else f.sqrtRnd m k 1 e
    | .exp2 => f.exp2Rnd m v free
    | .log2 =>
      if k = 0 then { bits := f.inf true, flags := Flags.dz }
      else if neg then f.nanRnd true else f.log2Rnd m k e free
    | .sin => if k = 0 then ok a else f.sinRnd m v false free
    | .cos => if k = 0 then f.round m false 1 1 0 else f.sinRnd m v true free
    | .tanh => if k = 0 then ok a else f.tanhRnd m v free
    | .sigm => f.sigmRnd m v free

end Sys2Proof.Machine
end

