-- ==== Sys2Proof/Machine/Flags.lean ====
section
/-!
DEFINITION. Floating-point flags: what an instruction raises as FPX and what it leaves in `fpstat` at commit (R129,
R130), and the control registers 1 to 3 (R129, R262).
-/

namespace Sys2Proof.Machine

open Sys2Proof

/-- The flags of a lane that raise FPX: those whose enable is set, and OF and NV under a trapping slot (R130). -/
def fpxFlags (fpen : W32) (trap : Bool) (f : Flags) : Flags :=
  f &&& (fpen.truncate 5 ||| (if trap then Flags.of ||| Flags.nv else 0))

/-- Flags ORed into `fpstat` (R130). -/
def orFlags (fpstat : W32) (f : Flags) : W32 := fpstat ||| f.zeroExtend 32

/-- `fpstat`, `fpen` and `gstat` as CSRR reads them, by number (R129, R262). DEDUCED, unsafe (log 13). -/
def csrRead (r : Regs) (num : Nat) : W32 :=
  match num with
  | 1 => r.fpstat &&& 0x1F
  | 2 => r.fpen &&& 0x1F
  | 3 => r.gstat &&& 0x101
  | _ => 0

/-- A CSRW: reserved bits read 0 and ignore writes. DEDUCED, unsafe (log 13). -/
def csrWrite (r : Regs) (num : Nat) (v : W32) : Regs :=
  match num with
  | 1 => { r with fpstat := v &&& 0x1F }
  | 2 => { r with fpen := v &&& 0x1F }
  | 3 => { r with gstat := v &&& 0x101 }
  | _ => r

end Sys2Proof.Machine
end

