-- ==== Sys2Proof/Machine/Ops.lean ====
section
/-!
DEFINITION. Taking an exception as one shared operation (R33, R192, R193, R197 to R200), the return from one (R199,
R433), and the end of a terminated team (R200).
-/

namespace Sys2Proof.Machine

open Sys2Proof

/-- Fault and status codes (R192). -/
def Code.illegal : Nat := 1
def Code.badTarget : Nat := 2
def Code.priv : Nat := 3
def Code.align : Nat := 4
def Code.xlate : Nat := 5
def Code.prot : Nat := 6
def Code.poison : Nat := 7
def Code.peerGone : Nat := 8
def Code.dqDead : Nat := 9
def Code.accSlots : Nat := 10
def Code.gfwd : Nat := 11
def Code.gdepth : Nat := 12
def Code.gcap : Nat := 13
def Code.fpx : Nat := 14
def Code.trap : Nat := 15
def Code.wsetMiss : Nat := 16
def Code.engFault : Nat := 17

/-- A fault at an instruction: what its record says (R197). -/
structure Exc where
  code  : Nat
  sub   : Nat := 0
  addr  : Nat := 0
  lanes : LaneMask := 0
  enc   : List W32 := []
  slotw : Nat := 0
  marks : List (Nat × Bool) := []      -- leaves that failed walks used (R170)
  deriving DecidableEq, Repr

def XErr.code (e : XErr) : Nat := match e.kind with | .xlate => Code.xlate | _ => Code.prot

/-- Subcode: the stage for XLATE; kind and stage for PROT (R192). -/
def XErr.sub (e : XErr) : Nat := match e.kind with | .xlate => e.stage | .page => 1 + 4 * e.stage | .host => 2

def XErr.exc (e : XErr) (l : Fin 32) : Exc :=
  { code := e.code, sub := e.sub, addr := e.addr, lanes := laneBit l, marks := e.marks }

/-- The place of a fault in the order of R193. DEDUCED, unsafe (log 14). -/
def Exc.rank (e : Exc) : Nat :=
  if e.code = Code.align then 0
  else if e.code = Code.xlate then 1
  else if e.code = Code.prot then (if e.sub % 4 = 0 then 3 else 2)
  else if e.code = Code.peerGone then 4
  else if e.code = Code.poison then 5
  else 6

/-- The fault that is reported of those that lanes raise at one instruction: of the first code in the order, that of the
lowest lane (R193). DEDUCED, unsafe (log 14). -/
def firstExc (es : List (Fin 32 × Exc)) : Option Exc :=
  match es with
  | [] => none
  | e :: rest =>
    let best := rest.foldl
      (fun (b : Fin 32 × Exc) x => if x.2.rank < b.2.rank || (x.2.rank = b.2.rank && x.1 < b.1) then x else b) e
    some { best.2 with
      lanes := maskOf ((es.filter fun x => x.2.code = best.2.code).map fun x => x.1),
      marks := es.flatMap fun x => x.2.marks }

/-- Does R192 route the fault to parking and the fault queue, and not to a handler? -/
def Exc.parks (e : Exc) : Bool := e.code = Code.xlate || (e.code = Code.prot && e.sub % 4 ≠ 0)

/-! ## Termination -/

/-- The first code recorded is a job's status, and that of its draw (R200, R300). -/
def State.noteStatus (s : State) (job code : Nat) : State :=
  let s' := s.modJob job fun j => if j.status = 0 then { j with status := code } else j
  match (s.job job).draw with
  | some (d, _) =>
    { s' with draws := s'.draws.map fun (x : Draw) => if x.id = d && x.status = 0 then { x with status := code } else x }
  | none => s'

/-- Kills a team: threads, engine commands, tickets (R200); its scratchpad goes as soon as no run's checked store to it is
uncommitted (R154). A collective's exchange goes on (R322). -/
def State.terminate (s : State) (t : TeamId) (code : Nat) : State :=
  let team := s.team t
  let s := s.dropRuns fun r => r.wave.team = t
  let s := team.waves.foldl (fun s w => s.endThreads { team := t, wave := w.idx, uid := w.uid } w.liveMask .killed) s
  let s := s.modTeam t fun u =>
    { u with
      place := .ended, since := s.now, waves := [], waiters := [], stream := Stream.idle, owner := false,
      scrState := .held, cbarHold := false }
  let s := s.dropImage team (s.job t.job).part
  let s := { s with
    cmds := (s.cmds.filter fun (c : Cmd) => c.wave.team ≠ t || c.kind.isColl).map fun (c : Cmd) =>
      if c.wave.team = t then { c with silent := true, tok := none, ticket := none } else c,
    bins := (s.bins.map fun (b : Bin) => { b with calls := b.calls.filter fun c => c.wave.team ≠ t }).filter fun (b : Bin) =>
      !b.calls.isEmpty,
    remotes := s.remotes.filter fun r => r.wave.team ≠ t || r.write,
    tickets := s.tickets.filter fun k =>
      match k.who with
      | .threads w _ => w.team ≠ t
      | .command id => s.cmds.any fun c => c.id = id && c.wave.team ≠ t
      | .element id _ => s.cmds.any fun c => c.id = id && c.wave.team ≠ t
      | .stream u => u ≠ t
      | .streamElement u _ => u ≠ t,
    held := s.held.map fun (h : Held) =>
      match h.into with
      | some (w, _) => if w.team = t then { h with into := none } else h
      | none => h }
  let s := s.noteStatus t.job code
  (s.freeSlots t).settle

/-! ## Handlers -/

/-- Is a thread of a team stopped by a debugger, by a ticket of its own or with its team? -/
def State.debugHeld (s : State) (t : TeamId) (wave : Nat) (l : Fin 32) : Bool :=
  match (s.team t).waves.find? fun v => v.idx = wave with
  | none => false
  | some v => v.lanes[l].stopped || (match v.lanes[l].status with
      | .parked k => s.tickets.any fun x => x.num = k && x.stop
      | _ => false)

/-- Is every unexited thread of a team stopped? -/
def State.allStopped (s : State) (t : TeamId) : Bool :=
  (s.team t).waves.all fun v => (lanesOf v.liveMask).all (s.debugHeld t v.idx)

/-- A change of threads of a team reaches the image of the team, where it has one, and what a debugger has written there
of them counts (R199, R204, R327). -/
def State.inImage (s : State) (w : WaveId) (m : LaneMask) (f : State → State) : State :=
  let j := s.jobOf w
  match (s.team w.team).image with
  | none => f s
  | some _ =>
    let s := f (if s.allStopped w.team then s.readTeam w.team j.part j.card.named
      else s.readThreads w m j.part j.card.named)
    (s.writeImage (s.team w.team) j.part j.card.named (s.hasStop w.team)
      fun i l => s.debugHeld w.team i l && !(i = w.wave && LaneMask.has m l)).2

/-- The threads of a mask enter the user handler (R199). -/
def State.enterHandler (s : State) (w : WaveId) (m : LaneMask) (code sub : Nat) (epc : Word) : State :=
  let h := (s.jobOf w).card.handler
  s.inImage w m fun s => s.modLanes w m fun _ t =>
    { t with
      status := .ready, cause := w32 (code + sub * 2 ^ 16), epc := epc, snapshot := t.regs.q, inHandler := true,
      pc := h, next := h, blk := h, since := s.now, stepLatch := [] }

/-- The runs of a group leave the machine with everything they held, reads of other devices included (R33). -/
def State.abort (s : State) (w : WaveId) (m : LaneMask) : State :=
  let s := s.dropRuns fun r => r.wave = w && r.group &&& m ≠ 0
  { s with
    remotes := s.remotes.filter fun x => !(x.wave = w && !x.write && LaneMask.has m x.lane) }

/-- The words of the run that starts at `pc`: an instruction with E = 1, the block's end or an H word ends it (R29). -/
def State.runText (s : State) (c : Xctx) (stop : Word) : Nat → Word → List (Word × List W32)
  | 0, _ => []
  | n + 1, pc =>
    if pc = stop then []
    else match s.peekWords c pc with
      | some (w0 :: ws) =>
        if isHeader w0 then []
        else
          let i := (pc, w0 :: ws)
          if w0.getLsbD 29 then [i] else i :: s.runText c stop n (pc + w64 (4 * (ws.length + 1)))
      | _ => []

/-- The address after a run's last instruction. -/
def runAfter (start : Word) (text : List (Word × List W32)) : Word :=
  match text.getLast? with
  | some (pc, ws) => pc + w64 (4 * ws.length)
  | none => start

/-- The record of a fault at a group of threads. -/
def State.excRec (s : State) (w : WaveId) (epc : Word) (e : Exc) (ticket : W32) (action : Nat) : FaultRec :=
  let t := s.team w.team
  let j := s.job w.team.job
  { addr := e.addr, pc := epc.toNat, lanes := e.lanes.toNat, enc := e.enc, slotw := e.slotw, team := w.team.team,
    jobid := j.id, ticket := ticket.toNat, sub := e.sub, code := e.code, vf := j.vf, part := j.part,
    cluster := t.cluster, core := t.core, wave := w.wave, kind := 0, action := action }

/-- The record of a store or atomic that another device refused, with its words (R197, R319). -/
def State.refusalRecord (s : State) (w : WaveId) (lane : Fin 32) (pc : Word) (enc : List W32) (hpa : Nat) : State :=
  let e : Exc := { code := Code.prot, sub := 2, addr := hpa, lanes := laneBit lane, enc := enc }
  (s.report (s.jobOf w).vf .fault { s.excRec w pc e 0 3 with kind := 1 }.encode none).1

/-- DESIGN CHOICE, unsafe (log 16). -/
def State.newTicket (s : State) (vf : Nat) (who : TicketOf) (code sub : Nat) (stop : Bool) : W32 × State :=
  (s.nextTicket,
   { s with
     tickets := s.tickets ++ [{ num := s.nextTicket, vf := vf, who := who, code := code, sub := sub, stop := stop }],
     nextTicket := if s.nextTicket = BitVec.allOnes 32 then 1 else s.nextTicket + 1 })

/-- Notes where a run that faulted ends, for a return that skips it (R199). A fault inside a handler, which is serviced
and tried again, leaves what stands there for the handler's own return (R433). -/
def State.noteResume (s : State) (w : WaveId) (m : LaneMask) (after blk : Word) (len : Nat) : State :=
  s.modLanes w m fun _ t =>
    if t.inHandler then t else { t with resumePc := after, resumeBlk := blk, resumeLen := len }

/-- Every thread of a group takes a fault: its run aborts, and the group parks, enters the handler or ends its team,
with one record (R33, R192, R193, R195, R199). `epc` names the first instruction of what is re-executed; `after` and
`blk` say where a skipping return goes on. -/
def State.raise (s : State) (w : WaveId) (m : LaneMask) (epc after blk : Word) (e : Exc) : State :=
  let j := s.jobOf w
  let s := (s.abort w m).markLeaves j.part e.marks
  let s := s.noteResume w m after blk 0
  if e.parks then
    let (k, s) := s.newTicket j.vf (.threads w m) e.code e.sub false
    let s := s.modLanes w m fun _ t => { t with status := .parked k }
    (s.report j.vf .fault (s.excRec w epc e k 0).encode none).1
  else if j.card.handler ≠ 0 && !(lanesOf m).any fun l => (s.thread w l).inHandler then
    match s.report j.vf .fault (s.excRec w epc e 0 1).encode (some (w, m)) with
    | (s, true) => s.enterHandler w m e.code e.sub epc
    | (s, false) => s.modLanes w m fun _ t => { t with status := .waiting .ringFull }
  else (s.report j.vf .fault (s.excRec w epc e 0 2).encode none).1.terminate w.team e.code

/-- The address after the run that starts at an address of a block. -/
def State.runEnd (s : State) (c : Xctx) (blk start : Word) : Word :=
  runAfter start (s.runText c (wordsAfter blk (w64 (s.headerLen c blk))) 25 start)

/-- A fault at an instruction of a run in progress. -/
def State.raiseRun (s : State) (r : Run) (e : Exc) : State :=
  s.raise r.wave r.group r.start (s.runEnd (s.xctx r.wave) r.blk r.start) r.blk { e with lanes := if e.lanes = 0 then r.group else e.lanes }

/-- Where a return from a handler puts a thread: the faulting run, at its block's header when it is the block's first,
or the word after it (R199, R433). -/
def Thread.resumption (t : Thread) (skip : Bool) : Word :=
  if skip then t.resumePc else if t.epc = t.resumeBlk + 8 then t.resumeBlk else t.epc

/-- Poisoned queue entries that the snapshot replaces. -/
def Thread.queueScrubbed (t : Thread) : Nat :=
  ((List.finRange 16).filter fun k => t.regs.q[k].poison ≠ 0).length

/-- The return from a handler: the queue as snapshotted, the in-handler bit clear, and the threads at the faulting run
or past it (R199, R433). `blk` is the block that holds the RFT, for a return that splits the group (R36). -/
def State.returnFrom (s : State) (w : WaveId) (m : LaneMask) (blk : Word) (skip : Bool) : State :=
  let s := s.pushDiverge w m blk fun l => (s.thread w l).resumption skip
  let s := (lanesOf m).foldl (fun s l => s.logScrubbed w l (s.thread w l).queueScrubbed) s
  let s := s.modLanes w m fun _ t =>
    { t with
      regs := { t.regs with q := t.snapshot }, inHandler := false, blk := t.resumeBlk, pc := t.resumption skip,
      since := s.now, status := .ready }
  if skip then (lanesOf m).foldl (fun s l => s.goOn w (laneBit l) (s.thread w l).resumePc) s else s

/-! ## Stops of a debugger (R326, R327) -/

/-- Threads stop at a run boundary: runs abort, the threads park, their image is in the save area, one record is
written; STOPALL stops the rest of the team. DEDUCED, unsafe (log 35). -/
def State.debugStop (s : State) (w : WaveId) (m : LaneMask) (epc : Word) (sub : Nat) (enc : List W32) : State :=
  let j := s.jobOf w
  let held := s.debugHeld w.team
  let s := s.abort w m
  let (k, s) := s.newTicket j.vf (.threads w m) Code.trap sub true
  let s := s.modLanes w m fun _ t => { t with status := .parked k }
  let s :=
    if (s.vf j.vf).dbgctl.getLsbD 1 then
      let s := s.dropRuns fun r => r.wave.team = w.team
      s.modTeam w.team fun t =>
        { t with
          waves := t.waves.map fun (v : Wave) => v.modLanes v.liveMask fun t => { t with stopped := true } }
    else s
  let t := s.team w.team
  let len := s.teamLen t
  let (off, s) := s.writeImage t j.part j.card.named true held
  let addr := t.cluster * 2 ^ 32 + off + threadAt len j.card.named w.wave (lowestLane m)
  (s.report j.vf .fault
    (s.excRec w epc { code := Code.trap, sub := sub, addr := addr, lanes := m, enc := enc } k 0).encode none).1

/-- The threads of a mask that breakpoints stop; those resumed by an answer run on once (R327). -/
def State.stoppable (s : State) (w : WaveId) (m : LaneMask) : LaneMask :=
  maskWhere fun l => LaneMask.has m l && !(s.thread w l).pass

/-! ## Rings tried again (R195, R196, R288) -/

/-- Tries the held records of a virtual function, in order; the threads of a written handler record enter it.
DEDUCED, safe (log 28). -/
def State.retryHeldGo (s : State) (v : Nat) : List Held → List RingKind → State
  | [], _ => s
  | h :: hs, blocked =>
    if h.vf ≠ v || blocked.contains h.kind then s.retryHeldGo v hs blocked
    else match s.ringWrite v h.kind h.record with
      | none => (s.noteStall v h.kind).retryHeldGo v hs (h.kind :: blocked)
      | some s =>
        let s := { s with held := s.held.erase h }
        let r := h.record.toNat
        let s := match h.into with
          | some (w, m) => s.enterHandler w m (fld r 79 64) (fld r 95 80) (w64 (fld r 447 384))
          | none => s
        s.retryHeldGo v hs blocked

/-- A stall lasts as long as a record of the virtual function is held back by one (R196). DEDUCED, safe (log 28). -/
def State.retryHeld (s : State) (v : Nat) : State :=
  let s := s.retryHeldGo v s.held []
  if s.held.any fun h => h.vf = v && s.ringStalled v h.kind then s
  else if (s.vf v).stalled then s.setVf v { s.vf v with stalled := false } else s

end Sys2Proof.Machine
end

