-- ==== Sys2Proof/Machine/Operands.lean ====
section
/-!
DEFINITION. Operands and results: constants (R56, R449), routes (R64 to R66), masks (R58, R59, R75), the latch (R60),
pushes and named destinations (R49, R53), the scoreboard (R68, R69).
-/

namespace Sys2Proof.Machine

open Sys2Proof

/-! ## Constants -/

def tyW64 : Ty := .int { signed := false, width := .b64 }
def tyW32 : Ty := .int { signed := false, width := .b32 }
def tyF32 : Ty := .flt .f32
def tyF16 : Ty := .flt .f16

/-- The code of 1 in a type: integer 1 or 1.0 (R56). -/
def oneCode : Ty → Nat
  | .int _ => 1
  | .flt .f64 => 0x3FF0000000000000
  | .flt .f32 => 0x3F800000
  | .flt .f16 => 0x3C00
  | .flt .bf16 => 0x3F80
  | .e5m2 => 0x3C
  | .e4m3 => 0x38
  | .e2m1 => 0x2

/-- A code in every sub-element of b bits. -/
def everywhere (b c : Nat) : Word := w64 (packN b ((List.range (64 / b)).map fun _ => c))

/-- The literal as a 64-bit operand (R56). -/
def litWord (ty : Ty) (l : W32) : Word :=
  match ty with
  | .int { signed := true, width := .b64 } => l.signExtend 64
  | .int { signed := false, width := .b64 } => l.zeroExtend 64
  | .flt .f64 => w64 (Fmt.f64.convert .ne (Fmt.f32.decode l.toNat)).bits
  | _ => l ++ l

/-! ## Reading -/

/-- The lane a route takes the value from (R64). -/
def routeLane (r : Regs) (l : Fin 32) : Route → Fin 32
  | .own => l
  | .rot p => l + p
  | .bc p => p
  | .bfly p => Fin.ofNat 32 (l.val ^^^ p.val)
  | .idx k => Fin.ofNat 32 ((r.n[16 + k.val]'(by omega)).bits.toNat % 32)

def Regs.src (r : Regs) : Src → Val
  | .q k => r.q[k]
  | .n k => r.n[k]
  | _ => Val.zero

/-- Is lane S's value the group's own, committed, or gone (R66)? -/
inductive Supply where
  | group | committed | gone
  deriving DecidableEq, Repr

def State.supply (s : State) (r : Run) (l : Fin 32) : Supply :=
  if LaneMask.has r.group l then .group
  else if (s.thread r.wave l).status.live then .committed else .gone

/-- The value of a source operand in a lane (R50, R53, R56, R60, R64, R66). -/
def State.operand (s : State) (r : Run) (l : Fin 32) (o : Src × Route) (ty : Ty) (lit : Option W32) : Val :=
  match o.1 with
  | .zero => Val.zero
  | .one => ⟨everywhere ty.bits (oneCode ty), 0⟩
  | .lit => ⟨litWord ty (lit.getD 0), 0⟩
  | .h k => (r.latch[l]).getD k.val Val.zero
  | x =>
    let sl := routeLane r.spec[l] l o.2
    match s.supply r sl with
    | .group => (r.spec[sl]).src x
    | .committed => (s.thread r.wave sl).regs.src x
    | .gone => Val.zero

/-- Is a routed read of the lane served by no lane of the group (R67)? -/
def State.readsOutside (s : State) (r : Run) (l : Fin 32) (o : Src × Route) : Bool :=
  o.1.routable && o.2 ≠ .own && s.supply r (routeLane r.spec[l] l o.2) ≠ .group

/-- The lanes of the group whose own elements an instruction over the group takes: a first source that a route reads from
a lane outside the group contributes nothing (R431, R435, R442). DEDUCED, unsafe (log 70). -/
def State.givers (s : State) (r : Run) (sh : Shape) : LaneMask :=
  maskWhere fun l => LaneMask.has r.group l && !(sh.srcs.head?.any (s.readsOutside r l))

/-- The mask register an instruction selects (R58). -/
def Regs.mask (r : Regs) (pm : Fin 8) : BitVec 8 := if pm = 0 then 0xFF else r.m[pm]

/-- Does a thread take part in an instruction of the MEM, MAT or ENG class (R75)? -/
def takesPart (r : Regs) (pm : Fin 8) (pn : Bool) : Bool := (r.mask pm).getLsbD 0 != pn

/-- The threads of the group that take part. -/
def Run.active (r : Run) (sh : Shape) : LaneMask :=
  match sh.cls with
  | .alu | .ctl => r.group
  | _ => maskWhere fun l => LaneMask.has r.group l && takesPart r.spec[l] sh.pm sh.pn

/-- Those of them that are no helpers: helpers take no part in a store, an atomic or a committing ENG instruction; in the
MAT class a lane's mask bit alone decides (R221, R303). -/
def State.actors (s : State) (r : Run) (sh : Shape) : LaneMask :=
  maskWhere fun l => LaneMask.has (r.active sh) l && (sh.cls = .mat || !(s.thread r.wave l).helper)

/-! ## Named registers and the scoreboard -/

def routeIndex : Route → List Nat
  | .idx k => [16 + k.val]
  | _ => []

/-- Every named register an instruction names (R52). -/
def namedRegs (sh : Shape) : List Nat :=
  sh.srcs.flatMap (fun o => o.1.reg ++ routeIndex o.2) ++ sh.dst.reg ++ sh.reads ++ sh.writes

def writesReg (sh : Shape) : List Nat := sh.dst.reg ++ sh.writes

/-- Is a register of a lane pending (R69)? -/
def State.pending (s : State) (w : WaveId) (l : Fin 32) (k : Nat) : Bool := (s.thread w l).pend.getLsbD k

/-- Does an instruction name a register of which a test holds, in a lane it reads it from or writes it in (R68, R69)? -/
def namesAny (p : Fin 32 → Nat → Bool) (r : Run) (sh : Shape) : Bool :=
  (lanesOf r.group).any fun l =>
    (sh.reads ++ writesReg sh ++ sh.srcs.flatMap fun o => routeIndex o.2).any (p l)
      || sh.srcs.any fun o => o.1.reg.any fun k => p (routeLane r.spec[l] l o.2) k

/-- Must a lane wait for a pending register that the instruction names there or reads from there (R23)? -/
def State.laneWaits (s : State) (r : Run) (sh : Shape) (l : Fin 32) : Bool :=
  (sh.reads ++ writesReg sh ++ sh.srcs.flatMap fun o => routeIndex o.2).any (s.pending r.wave l)
    || sh.srcs.any fun o => o.1.reg.any fun k => s.pending r.wave (routeLane r.spec[l] l o.2) k

/-- Must an instruction wait for a pending register (R24, R68, R69)? -/
def State.mustWait (s : State) (r : Run) (sh : Shape) : Bool := namesAny (s.pending r.wave) r sh

/-- The registers of its own that an instruction reads in a lane: as operands, as route indexes, and through a route that
names the lane itself. -/
def ownReads (r : Run) (sh : Shape) (l : Fin 32) : List Nat :=
  sh.reads ++ (sh.srcs.flatMap fun o => routeIndex o.2)
    ++ (sh.srcs.filter fun o => routeLane r.spec[l] l o.2 = l).flatMap fun o => o.1.reg

/-- The acquire of a token's completion at the owner's first read of it (R176, R188). -/
def State.tokenReads (s : State) (r : Run) (sh : Shape) : State :=
  let hit := fun (l : Fin 32) =>
    (s.thread r.wave l).tokSig.isSome && (ownReads r sh l).any fun k => (s.thread r.wave l).tokReg.getLsbD k
  let ls := (lanesOf r.group).filter hit
  if ls.isEmpty then s
  else
    let core := (s.team r.wave.team).coreNo
    let sig := ls.foldl (fun a l => a ||| ((s.thread r.wave l).tokSig.getD 0)) 0
    (s.acquire core sig).modLanes r.wave (maskOf ls) fun _ t => { t with tokSig := none, tokReg := 0 }

/-! ## Writing -/

/-- A push: each q(k) becomes q(k+1) (R49). -/
def pushQ (q : Vector Val 16) (v : Val) : Vector Val 16 :=
  Vector.ofFn fun i => if h : i.val = 0 then v else q[i.val - 1]'(by omega)

/-- A result in a destination under a mask of sub-elements (R49, R53, R59). -/
def Regs.put (r : Regs) (d : Dst) (w : Width) (m : BitVec 8) (v : Val) : Regs :=
  match d with
  | .void => r
  | .push => { r with q := pushQ r.q ⟨merge w m v.bits 0, mergePoison w m v.poison 0⟩ }
  | .n k =>
    let o := r.n[k]
    { r with n := r.n.set k ⟨merge w m v.bits o.bits, mergePoison w m v.poison o.poison⟩ }

/-- A result written whole over what the destination held (R144, R381): a push finds zero there. -/
def Regs.putOver (r : Regs) (d : Dst) (f : Val → Val) : Regs :=
  match d with
  | .void => r
  | .push => { r with q := pushQ r.q (f Val.zero) }
  | .n k => { r with n := r.n.set k (f r.n[k]) }

/-- A named register whole. -/
def Regs.setN (r : Regs) (k : Nat) (v : Val) : Regs :=
  if h : k < 32 then { r with n := r.n.set k v } else r

def Regs.getN (r : Regs) (k : Nat) : Val := if h : k < 32 then r.n[k] else Val.zero

/-- The result of a thread of the MEM, MAT or ENG class: `v` where it takes part, else as a disabled sub-element. -/
def Regs.putThread (r : Regs) (d : Dst) (part : Bool) (v : Val) : Regs := r.put d .b64 (if part then 0xFF else 0) v

/-- The latch after a hold (R60). -/
def holdLatch (l : List Val) (v : Val) : List Val := (v :: l).take 3

def holdIndex : Hold → Option Nat
  | .off => none | .a => some 0 | .b => some 1 | .c => some 2

/-! ## Poison -/

/-- Does a value carry poison in an enabled sub-element (R194)? DESIGN CHOICE, unsafe (log 51). -/
def Val.poisoned (v : Val) (w : Width) (m : BitVec 8) : Bool := v.poison &&& bytesMask w m ≠ 0

def Val.bad (v : Val) : Bool := v.poison ≠ 0

end Sys2Proof.Machine
end

