-- ==== Sys2Proof/Machine/Slots.lean ====
section
/-!
DEFINITION. Format slots (R135, R136): their fields, which are valid, and which an instruction accepts.
-/

namespace Sys2Proof.Machine

open Sys2Proof

def slotF (w : W32) (hi lo : Nat) : Nat := fld w.toNat hi lo
def slotFmt (w : W32) : Nat := slotF w 3 0
def slotScale (w : W32) : Nat := slotF w 7 4
def slotLblk (w : W32) : Nat := slotF w 11 8
def slotPlanes (w : W32) : Nat := slotF w 14 12 + 1
def slotCentre (w : W32) : Bool := w.getLsbD 15
def slotStoch (w : W32) : Bool := w.getLsbD 18
def slotTrap (w : W32) : Bool := w.getLsbD 19
def slotSeed (w : W32) : Nat := slotF w 31 20

/-- Bits of a bit-plane format, 2 to 8. -/
def slotBits (w : W32) : Nat := slotFmt w - 6
def slotIsPlanes (w : W32) : Bool := 8 ≤ slotFmt w && slotFmt w ≤ 14

/-- Does a slot word keep R135? -/
def slotValid (w : W32) : Bool :=
  slotFmt w ≠ 7 && slotFmt w ≠ 15 && slotScale w ≤ 3
    && (if slotScale w ≥ 2 then 4 ≤ slotLblk w && slotLblk w ≤ 7 else slotLblk w = 0)
    && (if slotIsPlanes w then slotPlanes w ≤ slotBits w else slotPlanes w = 1 && !slotCentre w)

/-- The mode of a slot, with the draw of position j for a thread (R137, R138). -/
def slotMode (w : W32) (wid : Word) (j : Nat) : Mode :=
  if slotStoch w then .draw (draw (slotSeed w) wid j)
  else match slotF w 17 16 with | 0 => .ne | 1 => .tz | 2 => .dn | _ => .up

def slotRound (w : W32) : Mode := match slotF w 17 16 with | 0 => .ne | 1 => .tz | 2 => .dn | _ => .up

/-- The float format of a slot's elements; none for the integer ones. -/
def slotFloat (w : W32) : Option Fmt :=
  match slotFmt w with
  | 0 => some .e4m3 | 1 => some .e5m2 | 2 => some .e2m1 | 4 => some .f16 | 5 => some .bf16 | 6 => some .f32
  | _ => none

/-- Bits of one element in memory or a packed register. -/
def slotWidth (w : W32) : Nat :=
  match slotFloat w with
  | some f => f.width
  | none => 8

/-- The value of an element code of a slot that is no bit-plane format. -/
def slotValue (w : W32) (code : Nat) : Fp :=
  match slotFloat w with
  | some f => f.decode code
  | none =>
    let v := signed 8 (code % 256)
    .fin (v < 0) v.natAbs 0

/-- A value converted to a slot's element (R139, R140). -/
def slotConvert (w : W32) (m : Mode) (v : Fp) : Rnd :=
  match slotFloat w with
  | some f => f.convert m v
  | none => toInt 8 true m v

/-- ±n/d × 2^x converted to a slot's element. -/
def slotRoundQ (w : W32) (m : Mode) (neg : Bool) (n d : Nat) (x : Int) : Rnd :=
  match slotFloat w with
  | some f => f.round m neg n d x
  | none => roundInt 8 true m neg n d x

/-- Accepted by QSCALE, QPACK and QUNPACK (R143 to R145). -/
def slotQuant (w : W32) : Bool := slotFmt w ≤ 3
/-- Accepted by BPSPLIT and BPJOIN (R370). -/
def slotBp (w : W32) : Bool := slotIsPlanes w && slotScale w = 0
/-- Accepted by MMA (R225). -/
def slotMma (w : W32) : Bool :=
  !slotTrap w && (if slotFmt w ≤ 2 then slotScale w = 0 || slotScale w = 2
    else (slotFmt w = 3 || slotIsPlanes w) && slotScale w = 0)
/-- Largest KC (R225). -/
def slotMaxKc (w : W32) : Nat :=
  if slotFmt w = 2 then 4 else if slotIsPlanes w then min 15 (16 / slotPlanes w) else 2
/-- Accepted by ACCDRAIN (R230). -/
def slotDrain (w : W32) : Bool := !slotTrap w && slotScale w = 0 && slotFmt w ≤ 6
/-- Accepted by GMV and GMM (R257). -/
def slotGram (w : W32) : Bool :=
  !slotTrap w && slotScale w = 0 && (slotFmt w = 6 || slotFmt w = 4 || slotFmt w = 5 || slotFmt w = 0 || slotFmt w = 1
    || slotFmt w = 3)

/-! ## Operands and rows of the matrix engine (R225, R226, R230) -/

/-- Bytes of an operand's elements per chunk. -/
def chunkBytes (slot : W32) : Nat :=
  if slotIsPlanes slot then 256 * slotPlanes slot else if slotFmt slot = 2 then 1024 else 2048

/-- Bytes of an operand with its block scales. -/
def operandBytes (slot : W32) (kc : Nat) : Nat :=
  kc * chunkBytes slot + (if slotScale slot = 2 then 64 * ceilDiv (32 * kc) (2 ^ slotLblk slot) else 0)

/-- Rows of the lanes of a mask. -/
def rowsOf (m : LaneMask) : List Nat := (lanesOf m).flatMap fun l => [2 * l.val, 2 * l.val + 1]

/-- Bytes of one row of the output. -/
def drainRow (slot : W32) : Nat := if slotFmt slot = 2 then 32 else 64 * (slotWidth slot / 8)

end Sys2Proof.Machine
end

