-- ==== Sys2Proof/Machine/Run.lean ====
section
/-!
DEFINITION. Runs: the checks before an instruction (R29, R30, R52, R61, R97, R98, R136), its wait at the scoreboard
(R24, R68), commit in the order of R32, and what stores do at commit (R31, R179 to R182).
-/

namespace Sys2Proof.Machine

open Sys2Proof

/-- The first instruction of the run that a thread stands at (R35). -/
def Thread.runStart (t : Thread) : Word := if t.pc = t.blk then t.pc + 8 else t.pc

/-- A run before its first instruction: registers as committed, the latch empty but between two steps of one original
run (R28, R60, R328). -/
def Run.fresh (w : WaveId) (v : Wave) (m : LaneMask) (start blk : Word) : Run :=
  { wave := w, group := m, start := start, blk := blk, pc := start, count := 0, pushes := 0,
    spec := v.lanes.map fun t => t.regs, latch := v.lanes.map fun t => t.stepLatch,
    holds := (v.lanes[lowestLane m].stepLatch).length, stores := [], flags := Vector.replicate 32 0, rx := false,
    fence := 0, samples := [], suspended := false, reserve := none, wiped := [] }

/-! ## Which instructions end their run (R30) -/

def endsRun : Instr → Bool
  | .atom .. => true | .atoms .. => true | .bar _ => true | .cbar .. => true | .fork _ => true | .fjoin _ => true
  | .ncall .. => true | .nflush .. => true | .wbind _ => true | .wpin _ => true | .wunpin _ => true | .wpref _ => true
  | .copy .. => true | .engage _ => true | .rdv _ => true | .semsig .. => true | .semwait .. => true
  | .qpop .. => true | .qpush .. => true | .mma _ => true | .accdrain _ => true | .accrel _ => true
  | .gmv .. => true | .gmm .. => true | .binapp .. => true | .binreplay _ => true | .wlinit _ => true
  | .wlpush _ => true | .wlins _ => true | .wlpopb _ => true | .coll .. => true | .rayq .. => true
  | .exportV .. => true | .discard _ => true | .deal _ => true | .enq _ => true | .depdec .. => true
  | .trig _ => true | .trap .. => true | .exit _ => true | .csrw .. => true | .halt _ => true
  | .bra .. => true | .brx _ => true | .call _ => true | .ret _ => true | .rft .. => true | .lsetup .. => true
  | .wsync _ => true | .yield _ => true
  | _ => false

/-- The format slot an instruction names and does not accept (R136); the word goes into the record. -/
def slotReject (i : Instr) (slot : Fin 8 → W32) : Option W32 :=
  let no := fun (f : Fin 8) (ok : W32 → Bool) => if ok (slot f) then none else some (slot f)
  match i with
  | .qscale f _ => no f slotQuant
  | .qpack f _ => no f slotQuant
  | .qunpack f _ => no f slotQuant
  | .bpsplit f _ => no f slotBp
  | .bpjoin f _ => no f slotBp
  | .mma f => no f.fs slotMma
  | .accdrain f => no f.fs slotDrain
  | .gmv k _ => no k slotGram
  | .gmm _ k _ => no k slotGram
  | _ => none

/-- Fates that depend on where the instruction stands: KC above the slot's limit (R225), RFT outside a handler (R199),
EXPORT and DISCARD outside their stage (R384, R388), a stream instruction on a core (R89, R97). -/
def State.placeBad (s : State) (w : WaveId) (m : LaneMask) (i : Instr) : Bool :=
  let stage := (s.team w.team).stage
  let pixel := match stage with | some (.pixel _) => true | _ => false
  let vertex := match stage with | some (.vertex _) => true | _ => false
  match i with
  | .mma f => f.kc.val > slotMaxKc ((s.jobOf w).card.slots[f.fs])
  | .rft .. => (lanesOf m).any fun l => !(s.thread w l).inHandler
  | .exportV t _ _ => if t.val ≤ 7 then !pixel else !vertex
  | .discard _ => !pixel
  | _ => false

/-- Why an instruction may not stand in its run, if it may not; the answer is the record's SLOTW (R98). `holds` are the
values held before it and `last` whether it ends the run. Where an instruction has one of the other fates of R97 beside a
slot that it rejects, SLOTW is 0. DEDUCED, unsafe (log 36); DESIGN CHOICE, unsafe (log 82). -/
def State.illegal (s : State) (w : WaveId) (m : LaneMask) (holds : Nat) (last : Bool) (i : Instr) : Option W32 :=
  match i.shape with
  | none => some 0
  | some sh =>
    let card := (s.jobOf w).card
    if i.check.isSome then some 0
    else if (namedRegs sh).any fun k => k ≥ card.named then some 0
    else if sh.srcs.any (fun o => match o.1 with | .h k => k.val ≥ holds | _ => false) then some 0
    else if endsRun i && !last then some 0
    else match slotReject i fun f => card.slots[f] with
      | some slotw => some slotw
      | none => if s.placeBad w m i then some 0 else none

/-! ## Stores at commit -/

/-- Words that two entries of one instruction both write a byte of, and the entries there (R179). -/
def overlaps (a b : Store) : Bool :=
  match a.loc, b.loc with
  | .phys p x, .phys q y => p = q && x < y + b.bytes.length && y < x + a.bytes.length
  | _, _ => false

def sameWord (w : Nat) (e : Store) : Bool :=
  match e.loc with
  | .phys _ x => x / 4 ≤ w && w ≤ (x + e.bytes.length - 1) / 4
  | _ => false

/-- The release steps of an STL's instruction, one for each place its lanes name: each covers the earlier stores of every
lane that names the place (R182, R235). -/
def State.releaseWords (s : State) (r : Run) (es : List Store) : State :=
  let sigAt := fun (x : Loc) =>
    (es.filter fun e => e.loc = x).foldl (fun a e => a ||| (s.thread r.wave e.lane).sig) 0
  let places := ((es.map fun e => (e.loc, e.bytes.length)).eraseDups).map fun p => (p.1, p.2, sigAt p.1)
  let s := places.foldl
    (fun s p => match p.1 with
      | .phys _ hpa => if s.isLocal hpa then s.putSigs p.1 p.2.1 p.2.2 false else s
      | .scr .. => s) s
  s.modLanes r.wave (maskOf (es.map fun e => e.lane)) fun _ t => { t with sig := 0 }

/-- Has the other device refused a store of the run before its commit (R319)? -/
def State.storeRefused (s : State) (r : Run) (e : Store) (hpa : Nat) : Bool :=
  s.remotes.any fun x => x.wave = r.wave && x.lane = e.lane && x.hpa = hpa && x.held && x.refused

/-- One store at its home (R32, R156, R180 to R182, R194). The page it goes to is dirty from here on, whatever a harvest
has cleared since the store was executed (R191). -/
def State.applyStore (s : State) (r : Run) (e : Store) : State :=
  let core := (s.team r.wave.team).coreNo
  match e.loc with
  | .scr t o =>
    let s := s.writeScr t o e.bytes
    if e.poison then s.modTeam t fun u => { u with scrPoison := (o / 128) :: u.scrPoison } else s
  | .phys p hpa =>
    let s := s.touch (s.xctx r.wave) e.va.toNat .write
    let s := s.modLanes r.wave (laneBit e.lane) fun _ t => t.addSig (lineSig hpa)
    if s.isLocal hpa then
      let s := s.writeMem (.core core) (decide (e.kind = .marked)) p hpa e.bytes
      if e.poison then s.poisonLine p hpa else s
    else if s.storeRefused r e hpa then s.refusalRecord r.wave e.lane r.start e.enc hpa
    else if Config.peerAnswers s.tick hpa then s
    else
      { s with remotes := s.remotes ++
          [{ wave := r.wave, lane := e.lane, hpa := hpa, write := true, dst := .void, since := s.now, pc := r.start,
             acq := false, held := false, refused := false, enc := e.enc }] }

/-- A store's bytes in one word come to their home. -/
def State.storeWord (s : State) (r : Run) (w : Nat) (e : Store) : State :=
  match e.loc with
  | .phys p x =>
    let lo := max x (4 * w)
    let hi := min (x + e.bytes.length) (4 * w + 4)
    if s.isLocal x then
      s.writeMem (.core (s.team r.wave.team).coreNo) (decide (e.kind = .marked)) p lo ((e.bytes.drop (lo - x)).take (hi - lo))
    else s
  | .scr .. => s

/-- The stores of one instruction: the release steps of an STL, the stores in lane order, and then, in a free order for each
word, those that share a byte with another once more: the last to come wins there (R179, R235).
DESIGN CHOICE, safe (log 48). -/
def State.applyGroup (s : State) (r : Run) (es : List Store) : State :=
  let marked := es.filter fun e => e.kind = .marked
  let s := if marked.isEmpty then s else s.releaseWords r marked
  let s := es.foldl (fun s e => s.applyStore r e) s
  let clash := es.filter fun e => es.any fun x => x.lane ≠ e.lane && overlaps x e
  let words := (clash.flatMap fun e =>
    match e.loc with | .phys _ x => wordsOf x e.bytes.length | _ => []).eraseDups
  words.foldl
    (fun s w =>
      let es := clash.filter (sameWord w)
      (shuffle (fun n => s.pickNo 8 (64 * w + n)) es.length es).foldl (fun s e => s.storeWord r w e) s) s

/-- Entries of a store buffer cut into the stores of one instruction each. -/
def byInst : List Store → List (List Store)
  | [] => []
  | e :: es =>
    match byInst es with
    | (f :: fs) :: rest => if f.inst = e.inst then (e :: f :: fs) :: rest else [e] :: (f :: fs) :: rest
    | l => [e] :: l

def State.applyStores (s : State) (r : Run) : State := (byInst r.stores).foldl (fun s es => s.applyGroup r es) s

/-! ## Commit -/

/-- The bytes of a named register that a change of a lane's registers leaves as they were: their poison is what it was,
whatever it was. -/
def keptBytes (f : Regs → Regs) (g : Regs) (k : Fin 32) : BitVec 8 :=
  let after := fun (p : BitVec 8) => (f { g with n := g.n.set k ⟨g.n[k].bits, p⟩ }).n[k].poison
  after 0xFF ^^^ after 0

/-- Does the change push, so that the oldest queue entry is lost? -/
def pushes (f : Regs → Regs) (g : Regs) : Bool :=
  let after := fun (p : BitVec 8) => (f { g with q := g.q.set 15 ⟨g.q[15].bits, p⟩ }).q[15].poison
  after 0xFF = after 0

/-- The poisoned named registers of a lane and the bytes of each that a change writes. -/
def wipes (f : Regs → Regs) (g : Regs) : List (Fin 32 × BitVec 8) :=
  ((List.finRange 32).filter fun k => g.n[k].bad).map fun k => (k, ~~~keptBytes f g k)

/-- Poisoned registers of a lane that are scrubbed (R194): a named one with every poisoned byte overwritten, whatever it
holds after, and a queue entry that is pushed out of the window. `wiped` are bytes overwritten.
DESIGN CHOICE, unsafe (log 51). -/
def scrubbed (old : Regs) (wiped : List (Fin 32 × BitVec 8)) (pushes : Nat) : Nat :=
  ((List.finRange 32).filter fun k =>
      old.n[k].bad && old.n[k].poison &&& ~~~((wiped.filter fun x => x.1 = k).foldl (fun a x => a ||| x.2) 0) = 0).length
    + ((List.finRange 16).filter fun k => old.q[k].bad && k.val + pushes ≥ 16).length

/-- Changes a thread's registers, committed and, in a run in progress, speculative: what engines and commits write (R69). -/
def State.putRegs (s : State) (w : WaveId) (l : Fin 32) (f : Regs → Regs) : State :=
  let s := s.modLanes w (laneBit l) fun _ t => { t with regs := f t.regs }
  { s with runs := s.runs.map fun (r : Run) =>
      if r.wave = w && LaneMask.has r.group l then { r with spec := r.spec.set l (f r.spec[l]) } else r }

/-- The same, with a log record for each poisoned register that is overwritten or pushed out (R194), and in the image of a
saved team (R69, R204). -/
def State.setRegs (s : State) (w : WaveId) (l : Fin 32) (f : Regs → Regs) : State :=
  let old := (s.thread w l).regs
  ((s.putRegs w l f).imaged s w l).logScrubbed w l (scrubbed old (wipes f old) (if pushes f old then 1 else 0))

/-- FENCE, once its run has committed: an ATOM.ar add of 0 to the fence word, its result discarded (R184, R394). -/
def State.fenceAt (s : State) (w : WaveId) (m : LaneMask) : State :=
  let j := s.jobOf w
  let (sig, s) := s.takeSig w m
  match s.fenceWord j.part j.vf with
  | none => s.acquire (s.team w.team).coreNo Sig.all
  | some hpa =>
    let got := s.getSigs (.phys j.part hpa) 8
    let s := s.putSigs (.phys j.part hpa) 8 sig true
    s.acquire (s.team w.team).coreNo got

/-- Steps 1 and 2 of commit (R32, R130, R194): registers, flags and RX; the store buffer. -/
def State.commit (s : State) (r : Run) : State :=
  let old := s.wave r.wave
  let s := { s with runs := s.runs.filter fun x => !(x.wave = r.wave && x.group &&& r.group ≠ 0) }
  let s := s.modLanes r.wave r.group fun l t =>
    { t with
      regs := { r.spec[l] with fpstat := r.spec[l].fpstat ||| r.flags[l] }, pass := false, yielded := false,
      stepLatch := if t.stepping then r.latch[l] else [] }
  let s := s.modWave r.wave fun v =>
    { v with rx := v.rx || r.rx, groups := (v.groups.map fun g => g &&& ~~~r.group).filter fun g => g ≠ 0 }
  let s := (lanesOf r.group).foldl
    (fun s l => s.logScrubbed r.wave l
      (scrubbed old.lanes[l].regs ((r.wiped.filter fun x => x.1 = l).map fun x => x.2) r.pushes)) s
  let s := s.applyStores r
  let s := { s with
    remotes := s.remotes.filter fun x => !(x.wave = r.wave && x.held && LaneMask.has r.group x.lane) }
  let v := (s.jobOf r.wave).vf
  let (xs, s) := s.sampled v (r.stores.filterMap fun e =>
    match e.loc with | .phys part hpa => some (s.sampleAt e.pc part hpa) | _ => none)
  ((s.sampleRecords v r.samples false false).sampleRecords v xs false true).tallyHomes v (r.stores.map fun e => e.loc)

/-- What a run's FENCE does, after the run's last instruction (R184). -/
def State.fenced (s : State) (r : Run) : State := if r.fence ≠ 0 then s.fenceAt r.wave r.fence else s

/-- After a commit in step mode the threads that go on stop again, at each address they have come to (R328). Those that
wait stop before their next run. -/
def State.stepStop (s : State) (r : Run) : State :=
  let m := maskWhere fun l =>
    LaneMask.has r.group l && (s.thread r.wave l).stepping && (s.thread r.wave l).status = .ready
  let at_ := fun (l : Fin 32) => (s.thread r.wave l).runStart
  (((lanesOf m).map at_).eraseDups).foldl
    (fun s pc => s.debugStop r.wave (maskWhere fun l => LaneMask.has m l && at_ l = pc) pc 0xFFFE []) s

/-! ## One instruction of a run -/

/-- What a committed instruction does after steps 1 and 2 of commit: its threads go on, or it has an effect of its own,
given the run, whose `pc` is then the address after it. -/
inductive Effect where
  | goOn
  | own (f : State → Run → State)      -- may fall through to the block after it
  | leave (f : State → Run → State)    -- a transfer, which falls through only where it says so

/-- What an instruction's body does: raises a fault, waits (R24), or is executed, with the run as it leaves it and
what is left to do at commit. -/
inductive Body where
  | fault (s : State) (e : Exc)
  | wait (s : State)
  | waitWith (s : State) (r : Run)     -- the same, with what the run holds while it waits
  | gone (s : State)                   -- the run has been aborted otherwise
  | done (s : State) (r : Run) (e : Effect)

def Run.next (r : Run) (sh : Shape) : Word := r.pc + w64 (4 * sh.words)

/-- DEDUCED, unsafe (log 36, 37). -/
def State.blockEnd (s : State) (r : Run) : Word := wordsAfter r.blk (w64 (s.headerLen (s.xctx r.wave) r.blk))

/-- Does the run end at the instruction (R29, R91, R328)? -/
def State.endsHere (s : State) (r : Run) (sh : Shape) : Bool :=
  sh.e || r.next sh = s.blockEnd r || s.isH (s.xctx r.wave) (r.next sh)
    || (lanesOf r.group).any fun l => (s.thread r.wave l).stepping

/-- Is the instruction the last that its text allows, step mode apart (R30)? -/
def State.lastOfText (s : State) (r : Run) (sh : Shape) : Bool :=
  sh.e || r.next sh = s.blockEnd r || s.isH (s.xctx r.wave) (r.next sh)

/-- The check of a target's H word, before commit (R35, R98, R171). -/
def State.checkTarget (s : State) (w : WaveId) (l : Fin 32) (va : Word) : Except Exc State :=
  match s.translate (s.xctx w) va.toNat .fetch with
  | .error e => .error { e.exc l with addr := va.toNat }
  | .ok (_, s) =>
    if s.isH (s.xctx w) va then .ok s
    else .error { code := Code.badTarget, addr := va.toNat, lanes := laneBit l }

/-- The checks of what threads are sent to, all of them, with the first fault of R193. -/
def State.checkTargets (s : State) (w : WaveId) : List (Fin 32 × Word) → List (Fin 32 × Exc) → Except Exc State
  | [], bad => match firstExc bad with
    | some e => .error e
    | none => .ok s
  | (l, va) :: rest, bad => match s.checkTarget w l va with
    | .error e => s.checkTargets w rest (bad ++ [(l, e)])
    | .ok s => s.checkTargets w rest bad

/-- The header at which a thread sent to `h` comes to stand: a loop may send it on to its start (R46). -/
def landing (g : Regs) (h : Word) : Word := (loopCheck g.lc h).2

/-- Flow that reaches a header, by the block's LEN or by meeting one, goes to an H word, or the last run faults; so does a
loop-back from there (R35, R91, R97, R171). -/
def State.checkFall (s : State) (r : Run) (sh : Shape) : Except Exc State :=
  let h := r.next sh
  if h = s.blockEnd r || s.isH (s.xctx r.wave) h then
    s.checkTargets r.wave
      ((lanesOf r.group).flatMap fun l => [(l, h)] ++ if landing r.spec[l] h = h then [] else [(l, landing r.spec[l] h)]) []
  else .ok s

def State.putRun (s : State) (r : Run) : State :=
  { s with runs := match s.runs with | [] => [r] | _ :: rest => r :: rest }

/-- The run after an instruction: the hold (R60), the count, the next address. Every lane of the group counts for RX (R67),
also one that takes no part (R75) or has no enabled sub-element: the spec does not say. DESIGN CHOICE, unsafe (log 71). -/
def State.advance (s : State) (r : Run) (sh : Shape) (held : Fin 32 → Val) (r' : Run) : Run :=
  let latch := if sh.hold = .off then r'.latch else r'.latch.mapFinIdx fun i l h => holdLatch l (held ⟨i, h⟩)
  { r' with
    latch := latch, holds := if sh.hold = .off then r'.holds else r'.holds + 1, count := r.count + 1,
    pc := r.next sh, suspended := false, pushes := if sh.dst = .push then r'.pushes + 1 else r'.pushes,
    rx := r'.rx || (lanesOf r.group).any fun l => sh.srcs.any fun o => s.readsOutside r l o }

/-- The operand an instruction holds, in a lane (R60). -/
def State.heldVal (s : State) (r : Run) (sh : Shape) (tys : List Ty) (l : Fin 32) : Val :=
  match holdIndex sh.hold with
  | some k => match sh.srcs[k]? with
    | some o => s.operand r l o (tys.getD k tyW64) sh.lit
    | none => Val.zero
  | none => Val.zero

/-- What is left of a run at its commit: the latch outlives it only between two steps of one original run (R328). -/
def State.lastRun (s : State) (r : Run) (sh : Shape) (r' : Run) : Run :=
  if s.lastOfText r sh then { r' with latch := Vector.replicate 32 [] } else r'

/-- After an instruction is executed: the run goes on, or it commits and its threads leave it. `s` is the state before the
instruction, `s'` and `r'` are what its body leaves. Where the run falls out of its block onto a word that is no header,
it faults before commit (R91). -/
def State.conclude (s : State) (tys : List Ty) (words : List W32) (r : Run) (sh : Shape) (s' : State) (r' : Run)
    (eff : Effect) : State :=
  let r'' := s.advance r sh (s.heldVal r sh tys) r'
  if !s.endsHere r sh then s'.putRun r''
  else
    let closed := fun (t : State) => ((t.fenced r'').stepStop r'').settle
    let falls := fun (f : State → State) =>
      match s'.checkFall r sh with
      | .error e => s'.raiseRun r { e with enc := words }
      | .ok s' => closed (f (s'.commit (s.lastRun r sh r'')))
    match eff with
    | .leave f => closed (f (s'.commit (s.lastRun r sh r'')) r'')
    | .own f => falls fun t => f t r''
    | .goOn => falls fun t => t.goOn r.wave r.group (r.next sh)

/-! ## Waits for other devices' acknowledgements (R181, R185) -/

/-- Instructions with a release part at commit (R176). -/
def releases : Instr → Bool
  | .atom _ o _ => o = .rel || o = .ar | .atoms _ o _ => o = .rel || o = .ar
  | .bar _ => true | .cbar .. => true | .fork _ => true | .exit _ => true | .trig _ => true | .depdec .. => true
  | .enq _ => true | .copy .. => true | .mma _ => true | .accdrain _ => true | .ncall .. => true | .wbind _ => true
  | .gmv .. => true | .gmm .. => true | .binapp .. => true | .binreplay _ => true | .wlinit _ => true
  | .wlpush _ => true | .wlins _ => true | .wlpopb _ => true | .coll .. => true | .rayq .. => true
  | .semsig .. => true | .qpush .. => true | .engage _ => true
  | _ => false

/-- The address a store in hand writes in a lane (R82, R88, R438). -/
def storeAddr (i : Instr) (a : Word) : Option Word :=
  let at_ := fun (off : BitVec 12) (lit : Option W32) =>
    match lit with | some l => a + l.signExtend 64 | none => a + off.signExtend 64
  match i with
  | .st f => some (at_ f.off f.lit) | .stl f => some (at_ f.off f.lit)
  | .stS64 _ => some a | .stS32 _ => some a
  | _ => none

/-- The stores that the instruction in hand makes at other devices: lane and address. -/
def State.storesAway (s : State) (r : Run) (sh : Shape) (i : Instr) : List (Fin 32 × Nat) :=
  (lanesOf (s.actors r sh)).filterMap fun l =>
    match sh.srcs[0]? with
    | none => none
    | some o => match storeAddr i (s.operand r l o tyW64 none).bits with
      | none => none
      | some va => match s.translate (s.xctx r.wave) va.toNat .write with
        | .ok (x, _) => if s.isLocal x.hpa then none else some (l, x.hpa)
        | .error _ => none

/-- The stores at other devices of a run that is about to commit: lane and address. -/
def State.runAway (s : State) (r : Run) (sh : Shape) (i : Instr) : List (Fin 32 × Nat) :=
  (r.stores.filterMap fun e => match e.loc with
    | .phys _ hpa => if s.isLocal hpa then none else some (e.lane, hpa)
    | .scr .. => none) ++ s.storesAway r sh i

/-- Those of them that are not acknowledged at this moment, nor refused. -/
def State.awayOpen (s : State) (r : Run) (sh : Shape) (i : Instr) : List (Fin 32 × Nat) :=
  (s.runAway r sh i).filter fun p => !Config.peerAnswers s.tick p.2
    && !s.remotes.any fun x => x.wave = r.wave && x.lane = p.1 && x.hpa = p.2 && x.held && x.refused

/-- Must a run that ends with a release part, or holds one, wait before it commits for the acknowledgement of its
threads' earlier stores to other devices, its own among them (R181, R185, R319)? DESIGN CHOICE, unsafe (log 68). -/
def State.owesAck (s : State) (r : Run) (sh : Shape) (i : Instr) : Bool :=
  s.endsHere r sh && (releases i || r.fence ≠ 0 || r.stores.any (fun e => e.kind = .marked)
      || (match i with | .stl _ => true | .fence _ => true | _ => false))
    && ((s.remotes.any fun x => x.write && x.wave = r.wave && LaneMask.has r.group x.lane)
      || !(s.awayOpen r sh i).isEmpty)

/-- Notes the stores that a commit waits for, each with the time the wait began. -/
def State.holdStores (s : State) (r : Run) (sh : Shape) (i : Instr) : State :=
  (s.awayOpen r sh i).foldl
    (fun s p =>
      if s.remotes.any fun x => x.wave = r.wave && x.lane = p.1 && x.hpa = p.2 && x.held then s
      else { s with remotes := s.remotes ++
          [{ wave := r.wave, lane := p.1, hpa := p.2, write := false, dst := .void, since := s.now, pc := r.start,
             acq := false, held := true, refused := false, enc := [] }] }) s

/-- One instruction of the run in hand: the checks of R98, the wait of R24, the body, and commit when it ends the run.
`tys` are the source types in order (R449). DEDUCED, unsafe (log 36). -/
def execute (s : State) (i : Instr) (tys : List Ty) (body : State → Run → Shape → Body) :
    Host.Outcome State Fault Refusal :=
  match s.runs, i.shape with
  | [], _ => .fault .noIssueGroup
  | _, none => .fault .noIssueGroup
  | r :: _, some sh =>
    let words := encode i
    match s.illegal r.wave r.group r.holds (s.lastOfText r sh) i with
    | some slotw =>
      .next (s.raiseRun r { code := Code.illegal, addr := r.pc.toNat, enc := words, slotw := slotw.toNat })
    | none =>
      if s.mustWait r sh then .next (s.putRun { r with suspended := true })
      else if s.owesAck r sh i then .next ((s.holdStores r sh i).putRun { r with suspended := true })
      else
        match body (s.tokenReads r sh) r sh with
        | .fault s e => .next (s.raiseRun r { e with enc := words })
        | .wait s => .next (s.putRun { r with suspended := true })
        | .waitWith s r => .next (s.putRun { r with suspended := true })
        | .gone s => .next s
        | .done s' r' eff => .next (s.conclude tys words r sh s' r' eff)

end Sys2Proof.Machine
end

