-- ==== Sys2Proof/Machine/Alu.lean ====
section
/-!
DEFINITION. The shared operation of the ALU class: per-lane, per-sub-element results under masks, poison and FPX (R59,
R80, R130, R193, R194).
-/

namespace Sys2Proof.Machine

open Sys2Proof

/-- What a lane computes from. -/
structure LaneIn where
  lane : Fin 32
  ops  : List Val
  mask : BitVec 8
  regs : Regs
  wid  : Word

def LaneIn.a (x : LaneIn) : Word := (x.ops.getD 0 Val.zero).bits
def LaneIn.b (x : LaneIn) : Word := (x.ops.getD 1 Val.zero).bits
def LaneIn.c (x : LaneIn) : Word := (x.ops.getD 2 Val.zero).bits

/-- What a lane gets: a value, its poison, and flags. -/
structure LaneOut where
  val    : Word
  poison : BitVec 8
  flags  : Flags
  deriving DecidableEq, Repr

/-- The operands of a lane, by the types of its sources. -/
def State.laneIn (s : State) (r : Run) (sh : Shape) (tys : List Ty) (l : Fin 32) : LaneIn :=
  { lane := l,
    ops := (List.range sh.srcs.length).map fun k =>
      match sh.srcs[k]? with
      | some o => s.operand r l o (tys.getD k tyW64) sh.lit
      | none => Val.zero,
    mask := r.spec[l].mask sh.pm, regs := r.spec[l], wid := (s.thread r.wave l).wid }

/-- Does the lane consume poison in an enabled sub-element of width w (R194)? -/
def LaneIn.poisoned (x : LaneIn) (w : Width) : Bool := x.ops.any fun v => v.poisoned w x.mask

/-- The POISON fault of the lanes that raise it. -/
def poisonExc (m : LaneMask) : Exc := { code := Code.poison, sub := 0, lanes := m }

/-- FPX over all lanes: its subcode is every flag that raises it (R130). -/
def fpxExc (m : LaneMask) (raised : Flags) : Exc := { code := Code.fpx, sub := raised.toNat, lanes := m }

/-- The lanes' new registers, and the flags that commit will set. -/
def Run.write (r : Run) (flags : Fin 32 → Flags) (put : Fin 32 → Regs → Regs) : Run :=
  { r with
    wiped := r.wiped ++ (lanesOf r.group).flatMap fun l => (wipes (put l) r.spec[l]).map fun x => (l, x.1, x.2),
    spec := r.spec.mapFinIdx fun i regs h => if LaneMask.has r.group ⟨i, h⟩ then put ⟨i, h⟩ regs else regs,
    flags := r.flags.mapFinIdx fun i f h => if LaneMask.has r.group ⟨i, h⟩ then orFlags f (flags ⟨i, h⟩) else f }

/-- FPX or the new registers of a group (R130, R193). -/
def finishPut (s : State) (r : Run) (trap : Bool) (flags : Fin 32 → Flags) (put : Fin 32 → Regs → Regs) : Body :=
  let fpx := fun l => fpxFlags r.spec[l].fpen trap (flags l)
  let m := maskWhere fun l => LaneMask.has r.group l && fpx l ≠ 0
  if m ≠ 0 then .fault s (fpxExc m ((lanesOf m).foldl (fun a l => a ||| fpx l) 0))
  else .done s (r.write flags put) .goOn

/-- The same for results of sub-elements of one width in a destination. -/
def finishLanes (s : State) (r : Run) (sh : Shape) (w : Width) (trap : Bool) (mask : Fin 32 → BitVec 8)
    (out : Fin 32 → LaneOut) : Body :=
  finishPut s r trap (fun l => (out l).flags)
    fun l regs => regs.put sh.dst w (mask l) ⟨(out l).val, (out l).poison⟩

/-- An instruction of the ALU class whose lanes compute on their own. `pw` is the width that masks and poison use;
`copies` when poison is carried and not consumed. -/
def aluBody (tys : List Ty) (pw w : Width) (copies trap : Bool) (f : LaneIn → LaneOut) (s : State) (r : Run)
    (sh : Shape) : Body :=
  let x := s.laneIn r sh tys
  let bad := maskWhere fun l => LaneMask.has r.group l && !copies && (x l).poisoned pw
  if bad ≠ 0 then .fault s (poisonExc bad)
  else finishLanes s r sh w trap (fun l => (x l).mask) fun l => f (x l)

/-- A value without poison or flags. -/
def plain (v : Word) : LaneOut := { val := v, poison := 0, flags := 0 }

/-- Sub-element j of the result from sub-element j of the operands, without flags. -/
def perSub (w : Width) (g : Nat → Nat → Nat → Nat) (x : LaneIn) : LaneOut :=
  plain (ofSubs w fun j => g (sub w x.a j) (sub w x.b j) (sub w x.c j))

/-- The same with rounding flags; a disabled sub-element sets none (R59). -/
def perSubF (w : Width) (g : Nat → Nat → Nat → Rnd) (x : LaneIn) : LaneOut :=
  let one := fun j => g (sub w x.a j) (sub w x.b j) (sub w x.c j)
  { val := ofSubs w fun j => (one j).bits, poison := 0,
    flags := (List.range w.count).foldl (fun a j => if x.mask.getLsbD j then a ||| (one j).flags else a) 0 }

/-- An integer or float instruction of one element type (R80). -/
def aluOp (i : Instr) (t : Ty) (f : LaneIn → LaneOut) (s : State) : Host.Outcome State Fault Refusal :=
  execute s i [t, t, t] (aluBody [t, t, t] t.width t.width false false f)

def intOp (i : Instr) (t : ITy) (g : Nat → Nat → Nat → Nat) (s : State) : Host.Outcome State Fault Refusal :=
  aluOp i (.int t) (perSub t.width g) s

def fltOp (i : Instr) (t : FTy) (g : Nat → Nat → Nat → Rnd) (s : State) : Host.Outcome State Fault Refusal :=
  aluOp i (.flt t) (perSubF t.width g) s

end Sys2Proof.Machine
end

