-- ==== Sys2Proof/Machine/Groups.lean ====
section
/-!
DEFINITION. The groups of threads that may issue next: those of one wave at one address whose first instruction waits for
nothing (R23, R40), and since when they have been ready (R293).
-/

namespace Sys2Proof.Machine

open Sys2Proof

/-- Does something of n words at an address cross a fetch line (R73)? -/
def crossesLine (va : Word) (n : Nat) : Bool := decide (128 < va.toNat % 128 + 4 * n)

/-- The instruction in memory at an address. DEDUCED, safe (log 38). -/
def State.instrAt (s : State) (c : Xctx) (pc : Word) : Option Instr :=
  match s.peekWords c pc with
  | some ws => match decodeWords ws with
    | .ok (i, _) => some i
    | .error _ => none
  | none => none

/-! ## Groups -/

def State.inRun (s : State) (w : WaveId) (l : Fin 32) : Bool :=
  s.runs.any fun r => r.wave = w && LaneMask.has r.group l

/-- Threads of a wave that stand before a run and wait for nothing. -/
def State.standing (s : State) (w : WaveId) (v : Wave) : LaneMask :=
  maskWhere fun l => v.lanes[l].status = .ready && !v.lanes[l].stopped && !s.inRun w l

/-- The threads of a mask by the address they stand at. -/
def Wave.byPc (v : Wave) (m : LaneMask) : List (Word × LaneMask) :=
  (((lanesOf m).map fun l => v.lanes[l].pc).eraseDups).map fun pc =>
    (pc, maskWhere fun l => LaneMask.has m l && v.lanes[l].pc = pc)

/-- Does a thread of a group that WSYNC released wait at a rejoin at an address? -/
def Wave.rejoining (v : Wave) (g : LaneMask) (pc : Word) : Bool :=
  (lanesOf g).any fun l => v.lanes[l].status = .waiting (.rejoin pc)

/-- The run that a group's threads stand before. -/
def Wave.runOf (v : Wave) (w : WaveId) (m : LaneMask) : Run :=
  let t := v.lanes[lowestLane m]
  Run.fresh w v m t.runStart t.blk

/-- The threads of a run's group whose first instruction is ready or issuable (R23); one that faults is.
DESIGN CHOICE, safe (log 39). -/
def State.startingLanes (s : State) (r : Run) : LaneMask :=
  match (s.instrAt (s.xctx r.wave) r.pc).bind Instr.shape with
  | some sh => maskWhere fun l => LaneMask.has r.group l && !s.laneWaits r sh l
  | none => r.group

/-- The candidate groups of a wave (R23). A group that WSYNC released stays apart from the other threads of its wave, and
is a candidate only whole (R40). DEDUCED, unsafe (log 41). -/
def State.readyGroups (s : State) (w : WaveId) (v : Wave) : List (Word × LaneMask) :=
  let free := s.standing w v
  let rest := v.groups.foldl (fun m g => m &&& ~~~g) free
  let start := fun (p : Word × LaneMask) => s.startingLanes (v.runOf w p.2)
  (v.groups.flatMap fun g => (v.byPc (g &&& free)).filter fun p => !v.rejoining g p.1 && start p = p.2)
    ++ ((v.byPc rest).map fun p => (p.1, start p)).filter fun p => p.2 ≠ 0

/-- The cycle since which a group has been ready. -/
def Wave.readySince (v : Wave) (m : LaneMask) (now : Nat) : Nat :=
  (lanesOf m).foldl (fun n l => min n v.lanes[l].since) now

/-- When the group at an address was promoted; an entry that an earlier group left there is none (R293). -/
def Wave.promotedAt (v : Wave) (g : Word × LaneMask) (now : Nat) : Option Nat :=
  (v.promoted.find? fun p => p.1 = g.1 && v.readySince g.2 now + 1024 ≤ p.2).map fun p => p.2

/-- The threads of a wave that could start a run now. -/
def State.startable (s : State) (w : WaveId) : LaneMask :=
  let v := s.wave w
  (v.byPc (s.standing w v)).foldl (fun m p => m ||| s.startingLanes (v.runOf w p.2)) 0

/-- Threads that could not start a run before a change and can after it have been ready from now on (R293). -/
def State.rouse (s old : State) (w : WaveId) : State :=
  let m := s.startable w &&& ~~~(old.startable w)
  if m = 0 then s else s.modLanes w m fun _ t => { t with since := s.now }

end Sys2Proof.Machine
end

