-- ==== Sys2Proof/Machine/Mem.lean ====
section
/-!
DEFINITION. The MEM class (R409 to R412, R438, R362, R394): addresses, the run store buffer's forwarding (R31), the L1 and
constant caches (R155, R156), stores, atomics at their homes, FENCE.
-/

namespace Sys2Proof.Machine

open Sys2Proof

/-! ## Addresses -/

/-- A + OFF, or A plus the literal (R82, R88). -/
def effective (a : Word) (off : BitVec 12) (lit : Option W32) : Word :=
  match lit with
  | some l => a + l.signExtend 64
  | none => a + off.signExtend 64

inductive Space where
  | glob | const | scr | peer
  deriving DecidableEq, Repr

/-- Where an access lies, and whether it bypasses the L1 (R156). -/
structure Spot where
  loc : Loc
  nc  : Bool

def Exc.bound (a : Word) (l : Fin 32) : Exc := { code := Code.prot, sub := 0, addr := a.toNat, lanes := laneBit l }

/-- The scratchpad byte of an offset in a team (R151). -/
def scrSpot (t : Team) (a : Word) (l : Fin 32) : Except Exc Loc :=
  if a.toNat ≥ t.scrSize then .error (Exc.bound a l) else .ok (.scr t.id a.toNat)

/-- The member of a cohort that a peer offset names (R152). -/
def State.member (s : State) (t : Team) (c : Nat) : Option Team :=
  s.teams.find? fun u => u.id.job = t.id.job && u.cohort = t.cohort && u.f1 = c

/-- The scratchpad byte of a peer offset (R152). -/
def State.peerSpot (s : State) (t : Team) (a : Word) (l : Fin 32) : Except Exc Loc :=
  let c := a.toNat / 2 ^ 18
  let o := a.toNat % 2 ^ 18
  match s.member t c with
  | none => .error (Exc.bound a l)
  | some u =>
    if o ≥ u.scrSize then .error (Exc.bound a l)
    else if u.scrState = .released then .error { code := Code.peerGone, sub := c, addr := a.toNat, lanes := laneBit l }
    else .ok (.scr u.id o)

/-- The checks of an access of n bytes: ALIGN, then translation or bounds (R150 to R152, R170, R193). -/
def State.spot (s : State) (r : Run) (l : Fin 32) (sp : Space) (a : Word) (n : Nat) (acc : Acc) :
    Except Exc (Spot × State) :=
  let t := s.team r.wave.team
  if a.toNat % n ≠ 0 then .error { code := Code.align, addr := a.toNat, lanes := laneBit l }
  else
    match sp with
    | .glob | .const =>
      match s.translate (s.xctx r.wave) a.toNat acc with
      | .error e => .error (e.exc l)
      | .ok (x, s) => .ok ({ loc := .phys (s.jobOf r.wave).part x.hpa, nc := x.nc }, s)
    | .scr => (scrSpot t a l).map fun loc => ({ loc := loc, nc := false }, s)
    | .peer => (s.peerSpot t a l).map fun loc => ({ loc := loc, nc := false }, s)

/-! ## Forwarding -/

/-- The byte that an entry of the run store buffer holds for a place. -/
def Store.byteAt (e : Store) (loc : Loc) (i : Nat) : Option Byte :=
  match e.loc, loc with
  | .phys _ x, .phys _ y => if x ≤ y + i then e.bytes[y + i - x]? else none
  | .scr t x, .scr u y => if t = u && x ≤ y + i then e.bytes[y + i - x]? else none
  | _, _ => none

/-- The last earlier store of the thread to a byte, with its poison (R31). -/
def Run.forwarded (r : Run) (l : Fin 32) (loc : Loc) (i : Nat) : Option (Byte × Bool) :=
  r.stores.foldl
    (fun acc e => if e.lane = l then (match e.byteAt loc i with | some b => some (b, e.poison) | none => acc) else acc)
    none

/-- Memory's bytes with those of the buffer over them; true when some byte read is poisoned (R194). -/
def Run.overlay (r : Run) (l : Fin 32) (loc : Loc) (base : List Byte) (bad : Bool) : List Byte × Bool :=
  let fw := (List.range base.length).map fun i => r.forwarded l loc i
  ((List.range base.length).map fun i =>
      match fw.getD i none with | some (b, _) => b | none => base.getD i 0,
   fw.any fun o => match o with | some (_, p) => p | none => bad)

/-! ## Caches -/

/-- The bytes of a line of memory. -/
def State.lineBytes (s : State) (part hpa : Nat) : List Byte := s.readPhys part (hpa / 128 * 128) 128

/-- A line's O bit at its fill (R180). -/
def State.ownsLine (s : State) (core part hpa : Nat) : Bool :=
  (List.range 32).all fun i => getAssoc (s.key part (hpa / 128 * 128 + 4 * i)) s.owners = some core

/-- A load through the L1 (R156): a hit's bytes, or a fill. A full L1 loses a line that the device picks.
DESIGN CHOICE, safe (log 47). -/
def State.loadL1 (s : State) (core ctx : Nat) (va : Word) (part hpa n : Nat) : List Byte × State :=
  let off := hpa % 128
  match s.l1.find? fun e => e.core = core && e.ctx = ctx && e.vline = va.toNat / 128 with
  | some e => ((e.data.drop off).take n, s)
  | none =>
    let e : L1Line :=
      { core := core, ctx := ctx, vline := va.toNat / 128, pline := hpa / 128, data := s.lineBytes part hpa,
        own := s.ownsLine core part hpa, fill := s.now }
    let s := s.dropStale core hpa
    let mine := s.l1.filter fun x => x.core = core
    let old := if mine.length < 1024 then s.l1 else
      match mine[s.pickNo 2 va.toNat % mine.length]? with
      | some v => s.l1.filter fun x => x ≠ v
      | none => s.l1
    ((e.data.drop off).take n, { s with l1 := e :: old })

/-- A load through the constant cache (R155). DESIGN CHOICE, safe (log 47). -/
def State.loadConst (s : State) (core ctx : Nat) (va : Word) (part hpa n : Nat) : List Byte × State :=
  let off := hpa % 128
  match s.ccache.find? fun e => e.core = core && e.ctx = ctx && e.vline = va.toNat / 128 with
  | some e => ((e.data.drop off).take n, s)
  | none =>
    let e : CLine :=
      { core := core, ctx := ctx, vline := va.toNat / 128, pline := hpa / 128, data := s.lineBytes part hpa }
    let mine := s.ccache.filter fun x => x.core = core
    let old := if mine.length < 256 then s.ccache else
      match mine[s.pickNo 3 va.toNat % mine.length]? with
      | some v => s.ccache.filter fun x => x ≠ v
      | none => s.ccache
    ((e.data.drop off).take n, { s with ccache := e :: old })

/-! ## Loads -/

/-- What a lane's access gives: a value, a fault, or a wait for another device. -/
inductive Got where
  | got (v : Word) | bad (e : Exc) | hold (hpa : Nat)

inductive LoadPath where
  | l1 (ch : Bool) | home | cc | scr
  deriving DecidableEq, Repr

def poisonAt (l : Fin 32) (sub : Nat) : Exc := { code := Code.poison, sub := sub, lanes := laneBit l }

/-- One lane's load of n bytes (R409 to R412). -/
def State.loadLane (s : State) (r : Run) (l : Fin 32) (sp : Space) (path : LoadPath) (a : Val) (va : Word) (n : Nat) :
    Got × State :=
  match s.spot r l sp va n .read with
  | .error e => (.bad e, s)
  | .ok (x, s) =>
    if a.bad then (.bad (poisonAt l 0), s)
    else
      let core := (s.team r.wave.team).coreNo
      let ctx := (s.jobOf r.wave).asd.ctx
      let finish := fun (base : List Byte) (bad : Bool) (s : State) =>
        let (bs, p) := r.overlay l x.loc base bad
        (if p then Got.bad (poisonAt l 1) else .got (w64 (natLE bs)), s)
      match x.loc with
      | .scr t o => finish (s.readScr t o n) ((s.team t).scrPoison.contains (o / 128)) s
      | .phys part hpa =>
        if !s.isLocal hpa then
          if !Config.peerAnswers s.tick hpa then (.hold hpa, s)
          else
            let s := if path = .home then s.acquire core Sig.all else s
            finish (s.readPhys part hpa n) false s
        else
          let bad := s.linePoisoned part hpa
          match path with
          | .l1 false => if x.nc then finish (s.readPhys part hpa n) bad (s.dropStale core hpa)
              else let (bs, s) := s.loadL1 core ctx va part hpa n; finish bs bad s
          | .cc => let (bs, s) := s.loadConst core ctx va part hpa n; finish bs bad s
          | .home => finish (s.readPhys part hpa n) bad (s.acquire core (s.getSigs x.loc n))
          | _ => finish (s.readPhys part hpa n) bad (s.dropStale core hpa)

/-- Runs a lane's access for each of a list of lanes, each after those before it. -/
def gather (one : State → Fin 32 → Got × State) : List (Fin 32) → State → List (Fin 32 × Got) × State
  | [], s => ([], s)
  | l :: ls, s =>
    let (g, s) := one s l
    let (gs, s) := gather one ls s
    ((l, g) :: gs, s)

def excsOf (gs : List (Fin 32 × Got)) : List (Fin 32 × Exc) :=
  gs.filterMap fun g => match g.2 with | .bad e => some (g.1, e) | _ => none

def holdsOf (gs : List (Fin 32 × Got)) : List (Fin 32 × Nat) :=
  gs.filterMap fun g => match g.2 with | .hold a => some (g.1, a) | _ => none

def valueOf (gs : List (Fin 32 × Got)) (l : Fin 32) : Word :=
  match gs.find? fun g => g.1 = l with
  | some (_, .got v) => v
  | _ => 0

/-- Notes the reads of other devices that a run waits for, each with the time it began (R319). -/
def State.awaitRemote (s : State) (r : Run) (hs : List (Fin 32 × Nat)) : State :=
  hs.foldl
    (fun s h =>
      if s.remotes.any fun x => x.wave = r.wave && x.lane = h.1 && !x.write && !x.held then s
      else { s with remotes := s.remotes ++
          [{ wave := r.wave, lane := h.1, hpa := h.2, write := false, dst := .void, since := s.now, pc := r.start,
             acq := false, held := false, refused := false, enc := [] }] }) s

/-- DESIGN CHOICE, safe (log 11). -/
def State.remoteDone (s : State) (r : Run) : State :=
  { s with remotes := s.remotes.filter fun x => !(x.wave = r.wave && !x.write && !x.held && LaneMask.has r.group x.lane) }

/-- The address operand of an access. -/
def State.addrOf (s : State) (r : Run) (sh : Shape) (l : Fin 32) : Val :=
  match sh.srcs[0]? with
  | some o => s.operand r l o tyW64 none
  | none => Val.zero

def State.dataOf (s : State) (r : Run) (sh : Shape) (l : Fin 32) : Val :=
  match sh.srcs[1]? with
  | some o => s.operand r l o tyW64 none
  | none => Val.zero

/-- The requests that lanes' accesses have made, as they are sampled (R331). -/
def State.requests (s : State) (r : Run) (sp : Space) (acc : Acc) (as_ : List (Fin 32 × Word × Nat)) : List Sample :=
  as_.filterMap fun a =>
    match s.spot r a.1 sp a.2.1 a.2.2 acc with
    | .ok (x, _) => match x.loc with | .phys part hpa => some (s.sampleAt r.pc part hpa) | _ => none
    | .error _ => none

/-- The state once the walks of lanes' accesses are done: an LDA reads a word once, for all lanes that name it (R235). -/
def State.reached (s : State) (r : Run) (sp : Space) (acc : Acc) (as_ : List (Fin 32 × Word × Nat)) : State :=
  as_.foldl
    (fun s a => match s.spot r a.1 sp a.2.1 a.2.2 acc with
      | .ok (_, s) => s
      | .error _ => s) s

/-- The five loads (R409). -/
def loadBody (sp : Space) (path : LoadPath) (w : Width) (off : BitVec 12) (s : State) (r : Run) (sh : Shape) : Body :=
  let act := r.active sh
  let a := s.addrOf r sh
  let at_ := (lanesOf act).map fun l => (l, effective (a l).bits off sh.lit, w.bytes)
  let s := if path = .home then s.reached r sp .read at_ else s
  let (gs, s) := gather
    (fun s l => s.loadLane r l sp path (a l) (effective (a l).bits off sh.lit) w.bytes) (lanesOf act) s
  match firstExc (excsOf gs) with
  | some e => .fault s e
  | none =>
    let hs := holdsOf gs
    if !hs.isEmpty then .wait (s.awaitRemote r hs)
    else
      let s := s.remoteDone r
      let (xs, s) :=
        if path matches .l1 _ then s.sampled (s.jobOf r.wave).vf (s.requests r sp .read at_) else ([], s)
      .done s
        (({ r with samples := r.samples ++ xs } : Run).write (fun _ => 0) fun l regs => regs.putThread sh.dst (LaneMask.has act l) ⟨valueOf gs l, 0⟩) .goOn

def memTys : List Ty := [tyW64, tyW64]

def execLd (f : Mem) (s : State) := execute s (.ld f) memTys (loadBody .glob (.l1 f.ch) f.w f.off)
def execLda (f : Mem) (s : State) := execute s (.lda f) memTys (loadBody .glob .home f.w f.off)
def execLdc (f : Mem) (s : State) := execute s (.ldc f) memTys (loadBody .const .cc f.w f.off)
def execLds (f : Mem) (s : State) := execute s (.lds f) memTys (loadBody .scr .scr f.w f.off)
def execLdx (f : Mem) (s : State) := execute s (.ldx f) memTys (loadBody .peer .scr f.w f.off)
def execLdS64 (f : Short) (s : State) := execute s (.ldS64 f) memTys (loadBody .glob (.l1 false) .b64 0)
def execLdS32 (f : Short) (s : State) := execute s (.ldS32 f) memTys (loadBody .glob (.l1 false) .b32 0)
def execLdsS64 (f : Short) (s : State) := execute s (.ldsS64 f) memTys (loadBody .scr .scr .b64 0)
def execLdsS32 (f : Short) (s : State) := execute s (.ldsS32 f) memTys (loadBody .scr .scr .b32 0)

/-! ## Stores -/

/-- The words of the instruction in hand, for a record that tells of it later (R197). -/
def State.encAt (s : State) (r : Run) : List W32 := (s.peekWords (s.xctx r.wave) r.pc).getD []

/-- One lane's store: its checks, and its entry for the run store buffer (R31, R438). -/
def State.storeLane (s : State) (r : Run) (l : Fin 32) (sp : Space) (kind : StoreKind) (a d : Val) (va : Word) (n : Nat) :
    Except Exc (Store × State) :=
  match s.spot r l sp va n .write with
  | .error e => .error e
  | .ok (x, s) =>
    if a.bad then .error (poisonAt l 0)
    else
      .ok ({ lane := l, loc := x.loc, va := va, bytes := bytesLE n d.bits.toNat,
             poison := (List.range n).any fun i => d.poison.getLsbD i, kind := kind, inst := r.count,
             pc := r.pc, enc := s.encAt r }, s)

/-- The stores of a list of lanes, with the faults that some raise. -/
def storeLanes (one : State → Fin 32 → Except Exc (Store × State)) :
    List (Fin 32) → State → List Store × List (Fin 32 × Exc) × State
  | [], s => ([], [], s)
  | l :: ls, s =>
    match one s l with
    | .error e => let (es, xs, s) := storeLanes one ls s; (es, (l, e) :: xs, s)
    | .ok (e, s) => let (es, xs, s) := storeLanes one ls s; (e :: es, xs, s)

/-- The four stores (R438). -/
def storeBody (sp : Space) (kind : StoreKind) (w : Width) (off : BitVec 12) (s : State) (r : Run) (sh : Shape) : Body :=
  let a := s.addrOf r sh
  let d := s.dataOf r sh
  let (es, xs, s) := storeLanes
    (fun s l => s.storeLane r l sp kind (a l) (d l) (effective (a l).bits off sh.lit) w.bytes) (lanesOf (s.actors r sh)) s
  match firstExc xs with
  | some e => .fault s e
  | none => .done s { r with stores := r.stores ++ es } .goOn

def execSt (f : Mem) (s : State) := execute s (.st f) memTys (storeBody .glob .plain f.w f.off)
def execStl (f : Mem) (s : State) := execute s (.stl f) memTys (storeBody .glob .marked f.w f.off)
def execSts (f : Mem) (s : State) := execute s (.sts f) memTys (storeBody .scr .plain f.w f.off)
def execStx (f : Mem) (s : State) := execute s (.stx f) memTys (storeBody .peer .plain f.w f.off)
def execStS64 (f : Short) (s : State) := execute s (.stS64 f) memTys (storeBody .glob .plain .b64 0)
def execStS32 (f : Short) (s : State) := execute s (.stS32 f) memTys (storeBody .glob .plain .b32 0)
def execStsS64 (f : Short) (s : State) := execute s (.stsS64 f) memTys (storeBody .scr .plain .b64 0)
def execStsS32 (f : Short) (s : State) := execute s (.stsS32 f) memTys (storeBody .scr .plain .b32 0)

/-! ## Atomics -/

def fmtOf (wide : Bool) : Fmt := if wide then .f64 else .f32

/-- The new value of a word of b bits (R362). -/
def atomicNew (op : AOp) (b : Nat) (old v cmp : Nat) : Nat :=
  let f := fmtOf (b = 64)
  match op with
  | .add => (old + v) % 2 ^ b
  | .smin => if signed b v < signed b old then v else old
  | .smax => if signed b old < signed b v then v else old
  | .umin => min old v
  | .umax => max old v
  | .and => old &&& v
  | .or => old ||| v
  | .xor => old ^^^ v
  | .exch => v
  | .cas => if old = cmp then v else old
  | .fadd => (f.add .ne (f.decode old) (f.decode v)).bits
  | .fmin => (f.minmax false old v).bits
  | .fmax => (f.minmax true old v).bits

/-- An atomic that has passed its checks. -/
structure AtomReq where
  lane : Fin 32
  loc  : Loc
  v    : Nat
  cmp  : Nat
  enc  : List W32
  deriving DecidableEq, Repr

/-- A read-modify-write of n bytes at its home by a bank unit or a scratchpad (R156, R163, R180): the old value.
DESIGN CHOICE, safe (log 48). -/
def State.atomicAt (s : State) (core : Nat) (loc : Loc) (op : AOp) (n v cmp : Nat) : Nat × State :=
  match loc with
  | .phys p hpa =>
    let old := natLE (s.readPhys p hpa n)
    let s := s.writeMem .other true p hpa (bytesLE n (atomicNew op (8 * n) old v cmp))
    (old, { s with l1 := s.l1.filter fun e => !(e.core = core && e.pline = hpa / 128) })
  | .scr t o =>
    let old := natLE (s.readScr t o n)
    (old, s.modTeam t fun u => { u with scr := u.scr.writeL o (bytesLE n (atomicNew op (8 * n) old v cmp)) })

/-- One lane's atomic at commit, with its release and acquire parts (R176, R182, R362). An atomic at a device that does
not answer leaves its thread waiting (R319). -/
def State.atomLane (s : State) (r : Run) (op : AOp) (ord : Ord4) (w : Width) (d : Dst) (q : AtomReq) : State :=
  let core := (s.team r.wave.team).coreNo
  let m := laneBit q.lane
  let rel := ord = .rel || ord = .ar
  let acq := ord = .acq || ord = .ar
  let (sig, s) := if rel then s.takeSig r.wave m else (0, s)
  let remote := match q.loc with | .phys _ hpa => if s.isLocal hpa then none else some hpa | _ => none
  let put := fun (s : State) (v : Nat) => s.setRegs r.wave q.lane fun g => g.put d .b64 0xFF ⟨w64 v, 0⟩
  match remote with
  | some hpa =>
    let s := s.modLanes r.wave m fun _ t => t.addSig (lineSig hpa)
    if Config.peerAnswers s.tick hpa then
      let s := put s (natLE (s.readPhys (s.jobOf r.wave).part hpa w.bytes))
      if acq then s.acquire core Sig.all else s
    else
      { s with remotes := s.remotes ++
          [{ wave := r.wave, lane := q.lane, hpa := hpa, write := true, dst := d, since := s.now, pc := r.start,
             acq := acq, held := false, refused := false, enc := q.enc }] }
  | none =>
    let got := s.getSigs q.loc w.bytes
    let (old, s) := s.atomicAt core q.loc op w.bytes q.v q.cmp
    let s := if rel then s.putSigs q.loc w.bytes sig (ord = .ar) else s
    let s := match q.loc with
      | .phys _ hpa => s.modLanes r.wave m fun _ t => t.addSig (lineSig hpa)
      | .scr .. => s
    let s := put s old
    if acq then s.acquire core got else s

/-- The checks of an atomic in one lane (R362). -/
def State.atomCheck (s : State) (r : Run) (sh : Shape) (sp : Space) (op : AOp) (w : Width) (d : Dst) (l : Fin 32) :
    Except Exc (AtomReq × State) :=
  let a := s.addrOf r sh l
  let v := s.dataOf r sh l
  let c := match d, op with
    | .n k, .cas => r.spec[l].n[k]
    | _, _ => Val.zero
  let bad := fun (x : Val) => (List.range w.bytes).any fun i => x.poison.getLsbD i
  match s.spot r l sp a.bits w.bytes .write with
  | .error e => .error e
  | .ok (x, s) =>
    if a.bad || bad v || bad c then .error (poisonAt l 0)
    else
      .ok ({ lane := l, loc := x.loc, v := v.bits.toNat % 2 ^ w.bits, cmp := c.bits.toNat % 2 ^ w.bits,
             enc := s.encAt r }, s)

def atomChecks (one : State → Fin 32 → Except Exc (AtomReq × State)) :
    List (Fin 32) → State → List AtomReq × List (Fin 32 × Exc) × State
  | [], s => ([], [], s)
  | l :: ls, s =>
    match one s l with
    | .error e => let (es, xs, s) := atomChecks one ls s; (es, (l, e) :: xs, s)
    | .ok (e, s) => let (es, xs, s) := atomChecks one ls s; (e :: es, xs, s)

/-- The threads that still wait for another device's answer, of a mask. -/
def State.remoteWaits (s : State) (w : WaveId) (m : LaneMask) : LaneMask :=
  maskWhere fun l => LaneMask.has m l && s.remotes.any fun x => x.wave = w && x.lane = l && x.dst ≠ .void

/-- Threads go on, but for those that wait for a remote atomic's result. DESIGN CHOICE, safe (log 11). -/
def State.goOnRemote (s : State) (w : WaveId) (m : LaneMask) (pc next : Word) : State :=
  let late := s.remoteWaits w m
  (s.waitAt w late pc next .remote).goOn w (m &&& ~~~late) next

/-- A thread that takes no part in an instruction that pushes at commit still pushes (R49, R75). -/
def State.putIdle (s : State) (w : WaveId) (m : LaneMask) (d : Dst) : State :=
  (lanesOf m).foldl (fun s l => s.setRegs w l fun g => g.putThread d false Val.zero) s

/-- ATOM and ATOMS (R362): at commit, in the order of R179. -/
def atomBody (sp : Space) (op : AOp) (ord : Ord4) (w : Width) (d : Dst) (s : State) (r : Run) (sh : Shape) : Body :=
  let act := s.actors r sh
  let (qs, xs, s) := atomChecks (fun s l => s.atomCheck r sh sp op w d l) (lanesOf act) s
  match firstExc xs with
  | some e => .fault s e
  | none =>
    let order := if sp = .scr then qs else shuffle (fun n => s.pickNo 4 n) qs.length qs
    .done s r (.own fun s r' =>
      let s := order.foldl (fun s q => s.atomLane r' op ord w d q) s
      let s := s.putIdle r'.wave (r'.group &&& ~~~act) d
      let v := (s.jobOf r'.wave).vf
      let (xs, s) := s.sampled v (order.filterMap fun q =>
        match q.loc with | .phys part hpa => some (s.sampleAt r.pc part hpa) | _ => none)
      let s := (s.sampleRecords v xs false true).tallyHomes v (order.map fun q => q.loc)
      s.goOnRemote r'.wave r'.group r.pc (r.next sh))

def execAtom (op : AOp) (ord : Ord4) (f : Mem) (s : State) :=
  execute s (.atom op ord f) memTys (atomBody .glob op ord f.w f.d)
def execAtoms (op : AOp) (ord : Ord4) (f : Mem) (s : State) :=
  execute s (.atoms op ord f) memTys (atomBody .scr op ord f.w f.d)

/-! ## FENCE -/

/-- Marks the run; its commit does the rest (R184, R394). -/
def fenceBody (s : State) (r : Run) (sh : Shape) : Body := .done s { r with fence := r.fence ||| r.active sh } .goOn

def execFence (f : Mem) (s : State) := execute s (.fence f) [] fenceBody

end Sys2Proof.Machine
end

