-- ==== Sys2Proof/Machine/Engine.lean ====
section
/-!
DEFINITION. What the engines share: sequence numbers (R220), token registers (R69, R192), commands and their records
(R197), the checks of ENG instructions, and reads and writes of an engine as an agent (R174, R186, R188).
-/

namespace Sys2Proof.Machine

open Sys2Proof

/-! ## Sequence numbers and tokens -/

/-- The wave's next command number (R220). DEDUCED, unsafe (log 46). -/
def State.takeSeq (s : State) (w : WaveId) : W32 × State :=
  let n := (s.wave w).cmds + 1
  (n, s.modWave w fun v => { v with cmds := n })

def bit32 (k : Nat) : BitVec 32 := BitVec.ofNat 32 (2 ^ k)

/-- A register of the lanes of a mask becomes pending (R69). -/
def State.setPending (s : State) (w : WaveId) (m : LaneMask) (k : Nat) : State :=
  s.modLanes w m fun _ t => { t with pend := t.pend ||| bit32 k }

/-- A register of a thread is no longer pending: here, in the image of a saved team, and for the threads that waited for it
(R69, R204, R293). -/
def State.settleReg (s : State) (w : WaveId) (l : Fin 32) (k : Nat) : State :=
  ((s.modLanes w (laneBit l) fun _ t => { t with pend := t.pend &&& ~~~(bit32 k) }).imaged s w l).rouse s w

/-- An engine writes a register of a thread that has not exited; the register is no longer pending (R69, R387). -/
def State.engineWrite (s : State) (w : WaveId) (l : Fin 32) (k : Nat) (v : Word) : State :=
  if (s.thread w l).status.live then (s.setRegs w l fun g => g.setN k ⟨v, 0⟩).settleReg w l k else s

/-- A completion value, which carries the lines its engine wrote (R176, R182). -/
def State.writeToken (s : State) (w : WaveId) (l : Fin 32) (k : Nat) (v : Word) (sig : Sig) : State :=
  if (s.thread w l).status.live then
    (s.engineWrite w l k v).modLanes w (laneBit l) fun _ t =>
      { t with tokSig := some (t.tokSig.getD 0 ||| sig), tokReg := t.tokReg ||| bit32 k }
  else s

/-! ## Commands -/

/-- The ranges of a command that its instruction checks before commit: the core walks their pages (R218, R227, R228, R271,
R273, R378, R398). -/
def CmdKind.checked (k : CmdKind) (slots : Vector W32 8) : List (Nat × Nat) :=
  let slot := fun (i : Nat) => slots.toList.getD i 0
  match k with
  | .copy c =>
    if c.count = 0 then []
    else (if c.srcS then [] else [(c.src.toNat, 1)]) ++ if c.dstS then [] else [(c.dst.toNat, 1)]
  | .mma _ _ fs kc _ a b => [(a.toNat, operandBytes (slot fs) kc), (b.toNat, operandBytes (slot fs) kc)]
  | .drain _ _ fs rows a rowv colv =>
    (rowsOf rows).map (fun r => (a.toNat + r * drainRow (slot fs), drainRow (slot fs)))
      ++ (if rowv = 0 then [] else [(rowv.toNat, 256)]) ++ if colv = 0 then [] else [(colv.toNat, 256)]
  | .grammar _ _ a .. => [(a.toNat, 64)]
  | .binreplay _ _ stage => [(stage.toNat, 2 ^ 18)]
  | .wlinit a | .wlpush a _ | .wlins a _ _ | .wlpopb a _ _ => [(a.toNat, 128)]
  | .coll _ _ _ a .. => [(a.toNat, 1)]
  | .binapp .. | .enq .. | .wbind .. | .rayq .. => []

/-- The walks of the checks: A in the leaves they use, and their entries in the TLBs (R170, R172). -/
def State.walkChecked (s : State) (c : Xctx) (rs : List (Nat × Nat)) : State :=
  rs.foldl (fun s r => (pageStarts r.1 r.2).foldl (fun s va => s.touch c va .read) s) s

/-- A new command of a wave, with the memory its source reads may find (R186); nothing about it is answered yet.
DEDUCED, unsafe (log 46). -/
def State.newCmd (s : State) (w : WaveId) (m : LaneMask) (tok : Option Nat) (seq : W32) (pc : Word) (kind : CmdKind) :
    State :=
  let t := s.team w.team
  let c : Cmd :=
    { id := s.nextCmd, wave := w, lanes := m, tok := tok, seq := seq, pc := pc, cls := (s.jobOf w).card.cls,
      cluster := t.cluster, core := t.coreNo, wid := (s.thread w (lowestLane m)).wid, kind := kind, ticket := none,
      parked := [], drop := [], done := [], part := none, started := none, sig := 0, silent := false,
      enc := (s.peekWords (s.xctx w) pc).getD [], vf := (s.jobOf w).vf, partNo := (s.jobOf w).part,
      asd := (s.jobOf w).asd, mem0 := s.mem, scr0 := t.scr }
  let s := s.walkChecked (s.xctx w) (kind.checked (s.jobOf w).card.slots)
  let s := { s with cmds := s.cmds ++ [c], nextCmd := s.nextCmd + 1 }
  match tok with
  | some k => s.setPending w m k
  | none => s

def State.cmd? (s : State) (id : Nat) : Option Cmd := s.cmds.find? fun c => c.id = id
def State.modCmd (s : State) (id : Nat) (f : Cmd → Cmd) : State :=
  { s with cmds := s.cmds.map fun (c : Cmd) => if c.id = id then f c else c }
def State.dropCmd (s : State) (id : Nat) : State := { s with cmds := s.cmds.filter fun c => c.id ≠ id }

/-- A command ends: it leaves the machine, and its token is written in every lane of it. -/
def State.endCmd (s : State) (c : Cmd) (v : Word) (sig : Sig) : State :=
  let s := s.dropCmd c.id
  match c.tok with
  | some k => (lanesOf c.lanes).foldl (fun s l => s.writeToken c.wave l k v sig) s
  | none => s

/-- The asynchronous record of a command (R197). -/
def State.cmdRec (s : State) (c : Cmd) (code sub addr : Nat) (ticket : W32) (action : Nat) : BitVec 512 :=
  FaultRec.encode
    { addr := addr, pc := c.pc.toNat, seq := c.seq.toNat, lanes := c.lanes.toNat, enc := c.enc, team := c.wave.team.team,
      jobid := c.wave.team.job, ticket := ticket.toNat, sub := sub, code := code, vf := c.vf, part := c.partNo,
      cluster := c.cluster, core := (s.team c.wave.team).core, wave := c.wave.wave, kind := 1, action := action }

/-- A record with no ticket. -/
def State.cmdReport (s : State) (c : Cmd) (code sub addr : Nat) : State :=
  (s.report c.vf .fault (s.cmdRec c code sub addr 0 3) none).1

/-- A command suspends at a translation or permission fault, with a record (R219). -/
def State.suspendCmd (s : State) (c : Cmd) (e : XErr) : State :=
  let v := c.vf
  let (k, s) := (s.markLeaves c.partNo e.marks).newTicket v (.command c.id) e.code e.sub false
  let s := s.modCmd c.id fun c => { c with ticket := some k }
  (s.report v .fault (s.cmdRec c e.code e.sub e.addr k 0) none).1

/-- An index element of a command is parked with a record (R275). DEDUCED, unsafe (log 57). -/
def State.parkElement (s : State) (c : Cmd) (i : Nat) (e : XErr) : State :=
  let v := c.vf
  let (k, s) := (s.markLeaves c.partNo e.marks).newTicket v (.element c.id i) e.code (i % 2 ^ 16) false
  let s := s.modCmd c.id fun c => { c with parked := c.parked ++ [{ element := i, ticket := k }] }
  (s.report v .fault (s.cmdRec c e.code (i % 2 ^ 16) e.addr k 0) none).1

/-- Does a command run now: no ticket, no unanswered element? -/
def Cmd.runs (c : Cmd) : Bool := c.ticket.isNone && c.parked.isEmpty

/-- A command's accesses: through its job's tables alone. -/
def Cmd.ctx (c : Cmd) : Xctx := { part := c.partNo, cluster := c.cluster, core := none, asd := c.asd, sys := false }

/-- The same, for reads of its sources (R186). -/
def Cmd.srcCtx (c : Cmd) : Xctx := { c.ctx with old := some c.mem0 }

/-- One of two values of an aligned word that a racing read may give (R186): bytes of places that changed since are those of
before or of now, by word. DESIGN CHOICE, safe (log 48). -/
def State.eitherByte (s : State) (k : Nat) (was now : Byte) : Byte :=
  if was = now then now else if s.pickNo 14 (k / 4) % 2 = 0 then now else was

/-- Bytes at a host-physical address as a reader finds them. -/
def State.readFor (s : State) (c : Xctx) (hpa n : Nat) : List Byte :=
  match c.old with
  | none => s.readPhys c.part hpa n
  | some m =>
    if s.isLocal hpa then
      (List.range n).map fun i =>
        let k := s.key c.part (hpa + i)
        s.eitherByte k (m.read k) (s.mem.read k)
    else s.readPhys c.part hpa n

/-- The engine of a kind that serves a cluster, of those its partition owns (R315). -/
def engineOf (owned : List Nat) (cluster : Nat) : Option Nat :=
  if owned.contains cluster then some cluster else owned[cluster % owned.length]?

def State.ruleEngine (s : State) (part cluster : Nat) : Option Nat := engineOf (s.part part).ruleEngines cluster
def State.binEngine (s : State) (part cluster : Nat) : Option Nat := engineOf (s.part part).binEngines cluster


/-! ## Bytes as an engine reaches them -/

/-- Lines of a physical range, for a signature. -/
def rangeSig (hpa n : Nat) : Sig :=
  (List.range ((hpa % 128 + n + 127) / 128)).foldl (fun a i => a ||| lineSig (hpa / 128 * 128 + 128 * i)) 0

/-- A write through translation that stays within a page: the lines written. -/
def State.xput (s : State) (c : Xctx) (va : Nat) (bs : List Byte) (poison : Bool) : Except XErr (Sig × State) := do
  let (x, s) ← s.translate c va .write
  let s := s.writePhys c.part x.hpa bs
  pure (rangeSig x.hpa bs.length, if poison then s.poisonLine c.part x.hpa else s)

/-- Bytes as a dword. -/
def wordOf (bs : List Byte) : Word := w64 (natLE bs)


/-! ## Checks of ENG instructions -/

/-- An operand of a lane, in its source type (R449). -/
def State.argAs (s : State) (r : Run) (sh : Shape) (ty : Ty) (k : Nat) (l : Fin 32) : Val :=
  match sh.srcs[k]? with
  | some o => s.operand r l o ty sh.lit
  | none => Val.zero

/-- A 64-bit operand of a lane. -/
def State.engArg (s : State) (r : Run) (sh : Shape) (k : Nat) (l : Fin 32) : Val := s.argAs r sh tyW64 k l

/-- Participating threads whose arguments or named input registers are poisoned (R194). -/
def State.engPoison (s : State) (r : Run) (sh : Shape) (m : LaneMask) (regs : List Nat) : List (Fin 32 × Exc) :=
  ((lanesOf m).filter fun l =>
      (List.range sh.srcs.length).any (fun k => (s.engArg r sh k l).bad) || regs.any fun k => (r.spec[l].getN k).bad).map
    fun l => (l, poisonAt l 0)

def alignExc (l : Fin 32) (a : Nat) : Exc := { code := Code.align, addr := a, lanes := laneBit l }

/-- The fault of a lane where a test fails. -/
def needs (ok : Bool) (l : Fin 32) (e : Exc) : List (Fin 32 × Exc) := if ok then [] else [(l, e)]

/-- The translation fault of a lane's address, if it has one. -/
def State.xlatExc (s : State) (r : Run) (l : Fin 32) (va : Nat) (a : Acc) : List (Fin 32 × Exc) :=
  match s.translate (s.xctx r.wave) va a with
  | .error e => [(l, e.exc l)]
  | .ok _ => []

/-- Faults of every page of a range (R170). -/
def State.rangeExcs (s : State) (r : Run) (l : Fin 32) (va n : Nat) (a : Acc) : List (Fin 32 × Exc) :=
  (pageStarts va n).flatMap fun p => s.xlatExc r l p a

/-- What an engine's read of a range gives: bytes, each with its poison; a fault; or nothing yet, while another device
has not answered. -/
inductive Fetched where
  | got (bs : List (Byte × Bool)) (s : State)
  | stop (e : XErr)
  | later

/-- An engine's read, line by line (R186); `fuel` bounds the lines. -/
def State.fetchGo (s : State) (c : Xctx) : Nat → Nat → Nat → Fetched
  | 0, _, _ => .got [] s
  | fuel + 1, va, n =>
    if n = 0 then .got [] s
    else
      let k := min n (128 - va % 128)
      match s.translate c va .read with
      | .error e => .stop e
      | .ok (x, s) =>
        if !s.isLocal x.hpa && !Config.peerAnswers s.tick x.hpa then .later
        else
          let bad := s.linePoisoned c.part x.hpa
          match s.fetchGo c fuel (va + k) (n - k) with
          | .got rest s' => .got ((s.readFor c x.hpa k).map (fun b => (b, bad)) ++ rest) s'
          | .stop e => .stop (e.after x.used)
          | .later => .later

def State.fetch (s : State) (c : Xctx) (va n : Nat) : Fetched := s.fetchGo c (n / 128 + 2) va n

/-- What an engine's operation comes to: done; a fault that suspends its command (R219), with nothing done or after a
part of its work; or not yet. -/
inductive Worked where
  | ok (s : State)
  | stop (e : XErr)
  | partly (s : State) (e : XErr)
  | later

/-- Goes on with what was read; the walks of the read stand where a fault follows (R170). -/
def Fetched.bind (f : Fetched) (k : List (Byte × Bool) → State → Worked) : Worked :=
  match f with
  | .got bs s => match k bs s with
    | .stop e => .partly s e
    | w => w
  | .stop e => .stop e
  | .later => .later

/-- The outcome of a completion event: where the operation cannot end now, nothing happens. -/
def Worked.out (w : Worked) (s : State) : Host.Outcome State Fault Refusal :=
  match w with
  | .ok s' => .next s'.settle
  | _ => .next s

/-- Waiting threads go on, in the image too where their team is saved (R204). -/
def State.resumeCmd (s : State) (w : WaveId) (m : LaneMask) : State :=
  (s.resume w m).reimaged s w m

/-- The group goes on from a committed engine instruction. -/
def State.goOnRun (s : State) (r : Run) : State := s.goOn r.wave r.group r.pc

/-- The types of an ENG instruction's two operands that have no element layout (R449). -/
def engTys : List Ty := [tyW64, tyW64]

end Sys2Proof.Machine
end

