-- ==== Sys2Proof/Machine/Matrix.lean ====
section
/-!
DEFINITION. The matrix engine (R221 to R234, R349 to R351, R416): handles and contexts, operand layouts, MMA, ACCLOAD,
ACCDRAIN and ACCREL, and how a job's context leaves the engine and comes back.
-/

namespace Sys2Proof.Machine

open Sys2Proof

/-! ## Handles, slots and contexts -/

/-- A slot handle (R222). -/
def handleWord (gen : BitVec 16) (ctx slot : Nat) : Word :=
  w64 (2 ^ 63 + gen.toNat * 2 ^ 16 + ctx % 2 * 32 + slot % 32)

def handleValid (h : Word) : Bool := h.getLsbD 63
def handleCtx (h : Word) : Nat := bits h 5 5
def handleSlot (h : Word) : Nat := bits h 4 0

/-- The slot that is or was allocated under a number; one never taken has GEN 0. DESIGN CHOICE, unsafe (log 2). -/
def State.accSlot (s : State) (cluster ctx slot : Nat) : AccSlot :=
  (s.acc.find? fun a => a.cluster = cluster && a.ctx = ctx && a.slot = slot).getD
    { cluster := cluster, ctx := ctx, slot := slot, gen := 0, owner := none, data := [], poison := [] }

def State.setAcc (s : State) (a : AccSlot) : State :=
  { s with acc := a :: s.acc.filter fun b => !(b.cluster = a.cluster && b.ctx = a.ctx && b.slot = a.slot) }

/-- The context bound to a job on a cluster (R223). -/
def State.ctxOf (s : State) (cluster job : Nat) : Option Nat :=
  (s.contexts.find? fun c => c.cluster = cluster && c.job = job).map fun c => c.ctx

/-- The lower-numbered of the contexts that are bound to no job. -/
def State.freeCtx (s : State) (cluster : Nat) : Option Nat :=
  [0, 1].find? fun k => !s.contexts.any fun c => c.cluster = cluster && c.ctx = k

/-- Does the team hold the handle (R222)? -/
def State.holds (s : State) (t : TeamId) (h : Word) : Bool :=
  let k := (s.team t).cluster
  let a := s.accSlot k (handleCtx h) (handleSlot h)
  handleValid h && bits h 62 32 = 0 && bits h 15 6 = 0 && s.ctxOf k t.job = some (handleCtx h) && a.owner = some t
    && a.gen.toNat = bits h 31 16

/-- Which slot of a cluster's engine a command works on, and is it an MMA? -/
def Cmd.tile (c : Cmd) : Option (Nat × Nat × Bool) :=
  match c.kind with
  | .mma x k .. => some (x, k, true)
  | .drain x k .. => some (x, k, false)
  | _ => none

/-- Commands in a context's queue; those of a job that has left the engine wait outside it (R234). -/
def State.tileQueue (s : State) (cluster ctx : Nat) : List Cmd :=
  s.cmds.filter fun c =>
    c.cluster = cluster && (c.tile.any fun t => t.1 = ctx) && s.ctxOf cluster c.wave.team.job = some ctx

/-- Commands that work on a slot; MMAs alone where `mmas`. -/
def State.slotBusy (s : State) (cluster ctx slot : Nat) (mmas : Bool) : Bool :=
  (s.tileQueue cluster ctx).any fun c => c.tile.any fun t => t.2.1 = slot && (t.2.2 || !mmas)

/-- The handle of the lowest participating thread, and each check of it (R222, R228). -/
def handleOf (r : Run) (k : Fin 32) (l : Fin 32) : Val := r.spec[l].n[k]

def State.heldExc (s : State) (r : Run) (h : Word) (l : Fin 32) : List (Fin 32 × Exc) :=
  needs (s.holds r.wave.team h) l (Exc.bound h l)

/-- POISON for a handle or an argument (R194). -/
def handlePoison (v : Val) (l : Fin 32) : List (Fin 32 × Exc) := needs (!v.bad) l (poisonAt l 0)

/-! ## Operand layouts (R225, R226) -/

/-- Byte i of an operand's bytes. -/
def byteAt (bs : List (Byte × Bool)) (i : Nat) : Nat := match bs[i]? with | some b => b.1.toNat | none => 0
def badAt (bs : List (Byte × Bool)) (i : Nat) : Bool := match bs[i]? with | some b => b.2 | none => false

/-- The bytes that position k of chunk q of row (or column) r is in. -/
def elemBytes (slot : W32) (kc r q k : Nat) : List Nat :=
  if slotIsPlanes slot then
    let i := 2048 * q + 32 * r + k
    (List.range (slotPlanes slot)).map fun j => (j * (2 * kc) + i / 1024) * 128 + i % 1024 / 8
  else if slotFmt slot = 2 then [1024 * q + 16 * r + k / 2]
  else [2048 * q + 32 * r + k]

/-- An element read from its leading planes (R134). -/
def planesValue (k p : Nat) (centre : Bool) (u : Nat) : Int :=
  let v := signed p u * (2 ^ (k - p) : Nat)
  if centre && p < k then v + (2 ^ (k - p - 1) : Nat) else v

/-- The exact value of an element. -/
def elemValue (slot : W32) (bs : List (Byte × Bool)) (kc r q k : Nat) : Dy :=
  let at_ := elemBytes slot kc r q k
  if slotIsPlanes slot then
    let i := 2048 * q + 32 * r + k
    let u := at_.foldl (fun u b => 2 * u + byteAt bs b / 2 ^ (i % 8) % 2) 0
    { m := planesValue (slotBits slot) (slotPlanes slot) (slotCentre slot) u, e := 0 }
  else
    let b := byteAt bs (at_.headD 0)
    (slotValue slot (if slotFmt slot = 2 then b / 2 ^ (4 * (k % 2)) % 16 else b)).dy

/-- The byte of the block scale of a position, when the slot has scales. -/
def scaleAt (slot : W32) (kc r q k : Nat) : Option Nat :=
  if slotScale slot = 2 then some (kc * chunkBytes slot + 64 * ((32 * q + k) / 2 ^ slotLblk slot) + r) else none

/-- An element with its block scale (R146); none where the scale is NaN. -/
def scaledValue (slot : W32) (bs : List (Byte × Bool)) (kc r q k : Nat) : Option Dy :=
  let v := elemValue slot bs kc r q k
  match scaleAt slot kc r q k with
  | none => some v
  | some i => if byteAt bs i = 0xFF then none else some { v with e := v.e + (byteAt bs i : Int) - 127 }

/-- Does poison reach a row or column (R228)? -/
def rowBad (slot : W32) (bs : List (Byte × Bool)) (kc r : Nat) : Bool :=
  (List.range kc).any fun q => (List.range 32).any fun k =>
    (elemBytes slot kc r q k ++ (scaleAt slot kc r q k).toList).any (badAt bs)

/-- The chunk's contribution c of R146: none for NaN. -/
def chunkSum (a b : List (Option Dy)) : Option Dy :=
  let ps := List.zipWith (fun (x y : Option Dy) => match x, y with | some x, some y => some (x.mul y) | _, _ => none) a b
  if ps.any Option.isNone then none else some (windowSum (ps.filterMap id))

def Fp.ofDy (v : Dy) : Fp := .fin (decide (v.m < 0)) v.m.natAbs v.e

/-- acc + an exact value, rounded once to nearest-even as binary64 (R247). -/
def addExact (acc : Nat) (v : Dy) : Nat := (Fmt.f64.add .ne (Fmt.f64.decode acc) (Fp.ofDy v)).bits

/-- acc + c, both binary64 codes rounded to nearest-even (R146). -/
def addChunk (acc : Nat) (c : Option Dy) : Nat :=
  let f := Fmt.f64
  match c with
  | none => f.nan
  | some v => (f.add .ne (f.decode acc) (f.decode (f.roundDy .ne v false).bits)).bits

/-- The chunks of a row or column, q ascending. -/
def chunks (slot : W32) (bs : List (Byte × Bool)) (kc r : Nat) : List (List (Option Dy)) :=
  (List.range kc).map fun q => (List.range 32).map fun k => scaledValue slot bs kc r q k

/-- An element after an MMA. -/
def mmaElem (acc : Nat) (a b : List (List (Option Dy))) : Nat :=
  (List.zipWith chunkSum a b).foldl addChunk acc

/-- A value at a place of a sparse table of dwords, 0 where there is none. -/
def cellOf (d : List (Nat × Word)) (i : Nat) : Word := (getAssoc i d).getD 0

/-- A slot after an MMA with given operand bytes (R228). -/
def AccSlot.mma (z : AccSlot) (slot : W32) (kc : Nat) (rows : LaneMask) (a b : List (Byte × Bool)) : AccSlot :=
  let rs := rowsOf rows
  let cols := (List.range 64).map fun c => chunks slot b kc c
  let badCols := (List.range 64).filter fun c => rowBad slot b kc c
  let new := rs.flatMap fun r =>
    let row := chunks slot a kc r
    (List.range 64).map fun c => (64 * r + c, w64 (mmaElem (cellOf z.data (64 * r + c)).toNat row (cols.getD c [])))
  let keep := z.data.filter fun d => !rs.contains (d.1 / 64)
  let bad := rs.flatMap fun r =>
    if rowBad slot a kc r then (List.range 64).map fun c => 64 * r + c else badCols.map fun c => 64 * r + c
  { z with
    data := keep ++ new.filter fun d => d.2 ≠ 0,
    poison := z.poison ++ bad.filter fun i => !z.poison.contains i }

/-! ## MMA (R227, R228, R416) -/

/-- The context an MMA uses, bound or to be bound. -/
def State.mmaCtx (s : State) (t : TeamId) : Option Nat :=
  let k := (s.team t).cluster
  match s.ctxOf k t.job with
  | some x => some x
  | none => s.freeCtx k

/-- Has a run that waits reserved the slot (R224)? A run that aborts takes its reservation with it. -/
def State.slotReserved (s : State) (cluster ctx slot : Nat) : Bool :=
  s.runs.any fun r => r.reserve = some (ctx, slot) && (s.team r.wave.team).cluster = cluster

/-- The lowest-numbered free slot of a context. -/
def State.freeSlotOf (s : State) (cluster ctx : Nat) : Option Nat :=
  (List.range 32).find? fun k => (s.accSlot cluster ctx k).owner.isNone && !s.slotReserved cluster ctx k

/-- The slot of an MMA whose handle has V = 0: the one its run has reserved, or the lowest-numbered free one. -/
def State.slotFor (s : State) (r : Run) (cluster ctx : Nat) : Option Nat :=
  match r.reserve with
  | some (x, k) => if x = ctx then some k else s.freeSlotOf cluster ctx
  | none => s.freeSlotOf cluster ctx

/-- Does the team hold every slot of the context (R224)? -/
def State.holdsAll (s : State) (t : TeamId) (cluster ctx : Nat) : Bool :=
  (List.range 32).all fun k => (s.accSlot cluster ctx k).owner = some t

def State.bindCtx (s : State) (cluster ctx job : Nat) : State :=
  if s.contexts.any fun c => c.cluster = cluster && c.ctx = ctx then s
  else { s with contexts := s.contexts ++ [{ cluster := cluster, ctx := ctx, job := job }] }

/-- Takes a slot: every element +0, and its handle (R224, R228). -/
def State.takeSlot (s : State) (t : TeamId) (cluster ctx slot : Nat) : Word × State :=
  let a := s.accSlot cluster ctx slot
  (handleWord a.gen ctx slot, s.setAcc { a with owner := some t, data := [], poison := [] })

/-- The same named register of the lanes of a mask, written at commit. -/
def State.setNamed (s : State) (w : WaveId) (m : LaneMask) (k : Nat) (v : Word) : State :=
  (lanesOf m).foldl (fun s l => s.setRegs w l fun g => g.setN k ⟨v, 0⟩) s

def mmaBody (f : Mat) (s : State) (r : Run) (sh : Shape) : Body :=
  let act := s.actors r sh
  let l := lowestLane act
  let t := r.wave.team
  let cl := (s.team t).cluster
  let slot := (s.jobOf r.wave).card.slots[f.fs]
  let kc := f.kc.val
  let h := handleOf r f.s l
  let a := s.engArg r sh 0 l
  let b := s.engArg r sh 1 l
  let n := operandBytes slot kc
  if act = 0 then .done s r (.own fun s r' => s.goOnRun r')
  else
    let excs :=
      needs (a.bits.toNat % 128 = 0) l (alignExc l a.bits.toNat) ++ needs (b.bits.toNat % 128 = 0) l (alignExc l b.bits.toNat)
        ++ s.rangeExcs r l a.bits.toNat n .read ++ s.rangeExcs r l b.bits.toNat n .read
        ++ (if handleValid h.bits then s.heldExc r h.bits l else [])
        ++ handlePoison h l ++ handlePoison a l ++ handlePoison b l
    match firstExc excs with
    | some e => .fault s e
    | none =>
      match s.mmaCtx t with
      | none => .wait s
      | some x =>
        let go := fun (k : Nat) (fresh : Bool) => Body.done s r (.own fun s r' =>
          let s := s.bindCtx cl x t.job
          let (seq, s) := s.takeSeq r'.wave
          let (hw, s) := if fresh then s.takeSlot t cl x k else (h.bits, s)
          let s := s.tally (s.jobOf r'.wave).vf (245 + cl) 1 1
          let s := s.newCmd r'.wave act none seq r.pc (.mma x k f.fs.val kc act a.bits b.bits)
          (s.setNamed r'.wave act f.s.val hw).goOnRun r')
        let full := (s.tileQueue cl x).length ≥ 16
        if handleValid h.bits then (if full then .wait s else go (handleSlot h.bits) false)
        else
          match s.slotFor r cl x with
          | some k => if full then .waitWith s { r with reserve := some (x, k) } else go k true
          | none =>
            if s.holdsAll t cl x then .fault s { code := Code.accSlots, sub := x, lanes := laneBit l } else .wait s

def execMma (f : Mat) (s : State) : Host.Outcome State Fault Refusal := execute s (.mma f) engTys (mmaBody f)

/-! ## Turns of the engine (R233) -/

/-- The tile operations of a bin's tile: one for each of its set's NL layers (R237, R246). -/
def Bin.layers (b : Bin) : Nat := match b.weights with | .loaded bs _ => fld (natLE (bs.take 16)) 2 0 | _ => 0

/-- The turns of a bin's tile: those of its layers; a tile without weights takes the one that it is told so in. -/
def Bin.turns (b : Bin) : Nat := max 1 b.layers

/-- The entries of a context's queue, by their place in it: commands, and the tiles of dispatched bins (R246, R251); with
whether each could run now. -/
def State.ctxEntries (s : State) (cluster ctx : Nat) : List (Nat × Bool) :=
  (s.tileQueue cluster ctx).map (fun c => (c.id, c.runs))
    ++ ((s.bins.filter fun b => b.dispatched && b.ran < b.turns && b.cluster = cluster && s.ctxOf cluster b.job = some ctx).map fun b =>
      (b.entry, decide (b.weights ≠ .waiting)))

/-- The head of a context's queue. -/
def State.ctxHead (s : State) (cluster ctx : Nat) : Option (Nat × Bool) :=
  (sortOn (fun e => e.1) (s.ctxEntries cluster ctx)).head?

/-- Is an entry of a context's queue the engine's next tile operation: its head, and the turn is the context's, or the
other's queue has no head that can run (R233)? -/
def State.hasTurn (s : State) (cluster ctx entry : Nat) : Bool :=
  s.ctxHead cluster ctx = some (entry, true)
    && ((s.ctxHead cluster (1 - ctx)).all (fun e => !e.2) || getAssoc cluster s.turn ≠ some ctx)

/-- Is a command the next tile operation of its cluster's engine, its context bound to its job (R233, R234)? -/
def State.tileTurn (s : State) (c : Cmd) : Bool :=
  match c.tile with
  | none => false
  | some (x, _, _) => s.ctxOf c.cluster c.wave.team.job = some x && s.hasTurn c.cluster x c.id

def State.tookTurn (s : State) (cluster ctx : Nat) : State := { s with turn := putAssoc cluster ctx s.turn }

/-- An operation of a job's context has run: n tile operations (R329), and its turn is over. -/
def State.tileDone (s : State) (vf cluster ctx n : Nat) : State := (s.tally vf (245 + cluster) 4 n).tookTurn cluster ctx

/-- The tile operation of an MMA (R228). -/
def State.runMma (s : State) (c : Cmd) (x k fs kc : Nat) (rows : LaneMask) (a b : Word) : Worked :=
  let slot := (s.job c.wave.team.job).card.slots.toList.getD fs 0
  let n := operandBytes slot kc
  let ctx := c.srcCtx
  (s.fetch ctx a.toNat n).bind fun abs s =>
    (s.fetch ctx b.toNat n).bind fun bbs s =>
      let z := s.accSlot c.cluster x k
      let s := (s.setAcc (z.mma slot kc rows abs bbs)).tileDone (s.jobOf c.wave).vf c.cluster x 1
      .ok (s.endCmd c 0 0)

/-- What a command's MMA comes to now. -/
def State.mmaWork (s : State) (id : Nat) : Worked :=
  match s.cmd? id with
  | some c =>
    match c.kind with
    | .mma x k fs kc rows a b => if s.tileTurn c then s.runMma c x k fs kc rows a b else .later
    | _ => .later
  | none => .later

/-- DESIGN CHOICE, safe (log 9); DEDUCED, unsafe (log 10). -/
def execMmaComplete (cmd : Nat) (s : State) : Host.Outcome State Fault Refusal := (s.mmaWork cmd).out s

/-! ## ACCLOAD (R229, R350) -/

/-- One element of a slot rounded to f32; a NaN sets no flag. -/
def accRound (v : Word) : Rnd :=
  match Fmt.f64.decode v.toNat with
  | .nan _ => { bits := Fmt.f32.nan, flags := 0 }
  | x => Fmt.f32.convert .ne x

def accloadBody (f : Mat) (s : State) (r : Run) (sh : Shape) : Body :=
  let act := r.active sh
  let cl := (s.team r.wave.team).cluster
  let h := fun l => (handleOf r f.s l).bits
  let excs := (lanesOf act).flatMap fun l =>
    s.heldExc r (h l) l ++ handlePoison (handleOf r f.s l) l
      ++ needs (!(s.engArg r sh 0 l).poison.getLsbD 0) l (poisonAt l 0)
  match firstExc excs with
  | some e => .fault s e
  | none =>
    if (lanesOf act).any fun l => s.slotBusy cl (handleCtx (h l)) (handleSlot (h l)) true then .wait s
    else
      let z := fun l => s.accSlot cl (handleCtx (h l)) (handleSlot (h l))
      let i := fun (l : Fin 32) j => 64 * (2 * l.val + j) + bits (s.engArg r sh 0 l).bits 5 0
      let one := fun l j => accRound (cellOf (z l).data (i l j))
      let bad := fun l j => (z l).poison.contains (i l j)
      finishPut s r false
        (fun l => if LaneMask.has act l then (one l 0).flags ||| (one l 1).flags else 0)
        fun l g => g.putThread sh.dst (LaneMask.has act l)
          ⟨ofSubs .b32 fun j => (one l j).bits, BitVec.ofNat 8 ((if bad l 0 then 0x0F else 0) + (if bad l 1 then 0xF0 else 0))⟩

def execAccload (f : Mat) (s : State) : Host.Outcome State Fault Refusal :=
  execute s (.accload f) [tyW64] (accloadBody f)

/-! ## ACCDRAIN (R230, R231, R349) -/

/-- The descriptor's two dwords, ROWV and COLV, read as loads of the lane: its own run's earlier stores are seen (R31,
R230). -/
def State.drainDesc (s : State) (r : Run) (l : Fin 32) (b : Val) : List (Fin 32 × Got) × State :=
  let (rowv, s) := s.loadLane r l .glob (.l1 false) b b.bits 8
  let (colv, s) := s.loadLane r l .glob (.l1 false) b (b.bits + 8) 8
  ([(l, rowv), (l, colv)], s)

def wordGot (g : Option (Fin 32 × Got)) : Word := match g with | some (_, .got v) => v | _ => 0

def State.vectorExcs (s : State) (r : Run) (l : Fin 32) (a : Word) : List (Fin 32 × Exc) :=
  if a = 0 then []
  else needs (a.toNat % 4 = 0) l (alignExc l a.toNat) ++ s.rangeExcs r l a.toNat 256 .read

def accdrainBody (f : Mat) (s : State) (r : Run) (sh : Shape) : Body :=
  let act := s.actors r sh
  let l := lowestLane act
  let cl := (s.team r.wave.team).cluster
  let slot := (s.jobOf r.wave).card.slots[f.fs]
  let h := handleOf r f.s l
  let a := s.engArg r sh 0 l
  let b := s.engArg r sh 1 l
  if act = 0 then .done s r (.own fun s r' => s.goOnRun r')
  else
    let scaled := f.b ≠ .zero
    let (gs, s) := if scaled && b.bits.toNat % 8 = 0 then s.drainDesc r l b else ([], s)
    let rowv := wordGot gs[0]?
    let colv := wordGot gs[1]?
    let n := drainRow slot
    let excs :=
      needs (a.bits.toNat % 128 = 0) l (alignExc l a.bits.toNat)
        ++ needs (!scaled || b.bits.toNat % 8 = 0) l (alignExc l b.bits.toNat)
        ++ excsOf gs ++ s.vectorExcs r l rowv ++ s.vectorExcs r l colv
        ++ (rowsOf act).flatMap (fun k => s.rangeExcs r l (a.bits.toNat + k * n) n .write)
        ++ s.heldExc r h.bits l ++ handlePoison h l ++ handlePoison a l ++ handlePoison b l
    match firstExc excs with
    | some e => .fault s e
    | none =>
      if !(holdsOf gs).isEmpty then .wait (s.awaitRemote r (holdsOf gs))
      else if (s.tileQueue cl (handleCtx h.bits)).length ≥ 16 then .wait s
      else
        let reads := if scaled then [(l, b.bits, 8), (l, b.bits + 8, 8)] else []
        let (xs, s) := (s.remoteDone r).sampled (s.jobOf r.wave).vf (s.requests r .glob .read reads)
        .done s { r with samples := r.samples ++ xs } (.own fun s r' =>
          let (seq, s) := s.takeSeq r'.wave
          let s := s.tally (s.jobOf r'.wave).vf (245 + cl) 1 1
          let s := s.newCmd r'.wave act none seq r.pc
            (.drain (handleCtx h.bits) (handleSlot h.bits) f.fs.val act a.bits rowv colv)
          (s.waitAt r'.wave act r.pc r'.pc .command).goOn r'.wave (r'.group &&& ~~~act) r'.pc)

def execAccdrain (f : Mat) (s : State) : Host.Outcome State Fault Refusal :=
  execute s (.accdrain f) engTys (accdrainBody f)

/-- An exact product of extended reals; true when it is invalid (R128). -/
def mulExact (a b : Fp) : Fp × Bool :=
  match a, b with
  | .nan s, y => (.nan false, s || y.isSnan)
  | _, .nan s => (.nan false, s)
  | .inf n, y => if y.isZero then (.nan false, true) else (.inf (n != y.neg), false)
  | x, .inf n => if x.isZero then (.nan false, true) else (.inf (x.neg != n), false)
  | .fin n m e, .fin n' m' e' => (.fin (n != n') (m * m') (e + e'), false)

/-- One element of a drain (R230). -/
def drainElem (slot : W32) (m : Mode) (acc : Word) (row col : Nat) : Rnd :=
  let (v, i) := mulExact (Fmt.f64.decode acc.toNat) (Fmt.f32.decode row)
  let (v, j) := mulExact v (Fmt.f32.decode col)
  let r := slotConvert slot m v
  { r with flags := r.flags ||| nvIf (i || j) }

/-- Scale k of a vector; 1.0 where there is none. -/
def scaleOf (v : List (Byte × Bool)) (k : Nat) : Nat :=
  if v.isEmpty then 0x3F800000 else natLE ((List.range 4).map fun i => BitVec.ofNat 8 (byteAt v (4 * k + i)))

/-- Writes byte strings at rising addresses, each within a line: the lines written. -/
def State.xputs (s : State) (c : Xctx) : List (Nat × List Byte × Bool) → Sig → Except XErr (Sig × State)
  | [], g => .ok (g, s)
  | (va, bs, p) :: rest, g => do
    let ms := s.usedAt c .write va
    let (g', s) ← s.xput c va bs p
    (s.xputs c rest (g ||| g')).mapError (XErr.after ms)

/-- A row of a drain in pieces of at most a line, with its flags. -/
def drainPieces (slot : W32) (z : AccSlot) (wid : Word) (rowv colv : List (Byte × Bool)) (a r : Nat) :
    List (Nat × List Byte × Bool) × Flags :=
  let n := drainRow slot
  let one := fun c => drainElem slot (slotMode slot wid (c % 16)) (cellOf z.data (64 * r + c)) (scaleOf rowv r) (scaleOf colv c)
  let b := if slotFmt slot = 2 then 4 else slotWidth slot
  let bs := bytesLE n (packN b ((List.range 64).map fun c => (one c).bits))
  let bad := fun c => z.poison.contains (64 * r + c) || badAt rowv (4 * r) || badAt colv (4 * c)
  let size := min n 128
  let per := 8 * size / b
  ((List.range (n / size)).map fun i =>
      (a + r * n + i * size, (bs.drop (i * size)).take size, (List.range per).any fun j => bad (i * per + j)),
    (List.range 64).foldl (fun f c => f ||| (one c).flags) 0)

def State.fetchVec (s : State) (c : Xctx) (a : Word) : Fetched := if a = 0 then .got [] s else s.fetch c a.toNat 256

/-- The tile operation of a drain, and what its completion does (R230). -/
def State.runDrain (s : State) (c : Cmd) (x k fs : Nat) (rows : LaneMask) (a rowv colv : Word) : Worked :=
  let slot := (s.job c.wave.team.job).card.slots.toList.getD fs 0
  let ctx := c.ctx
  let old := s
  (s.fetchVec (c.srcCtx) rowv).bind fun rv s =>
    (s.fetchVec (c.srcCtx) colv).bind fun cv s =>
      let z := s.accSlot c.cluster x k
      let out := fun (r : Nat) =>
        drainPieces slot z (s.thread c.wave (Fin.ofNat 32 (r / 2))).wid rv cv a.toNat r
      match s.xputs ctx ((rowsOf rows).flatMap fun r => (out r).1) 0 with
      | .error e => .stop e
      | .ok (sig, s) =>
        let s := (lanesOf rows).foldl
          (fun s l =>
            let fl := (out (2 * l.val)).2 ||| (out (2 * l.val + 1)).2
            s.setRegs c.wave l fun g => { g with fpstat := orFlags g.fpstat fl }) s
        let s := (s.acquire (s.team c.wave.team).coreNo sig).modLanes c.wave rows fun _ t => t.addSig sig
        .ok ((((s.tileDone (s.jobOf c.wave).vf c.cluster x 1).endCmd c 0 0).resume c.wave rows).reimaged old c.wave rows)

def State.drainWork (s : State) (id : Nat) : Worked :=
  match s.cmd? id with
  | some c =>
    match c.kind with
    | .drain x k fs rows a rowv colv => if s.tileTurn c then s.runDrain c x k fs rows a rowv colv else .later
    | _ => .later
  | none => .later

/-- DEDUCED, unsafe (log 10). -/
def execAccdrainComplete (cmd : Nat) (s : State) : Host.Outcome State Fault Refusal := (s.drainWork cmd).out s

/-! ## ACCREL (R232, R351) -/

def accrelBody (f : Mat) (s : State) (r : Run) (sh : Shape) : Body :=
  let act := s.actors r sh
  let l := lowestLane act
  let cl := (s.team r.wave.team).cluster
  let h := handleOf r f.s l
  if act = 0 then .done s r (.own fun s r' => s.goOnRun r')
  else
    match firstExc (s.heldExc r h.bits l ++ handlePoison h l) with
    | some e => .fault s e
    | none =>
      let x := handleCtx h.bits
      let k := handleSlot h.bits
      if s.slotBusy cl x k false then .wait s
      else
        .done s r (.own fun s r' =>
          let (_, s) := s.takeSeq r'.wave
          let s := s.tally (s.jobOf r'.wave).vf (245 + cl) 1 1
          let z := s.accSlot cl x k
          let s := s.setAcc { z with owner := none, gen := z.gen + 1, data := [], poison := [] }
          (s.setNamed r'.wave act f.s.val 0).goOnRun r')

def execAccrel (f : Mat) (s : State) : Host.Outcome State Fault Refusal := execute s (.accrel f) [] (accrelBody f)

/-! ## Leaving the engine and coming back (R234) -/

/-- Does a run of another job wait for a context of the cluster, both being bound (R223, R244)? -/
def State.ctxWanted (s : State) (job cluster : Nat) : Bool :=
  s.runs.any fun r =>
    r.suspended && r.wave.team.job ≠ job && (s.team r.wave.team).cluster = cluster
      && (s.mmaCtx r.wave.team).isNone
      && (match s.instrAt (s.xctx r.wave) r.pc with
        | some (.mma _) => true
        | some (.ncall ..) => true
        | _ => false)

/-- Is the job bound on the cluster, and every team it has there swapped or ended (R234)? -/
def State.ctxIdle (s : State) (job cluster : Nat) : Bool :=
  (s.ctxOf cluster job).isSome
    && (s.teams.filter fun t => t.id.job = job && t.cluster = cluster).all fun t => t.place = .swapped || t.place = .ended

/-- A queued command as a descriptor of 64 bytes. DESIGN CHOICE, unsafe (log 20). -/
def Cmd.descBytes (c : Cmd) : List Byte :=
  let d := bytesLE 8
  let head := d (c.seq.toNat + 2 ^ 32 * c.lanes.toNat) ++ d c.pc.toNat
  let body := match c.kind with
    | .mma x k fs kc rows a b => d (1 + x * 2 ^ 8 + k * 2 ^ 16 + fs * 2 ^ 24 + kc * 2 ^ 32) ++ d rows.toNat ++ d a.toNat ++ d b.toNat
    | .drain x k fs rows a rv cv =>
      d (2 + x * 2 ^ 8 + k * 2 ^ 16 + fs * 2 ^ 24) ++ d rows.toNat ++ d a.toNat ++ d rv.toNat ++ d cv.toNat
    | _ => []
  head ++ body ++ zeros (48 - body.length)

/-- The rows of a slot as an image has them: 64 rows of 64 binary64 elements. -/
def AccSlot.bytes (a : AccSlot) : List Byte :=
  (List.range 4096).flatMap fun i => bytesLE 8 (cellOf a.data i).toNat

/-- A saved context as its image: the masks' line, the slots ascending, the commands in queue order (R206). -/
def ctxBytes (held : List AccSlot) (cmds : List Cmd) : List Byte :=
  let slots := sortOn (fun a => a.slot) held
  bytesLE 128 ((slots.map fun a => 2 ^ a.slot).foldl (· + ·) 0 + cmds.length % 2 ^ 16 * 2 ^ 32)
    ++ slots.flatMap AccSlot.bytes ++ cmds.flatMap Cmd.descBytes

/-- Saves the job's slots and unbinds its context; queued commands wait until the job is bound again. The image goes to the
rest of the overflow region; what does not fit is held in lines without an address (R206). -/
def State.saveCtx (s : State) (job cluster : Nat) : State :=
  match s.ctxOf cluster job with
  | none => s
  | some x =>
    let part := (s.job job).part
    let here := fun (a : AccSlot) => a.cluster = cluster && a.ctx = x
    let held := s.acc.filter fun a => here a && a.owner.isSome
    let bs := ctxBytes held (s.tileQueue cluster x)
    let (image, s) := match s.freeEntry part cluster, s.ctxHole part cluster (roundUp bs.length 128) with
      | some i, some off =>
        let e : DirEntry :=
          { job := job, team := 0xFFFFFFFF, off := off, lines := ceilDiv bs.length 128, core := 0, kind := 1, stop := false,
            valid := true }
        (some i, (s.setDir part cluster i e).saveWrite part cluster off bs)
      | _, _ => (none, s)
    { s with
      savedCtx := { cluster := cluster, job := job, old := x, slots := held, image := image }
        :: s.savedCtx.filter fun c => !(c.cluster = cluster && c.job = job),
      acc := s.acc.map fun a => if here a then { a with owner := none, data := [], poison := [] } else a,
      contexts := s.contexts.filter fun c => !(c.cluster = cluster && c.ctx = x) }

/-- A saved handle with the context it came back to. -/
def moveHandle (old new : Nat) (held : List AccSlot) (t : TeamId) (v : Val) : Val :=
  let h := v.bits
  if handleValid h && bits h 62 32 = 0 && bits h 15 6 = 0 && handleCtx h = old
      && held.any fun a => a.slot = handleSlot h && a.owner = some t && a.gen.toNat = bits h 31 16 then
    { v with bits := (h &&& ~~~32) ||| w64 (32 * new) }
  else v

def Thread.mapVals (t : Thread) (f : Val → Val) : Thread :=
  { t with
    regs := { t.regs with q := t.regs.q.map f, n := t.regs.n.map f },
    snapshot := t.snapshot.map f, stepLatch := t.stepLatch.map f }

/-- Every value of a team that may be a handle: registers, queue entries, and those in hand or waiting to be pushed. -/
def Team.mapVals (t : Team) (f : Val → Val) : Team :=
  { t with
    waves := t.waves.map fun (w : Wave) => w.modLanes (BitVec.allOnes 32) fun th => th.mapVals f,
    dq := t.dq.map fun es => es.map fun e => e.map f,
    stream := { t.stream with
      entry := t.stream.entry.map f, got := t.stream.got.map (fun p => (p.1, f p.2)),
      held := t.stream.held.map (fun p => (p.1, p.2.1, f p.2.2)), a := t.stream.a.map fun a => (f ⟨a, 0⟩).bits },
    waiters := t.waiters.map fun (x : Waiter) =>
      match x.op with
      | .push k e => { x with op := .push k (e.map f) }
      | _ => x }

/-- The job's commands and handles name its new context. -/
def CmdKind.moveCtx (k : CmdKind) (new : Nat) : CmdKind :=
  match k with
  | .mma _ slot fs kc rows a b => .mma new slot fs kc rows a b
  | .drain _ slot fs rows a rv cv => .drain new slot fs rows a rv cv
  | k => k

/-- Has the job a context that was saved when it left a cluster's engine? -/
def State.ctxSaved (s : State) (job left : Nat) : Bool := s.savedCtx.any fun c => c.job = job && c.cluster = left

/-- The context that a job saved when it left one cluster is bound again on a cluster, the lower-numbered free one. -/
def State.restoreCtx (s : State) (job left cluster : Nat) : State :=
  match (s.savedCtx.find? fun c => c.job = job && c.cluster = left), s.freeCtx cluster with
  | some c, some x =>
    let rest := s.acc.filter fun a => !(a.cluster = cluster && a.ctx = x && c.slots.any fun b => b.slot = a.slot)
    let s := { s with
      contexts := s.contexts ++ [({ cluster := cluster, ctx := x, job := job } : Context)],
      savedCtx := s.savedCtx.filter fun d => !(d.job = job && d.cluster = c.cluster),
      acc := c.slots.map (fun (a : AccSlot) => { a with cluster := cluster, ctx := x }) ++ rest,
      cmds := s.cmds.map fun (k : Cmd) =>
        if k.wave.team.job = job && k.tile.isSome && k.cluster = c.cluster then
          { k with cluster := cluster, kind := k.kind.moveCtx x }
        else k }
    let s := match c.image with
      | some i =>
        let p := (s.job job).part
        s.setDir p c.cluster i { s.dirEntry p c.cluster i with valid := false }
      | none => s
    { s with teams := s.teams.map fun (t : Team) =>
        if t.id.job = job then t.mapVals (moveHandle c.old x c.slots t.id) else t }
  | _, _ => s

end Sys2Proof.Machine
end

