-- ==== Sys2Proof/Machine/Coll.lean ====
section
/-!
DEFINITION. COLL (R321, R322, R378): its checks and commit, and its completion with the parts of the other ranks, which
arrive over the fabric.
-/

namespace Sys2Proof.Machine

open Sys2Proof

def CollTy.bytes : CollTy → Nat
  | .f64 | .i64 => 8
  | .f32 | .i32 => 4
  | .bf16 | .f16 => 2

/-! ## Before commit -/

def collBody (kind : CollKind) (op : CollOp) (ty : CollTy) (tok n : Nat) (s : State) (r : Run) (sh : Shape) : Body :=
  let act := s.actors r sh
  let l := lowestLane act
  let a := (s.engArg r sh 0 l).bits
  let b := (s.engArg r sh 1 l).bits
  let dst := (r.spec[l].getN n).bits
  let arg := (r.spec[l].getN (n + 1)).bits
  let e := CollTy.bytes ty
  if act = 0 then .done s r (.own fun s r' => s.goOnRun r')
  else
    let excs := needs (a.toNat % 64 = 0) l (alignExc l a.toNat) ++ needs (b.toNat % e = 0) l (alignExc l b.toNat)
      ++ needs (dst.toNat % e = 0) l (alignExc l dst.toNat) ++ s.xlatExc r l a.toNat .read
      ++ s.engPoison r sh (laneBit l) [n, n + 1]
    match firstExc excs with
    | some e => .fault s e
    | none =>
      .done s r (.own fun s r' =>
        let (seq, s) := s.takeSeq r'.wave
        (s.newCmd r'.wave act (some tok) seq r.pc
          (.coll kind op ty a b dst (bits arg 31 0) (bits arg 47 32))).goOnRun r')

def execColl (kind : CollKind) (op : CollOp) (ty : CollTy) (f : Eng) (s : State) : Host.Outcome State Fault Refusal :=
  execute s (.coll kind op ty f) engTys (collBody kind op ty (f.t.reg.headD 0) ((f.n.map Fin.val).getD 0))

/-! ## The group (R321) -/

structure Group where
  rank  : Nat
  nrank : Nat
  gid   : Nat
  list  : Nat
  deriving DecidableEq, Repr

def Group.decode (d : Nat) : Group :=
  { rank := fld d 63 48, nrank := fld d 47 32, gid := fld d 31 16, list := fld d 127 64 }

/-- Is a group valid on a device? -/
def Group.ok (g : Group) (dev : Nat) (ids : List Nat) : Bool :=
  1 ≤ g.nrank && g.nrank ≤ 512 && g.rank < g.nrank && ids.getD g.rank 0 = dev && ids.eraseDups.length = ids.length

/-! ## Elements (R322) -/

/-- a ⊕ b over codes. -/
def combine (op : CollOp) (ty : CollTy) (a b : Nat) : Nat :=
  let flt := fun (f : Fmt) => match op with
    | .add => (f.add .ne (f.decode a) (f.decode b)).bits
    | .min => (f.minmax false a b).bits
    | .max => (f.minmax true a b).bits
  let int := fun (w : Nat) => match op with
    | .add => (a + b) % 2 ^ w
    | .min => if signed w b < signed w a then b else a
    | .max => if signed w a < signed w b then b else a
  match ty with
  | .f32 => flt .f32 | .f64 => flt .f64 | .bf16 => flt .bf16 | .f16 => flt .f16 | .i32 => int 32 | .i64 => int 64

/-- Element i of a vector of e-byte elements. -/
def elemAt (e : Nat) (bs : List Byte) (i : Nat) : Nat := natLE ((bs.drop (e * i)).take e)

/-- ⊕ over the ranks, ascending, of their element i. -/
def reduceAt (op : CollOp) (ty : CollTy) (srcs : List (List Byte)) (i : Nat) : Nat :=
  match srcs.map fun v => elemAt (CollTy.bytes ty) v i with
  | [] => 0
  | x :: xs => xs.foldl (combine op ty) x

/-- The bytes of elements lo .. lo + n of the reduction. -/
def reduceBytes (op : CollOp) (ty : CollTy) (srcs : List (List Byte)) (lo n : Nat) : List Byte :=
  (List.range n).flatMap fun i => bytesLE (CollTy.bytes ty) (reduceAt op ty srcs (lo + i))

/-- Bytes of a rank's source, and of its destination. -/
def sourceBytes (kind : CollKind) (e c nrank rank root : Nat) : Nat :=
  match kind with
  | .reduceScatter => nrank * c * e
  | .broadcast => if rank = root then c * e else 0
  | _ => c * e

def destBytes (kind : CollKind) (e c nrank : Nat) : Nat :=
  match kind with
  | .allGather => nrank * c * e
  | _ => c * e

/-- The destination of a rank; none where a broadcast's root is no rank, whose vector is not stated.
DESIGN CHOICE, safe (log 23). -/
def collResult (kind : CollKind) (op : CollOp) (ty : CollTy) (srcs : List (List Byte)) (c rank root : Nat) :
    Option (List Byte) :=
  match kind with
  | .allReduce => some (reduceBytes op ty srcs 0 c)
  | .reduceScatter => some (reduceBytes op ty srcs (rank * c) c)
  | .allGather => some srcs.flatten
  | .broadcast => srcs[root]?

/-! ## Completion -/

/-- A long range in pieces that stay within a line. -/
def linePieces : Nat → Nat → List Byte → Bool → List (Nat × List Byte × Bool)
  | 0, _, _, _ => []
  | n + 1, va, bs, p =>
    if bs.isEmpty then []
    else
      let k := min bs.length (128 - va % 128)
      (va, bs.take k, p) :: linePieces n (va + k) (bs.drop k) p

/-- The other ranks' parts in rank order with this device's own between them; none while some part is missing. -/
def allParts (nrank own : Nat) (mine : CollPeer) (peers : List CollPeer) : Option (List CollPeer) :=
  (List.range nrank).mapM fun k => if k = own then some mine else peers.find? fun p => p.rank = k

/-- Writes a destination and ends the command. DESIGN CHOICE, safe (log 23). -/
def State.collEnd (s : State) (c : Cmd) (dst : Word) (bs : List Byte) (poison : Bool) (code : Nat) : Worked :=
  match s.xputs (c.ctx) (linePieces (bs.length / 128 + 2) dst.toNat bs poison) 0 with
  | .error e => .stop e
  | .ok (sig, s) => .ok (s.endCmd c (w64 code) sig)

/-- DESIGN CHOICE, safe (log 23). -/
def State.collWork (s : State) (id : Nat) (peers : List CollPeer) : Worked :=
  match s.cmd? id with
  | some c =>
    match c.kind with
    | .coll kind op ty desc src dst count root =>
      let e := CollTy.bytes ty
      let x := c.srcCtx
      if !c.runs then .later
      else
        (s.fetch x desc.toNat 16).bind fun ds s =>
          let g := Group.decode (natLE (ds.map fun b => b.1))
          let invalid := fun (s : State) => Worked.ok ((s.cmdReport c Code.illegal 0 desc.toNat).endCmd c (w64 Code.illegal) 0)
          if g.nrank = 0 || g.nrank > 512 then invalid s
          else
            (s.fetch x g.list (2 * g.nrank)).bind fun ls s =>
              let ids := (List.range g.nrank).map fun k => elemAt 2 (ls.map fun b => b.1) k
              if !g.ok s.devNum ids then invalid s
              else
                (s.fetch x src.toNat (sourceBytes kind e count g.nrank g.rank root)).bind fun mine s =>
                  let me : CollPeer :=
                    { rank := g.rank, kind := kind, op := op, ty := ty, count := count, root := root,
                      source := mine.map fun b => b.1 }
                  let poison := (ds ++ ls ++ mine).any fun b => b.2
                  match allParts g.nrank g.rank me peers with
                  | none => .later
                  | some ps =>
                    let open_ := (List.range (destBytes kind e count g.nrank)).map fun i => Config.freeByte s.tick 1 i
                    if ps.any fun p => p.kind ≠ kind || p.op ≠ op || p.ty ≠ ty || p.count ≠ count || p.root ≠ root then
                      s.collEnd c dst open_ false Code.illegal
                    else if ps.any fun p => p.source.length ≠ sourceBytes kind e count g.nrank p.rank root then .later
                    else
                      s.collEnd c dst ((collResult kind op ty (ps.map fun p => p.source) count g.rank root).getD open_) poison 0
    | _ => .later
  | none => .later

/-- A collective's exchange finishes on this device (R322). A command of a terminated team has no token left; where its
destination cannot be reached, its part of the exchange is over all the same. DESIGN CHOICE, safe (log 23). -/
def execCollComplete (cmd : Nat) (peers : List CollPeer) (s : State) : Host.Outcome State Fault Refusal :=
  match s.cmd? cmd, s.collWork cmd peers with
  | some c, .stop _ | some c, .partly _ _ => if c.silent then .next (s.dropCmd cmd).settle else .next s
  | _, w => w.out s

end Sys2Proof.Machine
end

