-- ==== Sys2Proof/Machine/Control.lean ====
section
/-!
DEFINITION. The CTL class: transfers (R371, R374, R375, R414, R432, R433), EXIT, FORK and FJOIN (R387, R395, R396), barriers
(R365, R376), traps, breakpoints and control registers (R373, R380, R399, R440), TRIG, YIELD and NOP (R423, R441, R448).
-/

namespace Sys2Proof.Machine

open Sys2Proof

/-! ## Transfers -/

/-- Why a thread may not go to an address: translation first, then POISON of what named it, then BADTARGET.
DEDUCED, unsafe (log 14). -/
def State.targetExc (s : State) (w : WaveId) (l : Fin 32) (va : Word) (poison : Bool) : Option Exc :=
  match s.translate (s.xctx w) va.toNat .fetch with
  | .error e => some { e.exc l with addr := va.toNat }
  | .ok (_, s) =>
    if poison then some { code := Code.poison, sub := 0, lanes := laneBit l }
    else if s.isH (s.xctx w) va then none
    else some { code := Code.badTarget, addr := va.toNat, lanes := laneBit l }

/-- The state after the fetch of the H words at some addresses (R170, R171). -/
def State.fetched (s : State) (w : WaveId) (vas : List Word) : State :=
  (vas.eraseDups).foldl (fun s va => s.touch (s.xctx w) va.toNat .fetch) s

/-- The faults of the headers that lanes name; each entry has a lane, an address, and whether what named it is poisoned. -/
def State.targetExcs (s : State) (w : WaveId) (cs : List (Fin 32 × Word × Bool)) : List (Fin 32 × Exc) :=
  cs.filterMap fun c => (s.targetExc w c.1 c.2.1 c.2.2).map fun e => (c.1, e)

/-- The headers at which threads sent to `goal` come to stand by a loop, where that is another one (R46). -/
def landings (r : Run) (put : Fin 32 → Regs → Regs) (goal : Fin 32 → Word) : List (Fin 32 × Word × Bool) :=
  ((lanesOf r.group).filter fun l => landing (put l r.spec[l]) (goal l) ≠ goal l).map fun l =>
    (l, landing (put l r.spec[l]) (goal l), false)

/-- The first fault of a transfer (R193). Translation comes before the rest; then, as the entry's pseudocode has them (R9),
the headers of `first`, the faults `excs` of operands that are read next, and the headers of `later`.
DEDUCED, unsafe (log 14). -/
def State.transferExc (s : State) (w : WaveId) (first later : List (Fin 32 × Word × Bool)) (excs : List (Fin 32 × Exc)) :
    Option Exc :=
  let a := s.targetExcs w first
  let b := s.targetExcs w later
  ((firstExc ((a ++ b).filter fun x => x.2.rank < 5)).or (firstExc a)).or (firstExc (excs ++ b))

/-- A transfer of every thread of the group to an address of its own, once the headers of `first`, those of `checks` and
those of loop-backs are known to be headers; `excs` are faults of another kind that its operands raise (R35, R46, R193). -/
def transferBody (first checks : List (Fin 32 × Word × Bool)) (excs : List (Fin 32 × Exc)) (goal : Fin 32 → Word)
    (put : Fin 32 → Regs → Regs) (s : State) (r : Run) : Body :=
  let later := checks ++ landings r put goal
  let s := s.fetched r.wave ((first ++ later).map fun c => c.2.1)
  match s.transferExc r.wave first later excs with
  | some e => .fault s e
  | none => .done s (r.write (fun _ => 0) put) (.leave fun s r => s.transfer r.wave r.group r.blk goal)

/-- The address an OFF or a literal names (R87, R88). -/
def targetOf (pc : Word) (off : BitVec 16) (lit : Option W32) : Word :=
  wordsAfter pc (match lit with | some l => l.signExtend 64 | none => off.signExtend 64)

/-- Is a condition on bits [31:0] met (R87)? -/
def branchTaken (c : BrCond) (a : Word) : Bool :=
  match c with
  | .always => true | .nonzero => low32 a ≠ 0 | .zero => low32 a = 0

/-- Lanes whose first source is poisoned in a width. -/
def poisonedSrc (s : State) (r : Run) (sh : Shape) (w : Width) : LaneMask :=
  maskWhere fun l => LaneMask.has r.group l && ((s.laneIn r sh [tyW64] l).ops.getD 0 Val.zero).poisoned w 1

/-- The headers a BRA checks (R371): its target, by the threads that take it, or by all where none does; and the word
after it, by those that do not. -/
def braChecks (r : Run) (sh : Shape) (target : Word) (taken : Fin 32 → Bool) : List (Fin 32 × Word × Bool) :=
  let ls := lanesOf r.group
  (if ls.any taken then (ls.filter taken).map fun l => (l, target, false) else ls.map fun l => (l, target, false))
    ++ (ls.filter fun l => !taken l).map fun l => (l, r.next sh, false)

def poisonAtLane (l : Fin 32) : Exc := { code := Code.poison, sub := 0, lanes := laneBit l }

def braBody (c : BrCond) (f : Ctl) (s : State) (r : Run) (sh : Shape) : Body :=
  let target := targetOf r.pc f.off f.lit
  let taken := fun l => branchTaken c (s.laneIn r sh [tyW64] l).a
  transferBody [] (braChecks r sh target taken) ((lanesOf (poisonedSrc s r sh .b32)).map fun l => (l, poisonAtLane l))
    (fun l => if taken l then target else r.next sh) (fun _ regs => regs) s r

def execBra (c : BrCond) (f : Ctl) (s : State) : Host.Outcome State Fault Refusal :=
  execute s (.bra c f) [tyW64] (braBody c f)

/-- A transfer to the address in A (R374, R432). DEDUCED, unsafe (log 14). -/
def indirectBody (s : State) (r : Run) (sh : Shape) : Body :=
  let x := s.laneIn r sh [tyW64]
  transferBody [] ((lanesOf r.group).map fun l => (l, (x l).a, ((x l).ops.getD 0 Val.zero).bad)) []
    (fun l => (x l).a) (fun _ regs => regs) s r

def execBrx (f : Ctl) (s : State) : Host.Outcome State Fault Refusal := execute s (.brx f) [tyW64] indirectBody
def execRet (f : Ctl) (s : State) : Host.Outcome State Fault Refusal := execute s (.ret f) [tyW64] indirectBody

def callBody (f : Ctl) (s : State) (r : Run) (sh : Shape) : Body :=
  let target := targetOf r.pc f.off f.lit
  transferBody ((lanesOf r.group).map fun l => (l, target, false)) [] [] (fun _ => target)
    (fun _ regs => regs.put sh.dst .b64 0xFF ⟨r.next sh, 0⟩) s r

def execCall (f : Ctl) (s : State) : Host.Outcome State Fault Refusal := execute s (.call f) [] (callBody f)

/-- A loop register armed, or left inactive by a count of 0 (R45). -/
def armLoop (start stop : Word) (n : Nat) : Loop :=
  { start := start, stop := stop, count := w32 n, active := decide (n ≠ 0) }

def lsetupBody (k : Fin 4) (len2 : BitVec 10) (f : Ctl) (s : State) (r : Run) (sh : Shape) : Body :=
  let start := targetOf r.pc f.off f.lit
  let stop := wordsAfter start (len2.zeroExtend 64)
  let x := s.laneIn r sh [tyW64]
  transferBody ((lanesOf r.group).flatMap fun l => [(l, start, false), (l, stop, false)]) []
    ((lanesOf (poisonedSrc s r sh .b32)).map fun l => (l, poisonAtLane l))
    (fun l => if low32 (x l).a = 0 then stop else start)
    (fun l regs => { regs with lc := regs.lc.set k (armLoop start stop (low32 (x l).a)) }) s r

def execLsetup (k : Fin 4) (len2 : BitVec 10) (f : Ctl) (s : State) : Host.Outcome State Fault Refusal :=
  execute s (.lsetup k len2 f) [tyW64] (lsetupBody k len2 f)

/-- The block that holds a return's resumption point, whose H word RFT checks (R433). -/
def Thread.resumeHeader (t : Thread) (skip : Bool) (len : Nat) : Word :=
  if skip && t.resumePc = wordsAfter t.resumeBlk (w64 len) then t.resumePc else t.resumeBlk

/-- The headers an RFT checks: that of the block it returns into, and one that a loop then sends a thread to. -/
def State.rftChecks (s : State) (r : Run) (skip : Bool) : List (Fin 32 × Word × Bool) :=
  (lanesOf r.group).flatMap fun l =>
    let t := s.thread r.wave l
    let h := t.resumeHeader skip (s.headerLen (s.xctx r.wave) t.resumeBlk)
    (l, h, false) :: if skip && s.isH (s.xctx r.wave) t.resumePc && landing r.spec[l] t.resumePc ≠ t.resumePc then
      [(l, landing r.spec[l] t.resumePc, false)] else []

def rftBody (skip : Bool) (s : State) (r : Run) (_sh : Shape) : Body :=
  let cs := s.rftChecks r skip
  let s := s.fetched r.wave (cs.map fun c => c.2.1)
  match firstExc (s.targetExcs r.wave cs) with
  | some e => .fault s e
  | none => .done s r (.leave fun s r => s.returnFrom r.wave r.group r.blk skip)

def execRft (skip e : Bool) (s : State) : Host.Outcome State Fault Refusal := execute s (.rft skip e) [] (rftBody skip)

/-! ## EXIT, FORK, FJOIN -/

/-- Poisoned registers that a thread leaves behind are scrubbed (R194). -/
def State.scrubExit (s : State) (w : WaveId) (l : Fin 32) : State :=
  let t := s.thread w l
  let n := (t.regs.n.toList.filter Val.bad).length + (t.regs.q.toList.filter Val.bad).length
  (List.range n).foldl (fun s _ => s.logPoison w l) s

/-- Threads of a group exit (R48, R387). -/
def State.exitThreads (s : State) (w : WaveId) (m : LaneMask) : State :=
  let s := (lanesOf m).foldl (fun s l => s.scrubExit w l) s
  (s.endThreads w m .exited).dropWaves w.team

def exitBody (s : State) (r : Run) (_sh : Shape) : Body :=
  .done s r (.leave fun s r => s.exitThreads r.wave r.group)

def execExit (e : Bool) (s : State) : Host.Outcome State Fault Refusal := execute s (.exit e) [] exitBody

/-- The slots that waves hold on a core (R22). -/
def State.usedSlots (s : State) (core : Nat) : List Nat :=
  (s.teams.filter fun t => t.coreNo = core && t.place ≠ .ended).flatMap fun t => t.waves.filterMap fun w => w.slot

/-- A free slot of a core, where there is one. DESIGN CHOICE, safe (log 54). -/
def State.freeSlot (s : State) (core : Nat) : Option Nat :=
  choose (s.pickNo 1 (32 * core + (s.usedSlots core).length)) ((List.range 16).filter fun k => !(s.usedSlots core).contains k)

/-- A wave takes a resident slot: its threads are ready from now on (R22, R293). -/
def Wave.seat (v : Wave) (k now : Nat) : Wave :=
  { (v.modLanes (BitVec.allOnes 32) fun t => if t.status = .ready then { t with since := now } else t) with slot := some k }

/-- A wave without a slot takes a free one of its core, while every image that could be written on the cluster fits its
place (R22, R203). DEDUCED, unsafe (log 42). -/
def State.seatWave (s : State) (w : WaveId) : State :=
  let u := s.team w.team
  match s.freeSlot u.coreNo with
  | none => s
  | some k =>
    let t := s.modWave w fun v => v.seat k s.now
    if t.imagesFit (s.job w.team.job).part u.cluster then t else s

/-- Admitted waves of a core with an unexited thread (R43, R291). -/
def State.admittedWaves (s : State) (core : Nat) : Nat :=
  ((s.teams.filter fun t => t.coreNo = core && (t.place = .resident || t.place = .parked)).map fun t =>
    (t.waves.filter Wave.isLive).length).foldl (· + ·) 0

/-- The lowest wave index that no live wave of a team has (R43). -/
def Team.freeIndex (t : Team) : Nat :=
  ((List.range 33).find? fun i => !t.waves.any fun w => w.idx = i && w.isLive).getD 32

/-- A thread at its launch: at a header, with its work identifier (R42, R51). -/
def Thread.launch (pc wid : Word) (now : Nat) : Thread :=
  { Thread.blank with status := .ready, pc := pc, next := pc, blk := pc, wid := wid, since := now }

/-- May the group's FORK create a wave (R42, R43)? -/
def State.canFork (s : State) (w : WaveId) (m : LaneMask) : Bool :=
  let t := s.team w.team
  (t.waves.filter Wave.isLive).length < 32 && s.admittedWaves t.coreNo < 64
    && (s.wave w).joins + (lanesOf m).length ≤ 65535

/-- Creates the child wave, resident where it finds a slot (R22, R42, R203, R396); the group's release is acquired by the children in the same core (R176). -/
def State.forkWave (s : State) (w : WaveId) (m : LaneMask) (target : Word) (v : Fin 32 → Word) : State :=
  let t := s.team w.team
  let parent := s.wave w
  let (sig, s) := s.takeSig w m
  let child : Wave :=
    { Wave.blank with
      idx := t.freeIndex, uid := t.nextUid, parent := some w.uid,
      lanes := Vector.ofFn fun l : Fin 32 =>
        if LaneMask.has m l then
          let th := Thread.launch target parent.lanes[l].wid s.now
          { th with regs := th.regs.setN 0 ⟨v l, 0⟩ }
        else Thread.blank }
  let s := s.modTeam w.team fun t => { t with waves := t.waves ++ [child], nextUid := t.nextUid + 1 }
  let s := s.modWave w fun p =>
    { p with joins := p.joins + (lanesOf m).length, joinSig := if p.joins = 0 then 0 else p.joinSig }
  (s.acquire t.coreNo sig).seatWave { team := w.team, wave := child.idx, uid := child.uid }

/-- The headers a FORK checks: its target, and the word after it, at which its threads go on (R396). -/
def forkChecks (r : Run) (sh : Shape) (target : Word) : List (Fin 32 × Word × Bool) :=
  (lanesOf r.group).flatMap fun l => [(l, target, false), (l, r.next sh, false)]

/-- The lanes whose value for their child is poisoned, as faults (R194, R396). -/
def forkPoison (s : State) (r : Run) (sh : Shape) : List (Fin 32 × Exc) :=
  ((lanesOf r.group).filter fun l => ((s.laneIn r sh [tyW64] l).ops.getD 0 Val.zero).bad).map fun l => (l, poisonAtLane l)

def forkBody (f : Ctl) (s : State) (r : Run) (sh : Shape) : Body :=
  let target := targetOf r.pc f.off f.lit
  let x := s.laneIn r sh [tyW64]
  let bad := forkPoison s r sh
  let s := s.fetched r.wave ((forkChecks r sh target).map fun c => c.2.1)
  match s.transferExc r.wave (forkChecks r sh target) [] bad with
  | some e => .fault s e
  | none =>
    .done s r (.own fun s r' =>
      let ok := s.canFork r'.wave r'.group
      let s := if ok then s.forkWave r'.wave r'.group target fun l => (x l).a else s
      let s := (lanesOf r'.group).foldl
        (fun s l => s.setRegs r'.wave l fun g => g.put sh.dst .b64 0xFF ⟨if ok then 1 else 0, 0⟩) s
      s.goOn r'.wave r'.group r'.pc)

def execFork (f : Ctl) (s : State) : Host.Outcome State Fault Refusal := execute s (.fork f) [tyW64] (forkBody f)

/-- Completes an FJOIN: the acquire of the children's exits (R44). -/
def State.joinDone (s : State) (w : WaveId) : State := s.acquire (s.team w.team).coreNo (s.wave w).joinSig

def fjoinBody (s : State) (r : Run) (_sh : Shape) : Body :=
  .done s r (.own fun s r' =>
    if (s.wave r'.wave).joins = 0 then (s.joinDone r'.wave).goOn r'.wave r'.group r'.pc
    else s.waitAt r'.wave r'.group r.pc r'.pc .fjoin)

def execFjoin (e : Bool) (s : State) : Host.Outcome State Fault Refusal := execute s (.fjoin e) [] fjoinBody

/-! ## Barriers -/

/-- Arrival at the team's barrier: a release, and the wait (R26, R365). Completion is a step of its own. -/
def barBody (s : State) (r : Run) (_sh : Shape) : Body :=
  .done s r (.own fun s r' =>
    let (sig, s) := s.takeSig r'.wave r'.group
    let s := s.modTeam r'.wave.team fun t => { t with barSig := t.barSig ||| sig, barCut := (s.nextCmd, t.arrivals) }
    s.waitAt r'.wave r'.group r.pc r'.pc .bar)

def execBar (e : Bool) (s : State) : Host.Outcome State Fault Refusal := execute s (.bar e) [] barBody

/-- Arrival at the cohort's barrier, noting HOLD for the team (R154, R376). -/
def cbarBody (hold : Bool) (s : State) (r : Run) (_sh : Shape) : Body :=
  .done s r (.own fun s r' =>
    let (sig, s) := s.takeSig r'.wave r'.group
    let s := s.modTeam r'.wave.team fun t =>
      { t with
        cbarSig := t.cbarSig ||| sig, cbarAsked := t.cbarAsked || hold, cbarCut := (s.nextCmd, t.arrivals) }
    s.waitAt r'.wave r'.group r.pc r'.pc .cbar)

def execCbar (hold e : Bool) (s : State) : Host.Outcome State Fault Refusal := execute s (.cbar hold e) [] (cbarBody hold)

/-! ## YIELD, NOP, TRIG -/

/-- The group becomes ready at this moment and lets those that were ready before it go first (R293, R448). -/
def yieldBody (s : State) (r : Run) (_sh : Shape) : Body :=
  .done s r (.own fun s r' =>
    (s.goOn r'.wave r'.group r'.pc).modLanes r'.wave r'.group fun _ t => { t with since := s.now, yielded := true })

def execYield (e : Bool) (s : State) : Host.Outcome State Fault Refusal := execute s (.yield e) [] yieldBody

def nopBody (s : State) (r : Run) (_sh : Shape) : Body := .done s r .goOn

def execNop (e : Bool) (s : State) : Host.Outcome State Fault Refusal := execute s (.nop e) [] nopBody
def execNopS (e : Bool) (s : State) : Host.Outcome State Fault Refusal := execute s (.nopS e) [] nopBody

/-- The threads' share of the job is ready for its early successor; a release (R289, R441). -/
def trigBody (s : State) (r : Run) (_sh : Shape) : Body :=
  .done s r (.own fun s r' =>
    let (sig, s) := s.takeSig r'.wave r'.group
    let s := s.modJob r'.wave.team.job fun j => { j with trigSig := j.trigSig ||| sig }
    let s := s.modLanes r'.wave r'.group fun _ t => { t with trig := true }
    s.goOn r'.wave r'.group r'.pc)

def execTrig (e : Bool) (s : State) : Host.Outcome State Fault Refusal := execute s (.trig e) [] trigBody

/-! ## Traps, breakpoints, control registers -/

/-- The run commits, and then the TRAP is all that remains of it (R440). -/
def trapBody (code : BitVec 16) (words : List W32) (s : State) (r : Run) (sh : Shape) : Body :=
  .done s r (.leave fun s r' =>
    s.raise r'.wave r'.group r.pc (r.next sh) r'.blk
      { code := Code.trap, sub := code.toNat, lanes := r'.group, enc := words })

def execTrap (code : BitVec 16) (e : Bool) (s : State) : Host.Outcome State Fault Refusal :=
  execute s (.trap code e) [] (trapBody code (encode (.trap code e)))

/-- A breakpoint in code stops the threads of the group when DBGCTL.EN is set, but for those whose run is the one after an
ACT 0 (R326, R327, R373): they begin theirs again without the others. DEDUCED, unsafe (log 35). -/
def brkBody (code : BitVec 16) (words : List W32) (s : State) (r : Run) (_sh : Shape) : Body :=
  let en := (s.vf (s.jobOf r.wave).vf).dbgctl.getLsbD 0
  let m := s.stoppable r.wave r.group
  if en && m ≠ 0 then .gone (s.debugStop r.wave m r.start code.toNat words)
  else .done s r .goOn

def execBrk (code : BitVec 16) (e : Bool) (s : State) : Host.Outcome State Fault Refusal :=
  execute s (.brk code e) [] (brkBody code (encode (.brk code e)))

/-- System registers are no job's (R192, R380). -/
def privExc (r : Run) (sub : Nat) : Exc := { code := Code.priv, sub := sub, lanes := r.group }

/-- The register as committed before the run (R380). DEDUCED, unsafe (log 13). -/
def csrrBody (num : BitVec 12) (s : State) (r : Run) (sh : Shape) : Body :=
  if num.toNat ≥ 0x800 then .fault s (privExc r num.toNat)
  else
    .done s (r.write (fun _ => 0) fun l regs =>
      regs.put sh.dst .b64 0xFF ⟨(csrRead (s.thread r.wave l).regs num.toNat).zeroExtend 64, 0⟩) .goOn

def execCsrr (num : BitVec 12) (e : Bool) (d : Dst) (s : State) : Host.Outcome State Fault Refusal :=
  execute s (.csrr num e d) [] (csrrBody num)

/-- A write at commit, after the run's flags (R380). -/
def csrwBody (num : BitVec 12) (s : State) (r : Run) (sh : Shape) : Body :=
  let x := s.laneIn r sh [tyW64]
  let bad := poisonedSrc s r sh .b32
  if num.toNat ≥ 0x800 then .fault s (privExc r num.toNat)
  else if bad ≠ 0 then .fault s (poisonExc bad)
  else
    .done s r (.own fun s r' =>
      let s := (lanesOf r'.group).foldl
        (fun s l => s.setRegs r'.wave l fun g => csrWrite g num.toNat (w32 (low32 (x l).a))) s
      s.goOn r'.wave r'.group r'.pc)

def execCsrw (num : BitVec 12) (f : Ctl) (s : State) : Host.Outcome State Fault Refusal :=
  execute s (.csrw num f) [tyW64] (csrwBody num)

/-- PRIV in every thread of every job (R399). -/
def haltBody (s : State) (r : Run) (_sh : Shape) : Body := .fault s (privExc r 0)

def execHalt (e : Bool) (s : State) : Host.Outcome State Fault Refusal := execute s (.halt e) [] haltBody

end Sys2Proof.Machine
end

