-- ==== Sys2Proof/Machine/Copy.lean ====
section
/-!
DEFINITION. COPY (R217 to R219, R379): its checks and commit, its elements, its completion and its faults.
-/

namespace Sys2Proof.Machine

open Sys2Proof

/-- The checks of one lane's COPY before commit (R218, R379). -/
def State.copyExcs (s : State) (r : Run) (l : Fin 32) (lg : Nat) (srcS dstS : Bool) (dst src n : Nat) :
    List (Fin 32 × Exc) :=
  let e := 2 ^ lg
  let t := s.team r.wave.team
  let bound := fun (a : Nat) => needs (a + n ≤ t.scrSize) l (Exc.bound (w64 a) l)
  needs (n < 2 ^ 32 && n % e = 0) l (alignExc l n)
    ++ needs (dst % e = 0) l (alignExc l dst) ++ needs (src % e = 0) l (alignExc l src)
    ++ (if srcS then bound src else if n = 0 then [] else s.xlatExc r l src .read)
    ++ (if dstS then bound dst else if n = 0 then [] else s.xlatExc r l dst .write)

/-- Uncompleted copies of the teams that a core has now (R218). -/
def State.copiesOf (s : State) (core : Nat) : Nat :=
  (s.cmds.filter fun c =>
    (s.team c.wave.team).coreNo = core && (s.team c.wave.team).place ≠ .swapped
      && match c.kind with | .copy _ => true | _ => false).length

/-- DEDUCED, unsafe (log 46). -/
def copyBody (lg : Width) (srcS dstS : Bool) (tok n : Nat) (s : State) (r : Run) (sh : Shape) : Body :=
  let act := s.actors r sh
  let dst := fun l => (s.engArg r sh 0 l).bits
  let src := fun l => (s.engArg r sh 1 l).bits
  let cnt := fun (l : Fin 32) => (r.spec[l].getN n).bits.toNat
  let lgn := lg.bytes.log2
  let excs := (lanesOf act).flatMap fun l => s.copyExcs r l lgn srcS dstS (dst l).toNat (src l).toNat (cnt l)
  if act = 0 then .done s r (.own fun s r' => s.goOnRun r')
  else
    match firstExc (excs ++ s.engPoison r sh act [n]) with
    | some e => .fault s e
    | none =>
      if s.copiesOf (s.team r.wave.team).coreNo + (lanesOf act).length > 256 then .wait s
      else
        .done s r (.own fun s r' =>
          let (seq, s) := s.takeSeq r'.wave
          let s := (lanesOf act).foldl
            (fun s l =>
              s.newCmd r'.wave (laneBit l) (some tok) seq r.pc
                (.copy { log2 := lgn, dst := dst l, src := src l, count := cnt l, srcS := srcS, dstS := dstS, cursor := 0,
                         shadow := [], wrote := [] })) s
          s.goOnRun r')

def execCopy (lg : Width) (srcS dstS : Bool) (f : Eng) (s : State) : Host.Outcome State Fault Refusal :=
  execute s (.copy lg srcS dstS f) engTys (copyBody lg srcS dstS (f.t.reg.headD 0) ((f.n.map Fin.val).getD 0))

/-! ## Elements -/

/-- The bytes read so far, or a fault at an element. -/
inductive Moved where
  | all (bs : List Byte) (poison : Bool) (s : State)
  | stop (e : XErr) (at_ : Nat) (bs : List Byte) (s : State)
  | later                                          -- another device has not answered

def Moved.cons (m : Moved) (bs : List Byte) (p : Bool) : Moved :=
  match m with
  | .all rest q s => .all (bs ++ rest) (p || q) s
  | .stop x j rest s => .stop x j (bs ++ rest) s
  | .later => .later

/-- Bytes of a scratchpad source: those of now or of the commit, by word (R186); where the destination is the same
scratchpad, those of the commit (R379). -/
def State.scrSource (s : State) (m : Cmd) (k : Copy) (o n : Nat) : List Byte :=
  let t := s.team m.wave.team
  (List.range n).map fun i =>
    if k.dstS then m.scr0.read (o + i)
    else s.eitherByte (2 ^ 63 + o + i) (m.scr0.read (o + i)) (t.scr.read (o + i))

/-- Reads the elements of e bytes from `i` on, n of them (R186). -/
def State.copyRead (s : State) (m : Cmd) (k : Copy) (e : Nat) : Nat → Nat → Moved
  | 0, _ => .all [] false s
  | n + 1, i =>
    let a := k.src.toNat + i * e
    if k.srcS then
      (s.copyRead m k e n (i + 1)).cons (s.scrSource m k a e) ((s.team m.wave.team).scrPoison.contains (a / 128))
    else
      let c := m.srcCtx
      match s.translate c a .read with
      | .error x => .stop x i [] s
      | .ok (x, s) =>
        if !s.isLocal x.hpa && !Config.peerAnswers s.tick x.hpa then .later
        else (s.copyRead m k e n (i + 1)).cons (s.readFor c x.hpa e) (s.linePoisoned c.part x.hpa)

/-- The first element that a copy to global memory has still to write: that of the destination word in which it stands, as
words are written whole (R188). -/
def Copy.first (k : Copy) : Nat :=
  let e := 2 ^ k.log2
  k.cursor - min k.cursor ((k.dst.toNat + k.cursor * e) % 4 / e)

/-- The destination words, as far as the copy has them, of its bytes from `a` up to `b`: where each begins, and its length;
but for those that are written. -/
def Copy.words (k : Copy) (a b : Nat) : List (Nat × Nat) :=
  let d := k.dst.toNat
  ((List.range ((d + b + 3) / 4 - (d + a) / 4)).filter fun j => !k.wrote.contains ((d + a) / 4 + j)).filterMap fun j =>
    let w := (d + a) / 4 + j
    let lo := max (4 * w) (d + a)
    let hi := min (4 * w + 4) (d + b)
    if lo < hi then some (lo - d, hi - lo) else none

/-- What a destination element is: global memory, hall, or hall whose home bank has no cache steps for a shadow (R187,
R218). -/
inductive DestKind where
  | plain | hall | full
  deriving DecidableEq, Repr

def State.destKind (s : State) (part hpa : Nat) : DestKind :=
  if s.isLocal hpa then
    match s.region part hpa with
    | some (.hall b) => if s.hall b + s.save b ≥ 8 then .full else .hall
    | _ => .plain
  else .plain

/-- The kind of each of n destination elements from `i` on, up to the first that is not reached, with its fault. -/
def State.copyDests (s : State) (c : Xctx) (k : Copy) (e : Nat) : Nat → Nat → List DestKind × Option (XErr × Nat) × State
  | 0, _ => ([], none, s)
  | n + 1, i =>
    match s.translate c (k.dst.toNat + i * e) .write with
    | .error x => ([], some (x, i), s)
    | .ok (x, s) =>
      let (ds, bad, s) := s.copyDests c k e n (i + 1)
      (s.destKind c.part x.hpa :: ds, bad, s)

/-- Writes words of the destination; `bs` are the copy's bytes from its first. Answers the lines written too. -/
def State.copyWrite (s : State) (c : Xctx) (k : Copy) (poison : Bool) (bs : List Byte) : List (Nat × Nat) → Sig → Sig × State
  | [], g => (g, s)
  | (o, n) :: ws, g =>
    match s.xput c (k.dst.toNat + o) ((bs.drop o).take n) poison with
    | .error _ => s.copyWrite c k poison bs ws g
    | .ok (sg, s) => s.copyWrite c k poison bs ws (g ||| sg)

/-- The published words are in no cache any more (R187). -/
def State.uncacheAll (s : State) (c : Xctx) (k : Copy) (ws : List (Nat × Nat)) : State :=
  ws.foldl
    (fun s w => match s.translate c (k.dst.toNat + w.1) .write with
      | .ok (x, _) => s.uncache x.hpa
      | .error _ => s) s

/-- How far a copy gets: complete, with its token value; or suspended, with the element it resumes at and the shadow it
has. -/
inductive CopyEnd where
  | complete (v : Word) (sig : Sig) (s : State)
  | stuck (e : XErr) (at_ : Nat) (shadow : List Byte) (s : State)
  | later

/-- Line numbers of a byte range. -/
def linesOf (a n : Nat) : List Nat := (List.range ((a % 128 + n + 127) / 128)).map fun i => a / 128 + i

/-- What is left of a copy to a scratchpad: published whole, or kept in its shadow (R187, R219). -/
def State.copyScr (s : State) (m : Cmd) (k : Copy) (n : Nat) : CopyEnd :=
  match s.copyRead m k (2 ^ k.log2) (n - k.cursor) k.cursor with
  | .later => .later
  | .stop x i bs s => .stuck x i (k.shadow ++ bs) s
  | .all bs p s =>
    let t := m.wave.team
    let s := if n = 0 then s else s.writeScr t k.dst.toNat (k.shadow ++ bs)
    .complete 0 0 (if p then s.modTeam t fun u => { u with scrPoison := linesOf k.dst.toNat k.count ++ u.scrPoison } else s)

/-- What is left of a copy to global memory: words in hall are published whole at the end from the shadow, the others
are written in place, each once and whole; a fault leaves what was written (R178, R187, R188, R219). -/
def State.copyGlob (s : State) (m : Cmd) (k : Copy) (n : Nat) : CopyEnd :=
  let c := m.ctx
  let e := 2 ^ k.log2
  -- where reading begins, what was read before it, and where what no write in place has reached begins
  let start := if k.shadow.isEmpty then k.first else k.cursor
  let base := if k.shadow.isEmpty then List.replicate (start * e) 0 else k.shadow
  let from_ := if k.shadow.isEmpty then start else 0
  let (ds, bad, s) := s.copyDests c k e (n - from_) from_
  let hall := ds.any fun d => d ≠ .plain
  let plain := fun (w : Nat × Nat) => decide (w.1 / e < from_) || ds.getD (w.1 / e - from_) .plain = .plain
  -- as far as destinations are reached, and as sources are
  let reach := match bad with | some (_, j) => j | none => n
  if ds.contains .full then .complete 6 m.sig s
  else
    let held := fun (bs : List Byte) (i : Nat) => if hall then (base ++ bs).take (i * e) else []
    let part := fun (s : State) (x : XErr) (i : Nat) (bs : List Byte) =>
      let stop := ({ k with cursor := i } : Copy).first
      let ws := (k.words (k.first * e) (stop * e)).filter plain
      let (g, s) := s.copyWrite c k false (base ++ bs) ws m.sig
      CopyEnd.stuck x i (held bs i) (s.modCmd m.id fun m => { m with sig := g })
    match s.copyRead m k e (reach - start) start with
    | .later => .later
    | .stop x i bs s => part s x i bs
    | .all bs p s =>
      match bad with
      | some (x, j) => part s x j bs
      | none =>
        let (g, s) := s.copyWrite c k p (base ++ bs) ((k.words (k.first * e) (n * e)).filter plain) m.sig
        let late := if hall then (k.words (from_ * e) (n * e)).filter fun w => !plain w else []
        let (g, s) := s.copyWrite c k p (base ++ bs) late g
        .complete 0 g (s.uncacheAll c k late)

/-- All that is left of a copy, in one go. -/
def State.copyRun (s : State) (m : Cmd) (k : Copy) : CopyEnd :=
  let n := k.count / 2 ^ k.log2
  if k.dstS then s.copyScr m k n else s.copyGlob m k n

/-- Do two scratchpad destinations overlap (R218)? -/
def copyClash (a b : Copy) : Bool :=
  a.dstS && b.dstS && a.dst.toNat < b.dst.toNat + b.count && b.dst.toNat < a.dst.toNat + a.count

/-- Must a copy wait for an earlier one's shadow (R218)? -/
def State.copyHeld (s : State) (m : Cmd) (k : Copy) : Bool :=
  s.cmds.any fun x => x.id < m.id && x.wave.team = m.wave.team &&
    match x.kind with | .copy k' => copyClash k k' | _ => false

/-- A command of the copy kind that may run. -/
def State.copyReady (s : State) (id : Nat) : Option (Cmd × Copy) :=
  match s.cmd? id with
  | some m => match m.kind with
    | .copy k =>
      -- parking and swapping suspend a copy (R219), but for one whose team waits for it to end (R236)
      let t := s.team m.wave.team
      if m.runs && (t.place = .resident || (t.place = .parked && !t.isLive)) && !s.copyHeld m k then some (m, k) else none
    | _ => none
  | none => none

/-- A copy finishes, publishes any shadow and writes its token (R218). DEDUCED, unsafe (log 10). -/
def execCopyComplete (cmd : Nat) (s : State) : Host.Outcome State Fault Refusal :=
  match s.copyReady cmd with
  | none => .next s
  | some (m, k) =>
    match s.copyRun m k with
    | .complete v sig s => .next (s.endCmd m v sig).settle
    | _ => .next s

/-- A copy suspends at a faulting element, with its shadow (R219). -/
def execCopyFault (cmd : Nat) (s : State) : Host.Outcome State Fault Refusal :=
  match s.copyReady cmd with
  | none => .next s
  | some (m, k) =>
    match s.copyRun m k with
    | .stuck e i shadow s =>
      let s := s.modCmd cmd fun m => { m with kind := .copy { k with cursor := i, shadow := shadow } }
      .next (s.suspendCmd m e)
    | _ => .next s

/-- One of the words that are still to be written reaches global memory before the copy ends, with all of the elements in it
(R178, R188): the words are written in an unspecified order. DEDUCED, unsafe (log 10). -/
def State.copyAhead (s : State) (cmd : Nat) : State :=
  match s.copyReady cmd with
  | none => s
  | some (m, k) =>
    let e := 2 ^ k.log2
    let todo := k.words (k.first * e) k.count
    match k.dstS, todo[s.pickNo 15 cmd % todo.length]? with
    | false, some (o, n) =>
      let c := m.ctx
      let i := o / e
      match s.copyRead m k e ((o + n + e - 1) / e - i) i, s.translate c (k.dst.toNat + o) .write with
      | .all bs p s, .ok (x, _) =>
        if s.destKind c.part x.hpa ≠ .plain then s
        else match s.xput c (k.dst.toNat + o) ((bs.drop (o - i * e)).take n) p with
          | .ok (g, s) =>
            let k := { k with wrote := k.wrote ++ [(k.dst.toNat + o) / 4] }
            s.modCmd cmd fun m => { m with kind := .copy k, sig := m.sig ||| g }
          | .error _ => s
      | _, _ => s
    | _, _ => s

end Sys2Proof.Machine
end

