-- ==== Sys2Proof/Machine/Float.lean ====
section
/-!
DEFINITION. The float block (R389 to R392, R397) and its short forms: each instruction as a function of the codes of
its operands, with the flags of R129.
-/

namespace Sys2Proof.Machine

open Sys2Proof

/-- Two-operand arithmetic in a type. -/
def faddF (t : FTy) (m : Mode) (a b _c : Nat) : Rnd := (Fmt.ofF t).add m ((Fmt.ofF t).decode a) ((Fmt.ofF t).decode b)
def fsubF (t : FTy) (m : Mode) (a b _c : Nat) : Rnd :=
  (Fmt.ofF t).add m ((Fmt.ofF t).decode a) ((Fmt.ofF t).decode b).negate
def fmulF (t : FTy) (m : Mode) (a b _c : Nat) : Rnd := (Fmt.ofF t).mul m ((Fmt.ofF t).decode a) ((Fmt.ofF t).decode b)
def ffmaF (t : FTy) (m : Mode) (a b c : Nat) : Rnd :=
  (Fmt.ofF t).fma m ((Fmt.ofF t).decode a) ((Fmt.ofF t).decode b) ((Fmt.ofF t).decode c)
def fminF (t : FTy) (a b _c : Nat) : Rnd := (Fmt.ofF t).minmax false a b
def fmaxF (t : FTy) (a b _c : Nat) : Rnd := (Fmt.ofF t).minmax true a b

/-- The relations of IEEE 754-2019 (R391). -/
def fcmpF (cc : Fcc) (t : FTy) (a b _c : Nat) : Rnd :=
  let x := (Fmt.ofF t).decode a
  let y := (Fmt.ofF t).decode b
  let un := x.isNan || y.isNan
  let lt := !un && Fp.lt false x y
  let gt := !un && Fp.lt false y x
  let eq := Fp.same x y
  let v := match cc with
    | .eq => eq | .ne => !eq | .lt => lt | .le => lt || eq | .gt => gt | .ge => gt || eq | .uo => un | .ord => !un
  let ordered := match cc with
    | .lt => true | .le => true | .gt => true | .ge => true | _ => false
  { bits := if v then 2 ^ t.width.bits - 1 else 0, flags := nvIf (x.isSnan || y.isSnan || (ordered && un)) }

/-- One of bits 0 to 9 (R390). -/
def fclassF (t : FTy) (a _b _c : Nat) : Nat :=
  let f := Fmt.ofF t
  match f.decode a with
  | .nan s => if s then 2 ^ 8 else 2 ^ 9
  | .inf n => if n then 1 else 2 ^ 7
  | .fin n m _ =>
    if m = 0 then (if n then 2 ^ 3 else 2 ^ 4)
    else if m < 2 ^ f.mb then (if n then 2 ^ 2 else 2 ^ 5)
    else if n then 2 else 2 ^ 6

/-- The integral value of the format nearest to a code, keeping its sign (R397). -/
def frndF (t : FTy) (m : Mode) (a _b _c : Nat) : Rnd :=
  let f := Fmt.ofF t
  match f.decode a with
  | .nan s => f.nanRnd s
  | .inf _ => { bits := a, flags := 0 }
  | .fin n k e =>
    if k = 0 then { bits := a, flags := 0 }
    else
      let (v, inexact) := roundNat m n (k * 2 ^ e.toNat) (2 ^ (-e).toNat)
      { bits := (f.round .tz n v 1 0).bits, flags := if inexact then Flags.nx else 0 }

def transcF (fn : TFn) (t : TTy) (m : Mode) (a _b _c : Nat) : Rnd := (Fmt.ofF t.fty).transcend fn m a

/-! ## L and X formats -/

def execFadd (t : FTy) (f : Alu) (s : State) := fltOp (.fadd t f) t (faddF t (Mode.ofRm f.rm)) s
def execFsub (t : FTy) (f : Alu) (s : State) := fltOp (.fsub t f) t (fsubF t (Mode.ofRm f.rm)) s
def execFmul (t : FTy) (f : Alu) (s : State) := fltOp (.fmul t f) t (fmulF t (Mode.ofRm f.rm)) s
def execFfma (t : FTy) (f : Alu) (s : State) := fltOp (.ffma t f) t (ffmaF t (Mode.ofRm f.rm)) s
def execFmin (t : FTy) (f : Alu) (s : State) := fltOp (.fmin t f) t (fminF t) s
def execFmax (t : FTy) (f : Alu) (s : State) := fltOp (.fmax t f) t (fmaxF t) s
def execFcmp (cc : Fcc) (t : FTy) (f : Alu) (s : State) := fltOp (.fcmp cc t f) t (fcmpF cc t) s
def execFclass (t : FTy) (f : Alu) (s : State) := aluOp (.fclass t f) (.flt t) (perSub t.width (fclassF t)) s
def execFrnd (t : FTy) (f : Alu) (s : State) := fltOp (.frnd t f) t (frndF t (Mode.ofRm f.rm)) s
def execFrcp (t : TTy) (f : Alu) (s : State) := fltOp (.frcp t f) t.fty (transcF .rcp t (Mode.ofRm f.rm)) s
def execFrsq (t : TTy) (f : Alu) (s : State) := fltOp (.frsq t f) t.fty (transcF .rsq t (Mode.ofRm f.rm)) s
def execFsqrt (t : TTy) (f : Alu) (s : State) := fltOp (.fsqrt t f) t.fty (transcF .sqrt t (Mode.ofRm f.rm)) s
def execFexp2 (t : TTy) (f : Alu) (s : State) := fltOp (.fexp2 t f) t.fty (transcF .exp2 t (Mode.ofRm f.rm)) s
def execFlog2 (t : TTy) (f : Alu) (s : State) := fltOp (.flog2 t f) t.fty (transcF .log2 t (Mode.ofRm f.rm)) s
def execFsin (t : TTy) (f : Alu) (s : State) := fltOp (.fsin t f) t.fty (transcF .sin t (Mode.ofRm f.rm)) s
def execFcos (t : TTy) (f : Alu) (s : State) := fltOp (.fcos t f) t.fty (transcF .cos t (Mode.ofRm f.rm)) s
def execFtanh (t : TTy) (f : Alu) (s : State) := fltOp (.ftanh t f) t.fty (transcF .tanh t (Mode.ofRm f.rm)) s
def execFsigm (t : TTy) (f : Alu) (s : State) := fltOp (.fsigm t f) t.fty (transcF .sigm t (Mode.ofRm f.rm)) s

/-! ## S format: RM 00 (R389) -/

def execFaddS (t : FTy) (f : Short) (s : State) := fltOp (.faddS t f) t (faddF t .ne) s
def execFsubS (t : FTy) (f : Short) (s : State) := fltOp (.fsubS t f) t (fsubF t .ne) s
def execFmulS (t : FTy) (f : Short) (s : State) := fltOp (.fmulS t f) t (fmulF t .ne) s
def execFminS (t : FTy) (f : Short) (s : State) := fltOp (.fminS t f) t (fminF t) s
def execFmaxS (t : FTy) (f : Short) (s : State) := fltOp (.fmaxS t f) t (fmaxF t) s

end Sys2Proof.Machine
end

