-- ==== Sys2Proof/Machine/Integer.lean ====
section
/-!
DEFINITION. The integer block (R401 to R408, R413, R359, R366, R367, R372, R377, R424, R426, R434, R436, R447) and its
short forms (R74, R96): each instruction as a function of the sub-elements of its operands.
-/

namespace Sys2Proof.Machine

open Sys2Proof

/-- A sub-element as its type reads it (R401). -/
def ival (t : ITy) (v : Nat) : Int := if t.signed then signed t.width.bits v else v

/-- Clamped to the type (R403). -/
def clampTo (t : ITy) (v : Int) : Int :=
  let b := t.width.bits
  let lo : Int := if t.signed then -(2 ^ (b - 1) : Nat) else 0
  let hi : Int := if t.signed then (2 ^ (b - 1) : Nat) - 1 else (2 ^ b : Nat) - 1
  if v < lo then lo else if v > hi then hi else v

/-- An exact value wrapped, or saturated (R403). -/
def iresult (t : ITy) (sat : Bool) (v : Int) : Nat := wrap t.width.bits (if sat then clampTo t v else v)

def iaddF (t : ITy) (sat : Bool) (a b _c : Nat) : Nat := iresult t sat (ival t a + ival t b)
def isubF (t : ITy) (sat : Bool) (a b _c : Nat) : Nat := iresult t sat (ival t a - ival t b)
def imulF (t : ITy) (a b _c : Nat) : Nat := wrap t.width.bits (ival t a * ival t b)
def imulhF (t : ITy) (a b _c : Nat) : Nat := wrap t.width.bits (ival t a * ival t b / (2 ^ t.width.bits : Nat))
def imadF (t : ITy) (a b c : Nat) : Nat := wrap t.width.bits (ival t a * ival t b + ival t c)
def iminF (t : ITy) (a b _c : Nat) : Nat := if ival t b < ival t a then b else a
def imaxF (t : ITy) (a b _c : Nat) : Nat := if ival t a < ival t b then b else a
def iabsF (w : Width) (a _b _c : Nat) : Nat := wrap w.bits (signed w.bits a).natAbs
def inegF (w : Width) (a _b _c : Nat) : Nat := wrap w.bits (-(signed w.bits a))

/-- The relations of R404 and R352. -/
def relation (cc : Icc) (a b : Int) : Bool :=
  match cc with
  | .eq => a = b | .ne => a ≠ b | .lt => a < b | .le => a ≤ b | .gt => a > b | .ge => a ≥ b

def allOnesIf (b : Nat) (p : Bool) : Nat := if p then 2 ^ b - 1 else 0

def icmpF (cc : Icc) (t : ITy) (a b _c : Nat) : Nat := allOnesIf t.width.bits (relation cc (ival t a) (ival t b))
def leaF (sh : Fin 8) (a b _c : Nat) : Nat := wrap 64 ((a + b * 2 ^ sh.val : Nat) : Int)
def andF (a b _c : Nat) : Nat := a &&& b
def andnF (w : Width) (a b _c : Nat) : Nat := a &&& (2 ^ w.bits - 1 - b)
def orF (a b _c : Nat) : Nat := a ||| b
def xorF (a b _c : Nat) : Nat := a ^^^ b
def notF (w : Width) (a _b _c : Nat) : Nat := 2 ^ w.bits - 1 - a
def shlF (w : Width) (a c _c : Nat) : Nat := if c < w.bits then a * 2 ^ c % 2 ^ w.bits else 0
def shrF (w : Width) (a c _c : Nat) : Nat := if c < w.bits then a / 2 ^ c else 0
def sarF (w : Width) (a c _c : Nat) : Nat :=
  wrap w.bits (signed w.bits a / (2 ^ min c (w.bits - 1) : Nat))
def rolF (w : Width) (a c _c : Nat) : Nat :=
  let k := c % w.bits
  a * 2 ^ k % 2 ^ w.bits + a / 2 ^ (w.bits - k)

def popcount : Nat → Nat → Nat
  | 0, _ => 0
  | n + 1, v => v % 2 + popcount n (v / 2)

def popcF (w : Width) (a _b _c : Nat) : Nat := popcount w.bits a
def clzF (w : Width) (a _b _c : Nat) : Nat := if a = 0 then w.bits else w.bits - 1 - a.log2

def reverseBits : Nat → Nat → Nat
  | 0, _ => 0
  | n + 1, v => v % 2 * 2 ^ n + reverseBits n (v / 2)

def brevF (w : Width) (a _b _c : Nat) : Nat := reverseBits w.bits a

/-- Offset and length cut to the width (R366, R367). -/
def bfeF (t : ITy) (a b c : Nat) : Nat :=
  let w := t.width.bits
  let o := min b w
  let l := min c (w - o)
  let f := a / 2 ^ o % 2 ^ l
  wrap w (if t.signed && l > 0 && f ≥ 2 ^ (l - 1) then (f : Int) - (2 ^ l : Nat) else f)

def bfiF (w : Width) (a b c : Nat) : Nat :=
  let n := w.bits
  let o := min (c % 2 ^ (n / 2)) n
  let l := min (c / 2 ^ (n / 2)) (n - o)
  let m := (2 ^ l - 1) * 2 ^ o
  (b &&& (2 ^ n - 1 - m)) ||| (a * 2 ^ o % 2 ^ n &&& m)

def selF (a b c : Nat) : Nat := if a ≠ 0 then b else c

/-! ## L and X formats -/

def execIadd (sat : Bool) (t : ITy) (f : Alu) (s : State) := intOp (.iadd sat t f) t (iaddF t sat) s
def execIsub (sat : Bool) (t : ITy) (f : Alu) (s : State) := intOp (.isub sat t f) t (isubF t sat) s
def execImul (t : ITy) (f : Alu) (s : State) := intOp (.imul t f) t (imulF t) s
def execImulh (t : ITy) (f : Alu) (s : State) := intOp (.imulh t f) t (imulhF t) s
def execImad (t : ITy) (f : Alu) (s : State) := intOp (.imad t f) t (imadF t) s
def execImin (t : ITy) (f : Alu) (s : State) := intOp (.imin t f) t (iminF t) s
def execImax (t : ITy) (f : Alu) (s : State) := intOp (.imax t f) t (imaxF t) s
def execIabs (w : Width) (f : Alu) (s : State) := intOp (.iabs w f) ⟨true, w⟩ (iabsF w) s
def execIneg (w : Width) (f : Alu) (s : State) := intOp (.ineg w f) ⟨true, w⟩ (inegF w) s
def execIcmp (cc : Icc) (t : ITy) (f : Alu) (s : State) := intOp (.icmp cc t f) t (icmpF cc t) s
def execLea (sg : Bool) (sh : Fin 8) (f : Alu) (s : State) := intOp (.lea sg sh f) ⟨sg, .b64⟩ (leaF sh) s
def execAnd (t : ITy) (f : Alu) (s : State) := intOp (.andI t f) t andF s
def execAndn (t : ITy) (f : Alu) (s : State) := intOp (.andn t f) t (andnF t.width) s
def execOr (t : ITy) (f : Alu) (s : State) := intOp (.orI t f) t orF s
def execXor (t : ITy) (f : Alu) (s : State) := intOp (.xorI t f) t xorF s
def execNot (t : ITy) (f : Alu) (s : State) := intOp (.notI t f) t (notF t.width) s
def execShl (t : ITy) (f : Alu) (s : State) := intOp (.shl t f) t (shlF t.width) s
def execShr (t : ITy) (f : Alu) (s : State) := intOp (.shr t f) t (shrF t.width) s
def execSar (t : ITy) (f : Alu) (s : State) := intOp (.sar t f) t (sarF t.width) s
def execRol (t : ITy) (f : Alu) (s : State) := intOp (.rol t f) t (rolF t.width) s
def execPopc (t : ITy) (f : Alu) (s : State) := intOp (.popc t f) t (popcF t.width) s
def execClz (t : ITy) (f : Alu) (s : State) := intOp (.clz t f) t (clzF t.width) s
def execBrev (t : ITy) (f : Alu) (s : State) := intOp (.brev t f) t (brevF t.width) s
def execBfe (t : ITy) (f : Alu) (s : State) := intOp (.bfe t f) t (bfeF t) s
def execBfi (t : ITy) (f : Alu) (s : State) := intOp (.bfi t f) t (bfiF t.width) s

/-- SEL consumes the poison of its selector and of the source it selects (R436). -/
def selPoisoned (w : Width) (x : LaneIn) : Bool :=
  let one := fun (k j : Nat) => (x.ops.getD k Val.zero).poisoned w (BitVec.ofNat 8 (2 ^ j))
  (List.range w.count).any fun j =>
    x.mask.getLsbD j && (one 0 j || if sub w x.a j ≠ 0 then one 1 j else one 2 j)

def selBody (t : ITy) (s : State) (r : Run) (sh : Shape) : Body :=
  let x := s.laneIn r sh [.int t, .int t, .int t]
  let bad := maskWhere fun l => LaneMask.has r.group l && selPoisoned t.width (x l)
  if bad ≠ 0 then .fault s (poisonExc bad)
  else finishLanes s r sh t.width false (fun l => (x l).mask) fun l => perSub t.width selF (x l)

def execSel (t : ITy) (f : Alu) (s : State) : Host.Outcome State Fault Refusal :=
  execute s (.sel t f) [.int t, .int t, .int t] (selBody t)

/-! ## S format (R74) -/

def execIaddS (t : ITy) (f : Short) (s : State) := intOp (.iaddS t f) t (iaddF t false) s
def execIsubS (t : ITy) (f : Short) (s : State) := intOp (.isubS t f) t (isubF t false) s
def execImulS (t : ITy) (f : Short) (s : State) := intOp (.imulS t f) t (imulF t) s
def execAndS (t : ITy) (f : Short) (s : State) := intOp (.andS t f) t andF s
def execOrS (t : ITy) (f : Short) (s : State) := intOp (.orS t f) t orF s
def execXorS (t : ITy) (f : Short) (s : State) := intOp (.xorS t f) t xorF s
def execShlS (t : ITy) (f : Short) (s : State) := intOp (.shlS t f) t (shlF t.width) s
def execShrS (t : ITy) (f : Short) (s : State) := intOp (.shrS t f) t (shrF t.width) s
def execIminS (t : ITy) (f : Short) (s : State) := intOp (.iminS t f) t (iminF t) s
def execImaxS (t : ITy) (f : Short) (s : State) := intOp (.imaxS t f) t (imaxF t) s

end Sys2Proof.Machine
end

