-- ==== Sys2Proof/Machine/Cross.lean ====
section
/-!
DEFINITION. The rest of the ALU class: cross-lane instructions (R431, R435, R442, R415, R446), conversions and
quantisation (R381, R142 to R145, R427, R370), and moves (R417 to R420, R425, R71).
-/

namespace Sys2Proof.Machine

open Sys2Proof

/-! ## RED and SCAN -/

/-- An element of the group: its index (R54) and its code. -/
structure Elem where
  idx  : Nat
  code : Nat
  deriving DecidableEq, Repr

/-- The enabled elements of the threads that contribute elements, in ascending index (R431). -/
def groupElems (g : LaneMask) (w : Width) (x : Fin 32 → LaneIn) : List Elem :=
  (lanesOf g).flatMap fun l =>
    ((List.range w.count).filter fun j => (x l).mask.getLsbD j).map fun j =>
      { idx := l.val * w.count + j, code := sub w (x l).a j }

/-- A sum of float codes rounded once (R431). -/
def sumF (t : FTy) (m : Mode) (es : List Nat) : Rnd :=
  let f := Fmt.ofF t
  let vs := es.map f.decode
  let pos := vs.any fun v => v.isInf && !v.neg
  let neg := vs.any fun v => v.isInf && v.neg
  if vs.any Fp.isNan then f.nanRnd (vs.any Fp.isSnan)
  else if pos && neg then f.nanRnd true
  else if pos || neg then { bits := f.inf neg, flags := 0 }
  else
    let cancel := m = .dn && vs.any fun v => !v.isZero
    f.roundDy m (vs.foldl (fun (a : Dy) v => a.add v.dy) { m := 0, e := 0 }) (vs.all Fp.neg || cancel)

/-- FMIN or FMAX over codes (R128, R431); a lone NaN is the canonical one (R127). -/
def minmaxF (t : FTy) (max : Bool) (es : List Nat) : Rnd :=
  let f := Fmt.ofF t
  let nv := nvIf (es.any fun e => (f.decode e).isSnan)
  match es.filter fun e => !(f.decode e).isNan with
  | [] => { bits := f.nan, flags := nv }
  | e :: rest => { bits := rest.foldl (fun a b => (f.minmax max a b).bits) e, flags := nv }

/-- The value of an empty set of elements (R435). -/
def redIdentity (op : RedOp) (t : Ty) : Nat :=
  match t with
  | .flt t =>
    match op with
    | .min => (Fmt.ofF t).inf false
    | .max => (Fmt.ofF t).inf true
    | _ => 0
  | .int t =>
    let b := t.width.bits
    match op with
    | .min => if t.signed then 2 ^ (b - 1) - 1 else 2 ^ b - 1
    | .max => if t.signed then 2 ^ (b - 1) else 0
    | .and => 2 ^ b - 1
    | _ => 0
  | _ => 0

/-- The reduction of a list of elements (R431, R435). -/
def reduceElems (op : RedOp) (t : Ty) (m : Mode) (es : List Nat) : Rnd :=
  match es with
  | [] => { bits := redIdentity op t, flags := 0 }
  | e :: rest =>
    match t with
    | .flt t =>
      match op with
      | .min => minmaxF t false es
      | .max => minmaxF t true es
      | _ => sumF t m es
    | .int t =>
      let fold := fun (g : Nat → Nat → Nat) => ({ bits := rest.foldl g e, flags := 0 } : Rnd)
      match op with
      | .add => { bits := es.foldl (· + ·) 0 % 2 ^ t.width.bits, flags := 0 }
      | .min => fold fun a b => iminF t a b 0
      | .max => fold fun a b => imaxF t a b 0
      | .and => fold (· &&& ·)
      | .or => fold (· ||| ·)
      | .xor => fold (· ^^^ ·)
    | _ => { bits := 0, flags := 0 }

/-- Does the thread contribute (R431)? -/
def LaneIn.contributes (x : LaneIn) (w : Width) : Bool := (List.range w.count).any fun j => x.mask.getLsbD j

/-- The lanes of a group that consume poison (R194). -/
def poisonLanes (r : Run) (bad : Fin 32 → Bool) : LaneMask := maskWhere fun l => LaneMask.has r.group l && bad l

/-- Does a lane give a poisoned element to a value over the group (R194, R431)? -/
def State.givesPoison (s : State) (r : Run) (sh : Shape) (t : Ty) (l : Fin 32) : Bool :=
  LaneMask.has (s.givers r sh) l && (s.laneIn r sh [t] l).poisoned t.width

/-- The value of the elements of the lanes `g`, for a thread of the group that receives it. -/
def redOut (op : RedOp) (t : Ty) (m : Mode) (g : LaneMask) (x : Fin 32 → LaneIn) (l : Fin 32) : LaneOut :=
  let w := t.width
  let v := reduceElems op t m ((groupElems g w x).map fun e => e.code)
  { val := ofSubs w fun _ => v.bits, poison := 0, flags := if (x l).contributes w then v.flags else 0 }

def redBody (op : RedOp) (t : Ty) (m : Mode) (s : State) (r : Run) (sh : Shape) : Body :=
  let x := s.laneIn r sh [t]
  let bad := poisonLanes r (s.givesPoison r sh t)
  if bad ≠ 0 then .fault s (poisonExc bad)
  else finishLanes s r sh t.width false (fun l => (x l).mask) (redOut op t m (s.givers r sh) x)

def execRed (op : RedOp) (t : Ty) (f : Alu) (s : State) : Host.Outcome State Fault Refusal :=
  execute s (.red op t f) [t] (redBody op t (Mode.ofRm f.rm))

/-- The prefix that an element receives (R435). -/
def scanAt (op : RedOp) (excl : Bool) (t : Ty) (m : Mode) (es : List Elem) (i : Nat) : Rnd :=
  reduceElems op t m ((es.filter fun e => e.idx < i || (!excl && e.idx = i)).map fun e => e.code)

def scanBody (op : RedOp) (excl : Bool) (t : Ty) (m : Mode) (s : State) (r : Run) (sh : Shape) : Body :=
  let x := s.laneIn r sh [t]
  let w := t.width
  let bad := poisonLanes r (s.givesPoison r sh t)
  if bad ≠ 0 then .fault s (poisonExc bad)
  else
    let es := groupElems (s.givers r sh) w x
    let one := fun (l : Fin 32) j => scanAt op excl t m es (l.val * w.count + j)
    finishLanes s r sh w false (fun l => (x l).mask) fun l =>
      { val := ofSubs w fun j => if (x l).mask.getLsbD j then (one l j).bits else 0, poison := 0,
        flags := (List.range w.count).foldl
          (fun a j => if (x l).mask.getLsbD j then a ||| (one l j).flags else a) 0 }

def execScan (op : RedOp) (excl : Bool) (t : Ty) (f : Alu) (s : State) : Host.Outcome State Fault Refusal :=
  execute s (.scan op excl t f) [t] (scanBody op excl t (Mode.ofRm f.rm))

/-! ## VOTE, MATCH, WSYNC -/

/-- A per-lane value that is not of sub-elements: lanes of `m` take part, the others are as disabled (R59). -/
def finishWhole (s : State) (r : Run) (sh : Shape) (m : LaneMask) (v : Fin 32 → Word) : Body :=
  finishLanes s r sh .b64 false (fun l => if LaneMask.has m l then 1 else 0) fun l => plain (v l)

/-- Lanes whose condition contributes, and those of them whose condition is true (R442). -/
def voteWord (fn : VoteFn) (con yes : LaneMask) : Word :=
  match fn with
  | .all => if con = yes then 1 else 0
  | .any => if yes ≠ 0 then 1 else 0
  | .ballot => con ++ yes
  | .uniform => if yes = 0 || con = yes then 1 else 0

def voteBody (fn : VoteFn) (s : State) (r : Run) (sh : Shape) : Body :=
  let x := s.laneIn r sh [tyW64]
  let part := maskWhere fun l => LaneMask.has r.group l && (x l).mask.getLsbD 0
  let con := part &&& s.givers r sh
  let yes := maskWhere fun l => LaneMask.has con l && low32 (x l).a ≠ 0
  let bad := maskWhere fun l => LaneMask.has con l && ((x l).ops.getD 0 Val.zero).poisoned .b32 1
  if bad ≠ 0 then .fault s (poisonExc bad) else finishWhole s r sh part fun _ => voteWord fn con yes

def execVote (fn : VoteFn) (f : Alu) (s : State) : Host.Outcome State Fault Refusal :=
  execute s (.vote fn f) [tyW64] (voteBody fn)

def matchBody (t : Ty) (s : State) (r : Run) (sh : Shape) : Body :=
  let x := s.laneIn r sh [t]
  let w := t.width
  let bad := poisonLanes r fun l => (x l).poisoned w
  if bad ≠ 0 then .fault s (poisonExc bad)
  else
    let key := fun l => merge w (x l).mask (x l).a 0
    let con := maskWhere fun l => LaneMask.has r.group l && (x l).contributes w
    finishWhole s r sh con fun l =>
      let m := maskWhere fun k => LaneMask.has con k && key k = key l
      w32 (lowestLane m).val ++ m

def execMatch (t : Ty) (f : Alu) (s : State) : Host.Outcome State Fault Refusal :=
  execute s (.matchI t f) [t] (matchBody t)

/-- The mask each lane names for itself, its own lane added (R39). -/
def wsyncMask (s : State) (r : Run) (sh : Shape) (l : Fin 32) : LaneMask :=
  w32 (low32 (s.laneIn r sh [tyW64] l).a) ||| laneBit l

/-- Everything before the WSYNC commits, and its threads wait there; the release is a step of its own (R40, R446).
DEDUCED, unsafe (log 41). -/
def wsyncBody (s : State) (r : Run) (sh : Shape) : Body :=
  let bad := poisonLanes r fun l => ((s.laneIn r sh [tyW64] l).ops.getD 0 Val.zero).poisoned .b32 1
  if bad ≠ 0 then .fault s (poisonExc bad)
  else
    .done s r (.own fun u _ =>
      (lanesOf r.group).foldl
        (fun u l => u.waitAt r.wave (laneBit l) r.pc (r.next sh) (.wsync (wsyncMask s r sh l))) u)

def execWsync (f : Alu) (s : State) : Host.Outcome State Fault Refusal := execute s (.wsync f) [tyW64] wsyncBody

/-! ## CVT -/

/-- A source code converted (R128, R139 to R141, R381). -/
def cvtCode (dst src : Ty) (m : Mode) (v : Nat) : Rnd :=
  let narrow := fun (f : Fmt) (x : Fp) => f.convert m x
  let toTy := fun (x : Fp) =>
    match dst with
    | .int t => toInt t.width.bits t.signed m x
    | .flt t => (Fmt.ofF t).convert m x
    | .e5m2 => narrow .e5m2 x
    | .e4m3 => narrow .e4m3 x
    | .e2m1 => narrow .e2m1 x
  match src, dst with
  | .int t, .int u => { bits := wrap u.width.bits (ival t v), flags := 0 }
  | .int t, _ => toTy (.fin (ival t v < 0) (ival t v).natAbs 0)
  | .flt t, _ => toTy ((Fmt.ofF t).decode v)
  | .e5m2, _ => toTy (Fmt.e5m2.decode v)
  | .e4m3, _ => toTy (Fmt.e4m3.decode v)
  | .e2m1, _ => toTy (Fmt.e2m1.decode v)

/-- Converted elements of one dword, and where the result puts them: n elements of the wider side, group p of the
narrower one (R381). -/
def cvtLane (dst src : Ty) (p : Nat) (m : Mode) (mask : BitVec 8) (a : Word) : Nat → Rnd := fun e =>
  let n := 64 / max dst.bits src.bits
  let off := if src.bits < dst.bits then n * p else 0
  if mask.getLsbD e then cvtCode dst src m (subN src.bits a (off + e)) else { bits := 0, flags := 0 }

/-- The destination dword over what it held: a disabled element keeps its bits, bits outside the group are 0. -/
def cvtPut (dst src : Ty) (p : Nat) (m : Mode) (mask : BitVec 8) (a : Word) (old : Val) : Val :=
  let n := 64 / max dst.bits src.bits
  let off := if dst.bits < src.bits then n * p else 0
  let code := fun k =>
    if off ≤ k && k < off + n then
      (if mask.getLsbD (k - off) then (cvtLane dst src p m mask a (k - off)).bits else subN dst.bits old.bits k)
    else 0
  -- a byte stays poisoned while a kept element of it is
  let kept := fun (i : Nat) => (List.range n).any fun e =>
    !mask.getLsbD e && (off + e) * dst.bits < 8 * i + 8 && 8 * i < (off + e + 1) * dst.bits
  { bits := w64 (packN dst.bits ((List.range (64 / dst.bits)).map code)),
    poison := BitVec.ofNat 8 (packN 1 ((List.range 8).map fun i => if old.poison.getLsbD i && kept i then 1 else 0)) }

/-- Does an enabled source element of a CVT hold a poisoned byte? -/
def cvtPoisoned (dst src : Ty) (p : Nat) (mask : BitVec 8) (v : Val) : Bool :=
  let n := 64 / max dst.bits src.bits
  let off := if src.bits < dst.bits then n * p else 0
  (List.range n).any fun e => mask.getLsbD e &&
    (List.range 8).any fun i =>
      v.poison.getLsbD i && (off + e) * src.bits < 8 * i + 8 && 8 * i < (off + e + 1) * src.bits

def cvtBody (dst src : Ty) (p : Nat) (m : Mode) (s : State) (r : Run) (sh : Shape) : Body :=
  let x := s.laneIn r sh [src]
  let bad := poisonLanes r fun l => cvtPoisoned dst src p (x l).mask ((x l).ops.getD 0 Val.zero)
  if bad ≠ 0 then .fault s (poisonExc bad)
  else
    let n := 64 / max dst.bits src.bits
    finishPut s r false
      (fun l => (List.range n).foldl (fun a e => a ||| (cvtLane dst src p m (x l).mask (x l).a e).flags) 0)
      fun l regs => regs.putOver sh.dst (cvtPut dst src p m (x l).mask (x l).a)

def execCvt (dst src : Ty) (p : Fin 4) (f : Alu) (s : State) : Host.Outcome State Fault Refusal :=
  execute s (.cvt dst src p f) [src] (cvtBody dst src p.val (Mode.ofRm f.rm))

/-! ## AMAX and quantisation -/

/-- The running maximum of magnitudes; a NaN is the canonical one (R142, R356). -/
def amaxF (t : FTy) (a b _c : Nat) : Nat :=
  let f := Fmt.ofF t
  if (f.decode a).isNan || (f.decode b).isNan then f.nan else (f.minmax true (a % 2 ^ (f.eb + f.mb)) b).bits

def execAmax (t : FTy) (f : Alu) (s : State) : Host.Outcome State Fault Refusal :=
  aluOp (.amax t f) (.flt t) (perSub t.width (amaxF t)) s

/-- The format slot that an instruction of a run uses. -/
def State.slotOf (s : State) (r : Run) (k : Fin 8) : W32 := (s.jobOf r.wave).card.slots[k]

/-- The types of the statistics, values and scales of a slot (R427). -/
def scaleTy (w : W32) : Ty := if slotScale w ≤ 1 then tyF32 else tyW32

/-- The constants of R143: largest value and emax of the slot's element format. -/
def slotLargest (w : W32) : Nat := match slotFmt w with | 0 => 480 | 1 => 114688 | 2 => 6 | _ => 127
def slotEmax (w : W32) : Int := match slotFmt w with | 0 => 8 | 1 => 16 | 2 => 2 | _ => 6

/-- The scale of one statistic (R143), with its flags: none of a block e8m0 scale is NX, and UF is that of R129 for the
other two. DESIGN CHOICE, unsafe (log 77). -/
def qscaleOne (w : W32) (m : Nat) : Rnd :=
  let one : Nat := 0x3F800000
  let v := Fmt.f32.decode m
  let ok := fun b => ({ bits := b, flags := 0 } : Rnd)
  match slotScale w with
  | 0 => ok one
  | 1 =>
    match v with
    | .nan _ => { bits := Fmt.f32.nan, flags := Flags.nv }
    | .inf neg => if neg then { bits := Fmt.f32.nan, flags := Flags.nv } else { bits := Fmt.f32.inf false, flags := Flags.of }
    | .fin neg k e =>
      if k = 0 then ok one
      else if neg then { bits := Fmt.f32.nan, flags := Flags.nv }
      else Fmt.f32.round .up false k (slotLargest w) e
  | 2 =>
    match v with
    | .nan _ => ok 0xFF
    | .inf neg => if neg then { bits := 0xFF, flags := Flags.nv } else { bits := 254, flags := Flags.of }
    | .fin neg k e =>
      if k = 0 then ok 127
      else if neg then { bits := 0xFF, flags := Flags.nv }
      else
        let c := log2Div k 1 + e - slotEmax w + 127
        if c > 254 then { bits := 254, flags := Flags.of }
        else if c < 0 then { bits := 0, flags := Flags.uf }
        else ok c.toNat
  | _ =>
    match v with
    | .nan _ => { bits := 0, flags := Flags.nv }
    | .inf neg => if neg then { bits := 0, flags := Flags.nv } else { bits := 0x7F, flags := Flags.of }
    | .fin neg k e =>
      if k = 0 then ok 0x38
      else if neg then { bits := 0, flags := Flags.nv }
      else Fmt.e4m3.round .up false k (slotLargest w) e

/-- The value of a scale in QSCALE's layout (R143 to R145). -/
def scaleValue (w : W32) (b : Nat) : Fp :=
  match slotScale w with
  | 0 => .fin false 1 0
  | 1 => Fmt.f32.decode b
  | 2 => if b % 256 = 0xFF then .nan false else .fin false 1 ((b % 256 : Nat) - 127)
  | _ => Fmt.e4m3.decode (b % 256)

/-- Bits of one code of a slot (R144). -/
def codeBits (w : W32) : Nat := if slotFmt w = 2 then 4 else 8

/-- One code (R144). -/
def qpackOne (w : W32) (m : Mode) (x b : Nat) : Rnd :=
  let v := Fmt.f32.decode x
  let sc := scaleValue w b
  if v.isNan || sc.isNan then { bits := 0, flags := nvIf !(slotScale w = 2 && sc.isNan) }
  else if sc.isZero then { bits := 0, flags := Flags.nv }
  else divide v sc (fun neg n d e => slotRoundQ w m neg n d e) (slotConvert w m)

/-- One value back (R145, R427). -/
def qunpackOne (w : W32) (code b : Nat) : Rnd :=
  let sc := scaleValue w b
  if sc.isNan then Fmt.f32.nanRnd sc.isSnan else Fmt.f32.mul (slotRound w) (slotValue w code) sc

/-- The shared form of the three: two positions of 32 bits. -/
def quantBody (tys : List Ty) (trap : Bool) (put : LaneIn → Regs → Regs)
    (flags : LaneIn → Nat → Flags) (s : State) (r : Run) (sh : Shape) : Body :=
  let x := s.laneIn r sh tys
  let bad := poisonLanes r fun l => (x l).poisoned .b32
  if bad ≠ 0 then .fault s (poisonExc bad)
  else
    finishPut s r trap
      (fun l => (List.range 2).foldl (fun a j => if (x l).mask.getLsbD j then a ||| flags (x l) j else a) 0)
      fun l regs => put (x l) regs

def qscaleBody (fs : Fin 8) (s : State) (r : Run) (sh : Shape) : Body :=
  let w := s.slotOf r fs
  let one := fun (x : LaneIn) j => qscaleOne w (sub .b32 x.a j)
  quantBody [tyF32] (slotTrap w)
    (fun x regs => regs.put sh.dst .b32 x.mask ⟨ofSubs .b32 fun j => (one x j).bits, 0⟩)
    (fun x j => (one x j).flags) s r sh

def execQscale (fs : Fin 8) (f : Alu) (s : State) : Host.Outcome State Fault Refusal :=
  execute s (.qscale fs f) [tyF32] (qscaleBody fs)

/-- The dword that QPACK writes over an old one (R427). -/
def qpackPut (b : Nat) (mask : BitVec 8) (code : Nat → Nat) (old : Val) : Val :=
  let field := fun j => if mask.getLsbD j then code j else subN b old.bits j
  { bits := w64 (packN b [field 0, field 1]), poison :=
      -- a kept code keeps the poison of its byte
      BitVec.ofNat 8 (packN 1 ((List.range 8).map fun i =>
        if old.poison.getLsbD i && (List.range 2).any (fun j => !mask.getLsbD j && j * b / 8 = i) then 1 else 0)) }

def qpackBody (fs : Fin 8) (s : State) (r : Run) (sh : Shape) : Body :=
  let w := s.slotOf r fs
  let one := fun (x : LaneIn) j => qpackOne w (slotMode w x.wid j) (sub .b32 x.a j) (sub .b32 x.b j)
  quantBody [tyF32, scaleTy w] (slotTrap w)
    (fun x regs => regs.putOver sh.dst (qpackPut (codeBits w) x.mask fun j => (one x j).bits))
    (fun x j => (one x j).flags) s r sh

/-- The type in which a lit or one of B is read (R449). -/
def slotTys (s : State) (fs : Fin 8) (a : Ty) : List Ty :=
  match s.runs.head? with
  | some r => [a, scaleTy (s.slotOf r fs)]
  | none => [a, tyF32]

def execQpack (fs : Fin 8) (f : Alu) (s : State) : Host.Outcome State Fault Refusal :=
  execute s (.qpack fs f) (slotTys s fs tyF32) (qpackBody fs)

/-- Poison of the two codes that QUNPACK reads lies in the low bytes of A, and of its scales in B (R194, R427). -/
def qunpackPoisoned (b : Nat) (x : LaneIn) : Bool :=
  (List.range 2).any fun j => x.mask.getLsbD j &&
    (((x.ops.getD 0 Val.zero).poison.getLsbD (j * b / 8))
      || (x.ops.getD 1 Val.zero).poisoned .b32 (BitVec.ofNat 8 (2 ^ j)))

def qunpackBody (fs : Fin 8) (s : State) (r : Run) (sh : Shape) : Body :=
  let w := s.slotOf r fs
  let x := s.laneIn r sh [tyW32, scaleTy w]
  let one := fun (x : LaneIn) j => qunpackOne w (subN (codeBits w) x.a j) (sub .b32 x.b j)
  let bad := poisonLanes r fun l => qunpackPoisoned (codeBits w) (x l)
  if bad ≠ 0 then .fault s (poisonExc bad)
  else
    finishPut s r (slotTrap w)
      (fun l => (List.range 2).foldl (fun a j => if (x l).mask.getLsbD j then a ||| (one (x l) j).flags else a) 0)
      fun l regs => regs.put sh.dst .b32 (x l).mask ⟨ofSubs .b32 fun j => (one (x l) j).bits, 0⟩

def execQunpack (fs : Fin 8) (f : Alu) (s : State) : Host.Outcome State Fault Refusal :=
  execute s (.qunpack fs f) (slotTys s fs tyW32) (qunpackBody fs)

/-! ## Bit planes (R133, R134, R370) -/

/-- Element e clamped to k bits. -/
def planeValue (k : Nat) (a : Word) (e : Nat) : Int :=
  let v := signed 8 (sub .b8 a e)
  let lo : Int := -(2 ^ (k - 1) : Nat)
  let hi : Int := (2 ^ (k - 1) : Nat) - 1
  if v < lo then lo else if v > hi then hi else v

/-- The plane bytes of the enabled elements. -/
def bpsplitWord (k : Nat) (mask : BitVec 8) (a : Word) : Word :=
  ofSubs .b8 fun j =>
    if j < k then
      packN 1 ((List.range 8).map fun e =>
        if mask.getLsbD e then wrap k (planeValue k a e) / 2 ^ (k - 1 - j) % 2 else 0)
    else 0

def bpsplitBody (fs : Fin 8) (s : State) (r : Run) (sh : Shape) : Body :=
  let w := s.slotOf r fs
  let k := slotBits w
  let x := s.laneIn r sh [.int ⟨true, .b8⟩]
  let bad := poisonLanes r fun l => (x l).poisoned .b8
  let clamps := fun (x : LaneIn) =>
    (List.range 8).any fun e => x.mask.getLsbD e && planeValue k x.a e ≠ signed 8 (sub .b8 x.a e)
  if bad ≠ 0 then .fault s (poisonExc bad)
  else
    finishPut s r (slotTrap w) (fun l => if clamps (x l) then Flags.of else 0)
      fun l regs => regs.putOver sh.dst fun _ => ⟨bpsplitWord k (x l).mask (x l).a, 0⟩

def execBpsplit (fs : Fin 8) (f : Alu) (s : State) : Host.Outcome State Fault Refusal :=
  execute s (.bpsplit fs f) [.int ⟨true, .b8⟩] (bpsplitBody fs)

/-- The value of element e from the p leading planes of k (R134, R370). -/
def bpjoinOne (k p : Nat) (centre : Bool) (a : Word) (e : Nat) : Int :=
  let u := (List.range p).foldl (fun u j => 2 * u + a.toNat / 2 ^ (8 * j + e) % 2) 0
  signed p u * (2 ^ (k - p) : Nat) + (if centre && p < k then (2 ^ (k - p - 1) : Nat) else 0)

def bpjoinBody (fs : Fin 8) (s : State) (r : Run) (sh : Shape) : Body :=
  let w := s.slotOf r fs
  let k := slotBits w
  let p := slotPlanes w
  let x := s.laneIn r sh [tyW64]
  -- every element reads one bit of each plane byte below p
  let bad := poisonLanes r fun l => (x l).contributes .b8 &&
    (List.range p).any fun j => ((x l).ops.getD 0 Val.zero).poison.getLsbD j
  if bad ≠ 0 then .fault s (poisonExc bad)
  else
    finishLanes s r sh .b8 false (fun l => (x l).mask) fun l =>
      plain (ofSubs .b8 fun e => wrap 8 (bpjoinOne k p (slotCentre w) (x l).a e))

def execBpjoin (fs : Fin 8) (f : Alu) (s : State) : Host.Outcome State Fault Refusal :=
  execute s (.bpjoin fs f) [tyW64] (bpjoinBody fs)

/-! ## PERM and moves -/

/-- Which sub-element nibble j selects, if one (R425). -/
def permSel (w : Width) (b : Word) (j : Nat) : Option Nat :=
  let n := subN 4 b j
  if n ≥ 8 || n % 8 ≥ w.count then none else some (n % 8)

def permPoisoned (w : Width) (x : LaneIn) : Bool :=
  let a := x.ops.getD 0 Val.zero
  let b := x.ops.getD 1 Val.zero
  (List.range w.count).any fun j => x.mask.getLsbD j &&
    (b.poison.getLsbD (j / 2) ||
      match permSel w x.b j with
      | some n => a.poisoned w (BitVec.ofNat 8 (2 ^ n))
      | none => false)

def permBody (t : Ty) (s : State) (r : Run) (sh : Shape) : Body :=
  let x := s.laneIn r sh [t, tyW64]
  let w := t.width
  let bad := poisonLanes r fun l => permPoisoned w (x l)
  if bad ≠ 0 then .fault s (poisonExc bad)
  else
    finishLanes s r sh w false (fun l => (x l).mask) fun l =>
      plain (ofSubs w fun j => match permSel w (x l).b j with | some n => sub w (x l).a n | none => 0)

def execPerm (t : Ty) (f : Alu) (s : State) : Host.Outcome State Fault Refusal :=
  execute s (.perm t f) [t, tyW64] (permBody t)

/-- A copy of bits, with their poison (R127, R194, R417). -/
def movLane (x : LaneIn) : LaneOut := { val := x.a, poison := (x.ops.getD 0 Val.zero).poison, flags := 0 }

def execMov (t : Ty) (f : Alu) (s : State) : Host.Outcome State Fault Refusal :=
  execute s (.mov t f) [t] (aluBody [t] t.width t.width true false movLane)

def execMovS (f : Short) (s : State) : Host.Outcome State Fault Refusal :=
  execute s (.movS f) [tyW64] (aluBody [tyW64] .b64 .b64 true false movLane)

/-- The mask that MOVM writes over an old one (R418). -/
def movmMask (w : Width) (pm old : BitVec 8) (a : Word) : BitVec 8 :=
  BitVec.ofNat 8 (packN 1 ((List.range 8).map fun j =>
    if j < w.count then
      (if (if pm.getLsbD j then decide (sub w a j ≠ 0) else old.getLsbD j) then 1 else 0)
    else 0))

def Regs.setM (r : Regs) (k : Fin 8) (v : BitVec 8) : Regs := if k = 0 then r else { r with m := r.m.set k v }

def movmBody (k : Fin 8) (toReg : Bool) (w : Width) (s : State) (r : Run) (sh : Shape) : Body :=
  let t : Ty := .int ⟨false, w⟩
  let x := s.laneIn r sh [t]
  let bad := poisonLanes r fun l => (x l).poisoned w
  if bad ≠ 0 then .fault s (poisonExc bad)
  else if toReg then
    finishLanes s r sh w false (fun l => (x l).mask) fun l =>
      plain (ofSubs w fun j => if (r.spec[l].mask k).getLsbD j then 2 ^ w.bits - 1 else 0)
  else finishPut s r false (fun _ => 0) fun l regs => regs.setM k (movmMask w (x l).mask (regs.mask k) (x l).a)

def execMovm (k : Fin 8) (toReg : Bool) (w : Width) (f : Alu) (s : State) : Host.Outcome State Fault Refusal :=
  execute s (.movm k toReg w f) [.int ⟨false, w⟩] (movmBody k toReg w)

/-- Field k of a work identifier (R27). -/
def widField (widths : Vector Nat 6) (wid : Word) (k : Nat) : Word :=
  let lo := (widths.toList.take k).foldl (· + ·) 0
  w64 (wid.toNat / 2 ^ lo % 2 ^ (widths.toList.getD k 0))

/-- The value of a special register in a lane (R71). -/
def State.special (s : State) (r : Run) (l : Fin 32) (code : Nat) : Word :=
  let t := s.team r.wave.team
  let j := s.jobOf r.wave
  let th := s.thread r.wave l
  match code with
  | 0 => w64 l.val
  | 1 => w64 r.wave.wave
  | 2 => w64 t.id.team
  | 3 => w64 t.cohort
  | 4 => w64 t.core
  | 5 => w64 ((s.part j.part).clusters.idxOf t.cluster)
  | 6 => th.wid
  | 13 => j.card.recSize.zeroExtend 64
  | 14 => j.card.nrec.zeroExtend 64
  | 15 => j.card.args
  | 16 => s.clock
  | 17 => th.cause.zeroExtend 64
  | 18 => th.epc
  | 19 => w64 j.vf
  | 20 => w64 j.part
  | k => widField j.card.widths th.wid (k - 7)

def movsBody (code : Fin 64) (s : State) (r : Run) (sh : Shape) : Body :=
  finishLanes s r sh .b64 false (fun l => r.spec[l].mask sh.pm) fun l => plain (s.special r l code.val)

def execMovs (code : Fin 64) (f : Alu) (s : State) : Host.Outcome State Fault Refusal :=
  execute s (.movs code f) [] (movsBody code)

end Sys2Proof.Machine
end

