-- ==== Sys2Proof/Machine/Hash.lean ====
section
/-!
DEFINITION. SHAKE256 with 256 bits of output, for the measurement log (R337). The function is that of FIPS 202, which
the spec names and does not print (log 60).
-/

namespace Sys2Proof.Machine

open Sys2Proof

/-- The 25 lanes of the state, lane x + 5y. -/
abbrev Keccak := Vector Word 25

def lane (a : Keccak) (x y : Nat) : Word := a[(x % 5 + 5 * (y % 5)) % 25]'(Nat.mod_lt _ (by decide))

def rotl (x : Word) (n : Nat) : Word := x.rotateLeft n

/-- Rotations of ρ, lane x + 5y. -/
def rhoOffsets : List Nat :=
  [0, 1, 62, 28, 27, 36, 44, 6, 55, 20, 3, 10, 43, 25, 39, 41, 45, 15, 21, 8, 18, 2, 61, 56, 14]

/-- Round constants of ι. -/
def iotaWords : List Word :=
  [0x0000000000000001, 0x0000000000008082, 0x800000000000808A, 0x8000000080008000, 0x000000000000808B,
   0x0000000080000001, 0x8000000080008081, 0x8000000000008009, 0x000000000000008A, 0x0000000000000088,
   0x0000000080008009, 0x000000008000000A] ++
  [0x000000008000808B, 0x800000000000008B, 0x8000000000008089, 0x8000000000008003, 0x8000000000008002,
   0x8000000000000080, 0x000000000000800A, 0x800000008000000A, 0x8000000080008081, 0x8000000000008080,
   0x0000000080000001, 0x8000000080008008]

def theta (a : Keccak) : Keccak :=
  let c := fun (x : Nat) => lane a x 0 ^^^ lane a x 1 ^^^ lane a x 2 ^^^ lane a x 3 ^^^ lane a x 4
  Vector.ofFn fun i : Fin 25 => a[i] ^^^ c (i.val + 4) ^^^ rotl (c (i.val + 1)) 1

/-- ρ and π: lane (x, y) goes, rotated, to (y, 2x + 3y). -/
def rhoPi (a : Keccak) : Keccak :=
  Vector.ofFn fun i : Fin 25 =>
    let x' := i.val % 5
    let y' := i.val / 5
    let x := (x' + 3 * y') % 5
    rotl (lane a x x') (rhoOffsets.getD (x + 5 * x') 0)

def chi (a : Keccak) : Keccak :=
  Vector.ofFn fun i : Fin 25 => a[i] ^^^ (~~~(lane a (i.val + 1) (i.val / 5)) &&& lane a (i.val + 2) (i.val / 5))

/-- PRESUMED, unsafe (log 60). -/
def keccakF (a : Keccak) : Keccak :=
  iotaWords.foldl (fun a k => let b := chi (rhoPi (theta a)); b.set 0 (b[0] ^^^ k)) a

/-- Bytes of a block of the rate, 136 bytes, into the state. -/
def absorb (a : Keccak) (block : List Byte) : Keccak :=
  Vector.ofFn fun i : Fin 25 => a[i] ^^^ w64 (natLE ((block.drop (8 * i.val)).take 8))

def absorbAll (a : Keccak) : Nat → List Byte → Keccak
  | 0, _ => a
  | n + 1, bs => absorbAll (keccakF (absorb a (bs.take 136))) n (bs.drop 136)

/-- The message with its padding 0x1F .. 0x80. PRESUMED, unsafe (log 60). -/
def shakePad (m : List Byte) : List Byte :=
  let z := 135 - m.length % 136
  m ++ (if z = 0 then [0x9F] else [0x1F] ++ List.replicate (z - 1) 0 ++ [0x80])

/-- The first 256 bits of output, byte 0 least significant. PRESUMED, unsafe (log 60). -/
def shake256 (m : List Byte) : BitVec 256 :=
  let p := shakePad m
  let a := absorbAll (Vector.replicate 25 0) (p.length / 136) p
  BitVec.ofNat 256 (a[0].toNat + a[1].toNat * 2 ^ 64 + a[2].toNat * 2 ^ 128 + a[3].toNat * 2 ^ 192)

/-- PRESUMED, unsafe (log 60). -/
def digestBytes (d : BitVec 256) : List Byte := bytesLE 32 d.toNat

/-- D ← SHAKE256(D ∥ entry). PRESUMED, unsafe (log 60). -/
def extendDigest (d entry : BitVec 256) : BitVec 256 := shake256 (digestBytes d ++ digestBytes entry)

end Sys2Proof.Machine
end

