-- ==== Sys2Proof/Machine/Grammar.lean ====
section
/-!
DEFINITION. The rule engine (R253 to R265, R398): grammar descriptors, the two phases, compressed-row mode, GMV and GMM.
A command is evaluated in one step, at its completion or at a fault that suspends it, and goes on from there.
-/

namespace Sys2Proof.Machine

open Sys2Proof

/-! ## Descriptors (R254, R255) -/

structure GDesc where
  row0   : Nat
  dscale : Nat
  vslot  : W32
  ncols  : Nat
  nrows  : Nat
  nrules : Nat
  csr    : Bool
  rowtab : Nat
  rptr   : Nat
  syms   : Nat
  deriving DecidableEq, Repr

/-- DEDUCED, unsafe (log 45). -/
def GDesc.decode (d : Nat) : GDesc :=
  { row0 := fld d 479 448, dscale := fld d 447 416, vslot := w32 (fld d 415 384), ncols := fld d 383 352,
    nrows := fld d 351 320, nrules := fld d 319 288, csr := fld d 256 256 = 1, rowtab := fld d 255 192,
    rptr := fld d 191 128, syms := fld d 127 64 }

/-- DEDUCED, unsafe (log 45). -/
def GDesc.ok (d : GDesc) : Bool :=
  slotFmt d.vslot ≤ 3 && slotScale d.vslot = 0 && slotPlanes d.vslot = 1 && !slotCentre d.vslot && slotLblk d.vslot = 0
    && !slotStoch d.vslot && !slotTrap d.vslot
    && 1 ≤ d.ncols && d.ncols ≤ 2 ^ 23 && 1 ≤ d.nrows && d.nrows ≤ 2 ^ 24
    && (!d.csr || (d.nrules = 0 && d.rowtab = 0)) && d.rowtab % 4 = 0 && d.rptr % 4 = 0 && d.syms % 4 = 0

/-- Bytes of one output element. -/
def gramOutBytes (slot : W32) : Nat := slotWidth slot / 8

/-! ## GMV and GMM before commit (R256, R257, R264) -/

def Cmd.gram (c : Cmd) : Bool := match c.kind with | .grammar .. => true | _ => false

/-- Commands of a class in the rule engine that serves a cluster. -/
def State.gramQueue (s : State) (part cluster cls : Nat) : List Cmd :=
  s.cmds.filter fun c =>
    c.gram && c.cls = cls && c.partNo = part && s.ruleEngine part c.cluster = s.ruleEngine part cluster

def State.gramExcs (s : State) (r : Run) (sh : Shape) (e : Nat) (regs : List Nat) (l : Fin 32) : List (Fin 32 × Exc) :=
  let d := (s.engArg r sh 0 l).bits.toNat
  let x := (s.engArg r sh 1 l).bits.toNat
  let n := fun i => (r.spec[l].getN (regs.getD i 0)).bits
  let strides := if regs.length = 2 then n 1 else 0
  needs (d % 64 = 0) l (alignExc l d) ++ needs (x % 4 = 0) l (alignExc l x)
    ++ needs (low32 strides % 4 = 0) l (alignExc l (low32 strides))
    ++ needs ((n 0).toNat % e = 0) l (alignExc l (n 0).toNat)
    ++ needs (high32 strides % e = 0) l (alignExc l (high32 strides))
    ++ s.rangeExcs r l d 64 .read

def gramBody (k : Nat) (fs : Fin 8) (f : Eng) (s : State) (r : Run) (sh : Shape) : Body :=
  let act := s.actors r sh
  let n := (f.n.map Fin.val).getD 0
  let regs := if sh.reads.length = 2 then [n, n + 1] else [n]
  let card := (s.jobOf r.wave).card
  let e := gramOutBytes card.slots[fs]
  let t := s.team r.wave.team
  let arg := s.engArg r sh
  if act = 0 then .done s r (.own fun s r' => s.goOnRun r')
  else
    match firstExc ((lanesOf act).flatMap (s.gramExcs r sh e regs) ++ s.engPoison r sh act regs) with
    | some e => .fault s e
    | none =>
      if (s.gramQueue (s.jobOf r.wave).part t.cluster card.cls).length + (lanesOf act).length > 64 then .wait s
      else
        .done s r (.own fun s r' =>
          let (seq, s) := s.takeSeq r'.wave
          let s := match s.ruleEngine (s.jobOf r'.wave).part t.cluster with
            | some e => s.tally (s.jobOf r'.wave).vf (261 + e) 1 (lanesOf act).length
            | none => s
          let s := (lanesOf act).foldl
            (fun s l =>
              let strides := if regs.length = 2 then (r.spec[l].getN (n + 1)).bits else 0
              s.newCmd r'.wave (laneBit l) (some (f.t.reg.headD 0)) seq r.pc
                (.grammar k fs.val (arg 0 l).bits (arg 1 l).bits (r.spec[l].getN n).bits
                  (low32 strides) (high32 strides) (r.spec[l].gstat.getLsbD 8))) s
          s.goOnRun r')

def execGmv (fs : Fin 8) (f : Eng) (s : State) : Host.Outcome State Fault Refusal :=
  execute s (.gmv fs f) engTys (gramBody 1 fs f)

def execGmm (v : Fin 4) (fs : Fin 8) (f : Eng) (s : State) : Host.Outcome State Fault Refusal :=
  execute s (.gmm v fs f) engTys (gramBody (v.val + 1) fs f)

/-! ## Evaluation (R258 to R262) -/

/-- Why an evaluation stops: a fault that suspends, another device, or a code with SUB and ADDR of its record, and
GROWPTR. -/
inductive GStop where
  | fault (e : XErr)
  | later
  | code (code sub addr : Nat) (growPtr : Bool)

/-- The same where a reversed pointer was met before (R262). -/
def GStop.after (gp : Bool) : GStop → GStop
  | .code c i a g => .code c i a (g || gp)
  | e => e

/-- What a command works with. -/
structure GCtx where
  c       : Xctx
  d       : GDesc
  desc    : Nat
  k       : Nat
  b       : Nat
  istride : Nat
  trapen  : Bool
  vf      : Nat
  unit    : Nat                    -- its rule engine's counter bank (R329)

/-- Symbols of a run that has been evaluated are counted. -/
def State.tallySyms (s : State) (g : GCtx) (ws : List GVal) : State := s.tally g.vf g.unit 4 ws.length

/-- The word at an address. Where an evaluation stops, the walks before it stand (R170): it answers the state after them. -/
def State.gword (s : State) (c : Xctx) (va : Nat) : Except (GStop × State) (GVal × State) :=
  match s.fetch c (va % 2 ^ 64) 4 with
  | .got bs s => .ok ({ code := natLE (bs.map fun b => b.1), bad := bs.any fun b => b.2 }, s)
  | .stop e => .error (.fault e, s)
  | .later => .error (.later, s)

/-- Words at rising addresses. -/
def State.gwords (s : State) (c : Xctx) : Nat → Nat → Except (GStop × State) (List GVal × State)
  | 0, _ => .ok ([], s)
  | n + 1, va => do
    let (w, s) ← s.gword c va
    let (ws, s) ← s.gwords c n (va + 4)
    pure (w :: ws, s)

def symRef (w : Nat) : Bool := fld w 31 31 = 1
def symRule (w : Nat) : Nat := fld w 23 0
def symCol (w : Nat) : Nat := fld w 30 8
def symCode (w : Nat) : Nat := fld w 7 0

/-- The code of a symbol that may not stand in rule i: a symbol error of R255, or GFWD (R259). -/
def symError (d : GDesc) (i w : Nat) : Option Nat :=
  if symRef w then
    if fld w 30 24 ≠ 0 then some Code.illegal else if symRule w ≥ i then some Code.gfwd else none
  else if symCol w ≥ d.ncols || (slotFmt d.vslot = 2 && symCode w / 16 ≠ 0) then some Code.illegal
  else none

/-- The first offending symbol, with its place. -/
def firstSymError (d : GDesc) (i : Nat) : Nat → List GVal → Option (Nat × Nat)
  | _, [] => none
  | j, w :: ws => match symError d i w.code with
    | some c => some (c, j)
    | none => firstSymError d i (j + 1) ws

/-- The exact sum of R258 rounded to f32. -/
def gramSum (ts : List Fp) : Nat :=
  let pos := ts.any fun v => v.isInf && !v.neg
  let neg := ts.any fun v => v.isInf && v.neg
  if ts.any Fp.isNan || (pos && neg) then Fmt.f32.nan
  else if pos || neg then Fmt.f32.inf neg
  else (Fmt.f32.roundDy .ne (windowSum (ts.map Fp.dy)) false).bits

/-- The addends of a run of symbols for vector v. -/
def State.addends (s : State) (g : GCtx) (rules : List Rule) (v : Nat) : List GVal →
    Except (GStop × State) (List Fp × Bool × State)
  | [] => .ok ([], false, s)
  | w :: ws => do
    let (t, bad, s) ←
      if symRef w.code then
        let x := ((rules.getD (symRule w.code) ⟨0, []⟩).vals).getD v ⟨0, false⟩
        pure (Fmt.f32.decode x.code, x.bad, s)
      else do
        let (x, s) ← s.gword g.c (g.b + v * g.istride + 4 * symCol w.code)
        pure ((mulExact (slotValue g.d.vslot (symCode w.code)) (Fmt.f32.decode x.code)).1, x.bad, s)
    let (ts, bad', s) ← s.addends g rules v ws
    pure (t :: ts, bad || bad' || w.bad, s)

/-- The values of a run of symbols, vector by vector. -/
def State.runVals (s : State) (g : GCtx) (rules : List Rule) (ws : List GVal) : Nat → Nat →
    Except (GStop × State) (List GVal × State)
  | 0, _ => .ok ([], s)
  | n + 1, v => do
    let (ts, bad, s) ← s.addends g rules v ws
    let (rest, s) ← s.runVals g rules ws n (v + 1)
    pure (⟨gramSum ts, bad⟩ :: rest, s)

/-- The symbols of run i, none where its pointers are reversed (R262): the symbols, the place of the first, and whether
the run was reversed. -/
def State.runSyms (s : State) (g : GCtx) (i : Nat) : Except (GStop × State) (List GVal × Nat × Bool × State) := do
  let (a, s) ← s.gword g.c (g.d.rptr + 4 * i)
  let (b, s) ← s.gword g.c (g.d.rptr + 4 * (i + 1))
  if b.code < a.code then
    if g.trapen then throw (.code Code.illegal (i % 2 ^ 16) ((g.d.rptr + 4 * i) % 2 ^ 64) true, s)
    else pure ([], a.code, true, s)
  else do
    let (ws, s) ← s.gwords g.c (b.code - a.code) (g.d.syms + 4 * a.code)
    pure (ws.map (fun w => { w with bad := w.bad || a.bad || b.bad }), a.code, false, s)

/-- A run's checks in the order of R259; `limit` is the rule index that a reference must stay below. -/
def checkSyms (g : GCtx) (i limit first : Nat) (ws : List GVal) : Except GStop Unit :=
  match firstSymError g.d limit 0 ws with
  | some (c, j) => .error (.code c (i % 2 ^ 16) ((g.d.syms + 4 * (first + j)) % 2 ^ 64) false)
  | none => .ok ()

def ruleDepth (rules : List Rule) (ws : List GVal) : Nat :=
  1 + ((ws.filter fun w => symRef w.code).map fun w => (rules.getD (symRule w.code) ⟨0, []⟩).depth).foldl max 0

/-- One rule of phase 1: its checks, its depth and its values. -/
def State.oneRule (s : State) (g : GCtx) (i : Nat) (rules : List Rule) : Except (GStop × State) (Rule × Bool × State) := do
  let (ws, first, rev, s) ← s.runSyms g i
  (checkSyms g i i first ws).mapError fun e => (e.after rev, s)
  let dep := ruleDepth rules ws
  if dep > 16 then throw (.code Code.gdepth (i % 2 ^ 16) ((g.d.syms + 4 * first) % 2 ^ 64) rev, s)
  let (vs, s) ← s.runVals g rules ws g.k 0
  pure (⟨dep, vs⟩, rev, s.tallySyms g ws)

/-- Phase 1, from rule i on: how it stops, the rules evaluated, GROWPTR. -/
def State.phase1 (s : State) (g : GCtx) : Nat → Nat → List Rule → Bool → Option GStop × List Rule × Bool × State
  | 0, _, rules, gp => (none, rules, gp, s)
  | n + 1, i, rules, gp =>
    match s.oneRule g i rules with
    | .error (e, s) => (some (e.after gp), rules, gp, s)
    | .ok (x, rev, s) => s.phase1 g n (i + 1) (rules ++ [x]) (gp || rev)

/-! ## Rows and completion -/

/-- Where outputs go. -/
structure GOut where
  slot    : W32
  base    : Nat
  ostride : Nat
  wid     : Word

/-- Where output r of vector v goes. -/
def GOut.at_ (o : GOut) (g : GCtx) (v r : Nat) : Nat :=
  (o.base + v * o.ostride + (g.d.row0 + r) * gramOutBytes o.slot) % 2 ^ 64

/-- The bytes of one output: 0 of an empty row, else a value times DSCALE (R258). -/
def gramOut (g : GCtx) (o : GOut) (r : Nat) (zero : Bool) (x : GVal) : List Byte :=
  let y := if zero then Fmt.f32.decode 0 else (mulExact (Fmt.f32.decode x.code) (Fmt.f32.decode g.d.dscale)).1
  bytesLE (gramOutBytes o.slot) (slotConvert o.slot (slotMode o.slot o.wid (r % 16)) y).bits

/-- Values of a row: from a vector on, and whether the row is an empty one. -/
structure GRow where
  vec  : Nat
  vals : List GVal
  zero : Bool

/-- Writes what is left of a row's outputs; at a fault, what remains. -/
def State.putRow (s : State) (g : GCtx) (o : GOut) (r : Nat) (zero : Bool) :
    Nat → List GVal → Sig → Option (GStop × GRow) × Sig × State
  | _, [], sig => (none, sig, s)
  | v, x :: xs, sig =>
    match s.xput g.c (o.at_ g v r) (gramOut g o r zero x) x.bad with
    | .error e => (some (.fault e, { vec := v, vals := x :: xs, zero := zero }), sig, s)
    | .ok (sg, s) => s.putRow g o r zero (v + 1) xs (sig ||| sg)

/-- The values of row r: of its root rule, or of its own run in compressed-row mode; with GROWPTR. -/
def State.rowVals (s : State) (g : GCtx) (rules : List Rule) (r : Nat) : Except (GStop × State) (GRow × Bool × State) := do
  if g.d.csr then
    let (ws, first, rev, s) ← s.runSyms g r
    (checkSyms g r 0 first ws).mapError fun e => (e.after rev, s)
    let (vs, s) ← s.runVals g [] ws g.k 0
    pure (⟨0, vs, false⟩, rev, s.tallySyms g ws)
  else do
    let (t, s) ← s.gword g.c (g.d.rowtab + 4 * r)
    if t.code = 2 ^ 32 - 1 then pure (⟨0, List.replicate g.k ⟨0, t.bad⟩, true⟩, false, s)
    else if t.code ≥ g.d.nrules then throw (.code Code.gfwd (r % 2 ^ 16) ((g.d.rowtab + 4 * r) % 2 ^ 64) false, s)
    else
      let vs := ((rules.getD t.code ⟨0, []⟩).vals).map fun x => { x with bad := x.bad || t.bad }
      pure (⟨0, vs, false⟩, false, s)

/-- How an evaluation ends, and what it did: how it stopped and what it goes on with, lines written, GROWPTR, state. -/
structure GRun where
  stop : Option GStop
  part : Option GramPart
  sig  : Sig
  gp   : Bool
  s    : State

/-- The bytes that a command has written, of any vector, in words that still lack some of its outputs: it stands in row r at
vector v. Words that it lacks whole need none, so only the first and the last word of what each vector lacks count. -/
def State.openWords (s : State) (g : GCtx) (o : GOut) (r v : Nat) : List (Nat × List Byte) :=
  let vs := List.range g.k
  let from_ := fun (u : Nat) => o.at_ g u 0
  let at_ := fun (u : Nat) => o.at_ g u (if u < v then r + 1 else r)
  let stop := fun (u : Nat) => o.at_ g u g.d.nrows
  let words := ((vs.filter fun u => at_ u < stop u).flatMap fun u => [at_ u / 4, (stop u - 1) / 4]).eraseDups
  (words.flatMap fun w => (List.range 4).map fun i => 4 * w + i).filterMap fun a =>
    if vs.any fun u => from_ u ≤ a && a < at_ u then
      match s.xreadN g.c a 1 with
      | .ok (bs, _, _) => some (a, bs)
      | .error _ => none
    else none

/-- A command that goes on writes those bytes again, so that each word is one command's (R263). -/
def State.putWords (s : State) (g : GCtx) (ws : List (Nat × List Byte)) : State :=
  ws.foldl
    (fun s p => match s.xput g.c p.1 p.2 false with
      | .ok (_, s) => s
      | .error _ => s) s

/-- Phase 2 from row r on, whose values may be in hand (R258, R261). -/
def State.phase2 (s : State) (g : GCtx) (o : GOut) (desc : Nat) (rules : List Rule) :
    Nat → Nat → Option GRow → Bool → Sig → GRun
  | 0, _, _, gp, sig => { stop := none, part := none, sig := sig, gp := gp, s := s }
  | n + 1, r, hand, gp, sig =>
    let row : Except (GStop × State) (GRow × Bool × State) := match hand with
      | some x => .ok (x, false, s)
      | none => s.rowVals g rules r
    match row with
    | .error (e, s) =>
      { stop := some (e.after gp),
        part := some
          { desc := some desc, rules := rules, row := r, vec := 0, vals := none, zero := false, growPtr := gp,
            words := s.openWords g o r 0 },
        sig := sig, gp := gp, s := s }
    | .ok (x, rev, s) =>
      match s.putRow g o r x.zero x.vec x.vals sig with
      | (some (e, y), sig, s) =>
        { stop := some e,
          part := some
            { desc := some desc, rules := rules, row := r, vec := y.vec, vals := some y.vals, zero := y.zero,
              growPtr := gp || rev, words := s.openWords g o r y.vec },
          sig := sig, gp := gp || rev, s := s }
      | (none, sig, s) => s.phase2 g o desc rules n (r + 1) none (gp || rev) sig

/-- A command that has read nothing yet. -/
def GramPart.start : GramPart :=
  { desc := none, rules := [], row := 0, vec := 0, vals := none, zero := false, growPtr := false, words := [] }

/-- What a command does once its descriptor is read: its checks, phase 1 from the rules evaluated, phase 2 from its row
(R255, R258, R259). -/
def State.gramRun (s : State) (g : GCtx) (p : GramPart) (desc : Nat) (sig : Sig) (o : GOut) : GRun :=
  let ends := fun (e : GStop) => { stop := some e, part := none, sig := sig, gp := p.growPtr, s := s : GRun }
  if !g.d.ok then ends (.code Code.illegal 0 g.desc false)
  else if !g.d.csr && g.d.nrules > 65536 then ends (.code Code.gcap 0 g.desc false)
  else
    match if g.d.csr then (none, [], p.growPtr, s)
        else s.phase1 g (g.d.nrules - p.rules.length) p.rules.length p.rules p.growPtr with
    | (some e, rules, gp, s) =>
      { stop := some e, part := some { p with desc := some desc, rules := rules, growPtr := gp }, sig := sig, gp := gp, s := s }
    | (none, rules, gp, s) =>
      (s.putWords g p.words).phase2 g o desc rules (g.d.nrows - p.row) p.row
        (p.vals.map fun xs => { vec := p.vec, vals := xs, zero := p.zero }) gp sig

/-- Everything a command does from where it stands; its descriptor is read once. -/
def State.gramEval (s : State) (c : Xctx) (part : Option GramPart) (sig : Sig) (k : Nat) (desc b : Word) (istride : Nat)
    (trapen : Bool) (vf unit : Nat) (o : GOut) : GRun :=
  let p := part.getD GramPart.start
  let ends := fun (e : GStop) => { stop := some e, part := some p, sig := sig, gp := p.growPtr, s := s : GRun }
  let ctx := fun (d : Nat) =>
    { c := c, d := GDesc.decode d, desc := desc.toNat, k := k, b := b.toNat, istride := istride, trapen := trapen,
      vf := vf, unit := unit : GCtx }
  match p.desc with
  | some d => s.gramRun (ctx d) p d sig o
  | none =>
    match s.fetch c desc.toNat 64 with
    | .stop e => ends (.fault e)
    | .later => ends .later
    | .got bs s =>
      let d := natLE (bs.map fun x => x.1)
      s.gramRun (ctx d) p d sig o

/-- Token, `gstat` and record of a command that ends (R259, R262, R263). -/
def State.gramEnd (s : State) (c : Cmd) (code : Nat) (gp : Bool) (sig : Sig) : State :=
  let l := lowestLane c.lanes
  let s := if gp then s.setRegs c.wave l fun g => { g with gstat := g.gstat ||| 1 } else s
  s.endCmd c (w64 (code + if gp then 2 ^ 17 else 0)) sig

/-- Has a command been started: it runs to completion, suspended or not (R264). -/
def Cmd.begun (c : Cmd) : Bool := c.part.isSome || c.ticket.isSome

/-- Is a command the one its rule engine runs: the one begun, else the oldest of the lowest class (R264)? -/
def State.gramTurn (s : State) (c : Cmd) : Bool :=
  c.runs && (c.begun || s.cmds.all fun o =>
    !o.gram || o.silent || o.partNo ≠ c.partNo
      || s.ruleEngine (o.partNo) o.cluster ≠ s.ruleEngine (c.partNo) c.cluster
      || (!o.begun && (c.cls < o.cls || (c.cls = o.cls && c.id ≤ o.id))))

def State.gramWork (s : State) (id : Nat) : Worked :=
  match s.cmd? id with
  | some c =>
    match c.kind with
    | .grammar k fs a b out istride ostride trapen =>
      if !s.gramTurn c then .later
      else match s.ruleEngine (c.partNo) c.cluster with
      | none => .ok ((s.cmdReport c Code.illegal 0 0).gramEnd c Code.illegal false 0)
      | some engine =>
        let slot := (s.job c.wave.team.job).card.slots.toList.getD fs 0
        let x := c.srcCtx
        let o : GOut := { slot := slot, base := out.toNat, ostride := ostride, wid := c.wid }
        let e := s.gramEval x c.part c.sig k a b istride trapen (s.jobOf c.wave).vf (261 + engine) o
        match e.stop with
        | some (.fault f) => .partly (e.s.modCmd id fun c => { c with part := e.part, sig := e.sig }) f
        | some .later => .later
        | some (.code code sub addr gp) => .ok ((e.s.cmdReport c code sub addr).gramEnd c code gp e.sig)
        | none => .ok (e.s.gramEnd c 0 e.gp e.sig)
    | _ => .later
  | none => .later

/-- A GMV or GMM completes (R258 to R263). DEDUCED, unsafe (log 10). -/
def execGrammarComplete (cmd : Nat) (s : State) : Host.Outcome State Fault Refusal := (s.gramWork cmd).out s

end Sys2Proof.Machine
end

