-- ==== Sys2Proof/Machine/Neural.lean ====
section
/-!
DEFINITION. Neural calls (R237 to R252, R421, R422, R443): weight sets, handle tables, the Belfry, bins and the numeric
result of a call.
-/

namespace Sys2Proof.Machine

open Sys2Proof

/-! ## Weight sets (R237, R238) -/

/-- A layer's descriptor. -/
structure Layer where
  soff : Nat
  boff : Nat
  woff : Nat
  rsvd : Nat
  wfmt : Nat
  act  : Nat
  nout : Nat
  nin  : Nat
  deriving DecidableEq, Repr

def Layer.decode (d : Nat) : Layer :=
  { soff := fld d 127 96, boff := fld d 95 64, woff := fld d 63 32, rsvd := fld d 31 20, wfmt := fld d 19 18,
    act := fld d 17 16, nout := fld d 15 8, nin := fld d 7 0 }

def dataAt (bs : List Byte) (i n : Nat) : Nat := natLE ((bs.drop i).take n)

/-- Chunks of a layer's inputs. -/
def Layer.chunkCount (l : Layer) : Nat := ceilDiv l.nin 32
def Layer.rowBytes (l : Layer) : Nat := (if l.wfmt = 0 then 16 else 32) * l.chunkCount
def Layer.scaleBytes (l : Layer) : Nat := if l.wfmt = 0 then l.chunkCount * l.nout else 4 * l.nout

def setSize (bs : List Byte) : Nat := fld (dataAt bs 0 16) 63 32
def setLayers (bs : List Byte) : List Layer :=
  (List.range (fld (dataAt bs 0 16) 2 0)).map fun l => Layer.decode (dataAt bs (16 + 16 * l) 16)

/-- The header alone: reserved bits, SIZE and NL. -/
def headerOk (bs : List Byte) : Bool :=
  let h := dataAt bs 0 16
  let n := fld h 2 0
  fld h 127 64 = 0 && fld h 31 3 = 0 && setSize bs % 16 = 0 && 32 ≤ setSize bs && setSize bs ≤ 65536
    && 1 ≤ n && n ≤ 4 && 16 + 16 * n ≤ setSize bs

def Layer.ok (l : Layer) (size : Nat) (first last : Bool) : Bool :=
  1 ≤ l.nin && l.nin ≤ (if first then 32 else 64) && 1 ≤ l.nout && l.nout ≤ (if last then 16 else 64)
    && l.rsvd = 0 && l.wfmt ≠ 3 && l.woff % 16 = 0 && l.boff % 2 = 0 && (l.wfmt = 0 || l.soff % 4 = 0)
    && l.woff + l.nout * l.rowBytes ≤ size && l.boff + 2 * l.nout ≤ size && l.soff + l.scaleBytes ≤ size

def chained : List Layer → Bool
  | a :: b :: rest => b.nin = a.nout && chained (b :: rest)
  | _ => true

/-- Is a set valid, against a size (R238)? -/
def setValid (bs : List Byte) (size : Nat) : Bool :=
  let ls := setLayers bs
  headerOk bs && setSize bs = size && chained ls
    && (List.range ls.length).all fun i =>
      match ls[i]? with
      | some l => l.ok size (i = 0) (i + 1 = ls.length)
      | none => true

/-! ## Numeric results (R247) -/

/-- The scale of block b of row o of an MXFP4 layer. -/
def Layer.blockScale (l : Layer) (bs : List Byte) (o b : Nat) : Nat := dataAt bs (l.soff + o * l.chunkCount + b) 1

/-- Weight k of row o, with its block scale. -/
def Layer.weight (l : Layer) (bs : List Byte) (o k : Nat) : Dy :=
  let row := l.woff + o * l.rowBytes
  match l.wfmt with
  | 0 =>
    let v := (Fmt.e2m1.decode (dataAt bs (row + k / 2) 1 / 2 ^ (4 * (k % 2)) % 16)).dy
    { v with e := v.e + (l.blockScale bs o (k / 32) : Int) - 127 }
  | 1 => (Fmt.e4m3.decode (dataAt bs (row + k) 1)).dy
  | _ => (Fmt.e5m2.decode (dataAt bs (row + k) 1)).dy

/-- The accumulator of row o: the exact sums of the chunks in ascending order, each added with one rounding (R247). -/
def Layer.accum (l : Layer) (bs : List Byte) (o : Nat) (x : List Nat) : Nat :=
  (List.range l.chunkCount).foldl
    (fun acc q =>
      addExact acc (windowSum (((List.range 32).filter fun k => 32 * q + k < l.nin).map fun k =>
        (l.weight bs o (32 * q + k)).mul (Fmt.f16.decode (x.getD (32 * q + k) 0)).dy))) 0

/-- A code of one format rounded to another, to nearest-even. -/
def recode (f g : Fmt) (v : Nat) : Nat := (g.convert .ne (f.decode v)).bits

/-- The activation of an f32 code as f16: the function exact, one rounding (R148, R247). DESIGN CHOICE, safe (log 3). -/
def activate (act v : Nat) : Nat :=
  let x := Fmt.f32.decode v
  let free := Config.transcendental (16 + act) 16 v 0 % 2 ^ 16
  match x with
  | .nan _ => Fmt.f16.nan
  | _ =>
    match act with
    | 0 => recode .f32 .f16 v
    | 1 => if x.neg || x.isZero then 0 else recode .f32 .f16 v
    | 2 => match x with
      | .inf neg => if neg then 0 else 0x3C00
      | _ => (Fmt.f16.sigmRnd .ne x.dy free).bits
    | _ => match x with
      | .inf neg => if neg then 0xBC00 else 0x3C00
      | _ => if x.isZero then Fmt.f16.signBit x.neg else (Fmt.f16.tanhRnd .ne x.dy free).bits

/-- Output o of a layer. -/
def Layer.output (l : Layer) (bs : List Byte) (o : Nat) (x : List Nat) : Nat :=
  let rowscale := if l.wfmt = 0 then 0x3F800000 else dataAt bs (l.soff + 4 * o) 4
  let s1 := (Fmt.f32.convert .ne
    (mulExact (Fmt.f64.decode (l.accum bs o x)) (Fmt.f32.decode rowscale)).1).bits
  let s2 := (Fmt.f32.add .ne (Fmt.f32.decode s1) (Fmt.f16.decode (dataAt bs (l.boff + 2 * o) 2))).bits
  activate l.act s2

/-- One layer: its outputs, and NANSCALE. -/
def Layer.run (l : Layer) (bs : List Byte) (x : List Nat) : List Nat × Bool :=
  let nanScale := l.wfmt = 0 && (List.range (l.nout * l.chunkCount)).any fun i => dataAt bs (l.soff + i) 1 = 0xFF
  let bad := (x.take l.nin).any fun v => (Fmt.f16.decode v).isNan || (Fmt.f16.decode v).isInf
  if nanScale || bad then (List.replicate l.nout Fmt.f16.nan, nanScale)
  else ((List.range l.nout).map fun o => l.output bs o x, false)

/-- A call's outputs, and NANSCALE (R247, R248). -/
def evalSet (bs : List Byte) (x : List Nat) : List Nat × Bool :=
  (setLayers bs).foldl
    (fun (p : List Nat × Bool) l => let (y, n) := l.run bs p.1; (y, p.2 || n)) (x, false)

/-! ## The Belfry (R239, R240) -/

def State.handleEntry (s : State) (vf handle : Nat) : Option Handle :=
  s.handles.find? fun h => h.vf = vf && h.handle = handle && handle < 4096

def State.inBelfry (s : State) (cluster vf handle : Nat) : Option BelfrySet :=
  s.belfry.find? fun b => b.cluster = cluster && b.vf = vf && b.handle = handle

def State.pinned (s : State) (b : BelfrySet) : Bool :=
  s.pins.any fun p => p.cluster = b.cluster && p.handle = b.handle && (s.job p.job).vf = b.vf

def belfryBytes : Nat := 4 * 2 ^ 20

/-- Evicts unpinned sets of a cluster, the least recently used first, until n more bytes fit. -/
def State.evict (s : State) (cluster n : Nat) : Nat → State
  | 0 => s
  | fuel + 1 =>
    let mine := s.belfry.filter fun b => b.cluster = cluster
    if (mine.map fun b => b.bytes.length).foldl (· + ·) 0 + n ≤ belfryBytes then s
    else match mine.filter fun b => !s.pinned b with
      | [] => s
      | b :: bs =>
        let v := bs.foldl (fun (a : BelfrySet) b => if b.used < a.used then b else a) b
        State.evict { s with belfry := s.belfry.erase v } cluster n fuel

/-- What a load of a bound set reads, from its HPA (R239). -/
def State.loadSet (s : State) (part : Nat) (h : Handle) : List Byte × Bool :=
  (s.readPhys part h.hpa h.size,
   (List.range (h.size / 128 + 2)).any fun i => s.linePoisoned part (h.hpa / 128 * 128 + 128 * i)
     && h.hpa / 128 * 128 + 128 * i < h.hpa + h.size)

/-- A set comes into a Belfry, unless what was read breaks R238. -/
def State.bringIn (s : State) (cluster : Nat) (h : Handle) : State :=
  if (s.inBelfry cluster h.vf h.handle).isSome then s
  else
    let (bs, p) := s.loadSet (s.vf h.vf).partition h
    if !setValid bs h.size then s
    else
      let s := s.evict cluster h.size s.belfry.length
      { s with belfry := s.belfry ++
          [{ cluster := cluster, vf := h.vf, handle := h.handle, bytes := bs, poison := p, used := s.now }] }

/-- The weights a tile of a handle has at once: none to wait for when the handle is unbound. -/
def State.weightsNow (s : State) (cluster vf handle : Nat) : Weights :=
  match s.handleEntry vf handle with
  | none => .missing
  | some _ =>
    match s.inBelfry cluster vf handle with
    | some b => .loaded b.bytes b.poison
    | none => .waiting

/-! ## Bins (R244 to R246, R251) -/

def Bin.opened (b : Bin) : Bool := !b.dispatched
def Bin.oldest (b : Bin) : Nat := match b.calls with | c :: _ => c.id | [] => 0

/-- A bin is dispatched: its tile enters its context's queue (R251), with padding for the calls it lacks (R246, R329). -/
def State.dispatch (s : State) (b : Bin) : State :=
  { s.tally b.vf (229 + b.cluster) 4 (64 - b.calls.length) with
    nextCmd := s.nextCmd + 1,
    bins := (s.bins.filter fun x => x.id ≠ b.id) ++
      [{ b with dispatched := true, entry := s.nextCmd, weights := s.weightsNow b.cluster b.vf b.handle }] }

/-- Bins dispatched at one moment, in the order of their oldest calls (R251). -/
def State.dispatchAll (s : State) (bs : List Bin) : State :=
  (sortOn Bin.oldest (bs.filter Bin.opened)).foldl (fun s b => s.dispatch b) s

/-- One call enters the Carillon (R245). -/
def State.placeCall (s : State) (job vf handle : Nat) (c : Call) : State :=
  let mine := s.bins.filter fun b => b.opened && b.cluster = c.cluster
  match mine.find? fun b => b.job = job && b.handle = handle with
  | some b =>
    let b := { b with calls := b.calls ++ [c] }
    let s := { s with bins := s.bins.map fun (x : Bin) => if x.id = b.id then b else x }
    if b.calls.length ≥ 64 then s.dispatch b else s
  | none =>
    let s := match mine with
      | b :: bs =>
        if mine.length < 64 then s
        else s.dispatch (bs.foldl (fun (a b : Bin) => if b.oldest < a.oldest then b else a) b)
      | [] => s
    { s with bins := s.bins ++
        [({ id := c.id, cluster := c.cluster, job := job, vf := vf, handle := handle, calls := [c], dispatched := false,
            entry := 0, weights := .waiting, ran := 0 } : Bin)] }

/-! ## NCALL (R243, R244, R421) -/

def Val.poisonLow (v : Val) : Bool := v.poison &&& 0x0F ≠ 0

/-- POISON for the handle of a lane. -/
def State.handleBad (s : State) (r : Run) (sh : Shape) (l : Fin 32) : List (Fin 32 × Exc) :=
  needs (!(s.engArg r sh 0 l).poisonLow) l (poisonAt l 0)

def State.handleArg (s : State) (r : Run) (sh : Shape) (l : Fin 32) : Nat := low32 (s.engArg r sh 0 l).bits

def ncallBody (kin : Fin 8) (mout : Fin 4) (f : Eng) (s : State) (r : Run) (sh : Shape) : Body :=
  let act := s.actors r sh
  let ins := (List.range (kin.val + 1)).map fun i => (f.n.map Fin.val).getD 0 + i
  let outs := f.outRange mout
  let tok := f.t.reg.headD 0
  let excs := (lanesOf act).flatMap fun l =>
    s.handleBad r sh l ++ needs (!ins.any fun k => (r.spec[l].getN k).bad) l (poisonAt l 0)
  let t := r.wave.team
  let cl := (s.team t).cluster
  let handle := s.handleArg r sh
  if act = 0 then .done s r (.own fun s r' => s.goOnRun r')
  else
    match firstExc excs with
    | some e => .fault s e
    | none =>
      match s.mmaCtx t with
      | none => .wait s
      | some x =>
        .done s r (.own fun s r' =>
          let s := s.bindCtx cl x t.job
          let (seq, s) := s.takeSeq r'.wave
          let s := s.tally (s.job t.job).vf (229 + cl) 1 (lanesOf act).length
          let s := (outs ++ [tok]).foldl (fun s k => s.setPending r'.wave act k) s
          let s := (lanesOf act).foldl
            (fun s l =>
              let c : Call :=
                { wave := r'.wave, lane := l, tok := tok, out := outs.headD 0, outs := outs.length,
                  x := ins.map fun k => (r.spec[l].getN k).bits, at_ := s.now, id := s.nextCmd, cluster := cl, seq := seq,
                  pc := r.pc }
              { s.placeCall t.job (s.job t.job).vf (handle l) c with nextCmd := s.nextCmd + 1 }) s
          s.goOnRun r')

def execNcall (kin : Fin 8) (mout : Fin 4) (f : Eng) (s : State) : Host.Outcome State Fault Refusal :=
  execute s (.ncall kin mout f) [tyW64] (ncallBody kin mout f)

/-! ## Completion of calls (R249) -/

/-- The four f16 of one output register; sub-elements past the last output are +0. -/
def outWord (ys : List Nat) (i : Nat) : Word := ofSubs .b16 fun j => ys.getD (4 * i + j) 0

/-- Poison of one output register: that of its outputs. -/
def outPoison (n : Nat) (p : Bool) (i : Nat) : BitVec 8 :=
  if p then bytesMask .b16 (BitVec.ofNat 8 (packN 1 ((List.range 4).map fun j => if 4 * i + j < n then 1 else 0))) else 0

/-- An engine's write of a register with its poison. -/
def State.engineWriteVal (s : State) (w : WaveId) (l : Fin 32) (k : Nat) (v : Val) : State :=
  if (s.thread w l).status.live then (s.engineWrite w l k 0).setRegs w l fun g => g.setN k v else s

/-- A call completes: its outputs, then its token. -/
def State.finishCall (s : State) (b : Bin) (c : Call) : State :=
  let (ys, nan, p, miss) := match b.weights with
    | .loaded bs p =>
      let x := c.x.flatMap fun v => (List.range 4).map (sub .b16 v)
      let (ys, nan) := evalSet bs x
      (ys, nan, p, false)
    | _ => ([], false, false, true)
  let s := (List.range c.outs).foldl
    (fun s i => s.engineWriteVal c.wave c.lane (c.out + i) ⟨outWord ys i, outPoison ys.length p i⟩) s
  let s := s.engineWrite c.wave c.lane c.tok
    (w64 ((if miss then Code.wsetMiss else 0) + (if nan then 2 ^ 16 else 0)))
  let rest := b.calls.filter fun x => x.id ≠ c.id
  { s with
    bins := if rest.isEmpty then s.bins.filter fun x => x.id ≠ b.id
      else s.bins.map fun (x : Bin) => if x.id = b.id then { x with calls := rest } else x,
    belfry := s.belfry.map fun (e : BelfrySet) =>
      if e.cluster = b.cluster && e.vf = b.vf && e.handle = b.handle then { e with used := s.now } else e }

/-- May a bin's tile go on: its layers have all run, or the next one is the next operation of its job's context there, its
weights at hand (R233, R246)? -/
def State.tileReady (s : State) (b : Bin) : Bool :=
  b.dispatched && b.weights ≠ .waiting
    && (b.turns ≤ b.ran || match s.ctxOf b.cluster b.job with
      | some x => s.hasTurn b.cluster x b.entry
      | none => false)

/-- The next layer of a tile takes its turn of the context (R233, R246). -/
def State.runLayer (s : State) (b : Bin) : State :=
  let s := { s with bins := s.bins.map fun (x : Bin) => if x.id = b.id then { x with ran := b.ran + 1 } else x }
  match s.ctxOf b.cluster b.job with
  | some x => s.tileDone b.vf b.cluster x (min 1 b.layers)
  | none => s

/-- A tile goes on: while a layer is left it takes a turn; once the last has run, its calls complete (R249).
DEDUCED, unsafe (log 10). -/
def State.tileCall (s : State) (b : Bin) (c : Call) : State :=
  let t := if b.ran < b.turns then s.runLayer b else s
  if b.ran + 1 < b.turns then t else t.finishCall { b with ran := b.turns } c

/-- DEDUCED, unsafe (log 10). -/
def execNcallComplete (cmd : Nat) (s : State) : Host.Outcome State Fault Refusal :=
  match s.bins.find? fun b => b.calls.any fun c => c.id = cmd with
  | none => .next s
  | some b =>
    match b.calls.find? fun c => c.id = cmd with
    | some c => if s.tileReady b then .next (s.tileCall b c).settle else .next s
    | none => .next s

/-- The Belfry loads a set that a dispatched bin waits for (R239, R240). -/
def execBelfryLoad (cluster vf handle : Nat) (s : State) : Host.Outcome State Fault Refusal :=
  let waits := fun (b : Bin) =>
    b.dispatched && b.weights = .waiting && b.cluster = cluster && b.vf = vf && b.handle = handle
  if !s.bins.any waits then .next s
  else
    let s := match s.handleEntry vf handle with
      | some h => s.bringIn cluster h
      | none => s
    let w := match s.weightsNow cluster vf handle with
      | .waiting => Weights.missing        -- what was read breaks R238
      | w => w
    .next { s with bins := s.bins.map fun (b : Bin) => if waits b then { b with weights := w } else b }

/-- Has the oldest call of an open bin committed 2,048 cycles ago? -/
def Bin.expired (b : Bin) (now : Nat) : Bool := b.opened && b.calls.any fun c => c.at_ + 2048 ≤ now

/-- Bins whose oldest call committed 2,048 cycles ago are dispatched, in the order of those calls (R245, R251). -/
def execBinDispatchTimer (bin : Nat) (s : State) : Host.Outcome State Fault Refusal :=
  match s.bins.find? fun b => b.id = bin with
  | some b =>
    if b.expired s.now then .next (s.dispatchAll (s.bins.filter fun x => x.expired s.now)) else .next s
  | none => .next s

/-! ## Blocked waves (R245) -/

/-- A register that an uncompleted call of a thread will write. -/
def State.callReg (s : State) (w : WaveId) (l : Fin 32) (k : Nat) : Bool :=
  s.bins.any fun b => b.calls.any fun c =>
    c.wave = w && c.lane = l && (k = c.tok || (c.out ≤ k && k < c.out + c.outs))

/-- The instruction a run stands at. -/
def State.nextShape (s : State) (r : Run) : Option Shape := (s.instrAt (s.xctx r.wave) r.pc).bind Instr.shape

/-- Does the run of a lane, or the lane before its next run, wait at the scoreboard on such a register? -/
def State.waitsOnCall (s : State) (w : WaveId) (l : Fin 32) : Bool :=
  let names := fun (r : Run) =>
    match s.nextShape r with
    | some sh => namesAny (fun l k => s.pending w l k && s.callReg w l k) r sh
    | none => false
  match s.runs.find? fun r => r.wave = w && LaneMask.has r.group l with
  | some r => r.suspended && names r
  | none =>
    let t := s.thread w l
    let v := s.wave w
    names (Run.fresh w v (laneBit l) t.runStart t.blk)

/-- Is a wave blocked: each unexited thread waits, or the wave is parked, with its team or alone (R245, R292)? -/
def State.waveBlocked (s : State) (w : WaveId) : Bool :=
  (s.team w.team).place ≠ .resident || (s.wave w).slot.isNone
    || lanesAll.all fun l =>
      match (s.thread w l).status with
      | .ready => s.waitsOnCall w l
      | _ => true

/-- Every open bin of a cluster, once each of its waves with an uncompleted call is blocked. -/
def execBinDispatchBlocked (cluster : Nat) (s : State) : Host.Outcome State Fault Refusal :=
  let mine := s.bins.filter fun b => b.cluster = cluster
  if mine.all fun b => b.calls.all fun c => s.waveBlocked c.wave then .next (s.dispatchAll mine) else .next s

/-! ## NFLUSH, WPIN, WUNPIN, WPREF (R241, R422, R443) -/

/-- The effect of an instruction without a command of its own that acts for the participating threads. -/
def controlBody (reads : Bool) (one : Bool) (go : List Nat → TeamId → State → State) (s : State) (r : Run) (sh : Shape) :
    Body :=
  let act := s.actors r sh
  let ls := if one then [lowestLane act] else lanesOf act
  let handle := s.handleArg r sh
  if act = 0 then .done s r (.own fun s r' => s.goOnRun r')
  else
    match firstExc (if reads then ls.flatMap fun l => s.handleBad r sh l else []) with
    | some e => .fault s e
    | none =>
      .done s r (.own fun s r' =>
        let (_, s) := s.takeSeq r'.wave
        (go ((ls.map handle).eraseDups) r'.wave.team s).goOnRun r')

/-- NFLUSH: a handle that is unbound has no effect (R241). -/
def flush (all : Bool) (hs : List Nat) (t : TeamId) (s : State) : State :=
  let cl := (s.team t).cluster
  let vf := (s.job t.job).vf
  let bound := hs.filter fun k => (s.handleEntry vf k).isSome
  let s := s.tally vf (229 + cl) 1 1
  s.dispatchAll (s.bins.filter fun b => b.cluster = cl && b.job = t.job && (all || bound.contains b.handle))

def execNflush (all : Bool) (f : Eng) (s : State) : Host.Outcome State Fault Refusal :=
  execute s (.nflush all f) [tyW64] (controlBody (!all) false (flush all))

/-- The bytes pinned in a cluster's Belfry: those of the sets that pinned handles are bound to, each once. -/
def State.pinBytes (s : State) (cluster : Nat) : Nat :=
  let ps := (s.pins.filter fun p => p.cluster = cluster).map fun p => ((s.job p.job).vf, p.handle)
  ((ps.eraseDups).map fun p => match s.handleEntry p.1 p.2 with | some h => h.size | none => 0).foldl (· + ·) 0

/-- WPIN of one handle: refused past 2 MB; a second pin of a job's is the first (R240). -/
def pin (hs : List Nat) (t : TeamId) (s : State) : State :=
  let cl := (s.team t).cluster
  let vf := (s.job t.job).vf
  hs.foldl
    (fun s k =>
      match s.handleEntry vf k with
      | none => s
      | some h =>
        if s.pins.any fun p => p.cluster = cl && p.job = t.job && p.handle = k then s
        else
          let shared := s.pins.any fun p => p.cluster = cl && p.handle = k && (s.job p.job).vf = vf
          if !shared && s.pinBytes cl + h.size > 2 * 2 ^ 20 then s.tally vf (277 + cl) 4 1
          else { s.bringIn cl h with pins := s.pins ++ [{ cluster := cl, job := t.job, handle := k }] }) s

def execWpin (f : Eng) (s : State) : Host.Outcome State Fault Refusal :=
  execute s (.wpin f) [tyW64] (controlBody true true pin)

/-- WUNPIN: an unbound handle has no effect (R241). -/
def unpin (hs : List Nat) (t : TeamId) (s : State) : State :=
  { s with pins := s.pins.filter fun p =>
      !(p.cluster = (s.team t).cluster && p.job = t.job && hs.contains p.handle
        && (s.handleEntry (s.job t.job).vf p.handle).isSome) }

def execWunpin (f : Eng) (s : State) : Host.Outcome State Fault Refusal :=
  execute s (.wunpin f) [tyW64] (controlBody true true unpin)

def prefetch (hs : List Nat) (t : TeamId) (s : State) : State :=
  hs.foldl
    (fun s k =>
      match s.handleEntry (s.job t.job).vf k with
      | some h => s.bringIn (s.team t).cluster h
      | none => s) s

def execWpref (f : Eng) (s : State) : Host.Outcome State Fault Refusal :=
  execute s (.wpref f) [tyW64] (controlBody true false prefetch)

/-! ## WBIND (R242) -/

def wbindBody (s : State) (r : Run) (sh : Shape) : Body :=
  let act := s.actors r sh
  let l := lowestLane act
  let h := s.handleArg r sh l
  let b := s.engArg r sh 1 l
  if act = 0 then .done s r (.own fun s r' => s.goOnRun r')
  else
    let excs := needs (b.bits.toNat % 16 = 0) l (alignExc l b.bits.toNat)
      ++ needs (h < 4096) l (Exc.bound (w64 h) l) ++ s.handleBad r sh l ++ handlePoison b l
    match firstExc excs with
    | some e => .fault s e
    | none =>
      .done s r (.own fun s r' =>
        let (seq, s) := s.takeSeq r'.wave
        let s := s.newCmd r'.wave act none seq r.pc (.wbind h b.bits)
        (s.waitAt r'.wave act r.pc r'.pc .command).goOn r'.wave (r'.group &&& ~~~act) r'.pc)

def execWbind (f : Eng) (s : State) : Host.Outcome State Fault Refusal := execute s (.wbind f) engTys wbindBody

/-- What the check of a set finds: an HPA and a size, or a record's CODE, SUB and ADDR; with the state after its
translations (R170). -/
inductive BindCheck where
  | good (hpa size : Nat) (s : State)
  | bad (code sub addr : Nat) (s : State)
  | later

/-- Do the pages at some addresses translate to consecutive addresses, `va` to `hpa`? -/
def State.contiguous (s : State) (c : Xctx) (va hpa : Nat) : List Nat → Bool × State
  | [] => (true, s)
  | p :: ps =>
    match s.translate c p .read with
    | .ok (x, s) => if x.hpa = hpa + (p - va) then s.contiguous c va hpa ps else (false, s)
    | .error e => (false, s.markLeaves c.part e.marks)

def State.bindError (s : State) (c : Xctx) (e : XErr) : BindCheck :=
  .bad Code.engFault e.code e.addr (s.markLeaves c.part e.marks)

/-- Step 1 of R242. -/
def State.checkSet (s : State) (c : Cmd) (addr : Word) : BindCheck :=
  let x := c.srcCtx
  let a := addr.toNat
  match s.fetch x a 16 with
  | .later => .later
  | .stop e => s.bindError x e
  | .got hd s =>
    let hd := hd.map fun b => b.1
    if !headerOk hd then .bad Code.illegal 0 a s
    else
      match s.fetch x a (setSize hd) with
      | .later => .later
      | .stop e => s.bindError x e
      | .got bs s =>
        if !setValid (bs.map fun b => b.1) (setSize hd) then .bad Code.illegal 0 a s
        else
          match s.translate x a .read with
          | .error e => s.bindError x e
          | .ok (l, s) =>
            match s.contiguous x a l.hpa (pageStarts a (setSize hd)) with
            | (true, s) => .good l.hpa (setSize hd) s
            | (false, s) => .bad Code.illegal 1 a s

/-- Pins of a handle whose new set would bring a cluster's pinned sets past 2 MB end (R240).
DESIGN CHOICE, unsafe (log 65). -/
def State.trimPins (s : State) (vf handle : Nat) : State :=
  { s with pins := s.pins.filter fun p =>
      !((s.job p.job).vf = vf && p.handle = handle && decide (2 * 2 ^ 20 < s.pinBytes p.cluster)) }

/-- The bins of a handle, of any job of the function on any cluster. -/
def State.binsOf (s : State) (vf handle : Nat) : List Bin := s.bins.filter fun b => b.vf = vf && b.handle = handle

/-- Steps 2 to 4 of R242: open bins of the handle are dispatched; once their tiles hold their weights the set leaves
every Belfry and the entry is written. A failed check leaves the entry unbound, with a record. -/
def State.wbindStep (s : State) (c : Cmd) (handle : Nat) (addr : Word) : State :=
  let vf := c.vf
  let checked := s.checkSet c addr
  match checked with
  | .later => s
  | k =>
    let s := match k with | .good _ _ s => s | .bad _ _ _ s => s | .later => s
    let open_ := (s.binsOf vf handle).filter Bin.opened
    if !open_.isEmpty then s.dispatchAll open_
    else if (s.binsOf vf handle).any fun b => b.weights = .waiting then s
    else
      let s := { s with
        belfry := s.belfry.filter fun b => !(b.vf = vf && b.handle = handle),
        handles := s.handles.filter fun h => !(h.vf = vf && h.handle = handle) }
      let s := match k with
        | .good hpa size _ => State.trimPins { s with handles := s.handles ++ [({ vf := vf, handle := handle, hpa := hpa, size := size } : Handle)] } vf handle
        | .bad code sub a _ => s.cmdReport c code sub a
        | .later => s
      ((s.endCmd c 0 0).resumeCmd c.wave c.lanes).settle

def execWbindComplete (cmd : Nat) (s : State) : Host.Outcome State Fault Refusal :=
  match s.cmd? cmd with
  | some c =>
    match c.kind with
    | .wbind h a => .next (s.wbindStep c h a)
    | _ => .next s
  | none => .next s

end Sys2Proof.Machine
end

