-- ==== Sys2Proof/Machine/Irregular.lean ====
section
/-!
DEFINITION. Bins, work-lists, index elements and HASHB (R267 to R277, R368, R369, R400, R444, R445), and the suspension
of a command at a translation fault (R219, R257).
-/

namespace Sys2Proof.Machine

open Sys2Proof

/-! ## Bin sets (R267) -/

structure BinSet where
  bcap  : Nat
  nreg  : Nat
  cbase : Nat
  bbase : Nat
  tbase : Nat
  deriving DecidableEq, Repr

def isPow2 (n lo hi : Nat) : Bool := lo ≤ n && n ≤ hi && 2 ^ n.log2 = n

def BinSet.decode (d : Nat) : BinSet :=
  { bcap := fld d 255 224, nreg := fld d 223 192, cbase := fld d 191 128, bbase := fld d 127 64, tbase := fld d 63 0 }

def BinSet.ok (b : BinSet) : Bool :=
  isPow2 b.bcap 8 65536 && 1 ≤ b.nreg && b.nreg ≤ 65536 && b.cbase % 4 = 0 && b.bbase % 128 = 0 && b.tbase % 2 ^ 18 = 0

def BinSet.countAt (b : BinSet) (g : Nat) : Nat := (b.cbase + 4 * g) % 2 ^ 64
def BinSet.slotAt (b : BinSet) (g i : Nat) : Nat := (b.bbase + 16 * (b.bcap * g + i)) % 2 ^ 64
def BinSet.target (b : BinSet) (g off : Nat) : Nat := (b.tbase + 2 ^ 18 * g + off) % 2 ^ 64

/-- A bin record. -/
structure BinRec where
  wide : Bool
  aop  : Nat
  off  : Nat
  val  : Nat
  deriving DecidableEq, Repr

def BinRec.decode (d : Nat) : BinRec :=
  { wide := fld d 86 86 = 1, aop := fld d 85 82, off := fld d 81 64, val := fld d 63 0 }

def BinRec.encode (r : BinRec) : Nat :=
  r.val % 2 ^ 64 + r.off % 2 ^ 18 * 2 ^ 64 + r.aop % 16 * 2 ^ 82 + (if r.wide then 2 ^ 86 else 0)

def BinRec.bytes (r : BinRec) : Nat := if r.wide then 8 else 4

/-- A record whose operation and alignment R268 and R270 allow; the engine writes no other. -/
def BinRec.op (r : BinRec) : Option AOp :=
  match aopOf r.aop with
  | .ok o => if r.off % r.bytes = 0 then some o else none
  | .error _ => none

/-! ## BINAPP and BINREPLAY before commit (R268, R269) -/

def Cmd.binning (c : Cmd) : Bool := match c.kind with | .binapp .. => true | .binreplay .. => true | _ => false

/-- Do two commands go to one binning engine (R315)? -/
def State.sameBinner (s : State) (a b : Cmd) : Bool :=
  a.binning && b.binning && a.partNo = b.partNo
    && s.binEngine (a.partNo) a.cluster = s.binEngine (b.partNo) b.cluster

/-- Entries of a class in the queue of the binning engine that serves a team: one for each BINAPP group and each BINREPLAY
(R269). DEDUCED, unsafe (log 57). -/
def State.binQueue (s : State) (t : TeamId) : Nat :=
  let j := s.job t.job
  (s.cmds.filter fun c =>
    c.binning && c.cls = j.card.cls && c.partNo = j.part
      && s.binEngine j.part c.cluster = s.binEngine j.part (s.team t).cluster).length

/-- Is a command of a wave still at another binning engine than the one that would take its next: where its team has moved to
another cluster? Its next waits for it before commit, as the wave's updates keep their order (R24, R272).
DEDUCED, unsafe (log 58). -/
def State.binElsewhere (s : State) (w : WaveId) : Bool :=
  let p := (s.jobOf w).part
  s.cmds.any fun c =>
    c.binning && !c.silent && c.wave = w && s.binEngine p c.cluster ≠ s.binEngine p (s.team w.team).cluster

def State.binDescExc (s : State) (r : Run) (sh : Shape) (l : Fin 32) : List (Fin 32 × Exc) :=
  let d := (s.engArg r sh 0 l).bits.toNat
  needs (d % 64 = 0) l (alignExc l d)

/-- Lanes whose update value is poisoned in the bytes that are used (R194). -/
def valuePoison (r : Run) (act : LaneMask) (n : Nat) (wide : Bool) : List (Fin 32 × Exc) :=
  (lanesOf act).flatMap fun l =>
    let v := r.spec[l].getN n
    needs (!(if wide then v.bad else v.poisonLow)) l (poisonAt l 0)

def binappBody (op : AOp) (wide : Bool) (n : Nat) (s : State) (r : Run) (sh : Shape) : Body :=
  let act := s.actors r sh
  let ls := lanesOf act
  let arg := s.engArg r sh
  if act = 0 then .done s r (.own fun s r' => s.goOnRun r')
  else
    match firstExc (ls.flatMap (s.binDescExc r sh) ++ s.engPoison r sh act [] ++ valuePoison r act n wide) with
    | some e => .fault s e
    | none =>
      if s.binQueue r.wave.team ≥ 64 || s.binElsewhere r.wave then .wait s
      else
        .done s r (.own fun s r' =>
          let (seq, s) := s.takeSeq r'.wave
          -- commit is a release to the engine's reads (R272)
          let (sig, s) := s.takeSig r'.wave act
          let recs := ls.map fun l => (l.val, (arg 0 l).bits, (arg 1 l).bits, (r.spec[l].getN n).bits)
          let id := s.nextCmd
          ((s.newCmd r'.wave act none seq r.pc (.binapp op wide recs)).modCmd id fun c => { c with sig := sig }).goOnRun r')

def execBinapp (op : AOp) (wide : Bool) (f : Eng) (s : State) : Host.Outcome State Fault Refusal :=
  execute s (.binapp op wide f) engTys (binappBody op wide ((f.n.map Fin.val).getD 0))

/-- Lanes with poison in a BINREPLAY's descriptor or staging address, or in the half of B that is the region (R194, R369). -/
def State.replayPoison (s : State) (r : Run) (sh : Shape) (act : LaneMask) (n : Nat) : List (Fin 32 × Exc) :=
  (lanesOf act).flatMap fun l =>
    needs (!((s.engArg r sh 0 l).bad || (s.engArg r sh 1 l).poisonLow || (r.spec[l].getN n).bad)) l (poisonAt l 0)

def binreplayBody (tok n : Nat) (s : State) (r : Run) (sh : Shape) : Body :=
  let act := s.actors r sh
  let ls := lanesOf act
  let stage := fun (l : Fin 32) => (r.spec[l].getN n).bits
  let arg := s.engArg r sh
  if act = 0 then .done s r (.own fun s r' => s.goOnRun r')
  else
    let excs := ls.flatMap fun l =>
      s.binDescExc r sh l ++ needs ((stage l).toNat % 2 ^ 18 = 0) l (alignExc l (stage l).toNat)
        ++ s.rangeExcs r l (stage l).toNat (2 ^ 18) .write
    match firstExc (excs ++ s.replayPoison r sh act n) with
    | some e => .fault s e
    | none =>
      if s.binQueue r.wave.team + ls.length > 64 || s.binElsewhere r.wave then .wait s
      else
        .done s r (.own fun s r' =>
          let (seq, s) := s.takeSeq r'.wave
          let s := ls.foldl
            (fun s l => s.newCmd r'.wave (laneBit l) (some tok) seq r.pc
              (.binreplay (arg 0 l).bits (low32 (arg 1 l).bits) (stage l))) s
          s.goOnRun r')

def execBinreplay (f : Eng) (s : State) : Host.Outcome State Fault Refusal :=
  execute s (.binreplay f) engTys (binreplayBody (f.t.reg.headD 0) ((f.n.map Fin.val).getD 0))

/-! ## Appending (R270, R275) -/

/-- Elements of a command that are neither done, dropped nor parked. -/
def Cmd.open_ (c : Cmd) (n : Nat) : List Nat :=
  (List.range n).filter fun i => !c.done.contains i && !c.drop.contains i && !c.parked.any fun p => p.element = i

def Cmd.elements (c : Cmd) : Nat := match c.kind with | .binapp _ _ recs => recs.length | _ => 0

/-- Has the engine started a command? It then runs it to its end. -/
def Cmd.inHand (c : Cmd) : Bool :=
  c.started.isSome || c.ticket.isSome || !c.parked.isEmpty || !c.done.isEmpty || !c.drop.isEmpty

def Cmd.isReplay (c : Cmd) : Bool := match c.kind with | .binreplay .. => true | _ => false

/-- Does a BINAPP accepted before a replay's start still owe a record to its region (R271)? DEDUCED, unsafe (log 58). -/
def State.owesRegion (s : State) (c : Cmd) (desc : Word) (g : Nat) (o : Cmd) : Bool :=
  !o.silent && o.id < c.started.getD s.nextCmd && s.sameBinner o c
    && o.asd = c.asd &&
    match o.kind with
    | .binapp _ _ recs =>
      ((List.range recs.length).filter fun i => !o.done.contains i && !o.drop.contains i).any fun i =>
        let r := recs.getD i (0, 0, 0, 0)
        r.2.1 = desc && r.2.2.1.toNat / 2 ^ 18 = g
    | _ => false

/-- Does a BINAPP go before a replay that has started: one that owes it a record, or one of its class that such a one may
not pass (R271, R272)? DEDUCED, unsafe (log 58). -/
def State.beforeReplay (s : State) (c o : Cmd) : Bool :=
  match c.kind with
  | .binreplay desc g _ =>
    c.started.isSome && !o.isReplay && s.cmds.any fun z => s.owesRegion c desc g z && z.cls = o.cls && o.id ≤ z.id
  | _ => false

/-- Of two commands in the queues, does the first go first: by class, then by age (R269)? -/
def Cmd.ahead (o c : Cmd) : Bool := o.cls < c.cls || (o.cls = c.cls && o.id < c.id)

/-- May the engine's state let a command go: no command in hand but itself, or a replay that waits for it (R269, R271)? -/
def State.mayBin (s : State) (c : Cmd) : Bool :=
  s.cmds.all fun o => o.id = c.id || !s.sameBinner o c || o.silent || !o.inHand || s.beforeReplay o c

/-- Is a command the one its binning engine runs: the one in hand, else the first of those that may go? A replay in hand
that waits for it is not before it. DEDUCED, unsafe (log 58). -/
def State.binTurn (s : State) (c : Cmd) : Bool :=
  c.ticket.isNone && s.mayBin c
    && (c.inHand || s.cmds.all fun o =>
      o.id = c.id || !s.sameBinner o c || o.silent || !s.mayBin o || !o.ahead c || s.beforeReplay o c)

/-- What an element comes to: a state, a fault to park it with, or nothing yet. -/
inductive Element where
  | ok (s : State)
  | park (e : XErr)
  | later

/-- The same, met after leaves were used (R170). -/
def Element.after (x : Element) (ms : List (Nat × Bool)) : Element :=
  match x with
  | .park e => .park (e.after ms)
  | x => x

/-- A no-return read-modify-write by a bank unit for an engine (R163). -/
def State.bankAtomic (s : State) (part hpa : Nat) (op : AOp) (n v : Nat) : State :=
  if s.isLocal hpa then
    let old := natLE (s.readPhys part hpa n)
    s.writeMem .other true part hpa (bytesLE n (atomicNew op (8 * n) old (v % 2 ^ (8 * n)) 0))
  else s

/-- The records of a bin, in bin order. -/
def State.binRecs (s : State) (c : Xctx) (b : BinSet) (g n : Nat) : Fetched := s.fetch c (b.slotAt g 0) (16 * n)

/-- Records as read, each with its poison (R194). -/
def recsOf (bs : List (Byte × Bool)) : List (BinRec × Bool) :=
  (List.range (bs.length / 16)).map fun i =>
    let r := (bs.drop (16 * i)).take 16
    (BinRec.decode (natLE (r.map fun b => b.1)), r.any fun b => b.2)

/-- Applies the records of a region in place; every target is reached before the first is written (R270). -/
def State.applyRecs (s : State) (c : Xctx) (b : BinSet) (g : Nat) : List (BinRec × Bool) → Except XErr State
  | [] => .ok s
  | (r, bad) :: rs =>
    match r.op with
    | none => s.applyRecs c b g rs
    | some op => do
      let (x, s) ← s.translate c (b.target g r.off) .write
      let s := s.bankAtomic c.part x.hpa op r.bytes r.val
      ((if bad then s.poisonLine c.part x.hpa else s).applyRecs c b g rs).mapError (XErr.after x.used)

/-- A full bin is flushed (R270): its count is 0 afterwards. -/
def State.flushBin (s : State) (c : Xctx) (b : BinSet) (g n : Nat) : Element :=
  match s.binRecs c b g n with
  | .later => .later
  | .stop e => .park e
  | .got bs t =>
    let read := s.usedOf c .read (b.slotAt g 0) (16 * n)
    match t.applyRecs c b g (recsOf bs) with
    | .error e => .park (e.after read)
    | .ok u =>
      match u.xput c (b.countAt g) (bytesLE 4 0) false with
      | .error e => .park (e.after (read ++ (recsOf bs).flatMap fun r => t.usedAt c .write (b.target g r.1.off)))
      | .ok (_, u) => .ok u

/-- Appends one record to its region's bin. -/
def State.appendRec (s : State) (c : Xctx) (b : BinSet) (g : Nat) (r : BinRec) (n : Nat) : Element :=
  match s.xput c (b.slotAt g n) (bytesLE 16 r.encode) false with
  | .error e => .park e
  | .ok (_, t) =>
    match t.xput c (b.countAt g) (bytesLE 4 (n + 1)) false with
    | .error e => .park (e.after (s.usedAt c .write (b.slotAt g n)))
    | .ok (_, t) => .ok t

/-- Appends the record of an element (R270): an offset outside the regions or not aligned is out of bounds (R275).
DEDUCED, unsafe (log 57). -/
def State.appendElem (s : State) (c : Xctx) (b : BinSet) (op : AOp) (wide : Bool) (off v : Word) : Element :=
  let r : BinRec := { wide := wide, aop := op.code, off := off.toNat % 2 ^ 18, val := if wide then v.toNat else low32 v }
  let g := off.toNat / 2 ^ 18
  if g ≥ b.nreg || off.toNat % r.bytes ≠ 0 then .park (XErr.page 0 off.toNat)
  else
    match s.fetch c (b.countAt g) 4 with
    | .later => .later
    | .stop e => .park e
    | .got bs t =>
      let n := natLE (bs.map fun x => x.1)
      (if n < b.bcap then t.appendRec c b g r n
       else
        match t.flushBin c b g n with
        | .ok t => t.appendRec c b g r 0
        | e => e).after (s.usedOf c .read (b.countAt g) 4)

/-- A command's bin-set descriptor. -/
def State.binDesc (s : State) (c : Xctx) (desc : Word) : Except GStop (BinSet × State) :=
  match s.fetch c desc.toNat 64 with
  | .stop e => .error (.fault e)
  | .later => .error .later
  | .got bs s =>
    let b := BinSet.decode (natLE (bs.map fun x => x.1))
    if b.ok then .ok (b, s) else .error (.code Code.illegal 0 desc.toNat false)

/-- The bin sets of records, in their order; an error has the state after the reads before it (R170). -/
def State.binDescs (s : State) (c : Xctx) : List (Nat × Word × Word × Word) → Except (GStop × State) (List BinSet × State)
  | [] => .ok ([], s)
  | r :: rs =>
    match s.binDesc c r.2.1 with
    | .error e => .error (e, s)
    | .ok (b, s) => do
      let (bs, s) ← s.binDescs c rs
      pure (b :: bs, s)

/-- Element i of a BINAPP. -/
def State.appendAt (s : State) (x : Xctx) (bs : List BinSet) (op : AOp) (wide : Bool) (recs : List (Nat × Word × Word × Word))
    (i : Nat) : Element :=
  let (_, _, off, v) := recs.getD i (0, 0, 0, 0)
  s.appendElem x (bs.getD i (BinSet.decode 0)) op wide off v

/-- Appends the open elements of a list that meet no fault, in ascending lane order; answers which. -/
def State.appendAll (s : State) (x : Xctx) (bs : List BinSet) (op : AOp) (wide : Bool)
    (recs : List (Nat × Word × Word × Word)) : List Nat → List Nat × State
  | [] => ([], s)
  | i :: is =>
    match s.appendAt x bs op wide recs i with
    | .ok s => let (d, s) := s.appendAll x bs op wide recs is; (i :: d, s)
    | _ => s.appendAll x bs op wide recs is

/-- What a BINAPP comes to now: its elements that meet no fault are appended, and it ends when none is left. -/
def State.binappWork (s : State) (id : Nat) : Worked :=
  match s.cmd? id with
  | some c =>
    match c.kind with
    | .binapp op wide recs =>
      if !s.binTurn c then .later
      else if (s.binEngine (c.partNo) c.cluster).isNone then .ok ((s.cmdReport c Code.illegal 0 0).endCmd c 0 0)
      else
        let x := c.ctx
        match s.binDescs (c.srcCtx) recs with
        | .error (.fault e, s) => .partly s e
        | .error (.later, _) => .later
        | .error (.code k i a _, s) => .ok ((s.cmdReport c k i a).endCmd c 0 0)
        | .ok (bs, s) =>
          let (d, s) := s.appendAll x bs op wide recs (c.open_ recs.length)
          let done := c.done ++ d
          if (List.range recs.length).all fun i => done.contains i || c.drop.contains i then .ok (s.endCmd c 0 0)
          else .ok (s.modCmd id fun c => { c with done := done })
    | _ => .later
  | none => .later

/-- DEDUCED, unsafe (log 10). -/
def execBinappAppend (cmd : Nat) (s : State) : Host.Outcome State Fault Refusal := (s.binappWork cmd).out s

/-- An element that meets a fault is parked with a record; the others of its command proceed (R275).
DEDUCED, unsafe (log 57). -/
def execIndexElementPark (cmd element : Nat) (s : State) : Host.Outcome State Fault Refusal :=
  match s.cmd? cmd with
  | none => .next s
  | some c =>
    match c.kind with
    | .binapp op wide recs =>
      let x := c.ctx
      if !s.binTurn c || !(c.open_ recs.length).contains element then .next s
      else
        match s.binDescs (c.srcCtx) recs with
        | .error _ => .next s
        | .ok (bs, s') =>
          match s'.appendAt x bs op wide recs element with
          | .park e => .next (s'.parkElement c element e)
          | _ => .next s
    | _ => .next s

/-! ## Replay (R271) -/

/-- Do all pages of a range lie in hall memory, or in GDDR 7? The walks of the check stand (R170).
DESIGN CHOICE, safe (log 53). -/
def State.allHall (s : State) (c : Xctx) (va n : Nat) (hall : Bool) : Except (XErr × State) (Bool × State) :=
  (pageStarts va n).foldlM
    (fun (ok, s) p =>
      match s.translate c p .write with
      | .error e => .error (e, s)
      | .ok (x, _) =>
        .ok (ok && s.isLocal x.hpa && (match s.region c.part x.hpa with
          | some (.hall _) => hall
          | some .gddr => !hall
          | _ => false), s.touch c p .read)) (true, s)

/-- A record applied to a region's bytes as ATOM would. -/
def applyToBytes (bs : List Byte) (r : BinRec) : List Byte :=
  match r.op with
  | none => bs
  | some op =>
    let n := r.bytes
    patch bs r.off (bytesLE n (atomicNew op (8 * n) (dataAt bs r.off n) (r.val % 2 ^ (8 * n)) 0))

/-- A range of whole lines cut into them, with its bytes and the poison of each line. -/
def wholeLines (va : Nat) (bs : List Byte) (bad : Nat → Bool) : List (Nat × List Byte × Bool) :=
  (List.range (bs.length / 128)).map fun i => (va + 128 * i, (bs.drop (128 * i)).take 128, bad i)

/-- Lines of a region that hold poison after a replay: those that held it, and those a poisoned record updates. -/
def replayBad (region : List (Byte × Bool)) (recs : List (BinRec × Bool)) (i : Nat) : Bool :=
  ((region.drop (128 * i)).take 128).any (fun v => v.2) || recs.any fun r => r.2 && r.1.op.isSome && r.1.off / 128 = i

/-- The region is read, the bin's records are applied in bin order, the region is written back and the count is 0; the
staging hall is left with unspecified bytes. DESIGN CHOICE, safe (log 53). -/
def State.replay (s : State) (c : Cmd) (b : BinSet) (g : Nat) (stage : Word) : Worked :=
  let x := c.ctx
  let free := (List.range (2 ^ 18)).map fun i => Config.freeByte s.tick 2 i
  (s.fetch x (b.countAt g) 4).bind fun cnt s =>
    (s.binRecs x b g (natLE (cnt.map fun v => v.1))).bind fun recs s =>
      (s.fetch x (b.target g 0) (2 ^ 18)).bind fun region s =>
        let rs := recsOf recs
        let new := (rs.map fun r => r.1).foldl applyToBytes (region.map fun v => v.1)
        match s.xputs x (wholeLines stage.toNat free (fun _ => false) ++ wholeLines (b.target g 0) new (replayBad region rs)
            ++ [(b.countAt g, bytesLE 4 0, false)]) 0 with
        | .error e => .stop e
        | .ok (sig, s) => .ok (s.endCmd c 0 sig)

/-- DEDUCED, unsafe (log 58). -/
def State.replayWork (s : State) (id : Nat) : Worked :=
  match s.cmd? id with
  | some c =>
    match c.kind with
    | .binreplay desc g stage =>
      if !s.binTurn c then .later
      else if c.started.isNone then .ok (s.modCmd id fun c => { c with started := some s.nextCmd })
      -- what was accepted before its start goes first
      else if s.cmds.any (s.owesRegion c desc g) then .later
      else if (s.binEngine (c.partNo) c.cluster).isNone then
        .ok ((s.cmdReport c Code.illegal 0 0).endCmd c (w64 Code.illegal) 0)
      else
        match s.binDesc (c.srcCtx) desc with
        | .error (.fault e) => .stop e
        | .error .later => .later
        | .error (.code k i a _) => .ok ((s.cmdReport c k i a).endCmd c (w64 k) 0)
        | .ok (b, s) =>
          if g ≥ b.nreg then .ok (s.endCmd c (w64 Code.illegal) 0)
          else
            match s.allHall (c.ctx) stage.toNat (2 ^ 18) true with
            | .error (e, s) => .partly s e
            | .ok (false, s) => .ok (s.endCmd c (w64 Code.prot) 0)
            | .ok (true, s) => s.replay c b g stage
    | _ => .later
  | none => .later

/-- DEDUCED, unsafe (log 10). -/
def execBinreplayComplete (cmd : Nat) (s : State) : Host.Outcome State Fault Refusal := (s.replayWork cmd).out s

/-! ## Work-lists (R273, R445). Ring indexes run modulo 2^32 and name the ring modulo its capacity (log 40). -/

structure WList where
  rsvd   : Nat
  drops  : Nat
  scount : Nat
  tail   : Nat
  head   : Nat
  bbits  : Nat
  scap   : Nat
  rcap   : Nat
  bmap   : Nat
  spill  : Nat
  ring   : Nat
  deriving DecidableEq, Repr

/-- DESIGN CHOICE, unsafe (log 40). -/
def WList.decode (d : Nat) : WList :=
  { rsvd := fld d 1023 576 + fld d 351 320 + fld d 127 0, drops := fld d 575 544, scount := fld d 543 512,
    tail := fld d 511 480, head := fld d 479 448, bbits := fld d 447 416, scap := fld d 415 384, rcap := fld d 383 352,
    bmap := fld d 319 256, spill := fld d 255 192, ring := fld d 191 128 }

/-- Items in the ring. -/
def WList.held (w : WList) : Nat := (w.tail + 2 ^ 32 - w.head) % 2 ^ 32

/-- Is a descriptor at an address well formed (R445)? -/
def State.wellFormed (s : State) (c : Xctx) (desc : Nat) (w : WList) : Except (XErr × State) (Bool × State) := do
  if !(w.rsvd = 0 && desc % 128 = 0 && w.ring % 128 = 0 && w.bmap % 128 = 0 && w.spill % 128 = 0
      && isPow2 w.rcap 256 65536 && w.scap % 32 = 0 && w.bbits % 1024 = 0) then pure (false, s)
  else do
    let (a, s) ← s.allHall c desc 128 true
    let (b, s) ← s.allHall c w.ring (4 * w.rcap) true
    let (d, s) ← s.allHall c w.bmap (w.bbits / 8) true
    let (e, s) ← s.allHall c w.spill (4 * w.scap) false
    pure (a && b && d && e, s)

/-- A list at work: the state, its descriptor and where it lies. Every page of it translates (R445). -/
structure WWork where
  s : State
  w : WList
  c : Xctx

def WWork.get (k : WWork) (va n : Nat) : Nat :=
  match k.s.fetch k.c va n with
  | .got bs _ => natLE (bs.map fun b => b.1)
  | _ => 0

def WWork.set (k : WWork) (va n v : Nat) : WWork :=
  match k.s.xput k.c va (bytesLE n v) false with
  | .ok (_, s) => { k with s := s }
  | .error _ => k

def WWork.ringAt (k : WWork) (i : Nat) : Nat := k.w.ring + 4 * (i % k.w.rcap)

/-- Is there room for an item? There is none once the ring and the spill area are both full (R273, R445).
DESIGN CHOICE, unsafe (log 40). -/
def WWork.room (k : WWork) : Bool := k.w.scount < k.w.scap || k.w.held < k.w.rcap

def WWork.toRing (k : WWork) (v : Nat) : WWork :=
  let k := k.set (k.ringAt k.w.tail) 4 v
  { k with w := { k.w with tail := (k.w.tail + 1) % 2 ^ 32 } }

/-- Appends an item to the ring, or behind the spilled items. DESIGN CHOICE, unsafe (log 40). -/
def WWork.append (k : WWork) (v : Nat) : WWork :=
  if k.w.scount = 0 && k.w.held < k.w.rcap then k.toRing v
  else
    let k := k.set (k.w.spill + 4 * k.w.scount) 4 v
    { k with w := { k.w with scount := k.w.scount + 1 } }

/-- Moves spilled items into the ring, in their order, until it is full or none is left.
DESIGN CHOICE, unsafe (log 40). -/
def WWork.refill (k : WWork) : WWork :=
  let n := min k.w.scount (k.w.rcap - k.w.held)
  let items := (List.range k.w.scount).map fun i => k.get (k.w.spill + 4 * i) 4
  let k := (items.take n).foldl (fun k v => k.toRing v) k
  let rest := items.drop n
  let k := (List.range rest.length).foldl (fun k i => k.set (k.w.spill + 4 * i) 4 (rest.getD i 0)) k
  { k with w := { k.w with scount := rest.length } }

/-- Appends an item, or drops it when ring and spill area are full. A full spill area over a ring that is not is first
moved on, so that only a push that finds both full drops its item (log 40). DESIGN CHOICE, unsafe (log 40). -/
def WWork.push (k : WWork) (v : Nat) : WWork :=
  if !k.room then { k with w := { k.w with drops := (k.w.drops + 1) % 2 ^ 32 } }
  else if k.w.scount ≠ 0 && k.w.scount ≥ k.w.scap then k.refill.append v
  else k.append v

/-- Takes the oldest item; the ring is refilled when it falls below half full. -/
def WWork.pop (k : WWork) : Option (Nat × WWork) :=
  let k := if k.w.held = 0 && k.w.scount > 0 then k.refill else k
  if k.w.held = 0 then none
  else
    let v := k.get (k.ringAt k.w.head) 4
    let k := { k with w := { k.w with head := (k.w.head + 1) % 2 ^ 32 } }
    some (v, if k.w.held < k.w.rcap / 2 && k.w.scount > 0 then k.refill else k)

/-- At most n items, oldest first. -/
def WWork.popN (k : WWork) : Nat → List Nat × WWork
  | 0 => ([], k)
  | n + 1 => match k.pop with
    | none => ([], k)
    | some (v, k) => let (vs, k) := k.popN n; (v :: vs, k)

/-- A key's result and effect (R445). -/
def WWork.insert (k : WWork) (key : Nat) : Nat × WWork :=
  if key ≥ k.w.bbits then (2, k)
  else
    let at_ := k.w.bmap + key / 8
    let old := k.get at_ 1
    if old / 2 ^ (key % 8) % 2 = 1 then (0, k)
    else if k.room then (1, (k.set at_ 1 (old + 2 ^ (key % 8))).push key)
    else (3, k.push key)

def WWork.insertAll (k : WWork) : List (Nat × W32) → List (Nat × Nat) × WWork
  | [] => ([], k)
  | (l, key) :: rest =>
    let (d, k) := k.insert key.toNat
    let (ds, k) := k.insertAll rest
    ((l, d) :: ds, k)

/-! ## Work-list instructions (R274, R444) -/

def Cmd.listAddr (c : Cmd) : Option Word :=
  match c.kind with
  | .wlinit d => some d
  | .wlpush d _ => some d
  | .wlins d _ _ => some d
  | .wlpopb d _ _ => some d
  | _ => none

/-- The shared form: checks of the lowest participating thread's descriptor and of each lane's item; then a command.
`waits` when the group's participating threads wait for it, `rel` when its commit releases. -/
def listBody (waits rel items : Bool) (d : Dst) (kind : Word → List (Nat × W32) → LaneMask → CmdKind) (s : State) (r : Run)
    (sh : Shape) : Body :=
  let act := s.actors r sh
  let l := lowestLane act
  let a := s.engArg r sh 0 l
  let item := s.engArg r sh 1
  let idle := fun (s : State) (r' : Run) => s.putIdle r'.wave (r'.group &&& ~~~act) d
  if act = 0 then .done s r (.own fun s r' => (idle s r').goOnRun r')
  else
    let excs := needs (a.bits.toNat % 128 = 0) l (alignExc l a.bits.toNat) ++ s.rangeExcs r l a.bits.toNat 128 .write
      ++ handlePoison a l
      ++ (if items then (lanesOf act).flatMap fun l => needs (!(item l).poisonLow) l (poisonAt l 0) else [])
    match firstExc excs with
    | some e => .fault s e
    | none =>
      .done s r (.own fun s r' =>
        let (seq, s) := s.takeSeq r'.wave
        let (sig, s) := if rel then s.takeSig r'.wave act else (0, s)
        let its := (lanesOf act).map fun l => (l.val, w32 (low32 (item l).bits))
        let id := s.nextCmd
        let s := (s.newCmd r'.wave act none seq r.pc (kind a.bits (if items then its else []) act)).modCmd id
          fun c => { c with sig := sig }
        let s := idle s r'
        if waits then (s.waitAt r'.wave act r.pc r'.pc .command).goOn r'.wave (r'.group &&& ~~~act) r'.pc
        else s.goOnRun r')

def execWlinit (f : Eng) (s : State) : Host.Outcome State Fault Refusal :=
  execute s (.wlinit f) engTys (listBody true false false .void fun a _ _ => .wlinit a)

def execWlpush (f : Eng) (s : State) : Host.Outcome State Fault Refusal :=
  execute s (.wlpush f) engTys (listBody false true true .void fun a its _ => .wlpush a its)

def execWlins (f : Eng) (s : State) : Host.Outcome State Fault Refusal :=
  execute s (.wlins f) engTys (listBody true false true f.t fun a its _ => .wlins a its f.t)

def execWlpopb (f : Eng) (s : State) : Host.Outcome State Fault Refusal :=
  execute s (.wlpopb f) engTys (listBody true false false f.t fun a _ m => .wlpopb a m f.t)

/-- Results of a command reach the lanes that wait for them, which go on; those of a saved team its image too (R204). -/
def State.listResults (s : State) (c : Cmd) (d : Dst) (v : Fin 32 → Word) : State :=
  let t := (lanesOf c.lanes).foldl
    (fun s l => if (s.thread c.wave l).status.live then s.setRegs c.wave l fun g => g.put d .b64 0xFF ⟨v l, 0⟩ else s) s
  ((t.endCmd c 0 0).resume c.wave c.lanes).reimaged s c.wave c.lanes

/-- The result of a pop for a lane: the i-th lowest of the group, of which n received an item. -/
def popWord (m : LaneMask) (vs : List Nat) (l : Fin 32) : Word :=
  let i := (lanesOf m).idxOf l
  w64 ((vs.getD i 0) + vs.length * 2 ^ 32 + (if i < vs.length then 2 ^ 48 else 0))

/-- Writes the state fields back, and the signature of the groups whose items the list holds (R274). -/
def WWork.close (k : WWork) (desc : Nat) (loc : Option Loc) (old : Option Sig) (sig : Sig) (rel : Bool) : State :=
  let k := k.set (desc + 56) 16 (k.w.head + k.w.tail * 2 ^ 32 + k.w.scount * 2 ^ 64 + k.w.drops * 2 ^ 96)
  match loc with
  | none => k.s
  | some loc =>
    match old, rel with
    | some o, _ => k.s.putSig loc (o ||| sig) false
    | none, true => k.s.putSig loc Sig.all false
    | none, false => k.s

/-- One group's operation, whole, at the descriptor's home bank. -/
def State.listRun (s : State) (c : Cmd) (desc : Word) : Worked :=
  let x := c.ctx
  let a := desc.toNat
  (s.fetch x a 128).bind fun bs s =>
    let w := WList.decode (natLE (bs.map fun b => b.1))
    match s.wellFormed x a w with
    | .error (e, s) => .partly s e
    | .ok (false, s) =>
      let s := s.cmdReport c Code.illegal 0 a
      match c.kind with
      | .wlins _ _ d => .ok (s.listResults c d fun _ => 4)
      | .wlpopb _ _ d => .ok (s.listResults c d fun _ => 0)
      | .wlinit _ => .ok ((s.endCmd c 0 0).resumeCmd c.wave c.lanes)
      | _ => .ok (s.endCmd c 0 0)
    | .ok (true, s) =>
      let loc := match s.translate x a .write with
        | .ok (l, _) => some (Loc.phys x.part l.hpa)
        | .error _ => none
      let old := loc.bind fun l => (s.sigs.find? fun e => e.home = s.home l).map fun e => e.sig
      let k : WWork := { s := s, w := w, c := x }
      match c.kind with
      | .wlinit _ =>
        let k := (List.range (w.bbits / 64)).foldl (fun k i => k.set (w.bmap + 8 * i) 8 0) k
        let k := { k with w := { k.w with head := 0, tail := 0, scount := 0, drops := 0 } }
        .ok (((k.close a loc (some 0) c.sig true).endCmd c 0 0).resumeCmd c.wave c.lanes)
      | .wlpush _ items =>
        let k := items.foldl (fun k i => k.push i.2.toNat) k
        .ok ((k.close a loc old c.sig true).endCmd c 0 0)
      | .wlins _ keys d =>
        let (ds, k) := k.insertAll keys
        let rel := ds.any fun p => p.2 = 1
        -- only an inserting WLINS releases; its threads have waited since its commit
        let (sig, s) := if rel then k.s.takeSig c.wave c.lanes else (0, k.s)
        .ok ((({ k with s := s } : WWork).close a loc old sig rel).listResults c d fun l => w64 ((getAssoc l.val ds).getD 0))
      | .wlpopb _ m d =>
        let (vs, k) := k.popN (lanesOf m).length
        let s := k.close a loc old 0 false
        let s := if vs.isEmpty then s else s.acquire (s.team c.wave.team).coreNo (old.getD Sig.all)
        .ok (s.listResults c d (popWord m vs))
      | _ => .later

def State.listWork (s : State) (id : Nat) : Worked :=
  match s.cmd? id with
  | some c =>
    match c.listAddr with
    | some d =>
      let first := s.cmds.all fun o => o.wave ≠ c.wave || o.listAddr ≠ some d || c.id ≤ o.id
      if c.ticket.isNone && first then s.listRun c d else .later
    | none => .later
  | none => .later

/-- DEDUCED, unsafe (log 10). -/
def execWorklistApply (cmd : Nat) (s : State) : Host.Outcome State Fault Refusal := (s.listWork cmd).out s

/-! ## HASHB (R277, R400) -/

/-- σ(p, e): true for −1. -/
def hashSign (seed p e : Nat) : Bool :=
  (mix (0x9E3779B97F4A7C15 * w64 (seed * 2 ^ 12 + 32 * p + e + 1))).getLsbD 63

/-- Bit p of a bucket. -/
def hashBit (seed p : Nat) (vs : List Fp) : Bool :=
  let ts := (List.range vs.length).map fun e =>
    let v := vs.getD e (.fin false 0 0)
    if hashSign seed p e then v.negate else v
  let pos := ts.any fun v => v.isInf && !v.neg
  let neg := ts.any fun v => v.isInf && v.neg
  if ts.any Fp.isNan || (pos && neg) then false
  else if pos || neg then neg
  else (ts.foldl (fun (a : Dy) v => a.add v.dy) { m := 0, e := 0 }).m < 0

def hashbBody (k : Fin 8) (proj : Fin 16) (n : Nat) (s : State) (r : Run) (sh : Shape) : Body :=
  let act := r.active sh
  let regs := (List.range (k.val + 1)).map (n + ·)
  let bad := maskWhere fun l =>
    LaneMask.has act l && ((s.engArg r sh 0 l).poisonLow || regs.any fun i => (r.spec[l].getN i).bad)
  if bad ≠ 0 then .fault s (poisonExc bad)
  else
    .done s
      (r.write (fun _ => 0) fun l g =>
        let vs := regs.flatMap fun i => (List.range 4).map fun j => Fmt.f16.decode (sub .b16 (r.spec[l].getN i).bits j)
        let seed := low32 (s.engArg r sh 0 l).bits
        let v := packN 1 ((List.range (proj.val + 1)).map fun p => if hashBit seed p vs then 1 else 0)
        g.putThread sh.dst (LaneMask.has act l) ⟨w64 v, 0⟩) .goOn

def execHashb (kin : Fin 8) (proj : Fin 16) (f : Eng) (s : State) : Host.Outcome State Fault Refusal :=
  execute s (.hashb kin proj f) [tyW64] (hashbBody kin proj ((f.n.map Fin.val).getD 0))

end Sys2Proof.Machine
end

