-- ==== Sys2Proof/Machine/Queues.lean ====
section
/-!
DEFINITION. Job cards and their checks (R28, R278, R279), queue descriptors, hardware slots and the pending bitmap (R281
to R286), dependence counters (R287), and ENQ, DEPDEC and DEAL (R283, R290, R382, R383, R386).
-/

namespace Sys2Proof.Machine

open Sys2Proof

/-! ## Cards (R278) -/

def Card.decode (d : Nat) : Card :=
  { handler := w64 (fld d 767 704), early := w64 (fld d 703 640), signal := fld d 639 624, wait := fld d 623 608,
    cmin := fld d 607 576, cohm1 := fld d 575 552, cls := fld d 548 547, cohort := fld d 546 543,
    scratch := fld d 542 524, named := fld d 523 518, waves := fld d 517 512,
    slots := Vector.ofFn fun k : Fin 8 => w32 (fld d (256 + 32 * k.val + 31) (256 + 32 * k.val)),
    widths := Vector.ofFn fun k : Fin 6 => fld d (192 + 7 * k.val + 6) (192 + 7 * k.val),
    nrec := w32 (fld d 191 160), recSize := w32 (fld d 159 128), args := w64 (fld d 127 64), entry := w64 (fld d 63 0) }

/-- No reserved bit of a card is set. -/
def cardReservedOk (d : Nat) : Bool := fld d 1023 768 = 0 && fld d 551 549 = 0 && fld d 255 234 = 0

def Card.widthAbove (c : Card) (k : Nat) : Nat := ((c.widths.toList.drop k).foldl (· + ·) 0)

/-- Fields in range, R73 and R135, and R28 for a highest cohort index (R279). -/
def Card.fieldsOk (c : Card) (maxCohort : Nat) : Bool :=
  1 ≤ c.cohort && c.cohort ≤ 12 && c.scratch ≤ 262144 && 1 ≤ c.named && c.named ≤ 32 && 1 ≤ c.waves && c.waves ≤ 32
    && c.widths.toList.all (fun w => w ≤ 64) && c.widthAbove 0 ≤ 64 && c.slots.toList.all slotValid
    && c.entry.toNat % 128 = 0 && c.early.toNat % 128 = 0
    && 32 * c.waves - 1 < 2 ^ c.widths[0] && c.cohort - 1 < 2 ^ c.widths[1] && maxCohort < 2 ^ c.widthAbove 2

/-- Is a job card accepted (R279)? -/
def cardOk (d : Nat) (ccount : Nat) : Bool :=
  let c := Card.decode d
  cardReservedOk d && c.fieldsOk c.cohm1 && c.wait ≤ ccount && c.signal ≤ ccount

/-- The work identifier of a thread (R28). -/
def Card.wid (c : Card) (thread team cohort : Nat) : Word :=
  w64 (thread + team * 2 ^ c.widths[0] + cohort * 2 ^ (c.widths[0] + c.widths[1]))

/-! ## Queue descriptors (R282) -/

structure QDesc where
  cpl    : Nat
  ring   : Nat
  asd    : Nat
  head   : Nat
  tail   : Nat
  log2   : Nat
  qclass : Nat
  np     : Bool
  host   : Bool
  en     : Bool
  draw   : Bool
  deriving DecidableEq, Repr

def QDesc.decode (d : Nat) : QDesc :=
  { cpl := fld d 511 448, ring := fld d 447 384, asd := fld d 383 320, head := fld d 319 288, tail := fld d 287 256,
    log2 := fld d 255 252, qclass := fld d 251 250, np := fld d 249 249 = 1, host := fld d 248 248 = 1,
    en := fld d 247 247 = 1, draw := fld d 246 246 = 1 }

def QDesc.empty (q : QDesc) : Bool := q.head = q.tail
def QDesc.count (q : QDesc) : Nat := (q.tail + 2 ^ 32 - q.head) % 2 ^ 32

/-- Virtual address of a card of the ring. -/
def QDesc.cardAt (q : QDesc) (i : Nat) : Nat := (q.ring + 128 * (i % 2 ^ q.log2)) % 2 ^ 64

def qtBase (r : VfRegs) : Nat := bits r.qtbase 63 12 * 4096

def State.qdescAt (s : State) (vf queue : Nat) : Nat := qtBase (s.vf vf) + 64 * queue

def State.qdesc (s : State) (vf queue : Nat) : QDesc :=
  QDesc.decode (natLE (s.readOwn (s.vf vf).partition (s.qdescAt vf queue) 64))

/-- The device writes TAIL, or HEAD, of a descriptor. -/
def State.putTail (s : State) (vf queue v : Nat) : State :=
  s.writePhys (s.vf vf).partition (s.qdescAt vf queue + 32) (bytesLE 4 v)
def State.putHead (s : State) (vf queue v : Nat) : State :=
  s.writePhys (s.vf vf).partition (s.qdescAt vf queue + 36) (bytesLE 4 v)

def State.queueAsd (s : State) (vf : Nat) (q : QDesc) : Asd := s.readAsd (s.vf vf).partition q.asd

/-- Accesses of the device through a queue's address space. -/
def State.queueCtx (s : State) (vf : Nat) (q : QDesc) : Xctx :=
  { part := (s.vf vf).partition, cluster := 0, core := none, asd := s.queueAsd vf q, sys := false }

/-! ## Hardware slots (R285, R286) -/

def hardwareSlots : Nat := 4096

def State.pendAt (s : State) (vf queue : Nat) : Nat := qtBase (s.vf vf) + 0x40000 + queue / 8

def State.pendBit (s : State) (vf queue : Nat) : Bool :=
  (natLE (s.readOwn (s.vf vf).partition (s.pendAt vf queue) 1)) / 2 ^ (queue % 8) % 2 = 1

def State.setPend (s : State) (vf queue : Nat) (b : Bool) : State :=
  let old := natLE (s.readOwn (s.vf vf).partition (s.pendAt vf queue) 1)
  let bit := 2 ^ (queue % 8)
  let new := if s.pendBit vf queue = b then old else if b then old + bit else old - bit
  s.writePhys (s.vf vf).partition (s.pendAt vf queue) (bytesLE 1 new)

def State.mapped (s : State) (vf queue : Nat) : Bool := s.slots.any fun m => m.vf = vf && m.queue = queue

def State.addSlot (s : State) (part vf queue : Nat) : State :=
  { s with slots := s.slots ++ [{ part := part, vf := vf, queue := queue, since := s.now }] }

/-- The mapped queue that gives its slot up: NP = 0, a class not below the taker's, the highest such class, and the one
mapped longest. -/
def State.slotVictim (s : State) (part cls : Nat) : Option SlotMap :=
  let ok := s.slots.filter fun m =>
    m.part = part && !(s.qdesc m.vf m.queue).np && (s.qdesc m.vf m.queue).qclass ≥ cls
  match ok with
  | [] => none
  | m :: ms => some (ms.foldl
      (fun (a b : SlotMap) => if (s.qdesc b.vf b.queue).qclass > (s.qdesc a.vf a.queue).qclass then b else a) m)

/-- A non-empty enabled queue seeks a slot; where none can be mapped it is pending, and stays so until it is mapped
(R285, R286). -/
def State.wantSlot (s : State) (vf queue : Nat) : State :=
  let q := s.qdesc vf queue
  let r := s.vf vf
  let part := r.partition
  if q.empty || !q.en || !r.enabled || s.mapped vf queue || s.pendBit vf queue then s
  else if (s.slots.filter fun m => m.part = part).length < hardwareSlots then s.addSlot part vf queue
  else
    match s.slotVictim part q.qclass with
    | some m =>
      (({ s with slots := s.slots.erase m }).setPend m.vf m.queue true).addSlot part vf queue
    | none =>
      let s := s.setPend vf queue true
      (s.setVf vf { s.vf vf with pnovf := min 4095 ((s.vf vf).pnovf + 1) }).irq vf 2

/-- Pending queues of a partition. -/
def State.pendingQueues (s : State) (part : Nat) : List (Nat × Nat) :=
  ((List.range 128).filter fun v => (s.vf v).enabled && (s.vf v).partition = part).flatMap fun v =>
    ((List.range (s.vf v).qcount).filter fun q => s.pendBit v q).map fun q => (v, q)

/-- A free slot goes to the pending queue of lowest class; ties go round robin over the functions, then by number. -/
def State.giveSlot (s : State) (part : Nat) : State :=
  if (s.slots.filter fun m => m.part = part).length ≥ hardwareSlots then s
  else
    let key := fun (p : Nat × Nat) =>
      ((s.qdesc p.1 p.2).qclass * 128 + (p.1 + 127 - s.lastVf) % 128) * 4096 + p.2
    match sortOn key (s.pendingQueues part) with
    | [] => s
    | (v, q) :: _ => { (s.setPend v q false).addSlot part v q with lastVf := v }

/-- A queue that has become empty releases its slot. -/
def State.releaseSlot (s : State) (vf queue : Nat) : State :=
  if s.mapped vf queue && (s.qdesc vf queue).empty then
    ({ s with slots := s.slots.filter fun m => !(m.vf = vf && m.queue = queue) }).giveSlot (s.vf vf).partition
  else s

/-! ## Dependence counters (R287) -/

def State.counter (s : State) (part n : Nat) : Nat :=
  match s.counters.find? fun c => c.1 = part && c.2.1 = n with
  | some c => c.2.2.toNat
  | none => 0

def State.setCounter (s : State) (part n v : Nat) : State :=
  let rest := s.counters.filter fun c => !(c.1 = part && c.2.1 = n)
  { s with counters := if v = 0 then rest else rest ++ [(part, n, w32 v)] }

/-- The hardware counter of a function's counter c, 1 to CCOUNT (R281). -/
def VfRegs.hwCounter (r : VfRegs) (c : Nat) : Nat := r.cfirst + c - 1

def State.decCounter (s : State) (vf c v : Nat) : State :=
  let r := s.vf vf
  if c = 0 || c > r.ccount then s
  else s.setCounter r.partition (r.hwCounter c) (s.counter r.partition (r.hwCounter c) - v)

/-- Is a wait counter 0 or none? One above CCOUNT names no counter. -/
def State.waitDone (s : State) (vf c : Nat) : Bool :=
  let r := s.vf vf
  c = 0 || c > r.ccount || s.counter r.partition (r.hwCounter c) = 0

def counterArg (v : Word) : Nat := bits v 15 0

def depdecBody (set : Bool) (s : State) (r : Run) (sh : Shape) : Body :=
  let act := s.actors r sh
  let vf := (s.jobOf r.wave).vf
  let num := fun (l : Fin 32) => counterArg (s.engArg r sh 0 l).bits
  let arg := s.engArg r sh
  if act = 0 then .done s r (.own fun s r' => s.goOnRun r')
  else
    let excs := (lanesOf act).flatMap fun l =>
      needs (1 ≤ num l && num l ≤ (s.vf vf).ccount) l (Exc.bound (w64 (num l)) l)
        ++ needs (!(s.engArg r sh 0 l).poisonLow && !(s.engArg r sh 1 l).poisonLow) l (poisonAt l 0)
    match firstExc excs with
    | some e => .fault s e
    | none =>
      .done s r (.own fun s r' =>
        let (_, s) := s.takeSeq r'.wave
        let (_, s) := if set then (0, s) else s.takeSig r'.wave act
        let s := (lanesOf act).foldl
          (fun s l =>
            let v := low32 (arg 1 l).bits
            if set then s.setCounter (s.vf vf).partition ((s.vf vf).hwCounter (num l)) v else s.decCounter vf (num l) v) s
        s.goOnRun r')

def execDepdec (set : Bool) (f : Eng) (s : State) : Host.Outcome State Fault Refusal :=
  execute s (.depdec set f) engTys (depdecBody set)

/-! ## DEAL (R290, R382) -/

/-- Teams of a job that were admitted and have not ended, at least 1. -/
def State.dealTeams (s : State) (job : Nat) : Nat :=
  max 1 (s.teams.filter fun t => t.id.job = job && t.place ≠ .ended).length

/-- The size of the next chunk. -/
def dealSize (cmin rem teams : Nat) : Nat :=
  if rem = 0 then 0 else min rem (max (max cmin 1) (ceilDiv rem (2 * teams)))

def dealBody (d : Dst) (s : State) (r : Run) (sh : Shape) : Body :=
  let act := s.actors r sh
  let j := s.jobOf r.wave
  let n := j.nextRec
  let size := dealSize j.card.cmin (j.card.nrec.toNat - n) (s.dealTeams j.id)
  .done s r (.own fun s r' =>
    let s := s.putIdle r'.wave (r'.group &&& ~~~act) d
    if act = 0 then s.goOnRun r'
    else
      let s := s.modJob j.id fun j => { j with nextRec := n + size }
      let s := (lanesOf act).foldl
        (fun s l => s.setRegs r'.wave l fun g => g.put d .b64 0xFF ⟨w64 (n + size * 2 ^ 32), 0⟩) s
      s.goOnRun r')

def execDeal (f : Eng) (s : State) : Host.Outcome State Fault Refusal := execute s (.deal f) [] (dealBody f.t)

/-! ## ENQ (R283, R386) -/

def enqBody (d : Dst) (s : State) (r : Run) (sh : Shape) : Body :=
  let act := s.actors r sh
  let ls := lanesOf act
  let arg := s.engArg r sh
  let addr := fun (l : Fin 32) => (arg 1 l).bits
  if act = 0 then .done s r (.own fun s r' => (s.putIdle r'.wave r'.group d).goOnRun r')
  else
    let excs := ls.flatMap fun l =>
      needs ((addr l).toNat % 128 = 0) l (alignExc l (addr l).toNat)
        ++ needs (!(s.engArg r sh 0 l).poisonLow && !(s.engArg r sh 1 l).bad) l (poisonAt l 0)
    match firstExc excs with
    | some e => .fault s e
    | none =>
      .done s r (.own fun s r' =>
        let (seq, s) := s.takeSeq r'.wave
        let (_, s) := s.takeSig r'.wave act
        let cards := ls.map fun l => (l.val, bits (arg 0 l).bits 11 0, addr l)
        let s := s.newCmd r'.wave act none seq r.pc (.enq cards d)
        let s := s.putIdle r'.wave (r'.group &&& ~~~act) d
        (s.waitAt r'.wave act r.pc r'.pc .command).goOn r'.wave (r'.group &&& ~~~act) r'.pc)

def execEnq (f : Eng) (s : State) : Host.Outcome State Fault Refusal := execute s (.enq f) engTys (enqBody f.t)

/-- A card's `wait` and `signal`, where a job card or a draw card has them (R278, R296). -/
def cardCounters (draw : Bool) (d : Nat) : Nat × Nat :=
  if draw then (fld d 175 160, fld d 191 176) else (fld d 623 608, fld d 639 624)

/-- One thread's ENQ: its status, or none while another device has not answered. -/
def State.enqOne (s : State) (c : Cmd) (queue : Nat) (addr : Word) : Option (Nat × State) :=
  let vf := c.vf
  let r := s.vf vf
  let q := s.qdesc vf queue
  if queue ≥ r.qcount then some (2, s)
  else if !q.en || q.host then some (3, s)
  else
    match s.fetch (c.srcCtx) addr.toNat 128 with
    | .later => none
    | .stop e => some (4, s.cmdReport c e.code e.sub e.addr)
    | .got bs s =>
      let (w, g) := cardCounters q.draw (natLE (bs.map fun b => b.1))
      if w > r.ccount || g > r.ccount then some (2, s)
      else if q.count = 2 ^ q.log2 then some (1, s)
      else
        match s.xput (s.queueCtx vf q) (q.cardAt q.tail) (bs.map fun b => b.1) (bs.any fun b => b.2) with
        | .error e => some (4, s.cmdReport c e.code e.sub e.addr)
        | .ok (_, s) => some (0, (s.putTail vf queue ((q.tail + 1) % 2 ^ 32)).wantSlot vf queue)

/-- The threads' ENQs in ascending lane order. -/
def State.enqAll (s : State) (c : Cmd) : List (Nat × Nat × Word) → Option (List (Nat × Nat) × State)
  | [] => some ([], s)
  | (l, q, a) :: rest =>
    match s.enqOne c q a with
    | none => none
    | some (v, s) =>
      match s.enqAll c rest with
      | none => none
      | some (vs, s) => some ((l, v) :: vs, s)

/-- The cards are read, each status is decided and written, and the threads go on (R283). ENQs of one wave are taken in
their program order (R189). -/
def execEnqComplete (cmd : Nat) (s : State) : Host.Outcome State Fault Refusal :=
  match s.cmd? cmd with
  | some c =>
    match c.kind with
    | .enq cards d =>
      match s.enqAll c cards with
      | none => .next s
      | some (vs, s) => .next (s.listResults c d fun l => w64 ((getAssoc l.val vs).getD 0)).settle
    | _ => .next s
  | none => .next s

end Sys2Proof.Machine
end

