-- ==== Sys2Proof/Machine/Sched.lean ====
section
/-!
DEFINITION. The scheduler (R278 to R280, R284, R288, R289, R291 to R294, R201, R204): launches, admission, residence,
parking, swapping, pre-emption, restoration and completion; and what a draw's stages launch (R297, R299, R301, R302).
-/

namespace Sys2Proof.Machine

open Sys2Proof

/-! ## Draw cards and the threads of a stage (R296, R297, R301) -/

structure DrawCard where
  targets : Nat
  pstage  : Nat
  vstage  : Nat
  far     : Nat
  near    : Nat
  vph     : Nat
  vpw     : Nat
  vpy     : Nat
  vpx     : Nat
  index   : Nat
  first   : Nat
  icount  : Nat
  vcount  : Nat
  pstate  : Nat
  signal  : Nat
  wait    : Nat
  apairs  : Nat
  cull    : Nat
  cw      : Bool
  topo    : Nat
  cls     : Nat
  deriving DecidableEq, Repr

def DrawCard.decode (d : Nat) : DrawCard :=
  { targets := fld d 703 640, pstage := fld d 639 576, vstage := fld d 575 512, far := fld d 511 480, near := fld d 479 448,
    vph := fld d 447 432, vpw := fld d 431 416, vpy := fld d 415 400, vpx := fld d 399 384, index := fld d 383 320,
    first := fld d 319 288, icount := fld d 287 256, vcount := fld d 255 224, pstate := fld d 223 192,
    signal := fld d 191 176, wait := fld d 175 160, apairs := fld d 138 136, cull := fld d 135 134, cw := fld d 133 133 = 1,
    topo := fld d 132 131, cls := fld d 130 129 }

def Draw.desc (d : Draw) : DrawCard := DrawCard.decode d.card.toNat

def State.draw? (s : State) (id : Nat) : Option Draw := s.draws.find? fun d => d.id = id
def State.modDraw (s : State) (id : Nat) (f : Draw → Draw) : State :=
  { s with draws := s.draws.map fun (d : Draw) => if d.id = id then f d else d }

/-- What the lanes of a wave start with. -/
def blankSeed (draw : Nat) : Seed :=
  { frag := { draw := draw, prim := 0, x := 0, y := 0, depth := 0 }, n := [], covered := true }

/-- The pair of a vertex thread: its vertex index and its instance (R297, R301). -/
def Draw.vertexSeed (d : Draw) (g : Nat) : Option Seed :=
  let c := d.desc
  if g ≥ c.vcount * c.icount then none
  else
    some { frag := { draw := d.id, prim := g, x := 0, y := 0, depth := 0 },
           n := [d.verts.getD (g % c.vcount) 0, w64 (g / c.vcount)], covered := true }

/-- The waves of a team at launch: none for the lanes of a plain job's team, which all hold threads alike. -/
def State.teamSeeds (s : State) (j : Job) (cohort : Nat) : Option (List (List (Option Seed)) × List Byte) :=
  match j.draw with
  | none => none
  | some (id, vertex) =>
    match s.draw? id with
    | none => none
    | some d =>
      if vertex then
        some ((List.range j.card.waves).map fun w =>
          (List.range 32).map fun l => d.vertexSeed (32 * j.card.waves * cohort + 32 * w + l), [])
      else
        match d.formed[cohort]? with
        | some t => some (t.waves, t.attrs)
        | none => some ([], [])

/-- Cohorts a job launches: those of its card, or the pixel teams filled so far. -/
def State.cohortCount (s : State) (j : Job) : Nat :=
  match j.draw with
  | some (id, false) => match s.draw? id with
    | some d => d.formed.length
    | none => 0
  | _ => j.card.cohm1 + 1

/-! ## New teams (R22, R28, R51, R151, R301) -/

def seedThread (t : Thread) (x : Seed) (stage : Bool) : Thread :=
  let regs := (List.range x.n.length).foldl (fun (g : Regs) k => g.setN k ⟨x.n.getD k 0, 0⟩) t.regs
  { t with
    regs := { regs with m := if stage && x.covered then regs.m.set 1 1 else regs.m },
    helper := !x.covered, frag := if x.covered then some x.frag else none }

/-- A thread of a new wave. -/
def newThread (c : Card) (wave lane team cohort now : Nat) (x : Option Seed) (pixel : Bool) : Thread :=
  let t := Thread.launch c.entry (c.wid (32 * wave + lane) team cohort) now
  match x with
  | none => t
  | some x => seedThread t x pixel

def newWave (c : Card) (wave team cohort now : Nat) (seeds : Option (List (Option Seed))) (pixel : Bool) : Wave :=
  { Wave.blank with
    idx := wave, uid := wave,
    lanes := Vector.ofFn fun l : Fin 32 =>
      match seeds with
      | none => newThread c wave l.val team cohort now none false
      | some xs => match xs.getD l.val none with
        | some x => newThread c wave l.val team cohort now (some x) pixel
        | none => Thread.blank }

/-- A team at its first admission. -/
def State.newTeam (s : State) (j : Job) (cohort i cluster core : Nat) : Team :=
  let c := j.card
  let seeds := s.teamSeeds j cohort
  let pixel := match j.draw with | some (_, v) => !v | none => false
  let size := roundUp c.scratch 1024
  let attrs := match seeds with | some (_, a) => a | none => []
  { Team.new ⟨j.id, cohort * c.cohort + i⟩ with
    cohort := cohort, f1 := i, cluster := cluster, core := core, nextUid := c.waves, scrSize := size,
    scr := (Memory.mk []).writeL 0 attrs, since := s.now,
    stage := j.draw.map fun d => if d.2 then .vertex d.1 else .pixel d.1,
    waves := (List.range c.waves).map fun w =>
      newWave c w i cohort s.now (seeds.map fun x => x.1.getD w []) pixel }

/-! ## Residence (R22, R291, R292) -/

/-- The live waves of a team that hold no slot. -/
def Team.unseated (t : Team) : List WaveId :=
  (t.waves.filter fun v => v.isLive && v.slot.isNone).map fun v => { team := t.id, wave := v.idx, uid := v.uid }

/-- Those of a team take slots, as far as there are any. -/
def State.seatTeam (s : State) (t : TeamId) : State := (s.team t).unseated.foldl State.seatWave s

/-- The teams of a cohort are resident together, with a guard where they are restored (R22, R34): each with an unexited
thread has a slot, first of all for its lowest wave, and their images fit (R203). None where that cannot be. -/
def State.seatCohort (s : State) (job cohort : Nat) (guard : Bool) : Option State :=
  let ids := (s.cohortTeams job cohort).map fun t => t.id
  let s := ids.foldl
    (fun s t => s.modTeam t fun u =>
      { u with place := .resident, guard := if guard then s.now + 48000 else u.guard }) s
  let s := ids.foldl
    (fun s t => if (s.team t).hasSlot then s else ((s.team t).unseated.take 1).foldl State.seatWave s) s
  let fit := ids.all fun t =>
    (!(s.team t).isLive || (s.team t).hasSlot) && s.imagesFit (s.job job).part (s.team t).cluster
  if fit then some (ids.foldl State.seatTeam s) else none

/-- At its admission a cohort is resident, or, where one of its teams finds no slot, parked (R154, R292). -/
def State.settleCohort (s : State) (job cohort : Nat) (guard : Bool) : State :=
  (s.seatCohort job cohort guard).getD
    ((s.cohortTeams job cohort).foldl (fun s t => s.modTeam t.id fun u => { u with place := .parked }) s)

/-- No team of a cohort is within its guard: the scheduler may take slots from it (R34). DEDUCED, unsafe (log 42). -/
def State.unguarded (s : State) (job cohort : Nat) : Bool := (s.cohortTeams job cohort).all fun t => t.guard ≤ s.now

/-! ## Room (R203, R291) -/

def coreScratch : Nat := 262144

/-- Scratchpad bytes of a core that are taken; a parked team's lie in its image (R203, R292). -/
def State.scratchUsed (s : State) (core : Nat) : Nat :=
  ((s.teams.filter fun t =>
      t.coreNo = core && (t.place = .resident || (t.place = .ended && t.scrState ≠ .released))).map
    fun t => t.scrSize).foldl (· + ·) 0

/-- Bytes that the image of a team could take at its launch: its queues hold 16 entries each. DEDUCED, unsafe (log 59). -/
def freshImage (c : Card) : Nat :=
  let team := max 512 (roundUp (264 + 264 * 64 + 128 * (if c.handler ≠ 0 then 32 * c.waves else 0)) 128)
  roundUp (waveAt team c.named c.waves + roundUp c.scratch 1024) 128

/-- A cohort that waits to be admitted. -/
structure Waiting where
  job    : Nat
  cohort : Nat
  cls    : Nat
  since  : Nat
  fresh  : Bool
  deriving DecidableEq, Repr

/-- What each team of a waiting cohort needs: waves, scratchpad bytes. -/
def State.needs? (s : State) (w : Waiting) : List (Nat × Nat) :=
  let c := (s.job w.job).card
  if w.fresh then List.replicate c.cohort (c.waves, roundUp c.scratch 1024)
  else (s.cohortTeams w.job w.cohort).map fun t => ((t.waves.filter Wave.isLive).length, t.scrSize)

def State.coreFits (s : State) (cluster core : Nat) (need : Nat × Nat) : Bool :=
  let k := 12 * cluster + core
  s.admittedWaves k + need.1 ≤ 64 && s.scratchUsed k + need.2 ≤ coreScratch

/-- Do the images of a cohort's teams fit beside the others (R203, R291)? -/
def State.roomFits (s : State) (w : Waiting) (cluster : Nat) : Bool :=
  let j := s.job w.job
  let more := if w.fresh then List.replicate j.card.cohort (freshImage j.card)
    else (s.cohortTeams w.job w.cohort).map fun t => s.imageBound t t.allWaves
  s.imageUsed cluster + more.foldl (· + ·) 0 ≤ s.imageEnd j.part cluster

/-- The cluster a waiting cohort left, or, of one that has not launched, the one it would go to. -/
def State.leftBy (s : State) (w : Waiting) (cluster : Nat) : Nat :=
  if w.fresh then cluster else ((s.cohortTeams w.job w.cohort).head?.map fun t => t.cluster).getD cluster

/-- May a waiting cohort go to a cluster at all: one of its partition's; while its job holds a context on the cluster it
left, that one; with a context saved there, one that has a free context and on which its job holds none (R234, R292).
DEDUCED, unsafe (log 59). -/
def State.mayGo (s : State) (w : Waiting) (cluster : Nat) : Bool :=
  let left := s.leftBy w cluster
  (s.part (s.job w.job).part).clusters.contains cluster
    && ((s.ctxOf left w.job).isNone || left = cluster)
    && (!s.ctxSaved w.job left || ((s.ctxOf cluster w.job).isNone && (s.freeCtx cluster).isSome))

/-- Does a choice of cores fit (R291)? -/
def State.coresFit (s : State) (w : Waiting) (cluster : Nat) (cores : List Nat) : Bool :=
  let ns := s.needs? w
  cores.length = ns.length && cores.eraseDups.length = cores.length
    && (List.zip cores ns).all (fun p => p.1 < 12 && s.coreFits cluster p.1 p.2)
    && s.roomFits w cluster

/-- Cores for a cohort by first fit, in an order that starts at a free number (the spec leaves the choice open). -/
def State.pickCoresGo (s : State) (cluster : Nat) : List (Nat × Nat) → List Nat → Option (List Nat)
  | [], _ => some []
  | n :: ns, cores =>
    match cores.find? fun c => s.coreFits cluster c n with
    | none => none
    | some c => (s.pickCoresGo cluster ns (cores.erase c)).map fun cs => c :: cs

/-- DESIGN CHOICE, safe (log 54); DEDUCED, unsafe (log 59). -/
def State.pickCores (s : State) (w : Waiting) (cluster : Nat) : Option (List Nat) :=
  let order := (List.range 12).map fun i => (i + s.pickNo 9 cluster) % 12
  if s.mayGo w cluster && s.roomFits w cluster then s.pickCoresGo cluster (s.needs? w) order else none

/-- The cohorts that wait: a job's next one, and those swapped out (R292). DEDUCED, unsafe (log 59). -/
def State.waitingCohorts (s : State) : List Waiting :=
  let fresh := (s.jobs.filter fun j => !j.rejected && !j.completed && j.nextCohort < s.cohortCount j).map fun j =>
    ({ job := j.id, cohort := j.nextCohort, cls := j.card.cls, since := j.launched, fresh := true } : Waiting)
  let out := (s.teams.filter fun t => t.place = .swapped).map fun t => (t.id.job, t.cohort, t.since)
  fresh ++ ((out.eraseDups).map fun (j, k, since) =>
    ({ job := j, cohort := k, cls := (s.job j).card.cls, since := since, fresh := false } : Waiting)).eraseDups

/-! ## Admission and restoration (R204, R291, R292) -/

/-- Puts the teams of a cohort on cores of a cluster: new teams at first admission, else their images restored. -/
def State.takeIn (s : State) (w : Waiting) (cluster : Nat) (cores : List Nat) : State :=
  let j := s.job w.job
  let left := s.leftBy w cluster
  let s := if s.ctxSaved w.job left then s.restoreCtx w.job left cluster else s
  let s :=
    if w.fresh then
      let new := (List.range j.card.cohort).map fun i => s.newTeam j w.cohort i cluster (cores.getD i 0)
      ({ s with teams := s.teams ++ new } : State).modJob j.id fun j => { j with nextCohort := j.nextCohort + 1 }
    else
      (List.zip (s.cohortTeams w.job w.cohort) cores).foldl
        (fun s p => s.modTeam p.1.id fun t =>
          { t with cluster := cluster, core := p.2, place := .parked, since := s.now }) s
  let s := (s.cohortTeams w.job w.cohort).foldl (fun s t => s.acquire t.coreNo Sig.all) s
  s.settleCohort w.job w.cohort (!w.fresh)

/-- The cohorts that fit a cluster now. -/
def State.fitting (s : State) (cluster : Nat) : List Waiting :=
  s.waitingCohorts.filter fun w => (s.pickCores w cluster).isSome

/-- Is a cohort admitted before another (R292): lowest class, then the longest wait, and those of one job by index? -/
def Waiting.before (a b : Waiting) : Bool :=
  decide (a.cls < b.cls) || (a.cls = b.cls && (decide (a.since < b.since)
    || (a.since = b.since && a.job = b.job && decide (a.cohort < b.cohort))))

/-- A waiting cohort is admitted onto distinct cores of a cluster that has room, in the order of R292 (R291, R292).
DESIGN CHOICE, safe (log 9, 54). -/
def execTeamAdmit (job cohort cluster : Nat) (cores : List Nat) (s : State) : Host.Outcome State Fault Refusal :=
  match s.waitingCohorts.find? fun w => w.job = job && w.cohort = cohort with
  | none => .next s
  | some w =>
    let first := !(s.fitting cluster).any fun x => x.before w
    if s.mayGo w cluster && s.coresFit w cluster cores && first then .next (s.takeIn w cluster cores) else .next s

/-- Are the teams of a cohort parked, with room for their scratchpads on their cores (R154, R292)? -/
def State.mayReturn (s : State) (job cohort : Nat) : Bool :=
  (s.cohortTeams job cohort).all fun t => t.place = .parked && s.scratchUsed t.coreNo + t.scrSize ≤ coreScratch

/-- The images of a cohort's teams are reloaded, and their directory entries cleared, but for teams that a debugger has
stopped (R204, R206, R327). -/
def State.reload (s : State) (job cohort : Nat) : State :=
  let j := s.job job
  (s.cohortTeams job cohort).foldl
    (fun s t =>
      let s := s.readTeam t.id j.part j.card.named
      if s.hasStop t.id then s else s.dropImage (s.team t.id) j.part) s

/-- A cohort returns from parking, one of its waves seated first (R204); the state as it was where it cannot be resident. -/
def State.returnCohort (s : State) (w : WaveId) (cohort : Nat) : State :=
  (((s.reload w.team.job cohort).seatWave w).seatCohort w.team.job cohort true).getD s

/-- A parked wave takes a free slot of its core (R22); where its team is parked, the teams of its cohort are restored
together, and their guards begin (R34, R154, R204). DEDUCED, unsafe (log 42). -/
def execRestore (job team wave : Nat) (s : State) : Host.Outcome State Fault Refusal :=
  let t : TeamId := ⟨job, team⟩
  let u := s.team t
  let w := u.waveId wave
  let v := s.wave w
  if !v.isLive || v.slot.isSome then .next s
  else if u.place = .resident then .next (s.seatWave w)
  else if u.place = .parked && s.mayReturn job u.cohort then .next (s.returnCohort w u.cohort)
  else .next s

/-! ## Parking space (R206, R292) -/

/-- Bytes of a cluster's bank cache steps, in whose lines parked images are pinned (R157, R292). -/
def State.cacheBytes (s : State) (part cluster : Nat) : Nat :=
  ((s.saveBanks part cluster).map fun b => (8 - s.hall b - s.save b) * stepBytes).foldl (· + ·) 0

/-- Bytes pinned there: images of parked teams that stand in no save area, waves parked alone, and accumulator contexts
that did not fit (R206, R292). -/
def State.pinnedBytes (s : State) (cluster : Nat) : Nat :=
  let named := fun (t : Team) => (s.job t.id.job).card.named
  ((s.teams.filter fun t => t.cluster = cluster).map fun t =>
      if t.place = .parked && t.image.isNone then s.imageLenOf t (named t) (s.teamLen t) t.allWaves
      else if t.place = .resident then t.unseated.length * waveLen (named t)
      else 0).foldl (· + ·) 0
    + ((s.savedCtx.filter fun c => c.cluster = cluster && c.image.isNone).map fun c =>
      128 + 32768 * c.slots.length).foldl (· + ·) 0

/-- Has a cluster parking space for n bytes more? -/
def State.canPark (s : State) (part cluster n : Nat) : Bool :=
  decide (s.pinnedBytes cluster + n ≤ s.cacheBytes part cluster)

/-- Bytes that parking a cohort takes: all of its teams, but for waves that are parked already. -/
def State.parkNeed (s : State) (job cohort : Nat) : Nat :=
  let named := (s.job job).card.named
  ((s.cohortTeams job cohort).map fun t =>
    s.imageLenOf t named (s.teamLen t) t.allWaves - t.unseated.length * waveLen named).foldl (· + ·) 0

/-- Does a wave that was admitted to a core wait for a slot there? -/
def State.slotWanted (s : State) (core : Nat) : Bool :=
  s.teams.any fun t => t.coreNo = core && (t.place = .resident || t.place = .parked) && !t.unseated.isEmpty

/-- Is a cluster's parking space exhausted: more is pinned than it has, or a resident wave should give up its slot and
cannot be parked (R292)? DEDUCED, unsafe (log 59). -/
def State.parkingFull (s : State) (part cluster : Nat) : Bool :=
  !s.canPark part cluster 0
    || s.teams.any fun t => t.cluster = cluster && t.place = .resident && s.slotWanted t.coreNo
        && !s.canPark part cluster (waveLen (s.job t.id.job).card.named)

/-- The core parks a resident wave, so that another can take its slot, where there is parking space (R292). Its
uncommitted runs abort: R33 does not list a parking, and the spec says nothing of runs at one. With the last slot of its
team the cohort is parked. Neither happens within a guard (R34). DEDUCED, unsafe (log 42). -/
def execParking (job team wave : Nat) (s : State) : Host.Outcome State Fault Refusal :=
  let t : TeamId := ⟨job, team⟩
  let u := s.team t
  let w := u.waveId wave
  let j := s.job job
  if u.place ≠ .resident || (s.wave w).slot.isNone || !decide (u.guard ≤ s.now) then .next s
  else if (u.waves.filter fun v => v.isLive && v.slot.isSome && v.uid ≠ w.uid).isEmpty then
    .next (if s.unguarded job u.cohort && s.canPark j.part u.cluster (s.parkNeed job u.cohort) then
      (s.parkCohort job u.cohort).settle else s)
  else if s.canPark j.part u.cluster (waveLen j.card.named) then .next (s.parkWave w).settle
  else .next s

/-- A cohort is swapped out whole; its images leave the save area (R204, R206, R292). DESIGN CHOICE, unsafe (log 20). -/
def State.swapOut (s : State) (job cohort : Nat) : State :=
  let s := s.reload job cohort
  ((s.cohortTeams job cohort).foldl (fun s t => s.unplace t.id .swapped) s).settle

/-- Is a cohort admitted? -/
def State.cohortAdmitted (s : State) (job cohort : Nat) : Bool :=
  let ts := s.cohortTeams job cohort
  !ts.isEmpty && ts.all fun t => t.place = .resident || t.place = .parked

/-- Is admission exhausted for a cohort's partition — some cohort waits that fits nowhere it may go — or the parking space
of its cluster? -/
def State.exhausted (s : State) (job cohort : Nat) : Bool :=
  let part := (s.job job).part
  (s.waitingCohorts.any fun w => (s.job w.job).part = part && (List.range 16).all fun k => (s.pickCores w k).isNone)
    || (s.cohortTeams job cohort).any fun t => s.parkingFull part t.cluster

/-- When parking space or admission is exhausted, a cohort is swapped out (R292). DEDUCED, unsafe (log 59). -/
def execSwapping (job cohort : Nat) (s : State) : Host.Outcome State Fault Refusal :=
  if s.cohortAdmitted job cohort && s.unguarded job cohort && s.exhausted job cohort then .next (s.swapOut job cohort)
  else .next s

/-- Cohorts admitted on a cluster, by job and cohort, each with the cycle of its admission. -/
def State.admittedOn (s : State) (cluster : Nat) : List (Nat × Nat × Nat) :=
  ((s.teams.filter fun t => t.cluster = cluster && (t.place = .resident || t.place = .parked)).map fun t =>
    (t.id.job, t.cohort, t.since)).eraseDups

/-- The slice step (R292): 480,000 cycles are 200 µs. DESIGN CHOICE, unsafe (log 4). -/
def execSliceStep (cluster : Nat) (s : State) : Host.Outcome State Fault Refusal :=
  let last := (getAssoc cluster s.sliceAt).getD 0
  if s.now < last + 480000 then .next s
  else
    let s := { s with sliceAt := putAssoc cluster s.now s.sliceAt }
    let waits := sortOn (fun w => w.since)
      (sortOn (fun w => w.cohort) (s.waitingCohorts.filter fun w => s.mayGo w cluster))
    if waits.isEmpty then .next s
    else
      let s := match sortOn (fun (c : Nat × Nat × Nat) => c.2.2)
          ((s.admittedOn cluster).filter fun c => c.2.2 + 480000 ≤ s.now && s.unguarded c.1 c.2.1) with
        | c :: _ => s.swapOut c.1 c.2.1
        | [] => s
      match waits with
      | w :: _ => match s.pickCores w cluster with
        | some cores => .next (s.takeIn w cluster cores)
        | none => .next s
      | [] => .next s

/-! ## A job leaves a cluster's engine (R234) -/

/-- Is one of the job's swapped cohorts to be admitted on another cluster: would it fit there, were the context given up? -/
def State.awayWanted (s : State) (job cluster : Nat) : Bool :=
  let given := { s with contexts := s.contexts.filter fun c => !(c.cluster = cluster && c.job = job) }
  (s.waitingCohorts.filter fun w => w.job = job && !w.fresh).any fun w =>
    (List.range 16).any fun k =>
      k ≠ cluster && (s.freeCtx k).isSome && (s.ctxOf k job).isNone && (given.pickCores w k).isSome

/-- The job's bins are dispatched, their tiles run in its context's turns (R246), and once they have ended the context is
saved and unbound. -/
def execJobLeaveEngine (job cluster : Nat) (s : State) : Host.Outcome State Fault Refusal :=
  let mine := s.bins.filter fun b => b.job = job && b.cluster = cluster
  if !s.ctxIdle job cluster || !(s.ctxWanted job cluster || s.awayWanted job cluster) then .next s
  else if mine.any Bin.opened then .next (s.dispatchAll mine)
  else if !mine.isEmpty then .next s
  else .next (s.saveCtx job cluster).settle

/-! ## Pre-emption (R201, R294) -/

/-- The resident cohort that pre-emption for a class chooses: the highest class above it, the most recently admitted, none
of its teams within its guard. -/
def State.preemptVictim (s : State) (part cls : Nat) : Option (Nat × Nat) :=
  let ok := (s.teams.filter fun t =>
      t.place = .resident && (s.job t.id.job).part = part && (s.job t.id.job).card.cls > cls).filter fun t =>
    s.unguarded t.id.job t.cohort
  let key := fun (t : Team) => (4 - (s.job t.id.job).card.cls) * 2 ^ 80 + (2 ^ 79 - t.since)
  ((sortOn key ok).head?).map fun t => (t.id.job, t.cohort)

/-- A team's image is written; what a debugger has changed of stopped threads, or of a team stopped whole, stays
(R206, R327). -/
def State.saveTeam (s : State) (t : TeamId) (part named : Nat) : State :=
  let s := if s.allStopped t then s.readTeam t part named else s
  (s.writeImage (s.team t) part named (s.hasStop t) (s.debugHeld t)).2

/-- Every team of a chosen cohort is pre-empted: its runs abort, its image is written to the save area, and it is parked.
DEDUCED, unsafe (log 59). -/
def execPreempt (job cohort : Nat) (s : State) : Host.Outcome State Fault Refusal :=
  let part := (s.job job).part
  let ask := s.waitingCohorts.any fun w =>
    (s.job w.job).part = part && s.preemptVictim part w.cls = some (job, cohort)
      && (List.range 16).all fun k => (s.pickCores w k).isNone
  if !ask then .next s
  else
    let ids := ((s.cohortTeams job cohort).filter fun t => t.place = .resident).map fun t => t.id
    let s := ids.foldl State.abortTeam s
    .next ((ids.foldl (fun s t => s.saveTeam t part (s.job job).card.named) s).parkCohort job cohort).settle

/-- A team's guard ends (R34). DESIGN CHOICE, unsafe (log 4). -/
def execGuardExpire (job team : Nat) (s : State) : Host.Outcome State Fault Refusal :=
  let t : TeamId := ⟨job, team⟩
  if (s.team t).guard ≠ 0 && (s.team t).guard ≤ s.now then .next (s.modTeam t fun u => { u with guard := 0 }) else .next s

/-- A candidate group that stays ready and is passed over for 1,024 cycles is promoted (R293). -/
def execStarvationPromote (job team wave : Nat) (pc : Word) (s : State) : Host.Outcome State Fault Refusal :=
  let t : TeamId := ⟨job, team⟩
  let w := (s.team t).waveId wave
  let v := s.wave w
  let due := (s.readyGroups w v).any fun g =>
    g.1 = pc && v.readySince g.2 s.now + 1024 ≤ s.now && (v.promotedAt g s.now).isNone
  if (s.team t).place = .resident && v.slot.isSome && due then
    .next (s.modWave w fun v => { v with promoted := (v.promoted.filter fun p => p.1 ≠ pc) ++ [(pc, s.now)] })
  else .next s

/-! ## Launch (R279, R280, R284, R289) -/

/-- The fault record of a rejected card or of an early successor's error (R279, R289). DEDUCED, unsafe (log 44). -/
def State.cardRecord (s : State) (vf part jobid code sub addr : Nat) : State :=
  (s.report vf .fault
    (FaultRec.encode
      { addr := addr, seq := 0, jobid := jobid, code := code, sub := sub, vf := vf, part := part, kind := 1, action := 3 })
    none).1

/-- The next JOBID that no live job of the device has. DEDUCED, unsafe (log 55). -/
def State.newJobId (s : State) : Nat × State :=
  let used := fun (n : Nat) => s.jobs.any (fun j => j.id = n) || s.draws.any fun d => d.id = n
  let n := ((List.range (s.jobs.length + s.draws.length + 1)).map fun i => (s.nextJob + i) % 2 ^ 32).find? fun n => !used n
  let n := n.getD 0
  (n, { s with nextJob := (n + 1) % 2 ^ 32 })

/-- A job comes to be, with its card accepted or with the code of its rejection (R279, R280). -/
def State.startJob (s : State) (vf : Nat) (queue : Option Nat) (idx : W32) (addr : Word) (card : Card) (asd : Asd)
    (reject : Option (Nat × Nat × Nat)) : State :=
  let part := (s.vf vf).partition
  let (id, s) := s.newJobId
  let code := match reject with | some (c, _, _) => c | none => 0
  let j : Job :=
    { Job.blank with
      id := id, vf := vf, part := part, queue := queue, cardIdx := idx, cardAddr := addr, card := card, asd := asd,
      status := code, earlyDone := card.early = 0 || reject.isSome, launched := s.now, rejected := reject.isSome }
  let s := { s with jobs := s.jobs ++ [j] }
  match reject with
  | some (c, sub, _) => s.cardRecord vf part id c sub addr.toNat
  | none => s

/-- A card read through an address space, with the faults of the read. -/
def State.readCard (s : State) (c : Xctx) (addr : Nat) : Except XErr (Nat × State) := s.xreadNat c addr 128

/-- May a partition's scheduler start a queue: RUN, and SAVE steps enough (R158, R314)? -/
def State.mayStart (s : State) (p : Nat) : Bool := (s.part p).run && s.saveEnough (s.part p)

/-- The head card of a queue with a slot launches, or is rejected (R279, R284). -/
def execCardLaunch (vf queue : Nat) (s : State) : Host.Outcome State Fault Refusal :=
  let q := s.qdesc vf queue
  let r := s.vf vf
  if !s.mayStart r.partition || !s.mapped vf queue || q.empty || !q.en || q.draw then .next s
  else
    let c := s.queueCtx vf q
    let addr := q.cardAt q.head
    let go := fun (s : State) (d : Nat) (reject : Option (Nat × Nat × Nat)) =>
      let s := s.startJob vf (some queue) (w32 q.head) (w64 addr) (Card.decode d) c.asd reject
      let s := s.putHead vf queue ((q.head + 1) % 2 ^ 32)
      Host.Outcome.next ((s.releaseSlot vf queue).settle)
    match s.readCard c addr with
    | .error e => go (s.markLeaves c.part e.marks) 0 (some (e.code, e.sub, e.addr))
    | .ok (d, s) =>
      if !s.waitDone vf (Card.decode d).wait then .next s
      else go s d (if cardOk d r.ccount then none else some (Code.illegal, 0, addr))

/-- Have all teams of a job launched, and every thread committed TRIG or exited (R289)? -/
def State.allTrig (s : State) (j : Job) : Bool :=
  j.nextCohort = s.cohortCount j
    && (s.teams.filter fun t => t.id.job = j.id).all fun t =>
      t.waves.all fun w => w.lanes.toList.all fun th => !th.status.live || th.trig

/-- The early successor of a job launches, outside any queue (R289). DEDUCED, unsafe (log 44). -/
def execEarlyLaunch (job : Nat) (s : State) : Host.Outcome State Fault Refusal :=
  match s.jobs.find? fun j => j.id = job with
  | none => .next s
  | some j =>
    if j.earlyDone || j.draw.isSome || !(s.part j.part).run || !s.allTrig j then .next s
    else
      let c : Xctx := { part := j.part, cluster := 0, core := none, asd := j.asd, sys := false }
      let addr := j.card.early
      let done := fun (s : State) =>
        let s := s.modJob job fun j => { j with earlyDone := true }
        Host.Outcome.next { s with jobs := s.jobs.filter fun j => !(j.id = job && j.completed) }
      match s.readCard c addr.toNat with
      | .error e => done ((s.markLeaves c.part e.marks).startJob j.vf none 0 addr (Card.decode 0) j.asd (some (e.code, e.sub, e.addr)))
      | .ok (d, s) =>
        if !s.waitDone j.vf (Card.decode d).wait then .next s
        else
          done (s.startJob j.vf none 0 addr (Card.decode d) j.asd
            (if cardOk d (s.vf j.vf).ccount then none else some (Code.illegal, 0, addr.toNat)))

/-! ## Completion (R200, R288, R289) -/

/-- Has a job's last team ended (R236), or was its card rejected? -/
def State.jobOver (s : State) (j : Job) : Bool :=
  j.rejected || (j.nextCohort = s.cohortCount j
    && (s.teams.filter fun t => t.id.job = j.id).all fun t => t.place = .ended && !s.owes t.id)

/-- The completion record of a queue's card (R288); the ring entry's address stands above its 128 bits. -/
def complRecord (jobid status : Nat) (idx : W32) (addr : Nat) : BitVec 512 :=
  BitVec.ofNat 512 (jobid + status % 2 ^ 16 * 2 ^ 32 + idx.toNat * 2 ^ 64 + addr % 2 ^ 64 * 2 ^ 128)

/-- Makes the completion record of a card, where its queue has a ring. -/
def State.recordCompletion (s : State) (vf queue id status : Nat) (idx : W32) : State :=
  let q := s.qdesc vf queue
  if q.cpl = 0 then s
  else (s.report vf (.completion id) (complRecord id status idx (q.cpl + 16 * (idx.toNat % 2 ^ q.log2))) none).1

def State.recordHeld (s : State) (id : Nat) : Bool := s.held.any fun h => h.kind = .completion id

/-- Everything of a completed job leaves the machine: its teams, pins and saved contexts (R240). -/
def State.forgetJob (s : State) (job : Nat) : State :=
  { s with
    teams := s.teams.filter fun t => t.id.job ≠ job, pins := s.pins.filter fun p => p.job ≠ job,
    savedCtx := s.savedCtx.filter fun c => c.job ≠ job,
    contexts := s.contexts.filter fun c => c.job ≠ job }

/-- Step 2 of completion: the job's record, of a queued job always, and of an early successor when it failed (R288,
R289). DEDUCED, unsafe (log 44). -/
def State.recordJob (s : State) (j : Job) : State :=
  let s := s.modJob j.id fun j => { j with recorded := true }
  match j.queue with
  | some q => s.recordCompletion j.vf q j.id j.status j.cardIdx
  | none => if j.status = 0 || j.rejected then s else s.cardRecord j.vf j.part j.id j.status 0 j.cardAddr.toNat

/-- Step 3: its counter goes down, and the job is gone once its early successor has launched (R288, R289). -/
def State.finishJob (s : State) (j : Job) : State :=
  let s := (s.decCounter j.vf j.card.signal 1).forgetJob j.id
  { s with
    jobs := if j.earlyDone then s.jobs.filter fun x => x.id ≠ j.id
      else s.jobs.map fun (x : Job) => if x.id = j.id then { x with completed := true } else x }

/-- Step 2 of completion, for the first time, and step 3 once no record of it is held (R288, R289).
DESIGN CHOICE, safe (log 9). -/
def execJobComplete (job : Nat) (s : State) : Host.Outcome State Fault Refusal :=
  match s.jobs.find? fun j => j.id = job with
  | none => .next s
  | some j =>
    if j.completed || j.draw.isSome || !s.jobOver j then .next s
    else
      let s := if j.recorded then s else s.recordJob j
      if s.recordHeld job then .next s else .next (s.finishJob j)

/-! ## The Kettle (R335) -/

/-- A period of 256 ns is 3,072 fifths of a cycle. DESIGN CHOICE, safe (log 17). -/
def execKettleGrant (demands : List Nat) (s : State) : Host.Outcome State Fault Refusal :=
  if 5 * s.now < (s.periodAt + 1) * 3072 then .next s
  else
    let limit := bits s.kbudget 15 0
    let floor := bits s.kbudget 31 16
    let total := ((List.range 16).map fun i => demands.getD i 0).foldl (· + ·) 0
    let rest := limit - 16 * floor
    .next { s with
      periodAt := s.periodAt + 1,
      grantsW := (List.range 16).map fun i => floor + (if total = 0 then 0 else rest * demands.getD i 0 / total) }

end Sys2Proof.Machine
end

