-- ==== Sys2Proof/Machine/Texture.lean ====
section
/-!
DEFINITION. Texture instructions and ATTR (R304 to R307, R363, R439).
-/

namespace Sys2Proof.Machine

open Sys2Proof

/-! ## Descriptors (R304) -/

structure Image where
  fmt  : Nat
  lmax : Nat
  h    : Nat
  w    : Nat
  base : Nat
  ok   : Bool
  deriving DecidableEq, Repr

/-- Bytes of a texel; 0 for a reserved format. -/
def texelBytes (fmt : Nat) : Nat := match fmt with | 0 => 4 | 1 => 8 | 2 => 4 | _ => 0

def Image.decode (d : Nat) : Image :=
  let w := fld d 79 64 + 1
  let h := fld d 95 80 + 1
  { fmt := fld d 103 100, lmax := fld d 99 96, h := h, w := w, base := fld d 63 0,
    ok := fld d 127 104 = 0 && fld d 103 100 ≤ 2 && fld d 99 96 ≤ (max w h).log2 && fld d 63 0 % 128 = 0 }

structure Sampler where
  addrV : Nat
  addrU : Nat
  mip   : Nat
  min   : Nat
  mag   : Nat
  ok    : Bool
  deriving DecidableEq, Repr

def Sampler.decode (d : Nat) : Sampler :=
  { addrV := fld d 9 8, addrU := fld d 7 6, mip := fld d 5 4, min := fld d 3 2, mag := fld d 1 0,
    ok := fld d 127 10 = 0 && fld d 5 4 ≤ 2 && fld d 3 2 ≤ 1 && fld d 1 0 ≤ 1 }

def Image.width (m : Image) (l : Nat) : Nat := max 1 (m.w / 2 ^ l)
def Image.height (m : Image) (l : Nat) : Nat := max 1 (m.h / 2 ^ l)
/-- Bytes from one row of a level to the next. -/
def Image.pitch (m : Image) (l : Nat) : Nat := roundUp (m.width l * texelBytes m.fmt) 128
def Image.level (m : Image) (l : Nat) : Nat :=
  (List.range l).foldl (fun a k => a + m.pitch k * m.height k) m.base

/-- A texel index in range under an address mode; none outside with mode border (R304). -/
def addressed (mode : Nat) (n : Nat) (i : Int) : Option Nat :=
  match mode with
  | 0 => some (i % n).toNat
  | 1 => some (min (max i 0) (n - 1 : Nat)).toNat
  | 2 => let j := (i % (2 * n : Nat)).toNat; some (if j < n then j else 2 * n - 1 - j)
  | _ => if 0 ≤ i && i < n then some i.toNat else none

/-! ## Level of detail (R306) -/

/-- The whole part of a dyadic, rounded down. -/
def Dy.floor (v : Dy) : Int := if v.e ≥ 0 then v.m * (2 ^ v.e.toNat : Nat) else v.m / (2 ^ (-v.e).toNat : Nat)

/-- Is 128 log2 (m × 2^e) + b at least n, for m > 0? The powers are compared as integers. -/
def lodAtLeast (m : Nat) (e : Int) (b : Dy) (n : Int) : Bool :=
  let k := (-b.e).toNat
  let x := (Dy.mk (n - 128 * e) 0).add b.neg
  decide (2 ^ (Dy.mk x.m (x.e + k)).floor.toNat ≤ m ^ (128 * 2 ^ k))

/-- floor (128 log2 (m × 2^e) + b) for m > 0 (R306): by an exact power, by an enclosure of the logarithm, or, where that
does not decide, by the comparison of powers. -/
def lodFloor (m : Nat) (e : Int) (b : Dy) : Int :=
  if m = 2 ^ m.log2 then ((Dy.mk (128 * (m.log2 + e)) 0).add b).floor
  else if b.eq { m := b.floor, e := 0 } then (m ^ 128).log2 + 128 * e + b.floor
  else
    let z : Int := (m - 2 ^ m.log2 : Int) * fixOne / ((m : Int) + (2 ^ m.log2 : Nat))
    let v := 128 * ((m.log2 + e) * fixOne + 2 * atanhFix z * fixOne / ln2Fix) + toFix b
    let err : Int := (2 ^ 50 : Nat)
    let lo := (v - err) / fixOne
    let hi := (v + err) / fixOne
    if lo = hi then lo else if lodAtLeast m e b hi then hi else lo

/-- A coordinate: a non-finite one is 0 (R306). -/
def coord (w : Nat) : Dy :=
  match Fmt.f32.decode w with
  | .fin n m e => (Fp.fin n m e).dy
  | _ => { m := 0, e := 0 }

structure Uv where
  u : Dy
  v : Dy

def Uv.of (x : Word) : Uv := { u := coord (low32 x), v := coord (high32 x) }

/-- ρ² for a pair of partners: the squared length of their difference in texels of level 0. -/
def gradient (m : Image) (a b : Uv) : Dy :=
  let d := fun (x y : Dy) (n : Nat) => (x.add y.neg).mul { m := n, e := 0 }
  let du := d a.u b.u m.w
  let dv := d a.v b.v m.h
  (du.mul du).add (dv.mul dv)

/-- 256 λ, clamped to 0 .. 256 LMAX. A NaN bias or level, and −∞ + ∞, leave it open. DESIGN CHOICE, unsafe (log 21). -/
def lambda (m : Image) (s : Sampler) (lod : Lod) (rho2 : Dy) (b : Nat) (free : Nat) : Nat :=
  let top := 256 * m.lmax
  let clamp := fun (i : Int) => min i.toNat top
  if s.mip = 0 then 0
  else
    let bias := match lod with | .implicit => Fp.fin false 0 0 | _ => Fmt.f32.decode b
    match bias with
    | .nan _ => free % (top + 1)
    | .inf n => if lod = .bias && rho2.m = 0 && !n then free % (top + 1) else if n then 0 else top
    | .fin n k e =>
      let b256 := (Fp.fin n k e).dy.mul { m := 256, e := 0 }
      if lod = .level then clamp b256.floor
      else if rho2.m = 0 then 0
      else clamp (lodFloor rho2.m.natAbs rho2.e b256)

/-! ## Texels -/

/-- A value over a divisor of 1 or 255. -/
abbrev Texel := Vector Fp 4

/-- The divisor of a format's channels. -/
def texelDiv (fmt : Nat) : Nat := if fmt = 0 then 255 else 1

def Texel.black : Texel := Vector.replicate 4 (.fin false 0 0)

def Texel.decode (fmt : Nat) (x : Word) : Texel :=
  match fmt with
  | 0 => Vector.ofFn fun k : Fin 4 => .fin false (subN 8 x k.val) 0
  | 1 => Vector.ofFn fun k : Fin 4 => Fmt.f16.decode (subN 16 x k.val)
  | _ => #v[Fmt.f32.decode (low32 x), .fin false 0 0, .fin false 0 0, .fin false 1 0]

/-- A term of a weighted sum: a texel's channel times w / 2^24. -/
structure Term where
  w : Nat
  v : Fp

/-- The exact sum over a divisor, rounded to f16. A NaN texel gives the canonical NaN; an infinity with weight 0, or two
of opposite signs, leave the channel open. DESIGN CHOICE, unsafe (log 21). -/
def weigh (div : Nat) (ts : List Term) (free : Nat) : Nat :=
  let infs := ts.filter fun t => t.v.isInf
  if ts.any (fun t => t.v.isNan) then Fmt.f16.nan
  else if infs.any (fun t => t.w = 0) || (infs.any (fun t => t.v.neg) && infs.any fun t => !t.v.neg) then free % 2 ^ 16
  else match infs with
    | t :: _ => Fmt.f16.inf t.v.neg
    | [] =>
      let sum := ts.foldl (fun (a : Dy) t => a.add (t.v.dy.mul { m := t.w, e := -24 })) { m := 0, e := 0 }
      let neg := if sum.m = 0 then ts.all fun t => t.v.neg else sum.m < 0
      (Fmt.f16.round .ne neg sum.m.natAbs div sum.e).bits

/-- One texel that a sample uses: its level, its place there (none outside a border image), its weight of 2^24. -/
structure Tap where
  level : Nat
  at_   : Option (Nat × Nat)
  w     : Nat
  deriving DecidableEq, Repr

def Image.tap (m : Image) (s : Sampler) (l : Nat) (x y : Int) (w : Nat) : Tap :=
  { level := l, w := w,
    at_ := match addressed s.addrU (m.width l) x, addressed s.addrV (m.height l) y with
      | some i, some j => some (i, j)
      | _, _ => none }

/-- 256 (u × n − 0.5), rounded down: the index and the fraction of a linear filter. -/
def linearAt (u : Dy) (n : Nat) : Int × Nat :=
  let x := ((u.mul { m := 256 * n, e := 0 }).add { m := -128, e := 0 }).floor
  (x / 256, (x % 256).toNat)

/-- The taps of one level with the level's weight of 256. -/
def Image.levelTaps (m : Image) (s : Sampler) (filter : Nat) (c : Uv) (l wl : Nat) : List Tap :=
  if filter = 0 then
    [m.tap s l (c.u.mul { m := m.width l, e := 0 }).floor (c.v.mul { m := m.height l, e := 0 }).floor (wl * 65536)]
  else
    let (i, a) := linearAt c.u (m.width l)
    let (j, b) := linearAt c.v (m.height l)
    [m.tap s l i j (wl * ((256 - a) * (256 - b))), m.tap s l (i + 1) j (wl * (a * (256 - b))),
     m.tap s l i (j + 1) (wl * ((256 - a) * b)), m.tap s l (i + 1) (j + 1) (wl * (a * b))]

/-- The taps of TEX (R306). DESIGN CHOICE, unsafe (log 21). -/
def Image.taps (m : Image) (s : Sampler) (lam : Nat) (c : Uv) : List Tap :=
  let filter := if lam = 0 then s.mag else s.min
  let l := lam / 256
  let f := lam % 256
  match s.mip with
  | 1 => m.levelTaps s filter c ((lam + 127) / 256) 256
  | 2 => if f = 0 then m.levelTaps s filter c l 256
      else m.levelTaps s filter c l (256 - f) ++ m.levelTaps s filter c (l + 1) f
  | _ => m.levelTaps s filter c 0 256

/-- The four texels of TEXG, sub-element 0 first (R305). -/
def Image.gatherTaps (m : Image) (s : Sampler) (lam : Nat) (c : Uv) : List Tap :=
  let l := lam / 256
  let (i, _) := linearAt c.u (m.width l)
  let (j, _) := linearAt c.v (m.height l)
  [m.tap s l i (j + 1) 0, m.tap s l (i + 1) (j + 1) 0, m.tap s l (i + 1) j 0, m.tap s l i j 0]

def Image.addr (m : Image) (l i j : Nat) : Nat := m.level l + j * m.pitch l + i * texelBytes m.fmt

/-! ## Reading -/

/-- Loads of a lane one after another, as LD with CH = 0: addresses with their poison, and sizes. -/
def State.loadAll (s : State) (r : Run) (l : Fin 32) (sp : Space) (path : LoadPath) :
    List (Val × Word × Nat) → Except Got (List Word × State)
  | [] => .ok ([], s)
  | (a, va, n) :: rest =>
    match s.loadLane r l sp path a va n with
    | (.got v, s) => match s.loadAll r l sp path rest with
      | .ok (vs, s) => .ok (v :: vs, s)
      | .error e => .error e
    | (g, _) => .error g

def State.loadTaps (s : State) (r : Run) (l : Fin 32) (m : Image) : List Tap → Except Got (List Texel × State)
  | [] => .ok ([], s)
  | t :: ts =>
    let go := fun (x : Texel) (s : State) => match s.loadTaps r l m ts with
      | .ok (xs, s) => Except.ok (x :: xs, s)
      | .error e => .error e
    match t.at_ with
    | none => go Texel.black s
    | some (i, j) =>
      match s.loadLane r l .glob (.l1 false) Val.zero (w64 (m.addr t.level i j)) (texelBytes m.fmt) with
      | (.got v, s) => go (Texel.decode m.fmt v) s
      | (g, _) => .error g

/-- The partners of a lane in its quad: odd and even x of its row, odd and even y of its column (R302, R306). -/
def quadOf (l : Fin 32) : List (Fin 32) :=
  [Fin.ofNat 32 (l.val / 2 * 2 + 1), Fin.ofNat 32 (l.val / 2 * 2), Fin.ofNat 32 (l.val / 4 * 4 + l.val % 2 + 2),
   Fin.ofNat 32 (l.val / 4 * 4 + l.val % 2)]

/-- A lane's coordinates as its quad reads them (R66): a latched value of a lane outside the group is not committed
anywhere, and is open. DESIGN CHOICE, unsafe (log 21). -/
def State.quadVal (s : State) (r : Run) (sh : Shape) (l : Fin 32) : Val :=
  match sh.srcs[0]? with
  | some (Src.h _, _) =>
    if LaneMask.has r.group l || !(s.thread r.wave l).status.live then s.argAs r sh tyF32 0 l
    else ⟨s.openWord 3 l.val, 0⟩
  | _ => s.argAs r sh tyF32 0 l

/-- A and B of TEX and TEXG are read as f32x2 (R449). -/
def texTys : List Ty := [tyF32, tyF32]

/-- What the sample of one lane takes: coordinates, bias or level, descriptors. -/
structure SampleIn where
  lod  : Lod
  quad : List Val
  a    : Val
  b    : Val
  img  : Val
  smp  : Val

def SampleIn.poisoned (x : SampleIn) : Bool :=
  x.a.bad || x.img.bad || x.smp.bad || (x.lod ≠ .implicit && (List.range 4).any fun i => x.b.poison.getLsbD i)
    || (x.lod ≠ .level && x.quad.any Val.bad)

/-- What a lane samples, from the dwords of its two descriptors: the image, the sampler and the taps. -/
def SampleIn.plan (x : SampleIn) (gath : Bool) (pick : Nat) (ws : List Word) : Image × Sampler × List Tap :=
  let dw := fun (k : Nat) => (ws.getD k 0).toNat + (ws.getD (k + 1) 0).toNat * 2 ^ 64
  let m := Image.decode (dw 0)
  let p := Sampler.decode (dw 2)
  let uv := fun (k : Nat) => Uv.of (x.quad.getD k Val.zero).bits
  let gx := gradient m (uv 0) (uv 1)
  let gy := gradient m (uv 2) (uv 3)
  let lam := lambda m p x.lod (if gx.lt gy then gy else gx) (low32 x.b.bits) pick
  (m, p, if gath then m.gatherTaps p lam (Uv.of x.a.bits) else m.taps p lam (Uv.of x.a.bits))

/-- The reads of a lane's descriptors. -/
def SampleIn.descs (x : SampleIn) : List (Val × Word × Nat) :=
  [(x.img, x.img.bits, 8), (x.img, x.img.bits + 8, 8), (x.smp, x.smp.bits, 8), (x.smp, x.smp.bits + 8, 8)]

/-- One lane's sample: descriptors, checks, texels; `finish` makes the result of an image, a level and taps.
DESIGN CHOICE, unsafe (log 21). -/
def State.sampleLane (s : State) (r : Run) (l : Fin 32) (x : SampleIn) (gath : Bool)
    (finish : Image → List (Tap × Texel) → Word) : Got × State :=
  let ai := x.img.bits
  let as_ := x.smp.bits
  if ai.toNat % 16 ≠ 0 then (.bad (alignExc l ai.toNat), s)
  else if as_.toNat % 16 ≠ 0 then (.bad (alignExc l as_.toNat), s)
  else
    match s.loadAll r l .glob (.l1 false) x.descs with
    | .error g => (g, s)
    | .ok (ws, s) =>
      let (m, p, taps) := x.plan gath (s.pickNo 10 l.val) ws
      if !m.ok then (.bad (Exc.bound ai l), s)
      else if !p.ok then (.bad (Exc.bound as_ l), s)
      else if x.poisoned then (.bad (poisonAt l 0), s)
      else
        match s.loadTaps r l m taps with
        | .error g => (g, s)
        | .ok (ts, s) => (.got (finish m (List.zip taps ts)), s)

/-- The loads of a lane's sample that has been made: its descriptors' and its texels' (R304, R331). -/
def State.texLoads (s : State) (r : Run) (l : Fin 32) (x : SampleIn) (gath : Bool) : List (Fin 32 × Word × Nat) :=
  match s.loadAll r l .glob (.l1 false) x.descs with
  | .error _ => []
  | .ok (ws, _) =>
    let (m, _, taps) := x.plan gath (s.pickNo 10 l.val) ws
    (x.descs.map fun d => (l, d.2.1, d.2.2)) ++ taps.filterMap fun t =>
      t.at_.map fun p => (l, w64 (m.addr t.level p.1 p.2), texelBytes m.fmt)

/-- TEX's result: four channels. -/
def texResult (free : Word) (m : Image) (ts : List (Tap × Texel)) : Word :=
  w64 (packN 16 ((List.finRange 4).map fun k =>
    weigh (texelDiv m.fmt) (ts.map fun t => { w := t.1.w, v := t.2[k] }) (subN 16 free k.val)))

/-- TEXG's result: one channel of four texels. -/
def texgResult (ch : Fin 4) (m : Image) (ts : List (Tap × Texel)) : Word :=
  w64 (packN 16 (ts.map fun t => weigh (texelDiv m.fmt) [{ w := 2 ^ 24, v := t.2[ch] }] 0))

/-- TEX and TEXG (R305, R306, R439): partners outside the group set RX; a pending register of one is waited for. -/
def sampleBody (lod : Lod) (gath : Bool) (n : Option (Fin 32)) (d : Dst) (finish : Word → Image → List (Tap × Texel) → Word)
    (s : State) (r : Run) (sh : Shape) : Body :=
  let act := r.active sh
  let k := match n with | some k => k.val | none => 0
  let quads := if lod = .level then [] else (lanesOf act).flatMap quadOf
  let late := quads.any fun l =>
    sh.srcs.any fun o => o.1.reg.any fun g => s.pending r.wave (routeLane r.spec[l] l o.2) g
  let outside := quads.any fun l => !(LaneMask.has r.group l)
  if late then .wait s
  else
    let x := fun (l : Fin 32) => ({
        lod := lod, quad := (quadOf l).map (s.quadVal r sh), a := s.argAs r sh tyF32 0 l, b := s.argAs r sh tyF32 1 l,
        img := r.spec[l].getN k, smp := r.spec[l].getN (k + 1) } : SampleIn)
    let (gs, s) := gather (fun t l => t.sampleLane r l (x l) gath (finish (t.openWord 4 l.val))) (lanesOf act) s
    match firstExc (excsOf gs) with
    | some e => .fault s e
    | none =>
      let hs := holdsOf gs
      if !hs.isEmpty then .wait (s.awaitRemote r hs)
      else
        let s := s.remoteDone r
        let (xs, s) := s.sampled (s.jobOf r.wave).vf
          (s.requests r .glob .read ((lanesOf act).flatMap fun l => s.texLoads r l (x l) gath))
        let r' := r.write (fun _ => 0) fun l regs => regs.putThread d (LaneMask.has act l) ⟨valueOf gs l, 0⟩
        .done s { r' with rx := r'.rx || outside, samples := r'.samples ++ xs } .goOn

def execTex (lod : Lod) (f : Eng) (s : State) : Host.Outcome State Fault Refusal :=
  execute s (.tex lod f) texTys (sampleBody lod false f.n f.t texResult)

def execTexg (lod : Lod) (ch : Fin 4) (f : Eng) (s : State) : Host.Outcome State Fault Refusal :=
  execute s (.texg lod ch f) texTys (sampleBody lod true f.n f.t fun _ => texgResult ch)

/-! ## ATTR (R307, R363) -/

/-- c0 + b0 × c1 + b1 × c2 rounded once to f32, with R128's special values and flags. -/
def interpolate (c0 c1 c2 b0 b1 : Nat) : Rnd :=
  let d := Fmt.f32.decode
  let xs := [d c0, d c1, d c2, d b0, d b1]
  let bad := fun (x y : Fp) => (x.isInf && y.isZero) || (x.isZero && y.isInf)
  let prods : List (Bool × Bool × Dy) :=
    [((d c0).isInf, (d c0).neg, (d c0).dy),
     ((d c1).isInf || (d b0).isInf, (d c1).neg != (d b0).neg, (d c1).dy.mul (d b0).dy),
     ((d c2).isInf || (d b1).isInf, (d c2).neg != (d b1).neg, (d c2).dy.mul (d b1).dy)]
  let infs := prods.filter fun p => p.1
  let invalid := bad (d c1) (d b0) || bad (d c2) (d b1)
    || (infs.any (fun p => p.2.1) && infs.any fun p => !p.2.1)
  if xs.any Fp.isNan then Fmt.f32.nanRnd (xs.any Fp.isSnan || bad (d c1) (d b0) || bad (d c2) (d b1))
  else if invalid then Fmt.f32.nanRnd true
  else match infs with
    | p :: _ => { bits := Fmt.f32.inf p.2.1, flags := 0 }
    | [] =>
      let sum := prods.foldl (fun (a : Dy) p => a.add p.2.2) { m := 0, e := 0 }
      Fmt.f32.roundDy .ne sum (prods.all fun p => p.2.1)

/-- One lane's block: 24 bytes of it are read. -/
def State.attrLane (s : State) (r : Run) (l : Fin 32) (a b : Val) : Got × State :=
  let o := a.bits
  if o.toNat % 16 ≠ 0 then (.bad (alignExc l o.toNat), s)
  else if o.toNat + 32 > (s.team r.wave.team).scrSize then (.bad (Exc.bound o l), s)
  else if b.bad then (.bad (poisonAt l 0), s)
  else (.got 0, s)

def attrBody (d : Dst) (s : State) (r : Run) (sh : Shape) : Body :=
  let act := r.active sh
  let a := s.engArg r sh 0
  let b := s.argAs r sh tyF32 1
  let (gs, s) := gather (fun s l => s.attrLane r l (a l) (b l)) (lanesOf act) s
  let words := (lanesOf act).map fun l =>
    (l, s.loadAll r l .scr .scr ((List.range 3).map fun k => (a l, (a l).bits + w64 (8 * k), 8)))
  let excs := excsOf gs ++ words.filterMap fun x =>
    match x.2 with | .error (.bad e) => some (x.1, e) | _ => none
  let out := fun (l : Fin 32) =>
    match words.find? fun x => x.1 = l with
    | some (_, .ok (ws, _)) =>
      let c := fun (k : Nat) => subN 32 (ws.getD (k / 2) 0) (k % 2)
      [interpolate (c 0) (c 1) (c 2) (low32 (b l).bits) (high32 (b l).bits),
       interpolate (c 3) (c 4) (c 5) (low32 (b l).bits) (high32 (b l).bits)]
    | _ => []
  match firstExc excs with
  | some e => .fault s e
  | none =>
    finishPut s r false (fun l => (out l).foldl (fun f x => f ||| x.flags) 0)
      fun l regs => regs.putThread d (LaneMask.has act l) ⟨w64 (packN 32 ((out l).map fun x => x.bits)), 0⟩

/-- ATTR's barycentrics are f32x2 (R449). -/
def attrTys : List Ty := [tyW64, tyF32]

def execAttr (f : Eng) (s : State) : Host.Outcome State Fault Refusal :=
  execute s (.attr f) attrTys (attrBody f.t)

end Sys2Proof.Machine
end

