-- ==== Sys2Proof/Machine/Raster.lean ====
section
/-!
DEFINITION. The geometry of a draw (R299, R301, R302): assembly, clipping, mapping, coverage, barycentrics, depth and
attribute blocks, in exact arithmetic.
-/

namespace Sys2Proof.Machine

open Sys2Proof

/-! ## Primitives -/

/-- Triangles of one instance. -/
def DrawCard.triangles (c : DrawCard) : Nat := if c.topo = 0 then c.vcount / 3 else c.vcount - 2

def DrawCard.primCount (c : DrawCard) : Nat := c.triangles * c.icount

/-- The pairs of a primitive's vertices, in assembled order. -/
def DrawCard.primitive (c : DrawCard) (p : Nat) : List Nat :=
  let base := p / c.triangles * c.vcount
  let t := p % c.triangles
  if c.topo = 0 then [base + 3 * t, base + 3 * t + 1, base + 3 * t + 2]
  else if t % 2 = 0 then [base + t, base + t + 1, base + t + 2]
  else [base + t, base + t + 2, base + t + 1]

/-! ## Clipping -/

/-- A vertex in homogeneous coordinates with its weights of the triangle's three vertices, all over one positive
scale. -/
structure Clip where
  x  : Int
  y  : Int
  z  : Int
  w  : Int
  b  : Vector Int 3
  deriving DecidableEq, Repr

/-- s₀ × p + s₁ × q. -/
def Clip.mix (s0 s1 : Int) (p q : Clip) : Clip :=
  { x := s0 * p.x + s1 * q.x, y := s0 * p.y + s1 * q.y, z := s0 * p.z + s1 * q.z, w := s0 * p.w + s1 * q.w,
    b := Vector.ofFn fun i : Fin 3 => s0 * p.b[i] + s1 * q.b[i] }

/-- The part of a polygon where a linear function is not negative. -/
def clipBy (f : Clip → Int) (ps : List Clip) : List Clip :=
  (List.zip ps (ps.drop 1 ++ ps.take 1)).flatMap fun (p, q) =>
    let a := f p
    let b := f q
    (if a ≥ 0 then [p] else [])
      ++ (if a ≥ 0 && b < 0 then [Clip.mix (-b) a p q] else if a < 0 && b ≥ 0 then [Clip.mix b (-a) p q] else [])

/-- Every position is taken at a scale of 2^-190, at which f32 values and 2^-20 are integers. -/
def clipScale : Nat := 190

/-- A component of a position; one that is not finite has no stated effect and is a free number. -/
def clipNum (free : Word) (v : W32) : Int :=
  match Fmt.f32.decode v.toNat with
  | .fin n m e => (toScale (Fp.fin n m e).dy)
  | _ => free.toInt
where
  toScale (d : Dy) : Int := d.m * (2 ^ (d.e + (clipScale : Int)).toNat : Nat)

def clipVertex (free : Nat → Word) (i : Fin 3) (p : Vector W32 4) : Clip :=
  { x := clipNum (free 0) p[0], y := clipNum (free 1) p[1], z := clipNum (free 2) p[2], w := clipNum (free 3) p[3],
    b := Vector.ofFn fun k : Fin 3 => if k = i then (2 ^ clipScale : Nat) else 0 }

/-- Clipped to w ≥ 2^-20 and to the viewport (R299). -/
def clipTriangle (vs : List Clip) : List Clip :=
  let near := clipBy (fun p => p.w - (2 ^ (clipScale - 20) : Nat)) vs
  let fs : List (Clip → Int) := [fun p => p.w + p.x, fun p => p.w - p.x, fun p => p.w + p.y, fun p => p.w - p.y]
  fs.foldl (fun ps f => clipBy f ps) near

/-! ## Mapping -/

/-- A mapped vertex: screen place over 2^150, depth as f32, and what perspective needs. -/
structure Screen where
  x : Int
  y : Int
  z : Nat
  c : Clip
  deriving DecidableEq, Repr

/-- n / d rounded once to f32. -/
def ratio (n d : Int) : Nat :=
  (Fmt.f32.round .ne ((n < 0) != (d < 0)) n.natAbs d.natAbs 0).bits

/-- A finite f32 over 2^150. -/
def screenInt (v : Nat) : Int :=
  let d := (Fmt.f32.decode v).dy
  d.m * (2 ^ (d.e + 150).toNat : Nat)

/-- DESIGN CHOICE, unsafe (log 18). -/
def mapVertex (c : DrawCard) (p : Clip) : Screen :=
  { x := screenInt (ratio (2 * c.vpx * p.w + (p.x + p.w) * (c.vpw + 1 : Nat)) (2 * p.w)),
    y := screenInt (ratio (2 * c.vpy * p.w + (p.y + p.w) * (c.vph + 1 : Nat)) (2 * p.w)),
    z := ratio p.z p.w, c := p }

/-- The edge function of a to b at a point. -/
def edge (a b : Screen) (px py : Int) : Int := (b.x - a.x) * (py - a.y) - (b.y - a.y) * (px - a.x)

structure Piece where
  v0 : Screen
  v1 : Screen
  v2 : Screen
  deriving DecidableEq, Repr

/-- Positive when the triangle is clockwise as seen with row 0 uppermost. -/
def Piece.area (t : Piece) : Int := edge t.v0 t.v1 t.v2.x t.v2.y

/-- Facing (R296, R299, R301). -/
def Piece.front (t : Piece) (c : DrawCard) : Bool := (t.area > 0) = c.cw

/-- Is a piece drawn: of some area, and not culled? -/
def Piece.drawn (t : Piece) (c : DrawCard) : Bool :=
  t.area ≠ 0 && (match c.cull with | 1 => t.front c | 2 => !t.front c | _ => true)

/-- A fan over a convex polygon. -/
def fan : List Screen → List Piece
  | a :: rest => (List.zip rest (rest.drop 1)).map fun p => { v0 := a, v1 := p.1, v2 := p.2 }
  | [] => []

/-- Weights of the three vertices at a point, positive inside. -/
def Piece.weights (t : Piece) (px py : Int) : Vector Int 3 :=
  let s := t.area.sign
  #v[s * edge t.v1 t.v2 px py, s * edge t.v2 t.v0 px py, s * edge t.v0 t.v1 px py]

/-- Is an edge, taken clockwise, a top edge or a left edge? -/
def topLeft (a b : Screen) : Bool := (a.y = b.y && b.x > a.x) || b.y < a.y

/-- Inside, or on a top or left edge (R299). DESIGN CHOICE, unsafe (log 18). -/
def Piece.covers (t : Piece) (px py : Int) : Bool :=
  let w := t.weights px py
  let tl := fun (a b : Screen) => if t.area > 0 then topLeft a b else topLeft b a
  let ok := fun (w : Int) (a b : Screen) => w > 0 || (w = 0 && tl a b)
  ok w[0] t.v1 t.v2 && ok w[1] t.v2 t.v0 && ok w[2] t.v0 t.v1

/-- The centre of a pixel over 2^150. -/
def centre (x : Nat) : Int := ((2 * x + 1) * 2 ^ 149 : Nat)

/-- Perspective-correct barycentric of vertex j of the triangle at a point; open where it has no finite value.
DESIGN CHOICE, unsafe (log 18). -/
def Piece.bary (t : Piece) (px py : Int) (j : Fin 3) (free : Word) : Nat :=
  let l := t.weights px py
  let k := #v[l[0] * t.v1.c.w * t.v2.c.w, l[1] * t.v2.c.w * t.v0.c.w, l[2] * t.v0.c.w * t.v1.c.w]
  let sum := fun (f : Clip → Int) => k[0] * f t.v0.c + k[1] * f t.v1.c + k[2] * f t.v2.c
  let den := sum fun c => c.b[0] + c.b[1] + c.b[2]
  if den = 0 then low32 free else ratio (sum fun c => c.b[j]) den

/-- Depth at a point: NEAR + z (FAR − NEAR), z linear in screen space, rounded once; open where a part is not
finite. DESIGN CHOICE, unsafe (log 18). -/
def Piece.depth (t : Piece) (c : DrawCard) (px py : Int) (free : Word) : Nat :=
  let f := Fmt.f32.decode
  let parts := [f t.v0.z, f t.v1.z, f t.v2.z, f c.near, f c.far]
  if parts.any fun p => p.isNan || p.isInf then low32 free
  else
    let l := t.weights px py
    let term := fun (w : Int) (z : Nat) => (Dy.mk w 0).mul (f z).dy
    let zn := ((term l[0] t.v0.z).add (term l[1] t.v1.z)).add (term l[2] t.v2.z)
    let a : Int := l[0] + l[1] + l[2]
    let n := ((f c.near).dy.mul { m := a, e := 0 }).add (zn.mul ((f c.far).dy.add (f c.near).dy.neg))
    (Fmt.f32.round .ne (n.m < 0) n.m.natAbs a.natAbs n.e).bits

/-! ## Pixels and quads -/

/-- Pixels of the viewport whose centres may lie in a range over 2^150. -/
def pixelRange (lo hi : Int) (origin extent : Nat) : List Nat :=
  let a := max origin (lo / (2 ^ 150 : Nat) - 1).toNat
  let b := min (origin + extent) (hi / (2 ^ 150 : Nat)).toNat
  (List.range (b + 1 - a)).map fun i => a + i

/-- The pixels a piece covers, row by row. -/
def Piece.pixels (t : Piece) (c : DrawCard) : List (Nat × Nat) :=
  let xs := [t.v0.x, t.v1.x, t.v2.x]
  let ys := [t.v0.y, t.v1.y, t.v2.y]
  let lo := fun (l : List Int) => l.foldl min (l.headD 0)
  let hi := fun (l : List Int) => l.foldl max (l.headD 0)
  (pixelRange (lo ys) (hi ys) c.vpy c.vph).flatMap fun y =>
    ((pixelRange (lo xs) (hi xs) c.vpx c.vpw).filter fun x => t.covers (centre x) (centre y)).map fun x => (x, y)

/-- A covered pixel with the piece that covers it. -/
abbrev Cover := Nat × Nat × Piece

/-- The pieces of a triangle that are drawn. -/
def drawnPieces (c : DrawCard) (vs : List Clip) : List Piece :=
  (fan ((clipTriangle vs).map (mapVertex c))).filter fun t => t.drawn c

/-- DESIGN CHOICE, unsafe (log 18). -/
def coverage (c : DrawCard) (vs : List Clip) : List Cover :=
  (drawnPieces c vs).foldl
    (fun acc t => acc ++ ((t.pixels c).filter fun p => !acc.any fun q => q.1 = p.1 && q.2.1 = p.2).map fun p =>
      (p.1, p.2, t)) []

/-- The quads of a coverage, in the order they are met. -/
def quadsOf (cs : List Cover) : List (Nat × Nat) := (cs.map fun c => (c.1 / 2, c.2.1 / 2)).eraseDups

/-- What the thread of a pixel starts with (R301). DESIGN CHOICE, unsafe (log 18). -/
def pixelSeed (draw prim : Nat) (c : DrawCard) (t : Piece) (x y : Nat) (covered : Bool) (free : Word) : Seed :=
  let b := fun (j : Fin 3) => t.bary (centre x) (centre y) j free
  { frag := { draw := draw, prim := prim, x := x, y := y, depth := w32 (t.depth c (centre x) (centre y) free) },
    n := [w64 (b 1 + b 2 * 2 ^ 32), w64 (x + y * 2 ^ 32), w64 (if t.front c then 2 ^ 32 else 0)], covered := covered }

/-- The four lanes of a quad: pixels it does not cover are helpers of the same primitive.
DESIGN CHOICE, unsafe (log 18). -/
def quadSeeds (draw prim : Nat) (c : DrawCard) (cs : List Cover) (pass : Nat → Nat → Bool) (free : Nat → Word)
    (q : Nat × Nat) : List (Option Seed) :=
  let mine := cs.filter fun k => k.1 / 2 = q.1 && k.2.1 / 2 = q.2
  match mine with
  | [] => List.replicate 4 none
  | k :: _ => (List.range 4).map fun i =>
    let x := 2 * q.1 + i % 2
    let y := 2 * q.2 + i / 2
    match mine.find? fun k => k.1 = x && k.2.1 = y with
    | some k => some (pixelSeed draw prim c k.2.2 x y (pass x y) (free (x + 65536 * y)))
    | none => some (pixelSeed draw prim c k.2.2 x y false (free (x + 65536 * y)))

/-- Parts of a list of at most n elements. -/
def cut {α : Type} (n : Nat) : Nat → List α → List (List α)
  | 0, _ => []
  | k + 1, l => if l.isEmpty then [] else l.take n :: cut n k (l.drop n)

/-! ## Attribute blocks -/

def attrAt (v : VertexOut) (p : Fin 4) (k : Fin 2) : Nat := (v.attrs[p][k]).toNat

/-- a − b rounded to f32. -/
def attrDiff (a b : Nat) : Nat := (Fmt.f32.add .ne (Fmt.f32.decode a) (Fmt.f32.decode b).negate).bits

/-- The block of a pair of attributes (R299, R307). -/
def attrBlock (v0 v1 v2 : VertexOut) (p : Fin 4) : List Byte :=
  ((List.finRange 2).flatMap fun k =>
      bytesLE 4 (attrAt v0 p k) ++ bytesLE 4 (attrDiff (attrAt v1 p k) (attrAt v0 p k))
        ++ bytesLE 4 (attrDiff (attrAt v2 p k) (attrAt v0 p k)))
    ++ bytesLE 8 0

/-- DESIGN CHOICE, unsafe (log 18). -/
def attrBlocks (v0 v1 v2 : VertexOut) (pairs : Nat) : List Byte :=
  ((List.finRange 4).filter fun p => p.val < pairs).flatMap (attrBlock v0 v1 v2)

end Sys2Proof.Machine
end

