-- ==== Sys2Proof/Machine/Render.lean ====
section
/-!
DEFINITION. EXPORT and DISCARD (R308, R384, R388), and the front end and blend units: draws from launch to completion
(R296 to R302, R309).
-/

namespace Sys2Proof.Machine

open Sys2Proof

/-! ## EXPORT and DISCARD -/

def recordExport (e : Export) (t : Thread) : Thread :=
  { t with exports := (t.exports.filter fun x => x.tgt ≠ e.tgt) ++ [e] }

/-- A colour is f16x4, every other part f32x2 (R449). -/
def exportTys (tgt : Fin 16) : List Ty := [if tgt.val ≤ 7 then tyF16 else tyF32, tyF32]

def exportBody (tgt : Fin 16) (depth : Bool) (s : State) (r : Run) (sh : Shape) : Body :=
  let act := s.actors r sh
  match firstExc (s.engPoison r sh act []) with
  | some e => .fault s e
  | none =>
    let value := fun (l : Fin 32) =>
      ({ tgt := tgt.val, a := (s.argAs r sh ((exportTys tgt).headD tyF32) 0 l).bits,
         b := (s.argAs r sh tyF32 1 l).bits, depth := depth } : Export)
    .done s r (.own fun s r' => (s.modLanes r'.wave act fun l t => recordExport (value l) t).goOnRun r')

def execExport (tgt : Fin 16) (depth : Bool) (f : Eng) (s : State) : Host.Outcome State Fault Refusal :=
  execute s (.exportV tgt depth f) (exportTys tgt) (exportBody tgt depth)

def discardBody (s : State) (r : Run) (sh : Shape) : Body :=
  .done s r (.own fun s r' =>
    (s.modLanes r'.wave (r.active sh) fun _ t => { t with helper := true, exports := [] }).goOnRun r')

def execDiscard (f : Eng) (s : State) : Host.Outcome State Fault Refusal := execute s (.discard f) [] discardBody

/-! ## Launch (R296, R297) -/

/-- Does a draw card keep R296 and R309? -/
def drawCardOk (d ccount : Nat) : Bool :=
  let c := DrawCard.decode d
  fld d 1023 704 = 0 && fld d 159 139 = 0 && fld d 128 0 = 0 && c.targets % 128 = 0 && c.pstage % 128 = 0
    && c.vstage % 128 = 0 && c.index % 4 = 0 && c.icount ≥ 1 && c.topo ≤ 1
    && (if c.topo = 0 then c.vcount % 3 = 0 else c.vcount ≥ 3) && fld c.pstate 31 24 = 0 && fld c.pstate 7 5 = 0
    && (List.range 8).all (fun k => fld c.pstate (9 + 2 * k) (8 + 2 * k) ≤ 2) && c.apairs ≤ 4 && c.cull ≤ 2
    && c.wait ≤ ccount && c.signal ≤ ccount

/-- Teams of the vertex stage. -/
def vertexTeams (c : DrawCard) (waves : Nat) : Nat := ceilDiv (c.vcount * c.icount) (32 * waves)

/-- Does a stage record keep R297? -/
def stageOk (d : Nat) (c : DrawCard) (vertex : Bool) : Bool :=
  let r := Card.decode d
  let teams := if vertex then vertexTeams c r.waves else 1
  cardReservedOk d && r.fieldsOk (teams - 1) && r.cohort = 1 && r.cohm1 = 0 && r.cmin = 0 && r.wait = 0 && r.signal = 0
    && r.early = 0 && r.cls = 0
    && (if vertex then r.named ≥ 2 else r.named ≥ 3 && r.waves ≤ 4 && r.scratch ≥ 32 * c.apairs)

/-- The job of a stage. -/
def stageJob (id draw : Nat) (vertex : Bool) (card : Card) (c : DrawCard) (base : Job) : Job :=
  let teams := vertexTeams c card.waves
  { base with
    id := id, card := { card with cls := c.cls, cohm1 := if vertex then teams - 1 else 0 },
    nextCohort := if vertex && teams = 0 then 1 else 0, earlyDone := true, draw := some (draw, vertex) }

/-- The indices of an instance's vertices (R296). -/
def State.vertexIndices (s : State) (x : Xctx) (c : DrawCard) : Except XErr (List Word × State) :=
  if c.index = 0 then .ok ((List.range c.vcount).map fun i => w64 (c.first + i), s)
  else
    (s.xreadN x (c.index + 4 * c.first) (4 * c.vcount)).map fun (bs, _, s) =>
      ((List.range c.vcount).map fun i => w64 (natLE ((bs.drop (4 * i)).take 4)), s)

/-- Draws of the same queue that were launched before one. DESIGN CHOICE, unsafe (log 19). -/
def State.earlierDraws (s : State) (d : Draw) : List Draw :=
  (s.draws.takeWhile fun e => e.id ≠ d.id).filter fun e => e.vf = d.vf && e.queue = d.queue

/-- Has the front end fetched every vertex of a draw: are all teams of its vertex stage launched? -/
def State.verticesFetched (s : State) (d : Draw) : Bool :=
  d.rejected || (s.job d.vjob).nextCohort = (s.job d.vjob).card.cohm1 + 1

/-- A draw comes to be, with the jobs of its stages, or with the code of its rejection. -/
def State.startDraw (s : State) (vf queue idx addr d : Nat) (asd : Asd) (stages : Nat × Nat) (verts : List Word)
    (reject : Option (Nat × Nat × Nat)) : State :=
  let part := (s.vf vf).partition
  let c := DrawCard.decode d
  let (id, s) := s.newJobId
  let new : Draw :=
    { id := id, vf := vf, part := part, queue := queue, cardIdx := w32 idx, cardAddr := w64 addr,
      card := BitVec.ofNat 1024 d, asd := asd, vjob := 0, pjob := 0,
      status := (match reject with | some (k, _, _) => k | none => 0), verts := verts, vout := [], nextPrim := 0,
      formed := [], pending := [], ready := [], rejected := reject.isSome, recorded := false }
  let s := { s with draws := s.draws ++ [new] }
  match reject with
  | some (k, sub, a) => s.cardRecord vf part id k sub a
  | none =>
    let base : Job :=
      { Job.blank with vf := vf, part := part, cardIdx := w32 idx, cardAddr := w64 addr, asd := asd, launched := s.now }
    let (v, s) := s.newJobId
    let s := { s with jobs := s.jobs ++ [stageJob v id true (Card.decode stages.1) c base] }
    let (p, s) := s.newJobId
    let s := { s with jobs := s.jobs ++ [stageJob p id false (Card.decode stages.2) c base] }
    s.modDraw id fun d => { d with vjob := v, pjob := p }

/-- The head card of a queue of draws with a slot launches, or is rejected (R296). -/
def execDrawLaunch (vf queue : Nat) (s : State) : Host.Outcome State Fault Refusal :=
  let q := s.qdesc vf queue
  let r := s.vf vf
  let busy := s.draws.any fun d => d.vf = vf && d.queue = queue && !s.verticesFetched d
  if !s.mayStart r.partition || !s.mapped vf queue || q.empty || !q.en || !q.draw || busy then .next s
  else
    let x := s.queueCtx vf q
    let addr := q.cardAt q.head
    let go := fun (s : State) (d : Nat) (stages : Nat × Nat) (verts : List Word) (reject : Option (Nat × Nat × Nat)) =>
      let s := s.startDraw vf queue q.head addr d x.asd stages verts reject
      let s := s.putHead vf queue ((q.head + 1) % 2 ^ 32)
      Host.Outcome.next ((s.releaseSlot vf queue).settle)
    let stop := fun (s : State) (d : Nat) (e : XErr) => go (s.markLeaves x.part e.marks) d (0, 0) [] (some (e.code, e.sub, addr))
    match s.readCard x addr with
    | .error e => go (s.markLeaves x.part e.marks) 0 (0, 0) [] (some (e.code, e.sub, addr))
    | .ok (d, s) =>
      let c := DrawCard.decode d
      let bad := go s d (0, 0) [] (some (Code.illegal, 0, addr))
      if !s.waitDone vf c.wait then .next s
      else if !drawCardOk d r.ccount then bad
      else
        match s.readCard x c.vstage with
        | .error e => stop s d e
        | .ok (v, s) =>
          match s.readCard x c.pstage with
          | .error e => stop s d e
          | .ok (p, s) =>
            if !stageOk v c true || !stageOk p c false then bad
            else
              match s.vertexIndices x c with
              | .error e => stop s d e
              | .ok (vs, s) => go s d (v, p) vs none

/-! ## Render targets (R298) -/

structure Target where
  fmt  : Nat
  w    : Nat
  h    : Nat
  base : Nat
  deriving DecidableEq, Repr

/-- Is there a target; `depth` asks for the depth buffer's format. DESIGN CHOICE, unsafe (log 19). -/
def Target.present (t : Target) (depth : Bool) : Bool := if depth then t.fmt = 2 else t.fmt ≤ 2

def Target.bytes (t : Target) : Nat := texelBytes t.fmt
def Target.addr (t : Target) (x y : Nat) : Nat := t.base + y * roundUp (t.w * t.bytes) 128 + x * t.bytes

/-- Accesses of the front end and the blend units for a draw. -/
def Draw.ctx (d : Draw) : Xctx := { part := d.part, cluster := 0, core := none, asd := d.asd, sys := false }

def State.target (s : State) (d : Draw) (k : Nat) : Except XErr (Target × State) :=
  (s.xreadNat d.ctx (d.desc.targets + 16 * k) 16).map fun (n, s) =>
    ({ fmt := fld n 103 100, w := fld n 79 64 + 1, h := fld n 95 80 + 1, base := fld n 63 0 }, s)

/-- Does the target hold a pixel? -/
def Target.holds (t : Target) (depth : Bool) (x y : Nat) : Bool := t.present depth && x < t.w && y < t.h

/-! ## Depth (R309) -/

/-- DFUNC: the fragment's depth against the buffer's. DESIGN CHOICE, unsafe (log 19). -/
def depthPass (func : Nat) (a b : Nat) : Bool :=
  let x := Fmt.f32.decode a
  let y := Fmt.f32.decode b
  let lt := !x.isNan && !y.isNan && Fp.lt false x y
  let gt := !x.isNan && !y.isNan && Fp.lt false y x
  let eq := Fp.same x y
  match func with
  | 0 => false | 1 => lt | 2 => eq | 3 => lt || eq | 4 => gt | 5 => !eq | 6 => gt || eq | _ => true

/-- Tests and, where it passes and DWRITE is set, writes the depth of a pixel. -/
def State.depthTest (s : State) (d : Draw) (x y : Nat) (z : W32) : Except XErr (Bool × State) := do
  let (t, s) ← s.target d 8
  if !t.holds true x y then pure (true, s)
  else
    let (old, s) ← s.xreadNat d.ctx (t.addr x y) 4
    if !depthPass (fld d.desc.pstate 2 0) z.toNat old then pure (false, s)
    else if fld d.desc.pstate 3 3 = 1 then
      let (_, s) ← s.xput d.ctx (t.addr x y) (bytesLE 4 z.toNat) false
      pure (true, s)
    else pure (true, s)

def Draw.early (d : Draw) : Bool := fld d.desc.pstate 4 4 = 1

/-! ## Rasterisation (R299, R301, R302) -/

/-- Depth of the covered pixels before launch, row by row; answers those that pass. DESIGN CHOICE, unsafe (log 19). -/
def State.earlyTests (s : State) (d : Draw) (free : Nat → Word) :
    List Cover → Except XErr (List (Nat × Nat) × State)
  | [] => .ok ([], s)
  | (x, y, t) :: rest => do
    let z := w32 (t.depth d.desc (centre x) (centre y) (free (x + 65536 * y)))
    let (ok, s) ← s.depthTest d x y z
    let (ps, s) ← s.earlyTests d free rest
    pure (if ok then (x, y) :: ps else ps, s)

/-- The teams of a primitive: quads eight to a wave. DESIGN CHOICE, unsafe (log 18). -/
def formTeams (waves : Nat) (quads : List (List (Option Seed))) (attrs : List Byte) : List PixelTeam :=
  let ws := (cut 8 quads.length quads).map fun qs => qs.flatten
  (cut waves ws.length ws).map fun w => { waves := w, attrs := attrs }

def Draw.vertex? (d : Draw) (g : Nat) : Option VertexOut := d.vout.find? fun v => v.pair = g

/-- The next primitive of a draw, once its vertices have left their threads and the draws before it in its queue are
rasterised: teams for it join those that wait for admission. -/
def execRasterise (draw : Nat) (s : State) : Host.Outcome State Fault Refusal :=
  match s.draw? draw with
  | none => .next s
  | some d =>
    let c := d.desc
    let before := s.earlierDraws d
    if d.rejected || d.nextPrim ≥ c.primCount
        || before.any (fun e => !e.rejected && e.nextPrim < e.desc.primCount) then .next s
    else
      match (c.primitive d.nextPrim).map d.vertex? with
      | [some v0, some v1, some v2] =>
        let free := fun (k : Nat) => s.openWord 5 k
        let clip := fun (i : Fin 3) (v : VertexOut) => clipVertex (fun k => free (2 ^ 36 + 4 * i.val + k)) i v.pos
        let cs := coverage c [clip 0 v0, clip 1 v1, clip 2 v2]
        let late := d.early && cs.any fun p =>
          before.any fun e => e.pending.any fun f => f.x = p.1 && f.y = p.2.1
        if late then .next s
        else
          match (if d.early then s.earlyTests d free cs else .ok (cs.map fun p => (p.1, p.2.1), s)) with
          | .error _ => .next s
          | .ok (ps, s) =>
            let pass := fun (x y : Nat) => ps.contains (x, y)
            let quads := (quadsOf cs).map (quadSeeds draw d.nextPrim c cs pass free)
            let teams := formTeams (s.job d.pjob).card.waves quads (attrBlocks v0 v1 v2 c.apairs)
            let frags := quads.flatten.filterMap fun x =>
              match x with | some x => if x.covered then some x.frag else none | none => none
            .next (s.modDraw draw fun d =>
              { d with
                nextPrim := d.nextPrim + 1, formed := d.formed ++ teams, pending := d.pending ++ frags })
      | _ => .next s

/-! ## Blending (R298, R309) -/

/-- A channel of a sum over the divisor 255, as unorm: clamped, rounded nearest-even. -/
def unormRound (v : Dy) : Nat :=
  let n := (toRat v).1
  let e := (toRat v).2
  if v.m ≤ 0 then 0 else min 255 (roundNat .ne false n e).1
where
  toRat (v : Dy) : Nat × Nat := (v.m.natAbs * 2 ^ v.e.toNat, 2 ^ (-v.e).toNat)

/-- 1 − a. -/
def oneLess (a : Fp) : Fp :=
  match a with
  | .inf n => .inf (!n)
  | .nan s => .nan s
  | .fin .. =>
    let d := Dy.add { m := 1, e := 0 } a.dy.neg
    .fin (d.m < 0) d.m.natAbs d.e

/-- The terms whose sum a blend is (R309), each with whether it has no value: an infinity times 0. -/
def blendTerms (op : Nat) (src alpha dst : Fp) : List (Fp × Bool) :=
  match op with
  | 0 => [(src, false)]
  | 1 => [(src, false), (dst, false)]
  | _ => [mulExact alpha src, mulExact (oneLess alpha) dst]

/-- One channel: source, source alpha and what the target holds, as a code of its format `f`, none for unorm. A NaN gives the
canonical NaN, or leaves a unorm channel open; an infinite sum is that infinity, or the end of a unorm channel's range; a
sum with no value leaves the channel open. -/
def blendChannel (op : Nat) (f : Option Fmt) (src alpha : Fp) (old free : Nat) : Nat :=
  let scale : Dy := { m := if f.isNone then 255 else 1, e := 0 }
  let dst := match f with | some f => f.decode old | none => .fin false old 0
  let used := match op with | 0 => [src] | 1 => [src, dst] | _ => [src, alpha, dst]
  let open_ := match f with | some f => free % 2 ^ f.width | none => free % 256
  let terms := blendTerms op src alpha dst
  let infs := (terms.map fun t => t.1).filter Fp.isInf
  if used.any Fp.isNan then (match f with | some f => f.nan | none => open_)
  else if terms.any (fun t => t.2) || (infs.any Fp.neg && infs.any fun t => !t.neg) then open_
  else match infs with
  | t :: _ => (match f with | some f => f.inf t.neg | none => if t.neg then 0 else 255)
  | [] =>
    let one : Dy := { m := 1, e := 0 }
    let rest := one.add alpha.dy.neg
    let v := match op with
      | 0 => src.dy.mul scale
      | 1 => (src.dy.mul scale).add dst.dy
      | _ => ((alpha.dy.mul src.dy).mul scale).add (rest.mul dst.dy)
    let zero := match op with
      | 0 => src.neg
      | 1 => zeroSum .ne src.neg dst.neg
      | _ => zeroSum .ne (alpha.neg != src.neg) ((rest.m < 0) != dst.neg)
    match f with
    | some f => (f.roundDy .ne v zero).bits
    | none => unormRound v

/-- The bytes of a pixel after an export (R298, R309). -/
def blendPixel (op fmt : Nat) (a : Word) (old : Nat) (free : Word) : List Byte :=
  let src := fun (k : Nat) => Fmt.f16.decode (subN 16 a k)
  match fmt with
  | 0 => (List.range 4).flatMap fun k =>
      bytesLE 1 (blendChannel op none (src k) (src 3) (old / 2 ^ (8 * k) % 256) (subN 8 free k))
  | 1 => (List.range 4).flatMap fun k =>
      bytesLE 2 (blendChannel op (some Fmt.f16) (src k) (src 3) (old / 2 ^ (16 * k) % 65536) (subN 16 free k))
  | _ => bytesLE 4 (blendChannel op (some Fmt.f32) (src 0) (src 3) old (low32 free))

/-- A fragment's colours, target by target. -/
def State.blendTargets (s : State) (d : Draw) (x y : Nat) : List Export → Except XErr State
  | [] => .ok s
  | e :: es => do
    let (t, s) ← s.target d e.tgt
    if e.tgt ≥ 8 || !t.holds false x y then s.blendTargets d x y es
    else
      let (bs, p, s) ← s.xreadN d.ctx (t.addr x y) t.bytes
      let op := fld d.desc.pstate (9 + 2 * e.tgt) (8 + 2 * e.tgt)
      let new := blendPixel op t.fmt e.a (natLE bs) (s.openWord 6 e.tgt)
      let (_, s) ← s.xput d.ctx (t.addr x y) new (p && op ≠ 0)
      s.blendTargets d x y es

/-- A fragment's depth, which a recorded depth replaces (R308, R309). DESIGN CHOICE, unsafe (log 19). -/
def Fragment.depthOf (f : Fragment) : W32 :=
  match (f.exports.filter fun e => e.depth).getLast? with
  | some e => w32 (low32 e.b)
  | none => f.frag.depth

/-- The blend unit's work for a fragment. DESIGN CHOICE, unsafe (log 19). -/
def State.blend (s : State) (d : Draw) (f : Fragment) : Except XErr State :=
  if f.dropped then .ok s
  else if d.early then s.blendTargets d f.frag.x f.frag.y f.exports
  else do
    let (ok, s) ← s.depthTest d f.frag.x f.frag.y f.depthOf
    if ok then s.blendTargets d f.frag.x f.frag.y f.exports else pure s

/-- Fragments whose threads have exited and that nothing at their pixel stands before (R309).
DESIGN CHOICE, unsafe (log 19). -/
def State.nextFragment (s : State) (d : Draw) : Option Fragment :=
  let before := (s.earlierDraws d).flatMap fun e => e.pending
  let first := fun (f : Frag) =>
    (d.pending.find? fun g => g.x = f.x && g.y = f.y) = some f && !before.any fun g => g.x = f.x && g.y = f.y
  d.ready.find? fun f => first f.frag

/-- One fragment is tested and blended. -/
def execFragmentBlend (draw : Nat) (s : State) : Host.Outcome State Fault Refusal :=
  match s.draw? draw with
  | none => .next s
  | some d =>
    match s.nextFragment d with
    | none => .next s
    | some f =>
      match s.blend d f with
      | .error _ => .next s
      | .ok s => .next (s.modDraw draw fun d =>
          { d with pending := d.pending.erase f.frag, ready := d.ready.erase f })

/-! ## Completion (R300) -/

/-- Is every fragment written and every team of both stages over? -/
def State.drawOver (s : State) (d : Draw) : Bool :=
  d.rejected || (d.nextPrim ≥ d.desc.primCount && d.pending.isEmpty && d.ready.isEmpty
    && s.jobOver (s.job d.vjob) && s.jobOver (s.job d.pjob))

/-- The draw's record. -/
def State.recordDraw (s : State) (d : Draw) : State :=
  (s.modDraw d.id fun d => { d with recorded := true }).recordCompletion d.vf d.queue d.id d.status d.cardIdx

/-- Its counter goes down, and it is gone with the jobs of its stages. -/
def State.finishDraw (s : State) (d : Draw) : State :=
  let s := s.decCounter d.vf d.desc.signal 1
  let s := if d.rejected then s else (s.forgetJob d.vjob).forgetJob d.pjob
  { s with
    draws := s.draws.filter fun e => e.id ≠ d.id,
    jobs := if d.rejected then s.jobs else s.jobs.filter fun j => j.id ≠ d.vjob && j.id ≠ d.pjob }

/-- A draw completes as a job does (R288, R300). -/
def execDrawComplete (draw : Nat) (s : State) : Host.Outcome State Fault Refusal :=
  match s.draw? draw with
  | none => .next s
  | some d =>
    if !s.drawOver d then .next s
    else
      let s := if d.recorded then s else s.recordDraw d
      if s.recordHeld draw then .next s else .next (s.finishDraw d)

end Sys2Proof.Machine
end

