-- ==== Sys2Proof/Machine/Rays.lean ====
section
/-!
DEFINITION. RAYQ and the ray units (R310, R311, R429): exact box and triangle tests over a tree in memory.
-/

namespace Sys2Proof.Machine

open Sys2Proof

/-! ## Before commit -/

def rayqBody (any cull : Bool) (tok n : Nat) (s : State) (r : Run) (sh : Shape) : Body :=
  let act := s.actors r sh
  let a := fun (l : Fin 32) => (s.engArg r sh 0 l).bits
  let ins := (List.range 4).map fun k => n + k
  let excs := (lanesOf act).flatMap (fun l => needs ((a l).toNat % 128 = 0) l (alignExc l (a l).toNat))
    ++ s.engPoison r sh act ins
  if act = 0 then .done s r (.own fun s r' => s.goOnRun r')
  else
    match firstExc excs with
    | some e => .fault s e
    | none =>
      .done s r (.own fun s r' =>
        let (seq, s) := s.takeSeq r'.wave
        let s := (lanesOf act).foldl
          (fun s l =>
            let ray := ins.map fun k => (r.spec[l].getN k).bits
            let s := s.newCmd r'.wave (laneBit l) (some tok) seq r.pc (.rayq any cull (a l) ray n)
            (s.setPending r'.wave (laneBit l) n).setPending r'.wave (laneBit l) (n + 1)) s
        s.goOnRun r')

def execRayq (any cull : Bool) (f : Eng) (s : State) : Host.Outcome State Fault Refusal :=
  execute s (.rayq any cull f) engTys (rayqBody any cull (f.t.reg.headD 0) ((f.n.map Fin.val).getD 0))

/-! ## Exact geometry -/

/-- A finite f32 over 2^149; none for an infinity or a NaN. -/
def fixed32 (w : Nat) : Option Int :=
  match Fmt.f32.decode w with
  | .fin n m e => some ((Fp.fin n m e).dy.m * (2 ^ (e + 149).toNat : Nat))
  | _ => none

abbrev V3 := Vector Int 3

def V3.sub (a b : V3) : V3 := #v[a[0] - b[0], a[1] - b[1], a[2] - b[2]]
def V3.dot (a b : V3) : Int := a[0] * b[0] + a[1] * b[1] + a[2] * b[2]
def V3.cross (a b : V3) : V3 := #v[a[1] * b[2] - a[2] * b[1], a[2] * b[0] - a[0] * b[2], a[0] * b[1] - a[1] * b[0]]

/-- A condition α + β t ≥ 0 on the ray's parameter. -/
structure Half where
  alpha : Int
  beta  : Int
  deriving DecidableEq, Repr

/-- n / d with d > 0. -/
structure Rat' where
  n : Int
  d : Int
  deriving DecidableEq, Repr

def Rat'.le (a b : Rat') : Bool := a.n * b.d ≤ b.n * a.d

/-- The parameters that meet every condition: none, or their lower end, where they have one. -/
def meet (hs : List Half) : Option (Option Rat') :=
  let lows := (hs.filter fun h => h.beta > 0).map fun h => ({ n := -h.alpha, d := h.beta } : Rat')
  let highs := (hs.filter fun h => h.beta < 0).map fun h => ({ n := h.alpha, d := -h.beta } : Rat')
  let lo := lows.foldl (fun (b : Option Rat') x => match b with | some y => if Rat'.le y x then some x else b | none => some x) none
  let ok := hs.all (fun h => h.beta ≠ 0 || h.alpha ≥ 0) && highs.all fun h => match lo with | some l => Rat'.le l h | none => true
  if ok then some lo else none

/-- A ray: origin, direction, and the conditions of [tmin, tmax]. -/
structure Ray where
  o     : V3
  d     : V3
  range : List Half
  deriving DecidableEq, Repr

/-- What the input registers hold: a ray; a NaN, which hits nothing; or an infinite origin or direction, for which no
result is stated. -/
inductive RayIn where
  | ray (r : Ray) | nan | open_
  deriving DecidableEq, Repr

def one149 : Int := (2 ^ 149 : Nat)

/-- t ≥ x when `low`, else t ≤ x. An infinite bound admits all parameters or none. -/
def rangeHalf (x : Nat) (low : Bool) : Half :=
  match Fmt.f32.decode x with
  | .inf n => { alpha := if n = low then 0 else -1, beta := 0 }
  | _ => let v := (fixed32 x).getD 0; if low then { alpha := -v, beta := one149 } else { alpha := v, beta := -one149 }

/-- Input registers (oy, ox), (dx, oz), (dz, dy), (tmax, tmin). -/
def rayOf (ws : List Word) : RayIn :=
  let f := fun (k : Nat) => subN 32 (ws.getD (k / 2) 0) (k % 2)
  if (List.range 8).any fun k => (Fmt.f32.decode (f k)).isNan then .nan
  else
    match (List.range 6).map fun k => fixed32 (f k) with
    | [some a, some b, some c, some d, some e, some g] =>
      .ray { o := #v[a, b, c], d := #v[d, e, g], range := [rangeHalf (f 6) true, rangeHalf (f 7) false] }
    | _ => .open_

/-- Does the exact ray enter a box? A bound that is not finite rejects nothing. DESIGN CHOICE, unsafe (log 22). -/
def Ray.enters (r : Ray) (box : List Nat) : Bool :=
  let hs := (List.finRange 3).flatMap fun i =>
    (match fixed32 (box.getD i.val 0) with | some lo => [({ alpha := r.o[i] - lo, beta := r.d[i] } : Half)] | none => [])
      ++ match fixed32 (box.getD (3 + i.val) 0) with | some hi => [({ alpha := hi - r.o[i], beta := -r.d[i] } : Half)] | none => []
  (meet (r.range ++ hs)).isSome

/-- A hit: t, and the weights of v1 and v2 over a common divisor. -/
structure Hit where
  t   : Rat'
  b1  : Int
  b2  : Int
  den : Int
  prim : Nat
  deriving DecidableEq, Repr

/-- Where the exact line meets a closed triangle, first in [tmin, tmax] (R311). Barycentrics of the point at t are
(p₁ + q₁ t) / n·n and (p₂ + q₂ t) / n·n, with n the normal. DESIGN CHOICE, unsafe (log 22). -/
def Ray.hits (r : Ray) (v0 v1 v2 : V3) (cull : Bool) : Option Hit :=
  let e1 := V3.sub v1 v0
  let e2 := V3.sub v2 v0
  let n := V3.cross e1 e2
  let nn := V3.dot n n
  let w := V3.sub r.o v0
  let p1 := V3.dot (V3.cross w e2) n
  let q1 := V3.dot (V3.cross r.d e2) n
  let p2 := V3.dot (V3.cross e1 w) n
  let q2 := V3.dot (V3.cross e1 r.d) n
  let height := V3.dot w n
  let slope := V3.dot r.d n
  let back := if Config.rayCcwFront then slope > 0 else slope < 0
  if nn = 0 || (cull && back) then none
  else
    match meet (r.range ++ [⟨p1, q1⟩, ⟨p2, q2⟩, ⟨nn - p1 - p2, -q1 - q2⟩, ⟨height, slope⟩, ⟨-height, -slope⟩]) with
    | some (some t) => some { t := t, b1 := p1 * t.d + q1 * t.n, b2 := p2 * t.d + q2 * t.n, den := nn * t.d, prim := 0 }
    | _ => none

/-! ## Traversal -/

/-- How far a query has come. -/
inductive Trace where
  | hits (hs : List Hit) (poison : Bool) (s : State)   -- and whether some node read was poisoned
  | bad (s : State)                       -- a reserved kind, or nesting deeper than 64
  | stop (e : XErr)
  | later

def wordsAt (bs : List (Byte × Bool)) (k : Nat) : Nat := natLE (((bs.drop (4 * k)).take 4).map fun b => b.1)

/-- A triangle node's hit. DESIGN CHOICE, unsafe (log 22). -/
def triangleHit (r : Ray) (cull : Bool) (bs : List (Byte × Bool)) : List Hit :=
  match (List.range 9).map fun k => fixed32 (wordsAt bs k) with
  | [some a, some b, some c, some d, some e, some f, some g, some h, some i] =>
    match r.hits #v[a, b, c] #v[d, e, f] #v[g, h, i] cull with
    | some x => [{ x with prim := wordsAt bs 9 }]
    | none => []
  | _ => []

/-- The children of a box node from child k on, each by `visit`, the node's kind and index. -/
def eachChild (visit : Nat → Nat → State → Trace) (take : Nat → Bool) (bs : List (Byte × Bool)) : Nat → Nat → State → Trace
  | 0, _, s => .hits [] false s
  | n + 1, k, s =>
    let w := wordsAt bs (24 + k)
    let kind := w / 2 ^ 30
    if kind = 3 then .bad s
    else if kind = 0 || !take k then eachChild visit take bs n (k + 1) s
    else
      match visit kind (w % 2 ^ 30) s with
      | .hits hs p s =>
        match eachChild visit take bs n (k + 1) s with
        | .hits hs' p' s => .hits (hs ++ hs') (p || p') s
        | r => r
      | r => r

/-- The hits under a node. `depth` is the nesting still allowed. A box that the ray does not enter may be visited.
DESIGN CHOICE, unsafe (log 22). -/
def State.trace (c : Xctx) (root : Nat) (r : Ray) (cull : Bool) : Nat → Nat → Nat → State → Trace
  | 0, _, _, s => .bad s
  | depth + 1, kind, index, s =>
    match s.fetch c ((root + 128 * index) % 2 ^ 64) 128 with
    | .stop e => .stop e
    | .later => .later
    | .got bs s =>
      let poisoned := bs.any fun b => b.2
      if kind = 2 then .hits (triangleHit r cull bs) poisoned s
      else
        let take := fun (k : Nat) =>
          r.enters ((List.range 6).map fun i => wordsAt bs (6 * k + i)) || s.pickNo 6 (4 * index + k) % 2 = 1
        match eachChild (fun kind i s => State.trace c root r cull depth kind i s) take bs 4 0 s with
        | .hits hs p s => .hits hs (p || poisoned) s
        | x => x

def Hit.before (a b : Hit) : Bool :=
  if a.t.n * b.t.d = b.t.n * a.t.d then a.prim < b.prim else a.t.n * b.t.d < b.t.n * a.t.d

/-- The closest hit; for any-hit, any of them. DESIGN CHOICE, unsafe (log 22). -/
def pickHit (any : Bool) (free : Nat) (hs : List Hit) : Option Hit :=
  if any then choose free hs
  else match hs with
    | [] => none
    | h :: rest => some (rest.foldl (fun b x => if x.before b then x else b) h)

/-- n/d as f32, nearest-even. -/
def toF32 (n d : Int) : Nat := (Fmt.f32.round .ne (n < 0) n.natAbs d.natAbs 0).bits

/-- The outputs: n and n + 1. -/
def rayOut (poison : Bool) (h : Option Hit) : Val × Val :=
  let p : BitVec 8 := if poison then 0xFF else 0
  match h with
  | none => (⟨0xFFFFFFFF7F800000, p⟩, ⟨0, p⟩)
  | some h =>
    (⟨w64 (toF32 h.t.n h.t.d + h.prim * 2 ^ 32), p⟩, ⟨w64 (toF32 h.b1 h.den + toF32 h.b2 h.den * 2 ^ 32), p⟩)

/-- Outputs first, the token last (R310). -/
def State.rayEnd (s : State) (c : Cmd) (n : Nat) (out : Val × Val) (code : Nat) : State :=
  let l := lowestLane c.lanes
  ((s.engineWriteVal c.wave l n out.1).engineWriteVal c.wave l (n + 1) out.2).endCmd c (w64 code) 0

def State.rayWork (s : State) (id : Nat) : Worked :=
  match s.cmd? id with
  | some c =>
    match c.kind with
    | .rayq any cull root ray n =>
      if !c.runs then .later
      else
        match rayOf ray with
        | .nan => .ok (s.rayEnd c n (rayOut false none) 0)
        | .open_ => .ok (s.rayEnd c n (⟨s.openWord 2 (2 * id), 0⟩, ⟨s.openWord 2 (2 * id + 1), 0⟩) 0)
        | .ray r =>
          match State.trace (c.srcCtx) root.toNat r cull 64 1 0 s with
          | .stop e => .stop e
          | .later => .later
          | .bad s => .ok (s.rayEnd c n (rayOut false none) Code.illegal)
          | .hits hs p s => .ok (s.rayEnd c n (rayOut p (pickHit any (s.pickNo 7 id) hs)) 0)
    | _ => .later
  | none => .later

/-- DEDUCED, unsafe (log 10). -/
def execRayqComplete (cmd : Nat) (s : State) : Host.Outcome State Fault Refusal := (s.rayWork cmd).out s

end Sys2Proof.Machine
end

