-- ==== Sys2Proof/Machine/Streams.lean ====
section
/-!
DEFINITION. The stream engine as SIMT threads see it: ownership (R209), semaphores, ENGAGE and RDV (R216, R385, R430, R437),
data queues (R213 to R215, R428), and the ends of their waits.
-/

namespace Sys2Proof.Machine

open Sys2Proof

/-! ## Ownership -/

/-- The stream owner of a core (R209). -/
def State.streamOwner (s : State) (core : Nat) : Option TeamId :=
  (s.teams.find? fun t => t.owner && t.coreNo = core && t.place = .resident).map fun t => t.id

/-- Makes a team the owner when its core has none; answers whether it is. -/
def State.own (s : State) (t : TeamId) : Bool × State :=
  let u := s.team t
  if u.owner then (true, s)
  else if (s.streamOwner u.coreNo).isSome then (false, s)
  else (true, s.modTeam t fun u => { u with owner := true })

/-! ## Operations -/

/-- Which operations are served in one order: those of one semaphore, of one end of one queue, ENGAGE, RDV. -/
def WaitOp.line : WaitOp → Nat
  | .sig .. => 100
  | .sem k _ => k.val
  | .pop k _ => 20 + k.val
  | .push k _ => 30 + k.val
  | .engage .. => 40
  | .rdv => 50

/-- Does an operation that arrived earlier in the same line still wait (R216)? -/
def Team.behind (t : Team) (x : Waiter) : Bool :=
  t.waiters.any (fun y => y.order < x.order && y.op.line = x.op.line)
    || (match x.op, t.stream.st with
        | .sem k _, .awaiting o k' _ => k = k' && o < x.order
        | _, _ => false)

/-- Can an operation complete now (R214, R216, R430)? -/
def Team.opReady (t : Team) (x : Waiter) : Bool :=
  match x.op with
  | .sig .. => true
  | .sem k n => n = 0 || (n ≤ t.sem[k] && !t.behind x)
  | .pop k _ => !(t.dq[k]).isEmpty && !t.behind x
  | .push k _ => (t.dq[k]).length < t.dqCap[k] && !t.behind x
  | .engage .. => t.stream.st = .idle && !t.behind x
  | .rdv => t.stream.st = .idle

/-- The program of an ENGAGE (R216, R385), which stands at its entry header; what earlier programs wrote stays with the
engine for RDV, and a fault's record has the ENGAGE's words (R197). -/
def Stream.start (old : Stream) (x : Waiter) (entry arg : Word) (seq : W32) (enc : List W32) : Stream :=
  { Stream.idle with
    st := .running, pc := entry, blk := entry, a := (Vector.replicate 16 0).set 0 arg, site := x.pc, seq := seq,
    wave := x.wave.wave, order := x.order, sig := old.sig, enc := enc }

/-- Performs an operation that is ready; its threads go on from where they wait. -/
def State.doOp (s : State) (x : Waiter) : State :=
  let t := x.wave.team
  let u := s.team t
  let s := s.modTeam t fun u => { u with waiters := u.waiters.filter fun y => y.order ≠ x.order }
  let s := match x.op with
    | .sig k n =>
      let (sig, s) := s.takeSig x.wave x.mask
      s.modTeam t fun u =>
        { u with sem := u.sem.set k (min (u.sem[k] + n) 65535), semSig := u.semSig.set k (u.semSig[k] ||| sig) }
    | .sem k n =>
      (s.modTeam t fun u => { u with sem := u.sem.set k (u.sem[k] - n) }).acquire u.coreNo u.semSig[k]
    | .pop k d =>
      match u.dq[k] with
      | [] => s
      | e :: rest =>
        let s := s.modTeam t fun u =>
          { u with dq := u.dq.set k rest, dqCap := if rest.isEmpty then u.dqCap.set k 16 else u.dqCap }
        let s := s.acquire u.coreNo u.dqSig[k]
        (lanesOf x.mask).foldl
          (fun s l => s.setRegs x.wave l fun g =>
            g.putThread d (LaneMask.has x.act l) (e.getD l.val Val.zero)) s
    | .push k e =>
      let (sig, s) := s.takeSig x.wave x.mask
      s.modTeam t fun u => { u with dq := u.dq.set k (u.dq[k] ++ [e]), dqSig := u.dqSig.set k (u.dqSig[k] ||| sig) }
    | .engage entry arg seq =>
      let (_, s) := s.takeSig x.wave x.mask
      let enc := (s.peekWords (s.xctx x.wave) x.pc).getD []
      s.modTeam t fun u => { u with stream := u.stream.start x entry arg seq enc }
    | .rdv => s.acquire u.coreNo u.stream.sig
  s.resumeCmd x.wave x.mask

def WaitOp.status : WaitOp → Wait
  | .sig .. => .streamOwner
  | .sem .. => .semwait
  | .pop .. => .qpop
  | .push .. => .qpush
  | .engage .. => .engage
  | .rdv => .rdv

/-- An operation whose team is the owner: performed now, or left waiting in arrival order. -/
def State.tryOp (s : State) (x : Waiter) : State :=
  if (s.team x.wave.team).opReady x then s.doOp x
  else
    let s := s.modTeam x.wave.team fun u =>
      { u with waiters := (u.waiters.filter fun y => y.order ≠ x.order) ++ [{ x with owned := true }] }
    s.modLanes x.wave x.mask fun _ t => { t with status := .waiting x.op.status }

/-- Makes a team the owner when its core has none: its operations that waited for that start in arrival order (R209, R216).
Answers whether it is the owner. -/
def State.claim (s : State) (t : TeamId) : Bool × State :=
  match s.own t with
  | (false, s) => (false, s)
  | (true, s) => (true, ((s.team t).waiters.filter fun x => !x.owned).foldl State.tryOp s)

/-- The commit of a stream operation by a group (R209, R216): it waits for ownership, waits for its condition, or is done. RDV
is done at once where its team is not the owner (R430). -/
def State.startOp (s : State) (r : Run) (act : LaneMask) (pc : Word) (op : WaitOp) (needsOwner : Bool) : State :=
  let t := r.wave.team
  let n := (s.team t).arrivals
  let s := s.modTeam t fun u => { u with arrivals := n + 1 }
  let x : Waiter :=
    { wave := r.wave, mask := r.group, act := act, pc := pc, op := op, owned := true, order := n,
      enc := (s.peekWords (s.xctx r.wave) pc).getD [] }
  let s := s.waitAt r.wave r.group pc r.pc .streamOwner
  if !needsOwner then (if (s.team t).owner then s.tryOp x else s.doOp x)
  else
    match s.claim t with
    | (true, s) => s.tryOp x
    | (false, s) => s.modTeam t fun u => { u with waiters := u.waiters ++ [{ x with owned := false }] }

/-! ## Instructions -/

/-- The shared form: operands of the lowest participating thread; with none, nothing happens (R216, R437). -/
def onceBody (idle : Bool) (op : Fin 32 → State → Run → WaitOp × State) (excs : Fin 32 → List (Fin 32 × Exc))
    (needsOwner : Bool) (s : State) (r : Run) (sh : Shape) : Body :=
  let act := s.actors r sh
  let l := lowestLane act
  if act = 0 && !idle then .done s r (.own fun s r' => s.goOnRun r')
  else
    match firstExc (if act = 0 then [] else excs l) with
    | some e => .fault s e
    | none =>
      .done s r (.own fun s r' =>
        let (o, s) := op l s r'
        s.startOp r' act r.pc o needsOwner)

def count16 (v : Word) : Nat := bits v 15 0

/-- Poison of the count in the lowest participating lane (R437). -/
def State.countExc (s : State) (r : Run) (sh : Shape) (l : Fin 32) : List (Fin 32 × Exc) :=
  if (s.engArg r sh 0 l).poison.getLsbD 0 || (s.engArg r sh 0 l).poison.getLsbD 1 then [(l, poisonAt l 0)] else []

def semsigBody (k : Fin 8) (s : State) (r : Run) (sh : Shape) : Body :=
  onceBody false (fun l u _ => (.sig k (count16 (s.engArg r sh 0 l).bits), u)) (s.countExc r sh) true s r sh

def execSemsig (k : Fin 8) (f : Eng) (s : State) : Host.Outcome State Fault Refusal :=
  execute s (.semsig k f) engTys (semsigBody k)

def semwaitBody (k : Fin 8) (s : State) (r : Run) (sh : Shape) : Body :=
  onceBody false (fun l u _ => (.sem k (count16 (s.engArg r sh 0 l).bits), u)) (s.countExc r sh) true s r sh

def execSemwait (k : Fin 8) (f : Eng) (s : State) : Host.Outcome State Fault Refusal :=
  execute s (.semwait k f) engTys (semwaitBody k)

def qpopBody (k : Fin 4) (d : Dst) (s : State) (r : Run) (sh : Shape) : Body :=
  onceBody true (fun _ u _ => (.pop k d, u)) (fun _ => []) true s r sh

/-- A popped result is pushed when the pop completes, so the instruction pushes nothing at its execution. -/
def execQpop (k : Fin 4) (f : Eng) (s : State) : Host.Outcome State Fault Refusal :=
  execute s (.qpop k f) engTys (qpopBody k f.t)

def qpushBody (k : Fin 4) (s : State) (r : Run) (sh : Shape) : Body :=
  let act := s.actors r sh
  let e := lanesAll.map fun l => if LaneMask.has act l then s.engArg r sh 0 l else Val.zero
  onceBody true (fun _ u _ => (.push k e, u)) (fun _ => []) true s r sh

def execQpush (k : Fin 4) (f : Eng) (s : State) : Host.Outcome State Fault Refusal :=
  execute s (.qpush k f) engTys (qpushBody k)

/-- The checks of ENGAGE before commit (R385). -/
def State.engageExcs (s : State) (r : Run) (sh : Shape) (l : Fin 32) : List (Fin 32 × Exc) :=
  let a := (s.engArg r sh 0 l).bits.toNat
  needs (a % 4 = 0) l (alignExc l a) ++ s.xlatExc r l a .fetch ++ s.engPoison r sh (laneBit l) []

def engageBody (s : State) (r : Run) (sh : Shape) : Body :=
  onceBody false
    (fun l u r' =>
      let (seq, u) := u.takeSeq r'.wave
      (.engage (s.engArg r sh 0 l).bits (s.engArg r sh 1 l).bits seq, u))
    (s.engageExcs r sh) true s r sh

def execEngage (f : Eng) (s : State) : Host.Outcome State Fault Refusal := execute s (.engage f) engTys engageBody

def rdvBody (s : State) (r : Run) (sh : Shape) : Body :=
  onceBody false (fun _ u _ => (.rdv, u)) (fun _ => []) false s r sh

def execRdv (f : Eng) (s : State) : Host.Outcome State Fault Refusal := execute s (.rdv f) engTys rdvBody

/-! ## Waits that end -/

/-- The first waiter of a team that a test picks and that is ready. -/
def Team.readyWaiter (t : Team) (p : WaitOp → Bool) : Option Waiter :=
  t.waiters.find? fun x => x.owned && p x.op && t.opReady x

def finishWait (job team : Nat) (p : WaitOp → Bool) (s : State) : Host.Outcome State Fault Refusal :=
  match (s.team ⟨job, team⟩).readyWaiter p with
  | some x => .next (s.doOp x)
  | none => .next s

def execSemwaitComplete (job team : Nat) (k : Fin 8) (s : State) : Host.Outcome State Fault Refusal :=
  finishWait job team (fun o => match o with | .sem j _ => j = k | _ => false) s

def execQpopComplete (job team : Nat) (k : Fin 4) (s : State) : Host.Outcome State Fault Refusal :=
  finishWait job team (fun o => match o with | .pop j _ => j = k | _ => false) s

def execQpushComplete (job team : Nat) (k : Fin 4) (s : State) : Host.Outcome State Fault Refusal :=
  finishWait job team (fun o => match o with | .push j _ => j = k | _ => false) s

def execEngageStart (job team : Nat) (s : State) : Host.Outcome State Fault Refusal :=
  finishWait job team (fun o => match o with | .engage .. => true | _ => false) s

def execRdvComplete (job team : Nat) (s : State) : Host.Outcome State Fault Refusal :=
  finishWait job team (fun o => match o with | .rdv => true | _ => false) s

/-- A team that waits for ownership becomes the owner, and its waiting operations start in arrival order (R209). -/
def execStreamOwnerAcquire (job team : Nat) (s : State) : Host.Outcome State Fault Refusal :=
  let t : TeamId := ⟨job, team⟩
  let u := s.team t
  if u.place ≠ .resident || u.owner || !(u.waiters.any (fun x => !x.owned) || u.stream.st ≠ .idle) then .next s
  else
    match s.claim t with
    | (false, _) => .next s
    | (true, s) => .next s

/-! ## The deadlock rule (R215) -/

def Thread.idle (t : Thread) : Bool :=
  match t.status with
  | .ready => false
  | _ => true

/-- May an AWAIT of some arrival order take its count: no SEMWAIT that came before it still waits (R216, R364)? -/
def Team.awaitReady (t : Team) (order : Nat) (k : Fin 8) (n : Nat) : Bool :=
  n = 0 || (n ≤ t.sem[k] && !t.waiters.any fun y => y.order < order && y.op.line = k.val)

/-- Is the stream program halted, or does it wait as R212 has it? -/
def Team.streamIdle (t : Team) : Bool :=
  match t.stream.st with
  | .idle => true
  | .awaiting o k n => !t.awaitReady o k n
  | .blocked k full => if full then t.dqCap[k] ≤ (t.dq[k]).length else (t.dq[k]).isEmpty
  | _ => false

def Team.fullQueues (t : Team) : List (Fin 4) := (List.finRange 4).filter fun k => t.dqCap[k] ≤ (t.dq[k]).length

/-- Every participant blocked, nothing of theirs ready, and some queue full. -/
def Team.deadlocked (t : Team) : Bool :=
  t.owner && t.waves.all (fun w => w.lanes.toList.all Thread.idle) && t.streamIdle
    && !(t.waiters.any fun x => x.owned && t.opReady x) && !t.fullQueues.isEmpty

/-- The full queue with the fewest entries, the lowest number first. -/
def Team.growQueue (t : Team) : Fin 4 :=
  match t.fullQueues with
  | [] => 0
  | k :: ks => ks.foldl (fun b k => if (t.dq[k]).length < (t.dq[b]).length then k else b) k

/-- Pool entries left on the owner's core (R213). -/
def Team.pool (t : Team) : Nat := 1024 - (t.dqCap.toList.map fun c => c - 16).foldl (· + ·) 0

/-- DQDEAD at a waiting QPOP or QPUSH; its run has committed, so that instruction is all that remains (R193). -/
def State.dqDead (s : State) (x : Waiter) : State :=
  let k := match x.op with | .pop k _ => k.val | .push k _ => k.val | _ => 0
  let t := s.thread x.wave (lowestLane x.mask)
  let s := s.modTeam x.wave.team fun u => { u with waiters := u.waiters.filter fun y => y.order ≠ x.order }
  if t.status.live then s.raise x.wave x.mask x.pc t.next t.blk 
    { code := Code.dqDead, sub := k, lanes := x.mask, enc := x.enc }
  else s

/-- Growth from the pool, or DQDEAD at every waiting QPOP and QPUSH (R215). -/
def execDqGrow (job team : Nat) (s : State) : Host.Outcome State Fault Refusal :=
  let t : TeamId := ⟨job, team⟩
  let u := s.team t
  if !u.deadlocked then .next s
  else if u.pool ≥ 64 then
    .next (s.modTeam t fun u => { u with dqCap := u.dqCap.set u.growQueue (u.dqCap[u.growQueue] + 64) })
  else
    let ws := u.waiters.filter fun x => x.owned && (match x.op with | .pop .. => true | .push .. => true | _ => false)
    .next (ws.foldl (fun s x => s.dqDead x) s)

end Sys2Proof.Machine
end

