-- ==== Sys2Proof/Machine/StreamOps.lean ====
section
/-!
DEFINITION. Stream programs: their instructions (R210 to R212, R346 to R348, R352 to R355, R357, R358, R360, R361, R364), index
elements (R275) and faults.
-/

namespace Sys2Proof.Machine

open Sys2Proof

/-! ## The program in hand -/

/-- What an instruction of a stream program does: goes on, transfers, waits, faults, or suspends at a translation
fault. -/
inductive StrRes where
  | next (s : State)
  | jump (s : State) (goal : Word)
  | stay (s : State)
  | fault (s : State) (code sub : Nat)
  | park (s : State) (e : XErr)

def State.modStream (s : State) (t : TeamId) (f : Stream → Stream) : State :=
  s.modTeam t fun u => { u with stream := f u.stream }

def State.strCtx (s : State) (t : TeamId) : Xctx := s.engineCtx t.job (s.team t).cluster

/-- The state after the fetch of the words at an address, whether they are reached or not (R170). -/
def State.touchInstr (s : State) (c : Xctx) (va : Word) : State :=
  match s.fetchInstr c va with
  | .ok (_, s) => s
  | .error (_, e) => s.markLeaves c.part e.marks

/-- The record of a stream program: the (PC, SEQ) of its ENGAGE, and an address (R212, R275). -/
def State.strRec (s : State) (t : TeamId) (code sub addr : Nat) (ticket : W32) (action : Nat) : BitVec 512 :=
  let u := s.team t
  let j := s.job t.job
  FaultRec.encode
    { addr := addr, pc := u.stream.site.toNat, seq := u.stream.seq.toNat, team := t.team, jobid := j.id,
      enc := u.stream.enc, ticket := ticket.toNat, sub := sub, code := code, vf := j.vf, part := j.part,
      cluster := u.cluster, core := u.core, wave := u.stream.wave, kind := 1, action := action }

/-- A stream fault that no retry answers ends the team (R200, R212). -/
def State.strFault (s : State) (t : TeamId) (code sub : Nat) : State :=
  let r := s.strRec t code sub (s.team t).stream.pc.toNat 0 2
  (s.report (s.job t.job).vf .fault r none).1.terminate t code

/-- XLATE, and PROT of the page or host kind, suspend the program (R212). -/
def State.strPark (s : State) (t : TeamId) (e : XErr) : State :=
  let v := (s.job t.job).vf
  let (k, s) := (s.markLeaves (s.job t.job).part e.marks).newTicket v (.stream t) e.code e.sub false
  let s := s.modStream t fun x => { x with st := .suspended k }
  (s.report v .fault (s.strRec t e.code e.sub (s.team t).stream.pc.toNat k 0) none).1

/-- The program comes to a header: the loop check, and the block's first instruction (R355). A word that is no header
leaves it at that address, where STREAM_FAULT finds it; an H word there ends the block at once (R91). -/
def State.strEnter (s : State) (t : TeamId) (h : Word) : State :=
  let c := s.strCtx t
  let s := s.touchInstr c h
  if s.isH c h then
    let (lc, h') := loopCheck (s.team t).stream.loops h
    let s := s.touchInstr c h'
    let pc := if s.isH c h' then h' + 8 else h'
    s.modStream t fun x => { x with loops := lc, pc := pc, blk := h' }
  else s.modStream t fun x => { x with pc := h, blk := h }

/-- The program stands at an address after an instruction: the next one, or the word that its block falls through to. -/
def State.strGo (s : State) (t : TeamId) (pc : Word) : State :=
  let blk := (s.team t).stream.blk
  let stop := wordsAfter blk (w64 (s.headerLen (s.strCtx t) blk))
  if stop.toNat ≤ pc.toNat || s.isH (s.strCtx t) pc then s.strEnter t pc else s.modStream t fun x => { x with pc := pc }

/-- A transfer to an address, which must be a header (R35, R348). -/
def State.strTo (s : State) (t : TeamId) (goal : Word) : StrRes :=
  let c := s.strCtx t
  match s.fetchInstr c goal with
  | .error (_, e) => .park s e
  | .ok (_, s) => if s.isH c goal then .jump s goal else .fault s Code.badTarget 0

/-- Nothing is left of the instruction in hand. -/
def Stream.fresh (x : Stream) : Stream :=
  { x with
    st := .running, cursor := 0, parked := [], drop := [], held := [], passed := [], front := 0, got := [], entry := [],
    shadow := [], bad := [] }

def StrState.runs : StrState → Bool
  | .running => true | .blocked .. => true | _ => false

/-- The outcome of an instruction of the program of team t; `next` is the address after it. -/
def StrRes.out (x : StrRes) (t : TeamId) (next : Word) : Host.Outcome State Fault Refusal :=
  match x with
  | .next s => .next ((s.modStream t Stream.fresh).strGo t next).settle
  | .jump s goal => .next ((s.modStream t Stream.fresh).strEnter t goal)
  | .stay s => .next s
  | .fault s code sub => .next (s.strFault t code sub)
  | .park s e => .next (s.strPark t e)

/-- A stream instruction that a SIMT core fetches is ILLEGAL in its run (R97, R346). -/
def strInRun (s : State) (i : Instr) : Host.Outcome State Fault Refusal :=
  match s.runs with
  | [] => .fault .noIssueGroup
  | r :: _ => .next (s.raiseRun r { code := Code.illegal, addr := r.pc.toNat, enc := encode i })

/-- One instruction of the stream program in focus; a program that does not run executes none (R212). -/
def strExec (s : State) (i : Instr) (words : Nat) (f : State → Team → StrRes) : Host.Outcome State Fault Refusal :=
  match s.focus with
  | .simt => strInRun s i
  | .stream t =>
    match s.team? t with
    | none => .next s
    | some u =>
      if !u.stream.st.runs then .next s
      else if i.check.isSome then .next (s.strFault t Code.illegal 0)
      else (f (s.touchInstr (s.strCtx t) u.stream.pc) u).out t (u.stream.pc + w64 (4 * words))

/-- A source of a stream instruction (R346). -/
def Stream.src (x : Stream) (o : ASrc) (lit : Option W32) : Word :=
  match o with
  | .a k => x.a[k]
  | .zero => 0
  | .one => 1
  | .lit => (lit.getD 0).signExtend 64

def Stream.setA (x : Stream) (d : Option (Fin 16)) (v : Word) : Stream :=
  match d with
  | some k => { x with a := x.a.set k v }
  | none => x

/-- The register that a stream instruction names as its destination. -/
def Stream.dest (x : Stream) (d : Option (Fin 16)) : Word :=
  match d with
  | some k => x.a[k]
  | none => 0

/-! ## Registers and control -/

/-- An instruction that computes a register. -/
def strAlu (i : Instr) (f : Str) (g : Stream → Word) (s : State) : Host.Outcome State Fault Refusal :=
  strExec s i (litWords f.lit) fun s u => .next (s.modStream u.id fun x => x.setA f.d (g x))

def execAmov (hi : Bool) (f : Str) (s : State) : Host.Outcome State Fault Refusal :=
  strAlu (.amov hi f) f
    (fun x =>
      let a := x.src f.a f.lit
      if hi then w32 (low32 a) ++ w32 (low32 (x.dest f.d)) else a) s

def execAadd (f : Str) (s : State) : Host.Outcome State Fault Refusal :=
  strAlu (.aadd f) f (fun x => x.src f.a f.lit + x.src f.b f.lit) s

def execAcmp (cc : Icc) (f : Str) (s : State) : Host.Outcome State Fault Refusal :=
  strAlu (.acmp cc f) f
    (fun x => if relation' cc (x.src f.a f.lit).toNat (x.src f.b f.lit).toNat then 1 else 0) s
where
  relation' (cc : Icc) (a b : Nat) : Bool :=
    match cc with
    | .eq => a = b | .ne => a ≠ b | .lt => a < b | .le => a ≤ b | .gt => a > b | .ge => a ≥ b

def strTarget (pc : Word) (f : StrCtl) : Word :=
  wordsAfter pc (match f.lit with | some l => l.signExtend 64 | none => f.off.signExtend 64)

/-- A branch on all 64 bits; its target is checked whether it is taken or not (R348). DEDUCED, safe (log 66). -/
def execAbr (c : BrCond) (f : StrCtl) (s : State) : Host.Outcome State Fault Refusal :=
  strExec s (.abr c f) (litWords f.lit) fun s u =>
    let a := u.stream.src f.a f.lit
    let taken := match c with | .always => true | .nonzero => decide (a ≠ 0) | .zero => decide (a = 0)
    match s.strTo u.id (strTarget u.stream.pc f) with
    | .jump s goal => if taken then .jump s goal else .next s
    | r => r

/-- LSETUP's operation on a stream loop level (R355). -/
def execAloop (k : Fin 4) (len2 : BitVec 10) (f : StrCtl) (s : State) : Host.Outcome State Fault Refusal :=
  strExec s (.aloop k len2 f) (litWords f.lit) fun s u =>
    let start := strTarget u.stream.pc f
    let stop := wordsAfter start (len2.zeroExtend 64)
    let n := low32 (u.stream.src f.a f.lit)
    match s.strTo u.id start with
    | .jump s _ =>
      match s.strTo u.id stop with
      | .jump s _ =>
        let s := s.modStream u.id fun x =>
          { x with loops := x.loops.set k { start := start, stop := stop, count := w32 n, active := decide (n ≠ 0) } }
        .jump s (if n = 0 then stop else start)
      | r => r
    | r => r

def execAsig (k : Fin 8) (f : Str) (s : State) : Host.Outcome State Fault Refusal :=
  strExec s (.asig k f) (litWords f.lit) fun s u =>
    let n := bits (u.stream.src f.a f.lit) 15 0
    .next (s.modTeam u.id fun u =>
      { u with
        sem := u.sem.set k (min (u.sem[k] + n) 65535), semSig := u.semSig.set k (u.semSig[k] ||| u.stream.sig) })

/-- The program takes its count of a semaphore, an acquire (R176). -/
def State.takeSem (s : State) (t : TeamId) (k : Fin 8) (n : Nat) : State :=
  let u := s.team t
  (s.modTeam t fun u => { u with sem := u.sem.set k (u.sem[k] - n) }).acquire u.coreNo u.semSig[k]

/-- The semaphore is taken, or the program joins its waiters in arrival order (R216, R364). -/
def execAwait (k : Fin 8) (f : Str) (s : State) : Host.Outcome State Fault Refusal :=
  strExec s (.await k f) (litWords f.lit) fun s u =>
    let n := bits (u.stream.src f.a f.lit) 15 0
    if u.awaitReady u.arrivals k n then .next (s.takeSem u.id k n)
    else
      .stay (s.modTeam u.id fun u =>
        { u with stream := { u.stream with st := .awaiting u.arrivals k n }, arrivals := u.arrivals + 1 })

/-- A waiting AWAIT whose condition holds takes its count, and the program goes on (R364). -/
def execAwaitComplete (job team : Nat) (s : State) : Host.Outcome State Fault Refusal :=
  let t : TeamId := ⟨job, team⟩
  match s.team? t with
  | none => .next s
  | some u =>
    match u.stream.st with
    | .awaiting o k n =>
      if u.awaitReady o k n then
        let words := match s.peekWord (s.strCtx t) u.stream.pc with
          | some w => formatWords w
          | none => 2
        let s := s.takeSem t k n
        .next ((s.modStream t Stream.fresh).strGo t (u.stream.pc + w64 (4 * words)))
      else .next s
    | _ => .next s

/-- The program ends; its entries stay in their queues (R354). -/
def execAhalt (f : Str) (s : State) : Host.Outcome State Fault Refusal :=
  strExec s (.ahalt f) (litWords f.lit) fun s u =>
    .stay (s.modStream u.id fun x => { x.fresh with st := .idle }).settle

/-! ## Stream addresses (R210) -/

inductive SAddr where
  | glob (va : Nat) | scr (off : Nat) | queue (lg : Nat) (k : Fin 4) | bad
  deriving DecidableEq, Repr

def SAddr.of (w : Word) : SAddr :=
  match bits w 63 62 with
  | 0 => if bits w 61 57 = 0 then .glob (bits w 56 0) else .bad
  | 1 => if bits w 61 18 = 0 then .scr (bits w 17 0) else .bad
  | 2 => if bits w 61 4 = 0 then .queue (bits w 3 2) (Fin.ofNat 4 (bits w 1 0)) else .bad
  | _ => .bad

/-- Bits of an address that must be 0 for its alignment. -/
def SAddr.aligned (a : SAddr) (n : Nat) : Bool :=
  match a with
  | .glob v => v % n = 0 | .scr o => o % n = 0 | _ => true

/-- Does a range of n bytes leave the team's scratchpad (R211)? -/
def SAddr.outside (a : SAddr) (u : Team) (n : Nat) : Bool :=
  match a with
  | .scr o => o + n > u.scrSize
  | _ => false

/-- Bytes of a space other than a queue, with poison; a global read may fault. -/
def State.strRead (s : State) (t : TeamId) (a : SAddr) (n : Nat) : Except XErr (Val × State) :=
  match a with
  | .glob va => do
    let (bs, p, s) ← s.xreadN (s.strCtx t) va n
    pure (⟨wordOf bs, if p then BitVec.allOnes 8 else 0⟩, s)
  | .scr o =>
    .ok (⟨wordOf (s.readScr t o n), if (s.team t).scrPoison.contains (o / 128) then BitVec.allOnes 8 else 0⟩, s)
  | _ => .ok (Val.zero, s)

/-- A place some bytes on. -/
def Loc.plus (l : Loc) (n : Nat) : Loc :=
  match l with
  | .phys p a => .phys p (a + n)
  | .scr t o => .scr t (o + n)

/-- Bytes of a stream program that are not published yet. -/
def Stream.shade (x : Stream) (l : Loc) (bs : List Byte) (bad : Bool) : Stream :=
  { x with
    shadow := x.shadow ++ (List.range bs.length).map (fun i => (l.plus i, bs.getD i 0)),
    bad := if bad then l :: x.bad else x.bad }

/-- The low n bytes of a value to a space other than a queue: in place, or, in a scratchpad or in hall, into the shadow (R187,
R211). DEDUCED, unsafe (log 78). -/
def State.strWrite (s : State) (t : TeamId) (a : SAddr) (n : Nat) (v : Val) : Except XErr State :=
  let bs := bytesLE n v.bits.toNat
  let c := s.strCtx t
  match a with
  | .glob va => do
    let (x, s') ← s.translate c va .write
    if s.destKind c.part x.hpa = .plain then
      let (sig, s) ← s.xput c va bs v.bad
      pure (s.modStream t fun x => { x with sig := x.sig ||| sig })
    else pure (s'.modStream t fun y => y.shade (.phys c.part x.hpa) bs v.bad)
  | .scr o => .ok (s.modStream t fun x => x.shade (.scr t o) bs v.bad)
  | _ => .ok s

/-- One byte is published, and no cache keeps an older one (R187). -/
def State.publishByte (s : State) (t : TeamId) (l : Loc) (b : Byte) : State :=
  match l with
  | .scr u o => s.writeScr u o [b]
  | .phys p a => ((s.writePhys p a [b]).uncache a).modStream t fun x => { x with sig := x.sig ||| lineSig a }

/-- Publishes the shadow in one step (R187). -/
def State.publish (s : State) (t : TeamId) : State :=
  let x := (s.team t).stream
  let s := x.shadow.foldl (fun s p => s.publishByte t p.1 p.2) s
  x.bad.foldl
    (fun s l => match l with
      | .scr u o => s.modTeam u fun v => { v with scrPoison := o / 128 :: v.scrPoison }
      | .phys p a => s.poisonLine p a) s

/-- An address n bytes on. -/
def SAddr.plus (a : SAddr) (n : Nat) : SAddr :=
  match a with
  | .glob v => .glob (v + n) | .scr o => .scr (o + n) | x => x

def State.popEntry (s : State) (t : TeamId) (k : Fin 4) : State :=
  s.modTeam t fun u =>
    let rest := (u.dq[k]).drop 1
    { u with dq := u.dq.set k rest, dqCap := if rest.isEmpty then u.dqCap.set k 16 else u.dqCap }

def State.pushEntry (s : State) (t : TeamId) (k : Fin 4) (e : List Val) : State :=
  s.modTeam t fun u => { u with dq := u.dq.set k (u.dq[k] ++ [e]), dqSig := u.dqSig.set k (u.dqSig[k] ||| u.stream.sig) }

/-- The program waits at a full or an empty queue (R212). -/
def State.block (s : State) (t : TeamId) (k : Fin 4) (full : Bool) : StrRes :=
  .stay (s.modStream t fun x => { x with st := .blocked k full })

/-! ## AMOVE -/

def SAddr.isQueue : SAddr → Bool | .queue .. => true | _ => false

/-- Is an entry for a queue full, or the last of the move? -/
def Stream.entryReady (x : Stream) (n : Nat) : Bool := x.got.length = 32 || (!x.got.isEmpty && n ≤ x.cursor)

/-- The entry in hand is pushed, its unused slots 0. -/
def State.pushGot (s : State) (t : TeamId) (k : Fin 4) (vs : List Val) : State :=
  (s.pushEntry t k (vs ++ List.replicate (32 - vs.length) Val.zero)).modStream t fun x => { x with st := .running }

/-- The first entry of a queue comes into the program's hand, acquired from the push (R176). -/
def State.takeEntry (s : State) (t : TeamId) (k : Fin 4) : State :=
  let u := s.team t
  ((s.popEntry t k).acquire u.coreNo u.dqSig[k]).modStream t fun x =>
    { x with entry := (u.dq[k]).headD [], st := .running }

/-- Moves the dword at the cursor: it leaves the entry in hand only once it is written. -/
def State.moveDword (s : State) (t : TeamId) (src dst : SAddr) : Except XErr State := do
  let x := (s.team t).stream
  let (v, s) ← if src.isQueue then pure (x.entry.headD Val.zero, s) else s.strRead t (src.plus x.cursor) 8
  let s ← if dst.isQueue then pure (s.modStream t fun x => { x with got := x.got ++ [(x.cursor / 8, v)] })
    else s.strWrite t (dst.plus x.cursor) 8 v
  pure (s.modStream t fun x => { x with cursor := x.cursor + 8, entry := x.entry.drop 1 })

/-- The queue whose entry must come or go before the next dword, and whether it is to be pushed. -/
def Stream.moveTurn (x : Stream) (src dst : SAddr) (n : Nat) : Option (Fin 4 × Bool) :=
  match dst with
  | .queue _ k => if x.entryReady n then some (k, true) else pull x src n
  | _ => pull x src n
where
  pull (x : Stream) (src : SAddr) (n : Nat) : Option (Fin 4 × Bool) :=
    match src with
    | .queue _ k => if x.entry.isEmpty && x.cursor < n then some (k, false) else none
    | _ => none

/-- Moves what is left, a dword at a time; the cursor counts bytes, and a fault leaves the dwords before it moved
(R212). -/
def State.amoveGo (s : State) (t : TeamId) (src dst : SAddr) (n : Nat) : Nat → StrRes
  | 0 => .stay s
  | fuel + 1 =>
    let u := s.team t
    match u.stream.moveTurn src dst n with
    | some (k, true) =>
      if u.dqCap[k] ≤ (u.dq[k]).length then s.block t k true
      else ((s.pushGot t k (u.stream.got.map fun p => p.2)).modStream t fun x => { x with got := [] }).amoveGo t src dst n fuel
    | some (k, false) => if (u.dq[k]).isEmpty then s.block t k false else (s.takeEntry t k).amoveGo t src dst n fuel
    | none =>
      if n ≤ u.stream.cursor then .next (s.publish t)
      else
        match s.moveDword t src dst with
        | .error e => .park s e
        | .ok s => s.amoveGo t src dst n fuel

def execAmove (f : Str) (s : State) : Host.Outcome State Fault Refusal :=
  strExec s (.amove f) (litWords f.lit) fun s u =>
    let n := (u.stream.dest f.d).toNat
    let src := SAddr.of (u.stream.src f.a f.lit)
    let dst := SAddr.of (u.stream.src f.b f.lit)
    if n = 0 then .next s
    else if src = .bad || dst = .bad then .fault s Code.illegal 0
    else if n % 8 ≠ 0 || !src.aligned 8 || !dst.aligned 8 then .fault s Code.align 0
    else if src.outside u n || dst.outside u n then .fault s Code.prot 0
    else s.amoveGo u.id src dst n (n + 3)

/-! ## AGATHER and ASCATTER -/

/-- Where the element of an index lies, or that it is out of bounds (R275). -/
def Team.elemAddr (u : Team) (base : SAddr) (size idx : Nat) : Except XErr SAddr :=
  match base with
  | .scr o => if o + idx * size + size > u.scrSize then .error (XErr.page 0 (o + idx * size)) else .ok (.scr (o + idx * size))
  | .glob v => .ok (.glob (v + idx * size))
  | a => .ok a

/-- Parks an element with its record (R275). DEDUCED, unsafe (log 57). -/
def State.strParkElem (s : State) (t : TeamId) (i idx : Nat) (v : Val) (e : XErr) : State :=
  let f := (s.job t.job).vf
  let (k, s) := (s.markLeaves (s.job t.job).part e.marks).newTicket f (.streamElement t i) e.code (i % 2 ^ 16) false
  let s := s.modStream t fun x =>
    { x with parked := x.parked ++ [{ element := i, ticket := k }], held := x.held ++ [(i, idx, v)] }
  (s.report f .fault (s.strRec t e.code (i % 2 ^ 16) e.addr k 0) none).1

/-- An element is read, or set aside. -/
def State.gatherElem (s : State) (t : TeamId) (base : SAddr) (size i idx : Nat) : State :=
  match (s.team t).elemAddr base size idx >>= fun a => s.strRead t a size with
  | .ok (v, s) => s.modStream t fun x => { x with got := x.got ++ [(i, v)] }
  | .error e => s.strParkElem t i idx Val.zero e

/-- An element is written, or set aside; not where a later one with its target has been (R360). -/
def State.scatterElem (s : State) (t : TeamId) (base : SAddr) (size i idx : Nat) (v : Val) : State :=
  if (s.team t).stream.passed.any fun p => i < p.1 && p.2 = idx then s
  else
    match (s.team t).elemAddr base size idx >>= fun a => s.strWrite t a size v with
    | .ok s => s.modStream t fun x => if x.held.isEmpty then x else { x with passed := x.passed ++ [(i, idx)] }
    | .error e => s.strParkElem t i idx v e

/-- The first element set aside that has been answered (R198, R275). -/
def Stream.answered (x : Stream) : Option (Nat × Nat × Val) :=
  x.held.find? fun h => !x.parked.any fun p => p.element = h.1

/-- An answered element: tried again, or dropped. -/
def State.settleElem (s : State) (t : TeamId) (scatter : Bool) (base : SAddr) (size : Nat) (h : Nat × Nat × Val) : State :=
  let gone := (s.team t).stream.drop.contains h.1
  let s := s.modStream t fun x => { x with held := x.held.filter fun g => g.1 ≠ h.1 }
  if scatter then if gone then s else s.scatterElem t base size h.1 h.2.1 h.2.2
  else if gone then s.modStream t fun x => { x with got := x.got ++ [(h.1, Val.zero)] }
  else s.gatherElem t base size h.1 h.2.1

/-- The index of the element at the cursor, which the cursor passes (R211). -/
def State.nextIdx (s : State) (t : TeamId) (b : SAddr) : Except XErr (Nat × Nat × State) := do
  let i := (s.team t).stream.cursor
  let (v, s) ← s.strRead t (b.plus (4 * i)) 4
  pure (i, v.bits.toNat, s.modStream t fun x => { x with cursor := i + 1 })

/-- The slots of the next entry to be pushed, where all of them are there: up to element `stop`. -/
def Stream.gathered (x : Stream) (stop : Nat) : Option (List Val) :=
  if stop ≤ x.cursor then
    (List.range (stop - x.front)).mapM fun i => (x.got.find? fun p => p.1 = x.front + i).map fun p => p.2
  else none

/-- AGATHER: elements are read in turn, past those that are set aside; entries are pushed in order. -/
def State.gatherGo (s : State) (t : TeamId) (base b : SAddr) (size n : Nat) (q : Fin 4) : Nat → StrRes
  | 0 => .stay s
  | fuel + 1 =>
    let u := s.team t
    let x := u.stream
    let stop := min (x.front + 32) n
    match x.answered with
    | some h => (s.settleElem t false base size h).gatherGo t base b size n q fuel
    | none =>
      if n ≤ x.front then .next (s.publish t)
      else
        match x.gathered stop with
        | some vs =>
          if u.dqCap[q] ≤ (u.dq[q]).length then s.block t q true
          else
            ((s.pushGot t q vs).modStream t fun x =>
              { x with front := stop, got := x.got.filter fun p => stop ≤ p.1 }).gatherGo t base b size n q fuel
        | none =>
          if n ≤ x.cursor then .stay s
          else
            match s.nextIdx t b with
            | .error e => .park s e
            | .ok (i, idx, s) => (s.gatherElem t base size i idx).gatherGo t base b size n q fuel

/-- ASCATTER: entries are popped in order and their elements written in turn, past those that are set aside. -/
def State.scatterGo (s : State) (t : TeamId) (base b : SAddr) (size n : Nat) (q : Fin 4) : Nat → StrRes
  | 0 => .stay s
  | fuel + 1 =>
    let u := s.team t
    let x := u.stream
    match x.answered with
    | some h => (s.settleElem t true base size h).scatterGo t base b size n q fuel
    | none =>
      if n ≤ x.cursor then if x.held.isEmpty then .next (s.publish t) else .stay s
      else if x.entry.isEmpty then
        if (u.dq[q]).isEmpty then s.block t q false else (s.takeEntry t q).scatterGo t base b size n q fuel
      else
        match s.nextIdx t b with
        | .error e => .park s e
        | .ok (i, idx, s) =>
          let s := s.modStream t fun x => { x with entry := x.entry.drop 1 }
          (s.scatterElem t base size i idx (x.entry.headD Val.zero)).scatterGo t base b size n q fuel

/-- The work that is left; an instruction completes when every element set aside has been answered (R275). -/
def State.indexGo (s : State) (t : TeamId) (scatter : Bool) (base b : SAddr) (size n : Nat) (q : Fin 4) (fuel : Nat) :
    StrRes :=
  if scatter then s.scatterGo t base b size n q fuel else s.gatherGo t base b size n q fuel

/-- The shared form (R353, R360). -/
def strIndex (i : Instr) (scatter : Bool) (f : Str) (s : State) : Host.Outcome State Fault Refusal :=
  strExec s i (litWords f.lit) fun s u =>
    let n := (u.stream.dest f.d).toNat
    let base := SAddr.of (u.stream.src f.a f.lit)
    let b := SAddr.of (u.stream.src f.b f.lit)
    if n = 0 then .next s
    else
      match SAddr.of (u.stream.src f.c f.lit), base, b with
      | .queue lg q, base, .glob v =>
        match base with
        | .queue .. => .fault s Code.illegal 0
        | .bad => .fault s Code.illegal 0
        | _ =>
          if !base.aligned (2 ^ lg) || v % 4 ≠ 0 then .fault s Code.align 0
          else s.indexGo u.id scatter base b (2 ^ lg) n q (3 * n + 3)
      | _, _, _ => .fault s Code.illegal 0

def execAgather (f : Str) (s : State) : Host.Outcome State Fault Refusal := strIndex (.agather f) false f s
def execAscatter (f : Str) (s : State) : Host.Outcome State Fault Refusal := strIndex (.ascatter f) true f s

/-! ## Faults found at fetch -/

/-- Why the program's next instruction cannot be executed: a fetch fault, a word that is no header where one must
stand, or an encoding that is no stream instruction (R89, R97, R212). -/
inductive StrTrouble where
  | none | illegal | badTarget | fetch (e : XErr)
  deriving DecidableEq, Repr

/-- Is the H word of a block one that its first instruction may follow (R73, R90, R97)? DEDUCED, safe (log 64). -/
def State.headerFine (s : State) (c : Xctx) (h : Word) : Bool :=
  match s.peekWords c h with
  | some (w0 :: w1 :: _) => (headerOf w0 w1).toOption.isSome && !crossesLine h 2
  | _ => false

/-- The instruction that a running program is at, or the trouble there; neither where it stands at a header, be it the one
after the H word of a block without instructions. DESIGN CHOICE, unsafe (log 81). -/
def State.strNext (s : State) (u : Team) : StrTrouble × Option Instr :=
  let c := s.strCtx u.id
  let x := u.stream
  match s.fetchInstr c x.pc with
  | .error (_, e) => (.fetch e, Option.none)
  | .ok (ws, _) =>
    let n := formatWords (ws.headD 0)
    let stop := wordsAfter x.blk (w64 (s.headerLen c x.blk))
    if x.pc.toNat % 4 = 0 && isHeader (ws.headD 0) then (.none, Option.none)
    else if x.pc = x.blk then (.badTarget, Option.none)
    else if !s.headerFine c x.blk || crossesLine x.pc n || stop.toNat < x.pc.toNat + 4 * n then (.illegal, Option.none)
    else
      match decodeWords ws with
      | .ok (i, _) => if Instr.isStream i then (.none, some i) else (.illegal, Option.none)
      | .error _ => (.illegal, Option.none)

/-- A running program that cannot go on faults (R212). -/
def execStreamFault (job team : Nat) (s : State) : Host.Outcome State Fault Refusal :=
  let t : TeamId := ⟨job, team⟩
  match s.team? t with
  | none => .next s
  | some u =>
    if !u.stream.st.runs then .next s
    else
      match (s.strNext u).1 with
      | .none => .next s
      | .illegal => .next (s.strFault t Code.illegal 0)
      | .badTarget => .next (s.strFault t Code.badTarget 0)
      | .fetch e => .next (s.strPark t e)

end Sys2Proof.Machine
end

