-- ==== Sys2Proof/Machine/Waits.lean ====
section
/-!
DEFINITION. Waits that end without an instruction: barriers (R26, R276, R365, R376), FJOIN (R44), WSYNC (R40, R446), the
rejoin timer (R37); and engine commands that meet a fault (R219, R257, R311).
-/

namespace Sys2Proof.Machine

open Sys2Proof

/-! ## Barriers -/

/-- Is an index element parked that belongs to a command, or to a program of an ENGAGE, that a team committed before the latest
arrival of one of its threads (R276)? -/
def State.elementParked (s : State) (t : TeamId) (cut : Nat × Nat) : Bool :=
  let x := (s.team t).stream
  (!x.parked.isEmpty && x.order < cut.2) || s.cmds.any fun c => c.wave.team = t && !c.parked.isEmpty && c.id < cut.1

/-- Do all unexited threads of a team wait at an instruction of a kind? -/
def Team.allWait (t : Team) (k : Wait) : Bool :=
  t.waves.all fun w => w.lanes.toList.all fun th => !th.status.live || th.status = .waiting k

/-- The threads of a wave that wait at a kind of instruction. -/
def Wave.waitMask (w : Wave) (k : Wait) : LaneMask := maskWhere fun l => w.lanes[l].status = .waiting k

/-- Every thread of a team that waits at a kind of instruction goes on. -/
def State.resumeTeam (s : State) (t : TeamId) (k : Wait) : State :=
  (s.team t).waves.foldl (fun s w => s.resumeCmd { team := t, wave := w.idx, uid := w.uid } (w.waitMask k)) s

/-- BAR completes: every thread's acquire, from every arrival (R365). -/
def execTakenWaitResumeBar (job team : Nat) (s : State) : Host.Outcome State Fault Refusal :=
  let t : TeamId := ⟨job, team⟩
  let u := s.team t
  if u.isLive && u.allWait .bar && !s.elementParked t u.barCut then
    let s := (s.acquire u.coreNo u.barSig).modTeam t fun u =>
      { u with barSig := 0, barCut := (0, 0), barGen := u.barGen + 1 }
    .next (s.resumeTeam t .bar).settle
  else .next s

/-- CBAR completes for a cohort (R26, R154, R376). -/
def execCbarComplete (job cohort : Nat) (s : State) : Host.Outcome State Fault Refusal :=
  let ts := s.cohortTeams job cohort
  if ts.any Team.isLive && ts.all (fun u => u.allWait .cbar && !s.elementParked u.id u.cbarCut) then
    let sig := ts.foldl (fun a u => a ||| u.cbarSig) 0
    let s := ts.foldl
      (fun s u =>
        let s := (s.acquire u.coreNo sig).modTeam u.id fun u =>
          { u with
            cbarSig := 0, cbarCut := (0, 0), cbarHold := u.cbarAsked, cbarAsked := false, cbarGen := u.cbarGen + 1 }
        s.resumeTeam u.id .cbar) s
    .next s.settle
  else .next s

/-! ## FJOIN and WSYNC -/

/-- The threads of a wave whose FJOIN is satisfied, and the signatures of the exits they acquire (R395). -/
def Wave.joinedMask (w : Wave) : LaneMask :=
  maskWhere fun l => match w.lanes[l].status with | .waiting (.joined _) => true | _ => false

def Wave.joinedSig (w : Wave) : Sig :=
  lanesAll.foldl (fun a l => match w.lanes[l].status with | .waiting (.joined g) => a ||| g | _ => a) 0

/-- FJOINs complete: those that found the counter at 0 at some moment since their commit, and those that find it there
now (R44, R395). -/
def execFjoinComplete (job team wave : Nat) (s : State) : Host.Outcome State Fault Refusal :=
  let w := (s.team ⟨job, team⟩).waveId wave
  let m := (s.wave w).waitMask .fjoin
  let done := (s.wave w).joinedMask
  if m ≠ 0 && (s.wave w).joins = 0 then .next ((s.joinDone w).resumeCmd w m)
  else if done ≠ 0 then .next ((s.acquire (s.team w.team).coreNo (s.wave w).joinedSig).resumeCmd w done)
  else .next s

/-- The mask a thread waits for at a WSYNC at an address. -/
def Thread.wsyncAt (t : Thread) (pc : Word) : Option LaneMask :=
  match t.status with
  | .waiting (.wsync m) => if t.pc = pc then some m else none
  | _ => none

/-- The threads of a wave whose WSYNC at an address is satisfied: every thread of the mask waits there or has gone.
DEDUCED, unsafe (log 41). -/
def Wave.synced (w : Wave) (pc : Word) : LaneMask :=
  let here := fun (l : Fin 32) => (w.lanes[l].wsyncAt pc).isSome || !w.lanes[l].status.live
  maskWhere fun l =>
    match w.lanes[l].wsyncAt pc with
    | some m => (lanesOf m).all here
    | none => false

/-- They are released together, and issue their next run as one group (R40). DEDUCED, unsafe (log 41). -/
def execWsyncRelease (job team wave : Nat) (pc : Word) (s : State) : Host.Outcome State Fault Refusal :=
  let w := (s.team ⟨job, team⟩).waveId wave
  let m := (s.wave w).synced pc
  if m = 0 then .next s
  else .next (((s.resume w m).modWave w fun v => { v with groups := v.groups ++ [m] }).reimaged s w m)

/-! ## The rejoin timer -/

/-- An entry whose timer has run out is removed, and its waiting threads go on (R37). -/
def Wave.expireRejoin (w : Wave) (i now : Nat) : Wave :=
  match w.rejoin[i]? with
  | some e =>
    if e.timer = some 0 then
      ({ w with rejoin := w.rejoin.eraseIdx i } : Wave).modLanes e.arrived fun (t : Thread) =>
        if t.status = .waiting (.rejoin e.target) then t.go now else t
    else w
  | none => w

/-- DESIGN CHOICE, unsafe (log 4). -/
def execRejoinTimeout (job team wave entry : Nat) (s : State) : Host.Outcome State Fault Refusal :=
  let w := (s.team ⟨job, team⟩).waveId wave
  .next ((s.modWave w fun v => v.expireRejoin entry s.now).reimaged s w 1)

/-! ## Engine commands at a fault -/

/-- What a command comes to now, by its engine. DESIGN CHOICE, safe (log 9). -/
def State.work (s : State) (c : Cmd) : Worked :=
  match c.kind with
  | .mma .. => s.mmaWork c.id
  | .drain .. => s.drainWork c.id
  | .grammar .. => s.gramWork c.id
  | .binapp .. => s.binappWork c.id
  | .binreplay .. => s.replayWork c.id
  | .wlinit .. => s.listWork c.id
  | .wlpush .. => s.listWork c.id
  | .wlins .. => s.listWork c.id
  | .wlpopb .. => s.listWork c.id
  | .rayq .. => s.rayWork c.id
  | .coll .. => s.collWork c.id []
  | .copy _ => .later
  | .enq .. => .later
  | .wbind .. => .later

/-- A command that meets a translation or permission fault after commit is suspended, with a record (R219, R257,
R311). -/
def execCommandTranslationFault (cmd : Nat) (s : State) : Host.Outcome State Fault Refusal :=
  match s.cmd? cmd with
  | none => .next s
  | some c =>
    if c.silent then .next s
    else match s.work c with
      | .stop e => .next (s.suspendCmd c e)
      | .partly s e => .next (s.suspendCmd c e)
      | _ => .next s

end Sys2Proof.Machine
end

