-- ==== Sys2Proof/Machine/Manage.lean ====
section
/-!
DEFINITION. Management requests (R312, R313): who is admitted, what each register reads and what a write to it does
(R173, R191, R195, R196, R281, R285, R313 to R316, R318, R323, R325, R329, R331, R332, R335, R341, R342).
-/

namespace Sys2Proof.Machine

open Sys2Proof

/-! ## Who is admitted (R312, R313) -/

/-- The identity that an identity register holds; none while V = 0. -/
def identOf (w : Word) : Option Ident := if w.getLsbD 32 then some (w32 (low32 w)) else none

/-- DEDUCED, unsafe (log 24). -/
def State.isMgr (s : State) (by_ : Ident) : Bool := identOf s.mgrid = some by_
/-- DEDUCED, unsafe (log 24). -/
def State.isHv (s : State) (by_ : Ident) (p : Nat) : Bool := identOf (s.part p).hvid = some by_
/-- DEDUCED, unsafe (log 24). -/
def State.isGuest (s : State) (by_ : Ident) (v : Nat) : Bool := (s.vf v).guest && identOf (s.vf v).guestid = some by_

/-- Has a space an index? -/
def spaceHas (space index : Nat) : Bool :=
  match space with
  | 0 => index ≤ 32
  | 1 => index < 32
  | 2 => index < 128
  | 3 => index < 128
  | 4 => index < 32
  | _ => false

/-- Does a request name a register that belongs to another partition (R312)? -/
def State.foreign (s : State) (space index offset : Nat) : Bool :=
  space = 1 && 0x800 ≤ offset && offset < 0xB00 && !(s.part index).partown.getLsbD ((offset - 0x800) / 4)

/-- Is a requester admitted to an index of a space, for a read or a write at an offset? DEDUCED, unsafe (log 24, 26). -/
def State.admits (s : State) (by_ : Ident) (space index offset : Nat) (read : Bool) : Bool :=
  let mgr := s.isMgr by_
  let p := (s.vf index).partition
  if !spaceHas space index || s.foreign space index offset then false
  else if s.boot = .failed then space = 4 && read && offset < 0x100
  else if read && space = 0 && index = 32 && offset = 0x40 then
    mgr || !s.mgrid.getLsbD 32 || (List.range 32).any (s.isHv by_)
  else if space ≤ 2 && !s.mgrid.getLsbD 32 then false
  else
    match space with
    | 0 => mgr
    | 1 => mgr || s.isHv by_ index
    | 2 => mgr || s.isHv by_ p
    | 3 => mgr || s.isHv by_ p || s.isGuest by_ index
    | _ => mgr || s.isHv by_ index || (List.range 128).any fun v => (s.vf v).partition = index && s.isGuest by_ v

/-- The response to a request (R312): a value and the error flag. -/
def State.answer (s : State) (v : Word) (err : Bool) : State := { s with resp := some (v, err) }

/-- A write of an admitted requester; a frozen device answers nothing (R332). -/
def manage (by_ : Ident) (space index offset : Nat) (f : State → State) (s : State) : Host.Outcome State Fault Refusal :=
  if s.frozen then .next s
  else if s.admits by_ space index offset false then .next ((f s).answer 0 false).settle
  else .next (s.answer 0 true)

/-- A read: its value, and what it clears (R6). -/
def manageRead (by_ : Ident) (space index offset : Nat) (v : Word) (f : State → State) (s : State) :
    Host.Outcome State Fault Refusal :=
  if s.frozen then .next s
  else if s.admits by_ space index offset true then .next ((f s).answer v false)
  else .next (s.answer 0 true)

/-! ## Partitions and banks (R157 to R159, R314) -/

/-- Is a partition quiescent: RUN is 0 and no job or draw of it is live? -/
def State.quiescent (s : State) (p : Nat) : Bool :=
  !(s.part p).run && !(s.jobs.any fun j => j.part = p && !j.completed) && !s.draws.any fun d => d.part = p

def bankKey (b off : Nat) : Nat := bankBase + b * 0x100000 + off

/-- The bytes of a range of the memory devices are lost: they read 0, and nothing is known of their words.
DEDUCED, unsafe (log 27). -/
def State.wipe (s : State) (lo hi : Nat) : State :=
  let inside := fun (k : Nat) => lo ≤ k && k < hi
  { s with
    mem := s.mem.clear lo hi, poisoned := s.poisoned.filter fun l => !inside (128 * l),
    owners := s.owners.filter fun o => !inside o.1,
    sigs := s.sigs.filter fun e => match e.home with | .mem k => !inside k | _ => true }

def State.setBank (s : State) (r : BankReg) : State :=
  { s with banks := (s.banks.filter fun x => x.bank ≠ r.bank) ++
      (if r.cfg = bankReset r.bank && r.due.isNone then [] else [r]) }

/-- A write of BANKCFG (R157). While BUSY, HALL and SAVE read the division that still holds. DEDUCED, unsafe (log 27). -/
def State.writeBank (s : State) (p b : Nat) (v : W32) : State :=
  let r := s.bankReg b
  let hall := v.toNat % 16
  let save := v.toNat / 16 % 16
  let err := r.cfg.getLsbD 9 && !v.getLsbD 9
  let cfg := fun (e : Bool) => w32 (s.hall b + 16 * s.save b + if e then 0x200 else 0)
  if hall + save > 8 || r.due.isSome || (save ≠ s.save b && !s.quiescent p) then s.setBank { r with cfg := cfg true }
  else if hall = s.hall b && save = s.save b then s.setBank { r with cfg := cfg err }
  else s.setBank { r with cfg := cfg err, due := some (w32 (hall + 16 * save)) }

/-- The change is complete (R159): steps that become hall or save, or leave them, hold nothing.
DEDUCED, unsafe (log 27). -/
def State.bankDone (s : State) (b : Nat) : State :=
  let r := s.bankReg b
  match r.due with
  | none => s
  | some d =>
    let hall := d.toNat % 16
    let save := d.toNat / 16 % 16
    let step := fun (s : State) (lo hi : Nat) => s.wipe (bankKey b (min lo hi * stepBytes)) (bankKey b (max lo hi * stepBytes))
    let s := step (step s (s.hall b) hall) (8 - s.save b) (8 - save)
    s.setBank { r with cfg := w32 (hall + 16 * save) ||| (r.cfg &&& 0x200), due := none }

def execBankcfgWrite (by_ : Ident) (part bank : Nat) (v : W32) (s : State) : Host.Outcome State Fault Refusal :=
  manage by_ 1 part (0x800 + 4 * bank) (fun s => if bank < 192 then s.writeBank part bank v else s) s

/-- DEDUCED, unsafe (log 27). -/
def execBankcfgChangeDone (bank : Nat) (s : State) : Host.Outcome State Fault Refusal :=
  if s.frozen then .next s else .next (s.bankDone bank)

def unitsOf (v : BitVec 384) : Nat := v.toNat % 2 ^ 276

/-- Is a change of SAVE of one of a partition's banks still in progress (R159)? -/
def State.saveMoving (s : State) (r : PartRegs) : Bool :=
  r.banks.any fun b => (s.bankReg b).due.any fun d => decide (d.toNat / 16 % 16 ≠ s.save b)

/-- May PARTOWN of a partition be given a value (R314)? RUN is refused while a bank's SAVE is still to change, which it may
do in a quiescent partition alone. DEDUCED, unsafe (log 27). -/
def State.ownOk (s : State) (p : Nat) (v : BitVec 384) : Bool :=
  let new : PartRegs := { s.part p with partown := v }
  ((List.range 32).all fun q => q = p || unitsOf (s.part q).partown &&& unitsOf v = 0)
    && (unitsOf (s.part p).partown = unitsOf v || s.quiescent p)
    && (!v.getLsbD 383 || (!new.clusters.isEmpty && !new.banks.isEmpty && !new.channels.isEmpty && s.saveEnough new
      && !s.saveMoving new))

/-- Units that change owner lose what they hold: banks go back to their BANKCFG reset values, channels are zero-filled.
DEDUCED, unsafe (log 27). -/
def State.changeOwner (s : State) (old new : BitVec 384) : State :=
  let moved := fun (k : Nat) => old.getLsbD k != new.getLsbD k
  let s := ((List.range 192).filter moved).foldl
    (fun s b => (s.wipe (bankKey b 0) (bankKey b 0x100000)).setBank { bank := b, cfg := bankReset b, due := none }) s
  ((List.range 24).filter fun c => moved (192 + c)).foldl
    (fun s c => s.wipe (c * gddrBytes) ((c + 1) * gddrBytes)) s

/-- A write of PARTOWN (R314). -/
def State.writeOwn (s : State) (p : Nat) (v : BitVec 384) : State :=
  let r := s.part p
  let err : BitVec 384 := BitVec.ofNat 384 (2 ^ 382)
  let kept := r.partown &&& err &&& ~~~v
  let new := (BitVec.ofNat 384 (unitsOf v) ||| (v &&& BitVec.ofNat 384 (2 ^ 383))) ||| kept
  if s.ownOk p new then (s.changeOwner r.partown new).setPart p { r with partown := new }
  else s.setPart p { r with partown := r.partown ||| err }

def execPartownWrite (by_ : Ident) (part : Nat) (v : BitVec 384) (s : State) : Host.Outcome State Fault Refusal :=
  manage by_ 0 part 0 (fun s => if part < 32 then s.writeOwn part v else s) s

/-! ## Virtual functions (R281, R316) -/

def quotaErr : Word := 0x8000

/-- May VFQUOTA of a function be given a value (R281)? -/
def State.quotaOk (s : State) (v : Nat) (w : Word) : Bool :=
  let n := bits w 63 48
  let lo := bits w 47 32
  let clash := (List.range 128).any fun u =>
    u ≠ v && (s.vf u).partition = (s.vf v).partition && n > 0 && (s.vf u).ccount > 0
      && lo < (s.vf u).cfirst + (s.vf u).ccount && (s.vf u).cfirst < lo + n
  (n = 0 || lo + n - 1 ≤ 65535) && !clash && bits w 28 16 ≤ 4096

def State.writeQuota (s : State) (v : Nat) (w : Word) : State :=
  let r := s.vf v
  if s.quotaOk v w then
    s.setVf v { r with vfquota := (w &&& 0xFFFFFFFF1FFF0000) ||| (r.vfquota &&& quotaErr &&& ~~~w) }
  else s.setVf v { r with vfquota := r.vfquota ||| quotaErr }

def execVfquotaWrite (by_ : Ident) (vf : Nat) (v : Word) (s : State) : Host.Outcome State Fault Refusal :=
  manage by_ 2 vf 0 (fun s => s.writeQuota vf v) s

/-- RES from 0 to 1 delivers one interrupt for each PEND bit and clears it (R317). -/
def State.writeVfcfg (s : State) (v : Nat) (w : Word) : State :=
  let r := s.vf v
  let was := r.resident
  let s := s.setVf v { r with vfcfg := w &&& 0x01FFFFFFFFFFFFFF }
  if !was && (s.vf v).resident then
    let s := ((List.range 4).filter fun k => r.irqpend.getLsbD k).foldl (fun s k => s.irqVf v k) s
    s.setVf v { s.vf v with irqpend := 0 }
  else s

def execVfcfgWrite (by_ : Ident) (vf : Nat) (v : Word) (s : State) : Host.Outcome State Fault Refusal :=
  manage by_ 2 vf 0x10 (fun s => s.writeVfcfg vf v) s

def State.writeIrqlog (s : State) (v : Nat) (w : Word) : State :=
  if 4 ≤ bits w 11 8 then s.setVf v { s.vf v with irqlog := w &&& 0x01FFFFFFFFFFFF00 } else s

def execIrqlogWrite (by_ : Ident) (vf : Nat) (v : Word) (s : State) : Host.Outcome State Fault Refusal :=
  manage by_ 2 vf 0x18 (fun s => s.writeIrqlog vf v) s

/-- A write through the HVID identity itself changes nothing (R313). -/
def State.writeHvid (s : State) (by_ : Ident) (p : Nat) (w : Word) : State :=
  if s.isMgr by_ then s.setPart p { s.part p with hvid := w &&& 0x1FFFFFFFF } else s

def execHvidWrite (by_ : Ident) (part : Nat) (v : Word) (s : State) : Host.Outcome State Fault Refusal :=
  manage by_ 1 part 8 (fun s => s.writeHvid by_ part v) s

/-! ## Rings (R195, R196, R331) -/

def State.writeFqcfg (s : State) (v : Nat) (w : Word) : State :=
  let n := bits w 4 0
  let s := if 4 ≤ n && n ≤ 16 then s.setVf v { s.vf v with fqcfg := w &&& 0xFFFFFFFFFFFFF01F } else s
  s.retryHeld v

def execFqcfgWrite (by_ : Ident) (vf : Nat) (v : Word) (s : State) : Host.Outcome State Fault Refusal :=
  manage by_ 3 vf 8 (fun s => s.writeFqcfg vf v) s

/-- A new HEAD makes room: records that wait are written. DEDUCED, safe (log 28). -/
def State.writeFqptr (s : State) (v : Nat) (w : Word) : State :=
  (s.setVf v { s.vf v with fqhead := bits w 47 32 }).retryHeld v

def execFqptrWrite (by_ : Ident) (vf : Nat) (v : Word) (s : State) : Host.Outcome State Fault Refusal :=
  manage by_ 3 vf 0x10 (fun s => s.writeFqptr vf v) s

def State.writeSysasd (s : State) (v : Nat) (w : Word) : State :=
  (s.setVf v { s.vf v with sysasd := w &&& 0x01FFFFFFFFFFFFE1 }).retryHeld v

def execSysasdWrite (by_ : Ident) (vf : Nat) (v : Word) (s : State) : Host.Outcome State Fault Refusal :=
  manage by_ 2 vf 0x40 (fun s => s.writeSysasd vf v) s

def State.writeSampcfg (s : State) (v : Nat) (w : Word) : State :=
  let s := if bits w 11 8 ≤ 10 then s.setVf v { s.vf v with sampcfg := w &&& 0xFFFFFFFFFFFFFFF8, sampled := 0 } else s
  s.retryHeld v

def execSampcfgWrite (by_ : Ident) (vf : Nat) (v : Word) (s : State) : Host.Outcome State Fault Refusal :=
  manage by_ 3 vf 0x50 (fun s => s.writeSampcfg vf v) s

/-! ## Queue notifies (R285): a TAIL equal to HEAD empties the queue, which releases its slot -/

def State.notify (s : State) (v : Nat) (w : Word) : State :=
  let queue := bits w 43 32
  let q := s.qdesc v queue
  if queue ≥ (s.vf v).qcount || !q.en || !q.host then s
  else ((s.putTail v queue (low32 w)).releaseSlot v queue).wantSlot v queue

def execQnotify (by_ : Ident) (vf : Nat) (v : Word) (s : State) : Host.Outcome State Fault Refusal :=
  manage by_ 3 vf 0 (fun s => s.notify vf v) s

/-! ## TLBINV (R173) -/

/-- Is a CTXID in use by a virtual function (R166)? -/
def State.ctxInUse (s : State) (v ctx : Nat) : Bool :=
  let r := s.vf v
  let names := fun (a : Asd) => a.vf = v && a.ctx = ctx
  (r.sysasd.getLsbD 0 && names (s.readAsd r.partition (bits r.sysasd 56 5 * 32)))
    || (List.range r.qcount).any fun q => names (s.queueAsd v (s.qdesc v q))

/-- A write while GO = 1 replaces the fields of the invalidation in progress, and GO stays 1: the spec does not say what
such a write does. Every write comes through space 3, so it is a guest's, which may not set STAGE2 (R173, R312).
DESIGN CHOICE, unsafe (log 73). -/
def State.writeTlbinv (s : State) (v : Nat) (w : Word) : State :=
  let r := s.vf v
  let ctx := bits w 11 0
  let taken := (List.range 128).any (fun u => u ≠ v && s.ctxInUse u ctx) && !s.ctxInUse v ctx
  if w.getLsbD 61 || taken then s
  else s.setVf v { r with tlbinv := (w &&& 0x61FFFFFFFFFFFFFF) ||| ((w ||| r.tlbinv) &&& 0x8000000000000000) }

/-- DEDUCED, unsafe (log 24). -/
def execTlbinv (by_ : Ident) (vf : Nat) (v : Word) (s : State) : Host.Outcome State Fault Refusal :=
  manage by_ 3 vf 0x20 (fun s => s.writeTlbinv vf v) s

/-- Does an invalidation cover any byte of an entry's page? -/
def invCovers (w : Word) (v : Nat) (e : TlbEntry) : Bool :=
  let page := bits w 56 12 * 4096
  let all := w.getLsbD 62
  if w.getLsbD 61 then e.vf = v && (all || (e.gpa ≤ page && page < e.gpa + 2 ^ e.log2))
  else e.ctx = bits w 11 0 && (all || (e.va ≤ page && page < e.va + 2 ^ e.log2))

/-- Does an invalidation affect a context? -/
def State.invCtx (s : State) (w : Word) (v ctx : Nat) : Bool :=
  if w.getLsbD 61 then s.ctxInUse v ctx || s.tlb.any fun e => e.vf = v && e.ctx = ctx else ctx = bits w 11 0

/-- Everything that GO waits for (R173): entries dropped, lines invalidated, runs that may hold a translation aborted. A
stage-2 invalidation names no virtual page, so every line of its contexts goes. -/
def State.invalidate (s : State) (v : Nat) (w : Word) : State :=
  let p := (s.vf v).partition
  let mine := fun (cluster : Nat) => (s.part p).clusters.contains cluster
  let page := bits w 56 12
  let whole := w.getLsbD 61 || w.getLsbD 62
  let hit := fun (core ctx vline : Nat) => mine (core / 12) && s.invCtx w v ctx && (whole || vline / 32 = page)
  let s := s.dropRuns fun r => (s.jobOf r.wave).part = p && s.invCtx w v (s.jobOf r.wave).asd.ctx
  { s with
    tlb := s.tlb.filter fun e => !(invCovers w v e && mine (if e.level2 then e.unit else e.unit / 12)),
    l1 := s.l1.filter fun l => !hit l.core l.ctx l.vline,
    ccache := s.ccache.filter fun l => !hit l.core l.ctx l.vline,
    remotes := s.remotes.filter fun x =>
      x.write || !((s.jobOf x.wave).part = p && s.invCtx w v (s.jobOf x.wave).asd.ctx) }

def execTlbinvDone (vf : Nat) (s : State) : Host.Outcome State Fault Refusal :=
  let r := s.vf vf
  if s.frozen || !r.tlbinv.getLsbD 63 then .next s
  else
    let s := s.invalidate vf r.tlbinv
    let s := s.setVf vf { s.vf vf with tlbinv := r.tlbinv &&& 0x7FFFFFFFFFFFFFFF }
    -- every function whose system descriptor has the context tries its held records again (R196)
    .next ((List.range 128).foldl
      (fun s u => match s.sysCtx u with
        | some c => if s.invCtx r.tlbinv vf c.asd.ctx then s.retryHeld u else s
        | none => s) s)

/-! ## Dirty-page harvest (R191, R323) -/

def harvestErr : Word := 0x4000000000000000

/-- A write of HARVEST's third dword. -/
def State.writeHarvest (s : State) (v : Nat) (w : Word) : State :=
  let r := s.vf v
  let go := r.harvest.getLsbD 63
  let err := r.harvest &&& harvestErr &&& ~~~w
  if w.getLsbD 63 then
    if go || r.ngran = 0 then s.setVf v { r with harvest := r.harvest ||| harvestErr }
    else s.setVf v { r with harvest := (w &&& 0x81FFFFFFFFFFFFF8) ||| err }
  else s.setVf v { r with harvest := (w &&& 0x01FFFFFFFFFFFFF8) ||| err ||| (r.harvest &&& 0x8000000000000000) }

def execHarvestStart (by_ : Ident) (vf : Nat) (v : Word) (s : State) : Host.Outcome State Fault Refusal :=
  manage by_ 2 vf 0x38 (fun s => s.writeHarvest vf v) s

/-- Stage-2 tables of a virtual function: those of the descriptors it has in use. DEDUCED, unsafe (log 25). -/
def State.stage2Roots (s : State) (v : Nat) : List Nat :=
  let r := s.vf v
  let asds := (if r.sysasd.getLsbD 0 then [s.readAsd r.partition (bits r.sysasd 56 5 * 32)] else [])
    ++ (List.range r.qcount).map fun q => s.queueAsd v (s.qdesc v q)
  ((asds.filter fun a => a.vf = v && a.s2en).map fun a => a.s2root).eraseDups

/-- The stage-2 leaf entry of a GPA: where it lies, its page's base and log2. -/
def State.leafAt (s : State) (part gpa : Nat) : Nat → Nat → Option (Nat × Nat × Nat)
  | 0, _ => none
  | level + 1, table =>
    let at_ := table + 8 * (gpa / 2 ^ (12 + 9 * level) % 512)
    let p := Pte.of (s.readDword part at_)
    match p.met level true with
    | .bad => none
    | .table => s.leafAt part gpa level p.addr
    | .leaf => some (at_, gpa / 2 ^ (12 + p.size) * 2 ^ (12 + p.size), 12 + p.size)

/-- The dirty pages met in a range, with the entries that hold a leaf of each (R169): base, log2, entries.
DEDUCED, unsafe (log 25). -/
def State.dirtyPages (s : State) (part root first n : Nat) : List (Nat × Nat × List Nat) :=
  let pages := ((List.range n).filterMap fun i => (s.leafAt part ((first + i) * 4096) 5 root).map fun l => l.2).eraseDups
  (pages.map fun (base, log2) =>
    (base, log2, ((List.range (2 ^ (log2 - 12))).filterMap fun i =>
      (s.leafAt part (base + i * 4096) 5 root).map fun l => l.1).eraseDups)).filter fun p =>
    p.2.2.any fun e => (s.readDword part e).getLsbD 7

/-- The harvest, as one action: the bitmap, and D cleared in pages that lie wholly in range.
DEDUCED, unsafe (log 25). -/
def State.harvest (s : State) (v : Nat) : State :=
  let r := s.vf v
  let p := r.partition
  let first := bits r.gbase 56 12
  let n := low32 r.ngran
  let dirty := (s.stage2Roots v).flatMap fun root => s.dirtyPages p root first n
  let bit := fun (i : Nat) => dirty.any fun d => d.1 ≤ (first + i) * 4096 && (first + i) * 4096 < d.1 + 2 ^ d.2.1
  let words := (List.range (ceilDiv n 64)).map fun k =>
    packN 1 ((List.range 64).map fun j => if 64 * k + j < n && bit (64 * k + j) then 1 else 0)
  let s := (List.range words.length).foldl
    (fun s k => s.writePhys p (bits r.harvest 56 3 * 8 + 8 * k) (bytesLE 8 (words.getD k 0))) s
  let whole := dirty.filter fun d => first * 4096 ≤ d.1 && d.1 + 2 ^ d.2.1 ≤ (first + n) * 4096
  let s := (whole.flatMap fun d => d.2.2).foldl
    (fun s e =>
      let w := s.readDword p e
      if w.getLsbD 7 then s.writePhys p e (bytesLE 8 (w &&& ~~~0x80).toNat) else s) s
  { s with tlb := s.tlb.map fun (e : TlbEntry) => if e.vf = v then { e with dirty := false } else e }

/-- DEDUCED, unsafe (log 25). -/
def execHarvestDone (vf : Nat) (s : State) : Host.Outcome State Fault Refusal :=
  let r := s.vf vf
  if s.frozen || !r.harvest.getLsbD 63 then .next s
  else
    let s := s.harvest vf
    let s := s.setVf vf { s.vf vf with harvest := r.harvest &&& 0x7FFFFFFFFFFFFFFF }
    .next (s.irqVf vf 3)

/-! ## KBUDGET (R335) and FREEZE (R332) -/

def kbudgetErr : Word := 0x100000000

/-- DESIGN CHOICE, safe (log 17). -/
def State.writeKbudget (s : State) (w : Word) : State :=
  if bits w 15 0 > 1600 || bits w 15 0 < 16 * bits w 31 16 then { s with kbudget := s.kbudget ||| kbudgetErr }
  else { s with kbudget := (w &&& 0xFFFFFFFF) ||| (s.kbudget &&& kbudgetErr &&& ~~~w) }

def execKbudgetWrite (by_ : Ident) (v : Word) (s : State) : Host.Outcome State Fault Refusal :=
  manage by_ 0 32 0x38 (fun s => s.writeKbudget v) s

def State.writeFreeze (s : State) (w : Word) : State := if w.getLsbD 0 then { s with frozen := true } else s

def execFreezeWrite (by_ : Ident) (v : Word) (s : State) : Host.Outcome State Fault Refusal :=
  manage by_ 0 32 0x30 (fun s => s.writeFreeze v) s

/-! ## Registers that clear when they are read (R6, R281, R316, R331) -/

def VfRegs.vftables (r : VfRegs) : Word := (r.qtbase &&& 0xFFFFFFFFFFFFF000) + w64 (r.pnovf % 4096)

def VfRegs.irqptr (r : VfRegs) : Word :=
  w64 (r.irqhead % 65536 * 2 ^ 32 + r.irqtail % 65536 * 2 ^ 16 + r.irqpend.toNat)

def VfRegs.sampptr (r : VfRegs) : Word :=
  w64 (r.sampdrop % 65536 * 2 ^ 48 + r.samphead % 65536 * 2 ^ 32 + r.samptail % 65536 * 2 ^ 16)

def VfRegs.fqptr (r : VfRegs) : Word :=
  w64 (r.fqhead % 65536 * 2 ^ 32 + r.fqtail % 65536 * 2 ^ 16
    + if ringFull r.fqhead r.fqtail (2 ^ bits r.fqcfg 4 0) then 1 else 0)

def execVftablesRead (by_ : Ident) (vf : Nat) (s : State) : Host.Outcome State Fault Refusal :=
  manageRead by_ 2 vf 8 (s.vf vf).vftables (fun s => s.setVf vf { s.vf vf with pnovf := 0 }) s

def execIrqptrRead (by_ : Ident) (vf : Nat) (s : State) : Host.Outcome State Fault Refusal :=
  manageRead by_ 2 vf 0x20 (s.vf vf).irqptr (fun s => s.setVf vf { s.vf vf with irqpend := 0 }) s

def execSampptrRead (by_ : Ident) (vf : Nat) (s : State) : Host.Outcome State Fault Refusal :=
  manageRead by_ 3 vf 0x58 (s.vf vf).sampptr (fun s => s.setVf vf { s.vf vf with sampdrop := 0 }) s

/-! ## Counter banks (R329) -/

def Counter.word (c : Counter) : Word := c.event ++ (0 : BitVec 8) ++ c.count

/-- Counter offsets of space 3: unit and number. -/
def counterOffset (offset : Nat) : Option (Nat × Nat) :=
  if 0x1000 ≤ offset && offset < 0x1000 + 64 * 293 && offset % 8 = 0 then
    some ((offset - 0x1000) / 64, (offset - 0x1000) % 64 / 8)
  else none

/-! ## Quotes: the request (R340, R342) -/

/-- A write of QCTL: STATUS takes the bits written, but for a GO that is refused (R6). DESIGN CHOICE, unsafe (log 31). -/
def State.writeQctl (s : State) (p : Nat) (w : Word) : State :=
  let r := { s.part p with qstatus := bits w 9 8 }
  if !w.getLsbD 0 then s.setPart p r
  else if r.qgo then s.setPart p { r with qstatus := 3 }
  else
    { s.setPart p { r with qgo := true, qresp := [] } with
      quotes := s.quotes ++ [{ part := p, nonce := r.qnonce }] }

def execQctlGo (by_ : Ident) (part : Nat) (v : Word) (s : State) : Host.Outcome State Fault Refusal :=
  manage by_ 4 part 0x120 (fun s => s.writeQctl part v) s

/-! ## Registers with no behaviour of their own (R6) -/

/-- A dword of a wide register replaced. -/
def putDword {n : Nat} (x : BitVec n) (k : Nat) (w : Word) : BitVec n :=
  let mask : BitVec n := BitVec.ofNat n ((2 ^ 64 - 1) * 2 ^ (64 * k))
  (x &&& ~~~mask) ||| BitVec.ofNat n (w.toNat * 2 ^ (64 * k))

def getDword {n : Nat} (x : BitVec n) (k : Nat) : Word := w64 (x.toNat / 2 ^ (64 * k))

def State.writePart (s : State) (by_ : Ident) (p offset : Nat) (w : Word) : State :=
  let r := s.part p
  if offset = 0 then s.setPart p { r with hvirq := w &&& 0x01FFFFFFFFFFFF00 }
  else if offset = 8 then s.writeHvid by_ p w
  else if 0x800 ≤ offset && offset < 0x800 + 4 * 192 && offset % 4 = 0 then
    s.writeBank p ((offset - 0x800) / 4) (w32 (low32 w))
  else s

def State.writeDevice (s : State) (p offset : Nat) (w : Word) : State :=
  if p = 32 then
    if offset = 0x30 then s.writeFreeze w else if offset = 0x38 then s.writeKbudget w else s
  else
    let r := s.part p
    let err : BitVec 384 := BitVec.ofNat 384 (2 ^ 382)
    if offset < 0x30 && offset % 8 = 0 then s.writeOwn p (putDword (r.partown &&& ~~~err) (offset / 8) w)
    else if 0x100 ≤ offset && offset < 0x300 && offset % 8 = 0 then
      s.setPart p { r with grants := r.grants.setIfInBounds ((offset - 0x100) / 8) (w &&& 0xFFFFFFFFFFF00000) }
    else s

def State.writeHv (s : State) (v offset : Nat) (w : Word) : State :=
  let r := s.vf v
  match offset with
  | 0x00 => s.writeQuota v w
  | 0x08 => s.setVf v { r with qtbase := w &&& 0xFFFFFFFFFFFFF000 }
  | 0x10 => s.writeVfcfg v w
  | 0x18 => s.writeIrqlog v w
  | 0x20 => s.setVf v { r with irqhead := bits w 47 32 }
  | 0x28 => s.setVf v { r with gbase := w &&& 0x01FFFFFFFFFFF000 }
  | 0x30 => s.setVf v { r with ngran := w &&& 0xFFFFFFFF }
  | 0x38 => s.writeHarvest v w
  | 0x40 => s.writeSysasd v w
  | 0x48 => s.setVf v { r with guestid := w &&& 0x1FFFFFFFF }
  | _ => s

/-- FAULTACK is not among these: the three answers have meanings of their own in Faultack.lean. -/
def State.writeGuest (s : State) (v offset : Nat) (w : Word) : State :=
  let r := s.vf v
  match offset with
  | 0x00 => s.notify v w
  | 0x08 => s.writeFqcfg v w
  | 0x10 => s.writeFqptr v w
  | 0x20 => s.writeTlbinv v w
  | 0x28 => s.setVf v { r with dbgctl := w &&& 7 }
  | 0x50 => s.writeSampcfg v w
  | 0x58 => s.setVf v { r with samphead := bits w 47 32 }
  | _ =>
    if 0x30 ≤ offset && offset < 0x50 && offset % 8 = 0 then
      s.setVf v { r with dbgbp := r.dbgbp.setIfInBounds ((offset - 0x30) / 8) (w &&& 0xFFFFFFFFFFFFFFFD) }
    else match counterOffset offset with
      | some (u, k) =>
        s.setCounterAt { vf := v, unit := u, k := k, event := w.extractLsb' 56 8, count := w.extractLsb' 0 48 }
      | none => s

def State.writeIdentity (s : State) (p offset : Nat) (w : Word) : State :=
  let r := s.part p
  if 0x100 ≤ offset && offset < 0x120 && offset % 8 = 0 then
    s.setPart p { r with qnonce := putDword r.qnonce ((offset - 0x100) / 8) w }
  else if offset = 0x120 then s.writeQctl p w
  else s

end Sys2Proof.Machine
end

