-- ==== Sys2Proof/Machine/Faultack.lean ====
section
/-!
DEFINITION. FAULTACK: how system software answers a parked fault (R198, R199, R219, R275, R327).
-/

namespace Sys2Proof.Machine

open Sys2Proof

def State.dropTicket (s : State) (num : W32) : State := { s with tickets := s.tickets.filter fun k => k.num ≠ num }

/-- The threads of a ticket that still stand parked on it. -/
def State.parkedOn (s : State) (w : WaveId) (m : LaneMask) (num : W32) : LaneMask :=
  maskWhere fun l => LaneMask.has m l && (s.thread w l).status = .parked num

/-! ## ACT 0 -/

/-- A stop of threads ends: they take their registers from the image, with the whole team where it is stopped whole, and
the threads that STOPALL stopped go on with them (R327). DESIGN CHOICE, unsafe (log 20). -/
def State.unstop (s : State) (k : Ticket) (w : WaveId) (m : LaneMask) : State :=
  let j := s.jobOf w
  let s := if s.allStopped w.team then s.readTeam w.team j.part j.card.named else s.readThreads w m j.part j.card.named
  let s := (s.dropTicket k.num).modTeam w.team fun t =>
    { t with waves := t.waves.map fun (v : Wave) => v.modLanes v.liveMask fun t => { t with stopped := false } }
  if s.hasStop w.team then s else s.dropImage (s.team w.team) j.part

/-- Resumed threads run on, in step mode where DBGCTL has it (R327, R328). -/
def State.resumeStopped (s : State) (k : Ticket) (w : WaveId) (m : LaneMask) : State :=
  let step := (s.vf (s.jobOf w).vf).dbgctl.getLsbD 2
  (s.unstop k w m).modLanes w m fun _ t =>
    { t with status := .ready, since := s.now, pass := true, stepping := step, next := t.pc }

/-- The run, command, element or program goes on. -/
def State.ackRetry (s₀ : State) (k : Ticket) : State :=
  let s := s₀.dropTicket k.num
  match k.who with
  | .threads w m =>
    let m := s.parkedOn w m k.num
    if k.stop then s₀.resumeStopped k w m
    else s.modLanes w m fun _ t => { t with status := .ready, since := s.now }
  | .command id => s.modCmd id fun c => { c with ticket := none }
  | .element id e => s.modCmd id fun c => { c with parked := c.parked.filter fun p => p.element ≠ e }
  | .stream t => s.modStream t fun x => if x.st = .suspended k.num then { x with st := .running } else x
  | .streamElement t e => s.modStream t fun x => { x with parked := x.parked.filter fun p => p.element ≠ e }

/-! ## ACT 2 and ACT 1 -/

def State.ackTerminate (s : State) (k : Ticket) : State :=
  let s := s.dropTicket k.num
  match k.who with
  | .threads w _ => s.terminate w.team k.code
  | .command id => match s.cmd? id with | some c => s.terminate c.wave.team k.code | none => s
  | .element id _ => match s.cmd? id with | some c => s.terminate c.wave.team k.code | none => s
  | .stream t => s.terminate t k.code
  | .streamElement t _ => s.terminate t k.code

/-- A command that is not replayed completes with ENGFAULT, and a record that holds the fault's code (R192, R219); a
reversed pointer it has met is still told (R262). What it would have put into registers beside its token is open.
DEDUCED, safe (log 12). -/
def State.engFault (s : State) (c : Cmd) (code : Nat) : State :=
  let s := s.cmdReport c Code.engFault code 0
  let open_ := fun (l : Fin 32) => s.openWord 1 (32 * c.id + l.val)
  match c.kind with
  | .rayq _ _ _ _ n => s.rayEnd c n (⟨open_ 0, 0⟩, ⟨open_ 1, 0⟩) Code.engFault
  | .wlins _ _ d => s.listResults c d open_
  | .wlpopb _ _ d => s.listResults c d open_
  | .wlinit _ => (s.endCmd c 0 0).resumeCmd c.wave c.lanes
  | .drain _ _ _ rows _ _ _ => (s.endCmd c 0 0).resumeCmd c.wave rows
  | .grammar .. => s.gramEnd c Code.engFault ((c.part.map fun p => p.growPtr).getD false) c.sig
  | _ => s.endCmd c (w64 Code.engFault) c.sig

/-- A parked thread enters the user handler at the run it stands at. One that a debugger has stopped may have been sent to
another run (R199, R327). -/
def State.deliverTo (s : State) (w : WaveId) (l : Fin 32) (k : Ticket) : State :=
  let t := s.thread w l
  let s := if k.stop then s.noteResume w (laneBit l) (s.runEnd (s.xctx w) t.blk t.runStart) t.blk 0 else s
  s.enterHandler w (laneBit l) k.code k.sub t.runStart

/-- Delivery to the user handler, with no further record (R199); without a handler, or inside it, the team ends. A
command's token takes ENGFAULT, an element is dropped; a stream program, which has no thread to deliver to, ends its team
even where the job names a handler (R212 names none). DEDUCED, safe (log 12); DESIGN CHOICE, unsafe (log 74). -/
def State.ackDeliver (s : State) (k : Ticket) : State :=
  match k.who with
  | .threads w m =>
    let m := s.parkedOn w m k.num
    let s := if k.stop then s.unstop k w m else s.dropTicket k.num
    let inside := (lanesOf m).any fun l => (s.thread w l).inHandler
    if (s.jobOf w).card.handler = 0 || inside then s.terminate w.team k.code
    else (lanesOf m).foldl (fun s l => s.deliverTo w l k) s
  | .command id =>
    match s.cmd? id with
    | some c => (s.dropTicket k.num).engFault c k.code
    | none => s.dropTicket k.num
  | .element id e =>
    (s.dropTicket k.num).modCmd id fun c =>
      { c with parked := c.parked.filter (fun p => p.element ≠ e), drop := c.drop ++ [e] }
  | .stream t => (s.dropTicket k.num).terminate t k.code
  | .streamElement t e =>
    (s.dropTicket k.num).modStream t fun x =>
      { x with parked := x.parked.filter (fun p => p.element ≠ e), drop := x.drop ++ [e] }

/-- An answer: an unknown ticket changes nothing (R198). -/
def State.ack (s : State) (v : Nat) (num : W32) (f : State → Ticket → State) : State :=
  match s.tickets.find? fun k => k.num = num && k.vf = v with
  | some k => f s k
  | none => s

def execFaultackRetry (by_ : Ident) (vf : Nat) (ticket : W32) (s : State) : Host.Outcome State Fault Refusal :=
  manage by_ 3 vf 0x18 (fun s => s.ack vf ticket State.ackRetry) s

def execFaultackDeliver (by_ : Ident) (vf : Nat) (ticket : W32) (s : State) : Host.Outcome State Fault Refusal :=
  manage by_ 3 vf 0x18 (fun s => s.ack vf ticket State.ackDeliver) s

def execFaultackTerminate (by_ : Ident) (vf : Nat) (ticket : W32) (s : State) : Host.Outcome State Fault Refusal :=
  manage by_ 3 vf 0x18 (fun s => s.ack vf ticket State.ackTerminate) s

/-- FAULTACK as a register; ACT = 3 changes nothing (R312). -/
def State.writeFaultack (s : State) (v : Nat) (w : Word) : State :=
  let t := w32 (low32 w)
  match bits w 33 32 with
  | 0 => s.ack v t State.ackRetry
  | 1 => s.ack v t State.ackDeliver
  | 2 => s.ack v t State.ackTerminate
  | _ => s

end Sys2Proof.Machine
end

