-- ==== Sys2Proof/Machine/Xmss.lean ====
section
/-!
DEFINITION. XMSS-SHAKE256_20_256 (R337, R339, R340): the signature scheme of RFC 8391 with the parameter set of NIST
SP 800-208, which the spec names and does not print (log 60): n = 32, w = 16, 67 chains, height 20.
-/

namespace Sys2Proof.Machine

open Sys2Proof

/-- n bytes of a number, most significant first. -/
def bytesBE (n v : Nat) : List Byte := (bytesLE n v).reverse

def natBE (bs : List Byte) : Nat := natLE bs.reverse

/-! ## The keyed hashes. PRESUMED, unsafe (log 60). -/

/-- SHAKE256(toByte(k, 32) ∥ key ∥ m): F for k = 0, H for 1, H_msg for 2, PRF for 3. PRESUMED, unsafe (log 60). -/
def xmssHash (k : Nat) (key m : List Byte) : List Byte := digestBytes (shake256 (bytesBE 32 k ++ key ++ m))

/-- A hash address: its type, and the three words after it; layer and tree are 0. -/
structure Adrs where
  type_ : Nat
  a     : Nat
  b     : Nat
  c     : Nat
  deriving DecidableEq, Repr

/-- With the word that tells a key (0) from a bit mask (1, 2). -/
def Adrs.bytes (x : Adrs) (mask : Nat) : List Byte :=
  List.replicate 12 0 ++ [x.type_, x.a, x.b, x.c, mask].flatMap (bytesBE 4)

/-- The PRF of a public seed at an address. PRESUMED, unsafe (log 60). -/
def prf (seed : List Byte) (x : Adrs) (mask : Nat) : List Byte := xmssHash 3 seed (x.bytes mask)

def xorBytes (a b : List Byte) : List Byte := List.zipWith (fun (x y : Byte) => x ^^^ y) a b

/-- RAND_HASH. PRESUMED, unsafe (log 60). -/
def randHash (seed l r : List Byte) (x : Adrs) : List Byte :=
  xmssHash 1 (prf seed x 0) (xorBytes l (prf seed x 1) ++ xorBytes r (prf seed x 2))

/-! ## WOTS+ -/

/-- Steps of a chain from a place on; `x.c` is the place. PRESUMED, unsafe (log 60). -/
def wotsChain (seed : List Byte) (leaf i : Nat) : Nat → Nat → List Byte → List Byte
  | 0, _, v => v
  | n + 1, at_, v =>
    let x : Adrs := { type_ := 0, a := leaf, b := i, c := at_ }
    wotsChain seed leaf i n (at_ + 1) (xmssHash 0 (prf seed x 0) (xorBytes v (prf seed x 1)))

/-- The 67 digits of a message of 32 bytes: 64 of its own, and three of their checksum. PRESUMED, unsafe (log 60). -/
def wotsDigits (m : List Byte) : List Nat :=
  let own := m.flatMap fun b => [b.toNat / 16, b.toNat % 16]
  let sum := own.foldl (fun a d => a + (15 - d)) 0
  own ++ [sum / 256 % 16, sum / 16 % 16, sum % 16]

/-- Halves a list of nodes of an L-tree. -/
def ltreeLevel (seed : List Byte) (leaf h : Nat) : Nat → List (List Byte) → List (List Byte)
  | i, l :: r :: rest => randHash seed l r { type_ := 1, a := leaf, b := h, c := i } :: ltreeLevel seed leaf h (i + 1) rest
  | _, vs => vs

/-- The root of the L-tree of 67 nodes, in seven levels. PRESUMED, unsafe (log 60). -/
def ltree (seed : List Byte) (leaf : Nat) (vs : List (List Byte)) : List Byte :=
  ((List.range 7).foldl (fun vs h => ltreeLevel seed leaf h 0 vs) vs).headD []

/-! ## Verification -/

/-- Pieces of 32 bytes. -/
def blocks32 (n : Nat) (bs : List Byte) : List (List Byte) := (List.range n).map fun i => (bs.drop (32 * i)).take 32

/-- The node above a node that stands at a height and an index, by its sibling. -/
def xmssUp (seed : List Byte) (height index : Nat) (node sibling : List Byte) : List Byte :=
  let x : Adrs := { type_ := 2, a := 0, b := height, c := index / 2 }
  if index % 2 = 0 then randHash seed node sibling x else randHash seed sibling node x

/-- A message as it is signed: H_msg of the randomness, the root and the index. PRESUMED, unsafe (log 60). -/
def xmssDigest (rand root : List Byte) (leaf : Nat) (m : List Byte) : List Byte :=
  xmssHash 2 (rand ++ root ++ bytesBE 32 leaf) m

def signatureLen : Nat := 2820

/-- Is a signature one of a message under a public key (OID, root, SEED)? PRESUMED, unsafe (log 60). -/
def xmssVerify (pk m sig : List Byte) : Bool :=
  let root := (pk.drop 4).take 32
  let seed := (pk.drop 36).take 32
  let leaf := natBE (sig.take 4)
  let rand := (sig.drop 4).take 32
  let ots := blocks32 67 (sig.drop 36)
  let auth := blocks32 20 (sig.drop (36 + 67 * 32))
  let digits := wotsDigits (xmssDigest rand root leaf m)
  let ends := (List.range 67).map fun i =>
    let d := digits.getD i 0
    wotsChain seed leaf i (15 - d) d (ots.getD i [])
  let top := (List.range 20).foldl (fun v k => xmssUp seed k (leaf / 2 ^ k) v (auth.getD k [])) (ltree seed leaf ends)
  sig.length = signatureLen && decide (top = root)

/-! ## Keys of the device: 0 is the identity key, b + 1 the per-boot key that its leaf b signed (R339) -/

/-- The object identifier of XMSS-SHAKE256_20_256. PRESUMED, unsafe (log 60). -/
def xmssOid : List Byte := bytesBE 4 0x12

def keySeed (key : Nat) : List Byte := digestBytes (Config.xmssSeed key)

/-- The start of chain i of a leaf. -/
def chainStart (key leaf i : Nat) : List Byte := digestBytes (Config.xmssSecret key leaf i)

/-- A node of a key's tree. PRESUMED, unsafe (log 60). -/
def xmssNode (key : Nat) : Nat → Nat → List Byte
  | 0, i => ltree (keySeed key) i ((List.range 67).map fun c => wotsChain (keySeed key) i c 15 0 (chainStart key i c))
  | h + 1, i =>
    randHash (keySeed key) (xmssNode key h (2 * i)) (xmssNode key h (2 * i + 1)) { type_ := 2, a := 0, b := h, c := i }

def xmssRoot (key : Nat) : List Byte := xmssNode key 20 0

/-- The 68 bytes of a public key: OID, root, SEED. -/
def xmssPublic (key : Nat) : List Byte := xmssOid ++ xmssRoot key ++ keySeed key

/-- The same, byte by byte. -/
def publicKey (key : Nat) : List Byte := (List.range 68).map fun i => (xmssPublic key).getD i 0

/-- The randomness of a leaf's signature. PRESUMED, unsafe (log 60). -/
def xmssRandom (key leaf : Nat) : List Byte := xmssHash 3 (digestBytes (Config.xmssPrfKey key)) (bytesBE 32 leaf)

/-- The 2,820 bytes of a leaf's signature of a message: index, randomness, WOTS+ signature, authentication path (R340).
PRESUMED, unsafe (log 60). -/
def signatureBytes (key leaf : Nat) (m : List Byte) : List Byte :=
  let digits := wotsDigits (xmssDigest (xmssRandom key leaf) (xmssRoot key) leaf m)
  bytesBE 4 leaf ++ xmssRandom key leaf
    ++ (List.range 67).flatMap (fun i => wotsChain (keySeed key) leaf i (digits.getD i 0) 0 (chainStart key leaf i))
    ++ (List.range 20).flatMap fun k => xmssNode key k (leaf / 2 ^ k ^^^ 1)

end Sys2Proof.Machine
end

