-- ==== Sys2Proof/Machine/Device.lean ====
section
/-!
DEFINITION. The device as a whole: management access to any register (R6, R312), the identity block and quotes (R339 to R342), reset and measured boot (R337, R338),
freeze and the test port (R332 to R334), requests from and to other devices (R318, R319), and errors of memory, register
files and cached lines (R165, R180, R194).
-/

namespace Sys2Proof.Machine

open Sys2Proof

/-! ## Identity block (R341) -/

/-- The counts of the rows of R11 for units owned; the last three rows are every partition's. -/
def blockCounts (r : PartRegs) : List Nat :=
  let c := r.clusters.length
  [c, 12 * c, 48 * c, 192 * c, 12 * c, 48 * c, 12 * c, c, c, c, r.ruleEngines.length, r.binEngines.length,
   r.banks.length, r.channels.length, r.ports.length, 8, 256, 1]

def State.identityOf (s : State) (r : PartRegs) : List Byte :=
  (blockCounts r).flatMap (bytesLE 2) ++ bytesLE 2 0x0960 ++ zeros 2 ++ bytesLE 8 Config.serial.toNat
    ++ publicKey 0 ++ bytesLE 4 s.idLeaves ++ zeros 136

def State.identityBlock (s : State) (p : Nat) : List Byte := s.identityOf (s.part p)

/-! ## Quotes (R340, R342) -/

def leafCount : Nat := 2 ^ 20

def State.bootPublic (s : State) : List Byte := publicKey (s.bootLeaf + 1)

/-- DESIGN CHOICE, unsafe (log 31). -/
def State.quoteResponse (s : State) (q : QuoteReq) : List Byte :=
  let index := bytesLE 4 s.quoteLeaf
  let msg := shake256 (digestBytes s.digest ++ digestBytes q.nonce ++ index ++ s.identityBlock q.part)
  digestBytes s.digest ++ index ++ s.bootPublic
    ++ signatureBytes (s.bootLeaf + 1) s.quoteLeaf (digestBytes msg)
    ++ signatureBytes 0 s.bootLeaf (s.bootPublic ++ digestBytes s.digestAtBoot)
    ++ digestBytes s.digestAtBoot

/-- The oldest request is served. -/
def execQuoteDone (part : Nat) (s : State) : Host.Outcome State Fault Refusal :=
  match s.quotes with
  | [] => .next s
  | q :: rest =>
    if s.frozen || q.part ≠ part then .next s
    else
      let r := s.part part
      let s := { s with quotes := rest }
      if !s.attested then .next (s.setPart part { r with qgo := false, qstatus := 2 })
      else if leafCount ≤ s.quoteLeaf then .next (s.setPart part { r with qgo := false, qstatus := 1 })
      else
        .next { s.setPart part { r with qgo := false, qstatus := 0, qresp := s.quoteResponse q } with
          quoteLeaf := s.quoteLeaf + 1 }

/-! ## Reset and boot (R337 to R339) -/

/-- RST_N: every register at its reset value and all state discarded. What reset does not reach: the device number, the
fused leaf counter, and the model's own step count and inputs. DESIGN CHOICE, safe (log 30). -/
def execRstN (s : State) : Host.Outcome State Fault Refusal :=
  .next { State.reset with tick := s.tick, devNum := s.devNum, idLeaves := s.idLeaves, inputs := s.inputs }

/-- Appends an entry to the log. DESIGN CHOICE, unsafe (log 31). -/
def State.measure (s : State) (e : BitVec 256) : State :=
  { s with log := s.log ++ [e], digest := extendDigest s.digest e }

/-- The identity key signs this boot's key while it has leaves (R339). DESIGN CHOICE, unsafe (log 31). -/
def State.attest (s : State) : State :=
  if s.idLeaves < leafCount then
    { s with attested := true, bootLeaf := s.idLeaves, idLeaves := s.idLeaves + 1, digestAtBoot := s.digest }
  else { s with attested := false }

def runBit : BitVec 384 := BitVec.ofNat 384 (2 ^ 383)

/-- RUN of a configured partition is set where R314 allows it. -/
def State.startPart (s : State) (p : Nat) : State := s.writeOwn p ((s.part p).partown ||| runBit)

/-- Has an image a signature under the fused root key, and a version that is not below the rollback counter (R337)? -/
def imageGood (img : BootImage) : Bool :=
  xmssVerify ((List.range 68).map Config.rootKey) img.image img.signature && Config.rollback ≤ img.version

/-- DEDUCED, safe (log 7); DEDUCED, unsafe (log 26); DESIGN CHOICE, unsafe (log 31). -/
def execMeasuredBoot (img : BootImage) (s : State) : Host.Outcome State Fault Refusal :=
  if s.frozen || s.boot ≠ .pending then .next s
  else
    let s := s.measure Config.romDigest
    if !imageGood img then .next { s with boot := .failed, restricted := true }
    else
      let s := (shake256 img.image :: img.stages).foldl State.measure s
      let s := { s.attest with boot := .done, mgrid := (1 : BitVec 32) ++ img.mgrid, quoteLeaf := 0 }
      .next (img.parts.foldl State.startPart s)

/-! ## Freeze and the test port (R332, R333) -/

def execFrzNAssert (s : State) : Host.Outcome State Fault Refusal := .next { s with frozen := true }

/-- Does the test port answer BYPASS and IDCODE? -/
def State.portOpen (s : State) : Bool := s.frozen || s.restricted

/-! ## Registers as they read (R6, R312) -/

/-- The register of space 3 at an offset. -/
def State.readGuest (s : State) (v offset : Nat) : Word :=
  let r := s.vf v
  match offset with
  | 0x08 => r.fqcfg
  | 0x10 => r.fqptr
  | 0x20 => r.tlbinv
  | 0x28 => r.dbgctl
  | 0x50 => r.sampcfg
  | 0x58 => r.sampptr
  | _ =>
    if 0x30 ≤ offset && offset < 0x50 && offset % 8 = 0 then r.dbgbp.toList.getD ((offset - 0x30) / 8) 0
    else match counterOffset offset with
      | some (u, k) => (s.counterAt v u k).word
      | none => 0

def State.readHv (s : State) (v offset : Nat) : Word :=
  let r := s.vf v
  match offset with
  | 0x00 => r.vfquota
  | 0x08 => r.vftables
  | 0x10 => r.vfcfg
  | 0x18 => r.irqlog
  | 0x20 => r.irqptr
  | 0x28 => r.gbase
  | 0x30 => r.ngran
  | 0x38 => r.harvest
  | 0x40 => r.sysasd
  | 0x48 => r.guestid
  | _ => 0

def State.readPart (s : State) (p offset : Nat) : Word :=
  let r := s.part p
  if offset = 0 then r.hvirq
  else if offset = 8 then r.hvid
  else if 0x800 ≤ offset && offset < 0x800 + 4 * 192 && offset % 4 = 0 then
    (s.bankReg ((offset - 0x800) / 4)).cfg.zeroExtend 64 ||| (if (s.bankReg ((offset - 0x800) / 4)).due.isSome then 0x100 else 0)
  else 0

/-- DEDUCED, unsafe (log 26). -/
def State.readDevice (s : State) (p offset : Nat) : Word :=
  let r := s.part p
  if p = 32 then
    match offset with
    | 0x30 => if s.frozen then 1 else 0
    | 0x38 => s.kbudget
    | 0x40 => s.mgrid
    | _ => 0
  else if offset < 0x30 && offset % 8 = 0 then getDword r.partown (offset / 8)
  else if 0x100 ≤ offset && offset < 0x300 && offset % 8 = 0 then r.grants.toList.getD ((offset - 0x100) / 8) 0
  else 0

/-- QRESP lies at 0x200, and reads 0 past what the response holds. A read answers the dword at a multiple of 8, and 0 at any
other offset, though R20 places some fields in the middle of a dword. DESIGN CHOICE, unsafe (log 80). -/
def State.readIdentity (s : State) (p offset : Nat) : Word :=
  let r := s.part p
  if offset % 8 ≠ 0 then 0
  else if offset < 0x100 then w64 (natLE ((s.identityBlock p).drop offset |>.take 8))
  else if offset = 0x120 then w64 ((if r.qgo then 1 else 0) + r.qstatus % 4 * 256)
  else if 0x200 ≤ offset && offset < 0x2000 then w64 (natLE ((r.qresp.drop (offset - 0x200)).take 8))
  else 0

/-- A register as it reads, at an offset of a space; one that names no register reads 0 (R312). -/
def State.readReg (s : State) (space index offset : Nat) : Word :=
  match space with
  | 0 => s.readDevice index offset
  | 1 => s.readPart index offset
  | 2 => s.readHv index offset
  | 3 => s.readGuest index offset
  | _ => s.readIdentity index offset

/-- The fields that a read clears (R6, R281, R316, R331). -/
def State.clearRead (s : State) (space v offset : Nat) : State :=
  let r := s.vf v
  if space = 2 && offset = 0x08 then s.setVf v { r with pnovf := 0 }
  else if space = 2 && offset = 0x20 then s.setVf v { r with irqpend := 0 }
  else if space = 3 && offset = 0x58 then s.setVf v { r with sampdrop := 0 }
  else s

/-- A write at an offset of a space; one that names no register is ignored (R312). -/
def State.writeReg (s : State) (by_ : Ident) (space index offset : Nat) (w : Word) : State :=
  match space with
  | 0 => s.writeDevice index offset w
  | 1 => s.writePart by_ index offset w
  | 2 => s.writeHv index offset w
  | 3 => if offset = 0x18 then s.writeFaultack index w else s.writeGuest index offset w
  | _ => s.writeIdentity index offset w

/-- A management access to any register. The opcode table has no row for a read of most registers, so reads stand beside
the writes here. DESIGN CHOICE, safe (log 69). -/
def execRegisterWrite (by_ : Ident) (space index offset : Nat) (a : RegAccess) (s : State) :
    Host.Outcome State Fault Refusal :=
  match a with
  | .write v => manage by_ space index offset (fun s => s.writeReg by_ space index offset v) s
  | .read =>
    manageRead by_ space index offset (s.readReg space index offset) (fun s => s.clearRead space index offset) s

/-! ## The dump (R334) -/

/-- A dump record: its header and its data. -/
def dumpRec (kind unit : Nat) (data : List Word) : List Word :=
  w64 (kind * 2 ^ 56 + unit * 2 ^ 40 + data.length % 2 ^ 32) :: data

/-- Bytes as dwords, the last filled with 0. -/
def dwordsOf : Nat → List Byte → List Word
  | 0, _ => []
  | n + 1, bs => if bs.isEmpty then [] else w64 (natLE (bs.take 8)) :: dwordsOf n (bs.drop 8)

def dwords (bs : List Byte) : List Word := dwordsOf bs.length bs

/-- n dwords whose contents the spec leaves open, told apart by a salt. PRESUMED, unsafe (log 32). -/
def State.openDwords (s : State) (salt n : Nat) : List Word :=
  (List.range n).map fun i => s.openWord 8 (2 ^ 40 * salt + i)

/-- Data cut or filled to a length; what it does not reach is open. -/
def State.fill (s : State) (salt n : Nat) (data : List Word) : List Word :=
  data.take n ++ s.openDwords salt (n - data.length)

def regPair (space index offset : Nat) (v : Word) : List Word :=
  [w64 (space * 2 ^ 56 + index * 2 ^ 32 + offset), v]

/-- A partition whose units are all of the device's. -/
def wholeDevice : PartRegs := { PartRegs.reset 1 with partown := BitVec.ofNat 384 (2 ^ 276 - 1) }

/-- Registers of spaces 0 to 3 for a partition; those of no partition stand with partition 0's. -/
def State.dumpRegs (s : State) (p : Nat) : List Word :=
  let space0 := ((List.range 6).map fun k => 8 * k) ++ (List.range 64).map fun k => 0x100 + 8 * k
  let space1 := [0, 8] ++ (s.part p).banks.map fun b => 0x800 + 4 * b
  let space2 := (List.range 10).map fun k => 8 * k
  let space3 := ((List.range 12).map fun k => 8 * k) ++ (List.range (8 * 293)).map fun k => 0x1000 + 8 * k
  let vfs := (List.range 128).filter fun v => (s.vf v).partition = p
  space0.flatMap (fun o => regPair 0 p o (s.readDevice p o))
    ++ (if p = 0 then [0x30, 0x38, 0x40].flatMap fun o => regPair 0 32 o (s.readDevice 32 o) else [])
    ++ space1.flatMap (fun o => regPair 1 p o (s.readPart p o))
    ++ vfs.flatMap (fun v => space2.flatMap fun o => regPair 2 v o (s.readHv v o))
    ++ vfs.flatMap fun v => space3.flatMap fun o => regPair 3 v o (s.readGuest v o)

/-- Teams that have something on a core. -/
def State.coreTeams (s : State) (core : Nat) : List Team := s.teams.filter fun t => t.coreNo = core

/-- A thread record of 32 named registers. Bit 63 of its PC says whether its commit was in progress: it was where the run's
commit waits for another device; a commit is otherwise one step, so that the bit is open for a thread with a run to
commit, and 0 for any other. PRESUMED, unsafe (log 32). -/
def State.dumpThread (s : State) (salt : Nat) (w : WaveId) (l : Fin 32) (t : Thread) : List Word :=
  let mark : Word := 0x8000000000000000
  let bit :=
    if s.remotes.any fun x => x.wave = w && x.lane = l && x.held then mark
    else if t.status = .ready && s.runs.any fun r => r.wave = w && LaneMask.has r.group l then s.openWord 9 salt &&& mark
    else 0
  match dwords (threadBytes 32 0 t) with
  | [] => []
  | pc :: rest => (pc &&& 0x01FFFFFFFFFFFFFF ||| bit) :: rest

/-- What a core's stream engine holds, of its owner where it has one (R209, R213): registers, loop levels, semaphores, the
entries of each queue, and what is left of the shared pool. PRESUMED, unsafe (log 32). -/
def dumpStream (t : Team) : List Word :=
  t.stream.a.toList ++ t.stream.loops.toList.flatMap (fun l => [l.start, w64 (loopWord l)])
    ++ dwords (t.sem.toList.flatMap (bytesLE 2))
    ++ t.dq.toList.flatMap (fun q => w64 q.length :: q.flatMap fun e => e.map fun v => v.bits) ++ [w64 t.pool]

/-- PRESUMED, unsafe (log 32). -/
def State.dumpCore (s : State) (core : Nat) : List Word :=
  let teams := (s.coreTeams core).filter fun t => t.place = .resident
  let wave := fun (k : Nat) =>
    match (teams.flatMap fun t => t.waves.map fun w => (t.waveId w.idx, w)).find? fun w => w.2.slot = some k with
    | some (id, w) => dwords (waveBytes w) ++ (List.finRange 32).flatMap fun i =>
        s.dumpThread (2 ^ 39 + 512 * core + 32 * k + i.val) id i w.lanes[i]
    | none => dwords (zeros (256 + 32 * threadRec 32))
  (List.range 16).flatMap wave ++ dumpStream ((teams.find? fun t => t.owner).getD (Team.new ⟨0, 0⟩))

/-- A core's scratchpad, its allocation table and the shadows of unpublished bytes. Teams lie in it in order. -/
def State.dumpScratch (s : State) (core : Nat) : List Word :=
  let teams := (s.coreTeams core).filter fun t => t.scrState ≠ .released && (t.place = .resident || t.place = .ended)
  let data := s.fill (2 ^ 38 + core) 32768 (dwords (teams.flatMap fun t => t.scr.readN 0 t.scrSize))
  let table := teams.flatMap fun t => [w64 (t.id.job + t.id.team * 2 ^ 32), w64 t.scrSize]
  let copies := s.cmds.filterMap fun c =>
    match c.kind with | .copy k => if (s.team c.wave.team).coreNo = core then some k.shadow else none | _ => none
  let shadows := teams.flatMap (fun t => t.stream.shadow.filterMap fun b =>
      match b.1 with | .scr _ o => some (w64 (o * 256 + b.2.toNat)) | .phys .. => none)
    ++ copies.flatMap dwords
  data ++ table ++ shadows

/-- A slot: GEN, allocation bit and the job its context is bound to; then its rows. -/
def State.dumpSlot (s : State) (cluster ctx slot : Nat) : List Word :=
  let a := s.accSlot cluster ctx slot
  let bound := ((s.contexts.find? fun c => c.cluster = cluster && c.ctx = ctx).map fun c => c.job).getD 0
  w64 (a.gen.toNat + (if a.owner.isSome then 2 ^ 16 else 0) + bound % 2 ^ 32 * 2 ^ 32)
    :: (List.range 4096).map fun i => (getAssoc i a.data).getD 0

def State.dumpAcc (s : State) (cluster : Nat) : List Word :=
  (List.range 2).flatMap fun ctx => (List.range 32).flatMap fun slot => s.dumpSlot cluster ctx slot

/-- The open bins name each call by its pair of PC and SEQ (R324). PRESUMED, unsafe (log 32). -/
def State.dumpBelfry (s : State) (cluster : Nat) : List Word :=
  let sets := s.belfry.filter fun b => b.cluster = cluster
  let bins := s.bins.filter fun b => b.cluster = cluster && !b.dispatched
  s.fill (2 ^ 37 + cluster) (524288 + sets.length) (sets.flatMap fun b => w64 (b.vf * 2 ^ 32 + b.handle) :: dwords b.bytes)
    ++ bins.flatMap fun b =>
      w64 (b.vf * 2 ^ 32 + b.handle) :: w64 b.calls.length :: b.calls.flatMap fun c =>
        [c.pc, c.seq.zeroExtend 64] ++ c.x

/-- A bank line by line; a cache line's tag, but for the bits that a tag has not, and its contents are open, as the spec does not
say which lines it holds. PRESUMED, unsafe (log 32). -/
def State.dumpBank (s : State) (b : Nat) : List Word :=
  (List.range 8192).flatMap fun i =>
    let o := 128 * i
    let mapped := o < s.hall b * stepBytes || (8 - s.save b) * stepBytes ≤ o
    if mapped then
      let k := bankKey b o
      let bad := if s.poisoned.contains (k / 128) then 2 ^ 61 else 0
      w64 (2 ^ 63 + bad) :: dwords (s.mem.readN k 128)
    else match s.openDwords (2 ^ 36 + 8192 * b + i) 17 with
      | tag :: data => (tag &&& 0xE1FFFFFFFFFFFF80) :: data
      | [] => []

/-- PRESUMED, unsafe (log 32). -/
def State.dump (s : State) : List Word :=
  dumpRec 0x01 0 (dwords (s.identityOf wholeDevice))
    ++ (List.range 32).flatMap (fun p => dumpRec 0x02 p (s.dumpRegs p))
    ++ (List.range 192).flatMap (fun c => dumpRec 0x10 c (s.dumpCore c))
    ++ (List.range 192).flatMap (fun c => dumpRec 0x11 c (s.dumpScratch c))
    ++ (List.range 16).flatMap (fun c => dumpRec 0x20 c (s.dumpAcc c))
    ++ (List.range 16).flatMap (fun c => dumpRec 0x21 c (s.openDwords (2 ^ 35 + c) 131072))
    ++ (List.range 16).flatMap (fun c => dumpRec 0x22 c (s.dumpBelfry c))
    ++ (List.range 192).flatMap (fun b => dumpRec 0x30 b (s.dumpBank b))
    ++ dumpRec 0xFF 0 []

/-- An instruction loaded into the test port's instruction register: BYPASS and IDCODE on a frozen device or after a failed
boot, SCANRD on a frozen device alone; no other code is offered (R333, R338). PRESUMED, unsafe (log 32). -/
def State.portCode (s : State) (code : BitVec 8) : State :=
  if code = 0xFF && s.portOpen then { s with ir := code, tdo := [0] }
  else if code = 0x01 && s.portOpen then { s with ir := code, tdo := [Config.idcode.zeroExtend 64] }
  else if code = 0x20 && s.frozen && !s.restricted then { s with ir := code, tdo := s.dump }
  else s

def execBypass (s : State) : Host.Outcome State Fault Refusal := .next (s.portCode 0xFF)
def execIdcode (s : State) : Host.Outcome State Fault Refusal := .next (s.portCode 0x01)
def execScanrd (s : State) : Host.Outcome State Fault Refusal := .next (s.portCode 0x20)

/-! ## Requests from outside (R161, R318) -/

/-- A GRANT entry (R318). DEDUCED, unsafe (log 33). -/
def grantCovers (g : Word) (dev part : Nat) (write : Bool) (hpa : Nat) : Bool :=
  g.getLsbD 63 && (!write || g.getLsbD 62) && bits g 61 53 = dev && bits g 52 48 = part
    && bits g 47 30 ≤ hpa % 2 ^ 48 / 2 ^ 30 && hpa % 2 ^ 48 / 2 ^ 30 < bits g 47 30 + bits g 29 20

/-- The identity of a requester: its node and its endpoint, which is the partition for a device (R313).
DEDUCED, unsafe (log 33). -/
def requester (dev part : Nat) : Ident := w32 (dev * 2 ^ 22 + part % 2 ^ 16)

/-- May a requester reach a byte through a partition? Memory by a grant, save steps by the identities of R161. -/
def State.byteOpen (s : State) (p dev part : Nat) (write : Bool) (hpa : Nat) : Bool :=
  match s.region p hpa with
  | some (.save _) => s.isMgr (requester dev part) || s.isHv (requester dev part) p
  | some _ => (s.part p).grants.toList.any fun g => grantCovers g dev part write hpa
  | none => false

/-- Does one entry cover every byte? Save steps need none. DEDUCED, unsafe (log 33). -/
def State.requestOpen (s : State) (p dev part : Nat) (write : Bool) (hpa n : Nat) : Bool :=
  let bytes := (List.range n).map fun i => hpa + i
  s.isLocal hpa && bytes.all (fun a => s.byteOpen p dev part write a)
    && (bytes.all (fun a => match s.region p a with | some (.save _) => true | _ => false)
      || (s.part p).grants.toList.any fun g => bytes.all fun a => grantCovers g dev part write a)

def ReqKind.writes : ReqKind → Bool | .read _ => false | _ => true

def ReqKind.size : ReqKind → Nat
  | .read n => n
  | .write bs => bs.length
  | .stl bs _ => bs.length
  | .atomic _ _ wide _ _ _ => if wide then 8 else 4

/-- A granted request at its home: an STL or an atomic brings its release's signature (R182); an atomic is aligned and
answers the old value. DEDUCED, unsafe (log 33). -/
def State.serve (s : State) (p hpa : Nat) (k : ReqKind) : State :=
  match k with
  | .read n => { s with resp := some (0, false), readData := s.readPhys p hpa n }
  | .write bs => { s.writePhys p hpa bs with resp := some (0, false) }
  | .stl bs sig => { (s.writeMem .other true p hpa bs).putSigs (.phys p hpa) bs.length sig false with resp := some (0, false) }
  | .atomic op ord wide v cmp sig =>
    let n := if wide then 8 else 4
    if hpa % n ≠ 0 then { s with resp := some (0, true) }
    else
      let old := natLE (s.readPhys p hpa n)
      let new := atomicNew op (8 * n) old (v.toNat % 2 ^ (8 * n)) (cmp.toNat % 2 ^ (8 * n))
      let s := s.writeMem .other true p hpa (bytesLE n new)
      let s := if ord = .rel || ord = .ar then s.putSigs (.phys p hpa) n sig (ord = .ar) else s
      { s with resp := some (w64 old, false) }

/-- The owning partition is one through whose map and grants the request passes. DEDUCED, unsafe (log 33). -/
def execRemoteRequest (dev part : Nat) (hpa : Word) (k : ReqKind) (s : State) : Host.Outcome State Fault Refusal :=
  if s.frozen then .next s
  else
    match choose (s.pickNo 12 0)
        ((List.range 32).filter fun p => s.requestOpen p dev part (ReqKind.writes k) hpa.toNat (ReqKind.size k)) with
    | some p => .next (s.serve p hpa.toNat k)
    | none => .next { s with resp := some (0, true), readData := [] }

/-! ## Requests to other devices (R319) -/

/-- A store or an atomic is acknowledged; an atomic's thread takes its result, acquires where the atomic does, and goes on
(R176, R319). -/
def State.remoteAck (s : State) (x : Remote) (v : Word) : State :=
  let s₀ := s
  let s := { s with remotes := s.remotes.erase x }
  if (s.thread x.wave x.lane).status.live then
    let s := s.setRegs x.wave x.lane fun g => g.put x.dst .b64 0xFF ⟨v, 0⟩
    let s := if x.acq then s.acquire (s.team x.wave.team).coreNo Sig.all else s
    if (s.thread x.wave x.lane).status = .waiting .remote && s.remoteWaits x.wave (laneBit x.lane) = 0 then
      (s.resume x.wave (laneBit x.lane)).reimaged s₀ x.wave (laneBit x.lane)
    else s
  else s

/-- A store or an atomic that the other device answers. -/
def State.remoteAnswer (s : State) : State :=
  match s.remotes.find? fun x => x.write && Config.peerAnswers s.tick x.hpa with
  | some x => (s.remoteAck x (s.openWord 10 x.lane.val)).settle
  | none => s

/-- A refused request (R319): a load faults at its instruction; a store or atomic has no effect and writes a record, a store
whose commit waits for it once the run commits. -/
def State.remoteRefuse (s : State) (x : Remote) : State :=
  if x.held then
    { s with remotes := s.remotes.map fun (y : Remote) => if y = x then { y with refused := true } else y }
  else if x.write then ((s.remoteAck x 0).refusalRecord x.wave x.lane x.pc x.enc x.hpa).settle
  else
    match s.runs.find? fun r => r.wave = x.wave && LaneMask.has r.group x.lane with
    | none => { s with remotes := s.remotes.erase x }
    | some r =>
      let enc := match s.peekWords (s.xctx r.wave) r.pc with
        | some (w :: ws) => (w :: ws).take (formatWords w)
        | _ => []
      s.raiseRun r { code := Code.prot, sub := 2, addr := x.hpa, lanes := laneBit x.lane, enc := enc }

/-- The request of a thread that the event names. -/
def State.remoteOf (s : State) (job team wave : Nat) (lane : Fin 32) (hpa : Word) (write : Bool) : Option Remote :=
  s.remotes.find? fun x =>
    x.wave.team = ⟨job, team⟩ && x.wave.wave = wave && x.lane = lane && x.hpa = hpa.toNat && x.write = write

/-- No answer within 2,400,000 cycles. DEDUCED, unsafe (log 33). -/
def execRemoteTimeout (job team wave : Nat) (lane : Fin 32) (hpa : Word) (write : Bool) (s : State) :
    Host.Outcome State Fault Refusal :=
  match s.remoteOf job team wave lane hpa write with
  | some x => if s.frozen || s.now < x.since + 2400000 then .next s else .next (s.remoteRefuse x)
  | none => .next s

/-- DEDUCED, unsafe (log 33). -/
def execRemoteRefusal (job team wave : Nat) (lane : Fin 32) (hpa : Word) (write : Bool) (s : State) :
    Host.Outcome State Fault Refusal :=
  match s.remoteOf job team wave lane hpa write with
  | some x => if s.frozen then .next s else .next (s.remoteRefuse x)
  | none => .next s

/-! ## Lines and errors (R165, R180, R194) -/

/-- An L1 line with O = 0 expires 2,048 cycles after its fill; `line` is a physical line. DEDUCED, unsafe (log 34). -/
def execL1LineExpire (core line : Nat) (s : State) : Host.Outcome State Fault Refusal :=
  if s.frozen then .next s
  else .next { s with l1 := s.l1.filter fun e => !(e.core = core && e.pline = line && !e.own && e.fill + 2048 ≤ s.now) }

/-- Every sub-element of the register is poisoned. -/
def Regs.poisonReg (g : Regs) (r : Src) : Regs :=
  match r with
  | .q k => { g with q := g.q.set k { g.q[k] with poison := 0xFF } }
  | .n k => { g with n := g.n.set k { g.n[k] with poison := 0xFF } }
  | _ => g

/-- DEDUCED, unsafe (log 34). -/
def execRegisterFileError (job team wave : Nat) (lane : Fin 32) (r : Src) (s : State) :
    Host.Outcome State Fault Refusal :=
  let w := (s.team ⟨job, team⟩).waveId wave
  if s.frozen || !(s.thread w lane).status.live then .next s
  else .next (s.putRegs w lane fun g => g.poisonReg r)

/-- An error of a GDDR 7 line: `hpa` is its place in the memory devices. A corrected one is counted.
DEDUCED, unsafe (log 34); DEDUCED, safe (log 43). -/
def execGddr7UncorrectableError (hpa : Word) (corrected : Bool) (s : State) : Host.Outcome State Fault Refusal :=
  let line := hpa.toNat / 128
  if s.frozen || 24 * gddrBytes ≤ hpa.toNat then .next s
  else if corrected then .next { s with corrected := s.corrected + 1 }
  else .next { s with poisoned := if s.poisoned.contains line then s.poisoned else line :: s.poisoned }

end Sys2Proof.Machine
end

