-- ==== Sys2Proof/Machine/Dispatch.lean ====
section
/-!
DEFINITION. The meaning of each instruction and device step, one arm per constructor.
-/

namespace Sys2Proof.Machine

open Sys2Proof

def exec (i : Instr) (s : State) : Host.Outcome State Fault Refusal :=
  match i with
  -- integer block (R93)
  | .iadd sat ty f => Sys2Proof.Machine.execIadd sat ty f s
  | .isub sat ty f => Sys2Proof.Machine.execIsub sat ty f s
  | .imul ty f => Sys2Proof.Machine.execImul ty f s
  | .imulh ty f => Sys2Proof.Machine.execImulh ty f s
  | .imad ty f => Sys2Proof.Machine.execImad ty f s
  | .imin ty f => Sys2Proof.Machine.execImin ty f s
  | .imax ty f => Sys2Proof.Machine.execImax ty f s
  | .iabs w f => Sys2Proof.Machine.execIabs w f s
  | .ineg w f => Sys2Proof.Machine.execIneg w f s
  | .icmp cc ty f => Sys2Proof.Machine.execIcmp cc ty f s
  | .lea signed sh f => Sys2Proof.Machine.execLea signed sh f s
  | .andI ty f => Sys2Proof.Machine.execAnd ty f s
  | .andn ty f => Sys2Proof.Machine.execAndn ty f s
  | .orI ty f => Sys2Proof.Machine.execOr ty f s
  | .xorI ty f => Sys2Proof.Machine.execXor ty f s
  | .notI ty f => Sys2Proof.Machine.execNot ty f s
  | .shl ty f => Sys2Proof.Machine.execShl ty f s
  | .shr ty f => Sys2Proof.Machine.execShr ty f s
  | .sar ty f => Sys2Proof.Machine.execSar ty f s
  | .rol ty f => Sys2Proof.Machine.execRol ty f s
  | .popc ty f => Sys2Proof.Machine.execPopc ty f s
  | .clz ty f => Sys2Proof.Machine.execClz ty f s
  | .brev ty f => Sys2Proof.Machine.execBrev ty f s
  | .bfe ty f => Sys2Proof.Machine.execBfe ty f s
  | .bfi ty f => Sys2Proof.Machine.execBfi ty f s
  | .sel ty f => Sys2Proof.Machine.execSel ty f s
  -- float block (R94)
  | .fadd ty f => Sys2Proof.Machine.execFadd ty f s
  | .fsub ty f => Sys2Proof.Machine.execFsub ty f s
  | .fmul ty f => Sys2Proof.Machine.execFmul ty f s
  | .ffma ty f => Sys2Proof.Machine.execFfma ty f s
  | .fmin ty f => Sys2Proof.Machine.execFmin ty f s
  | .fmax ty f => Sys2Proof.Machine.execFmax ty f s
  | .fcmp cc ty f => Sys2Proof.Machine.execFcmp cc ty f s
  | .fclass ty f => Sys2Proof.Machine.execFclass ty f s
  | .frnd ty f => Sys2Proof.Machine.execFrnd ty f s
  | .frcp ty f => Sys2Proof.Machine.execFrcp ty f s
  | .frsq ty f => Sys2Proof.Machine.execFrsq ty f s
  | .fsqrt ty f => Sys2Proof.Machine.execFsqrt ty f s
  | .fexp2 ty f => Sys2Proof.Machine.execFexp2 ty f s
  | .flog2 ty f => Sys2Proof.Machine.execFlog2 ty f s
  | .fsin ty f => Sys2Proof.Machine.execFsin ty f s
  | .fcos ty f => Sys2Proof.Machine.execFcos ty f s
  | .ftanh ty f => Sys2Proof.Machine.execFtanh ty f s
  | .fsigm ty f => Sys2Proof.Machine.execFsigm ty f s
  -- cross-lane, conversion and the rest of the ALU class (R95)
  | .red op ty f => Sys2Proof.Machine.execRed op ty f s
  | .scan op excl ty f => Sys2Proof.Machine.execScan op excl ty f s
  | .cvt dst src part f => Sys2Proof.Machine.execCvt dst src part f s
  | .amax ty f => Sys2Proof.Machine.execAmax ty f s
  | .qscale fs f => Sys2Proof.Machine.execQscale fs f s
  | .qpack fs f => Sys2Proof.Machine.execQpack fs f s
  | .qunpack fs f => Sys2Proof.Machine.execQunpack fs f s
  | .bpsplit fs f => Sys2Proof.Machine.execBpsplit fs f s
  | .bpjoin fs f => Sys2Proof.Machine.execBpjoin fs f s
  | .perm ty f => Sys2Proof.Machine.execPerm ty f s
  | .vote fn f => Sys2Proof.Machine.execVote fn f s
  | .matchI ty f => Sys2Proof.Machine.execMatch ty f s
  | .wsync f => Sys2Proof.Machine.execWsync f s
  | .mov ty f => Sys2Proof.Machine.execMov ty f s
  | .movm k toReg w f => Sys2Proof.Machine.execMovm k toReg w f s
  | .movs code f => Sys2Proof.Machine.execMovs code f s
  -- MEM class (R82)
  | .ld f => Sys2Proof.Machine.execLd f s
  | .st f => Sys2Proof.Machine.execSt f s
  | .lda f => Sys2Proof.Machine.execLda f s
  | .stl f => Sys2Proof.Machine.execStl f s
  | .lds f => Sys2Proof.Machine.execLds f s
  | .sts f => Sys2Proof.Machine.execSts f s
  | .ldx f => Sys2Proof.Machine.execLdx f s
  | .stx f => Sys2Proof.Machine.execStx f s
  | .ldc f => Sys2Proof.Machine.execLdc f s
  | .atom op ord f => Sys2Proof.Machine.execAtom op ord f s
  | .atoms op ord f => Sys2Proof.Machine.execAtoms op ord f s
  | .fence f => Sys2Proof.Machine.execFence f s
  -- MAT class (R84)
  | .mma f => Sys2Proof.Machine.execMma f s
  | .accload f => Sys2Proof.Machine.execAccload f s
  | .accdrain f => Sys2Proof.Machine.execAccdrain f s
  | .accrel f => Sys2Proof.Machine.execAccrel f s
  -- ENG class (R85)
  | .copy lg srcS dstS f => Sys2Proof.Machine.execCopy lg srcS dstS f s
  | .engage f => Sys2Proof.Machine.execEngage f s
  | .rdv f => Sys2Proof.Machine.execRdv f s
  | .semsig k f => Sys2Proof.Machine.execSemsig k f s
  | .semwait k f => Sys2Proof.Machine.execSemwait k f s
  | .qpop k f => Sys2Proof.Machine.execQpop k f s
  | .qpush k f => Sys2Proof.Machine.execQpush k f s
  | .ncall kin mout f => Sys2Proof.Machine.execNcall kin mout f s
  | .nflush all f => Sys2Proof.Machine.execNflush all f s
  | .wbind f => Sys2Proof.Machine.execWbind f s
  | .wpin f => Sys2Proof.Machine.execWpin f s
  | .wunpin f => Sys2Proof.Machine.execWunpin f s
  | .wpref f => Sys2Proof.Machine.execWpref f s
  | .gmv fs f => Sys2Proof.Machine.execGmv fs f s
  | .gmm v fs f => Sys2Proof.Machine.execGmm v fs f s
  | .binapp op wide f => Sys2Proof.Machine.execBinapp op wide f s
  | .binreplay f => Sys2Proof.Machine.execBinreplay f s
  | .wlinit f => Sys2Proof.Machine.execWlinit f s
  | .wlpush f => Sys2Proof.Machine.execWlpush f s
  | .wlins f => Sys2Proof.Machine.execWlins f s
  | .wlpopb f => Sys2Proof.Machine.execWlpopb f s
  | .hashb kin proj f => Sys2Proof.Machine.execHashb kin proj f s
  | .enq f => Sys2Proof.Machine.execEnq f s
  | .depdec set f => Sys2Proof.Machine.execDepdec set f s
  | .tex lod f => Sys2Proof.Machine.execTex lod f s
  | .texg lod ch f => Sys2Proof.Machine.execTexg lod ch f s
  | .attr f => Sys2Proof.Machine.execAttr f s
  | .exportV tgt depth f => Sys2Proof.Machine.execExport tgt depth f s
  | .discard f => Sys2Proof.Machine.execDiscard f s
  | .rayq any cull f => Sys2Proof.Machine.execRayq any cull f s
  | .coll kind op ty f => Sys2Proof.Machine.execColl kind op ty f s
  | .deal f => Sys2Proof.Machine.execDeal f s
  -- CTL class (R86)
  | .bra c f => Sys2Proof.Machine.execBra c f s
  | .brx f => Sys2Proof.Machine.execBrx f s
  | .call f => Sys2Proof.Machine.execCall f s
  | .ret f => Sys2Proof.Machine.execRet f s
  | .exit e => Sys2Proof.Machine.execExit e s
  | .lsetup k len2 f => Sys2Proof.Machine.execLsetup k len2 f s
  | .fork f => Sys2Proof.Machine.execFork f s
  | .fjoin e => Sys2Proof.Machine.execFjoin e s
  | .bar e => Sys2Proof.Machine.execBar e s
  | .cbar hold e => Sys2Proof.Machine.execCbar hold e s
  | .yield e => Sys2Proof.Machine.execYield e s
  | .nop e => Sys2Proof.Machine.execNop e s
  | .trig e => Sys2Proof.Machine.execTrig e s
  | .trap code e => Sys2Proof.Machine.execTrap code e s
  | .rft skip e => Sys2Proof.Machine.execRft skip e s
  | .csrr num e d => Sys2Proof.Machine.execCsrr num e d s
  | .csrw num f => Sys2Proof.Machine.execCsrw num f s
  | .brk code e => Sys2Proof.Machine.execBrk code e s
  | .halt e => Sys2Proof.Machine.execHalt e s
  -- S format (R96)
  | .nopS e => Sys2Proof.Machine.execNopS e s
  | .movS f => Sys2Proof.Machine.execMovS f s
  | .ldS64 f => Sys2Proof.Machine.execLdS64 f s
  | .stS64 f => Sys2Proof.Machine.execStS64 f s
  | .ldsS64 f => Sys2Proof.Machine.execLdsS64 f s
  | .stsS64 f => Sys2Proof.Machine.execStsS64 f s
  | .ldS32 f => Sys2Proof.Machine.execLdS32 f s
  | .stS32 f => Sys2Proof.Machine.execStS32 f s
  | .ldsS32 f => Sys2Proof.Machine.execLdsS32 f s
  | .stsS32 f => Sys2Proof.Machine.execStsS32 f s
  | .iaddS ty f => Sys2Proof.Machine.execIaddS ty f s
  | .isubS ty f => Sys2Proof.Machine.execIsubS ty f s
  | .imulS ty f => Sys2Proof.Machine.execImulS ty f s
  | .andS ty f => Sys2Proof.Machine.execAndS ty f s
  | .orS ty f => Sys2Proof.Machine.execOrS ty f s
  | .xorS ty f => Sys2Proof.Machine.execXorS ty f s
  | .shlS ty f => Sys2Proof.Machine.execShlS ty f s
  | .shrS ty f => Sys2Proof.Machine.execShrS ty f s
  | .iminS ty f => Sys2Proof.Machine.execIminS ty f s
  | .imaxS ty f => Sys2Proof.Machine.execImaxS ty f s
  | .faddS ty f => Sys2Proof.Machine.execFaddS ty f s
  | .fsubS ty f => Sys2Proof.Machine.execFsubS ty f s
  | .fmulS ty f => Sys2Proof.Machine.execFmulS ty f s
  | .fminS ty f => Sys2Proof.Machine.execFminS ty f s
  | .fmaxS ty f => Sys2Proof.Machine.execFmaxS ty f s
  -- stream engine (R95, R211)
  | .amov hi f => Sys2Proof.Machine.execAmov hi f s
  | .aadd f => Sys2Proof.Machine.execAadd f s
  | .acmp cc f => Sys2Proof.Machine.execAcmp cc f s
  | .abr c f => Sys2Proof.Machine.execAbr c f s
  | .aloop k len2 f => Sys2Proof.Machine.execAloop k len2 f s
  | .amove f => Sys2Proof.Machine.execAmove f s
  | .agather f => Sys2Proof.Machine.execAgather f s
  | .ascatter f => Sys2Proof.Machine.execAscatter f s
  | .asig k f => Sys2Proof.Machine.execAsig k f s
  | .await k f => Sys2Proof.Machine.execAwait k f s
  | .ahalt f => Sys2Proof.Machine.execAhalt f s
  -- waits that end (R26, R37, R40, R44, R209 to R216)
  | .takenWaitResumeBar job team => Sys2Proof.Machine.execTakenWaitResumeBar job team s
  | .cbarComplete job cohort => Sys2Proof.Machine.execCbarComplete job cohort s
  | .fjoinComplete job team wave => Sys2Proof.Machine.execFjoinComplete job team wave s
  | .wsyncRelease job team wave pc => Sys2Proof.Machine.execWsyncRelease job team wave pc s
  | .rejoinTimeout job team wave entry => Sys2Proof.Machine.execRejoinTimeout job team wave entry s
  | .semwaitComplete job team k => Sys2Proof.Machine.execSemwaitComplete job team k s
  | .awaitComplete job team => Sys2Proof.Machine.execAwaitComplete job team s
  | .streamOwnerAcquire job team => Sys2Proof.Machine.execStreamOwnerAcquire job team s
  | .qpopComplete job team k => Sys2Proof.Machine.execQpopComplete job team k s
  | .qpushComplete job team k => Sys2Proof.Machine.execQpushComplete job team k s
  | .engageStart job team => Sys2Proof.Machine.execEngageStart job team s
  | .rdvComplete job team => Sys2Proof.Machine.execRdvComplete job team s
  | .streamFault job team => Sys2Proof.Machine.execStreamFault job team s
  | .dqGrow job team => Sys2Proof.Machine.execDqGrow job team s
  -- engine commands that finish, fault or wait (R218 to R322)
  | .copyComplete cmd => Sys2Proof.Machine.execCopyComplete cmd s
  | .copyFault cmd => Sys2Proof.Machine.execCopyFault cmd s
  | .indexElementPark cmd element => Sys2Proof.Machine.execIndexElementPark cmd element s
  | .mmaComplete cmd => Sys2Proof.Machine.execMmaComplete cmd s
  | .accdrainComplete cmd => Sys2Proof.Machine.execAccdrainComplete cmd s
  | .jobLeaveEngine job cluster => Sys2Proof.Machine.execJobLeaveEngine job cluster s
  | .binDispatchTimer bin => Sys2Proof.Machine.execBinDispatchTimer bin s
  | .binDispatchBlocked cluster => Sys2Proof.Machine.execBinDispatchBlocked cluster s
  | .belfryLoad cluster vf handle => Sys2Proof.Machine.execBelfryLoad cluster vf handle s
  | .ncallComplete cmd => Sys2Proof.Machine.execNcallComplete cmd s
  | .wbindComplete cmd => Sys2Proof.Machine.execWbindComplete cmd s
  | .grammarComplete cmd => Sys2Proof.Machine.execGrammarComplete cmd s
  | .binappAppend cmd => Sys2Proof.Machine.execBinappAppend cmd s
  | .binreplayComplete cmd => Sys2Proof.Machine.execBinreplayComplete cmd s
  | .worklistApply cmd => Sys2Proof.Machine.execWorklistApply cmd s
  | .enqComplete cmd => Sys2Proof.Machine.execEnqComplete cmd s
  | .collComplete cmd peers => Sys2Proof.Machine.execCollComplete cmd peers s
  | .rayqComplete cmd => Sys2Proof.Machine.execRayqComplete cmd s
  | .commandTranslationFault cmd => Sys2Proof.Machine.execCommandTranslationFault cmd s
  | .remoteTimeout job team wave lane hpa write => Sys2Proof.Machine.execRemoteTimeout job team wave lane hpa write s
  | .remoteRequest dev part hpa k => Sys2Proof.Machine.execRemoteRequest dev part hpa k s
  | .l1LineExpire core line => Sys2Proof.Machine.execL1LineExpire core line s
  | .registerFileError job team wave lane r => Sys2Proof.Machine.execRegisterFileError job team wave lane r s
  | .starvationPromote job team wave pc => Sys2Proof.Machine.execStarvationPromote job team wave pc s
  | .guardExpire job team => Sys2Proof.Machine.execGuardExpire job team s
  -- scheduler (R278 to R296, R335)
  | .cardLaunch vf queue => Sys2Proof.Machine.execCardLaunch vf queue s
  | .earlyLaunch job => Sys2Proof.Machine.execEarlyLaunch job s
  | .jobComplete job => Sys2Proof.Machine.execJobComplete job s
  | .teamAdmit job cohort cluster cores => Sys2Proof.Machine.execTeamAdmit job cohort cluster cores s
  | .sliceStep cluster => Sys2Proof.Machine.execSliceStep cluster s
  | .preempt job cohort => Sys2Proof.Machine.execPreempt job cohort s
  | .restore job team wave => Sys2Proof.Machine.execRestore job team wave s
  | .parking job team wave => Sys2Proof.Machine.execParking job team wave s
  | .swapping job cohort => Sys2Proof.Machine.execSwapping job cohort s
  | .kettleGrant demands => Sys2Proof.Machine.execKettleGrant demands s
  -- rendering (R296 to R309)
  | .drawLaunch vf queue => Sys2Proof.Machine.execDrawLaunch vf queue s
  | .rasterise draw => Sys2Proof.Machine.execRasterise draw s
  | .fragmentBlend draw => Sys2Proof.Machine.execFragmentBlend draw s
  | .drawComplete draw => Sys2Proof.Machine.execDrawComplete draw s
  -- management requests (R173, R191, R195 to R198, R281, R285, R312 to R342)
  | .qnotify by_ vf v => Sys2Proof.Machine.execQnotify by_ vf v s
  | .faultackRetry by_ vf ticket => Sys2Proof.Machine.execFaultackRetry by_ vf ticket s
  | .faultackDeliver by_ vf ticket => Sys2Proof.Machine.execFaultackDeliver by_ vf ticket s
  | .faultackTerminate by_ vf ticket => Sys2Proof.Machine.execFaultackTerminate by_ vf ticket s
  | .tlbinv by_ vf v => Sys2Proof.Machine.execTlbinv by_ vf v s
  | .tlbinvDone vf => Sys2Proof.Machine.execTlbinvDone vf s
  | .bankcfgWrite by_ part bank v => Sys2Proof.Machine.execBankcfgWrite by_ part bank v s
  | .bankcfgChangeDone bank => Sys2Proof.Machine.execBankcfgChangeDone bank s
  | .partownWrite by_ part v => Sys2Proof.Machine.execPartownWrite by_ part v s
  | .harvestStart by_ vf v => Sys2Proof.Machine.execHarvestStart by_ vf v s
  | .harvestDone vf => Sys2Proof.Machine.execHarvestDone vf s
  | .fqcfgWrite by_ vf v => Sys2Proof.Machine.execFqcfgWrite by_ vf v s
  | .fqptrWrite by_ vf v => Sys2Proof.Machine.execFqptrWrite by_ vf v s
  | .sysasdWrite by_ vf v => Sys2Proof.Machine.execSysasdWrite by_ vf v s
  | .sampcfgWrite by_ vf v => Sys2Proof.Machine.execSampcfgWrite by_ vf v s
  | .vfcfgWrite by_ vf v => Sys2Proof.Machine.execVfcfgWrite by_ vf v s
  | .vfquotaWrite by_ vf v => Sys2Proof.Machine.execVfquotaWrite by_ vf v s
  | .kbudgetWrite by_ v => Sys2Proof.Machine.execKbudgetWrite by_ v s
  | .irqlogWrite by_ vf v => Sys2Proof.Machine.execIrqlogWrite by_ vf v s
  | .hvidWrite by_ part v => Sys2Proof.Machine.execHvidWrite by_ part v s
  | .vftablesRead by_ vf => Sys2Proof.Machine.execVftablesRead by_ vf s
  | .irqptrRead by_ vf => Sys2Proof.Machine.execIrqptrRead by_ vf s
  | .sampptrRead by_ vf => Sys2Proof.Machine.execSampptrRead by_ vf s
  | .qctlGo by_ part v => Sys2Proof.Machine.execQctlGo by_ part v s
  | .quoteDone part => Sys2Proof.Machine.execQuoteDone part s
  | .registerWrite by_ space index offset a => Sys2Proof.Machine.execRegisterWrite by_ space index offset a s
  -- freeze, test port, power (R332 to R337)
  | .frzNAssert => Sys2Proof.Machine.execFrzNAssert s
  | .freezeWrite by_ v => Sys2Proof.Machine.execFreezeWrite by_ v s
  | .bypass => Sys2Proof.Machine.execBypass s
  | .idcode => Sys2Proof.Machine.execIdcode s
  | .scanrd => Sys2Proof.Machine.execScanrd s
  | .rstN => Sys2Proof.Machine.execRstN s
  | .measuredBoot img => Sys2Proof.Machine.execMeasuredBoot img s
  | .gddr7UncorrectableError hpa corrected => Sys2Proof.Machine.execGddr7UncorrectableError hpa corrected s
  | .remoteRefusal job team wave lane hpa write => Sys2Proof.Machine.execRemoteRefusal job team wave lane hpa write s

end Sys2Proof.Machine
end

