-- ==== Sys2Proof/Machine/Fusion.lean ====
section
/-!
DEFINITION. The softmax sequence (R393): which instructions form one, and the fault of a sequence that the device executes
as one operation. A sequence without a fault has the results of its four instructions one by one.
-/

namespace Sys2Proof.Machine

open Sys2Proof

/-- Is a source the newest entry of the queue window, unrouted? -/
def isNewest (a : Src) (x : Route) : Bool := a = .q 0 && x = .own

/-- RED.max, FSUB, FEXP2, RED.add of one type, each fed by the one before it, in rounding mode 00 (R393). -/
def isSoftmax : List Instr → Bool
  | [.red .max (.flt t₁) f₁, sub, .fexp2 t f₃, .red .add (.flt t₄) f₄] =>
    let fed := match sub with
      | .fsub t₂ f₂ => t₂ = t.fty && f₂.rm = .ne && isNewest f₂.b f₂.xb && f₂.d = .push
      | .fsubS t₂ f₂ => t₂ = t.fty && f₂.b = .q 0 && f₂.d = .push
      | _ => false
    fed && t₁ = t.fty && t₄ = t.fty && f₁.rm = .ne && f₃.rm = .ne && f₄.rm = .ne
      && f₁.d = .push && f₃.d = .push && isNewest f₃.a f₃.xa && isNewest f₄.a f₄.xa
  | _ => false

/-- The type of an instruction of the sequence, and its results from its operands. -/
def softmaxOp : Instr → Option (FTy × (LaneMask → (Fin 32 → LaneIn) → Fin 32 → LaneOut))
  | .red op (.flt t) f => some (t, redOut op (.flt t) (Mode.ofRm f.rm))
  | .fsub t f => some (t, fun _ x l => perSubF t.width (fsubF t (Mode.ofRm f.rm)) (x l))
  | .fsubS t _ => some (t, fun _ x l => perSubF t.width (fsubF t .ne) (x l))
  | .fexp2 t f => some (t.fty, fun _ x l => perSubF t.fty.width (transcF .exp2 t (Mode.ofRm f.rm)) (x l))
  | _ => none

/-- The next n instructions of a run, as far as it goes on. -/
def State.following (s : State) (r : Run) : Nat → List Instr
  | 0 => []
  | n + 1 =>
    match (s.peekWords (s.xctx r.wave) r.pc).map decodeWords with
    | some (.ok (i, _)) =>
      match i.shape with
      | some sh => if s.endsHere r sh then [i] else i :: s.following { r with pc := r.next sh } n
      | none => []
    | _ => []

/-- What instructions of a sequence would do, one after another: the lanes that consume poison, and the flags of each.
There is no answer where one of them would have to wait (R24). -/
def State.softmaxRun (s : State) : List Instr → Run → LaneMask → Option (LaneMask × Run)
  | [], r, bad => some (bad, r)
  | i :: is, r, bad =>
    match i.shape, softmaxOp i with
    | some sh, some (t, out) =>
      let tys : List Ty := [.flt t, .flt t]
      let x := s.laneIn r sh tys
      let got := out (s.givers r sh) x
      let r' := r.write (fun l => (got l).flags) fun l g => g.put sh.dst t.width (x l).mask ⟨(got l).val, (got l).poison⟩
      if s.mustWait r sh then none
      else
        let poison := match i with
          | .red .. => s.givesPoison r sh (.flt t)
          | _ => fun l => (x l).poisoned t.width
        s.softmaxRun is (s.advance r sh (s.heldVal r sh tys) r') (bad ||| poisonLanes r poison)
    | _, _ => none

/-- What becomes of an instruction that begins a sequence: the instructions go one by one, or the sequence is one
operation, which waits or faults. One that does neither has the results of its four instructions. -/
inductive Fusion where
  | apart
  | waits
  | faults (e : Exc)
  deriving DecidableEq, Repr

/-- A softmax sequence executed as one operation. What it raises stands at its RED.max: of all that any of the four
raises, POISON comes before FPX, and FPX holds every flag that raises it (R130, R193). DEDUCED, unsafe (log 76). -/
def State.softmax (s : State) (r : Run) (is : List Instr) : Fusion :=
  match s.softmaxRun is { r with flags := Vector.replicate 32 0 } 0 with
  | none => .waits
  | some (bad, r') =>
    let fpx := fun (l : Fin 32) => fpxFlags r.spec[l].fpen false (r'.flags[l].truncate 5)
    let m := maskWhere fun l => LaneMask.has r.group l && fpx l ≠ 0
    let words := (is.head?.map encode).getD []
    if bad ≠ 0 then .faults { poisonExc bad with enc := words }
    else if m ≠ 0 then .faults { fpxExc m ((lanesOf m).foldl (fun a l => a ||| fpx l) 0) with enc := words }
    else .apart

/-- Where an instruction begins a sequence, the device may execute it as one operation, each time (R393). In step mode a
run ends at each instruction, so that there is no sequence (R328). DESIGN CHOICE, safe (log 75). -/
def State.fusion (s : State) (r : Run) (i : Instr) : Fusion :=
  match i with
  | .red .max (.flt _) _ =>
    let is := s.following r 4
    if isSoftmax is && s.pickNo 16 0 % 2 = 1 then s.softmax r is else .apart
  | _ => .apart

end Sys2Proof.Machine
end

