-- ==== Sys2Proof/Machine/Issue.lean ====
section
/-!
DEFINITION. What the machine may do next: issue groups (R23, R40), arbitration on a pipe (R24, R293), the checks before a
run issues (R29, R35, R98, R171, R326), the device's own events, and time.
-/

namespace Sys2Proof.Machine

open Sys2Proof

/-! ## Candidate groups (R23, R40) -/

/-- A candidate group of a pipe. -/
structure Cand where
  wave  : WaveId
  pipe  : Nat                 -- four for each core, by device number (R22)
  slot  : Nat
  mask  : LaneMask
  pc    : Word
  cls   : Nat
  since : Nat
  promo : Option Nat          -- when it was promoted
  deriving DecidableEq, Repr

/-- DESIGN CHOICE, safe (log 39). -/
def State.candidates (s : State) : List Cand :=
  (s.teams.filter fun t => t.place = .resident).flatMap fun t =>
    t.waves.flatMap fun v =>
      match v.slot with
      | none => []
      | some k =>
        let w : WaveId := { team := t.id, wave := v.idx, uid := v.uid }
        (s.readyGroups w v).map fun g =>
          { wave := w, pipe := 4 * t.coreNo + k % 4, slot := k, mask := g.2, pc := g.1, cls := (s.job t.id.job).card.cls,
            since := v.readySince g.2 s.now, promo := v.promotedAt g s.now }

/-- The pipe that a wave's slot belongs to. -/
def State.pipeOf (s : State) (w : WaveId) : Option Nat :=
  ((s.wave w).slot).map fun k => 4 * (s.team w.team).coreNo + k % 4

/-- Those of a list with the least value of a key. DESIGN CHOICE, safe (log 39). -/
def leastOf {α : Type} (key : α → Nat) (l : List α) : List α :=
  match l with
  | [] => []
  | x :: xs =>
    let m := xs.foldl (fun n y => min n (key y)) (key x)
    l.filter fun y => key y = m

/-- The slot whose wave a pipe chose last. DESIGN CHOICE, safe (log 39). -/
def State.servedBy (s : State) (p : Nat) : Nat := (getAssoc p s.served).getD 15

/-- The groups that may go next, of a pipe's candidates, in the four steps of R293: `last` is the slot it chose last, from
which the round robin goes up. Groups of one wave that are equal in all of them are left free.
DESIGN CHOICE, safe (log 39). -/
def bestOf (last : Nat) (cs : List Cand) : List Cand :=
  let promoted := cs.filter fun c => c.promo.isSome
  let first := if promoted.isEmpty then cs else leastOf (fun c => c.promo.getD 0) promoted
  leastOf (fun c => (c.slot + 15 - last) % 16) (leastOf (fun c => c.since) (leastOf (fun c => c.cls) first))

/-! ## Before a run issues -/

/-- The words of a run, each instruction's page translated as a fetch (R171): at most 25 instructions, so that a run too
long shows. `stop` is the end of its block. DEDUCED, safe (log 38). -/
def State.fetchText (c : Xctx) (stop : Word) : Nat → Word → State →
    Except (Word × XErr) (List (Word × List W32) × State)
  | 0, _, s => .ok ([], s)
  | n + 1, pc, s =>
    if stop.toNat ≤ pc.toNat then .ok ([], s)
    else
      match s.fetchInstr c pc with
      | .error e => .error e
      | .ok (ws, s) =>
        let w0 := ws.headD 0
        if isHeader w0 then .ok ([], s)
        else if w0.getLsbD 29 then .ok ([(pc, ws)], s)
        else match State.fetchText c stop n (pc + w64 (4 * ws.length)) s with
          | .ok (rest, s) => .ok ((pc, ws) :: rest, s)
          | .error e => .error e

/-- The lowest-addressed offending instruction of a run, with its words and SLOTW (R29, R30, R73, R97, R98). -/
def State.textBad (s : State) (w : WaveId) (m : LaneMask) (stop : Word) :
    Nat → Nat → List (Word × List W32) → Option (Word × List W32 × W32)
  | _, _, [] => none
  | k, holds, (pc, ws) :: rest =>
    let n := formatWords (ws.headD 0)
    if k = 24 || stop.toNat < pc.toNat + 4 * n || crossesLine pc n then some (pc, ws, 0)
    else
      match decodeWords ws with
      | .error _ => some (pc, ws, 0)
      | .ok (i, _) =>
        match s.illegal w m holds rest.isEmpty i with
        | some slotw => some (pc, ws, slotw)
        | none =>
          let held : Bool := match i.shape with | some sh => decide (sh.hold ≠ .off) | none => false
          s.textBad w m stop (k + 1) (if held then holds + 1 else holds) rest

/-- The threads of a group that an address breakpoint stops at an address: those that have not been resumed there (R325 to
R327). DEDUCED, unsafe (log 35). -/
def State.breakAt (s : State) (w : WaveId) (m : LaneMask) (pc : Word) : LaneMask :=
  let r := s.vf (s.jobOf w).vf
  if r.dbgctl.getLsbD 0 && r.dbgbp.toList.any fun b => b.getLsbD 0 && b &&& 0xFFFFFFFFFFFFFFFC = pc then s.stoppable w m
  else 0

/-- What a group finds at the header it stands at, with the state after its fetch: nothing wrong, or the fault and its
record's words (R35, R97, R171). An H word that crosses a fetch line (R73) is ILLEGAL at the block's first run; so is one that
R97 refuses in a block without a run. DEDUCED, safe (log 64); DESIGN CHOICE, unsafe (log 81). -/
def State.headerBad (s : State) (c : Xctx) (h : Word) (m : LaneMask) : State × Option Exc :=
  match s.fetchInstr c h with
  | .error (a, e) => (s, some { e.exc 0 with addr := a.toNat, lanes := m })
  | .ok (ws, s) =>
    if !isHeader (ws.headD 0) then (s, some { code := Code.badTarget, addr := h.toNat, lanes := m })
    else if (headerOf (ws.headD 0) (ws.getD 1 0)).toOption.isNone || crossesLine h 2 then
      (s, some { code := Code.illegal, addr := h.toNat, lanes := m, enc := ws })
    else (s, none)

/-- What a group's run comes to before it issues: it stops or faults, there is no instruction, or its first one. -/
inductive Start where
  | ended (s : State)
  | first (i : Instr) (s : State)

/-- An instruction of the run at the head of the list is next, unless it begins a softmax sequence that waits or faults as
one operation (R393). -/
def State.begins (s : State) (r : Run) (i : Instr) : Start :=
  match s.fusion r i with
  | .apart => .first i s
  | .waits => .ended (s.putRun { r with suspended := true })
  | .faults e => .ended (s.raiseRun r e)

/-- The threads of a group that step and have committed since they were resumed: they stop before they run on (R328). -/
def State.stepsHere (s : State) (w : WaveId) (m : LaneMask) : LaneMask :=
  maskWhere fun l => LaneMask.has m l && (s.thread w l).stepping && !(s.thread w l).pass

/-- The run of a group at its header's or its own address, once no debugger's stop is due: the fetch of its words, the
checks of R98, and its first instruction. -/
def State.beginRun (s : State) (w : WaveId) (m : LaneMask) (r : Run) : Start :=
  let c := s.xctx w
  let stop := wordsAfter r.blk (w64 (s.headerLen c r.blk))
  match State.fetchText c stop 25 r.start s with
  | .error (pc, e) => .ended (s.raise w m r.start r.start r.blk { e.exc 0 with addr := pc.toNat, lanes := m })
  | .ok ([], s) =>
    .ended (if s.isH c r.start then s.goOn w m r.start
      else s.raise w m r.start r.start r.blk { code := Code.badTarget, addr := r.start.toNat, lanes := m })
  | .ok ((pc, ws) :: rest, s) =>
    let text := (pc, ws) :: rest
    match s.textBad w m stop 0 r.holds text with
    | some (a, bad, slotw) =>
      .ended (s.raise w m r.start (runAfter r.start text) r.blk
        { code := Code.illegal, addr := a.toNat, lanes := m, enc := bad, slotw := slotw.toNat })
    | none =>
      match decodeWords ws with
      | .ok (i, _) => State.begins { s with runs := r :: s.runs, focus := .simt } r i
      | .error _ => .ended s

/-- A run of a group (R23): the debugger's stops (R326, R328), the header where it begins a block, and the run.
DEDUCED, unsafe (log 35, 37). -/
def State.startRun (s : State) (w : WaveId) (m : LaneMask) : Start :=
  let v := s.wave w
  let r := v.runOf w m
  if s.stepsHere w m ≠ 0 then .ended (s.debugStop w (s.stepsHere w m) r.start 0xFFFE [])
  else if s.breakAt w m r.start ≠ 0 then .ended (s.debugStop w (s.breakAt w m r.start) r.start 0xFFFF [])
  else if v.lanes[lowestLane m].pc = r.blk then
    match s.headerBad (s.xctx w) r.blk m with
    | (s, some e) => .ended (s.raise w m r.start r.start r.blk e)
    | (s, none) => s.beginRun w m r
  else s.beginRun w m r

/-! ## Moves -/

inductive Move where
  | issue (w : WaveId) (m : LaneMask)   -- a run issues, with its first instruction
  | run (r : Run)                       -- the next instruction of a run
  | stream (t : TeamId)                 -- the next instruction of a stream program
  | enter (t : TeamId) (h : Word)       -- a stream program enters a block
  | event (i : Instr)
  | ahead (cmd : Nat)                   -- a copy writes one of its words before it ends (R188)
  | answer                              -- another device answers a store or an atomic
  deriving DecidableEq, Repr

/-- The next instruction of a run in progress, or what stops it: its words are read again at each instruction. -/
def State.stepRun (s : State) (r : Run) : Start :=
  let s := { s with runs := r :: s.runs.erase r, focus := .simt }
  match s.fetchInstr (s.xctx r.wave) r.pc with
  | .error (a, e) => .ended (s.raiseRun r { e.exc 0 with addr := a.toNat, lanes := r.group })
  | .ok (ws, s) =>
    match decodeWords ws with
    | .ok (i, _) => s.begins r i
    | .error _ => .ended (s.raiseRun r { code := Code.illegal, addr := r.pc.toNat, lanes := r.group, enc := ws })

/-- DEDUCED, unsafe (log 37). -/
def Start.go : Start → Host.Outcome State Fault Refusal
  | .ended s => .next s
  | .first i s => exec i s

/-- A pipe notes the slot whose wave it has chosen (R293). -/
def State.noteServed (s : State) (w : WaveId) : State :=
  match s.pipeOf w, (s.wave w).slot with
  | some p, some k => { s with served := putAssoc p k s.served }
  | _, _ => s

/-- DESIGN CHOICE, unsafe (log 6). -/
def State.perform (s : State) (m : Move) : Host.Outcome State Fault Refusal :=
  match m with
  | .issue w g =>
    let pc := (s.thread w (lowestLane g)).pc
    let s := (s.noteServed w).modWave w fun v => { v with promoted := v.promoted.filter fun p => p.1 ≠ pc }
    (s.startRun w g).go
  | .run r => (s.stepRun r).go
  | .stream t =>
    match s.team? t with
    | none => .next s
    | some u => match (s.strNext u).2 with
      | some i => exec i { s with focus := .stream t }
      | none => .next s
  | .enter t h => .next (s.strEnter t h)
  | .event i => exec i s
  | .ahead id => .next (s.copyAhead id)
  | .answer => .next s.remoteAnswer

/-- Does a move change the state? Where the machine stays, there is nothing to do. -/
def State.moves? (s : State) (m : Move) : Bool :=
  match s.perform m with
  | .next t => !(decide (t = s)) && (match m with
      | .run r => !(r.suspended && t.runs.any fun x => x.wave = r.wave && x.group = r.group && x.suspended && x.pc = r.pc)
      | .stream u => decide ({ t with focus := s.focus } ≠ { s with focus := s.focus }) && (s.team? u).isSome
      | _ => true)
  | _ => true

/-! ## Moves of pipes and stream engines -/

/-- The pipes that have something to issue. -/
def State.pipes (s : State) (cs : List Cand) : List Nat :=
  (cs.map (fun c => c.pipe) ++ s.runs.filterMap fun r => s.pipeOf r.wave).eraseDups

/-- What a pipe may do (R24, R293): the run it is issuing; else a suspended run that can go on; else a new group. -/
def State.pipeMoves (s : State) (cs : List Cand) (p : Nat) : List Move :=
  let mine := s.runs.filter fun r => s.pipeOf r.wave = some p
  match mine.find? fun r => !r.suspended with
  | some r => [.run r]
  | none =>
    match (mine.map Move.run).filter s.moves? with
    | [] => (bestOf (s.servedBy p) (cs.filter fun c => c.pipe = p)).map fun c => .issue c.wave c.mask
    | ms => ms

def State.simtMoves (s : State) : List Move :=
  let cs := s.candidates
  (s.pipes cs).flatMap (s.pipeMoves cs)

/-- Stream programs run while their team is resident and owns its core's engine (R209). -/
def State.streamMoves (s : State) : List Move :=
  ((s.teams.filter fun t => t.owner && t.place = .resident && t.stream.st.runs).map fun t =>
    match s.strNext t with
    | (.none, some _) => Move.stream t.id
    | (.none, none) => .enter t.id t.stream.pc
    | _ => .event (.streamFault t.id.job t.id.team)).filter s.moves?

/-! ## The device's own events -/

def Team.someWait (t : Team) (p : Wait → Bool) : Bool :=
  t.waves.any fun v => v.lanes.toList.any fun th => match th.status with | .waiting k => p k | _ => false

/-- The addresses of the WSYNCs that threads of a wave wait at. -/
def Wave.syncs (v : Wave) : List Word :=
  ((lanesAll.filter fun l => match v.lanes[l].status with | .waiting (.wsync _) => true | _ => false).map fun l =>
    v.lanes[l].pc).eraseDups

/-- Events of a wave. -/
def Wave.events (v : Wave) (j k now : Nat) : List Instr :=
  let old := ((lanesAll.filter fun l => v.lanes[l].status = .ready && v.lanes[l].since + 1024 ≤ now).map fun l =>
    v.lanes[l].pc).eraseDups
  (if v.waitMask .fjoin ||| v.joinedMask ≠ 0 then [.fjoinComplete j k v.idx] else [])
    ++ ((List.range v.rejoin.length).map fun i => .rejoinTimeout j k v.idx i)
    ++ old.map fun pc => .starvationPromote j k v.idx pc

/-- Events of a team. -/
def Team.events (t : Team) (now : Nat) : List Instr :=
  let j := t.id.job
  let k := t.id.team
  let some_ := fun (p : WaitOp → Bool) (i : Instr) => if t.waiters.any fun x => p x.op then [i] else []
  (if t.someWait (· = .bar) then [.takenWaitResumeBar j k] else [])
    ++ (if t.someWait (· = .cbar) then [.cbarComplete j t.cohort] else [])
    ++ (t.waves.flatMap fun v => v.events j k now)
    ++ ((List.finRange 8).flatMap fun n =>
      some_ (fun o => match o with | .sem m _ => m = n | _ => false) (.semwaitComplete j k n))
    ++ ((List.finRange 4).flatMap fun n =>
      some_ (fun o => match o with | .pop m _ => m = n | _ => false) (.qpopComplete j k n)
        ++ some_ (fun o => match o with | .push m _ => m = n | _ => false) (.qpushComplete j k n))
    ++ some_ (fun o => match o with | .engage .. => true | _ => false) (.engageStart j k)
    ++ some_ (fun o => o = .rdv) (.rdvComplete j k)
    ++ (match t.stream.st with | .awaiting .. => [.awaitComplete j k] | _ => [])
    ++ (if !t.owner && (!t.waiters.isEmpty || t.stream.st ≠ .idle) then [.streamOwnerAcquire j k] else [])
    ++ (if t.owner && !t.fullQueues.isEmpty then [.dqGrow j k] else [])
    ++ (if t.guard ≠ 0 then [.guardExpire j k] else [])
    ++ ((t.waves.filter fun v => v.isLive && v.slot.isNone).map fun v => .restore j k v.idx)

/-- A resident wave is parked only so that another wave of its core can have its slot (R292). DEDUCED, unsafe (log 42). -/
def State.parkings (s : State) : List Instr :=
  (s.teams.filter fun t => t.place = .resident && s.slotWanted t.coreNo).flatMap fun t =>
    (t.waves.filter fun v => v.slot.isSome).map fun v => .parking t.id.job t.id.team v.idx

/-- Events of an engine command. -/
def Cmd.events (c : Cmd) : List Instr :=
  let done : List Instr := match c.kind with
    | .copy _ => [.copyComplete c.id, .copyFault c.id]
    | .mma .. => [.mmaComplete c.id]
    | .drain .. => [.accdrainComplete c.id]
    | .grammar .. => [.grammarComplete c.id]
    | .binapp _ _ recs => .binappAppend c.id :: (List.range recs.length).map fun i => .indexElementPark c.id i
    | .binreplay .. => [.binreplayComplete c.id]
    | .wlinit .. => [.worklistApply c.id]
    | .wlpush .. => [.worklistApply c.id]
    | .wlins .. => [.worklistApply c.id]
    | .wlpopb .. => [.worklistApply c.id]
    | .enq .. => [.enqComplete c.id]
    | .wbind .. => [.wbindComplete c.id]
    | .coll .. => [.collComplete c.id []]
    | .rayq .. => [.rayqComplete c.id]
  done ++ [.commandTranslationFault c.id]

/-- Events of neural calls. -/
def State.neuralEvents (s : State) : List Instr :=
  s.bins.flatMap (fun b =>
      b.calls.map (fun c => .ncallComplete c.id) ++ [.binDispatchTimer b.id]
        ++ if b.dispatched && b.weights = .waiting then [.belfryLoad b.cluster b.vf b.handle] else [])
    ++ ((s.bins.map fun b => b.cluster).eraseDups).map fun k => .binDispatchBlocked k

/-- Events of the scheduler. -/
def State.schedEvents (s : State) : List Instr :=
  let waits := s.waitingCohorts
  let clusters := List.range 16
  s.slots.flatMap (fun m => [.cardLaunch m.vf m.queue, .drawLaunch m.vf m.queue])
    ++ s.jobs.flatMap (fun j =>
      (if j.earlyDone then [] else [.earlyLaunch j.id]) ++ if j.completed then [] else [.jobComplete j.id])
    ++ waits.flatMap (fun w => clusters.filterMap fun k =>
      (s.pickCores w k).map fun cores => .teamAdmit w.job w.cohort k cores)
    ++ (if waits.isEmpty then [] else
      (clusters.filter fun k => (getAssoc k s.sliceAt).getD 0 + 480000 ≤ s.now).map .sliceStep)
    ++ ((((s.teams.filter fun t => t.place = .resident || t.place = .parked).map fun t => (t.id.job, t.cohort)).eraseDups).flatMap
        fun c => (if waits.isEmpty then [] else [.preempt c.1 c.2]) ++ [.swapping c.1 c.2])
    ++ s.draws.flatMap (fun d => [.rasterise d.id, .fragmentBlend d.id, .drawComplete d.id])
    ++ s.contexts.map (fun c => .jobLeaveEngine c.job c.cluster)
    ++ if 5 * s.now < (s.periodAt + 1) * 3072 then []
       else [.kettleGrant ((List.range 16).map fun i => s.pickNo 13 i)]

/-- Events of management work in progress, of lines and of requests to other devices. -/
def State.deviceEvents (s : State) : List Instr :=
  s.vfs.flatMap (fun v =>
      (if v.2.tlbinv.getLsbD 63 then [.tlbinvDone v.1] else []) ++ if v.2.harvest.getLsbD 63 then [.harvestDone v.1] else [])
    ++ ((s.banks.filter fun b => b.due.isSome).map fun b => .bankcfgChangeDone b.bank)
    ++ ((s.quotes.take 1).map fun q => .quoteDone q.part)
    ++ ((s.l1.filter fun l => !l.own && l.fill + 2048 ≤ s.now).map fun l => .l1LineExpire l.core l.pline)
    ++ (s.remotes.filter fun x => x.since + 2400000 ≤ s.now && !x.refused).map fun x =>
      .remoteTimeout x.wave.team.job x.wave.team.team x.wave.wave x.lane (w64 x.hpa) x.write

/-- Every event that could be due. -/
def State.events (s : State) : List Instr :=
  ((s.teams.filter fun t => t.place ≠ .ended).flatMap fun t => t.events s.now) ++ s.parkings
    ++ s.cmds.flatMap Cmd.events ++ s.neuralEvents ++ s.schedEvents ++ s.deviceEvents

def State.eventMoves (s : State) : List Move :=
  let copies := s.cmds.filter fun c => match c.kind with | .copy _ => true | _ => false
  ((s.events.map Move.event) ++ (copies.map fun c => Move.ahead c.id)
    ++ if s.remotes.isEmpty then [] else [Move.answer]).filter s.moves?

/-- Releases of WSYNC come at the moment its threads have arrived, before anything else (R40). -/
def State.syncMoves (s : State) : List Move :=
  (((s.teams.filter fun t => t.place ≠ .ended).flatMap fun t => t.waves.flatMap fun v =>
    (v.syncs).map fun pc => Move.event (.wsyncRelease t.id.job t.id.team v.idx pc))).filter s.moves?

/-- Everything the machine may do next. DESIGN CHOICE, unsafe (log 6). -/
def State.moves (s : State) : List Move :=
  match s.syncMoves with
  | [] => s.simtMoves ++ s.streamMoves ++ s.eventMoves
  | ms => ms

/-! ## Inputs from outside -/

/-- Steps that the outside world takes: requests, pins, the test port, what other devices answer, and errors.
DESIGN CHOICE, safe (log 8). -/
def Instr.external : Instr → Bool
  | .collComplete .. => true | .remoteRequest .. => true | .remoteRefusal .. => true | .registerFileError .. => true
  | .gddr7UncorrectableError .. => true | .measuredBoot _ => true | .rstN => true | .frzNAssert => true
  | .bypass => true | .idcode => true | .scanrd => true
  | .qnotify .. => true | .faultackRetry .. => true | .faultackDeliver .. => true | .faultackTerminate .. => true
  | .tlbinv .. => true | .bankcfgWrite .. => true | .partownWrite .. => true | .harvestStart .. => true
  | .fqcfgWrite .. => true | .fqptrWrite .. => true | .sysasdWrite .. => true | .sampcfgWrite .. => true
  | .vfcfgWrite .. => true | .vfquotaWrite .. => true | .kbudgetWrite .. => true | .irqlogWrite .. => true
  | .hvidWrite .. => true | .vftablesRead .. => true | .irqptrRead .. => true | .sampptrRead .. => true
  | .qctlGo .. => true | .registerWrite .. => true | .freezeWrite .. => true
  | _ => false

/-! ## Time -/

/-- Rejoin timers count the cycles in which their wave holds a slot (R38). DESIGN CHOICE, unsafe (log 4). -/
def Wave.pass (v : Wave) (d : Nat) : Wave :=
  if v.slot.isSome then
    { v with rejoin := v.rejoin.map fun (e : Rejoin) => { e with timer := e.timer.map fun n => n - d } }
  else v

/-- Virtual functions with work in the device. -/
def State.busyVfs (s : State) : List Nat :=
  ((s.jobs.filter fun j => !j.completed).map fun j => j.vf) ++ s.draws.map fun d => d.vf

/-- The virtual functions whose requests a move makes (R330). DESIGN CHOICE, safe (log 49). -/
def State.askers (s : State) (m : Move) : List Nat :=
  match m with
  | .issue w _ => [(s.jobOf w).vf]
  | .run r => [(s.jobOf r.wave).vf]
  | .stream t => [(s.job t.job).vf]
  | .enter t _ => [(s.job t.job).vf]
  | .ahead id => match s.cmd? id with | some c => [c.vf] | none => []
  | .event _ => s.busyVfs
  | .answer => s.busyVfs

/-- The requests of a move are under way. -/
def State.asking (s : State) (m : Move) : State := { s with asked := (s.askers m ++ s.asked).eraseDups }

/-- A counter of cycles, queueing, requests or lines of which the model does not tell how much was done, for a virtual function
with requests under way (R329, R330). DESIGN CHOICE, safe (log 49). -/
def State.countOpen (s : State) (c : Counter) : Counter :=
  if exactEvent c.unit c.event || c.event = 0 || 5 ≤ c.event.toNat || !s.asked.contains c.vf
      || !(s.part (s.vf c.vf).partition).ownsUnit c.unit then c
  else { c with count := c.count + ((s.openWord 11 ((128 * c.unit + c.vf) * 8 + c.k)).extractLsb' 0 32).zeroExtend 48 }

/-- A number of cycles passes; on a frozen device the clocks stand (R332). DESIGN CHOICE, unsafe (log 4). -/
def State.pass (s : State) (d : Nat) : State :=
  if s.frozen then { s with tick := s.tick + 1 }
  else
    { s with
      tick := s.tick + 1, now := s.now + d, clock := s.clock + w64 d,
      perf := s.perf.map s.countOpen, asked := s.asked.filter fun v => (s.openWord 12 v).getLsbD 0,
      teams := s.teams.map fun (t : Team) =>
        if t.place = .resident then { t with waves := t.waves.map fun (v : Wave) => v.pass d } else t }

/-- How many pass in a step is open. DESIGN CHOICE, unsafe (log 4). -/
def State.passTime (s : State) : State := s.pass (Config.freeCycles s.tick)

/-! ## One step -/

/-- DESIGN CHOICE, unsafe (log 4). -/
def afterTime (o : Host.Outcome State Fault Refusal) : Host.Outcome State Fault Refusal :=
  match o with
  | .next s => .next s.passTime
  | .fault f => .fault f
  | .refused r => .refused r

/-- What a frozen device still answers: its reset pin and its test port (R333). DESIGN CHOICE, safe (log 8). -/
def Instr.whileFrozen : Instr → Bool
  | .rstN => true | .frzNAssert => true | .bypass => true | .idcode => true | .scanrd => true
  | _ => false

/-- An input is what the outside world does: anything else in the list is passed over.
DEDUCED, safe (log 7); DESIGN CHOICE, safe (log 8). -/
def State.takeInput (s : State) (i : Instr) : Host.Outcome State Fault Refusal :=
  if Instr.external i && (!s.frozen || Instr.whileFrozen i) then exec i s else .next s

/-- One of the moves that are possible; none while the device is frozen or has not booted.
DESIGN CHOICE, unsafe (log 6); DEDUCED, safe (log 7). -/
def State.ownMove (s : State) : Host.Outcome State Fault Refusal :=
  if s.frozen || s.boot ≠ .done then .next s
  else
    match choose (s.pickNo 0 0) s.moves with
    | some m => (s.asking m).perform m
    | none => .next s

/-! ## An instruction placed for the next step -/

/-- The block and the page table of `withFetchWord`: code at virtual address 0x200000, which is host-physical address 0
of partition 0, and a table at 0x100000 whose entry 0 leads to itself and whose entry 1 is a leaf of 2 MB (R167, R168). -/
def placeCode : Word := 0x200000
def placeTable : Nat := 0x100000
def placeLeaf : Word := 0x9DF

/-- A header of a block of some words (R90). -/
def placeHeader (words : Nat) : List Byte :=
  ({ len := BitVec.ofNat 10 (2 + words), live := 0, join := 0, pf := 0, cold := false, loop := false, entry := true :
    Header }.encode).flatMap bytesOfWord

/-- The block that holds exactly one instruction, and the header of the block it falls through to. -/
def placeBlock (ws : List W32) : List Byte :=
  let k := formatWords (ws.headD 0)
  placeHeader k ++ (ws.take k).flatMap bytesOfWord ++ placeHeader 1

def State.place (s : State) (ws : List W32) : State :=
  let put := fun (s : State) (hpa : Nat) (bs : List Byte) =>
    { s with mem := (List.range bs.length).foldl (fun m i => m.write (s.key 0 (hpa + i)) (bs.getD i 0)) s.mem }
  put (put (put s placeTable (bytesLE 8 (placeTable + 1))) (placeTable + 8) (bytesLE 8 placeLeaf.toNat)) 0 (placeBlock ws)

/-- A job of one thread. -/
def placeJob : Job :=
  { Job.blank with
    id := 1, card := { Card.blank with named := 32, entry := placeCode }, nextCohort := 1, earlyDone := true,
    asd := { Asd.blank with s1root := placeTable } }

def placeWave (t : Thread) : Wave :=
  { Wave.blank with slot := some 0, lanes := (Vector.replicate 32 Thread.blank).set 0 t }

/-- The team of a SIMT instruction: its thread stands at the block. -/
def placeTeam (now : Nat) : Team :=
  { Team.new ⟨1, 0⟩ with nextUid := 1, since := now, waves := [placeWave (Thread.launch placeCode 0 now)] }

/-- The team of a stream instruction: its program stands at it, and its thread is parked. -/
def placeStreamTeam (now : Nat) : Team :=
  { Team.new ⟨1, 0⟩ with
    nextUid := 1, since := now, owner := true,
    waves := [placeWave { Thread.launch placeCode 0 now with status := .parked 0 }],
    stream := { Stream.idle with st := .running, pc := placeCode + 8, blk := placeCode } }

/-- The device booted, with nothing in it but one team that stands at an instruction: a program comes to run only when
the device has been booted, a queue has been set up and a job card has been launched, which other agents begin.
DEDUCED, safe (log 7). -/
def State.placed (s : State) (ws : List W32) : State :=
  let stream := match decodeWords ws with
    | .ok (i, _) => Instr.isStream i
    | .error _ => false
  ({ s with
    frozen := false, boot := .done, restricted := false, inputs := [], focus := .simt, runs := [], sigs := [], l1 := [],
    ccache := [], tlb := [], draws := [], contexts := [], cmds := [], bins := [], slots := [], tickets := [], held := [],
    remotes := [], vfs := [], parts := [(0, { PartRegs.reset 0 with partown := (PartRegs.reset 0).partown ||| runBit })],
    banks := [], quotes := [], periodAt := s.now, jobs := [placeJob],
    teams := [if stream then placeStreamTeam s.now else placeTeam s.now] } : State).place ws

end Sys2Proof.Machine
end

