-- ==== Sys2Proof/Machine/Step.lean ====
section
/-!
DEFINITION. One step of the machine: the next input from outside, or else one of the moves that the device may make; and
an instruction placed so that the next step runs it.
-/

namespace Sys2Proof.Machine

open Sys2Proof

/-- DESIGN CHOICE, unsafe (log 6). -/
def step (s : State) : Host.Outcome State Fault Refusal :=
  match s.inputs with
  | i :: rest => afterTime (State.takeInput { s with inputs := rest } i)
  | [] => afterTime s.ownMove

/-- The instruction of a table word, in a block of its own where the next step issues it. DEDUCED, safe (log 7). -/
def State.withFetchWord (s : State) (nbits w : Nat) : State :=
  let v := w % 2 ^ nbits
  s.placed ((List.range 3).map fun k => BitVec.ofNat 32 (v / 2 ^ (32 * k)))

end Sys2Proof.Machine
end

