-- ==== Sys2Proof/Safety.lean ====
section
/-!
DEFINITION. The terms that claims use: when an instruction executes and does not wait or fault, the state it leaves, and
the results of the spec's rules written apart from the machine.
-/

namespace Sys2Proof.Machine

open Sys2Proof

/-! ## An instruction that executes -/

/-- Instruction `i` of shape `sh` stands next in the run in hand, `r`; it may stand there (R98), no register it names
is pending (R24, R68), and its run owes no acknowledgement of another device (R181, R185). -/
structure Ready (s : State) (i : Instr) (r : Run) (sh : Shape) : Prop where
  inHand : s.runs.head? = some r
  shape  : i.shape = some sh
  legal  : s.illegal r.wave r.group r.holds (s.lastOfText r sh) i = none
  free   : s.mustWait r sh = false
  acked  : s.owesAck r sh i = false

/-- Flow that leaves the block behind the instruction finds a header there (R35, R91): `s'` is the state that the
instruction's body leaves. -/
def FallsWell (s s' : State) (r : Run) (sh : Shape) : Prop :=
  s.endsHere r sh = true → ∃ t, s'.checkFall r sh = .ok t

/-- The run after an instruction whose body leaves `r'`. -/
def State.runAfter (s : State) (tys : List Ty) (r : Run) (sh : Shape) (r' : Run) : Run :=
  s.advance r sh (s.heldVal r sh tys) r'

/-- The state once the block behind the instruction is known to be a header's. -/
def State.fallen (s' : State) (r : Run) (sh : Shape) : State :=
  match s'.checkFall r sh with
  | .ok t => t
  | .error _ => s'

/-- What follows a commit: the run's FENCE (R184), and the stop of threads in step mode (R328). -/
def State.closed (t : State) (r : Run) : State := ((t.fenced r).stepStop r).settle

/-- The state after an instruction that its body executed, leaving `s'`, the run `r'` and the effect `f` at commit (R29,
R32): the run goes on with its results; or it commits, its threads go on and the effect takes place. -/
def State.afterOwn (s : State) (tys : List Ty) (r : Run) (sh : Shape) (s' : State) (r' : Run)
    (f : State → Run → State) : State :=
  let r'' := s.runAfter tys r sh r'
  if s.endsHere r sh then (f ((s'.fallen r sh).commit (s.lastRun r sh r'')) r'').closed r'' else s'.putRun r''

/-- The same for an instruction whose only effect is on registers and stores of its run. -/
def State.afterPlain (s : State) (tys : List Ty) (r : Run) (sh : Shape) (s' : State) (r' : Run) : State :=
  s.afterOwn tys r sh s' r' fun t _ => t.goOn r.wave r.group (r.next sh)

/-- The same for a transfer, which ends its run and leaves the block. -/
def State.afterLeave (s : State) (tys : List Ty) (r : Run) (sh : Shape) (s' : State) (r' : Run)
    (f : State → Run → State) : State :=
  let r'' := s.runAfter tys r sh r'
  if s.endsHere r sh then (f (s'.commit (s.lastRun r sh r'')) r'').closed r'' else s'.putRun r''

/-! ## Poison and floating-point exceptions -/

/-- No flag that a thread of the group raises is enabled to trap (R130). -/
def NoFpx (r : Run) (trap : Bool) (flags : Fin 32 → Flags) : Prop :=
  ∀ l, LaneMask.has r.group l = true → fpxFlags (r.spec[l]).fpen trap (flags l) = 0

/-! ## Integer results, on bit vectors -/

/-- A result for sub-elements of every width, from the sub-elements of A, B and C. -/
abbrev SubRule := (w : Nat) → BitVec w → BitVec w → BitVec w → BitVec w

/-- The value clamped to the type's range (R403). -/
def clampRule (sg : Bool) (w : Nat) (v : Int) : BitVec w :=
  if sg then BitVec.ofInt w (max (-(2 ^ (w - 1))) (min (2 ^ (w - 1) - 1) v))
  else BitVec.ofInt w (max 0 (min (2 ^ w - 1) v))

/-- A sub-element as the type reads it (R401). -/
def readAs (sg : Bool) {w : Nat} (a : BitVec w) : Int := if sg then a.toInt else a.toNat

def compareRule (cc : Icc) (a b : Int) : Prop :=
  match cc with
  | .eq => a = b | .ne => a ≠ b | .lt => a < b | .le => a ≤ b | .gt => a > b | .ge => a ≥ b

open Classical in
/-- All ones where a relation holds (R404). -/
noncomputable def icmpRule (cc : Icc) (sg : Bool) : SubRule := fun w a b _ =>
  if compareRule cc (readAs sg a) (readAs sg b) then BitVec.allOnes w else 0

/-- The field of length l at offset o. -/
def fieldAt (sg : Bool) (w : Nat) (a : BitVec w) (o l : Nat) : BitVec w :=
  if sg then (a.extractLsb' o l).signExtend w else (a.extractLsb' o l).setWidth w

/-- Offset and length saturate where the field would pass the sub-element's top (R366). -/
def fieldRule (sg : Bool) (w : Nat) (a b c : BitVec w) : BitVec w :=
  fieldAt sg w a (min b.toNat w) (min c.toNat (w - min b.toNat w))

/-- The base with A's low l bits at offset o. -/
def insertAt (w : Nat) (a b : BitVec w) (o l : Nat) : BitVec w :=
  let m := (BitVec.allOnes l).setWidth w <<< o
  (b &&& ~~~m) ||| ((a <<< o) &&& m)

/-- The third source holds the offset in its low half and the length in its high half (R367). -/
def insertRule (w : Nat) (a b c : BitVec w) : BitVec w :=
  let o := min (c.toNat % 2 ^ (w / 2)) w
  insertAt w a b o (min (c.toNat / 2 ^ (w / 2)) (w - o))

/-- The dword of a rule's results, sub-element by sub-element (R54, R55). -/
def SubRule.word (g : SubRule) (w : Width) (x : LaneIn) : Word :=
  ofSubs w fun j =>
    (g w.bits (BitVec.ofNat _ (sub w x.a j)) (BitVec.ofNat _ (sub w x.b j)) (BitVec.ofNat _ (sub w x.c j))).toNat

/-! ## Instructions of the ALU class, as rules -/

/-- An instruction of the ALU class by what its threads compute: the types of its sources, the lanes that would consume
poison, the trap bit of a format slot, and the flags and registers of a lane. -/
structure AluRule where
  tys   : State → Run → List Ty
  bad   : State → Run → Shape → Fin 32 → Bool := fun _ _ _ _ => false
  trap  : State → Run → Bool := fun _ _ => false
  flags : State → Run → Shape → Fin 32 → Flags := fun _ _ _ _ => 0
  put   : State → Run → Shape → Fin 32 → Regs → Regs

/-- No lane of the group consumes poison and none raises FPX (R130, R194). -/
def AluRule.Clean (g : AluRule) (s : State) (r : Run) (sh : Shape) : Prop :=
  (∀ l, LaneMask.has r.group l = true → g.bad s r sh l = false) ∧ NoFpx r (g.trap s r) (g.flags s r sh)

/-- The run with the rule's registers and flags. -/
def AluRule.run (g : AluRule) (s : State) (r : Run) (sh : Shape) : Run := r.write (g.flags s r sh) (g.put s r sh)

/-- An instruction of the rule that may execute answers a next state: every lane's registers and flags are the rule's, in
the run in hand or, where the run ends, committed. -/
def AluRule.Completes (g : AluRule) (i : Instr) : Prop :=
  ∀ (s : State) (r : Run) (sh : Shape), Ready s i r sh → g.Clean (s.tokenReads r sh) r sh →
    FallsWell s (s.tokenReads r sh) r sh →
    exec i s = .next (s.afterPlain (g.tys s r) r sh (s.tokenReads r sh) (g.run (s.tokenReads r sh) r sh))

/-- The lanes of the group that consume poison. -/
def AluRule.poisons (g : AluRule) (s : State) (r : Run) (sh : Shape) : LaneMask :=
  maskWhere fun l => LaneMask.has r.group l && g.bad s r sh l

/-- The flags of a lane that raise FPX. -/
def AluRule.raises (g : AluRule) (s : State) (r : Run) (sh : Shape) (l : Fin 32) : Flags :=
  if LaneMask.has r.group l then fpxFlags r.spec[l].fpen (g.trap s r) (g.flags s r sh l) else 0

/-- Lanes that consume poison raise POISON, and the run aborts (R33, R194). -/
def AluRule.Poisons (g : AluRule) (i : Instr) : Prop :=
  ∀ (s : State) (r : Run) (sh : Shape), Ready s i r sh → g.poisons (s.tokenReads r sh) r sh ≠ 0 →
    exec i s = .next ((s.tokenReads r sh).raiseRun r
      { code := Code.poison, lanes := g.poisons (s.tokenReads r sh) r sh, enc := encode i })

/-- Flags that are enabled to trap raise FPX, whose subcode holds every one of them over all lanes (R130). -/
def AluRule.Traps (g : AluRule) (i : Instr) : Prop :=
  ∀ (s : State) (r : Run) (sh : Shape), Ready s i r sh → g.poisons (s.tokenReads r sh) r sh = 0 →
    (∃ l, g.raises (s.tokenReads r sh) r sh l ≠ 0) →
    ∃ v : Flags,
      (∀ k, v.getLsbD k = true ↔ ∃ l, (g.raises (s.tokenReads r sh) r sh l).getLsbD k = true) ∧
      exec i s = .next ((s.tokenReads r sh).raiseRun r
        { code := Code.fpx, sub := v.toNat,
          lanes := maskWhere fun l => g.raises (s.tokenReads r sh) r sh l ≠ 0, enc := encode i })

/-- What an instruction of a rule that raises no flag does, in every case. -/
def AluRule.Computes (g : AluRule) (i : Instr) : Prop := g.Completes i ∧ g.Poisons i

/-- What an instruction of a rule does, in every case. -/
def AluRule.Governs (g : AluRule) (i : Instr) : Prop := g.Completes i ∧ g.Poisons i ∧ g.Traps i

/-- The rule writes its destination and no other register of a lane (R49, R53). -/
def AluRule.OnlyDst (g : AluRule) : Prop :=
  ∀ (s : State) (r : Run) (sh : Shape) (l : Fin 32) (regs : Regs),
    let x := g.put s r sh l regs
    x.m = regs.m ∧ x.lc = regs.lc ∧ x.fpstat = regs.fpstat ∧ x.fpen = regs.fpen ∧ x.gstat = regs.gstat ∧
      (sh.dst ≠ .push → x.q = regs.q) ∧ ∀ k : Fin 32, sh.dst ≠ .n k → x.n[k] = regs.n[k]

/-- An integer rule (R59, R80). -/
def subRule (t : ITy) (g : SubRule) : AluRule where
  tys := fun _ _ => [.int t, .int t, .int t]
  bad := fun s r sh l => (s.laneIn r sh [.int t, .int t, .int t] l).poisoned t.width
  put := fun s r sh l regs =>
    regs.put sh.dst t.width (s.laneIn r sh [.int t, .int t, .int t] l).mask
      ⟨g.word t.width (s.laneIn r sh [.int t, .int t, .int t] l), 0⟩

/-- A rule per sub-element of one type, with rounding flags of the enabled ones (R59, R80, R130). -/
def roundRule (t : Ty) (g : Nat → Nat → Nat → Rnd) : AluRule where
  tys := fun _ _ => [t, t, t]
  bad := fun s r sh l => (s.laneIn r sh [t, t, t] l).poisoned t.width
  flags := fun s r sh l => (perSubF t.width g (s.laneIn r sh [t, t, t] l)).flags
  put := fun s r sh l regs =>
    let x := s.laneIn r sh [t, t, t] l
    regs.put sh.dst t.width x.mask ⟨ofSubs t.width fun j => (g (sub t.width x.a j) (sub t.width x.b j) (sub t.width x.c j)).bits, 0⟩

/-- One value to every thread that contributes, of the elements that no route takes from outside the group (R431). -/
def reduceRule (op : RedOp) (t : Ty) (m : Mode) : AluRule where
  tys := fun _ _ => [t]
  bad := fun s r sh l => s.givesPoison r sh t l
  flags := fun s r sh l =>
    if (s.laneIn r sh [t] l).contributes t.width then
      (reduceElems op t m ((groupElems (s.givers r sh) t.width (s.laneIn r sh [t])).map fun e => e.code)).flags
    else 0
  put := fun s r sh l regs =>
    regs.put sh.dst t.width (s.laneIn r sh [t] l).mask
      ⟨ofSubs t.width fun _ =>
        (reduceElems op t m ((groupElems (s.givers r sh) t.width (s.laneIn r sh [t])).map fun e => e.code)).bits, 0⟩

/-- Each enabled element gets the value of those before it, itself with them where inclusive (R435). -/
def scanRule (op : RedOp) (excl : Bool) (t : Ty) (m : Mode) : AluRule where
  tys := fun _ _ => [t]
  bad := fun s r sh l => s.givesPoison r sh t l
  flags := fun s r sh l =>
    (List.range t.width.count).foldl
      (fun a j =>
        if (s.laneIn r sh [t] l).mask.getLsbD j then
          a ||| (scanAt op excl t m (groupElems (s.givers r sh) t.width (s.laneIn r sh [t])) (l.val * t.width.count + j)).flags
        else a) 0
  put := fun s r sh l regs =>
    regs.put sh.dst t.width (s.laneIn r sh [t] l).mask
      ⟨ofSubs t.width fun j =>
        if (s.laneIn r sh [t] l).mask.getLsbD j then
          (scanAt op excl t m (groupElems (s.givers r sh) t.width (s.laneIn r sh [t])) (l.val * t.width.count + j)).bits
        else 0, 0⟩

/-- Does the lane receive the result of a VOTE, does its condition contribute, and is it true (R442)? -/
def voted (r : Run) (sh : Shape) (l : Fin 32) : Bool :=
  LaneMask.has r.group l && (r.spec[l].mask sh.pm).getLsbD 0

def votes (s : State) (r : Run) (sh : Shape) (l : Fin 32) : Bool := voted r sh l && LaneMask.has (s.givers r sh) l

def votesYes (s : State) (r : Run) (sh : Shape) (l : Fin 32) : Bool :=
  votes s r sh l && low32 (s.laneIn r sh [tyW64] l).a ≠ 0

open Classical in
/-- R442. -/
noncomputable def voteRule (fn : VoteFn) : AluRule where
  tys := fun _ _ => [tyW64]
  bad := fun s r sh l => votes s r sh l && (((s.laneIn r sh [tyW64] l).ops.getD 0 Val.zero).poisoned .b32 1)
  put := fun s r sh l regs =>
    regs.put sh.dst .b64 (if voted r sh l then 1 else 0)
      ⟨match fn with
        | .all => if ∀ k, votes s r sh k = true → votesYes s r sh k = true then 1 else 0
        | .any => if ∃ k, votesYes s r sh k = true then 1 else 0
        | .ballot => maskWhere (votes s r sh) ++ maskWhere (votesYes s r sh)
        | .uniform =>
          if (∀ k, votesYes s r sh k = false) ∨ ∀ k, votes s r sh k = true → votesYes s r sh k = true then 1 else 0, 0⟩

/-- The key of a lane: disabled sub-elements are zero (R415). -/
def matchKey (s : State) (r : Run) (sh : Shape) (t : Ty) (l : Fin 32) : Word :=
  merge t.width (r.spec[l].mask sh.pm) (s.laneIn r sh [t] l).a 0

/-- R415. -/
def matchRule (t : Ty) : AluRule where
  tys := fun _ _ => [t]
  bad := fun s r sh l => (s.laneIn r sh [t] l).poisoned t.width
  put := fun s r sh l regs =>
    let part := fun (k : Fin 32) => LaneMask.has r.group k && (s.laneIn r sh [t] k).contributes t.width
    let m := maskWhere fun k => part k && matchKey s r sh t k = matchKey s r sh t l
    regs.put sh.dst .b64 (if part l then 1 else 0) ⟨w32 (lowestLane m).val ++ m, 0⟩

/-- R381. -/
def cvtRule (dst src : Ty) (p : Nat) (m : Mode) : AluRule where
  tys := fun _ _ => [src]
  bad := fun s r sh l =>
    cvtPoisoned dst src p (r.spec[l].mask sh.pm) ((s.laneIn r sh [src] l).ops.getD 0 Val.zero)
  flags := fun s r sh l =>
    (List.range (64 / max dst.bits src.bits)).foldl
      (fun a e => a ||| (cvtLane dst src p m (r.spec[l].mask sh.pm) (s.laneIn r sh [src] l).a e).flags) 0
  put := fun s r sh l regs =>
    regs.putOver sh.dst (cvtPut dst src p m (r.spec[l].mask sh.pm) (s.laneIn r sh [src] l).a)

/-- Flags of the two 32-bit positions of a quantisation instruction (R427). -/
def pairFlags (m : BitVec 8) (f : Nat → Flags) : Flags :=
  (List.range 2).foldl (fun a j => if m.getLsbD j then a ||| f j else a) 0

/-- R143, R427. -/
def qscaleRule (fs : Fin 8) : AluRule where
  tys := fun _ _ => [tyF32]
  bad := fun s r sh l => (s.laneIn r sh [tyF32] l).poisoned .b32
  trap := fun s r => slotTrap (s.slotOf r fs)
  flags := fun s r sh l =>
    pairFlags (r.spec[l].mask sh.pm) fun j => (qscaleOne (s.slotOf r fs) (sub .b32 (s.laneIn r sh [tyF32] l).a j)).flags
  put := fun s r sh l regs =>
    regs.put sh.dst .b32 (r.spec[l].mask sh.pm)
      ⟨ofSubs .b32 fun j => (qscaleOne (s.slotOf r fs) (sub .b32 (s.laneIn r sh [tyF32] l).a j)).bits, 0⟩

/-- The code that QPACK gives position j of a lane (R144). -/
def packedAt (s : State) (r : Run) (sh : Shape) (fs : Fin 8) (l : Fin 32) (j : Nat) : Rnd :=
  let x := s.laneIn r sh [tyF32, scaleTy (s.slotOf r fs)] l
  qpackOne (s.slotOf r fs) (slotMode (s.slotOf r fs) (s.thread r.wave l).wid j) (sub .b32 x.a j) (sub .b32 x.b j)

/-- R144, R427. -/
def qpackRule (fs : Fin 8) : AluRule where
  tys := fun s r => [tyF32, scaleTy (s.slotOf r fs)]
  bad := fun s r sh l => (s.laneIn r sh [tyF32, scaleTy (s.slotOf r fs)] l).poisoned .b32
  trap := fun s r => slotTrap (s.slotOf r fs)
  flags := fun s r sh l => pairFlags (r.spec[l].mask sh.pm) fun j => (packedAt s r sh fs l j).flags
  put := fun s r sh l regs =>
    regs.putOver sh.dst
      (qpackPut (codeBits (s.slotOf r fs)) (r.spec[l].mask sh.pm) fun j => (packedAt s r sh fs l j).bits)

/-- The value that QUNPACK gives position j of a lane (R145). -/
def unpackedAt (s : State) (r : Run) (sh : Shape) (fs : Fin 8) (l : Fin 32) (j : Nat) : Rnd :=
  let x := s.laneIn r sh [tyW32, scaleTy (s.slotOf r fs)] l
  qunpackOne (s.slotOf r fs) (subN (codeBits (s.slotOf r fs)) x.a j) (sub .b32 x.b j)

/-- R145, R427. -/
def qunpackRule (fs : Fin 8) : AluRule where
  tys := fun s r => [tyW32, scaleTy (s.slotOf r fs)]
  bad := fun s r sh l =>
    qunpackPoisoned (codeBits (s.slotOf r fs)) (s.laneIn r sh [tyW32, scaleTy (s.slotOf r fs)] l)
  trap := fun s r => slotTrap (s.slotOf r fs)
  flags := fun s r sh l => pairFlags (r.spec[l].mask sh.pm) fun j => (unpackedAt s r sh fs l j).flags
  put := fun s r sh l regs =>
    regs.put sh.dst .b32 (r.spec[l].mask sh.pm) ⟨ofSubs .b32 fun j => (unpackedAt s r sh fs l j).bits, 0⟩

/-- The type of eight signed bytes. -/
def tyI8 : Ty := .int ⟨true, .b8⟩

/-- Does BPSPLIT clamp an enabled element (R370)? -/
def splitClamps (k : Nat) (m : BitVec 8) (a : Word) : Bool :=
  (List.range 8).any fun e => m.getLsbD e && planeValue k a e ≠ signed 8 (sub .b8 a e)

/-- R370. -/
def bpsplitRule (fs : Fin 8) : AluRule where
  tys := fun _ _ => [tyI8]
  bad := fun s r sh l => (s.laneIn r sh [tyI8] l).poisoned .b8
  trap := fun s r => slotTrap (s.slotOf r fs)
  flags := fun s r sh l =>
    if splitClamps (slotBits (s.slotOf r fs)) (r.spec[l].mask sh.pm) (s.laneIn r sh [tyI8] l).a then Flags.of else 0
  put := fun s r sh l regs =>
    regs.putOver sh.dst fun _ =>
      ⟨bpsplitWord (slotBits (s.slotOf r fs)) (r.spec[l].mask sh.pm) (s.laneIn r sh [tyI8] l).a, 0⟩

/-- R134, R370. -/
def bpjoinRule (fs : Fin 8) : AluRule where
  tys := fun _ _ => [tyW64]
  bad := fun s r sh l =>
    (s.laneIn r sh [tyW64] l).contributes .b8 &&
      (List.range (slotPlanes (s.slotOf r fs))).any fun j =>
        ((s.laneIn r sh [tyW64] l).ops.getD 0 Val.zero).poison.getLsbD j
  put := fun s r sh l regs =>
    let w := s.slotOf r fs
    regs.put sh.dst .b8 (r.spec[l].mask sh.pm)
      ⟨ofSubs .b8 fun e =>
        wrap 8 (bpjoinOne (slotBits w) (slotPlanes w) (slotCentre w) (s.laneIn r sh [tyW64] l).a e), 0⟩

/-- R425. -/
def permRule (t : Ty) : AluRule where
  tys := fun _ _ => [t, tyW64]
  bad := fun s r sh l => permPoisoned t.width (s.laneIn r sh [t, tyW64] l)
  put := fun s r sh l regs =>
    let x := s.laneIn r sh [t, tyW64] l
    regs.put sh.dst t.width x.mask
      ⟨ofSubs t.width fun j => match permSel t.width x.b j with | some n => sub t.width x.a n | none => 0, 0⟩

/-- R436. -/
def selRule (t : ITy) : AluRule where
  tys := fun _ _ => [.int t, .int t, .int t]
  bad := fun s r sh l => selPoisoned t.width (s.laneIn r sh [.int t, .int t, .int t] l)
  put := fun s r sh l regs =>
    let x := s.laneIn r sh [.int t, .int t, .int t] l
    regs.put sh.dst t.width x.mask
      ⟨ofSubs t.width fun j => if sub t.width x.a j ≠ 0 then sub t.width x.b j else sub t.width x.c j, 0⟩

/-- A copy of bits and their poison (R127, R194, R417). -/
def copyRule (t : Ty) : AluRule where
  tys := fun _ _ => [t]
  put := fun s r sh l regs =>
    regs.put sh.dst t.width (r.spec[l].mask sh.pm) ((s.laneIn r sh [t] l).ops.getD 0 Val.zero)

/-- R418, R419. -/
def movmRule (k : Fin 8) (toReg : Bool) (w : Width) : AluRule where
  tys := fun _ _ => [.int ⟨false, w⟩]
  bad := fun s r sh l => (s.laneIn r sh [.int ⟨false, w⟩] l).poisoned w
  put := fun s r sh l regs =>
    if toReg then
      regs.put sh.dst w (r.spec[l].mask sh.pm)
        ⟨ofSubs w fun j => if (r.spec[l].mask k).getLsbD j then 2 ^ w.bits - 1 else 0, 0⟩
    else regs.setM k (movmMask w (r.spec[l].mask sh.pm) (regs.mask k) (s.laneIn r sh [.int ⟨false, w⟩] l).a)

/-- R71, R420. -/
def movsRule (code : Fin 64) : AluRule where
  tys := fun _ _ => []
  put := fun s r sh l regs => regs.put sh.dst .b64 (r.spec[l].mask sh.pm) ⟨s.special r l code.val, 0⟩

/-! ## Instructions with an effect of their own -/

/-- An instruction that, where `ok` holds, is executed and then, its run ended and committed, has the effect `f` (R29,
R30, R32). -/
def Commits (i : Instr) (tys : List Ty) (ok : State → Run → Shape → Prop)
    (f : State → Run → Shape → State → Run → State) : Prop :=
  ∀ (s : State) (r : Run) (sh : Shape), Ready s i r sh → ok (s.tokenReads r sh) r sh →
    FallsWell s (s.tokenReads r sh) r sh →
    exec i s = .next (s.afterOwn tys r sh (s.tokenReads r sh) r (f (s.tokenReads r sh) r sh))

/-- Where `bad` gives a fault, the instruction raises it and its run aborts (R33, R192). -/
def Raises (i : Instr) (bad : State → Run → Shape → Exc → Prop) : Prop :=
  ∀ (s : State) (r : Run) (sh : Shape) (e : Exc), Ready s i r sh → bad (s.tokenReads r sh) r sh e →
    exec i s = .next ((s.tokenReads r sh).raiseRun r { e with enc := encode i })

/-- Where `late` holds, the instruction waits, and nothing else happens (R24, R220). -/
def Waits (i : Instr) (late : State → Run → Shape → Prop) : Prop :=
  ∀ (s : State) (r : Run) (sh : Shape), Ready s i r sh → late (s.tokenReads r sh) r sh →
    exec i s = .next ((s.tokenReads r sh).putRun { r with suspended := true })

/-! ## Memory instructions -/

/-- A load: its space, its path, its width and its offset (R82, R409 to R412). -/
structure LoadForm where
  sp   : Space
  path : LoadPath
  w    : Width
  off  : BitVec 12

/-- The address of a lane's access (R82, R88). -/
def State.placeOf (s : State) (r : Run) (sh : Shape) (off : BitVec 12) (l : Fin 32) : Word :=
  effective (s.addrOf r sh l).bits off sh.lit

/-- What the participating lanes access: lane, address and bytes. -/
def LoadForm.places (g : LoadForm) (s : State) (r : Run) (sh : Shape) : List (Fin 32 × Word × Nat) :=
  (lanesOf (r.active sh)).map fun l => (l, s.placeOf r sh g.off l, g.w.bytes)

/-- The accesses of the participating lanes, lane after lane; an LDA's walks are done before them (R235). -/
def LoadForm.lanes (g : LoadForm) (s : State) (r : Run) (sh : Shape) : List (Fin 32 × Got) × State :=
  let t := if g.path = .home then s.reached r g.sp .read (g.places s r sh) else s
  gather (fun u l => u.loadLane r l g.sp g.path (t.addrOf r sh l) (s.placeOf r sh g.off l) g.w.bytes)
    (lanesOf (r.active sh)) t

/-- The state after the accesses, and the sampled addresses of those that R331 counts. -/
def LoadForm.after (g : LoadForm) (s : State) (r : Run) (sh : Shape) : List Sample × State :=
  let t := (g.lanes s r sh).2.remoteDone r
  match g.path with
  | .l1 _ => t.sampled (t.jobOf r.wave).vf (t.requests r g.sp .read (g.places s r sh))
  | _ => ([], t)

/-- The run after a load: each participating lane has its value, zero-extended, in its destination; a lane that takes no
part pushes zero or keeps its register (R59, R75). -/
def LoadForm.run (g : LoadForm) (s : State) (r : Run) (sh : Shape) : Run :=
  ({ r with samples := r.samples ++ (g.after s r sh).1 } : Run).write (fun _ => 0) fun l regs =>
    regs.putThread sh.dst (LaneMask.has (r.active sh) l) ⟨valueOf (g.lanes s r sh).1 l, 0⟩

/-- What a load does where no lane waits for another device: it completes, or raises the first fault of R193. -/
def LoadForm.Governs (g : LoadForm) (i : Instr) : Prop :=
  (∀ (s : State) (r : Run) (sh : Shape), Ready s i r sh →
    excsOf (g.lanes (s.tokenReads r sh) r sh).1 = [] → holdsOf (g.lanes (s.tokenReads r sh) r sh).1 = [] →
    FallsWell s (g.after (s.tokenReads r sh) r sh).2 r sh →
    exec i s = .next (s.afterPlain memTys r sh (g.after (s.tokenReads r sh) r sh).2 (g.run (s.tokenReads r sh) r sh))) ∧
  (∀ (s : State) (r : Run) (sh : Shape) (e : Exc), Ready s i r sh →
    firstExc (excsOf (g.lanes (s.tokenReads r sh) r sh).1) = some e →
    exec i s = .next ((g.lanes (s.tokenReads r sh) r sh).2.raiseRun r { e with enc := encode i }))

/-- A load of another device's memory that waits for the answer (R319): nothing of the run is lost, and the request is
noted with the time it began. -/
def LoadForm.Awaits (g : LoadForm) (i : Instr) : Prop :=
  ∀ (s : State) (r : Run) (sh : Shape), Ready s i r sh →
    excsOf (g.lanes (s.tokenReads r sh) r sh).1 = [] → holdsOf (g.lanes (s.tokenReads r sh) r sh).1 ≠ [] →
    exec i s = .next (((g.lanes (s.tokenReads r sh) r sh).2.awaitRemote r
      (holdsOf (g.lanes (s.tokenReads r sh) r sh).1)).putRun { r with suspended := true })

/-- A store: its space, whether it is marked, its width and its offset (R82, R438). -/
structure StoreForm where
  sp   : Space
  kind : StoreKind
  w    : Width
  off  : BitVec 12

/-- The stores of the lanes that take part and are no helpers, lane after lane (R303, R438). -/
def StoreForm.lanes (g : StoreForm) (s : State) (r : Run) (sh : Shape) : List Store × List (Fin 32 × Exc) × State :=
  storeLanes (fun t l => t.storeLane r l g.sp g.kind (s.addrOf r sh l) (s.dataOf r sh l) (s.placeOf r sh g.off l) g.w.bytes)
    (lanesOf (s.actors r sh)) s

/-- What a store does in every case: its bytes enter the run store buffer and nothing is written before commit (R31);
or it raises the first fault of R193. -/
def StoreForm.Governs (g : StoreForm) (i : Instr) : Prop :=
  (∀ (s : State) (r : Run) (sh : Shape), Ready s i r sh → (g.lanes (s.tokenReads r sh) r sh).2.1 = [] →
    FallsWell s (g.lanes (s.tokenReads r sh) r sh).2.2 r sh →
    exec i s = .next (s.afterPlain memTys r sh (g.lanes (s.tokenReads r sh) r sh).2.2
      { r with stores := r.stores ++ (g.lanes (s.tokenReads r sh) r sh).1 })) ∧
  (∀ (s : State) (r : Run) (sh : Shape) (e : Exc), Ready s i r sh →
    firstExc (g.lanes (s.tokenReads r sh) r sh).2.1 = some e →
    exec i s = .next ((g.lanes (s.tokenReads r sh) r sh).2.2.raiseRun r { e with enc := encode i }))

/-- The checks of an atomic's lanes, lane after lane (R362). -/
def atomLanes (sp : Space) (op : AOp) (w : Width) (d : Dst) (s : State) (r : Run) (sh : Shape) :
    List AtomReq × List (Fin 32 × Exc) × State :=
  atomChecks (fun t l => t.atomCheck r sh sp op w d l) (lanesOf (s.actors r sh)) s

/-- The read-modify-writes of an atomic at commit, in an order: each returns the old value to its lane (R362). -/
def atomEffect (op : AOp) (ord : Ord4) (w : Width) (d : Dst) (order : List AtomReq) (idle : LaneMask) (pc next : Word)
    (t : State) (q : Run) : State :=
  let t := order.foldl (fun t a => t.atomLane q op ord w d a) t
  let t := t.putIdle q.wave idle d
  let v := (t.jobOf q.wave).vf
  let (xs, t) := t.sampled v (order.filterMap fun a =>
    match a.loc with | .phys part hpa => some (t.sampleAt pc part hpa) | _ => none)
  ((t.sampleRecords v xs false true).tallyHomes v (order.map (·.loc))).goOnRemote q.wave q.group pc next

/-- What an atomic does in every case: where no lane faults, at commit each lane's word is read, written and returned, in
the order that the device picks for ATOM and in lane order for ATOMS (R179); else the first fault is raised. -/
def AtomGoverns (sp : Space) (op : AOp) (ord : Ord4) (f : Mem) (i : Instr) : Prop :=
  ∀ (s : State) (r : Run) (sh : Shape), Ready s i r sh →
    let a := atomLanes sp op f.w f.d (s.tokenReads r sh) r sh
    (a.2.1 = [] → FallsWell s a.2.2 r sh →
      exec i s = .next (s.afterOwn memTys r sh a.2.2 r (atomEffect op ord f.w f.d
        (if sp = .scr then a.1 else shuffle (fun n => a.2.2.pickNo 4 n) a.1.length a.1)
        (r.group &&& ~~~((s.tokenReads r sh).actors r sh)) r.pc (r.next sh)))) ∧
    ∀ e, firstExc a.2.1 = some e → exec i s = .next (a.2.2.raiseRun r { e with enc := encode i })

/-! ## Engine instructions -/

/-- An engine instruction: the checks of its participating threads, when it must wait before commit, and its effect at
commit where threads take part and where none does (R75, R220). -/
structure EngForm where
  acts   : State → Run → Shape → LaneMask := fun s r sh => s.actors r sh
  checks : State → Run → Shape → List (Fin 32 × Exc)
  late   : State → Run → Shape → Bool := fun _ _ _ => false
  idle   : State → Run → Shape → State → Run → State := fun _ _ _ t q => t.goOnRun q
  effect : State → Run → Shape → State → Run → State

/-- With no thread taking part an engine instruction only goes on; else it commits with its effect where its checks find
nothing and it need not wait. -/
def EngForm.Runs (g : EngForm) (tys : List Ty) (i : Instr) : Prop :=
  Commits i tys (fun s r sh => g.acts s r sh = 0) g.idle ∧
  Commits i tys (fun s r sh => g.acts s r sh ≠ 0 ∧ g.checks s r sh = [] ∧ g.late s r sh = false) g.effect

/-- What an engine instruction that never waits does, in every case: it runs, or raises the first fault of R193. -/
def EngForm.Governs (g : EngForm) (tys : List Ty) (i : Instr) : Prop :=
  g.Runs tys i ∧ Raises i (fun s r sh e => g.acts s r sh ≠ 0 ∧ firstExc (g.checks s r sh) = some e)

/-- What an engine instruction does in every case that waits while its queue is full. -/
def EngForm.Queues (g : EngForm) (tys : List Ty) (i : Instr) : Prop :=
  g.Governs tys i ∧ Waits i (fun s r sh => g.acts s r sh ≠ 0 ∧ g.checks s r sh = [] ∧ g.late s r sh = true)

/-- Threads of a mask wait for their command and the others of the group go on (R26). -/
def waitCommand (act : LaneMask) (pc : Word) (t : State) (q : Run) : State :=
  (t.waitAt q.wave act pc q.pc .command).goOn q.wave (q.group &&& ~~~act) q.pc

/-- A command for each participating thread, all with the wave's next number (R220). -/
def perThread (act : LaneMask) (tok : Nat) (pc : Word) (kind : Fin 32 → CmdKind) (t : State) (q : Run) : State :=
  let (seq, t) := t.takeSeq q.wave
  (lanesOf act).foldl (fun t l => t.newCmd q.wave (laneBit l) (some tok) seq pc (kind l)) t

/-- COPY (R217, R218, R379). -/
def copyForm (lg : Width) (srcS dstS : Bool) (tok n : Nat) : EngForm where
  checks := fun s r sh =>
    ((lanesOf (s.actors r sh)).flatMap fun l =>
      s.copyExcs r l lg.bytes.log2 srcS dstS (s.engArg r sh 0 l).bits.toNat (s.engArg r sh 1 l).bits.toNat
        (r.spec[l].getN n).bits.toNat) ++ s.engPoison r sh (s.actors r sh) [n]
  late := fun s r sh => s.copiesOf (s.team r.wave.team).coreNo + (lanesOf (s.actors r sh)).length > 256
  effect := fun s r sh t q =>
    (perThread (s.actors r sh) tok r.pc
      (fun l =>
        .copy { log2 := lg.bytes.log2, dst := (s.engArg r sh 0 l).bits, src := (s.engArg r sh 1 l).bits,
                count := (r.spec[l].getN n).bits.toNat, srcS := srcS, dstS := dstS, cursor := 0, shadow := [], wrote := [] })
      t q).goOnRun q

/-- ACCREL: the slot is free, its GEN goes up and the handle is 0 (R223, R227). -/
def accrelForm (f : Mat) : EngForm where
  checks := fun s r sh =>
    let l := lowestLane (s.actors r sh)
    s.heldExc r (handleOf r f.s l).bits l ++ handlePoison (handleOf r f.s l) l
  late := fun s r sh =>
    let h := (handleOf r f.s (lowestLane (s.actors r sh))).bits
    s.slotBusy (s.team r.wave.team).cluster (handleCtx h) (handleSlot h) false
  effect := fun s r sh t q =>
    let cl := (s.team r.wave.team).cluster
    let h := (handleOf r f.s (lowestLane (s.actors r sh))).bits
    let t := (t.takeSeq q.wave).2
    let t := t.tally (t.jobOf q.wave).vf (245 + cl) 1 1
    let z := t.accSlot cl (handleCtx h) (handleSlot h)
    let t := t.setAcc { z with owner := none, gen := z.gen + 1, data := [], poison := [] }
    (t.setNamed q.wave (s.actors r sh) f.s.val 0).goOnRun q

/-- The reads of the row and column vectors that ACCDRAIN's descriptor names (R229, R230). -/
def drainVectors (f : Mat) (s : State) (r : Run) (sh : Shape) : List (Fin 32 × Got) × State :=
  let l := lowestLane (s.actors r sh)
  let b := s.engArg r sh 1 l
  if f.b ≠ .zero && b.bits.toNat % 8 = 0 then s.drainDesc r l b else ([], s)

/-- The checks of ACCDRAIN, once its descriptor is read (R228 to R230). -/
def drainChecks (f : Mat) (s : State) (r : Run) (sh : Shape) : List (Fin 32 × Exc) :=
  let act := s.actors r sh
  let l := lowestLane act
  let h := handleOf r f.s l
  let a := s.engArg r sh 0 l
  let b := s.engArg r sh 1 l
  let (gs, t) := drainVectors f s r sh
  let n := drainRow ((t.jobOf r.wave).card.slots[f.fs])
  needs (a.bits.toNat % 128 = 0) l (alignExc l a.bits.toNat)
    ++ needs (!decide (f.b ≠ .zero) || b.bits.toNat % 8 = 0) l (alignExc l b.bits.toNat)
    ++ excsOf gs ++ t.vectorExcs r l (wordGot gs[0]?) ++ t.vectorExcs r l (wordGot gs[1]?)
    ++ (rowsOf act).flatMap (fun k => t.rangeExcs r l (a.bits.toNat + k * n) n .write)
    ++ t.heldExc r h.bits l ++ handlePoison h l ++ handlePoison a l ++ handlePoison b l

/-- The sampled addresses of the descriptor's two reads, and the state after them (R331). -/
def drainSamples (f : Mat) (s : State) (r : Run) (sh : Shape) : List Sample × State :=
  let l := lowestLane (s.actors r sh)
  let b := (s.engArg r sh 1 l).bits
  let t := (drainVectors f s r sh).2
  (t.remoteDone r).sampled (t.jobOf r.wave).vf
    (t.requests r .glob .read (if f.b ≠ .zero then [(l, b, 8), (l, b + 8, 8)] else []))

/-- The queue that a drain enters. -/
def drainQueue (f : Mat) (s : State) (r : Run) (sh : Shape) : List Cmd :=
  s.tileQueue (s.team r.wave.team).cluster (handleCtx (handleOf r f.s (lowestLane (s.actors r sh))).bits)

/-- What ACCDRAIN does in every case: it commits with its command, with none where no thread takes part, raises the first
fault of R193, or waits for another device's answer or for room in its queue (R222, R228 to R230). -/
def DrainGoverns (f : Mat) (i : Instr) : Prop :=
  Commits i engTys (fun s r sh => s.actors r sh = 0) (fun _ _ _ t q => t.goOnRun q) ∧
  ∀ (s : State) (r : Run) (sh : Shape), Ready s i r sh →
    let u := s.tokenReads r sh
    let act := u.actors r sh
    let d := drainVectors f u r sh
    act ≠ 0 →
    (∀ e, firstExc (drainChecks f u r sh) = some e → exec i s = .next (d.2.raiseRun r { e with enc := encode i })) ∧
    (drainChecks f u r sh = [] → holdsOf d.1 ≠ [] →
      exec i s = .next ((d.2.awaitRemote r (holdsOf d.1)).putRun { r with suspended := true })) ∧
    (drainChecks f u r sh = [] → holdsOf d.1 = [] → 16 ≤ (drainQueue f d.2 r sh).length →
      exec i s = .next (d.2.putRun { r with suspended := true })) ∧
    let (xs, v) := drainSamples f u r sh
    (drainChecks f u r sh = [] → holdsOf d.1 = [] → (drainQueue f d.2 r sh).length < 16 → FallsWell s v r sh →
      exec i s = .next (s.afterOwn engTys r sh v { r with samples := r.samples ++ xs } fun t q =>
        let h := (handleOf r f.s (lowestLane act)).bits
        let (seq, t) := t.takeSeq q.wave
        let t := t.tally (t.jobOf q.wave).vf (245 + (u.team r.wave.team).cluster) 1 1
        let t := t.newCmd q.wave act none seq r.pc
          (.drain (handleCtx h) (handleSlot h) f.fs.val act (u.engArg r sh 0 (lowestLane act)).bits (wordGot d.1[0]?)
            (wordGot d.1[1]?))
        waitCommand act r.pc t q))

/-- NFLUSH, WPIN, WUNPIN and WPREF act at commit on the handles of their threads (R241). -/
def neuralForm (reads one : Bool) (go : List Nat → TeamId → State → State) : EngForm :=
  let ls := fun (s : State) (r : Run) (sh : Shape) =>
    if one then [lowestLane (s.actors r sh)] else lanesOf (s.actors r sh)
  { checks := fun s r sh => if reads then (ls s r sh).flatMap fun l => s.handleBad r sh l else []
    effect := fun s r sh t q =>
      (go ((ls s r sh).map (s.handleArg r sh)).eraseDups q.wave.team (t.takeSeq q.wave).2).goOnRun q }

/-- WBIND (R242). -/
def wbindForm : EngForm where
  checks := fun s r sh =>
    let l := lowestLane (s.actors r sh)
    let b := s.engArg r sh 1 l
    needs (b.bits.toNat % 16 = 0) l (alignExc l b.bits.toNat)
      ++ needs (s.handleArg r sh l < 4096) l (Exc.bound (w64 (s.handleArg r sh l)) l) ++ s.handleBad r sh l
      ++ handlePoison b l
  effect := fun s r sh t q =>
    let act := s.actors r sh
    let (seq, t) := t.takeSeq q.wave
    waitCommand act r.pc (t.newCmd q.wave act none seq r.pc
      (.wbind (s.handleArg r sh (lowestLane act)) (s.engArg r sh 1 (lowestLane act)).bits)) q

/-- NCALL: each participating thread's call is placed in a bin; its outputs and its token are pending (R243 to R245). -/
def ncallForm (kin : Fin 8) (mout : Fin 4) (f : Eng) : EngForm :=
  let ins := (List.range (kin.val + 1)).map fun i => (f.n.map Fin.val).getD 0 + i
  let outs := f.outRange mout
  let tok := f.t.reg.headD 0
  { checks := fun s r sh =>
      (lanesOf (s.actors r sh)).flatMap fun l =>
        s.handleBad r sh l ++ needs (!ins.any fun k => (r.spec[l].getN k).bad) l (poisonAt l 0)
    late := fun s r _ => (s.mmaCtx r.wave.team).isNone
    effect := fun s r sh t q =>
      let j := r.wave.team
      let cl := (s.team j).cluster
      let t := t.bindCtx cl ((s.mmaCtx j).getD 0) j.job
      let (seq, t) := t.takeSeq q.wave
      let t := t.tally (t.job j.job).vf (229 + cl) 1 (lanesOf (s.actors r sh)).length
      let t := (outs ++ [tok]).foldl (fun t k => t.setPending q.wave (s.actors r sh) k) t
      ((lanesOf (s.actors r sh)).foldl
        (fun t l =>
          { t.placeCall j.job (t.job j.job).vf (s.handleArg r sh l)
              { wave := q.wave, lane := l, tok := tok, out := outs.headD 0, outs := outs.length,
                x := ins.map fun k => (r.spec[l].getN k).bits, at_ := t.now, id := t.nextCmd, cluster := cl, seq := seq,
                pc := r.pc } with
            nextCmd := t.nextCmd + 1 }) t).goOnRun q }

/-- GMV and GMM: one rule-engine command for each participating thread (R256, R257). -/
def grammarForm (k : Nat) (fs : Fin 8) (f : Eng) : EngForm :=
  let n := (f.n.map Fin.val).getD 0
  let regs := fun (sh : Shape) => if sh.reads.length = 2 then [n, n + 1] else [n]
  { checks := fun s r sh =>
      (lanesOf (s.actors r sh)).flatMap (s.gramExcs r sh (gramOutBytes ((s.jobOf r.wave).card.slots[fs])) (regs sh))
        ++ s.engPoison r sh (s.actors r sh) (regs sh)
    late := fun s r sh =>
      (s.gramQueue (s.jobOf r.wave).part (s.team r.wave.team).cluster (s.jobOf r.wave).card.cls).length
        + (lanesOf (s.actors r sh)).length > 64
    effect := fun s r sh t q =>
      let (seq, t) := t.takeSeq q.wave
      let t := match t.ruleEngine (t.jobOf q.wave).part (s.team r.wave.team).cluster with
        | some e => t.tally (t.jobOf q.wave).vf (261 + e) 1 (lanesOf (s.actors r sh)).length
        | none => t
      ((lanesOf (s.actors r sh)).foldl
        (fun t l =>
          let strides := if (regs sh).length = 2 then (r.spec[l].getN (n + 1)).bits else 0
          t.newCmd q.wave (laneBit l) (some (f.t.reg.headD 0)) seq r.pc
            (.grammar k fs.val (s.engArg r sh 0 l).bits (s.engArg r sh 1 l).bits (r.spec[l].getN n).bits
              (low32 strides) (high32 strides) (r.spec[l].gstat.getLsbD 8))) t).goOnRun q }

/-- BINAPP: one command for the group, its records in lane order, with a release to the engine's reads (R269, R272). -/
def binappForm (op : AOp) (wide : Bool) (n : Nat) : EngForm where
  checks := fun s r sh =>
    (lanesOf (s.actors r sh)).flatMap (s.binDescExc r sh) ++ s.engPoison r sh (s.actors r sh) []
      ++ valuePoison r (s.actors r sh) n wide
  late := fun s r _ => s.binQueue r.wave.team ≥ 64 || s.binElsewhere r.wave
  effect := fun s r sh t q =>
    let (seq, t) := t.takeSeq q.wave
    let (sig, t) := t.takeSig q.wave (s.actors r sh)
    let recs := (lanesOf (s.actors r sh)).map fun l =>
      (l.val, (s.engArg r sh 0 l).bits, (s.engArg r sh 1 l).bits, (r.spec[l].getN n).bits)
    ((t.newCmd q.wave (s.actors r sh) none seq r.pc (.binapp op wide recs)).modCmd t.nextCmd fun c =>
      { c with sig := sig }).goOnRun q

/-- BINREPLAY (R274, R276). -/
def binreplayForm (tok n : Nat) : EngForm where
  checks := fun s r sh =>
    ((lanesOf (s.actors r sh)).flatMap fun l =>
      s.binDescExc r sh l
        ++ needs ((r.spec[l].getN n).bits.toNat % 2 ^ 18 = 0) l (alignExc l (r.spec[l].getN n).bits.toNat)
        ++ s.rangeExcs r l (r.spec[l].getN n).bits.toNat (2 ^ 18) .write) ++ s.replayPoison r sh (s.actors r sh) n
  late := fun s r sh =>
    s.binQueue r.wave.team + (lanesOf (s.actors r sh)).length > 64 || s.binElsewhere r.wave
  effect := fun s r sh t q =>
    (perThread (s.actors r sh) tok r.pc
      (fun l => .binreplay (s.engArg r sh 0 l).bits (low32 (s.engArg r sh 1 l).bits) (r.spec[l].getN n).bits) t q).goOnRun q

/-- The work-list instructions: one command for the group, on the list that the lowest participating thread names (R267
to R271). -/
def listForm (waits rel items : Bool) (d : Dst) (kind : Word → List (Nat × W32) → LaneMask → CmdKind) : EngForm :=
  let idle := fun (s : State) (r : Run) (sh : Shape) (t : State) (q : Run) =>
    t.putIdle q.wave (q.group &&& ~~~(s.actors r sh)) d
  { checks := fun s r sh =>
      let l := lowestLane (s.actors r sh)
      let a := s.engArg r sh 0 l
      needs (a.bits.toNat % 128 = 0) l (alignExc l a.bits.toNat) ++ s.rangeExcs r l a.bits.toNat 128 .write
        ++ handlePoison a l
        ++ (if items then
              (lanesOf (s.actors r sh)).flatMap fun l => needs (!(s.engArg r sh 1 l).poisonLow) l (poisonAt l 0)
            else [])
    idle := fun s r sh t q => (idle s r sh t q).goOnRun q
    effect := fun s r sh t q =>
      let act := s.actors r sh
      let (seq, t) := t.takeSeq q.wave
      let (sig, t) := if rel then t.takeSig q.wave act else (0, t)
      let its := (lanesOf act).map fun l => (l.val, w32 (low32 (s.engArg r sh 1 l).bits))
      let id := t.nextCmd
      let t := (t.newCmd q.wave act none seq r.pc
        (kind (s.engArg r sh 0 (lowestLane act)).bits (if items then its else []) act)).modCmd id
          fun c => { c with sig := sig }
      if waits then waitCommand act r.pc (idle s r sh t q) q else (idle s r sh t q).goOnRun q }

/-- ENQ (R284, R382). -/
def enqForm (d : Dst) : EngForm where
  checks := fun s r sh =>
    (lanesOf (s.actors r sh)).flatMap fun l =>
      needs ((s.engArg r sh 1 l).bits.toNat % 128 = 0) l (alignExc l (s.engArg r sh 1 l).bits.toNat)
        ++ needs (!(s.engArg r sh 0 l).poisonLow && !(s.engArg r sh 1 l).bad) l (poisonAt l 0)
  idle := fun _ _ _ t q => (t.putIdle q.wave q.group d).goOnRun q
  effect := fun s r sh t q =>
    let act := s.actors r sh
    let (seq, t) := t.takeSeq q.wave
    let t := (t.takeSig q.wave act).2
    let t := t.newCmd q.wave act none seq r.pc
      (.enq ((lanesOf act).map fun l => (l.val, bits (s.engArg r sh 0 l).bits 11 0, (s.engArg r sh 1 l).bits)) d)
    waitCommand act r.pc (t.putIdle q.wave (q.group &&& ~~~act) d) q

/-- DEPDEC and DEPSET on the counters of the virtual function, lanes ascending (R287). -/
def depdecForm (set : Bool) : EngForm :=
  let num := fun (s : State) (r : Run) (sh : Shape) (l : Fin 32) => counterArg (s.engArg r sh 0 l).bits
  { checks := fun s r sh =>
      (lanesOf (s.actors r sh)).flatMap fun l =>
        needs (1 ≤ num s r sh l && num s r sh l ≤ (s.vf (s.jobOf r.wave).vf).ccount) l (Exc.bound (w64 (num s r sh l)) l)
          ++ needs (!(s.engArg r sh 0 l).poisonLow && !(s.engArg r sh 1 l).poisonLow) l (poisonAt l 0)
    effect := fun s r sh t q =>
      let vf := (s.jobOf r.wave).vf
      let t := (t.takeSeq q.wave).2
      let t := if set then t else (t.takeSig q.wave (s.actors r sh)).2
      ((lanesOf (s.actors r sh)).foldl
        (fun t l =>
          let v := low32 (s.engArg r sh 1 l).bits
          if set then t.setCounter (t.vf vf).partition ((t.vf vf).hwCounter (num s r sh l)) v
          else t.decCounter vf (num s r sh l) v) t).goOnRun q }

/-- RAYQ (R310, R311). -/
def rayqForm (any cull : Bool) (tok n : Nat) : EngForm where
  checks := fun s r sh =>
    (lanesOf (s.actors r sh)).flatMap (fun l =>
        needs ((s.engArg r sh 0 l).bits.toNat % 128 = 0) l (alignExc l (s.engArg r sh 0 l).bits.toNat))
      ++ s.engPoison r sh (s.actors r sh) ((List.range 4).map fun k => n + k)
  effect := fun s r sh t q =>
    let (seq, t) := t.takeSeq q.wave
    ((lanesOf (s.actors r sh)).foldl
      (fun t l =>
        let t := t.newCmd q.wave (laneBit l) (some tok) seq r.pc
          (.rayq any cull (s.engArg r sh 0 l).bits
            (((List.range 4).map fun k => n + k).map fun k => (r.spec[l].getN k).bits) n)
        (t.setPending q.wave (laneBit l) n).setPending q.wave (laneBit l) (n + 1)) t).goOnRun q

/-- COLL: one command for the group, from the lowest participating thread (R321, R378). -/
def collForm (kind : CollKind) (op : CollOp) (ty : CollTy) (tok n : Nat) : EngForm where
  checks := fun s r sh =>
    let l := lowestLane (s.actors r sh)
    let a := (s.engArg r sh 0 l).bits.toNat
    let b := (s.engArg r sh 1 l).bits.toNat
    let dst := (r.spec[l].getN n).bits.toNat
    needs (a % 64 = 0) l (alignExc l a) ++ needs (b % CollTy.bytes ty = 0) l (alignExc l b)
      ++ needs (dst % CollTy.bytes ty = 0) l (alignExc l dst) ++ s.xlatExc r l a .read
      ++ s.engPoison r sh (laneBit l) [n, n + 1]
  effect := fun s r sh t q =>
    let l := lowestLane (s.actors r sh)
    let arg := (r.spec[l].getN (n + 1)).bits
    let (seq, t) := t.takeSeq q.wave
    (t.newCmd q.wave (s.actors r sh) (some tok) seq r.pc
      (.coll kind op ty (s.engArg r sh 0 l).bits (s.engArg r sh 1 l).bits (r.spec[l].getN n).bits (bits arg 31 0)
        (bits arg 47 32))).goOnRun q

/-- ENGAGE, RDV, SEMSIG and SEMWAIT act once for their group, with the operands of its lowest participating thread (R216,
R385, R429, R437). -/
def onceForm (checks : State → Run → Shape → List (Fin 32 × Exc)) (owner : Bool)
    (op : State → Run → Shape → State → Run → WaitOp × State) : EngForm where
  checks := checks
  effect := fun s r sh t q =>
    let (o, t) := op s r sh t q
    t.startOp q (s.actors r sh) r.pc o owner

/-- The participating lanes' bits of HASHB: one sign bit for each projection (R277). -/
def hashbRule (kin : Fin 8) (proj : Fin 16) (n : Nat) : AluRule where
  tys := fun _ _ => [tyW64]
  bad := fun s r sh l =>
    LaneMask.has (r.active sh) l &&
      ((s.engArg r sh 0 l).poisonLow || ((List.range (kin.val + 1)).map (n + ·)).any fun i => (r.spec[l].getN i).bad)
  put := fun s r sh l g =>
    let vs := ((List.range (kin.val + 1)).map (n + ·)).flatMap fun i =>
      (List.range 4).map fun j => Fmt.f16.decode (sub .b16 (r.spec[l].getN i).bits j)
    g.putThread sh.dst (LaneMask.has (r.active sh) l)
      ⟨w64 (packN 1 ((List.range (proj.val + 1)).map fun p =>
        if hashBit (low32 (s.engArg r sh 0 l).bits) p vs then 1 else 0)), 0⟩

/-- The slot that a lane's handle names, as ACCLOAD reads it, and the index of its element j (R230). -/
def accloadSlot (f : Mat) (s : State) (r : Run) (l : Fin 32) : AccSlot :=
  let h := (handleOf r f.s l).bits
  s.accSlot (s.team r.wave.team).cluster (handleCtx h) (handleSlot h)

def accloadIndex (s : State) (r : Run) (sh : Shape) (l : Fin 32) (j : Nat) : Nat :=
  64 * (2 * l.val + j) + bits (s.engArg r sh 0 l).bits 5 0

/-- The checks of ACCLOAD (R230). -/
def accloadChecks (f : Mat) (s : State) (r : Run) (sh : Shape) : List (Fin 32 × Exc) :=
  (lanesOf (r.active sh)).flatMap fun l =>
    s.heldExc r (handleOf r f.s l).bits l ++ handlePoison (handleOf r f.s l) l
      ++ needs (!(s.engArg r sh 0 l).poison.getLsbD 0) l (poisonAt l 0)

/-- Does a lane's slot still have commands that will write it (R230)? -/
def accloadBusy (f : Mat) (s : State) (r : Run) (sh : Shape) : Bool :=
  (lanesOf (r.active sh)).any fun l =>
    s.slotBusy (s.team r.wave.team).cluster (handleCtx (handleOf r f.s l).bits) (handleSlot (handleOf r f.s l).bits) true

/-- ACCLOAD: elements of rows 2i and 2i + 1 of lane i's slot, each rounded to f32 (R230). -/
def accloadRule (f : Mat) : AluRule where
  tys := fun _ _ => [tyW64]
  flags := fun s r sh l =>
    let one := fun j => accRound (cellOf (accloadSlot f s r l).data (accloadIndex s r sh l j))
    if LaneMask.has (r.active sh) l then (one 0).flags ||| (one 1).flags else 0
  put := fun s r sh l g =>
    let z := accloadSlot f s r l
    let one := fun j => accRound (cellOf z.data (accloadIndex s r sh l j))
    let bad := fun j => z.poison.contains (accloadIndex s r sh l j)
    g.putThread sh.dst (LaneMask.has (r.active sh) l)
      ⟨ofSubs .b32 fun j => (one j).bits, BitVec.ofNat 8 ((if bad 0 then 0x0F else 0) + (if bad 1 then 0xF0 else 0))⟩

/-- The checks of MMA before it looks for a slot (R226). -/
def mmaChecks (f : Mat) (s : State) (r : Run) (sh : Shape) : List (Fin 32 × Exc) :=
  let l := lowestLane (s.actors r sh)
  let h := handleOf r f.s l
  let a := s.engArg r sh 0 l
  let b := s.engArg r sh 1 l
  let n := operandBytes ((s.jobOf r.wave).card.slots[f.fs]) f.kc.val
  needs (a.bits.toNat % 128 = 0) l (alignExc l a.bits.toNat) ++ needs (b.bits.toNat % 128 = 0) l (alignExc l b.bits.toNat)
    ++ s.rangeExcs r l a.bits.toNat n .read ++ s.rangeExcs r l b.bits.toNat n .read
    ++ (if handleValid h.bits then s.heldExc r h.bits l else [])
    ++ handlePoison h l ++ handlePoison a l ++ handlePoison b l

/-- MMA issued to slot k of context x; a fresh slot is allocated and its handle returned (R223, R225 to R227). -/
def mmaEffect (f : Mat) (x k : Nat) (fresh : Bool) (s : State) (r : Run) (sh : Shape) (t : State) (q : Run) : State :=
  let act := s.actors r sh
  let l := lowestLane act
  let j := r.wave.team
  let cl := (s.team j).cluster
  let t := t.bindCtx cl x j.job
  let (seq, t) := t.takeSeq q.wave
  let (hw, t) := if fresh then t.takeSlot j cl x k else ((handleOf r f.s l).bits, t)
  let t := t.tally (t.jobOf q.wave).vf (245 + cl) 1 1
  let t := t.newCmd q.wave act none seq r.pc
    (.mma x k f.fs.val f.kc.val act (s.engArg r sh 0 l).bits (s.engArg r sh 1 l).bits)
  (t.setNamed q.wave act f.s.val hw).goOnRun q

/-- What the sample of a lane takes: its coordinates and its quad's, bias or level, and two descriptors (R304, R449). -/
def sampleOf (lod : Lod) (n : Option (Fin 32)) (s : State) (r : Run) (sh : Shape) (l : Fin 32) : SampleIn :=
  let k := match n with | some k => k.val | none => 0
  { lod := lod, quad := (quadOf l).map (s.quadVal r sh), a := s.argAs r sh tyF32 0 l, b := s.argAs r sh tyF32 1 l,
    img := r.spec[l].getN k, smp := r.spec[l].getN (k + 1) }

/-- The texels' lanes of TEX and TEXG, one after the other (R302, R304). -/
def sampleLanes (lod : Lod) (gath : Bool) (n : Option (Fin 32)) (finish : Word → Image → List (Tap × Texel) → Word)
    (s : State) (r : Run) (sh : Shape) : List (Fin 32 × Got) × State :=
  gather (fun t l => t.sampleLane r l (sampleOf lod n s r sh l) gath (finish (t.openWord 4 l.val)))
    (lanesOf (r.active sh)) s

/-- The state after the samples, and those of its requests that are recorded (R304, R331). -/
def sampleAfter (lod : Lod) (gath : Bool) (n : Option (Fin 32)) (s t : State) (r : Run) (sh : Shape) : List Sample × State :=
  let t := t.remoteDone r
  t.sampled (t.jobOf r.wave).vf (t.requests r .glob .read
    ((lanesOf (r.active sh)).flatMap fun l => t.texLoads r l (sampleOf lod n s r sh l) gath))

/-- The lanes whose values a TEX without an explicit level reads: the quads of its participating lanes (R303). -/
def quadLanes (lod : Lod) (r : Run) (sh : Shape) : List (Fin 32) :=
  if lod = .level then [] else (lanesOf (r.active sh)).flatMap quadOf

/-- Does a lane of those quads have a source register pending? -/
def quadLate (lod : Lod) (s : State) (r : Run) (sh : Shape) : Bool :=
  (quadLanes lod r sh).any fun l =>
    sh.srcs.any fun o => o.1.reg.any fun g => s.pending r.wave (routeLane r.spec[l] l o.2) g

/-- What TEX and TEXG do in every case (R302 to R304). -/
def SampleGoverns (lod : Lod) (gath : Bool) (n : Option (Fin 32)) (d : Dst)
    (finish : Word → Image → List (Tap × Texel) → Word) (i : Instr) : Prop :=
  ∀ (s : State) (r : Run) (sh : Shape), Ready s i r sh →
    let u := s.tokenReads r sh
    let g := sampleLanes lod gath n finish u r sh
    (quadLate lod u r sh = true → exec i s = .next (u.putRun { r with suspended := true })) ∧
    (quadLate lod u r sh = false → ∀ e, firstExc (excsOf g.1) = some e →
      exec i s = .next (g.2.raiseRun r { e with enc := encode i })) ∧
    (quadLate lod u r sh = false → excsOf g.1 = [] → holdsOf g.1 ≠ [] →
      exec i s = .next ((g.2.awaitRemote r (holdsOf g.1)).putRun { r with suspended := true })) ∧
    (quadLate lod u r sh = false → excsOf g.1 = [] → holdsOf g.1 = [] →
      let a := sampleAfter lod gath n u g.2 r sh
      FallsWell s a.2 r sh →
      exec i s = .next (s.afterPlain texTys r sh a.2
        (let q := r.write (fun _ => 0) fun l regs =>
           regs.putThread d (LaneMask.has (r.active sh) l) ⟨valueOf g.1 l, 0⟩
         { q with rx := q.rx || (quadLanes lod r sh).any (fun l => !(LaneMask.has r.group l)),
                  samples := q.samples ++ a.1 })))

/-- The two interpolated components of ATTR in a lane, from the six of its triangle in the scratchpad (R305). -/
def attrOut (s t : State) (r : Run) (sh : Shape) (l : Fin 32) : List Rnd :=
  match t.loadAll r l .scr .scr ((List.range 3).map fun k =>
      (s.engArg r sh 0 l, (s.engArg r sh 0 l).bits + w64 (8 * k), 8)) with
  | .ok (ws, _) =>
    let c := fun (k : Nat) => subN 32 (ws.getD (k / 2) 0) (k % 2)
    let b := (s.argAs r sh tyF32 1 l).bits
    [interpolate (c 0) (c 1) (c 2) (low32 b) (high32 b), interpolate (c 3) (c 4) (c 5) (low32 b) (high32 b)]
  | .error _ => []

/-! ## Frames -/

/-- The rule of an instruction of the ALU class. -/
noncomputable def aluRule : Instr → Option AluRule
  | .iadd false t _ => some (subRule t fun _ a b _ => a + b)
  | .iadd true t _ => some (subRule t fun w a b _ => clampRule t.signed w (readAs t.signed a + readAs t.signed b))
  | .isub false t _ => some (subRule t fun _ a b _ => a - b)
  | .isub true t _ => some (subRule t fun w a b _ => clampRule t.signed w (readAs t.signed a - readAs t.signed b))
  | .imul t _ => some (subRule t fun _ a b _ => a * b)
  | .imulh t _ => some (subRule t fun w a b _ => BitVec.ofInt w (readAs t.signed a * readAs t.signed b / 2 ^ w))
  | .imad t _ => some (subRule t fun _ a b c => a * b + c)
  | .imin t _ => some (subRule t fun _ a b _ => if readAs t.signed a ≤ readAs t.signed b then a else b)
  | .imax t _ => some (subRule t fun _ a b _ => if readAs t.signed a ≥ readAs t.signed b then a else b)
  | .iabs w _ => some (subRule ⟨true, w⟩ fun _ a _ _ => if a.msb then -a else a)
  | .ineg w _ => some (subRule ⟨true, w⟩ fun _ a _ _ => -a)
  | .icmp cc t _ => some (subRule t (icmpRule cc t.signed))
  | .lea sg k _ => some (subRule ⟨sg, .b64⟩ fun w a b _ => a + b * BitVec.ofNat w (2 ^ k.val))
  | .iaddS t _ => some (subRule t fun _ a b _ => a + b)
  | .isubS t _ => some (subRule t fun _ a b _ => a - b)
  | .imulS t _ => some (subRule t fun _ a b _ => a * b)
  | .iminS t _ => some (subRule t fun _ a b _ => if readAs t.signed a ≤ readAs t.signed b then a else b)
  | .imaxS t _ => some (subRule t fun _ a b _ => if readAs t.signed a ≥ readAs t.signed b then a else b)
  | .andI t _ => some (subRule t fun _ a b _ => a &&& b)
  | .andn t _ => some (subRule t fun _ a b _ => a &&& ~~~b)
  | .orI t _ => some (subRule t fun _ a b _ => a ||| b)
  | .xorI t _ => some (subRule t fun _ a b _ => a ^^^ b)
  | .notI t _ => some (subRule t fun _ a _ _ => ~~~a)
  | .shl t _ => some (subRule t fun _ a b _ => a <<< b)
  | .shr t _ => some (subRule t fun _ a b _ => a >>> b)
  | .sar t _ => some (subRule t fun _ a b _ => a.sshiftRight b.toNat)
  | .rol t _ => some (subRule t fun _ a b _ => a.rotateLeft b.toNat)
  | .popc t _ => some (subRule t fun w a _ _ => BitVec.ofNat w ((List.range w).countP fun i => a.getLsbD i))
  | .clz t _ => some (subRule t fun w a _ _ => BitVec.ofNat w ((List.range w).countP fun i => a.toNat < 2 ^ i))
  | .brev t _ => some (subRule t fun _ a _ _ => a.reverse)
  | .bfe t _ => some (subRule t fun w a b c => fieldRule t.signed w a b c)
  | .bfi t _ => some (subRule t fun w a b c => insertRule w a b c)
  | .andS t _ => some (subRule t fun _ a b _ => a &&& b)
  | .orS t _ => some (subRule t fun _ a b _ => a ||| b)
  | .xorS t _ => some (subRule t fun _ a b _ => a ^^^ b)
  | .shlS t _ => some (subRule t fun _ a b _ => a <<< b)
  | .shrS t _ => some (subRule t fun _ a b _ => a >>> b)
  | .fadd t f => some (roundRule (.flt t) (faddF t (Mode.ofRm f.rm)))
  | .fsub t f => some (roundRule (.flt t) (fsubF t (Mode.ofRm f.rm)))
  | .fmul t f => some (roundRule (.flt t) (fmulF t (Mode.ofRm f.rm)))
  | .ffma t f => some (roundRule (.flt t) (ffmaF t (Mode.ofRm f.rm)))
  | .fmin t _ => some (roundRule (.flt t) (fminF t))
  | .fmax t _ => some (roundRule (.flt t) (fmaxF t))
  | .fcmp cc t _ => some (roundRule (.flt t) (fcmpF cc t))
  | .fclass t _ => some (roundRule (.flt t) fun a b c => ⟨fclassF t a b c, 0⟩)
  | .frnd t f => some (roundRule (.flt t) (frndF t (Mode.ofRm f.rm)))
  | .amax t _ => some (roundRule (.flt t) fun a b c => ⟨amaxF t a b c, 0⟩)
  | .faddS t _ => some (roundRule (.flt t) (faddF t .ne))
  | .fsubS t _ => some (roundRule (.flt t) (fsubF t .ne))
  | .fmulS t _ => some (roundRule (.flt t) (fmulF t .ne))
  | .fminS t _ => some (roundRule (.flt t) (fminF t))
  | .fmaxS t _ => some (roundRule (.flt t) (fmaxF t))
  | .frcp t f => some (roundRule (.flt t.fty) (transcF .rcp t (Mode.ofRm f.rm)))
  | .frsq t f => some (roundRule (.flt t.fty) (transcF .rsq t (Mode.ofRm f.rm)))
  | .fsqrt t f => some (roundRule (.flt t.fty) (transcF .sqrt t (Mode.ofRm f.rm)))
  | .fexp2 t f => some (roundRule (.flt t.fty) (transcF .exp2 t (Mode.ofRm f.rm)))
  | .flog2 t f => some (roundRule (.flt t.fty) (transcF .log2 t (Mode.ofRm f.rm)))
  | .fsin t f => some (roundRule (.flt t.fty) (transcF .sin t (Mode.ofRm f.rm)))
  | .fcos t f => some (roundRule (.flt t.fty) (transcF .cos t (Mode.ofRm f.rm)))
  | .ftanh t f => some (roundRule (.flt t.fty) (transcF .tanh t (Mode.ofRm f.rm)))
  | .fsigm t f => some (roundRule (.flt t.fty) (transcF .sigm t (Mode.ofRm f.rm)))
  | .sel t _ => some (selRule t)
  | .perm t _ => some (permRule t)
  | .mov t _ => some (copyRule t)
  | .movS _ => some (copyRule tyW64)
  | .movm k false w _ => some (movmRule k false w)
  | .movm k true w _ => some (movmRule k true w)
  | .movs code _ => some (movsRule code)
  | .red op t f => some (reduceRule op t (Mode.ofRm f.rm))
  | .scan op excl t f => some (scanRule op excl t (Mode.ofRm f.rm))
  | .vote fn _ => some (voteRule fn)
  | .matchI t _ => some (matchRule t)
  | .cvt dst src p f => some (cvtRule dst src p.val (Mode.ofRm f.rm))
  | .qscale fs _ => some (qscaleRule fs)
  | .qpack fs _ => some (qpackRule fs)
  | .qunpack fs _ => some (qunpackRule fs)
  | .bpsplit fs _ => some (bpsplitRule fs)
  | .bpjoin fs _ => some (bpjoinRule fs)
  | .hashb kin proj f => some (hashbRule kin proj ((f.n.map Fin.val).getD 0))
  | _ => none

/-! ## Control instructions -/

/-- Each address translates as a fetch and holds an H word, for the thread that is checked against it (R35, R98). -/
def HeadersAt (s : State) (r : Run) (hs : List (Fin 32 × Word × Bool)) : Prop :=
  ∀ h ∈ hs, ∃ x t, s.translate (s.xctx r.wave) h.2.1.toNat .fetch = .ok (x, t) ∧ t.isH (t.xctx r.wave) h.2.1 = true

/-- A transfer: the headers its threads are checked against, before (`first`) or after it reads its operands, and those a
loop then sends them to are all fetched (R35, R46, R171). Where `clean` holds and each is a header, its run, with the registers of `put`, commits and each thread goes to its
`goal`; where one is not, the first fault of R193 is raised. -/
structure Leaving where
  tys   : List Ty
  first : State → Run → Shape → List (Fin 32 × Word × Bool) := fun _ _ _ => []
  heads : State → Run → Shape → List (Fin 32 × Word × Bool) := fun _ _ _ => []
  clean : State → Run → Shape → Prop := fun _ _ _ => True
  excs  : State → Run → Shape → List (Fin 32 × Exc) := fun _ _ _ => []
  put   : State → Run → Shape → Fin 32 → Regs → Regs := fun _ _ _ _ g => g
  goal  : State → Run → Shape → Fin 32 → Word

/-- The headers that the transfer checks once it has read its operands. -/
def Leaving.later (g : Leaving) (s : State) (r : Run) (sh : Shape) : List (Fin 32 × Word × Bool) :=
  g.heads s r sh ++ landings r (g.put s r sh) (g.goal s r sh)

/-- All headers that the transfer fetches. -/
def Leaving.all (g : Leaving) (s : State) (r : Run) (sh : Shape) : List (Fin 32 × Word × Bool) :=
  g.first s r sh ++ g.later s r sh

/-- The state once they are fetched. -/
def Leaving.after (g : Leaving) (s : State) (r : Run) (sh : Shape) : State :=
  s.fetched r.wave ((g.all s r sh).map fun h => h.2.1)

/-- The first fault that the transfer raises (R193). DEDUCED, unsafe (log 14). -/
def Leaving.exc (g : Leaving) (s : State) (r : Run) (sh : Shape) : Option Exc :=
  (g.after s r sh).transferExc r.wave (g.first s r sh) (g.later s r sh) (g.excs s r sh)

def Leaving.Governs (g : Leaving) (i : Instr) : Prop :=
  ∀ (s : State) (r : Run) (sh : Shape), Ready s i r sh →
    let u := s.tokenReads r sh
    (g.clean u r sh → HeadersAt (g.after u r sh) r (g.all u r sh) →
      exec i s = .next (s.afterLeave g.tys r sh (g.after u r sh) (r.write (fun _ => 0) (g.put u r sh))
        fun t q => t.transfer q.wave q.group q.blk (g.goal u r sh))) ∧
    ∀ e, g.exc u r sh = some e →
      exec i s = .next ((g.after u r sh).raiseRun r { e with enc := encode i })

/-- Lanes whose bits [31:0] of A are poisoned, as faults (R194). -/
def lowPoison (s : State) (r : Run) (sh : Shape) : List (Fin 32 × Exc) :=
  (lanesOf (poisonedSrc s r sh .b32)).map fun l => (l, poisonAtLane l)

/-- May an operand of 32 bits be consumed in every thread (R194)? -/
def CleanLow (s : State) (r : Run) (sh : Shape) : Prop := poisonedSrc s r sh .b32 = 0

/-- BRA (R87, R371): a thread goes to the target where its condition is met. -/
def braForm (c : BrCond) (f : Ctl) : Leaving where
  tys := [tyW64]
  heads := fun s r sh => braChecks r sh (targetOf r.pc f.off f.lit) fun l => branchTaken c (s.laneIn r sh [tyW64] l).a
  clean := CleanLow
  excs := lowPoison
  goal := fun s r sh l =>
    if branchTaken c (s.laneIn r sh [tyW64] l).a then targetOf r.pc f.off f.lit else r.next sh

/-- BRX and RET (R374, R432). -/
def indirectForm : Leaving where
  tys := [tyW64]
  heads := fun s r sh =>
    (lanesOf r.group).map fun l => (l, (s.laneIn r sh [tyW64] l).a, ((s.laneIn r sh [tyW64] l).ops.getD 0 Val.zero).bad)
  clean := fun s r sh =>
    ∀ l, LaneMask.has r.group l = true → ((s.laneIn r sh [tyW64] l).ops.getD 0 Val.zero).bad = false
  goal := fun s r sh l => (s.laneIn r sh [tyW64] l).a

/-- CALL (R375): the return address goes into its destination. -/
def callForm (f : Ctl) : Leaving where
  tys := []
  first := fun _ r _ => (lanesOf r.group).map fun l => (l, targetOf r.pc f.off f.lit, false)
  put := fun _ r sh _ g => g.put sh.dst .b64 0xFF ⟨r.next sh, 0⟩
  goal := fun _ r _ _ => targetOf r.pc f.off f.lit

/-- The first block of a loop, and the block behind it (R45, R414). -/
def loopStart (r : Run) (f : Ctl) : Word := targetOf r.pc f.off f.lit
def loopStop (r : Run) (f : Ctl) (len2 : BitVec 10) : Word := wordsAfter (loopStart r f) (len2.zeroExtend 64)

/-- LSETUP (R45, R414): a loop register is armed, and threads with a count of 0 skip the loop. -/
def lsetupForm (k : Fin 4) (len2 : BitVec 10) (f : Ctl) : Leaving where
  tys := [tyW64]
  first := fun _ r _ => (lanesOf r.group).flatMap fun l => [(l, loopStart r f, false), (l, loopStop r f len2, false)]
  clean := CleanLow
  excs := lowPoison
  put := fun s r sh l g =>
    let n := low32 (s.laneIn r sh [tyW64] l).a
    { g with lc := g.lc.set k ⟨loopStart r f, loopStop r f len2, w32 n, decide (n ≠ 0)⟩ }
  goal := fun s r sh l => if low32 (s.laneIn r sh [tyW64] l).a = 0 then loopStop r f len2 else loopStart r f

/-- Arrival at a barrier with a release (R26, R176). -/
def arrive (put : Sig → State → Run → State) (k : Wait) (pc : Word) (t : State) (q : Run) : State :=
  let (sig, t) := t.takeSig q.wave q.group
  (put sig t q).waitAt q.wave q.group pc q.pc k

/-- The number of a system register, which no job may read or write (R192, R380). -/
def systemReg (num : BitVec 12) : Prop := num.toNat ≥ 0x800

/-! ## Stream programs -/

/-- Instruction `i` of the stream program of team `t`, which stands as `u`, may be executed (R97, R212). -/
structure StrReady (s : State) (i : Instr) (t : TeamId) (u : Team) : Prop where
  inHand : s.focus = .stream t
  held   : s.team? t = some u
  runs   : u.stream.st.runs = true
  legal  : i.check = none

/-- The state once the instruction the program stands at is fetched (R170). -/
def State.strAt (s : State) (t : TeamId) (u : Team) : State := s.touchInstr (s.strCtx t) u.stream.pc

/-- What fetching an address that the program may be sent to finds: the state after it, and whether a header stands
there (R35, R348). -/
def StrTarget (s : State) (t : TeamId) (goal : Word) (s' : State) (header : Bool) : Prop :=
  ∃ ws, s.fetchInstr (s.strCtx t) goal = .ok (ws, s') ∧ s'.isH (s.strCtx t) goal = header

/-- The program of team `t` has executed the instruction it stood at as `u`, and stands at the next one (R355). -/
def State.strDone (s : State) (t : TeamId) (u : Team) (lit : Option W32) : State :=
  ((s.modStream t Stream.fresh).strGo t (u.stream.pc + w64 (4 * litWords lit))).settle

/-- The program of team `t` goes on at a header (R355). -/
def State.strJump (s : State) (t : TeamId) (goal : Word) : State := (s.modStream t Stream.fresh).strEnter t goal

/-- A stream instruction that gives its register a value. -/
def StrSets (i : Instr) (f : Str) (g : Stream → Word) : Prop :=
  ∀ (s : State) (t : TeamId) (u : Team), StrReady s i t u →
    exec i s = .next (((s.strAt t u).modStream t fun x => x.setA f.d (g x)).strDone t u f.lit)

open Classical in
/-- 1 where an unsigned relation holds, else 0 (R352). -/
noncomputable def acmpRule (cc : Icc) (a b : Word) : Word := if compareRule cc a.toNat b.toNat then 1 else 0

/-- Is a stream branch taken (R348)? -/
def StrTaken (c : BrCond) (a : Word) : Prop :=
  match c with
  | .always => True | .nonzero => a ≠ 0 | .zero => a = 0

/-- What a move or an index instruction of a stream program comes to, by what is left of it (R212). -/
def StrMoves (i : Instr) (f : Str) (ok : Team → Prop) (go : State → Team → StrRes) : Prop :=
  ∀ (s : State) (t : TeamId) (u : Team), StrReady s i t u → ok u →
    (∀ s', go (s.strAt t u) u = .next s' → exec i s = .next (s'.strDone t u f.lit)) ∧
    (∀ s', go (s.strAt t u) u = .stay s' → exec i s = .next s') ∧
    (∀ s' e, go (s.strAt t u) u = .park s' e → exec i s = .next (s'.strPark t e))

/-! ## Events of the device -/

/-- An event of the device: where its condition holds it has its effect, and else it changes nothing. -/
def Turns (i : Instr) (ok : State → Prop) (t : State → State) : Prop :=
  (∀ s, ok s → exec i s = .next (t s)) ∧ ∀ s, ¬ok s → exec i s = .next s

/-- An event of the device: where a rule of it holds it leads to what that rule gives, and where none does it changes
nothing. -/
def Becomes (i : Instr) (r : State → State → Prop) : Prop :=
  (∀ s t, r s t → exec i s = .next t) ∧ ∀ s, (∀ t, ¬r s t) → exec i s = .next s

/-- An event that does the work of a command as far as it goes now: where the work ends, the state is what it leaves; else
nothing changes. -/
def Works (i : Instr) (w : State → Worked) : Prop :=
  (∀ s s', w s = .ok s' → exec i s = .next s'.settle) ∧ ∀ s, (∀ s', w s ≠ .ok s') → exec i s = .next s

/-! ## Commands whose operands are at hand

Conditions on the state and the operands alone, under which the work of a command ends now: what it reads and writes lies
in this device's memory, at addresses that a TLB entry serves (R161, R170, R172), and its sources have not changed since its
commit (R186). -/

/-- Where a TLB entry that serves an agent's access puts an address (R172). -/
def State.heldAt (s : State) (c : Xctx) (va : Nat) (a : Acc) : Option Nat :=
  (s.tlb.find? fun e => e.hits c va && e.serves c a).map fun e => e.hpa + va % 2 ^ e.log2

/-- An access ends at the byte at `h`, in GDDR 7 or hall memory of this device. -/
def HeldAs (s : State) (c : Xctx) (va : Nat) (a : Acc) (h : Nat) : Prop :=
  va < 2 ^ 57 ∧ s.heldAt c va a = some h ∧ s.isLocal h = true ∧
    (s.region c.part h = some .gddr ∨ ∃ b, s.region c.part h = some (.hall b))

/-- Every byte of a range is reached. -/
def HeldRange (s : State) (c : Xctx) (va n : Nat) (a : Acc) : Prop := ∀ i < n, ∃ h, HeldAs s c (va + i) a h

/-- Every page of a range is reached for reading and for writing, and lies in hall memory, or in GDDR 7. -/
def HeldPages (s : State) (c : Xctx) (va n : Nat) (hall : Bool) : Prop :=
  ∀ p ∈ pageStarts va n,
    (∃ h, HeldAs s c p .read h) ∧ ∃ h, HeldAs s c p .write h ∧ (s.region c.part h = some .gddr ↔ hall = false)

/-- No TLB entry serves an address, and the top table of the job's one stage has no valid entry for it; or it lies above the
virtual address space (R166 to R168). -/
def Unmapped (s : State) (c : Xctx) (va : Nat) (a : Acc) : Prop :=
  2 ^ 57 ≤ va ∨
    (s.heldAt c va a = none ∧ c.asd.s2en = false ∧
      s.reachable c.part (c.asd.s1root + 8 * (va / 2 ^ 48 % 512)) = true ∧
      (s.readDword c.part (c.asd.s1root + 8 * (va / 2 ^ 48 % 512))).getLsbD 0 = false)

/-- COPY within a scratchpad ends whatever lies there: the bytes it had at commit are published in one step (R187, R379).
COPY between places in global memory that are reached, none of them hall, ends with the words it has not written yet written
(R188, R218). -/
def CopyEnds (i : Nat → Instr) : Prop :=
  (∀ cmd (s : State) m k, s.copyReady cmd = some (m, k) → k.srcS = true → k.dstS = true →
    (s.team m.wave.team).scrPoison = [] →
    let e := 2 ^ k.log2
    let n := k.count / e
    let bs := (List.range ((n - k.cursor) * e)).map fun j => m.scr0.read (k.src.toNat + k.cursor * e + j)
    exec (i cmd) s = .next
      (((if n = 0 then s else s.writeScr m.wave.team k.dst.toNat (k.shadow ++ bs)).endCmd m 0 0).settle)) ∧
  (∀ cmd (s : State) m k, s.copyReady cmd = some (m, k) → k.srcS = false → k.dstS = false → k.shadow = [] →
    let e := 2 ^ k.log2
    let n := k.count / e
    (∀ j, k.first ≤ j → j < n →
      (∃ h, HeldAs s (m.ctx) (k.src.toNat + j * e) .read h) ∧
      ∃ h, HeldAs s (m.ctx) (k.dst.toNat + j * e) .write h ∧ s.region (m.partNo) h = some .gddr) →
    ∃ bs p g u, s.copyRead m k e (n - k.first) k.first = .all bs p s ∧
      s.copyWrite m.ctx k p (List.replicate (k.first * e) 0 ++ bs) (k.words (k.first * e) (n * e)) m.sig = (g, u) ∧
      exec (i cmd) s = .next (u.endCmd m 0 g).settle)

/-- COPY from global memory to a scratchpad whose next source element is not mapped is suspended there, with its shadow
(R219). -/
def CopyFaults (i : Nat → Instr) : Prop :=
  ∀ cmd (s : State) m k, s.copyReady cmd = some (m, k) → k.srcS = false → k.dstS = true →
    k.cursor < k.count / 2 ^ k.log2 →
    let va := k.src.toNat + k.cursor * 2 ^ k.log2
    Unmapped s (m.ctx) va .read →
    exec (i cmd) s = .next ((s.modCmd cmd fun m => { m with kind := .copy k }).suspendCmd m (XErr.xlate 1 va))

/-- MMA in its turn whose operands are reached ends: its slot has its products added (R226, R228, R233). -/
def MmaEnds (i : Nat → Instr) : Prop :=
  ∀ cmd (s : State) (c : Cmd) x k fs kc rows a b, s.cmd? cmd = some c → c.kind = .mma x k fs kc rows a b →
    s.tileTurn c = true →
    let slot := (s.job c.wave.team.job).card.slots.toList.getD fs 0
    let n := operandBytes slot kc
    HeldRange s (c.ctx) a.toNat n .read → HeldRange s (c.ctx) b.toNat n .read →
    ∃ as bs, s.fetch (c.srcCtx) a.toNat n = .got as s ∧ s.fetch (c.srcCtx) b.toNat n = .got bs s ∧
      exec (i cmd) s = .next
        ((((s.setAcc ((s.accSlot c.cluster x k).mma slot kc rows as bs)).tileDone (s.jobOf c.wave).vf c.cluster x 1).endCmd
          c 0 0).settle)

/-- MMA in its turn whose first operand is not mapped is suspended with a record (R219, R226). -/
def MmaFaults (i : Nat → Instr) : Prop :=
  ∀ cmd (s : State) (c : Cmd) x k fs kc rows a b, s.cmd? cmd = some c → c.kind = .mma x k fs kc rows a b →
    s.tileTurn c = true → c.silent = false →
    operandBytes ((s.job c.wave.team.job).card.slots.toList.getD fs 0) kc ≠ 0 →
    Unmapped s (c.ctx) a.toNat .read → exec (i cmd) s = .next (s.suspendCmd c (XErr.xlate 1 a.toNat))

/-- ACCDRAIN without vectors, in its turn, whose rows are reached ends: its rows are written, its flags gathered, and its
threads go on with the acquire (R230, R231). -/
def DrainEnds (i : Nat → Instr) : Prop :=
  ∀ cmd (s : State) (c : Cmd) x k fs rows a, s.cmd? cmd = some c → c.kind = .drain x k fs rows a 0 0 →
    s.tileTurn c = true →
    let slot := (s.job c.wave.team.job).card.slots.toList.getD fs 0
    let out := fun (r : Nat) =>
      drainPieces slot (s.accSlot c.cluster x k) (s.thread c.wave (Fin.ofNat 32 (r / 2))).wid [] [] a.toNat r
    (∀ r ∈ rowsOf rows, HeldRange s (c.ctx) (a.toNat + r * drainRow slot) (drainRow slot) .write) →
    ∃ sig u, s.xputs (c.ctx) ((rowsOf rows).flatMap fun r => (out r).1) 0 = .ok (sig, u) ∧
      let v := (lanesOf rows).foldl
        (fun (s : State) l =>
          let fl := (out (2 * l.val)).2 ||| (out (2 * l.val + 1)).2
          s.setRegs c.wave l fun g => { g with fpstat := orFlags g.fpstat fl }) u
      let w := (v.acquire (v.team c.wave.team).coreNo sig).modLanes c.wave rows fun _ t => t.addSig sig
      exec (i cmd) s = .next
        (((((w.tileDone (w.jobOf c.wave).vf c.cluster x 1).endCmd c 0 0).resume c.wave rows).reimaged s c.wave rows).settle)

/-- GMV in its turn on a descriptor of one row, which is empty: 0 is written, and the token tells no error (R255, R258,
R263). -/
def GrammarEnds (i : Nat → Instr) : Prop :=
  ∀ cmd (s : State) (c : Cmd) fs a b out istride ostride trapen engine h hr ho, s.cmd? cmd = some c →
    c.kind = .grammar 1 fs a b out istride ostride trapen → c.part = none → s.gramTurn c = true → c.mem0 = s.mem →
    s.ruleEngine (c.partNo) c.cluster = some engine → a.toNat % 64 = 0 → HeldAs s (c.ctx) a.toNat .read h →
    let p := c.partNo
    let d := GDesc.decode (natLE (s.readPhys p h 64))
    let slot := (s.job c.wave.team.job).card.slots.toList.getD fs 0
    let n := gramOutBytes slot
    d.ok = true → d.csr = false → d.nrules = 0 → d.nrows = 1 → HeldAs s (c.ctx) d.rowtab .read hr →
    natLE (s.readPhys p hr 4) = 2 ^ 32 - 1 → s.linePoisoned p hr = false →
    HeldAs s (c.ctx) ((out.toNat + d.row0 * n) % 2 ^ 64) .write ho →
    exec (i cmd) s = .next
      (((s.writePhys p ho (bytesLE n (slotConvert slot (slotMode slot c.wid 0) (Fmt.f32.decode 0)).bits)).gramEnd c 0 false
        (c.sig ||| rangeSig ho n)).settle)

/-- The bin set that a descriptor holds, at an aligned address that is reached (R267). -/
def BinSetAt (s : State) (c : Cmd) (desc : Word) (b : BinSet) : Prop :=
  desc.toNat % 64 = 0 ∧ b.ok = true ∧
    ∃ h, HeldAs s (c.ctx) desc.toNat .read h ∧ b = BinSet.decode (natLE (s.readPhys (c.partNo) h 64))

/-- BINAPP of one record in its turn, to a region whose bin has room: the record and the count are written (R268, R270). -/
def BinappEnds (i : Nat → Instr) : Prop :=
  ∀ cmd (s : State) (c : Cmd) op wide l desc off v b hr hw hs, s.cmd? cmd = some c →
    c.kind = .binapp op wide [(l, desc, off, v)] → s.binTurn c = true → c.mem0 = s.mem → c.done = [] → c.drop = [] →
    c.parked = [] → (s.binEngine (c.partNo) c.cluster).isSome = true → BinSetAt s c desc b →
    let p := c.partNo
    let g := off.toNat / 2 ^ 18
    let n := natLE (s.readPhys p hr 4)
    g < b.nreg → off.toNat % (if wide then 8 else 4) = 0 → HeldAs s (c.ctx) (b.countAt g) .read hr → n < b.bcap →
    HeldAs s (c.ctx) (b.countAt g) .write hw → HeldAs s (c.ctx) (b.slotAt g n) .write hs →
    let rec_ : BinRec := { wide := wide, aop := op.code, off := off.toNat % 2 ^ 18, val := if wide then v.toNat else low32 v }
    exec (i cmd) s = .next
      ((((s.writePhys p hs (bytesLE 16 rec_.encode)).writePhys p hw (bytesLE 4 (n + 1))).endCmd c 0 0).settle)

/-- An open element of a BINAPP in its turn whose offset lies in no region, or is not aligned, is parked (R275). -/
def ElementParks (i : Nat → Nat → Instr) : Prop :=
  ∀ cmd element (s : State) (c : Cmd) op wide recs l desc off v b, s.cmd? cmd = some c → c.kind = .binapp op wide recs →
    s.binTurn c = true → (c.open_ recs.length).contains element = true → (∀ r ∈ recs, ∃ b, BinSetAt s c r.2.1 b) →
    c.mem0 = s.mem → recs[element]? = some (l, desc, off, v) → BinSetAt s c desc b →
    b.nreg ≤ off.toNat / 2 ^ 18 ∨ off.toNat % (if wide then 8 else 4) ≠ 0 →
    exec (i cmd element) s = .next (s.parkElement c element (XErr.page 0 off.toNat))

/-- BINREPLAY in its turn first starts: what is accepted later does not go before it (R271). Once it has, and is owed
nothing, and its region, bin and staging hall are reached, it ends without error. -/
def ReplayEnds (i : Nat → Instr) : Prop :=
  (∀ cmd (s : State) (c : Cmd) desc g stage, s.cmd? cmd = some c → c.kind = .binreplay desc g stage →
    s.binTurn c = true → c.started = none →
    exec (i cmd) s = .next (s.modCmd cmd fun c => { c with started := some s.nextCmd }).settle) ∧
  ∀ cmd (s : State) (c : Cmd) desc g stage b h, s.cmd? cmd = some c → c.kind = .binreplay desc g stage →
    s.binTurn c = true → c.started.isSome = true → s.cmds.any (s.owesRegion c desc g) = false →
    (s.binEngine (c.partNo) c.cluster).isSome = true → c.mem0 = s.mem → BinSetAt s c desc b → g < b.nreg →
    let x := c.ctx
    HeldPages s x stage.toNat (2 ^ 18) true → HeldRange s x stage.toNat (2 ^ 18) .write →
    HeldAs s x (b.countAt g) .read h → HeldRange s x (b.countAt g) 4 .write →
    HeldRange s x (b.slotAt g 0) (16 * natLE (s.readPhys (c.partNo) h 4)) .read →
    HeldRange s x (b.target g 0) (2 ^ 18) .read → HeldRange s x (b.target g 0) (2 ^ 18) .write →
    ∃ (u : State) (sig : Sig), exec (i cmd) s = .next (u.endCmd c 0 sig).settle ∧ u.cmds = s.cmds ∧ u.teams = s.teams

/-- A work-list instruction, none of its wave's earlier ones on the list before it, whose well-formed list is reached ends:
WLINIT and WLPUSH without a result, WLINS and WLPOPB with one for each thread that waits (R273, R274, R445). -/
def ListEnds (i : Nat → Instr) : Prop :=
  ∀ cmd (s : State) (c : Cmd) desc h, s.cmd? cmd = some c → c.listAddr = some desc → c.ticket = none →
    (∀ o ∈ s.cmds, o.wave = c.wave → o.listAddr = some desc → c.id ≤ o.id) →
    let x := c.ctx
    let w := WList.decode (natLE (s.readPhys (c.partNo) h 128))
    desc.toNat % 128 = 0 → HeldAs s x desc.toNat .read h →
    w.rsvd = 0 ∧ w.ring % 128 = 0 ∧ w.bmap % 128 = 0 ∧ w.spill % 128 = 0 ∧ isPow2 w.rcap 256 65536 = true ∧
      w.scap % 32 = 0 ∧ w.bbits % 1024 = 0 →
    HeldPages s x desc.toNat 128 true → HeldPages s x w.ring (4 * w.rcap) true → HeldPages s x w.bmap (w.bbits / 8) true →
    HeldPages s x w.spill (4 * w.scap) false →
    (c.kind = .wlinit desc → ∃ u : State, u.cmds = s.cmds ∧ u.teams = s.teams ∧
      exec (i cmd) s = .next (((u.endCmd c 0 0).resumeCmd c.wave c.lanes).settle)) ∧
    (∀ its, c.kind = .wlpush desc its → ∃ u : State, u.cmds = s.cmds ∧ u.teams = s.teams ∧
      exec (i cmd) s = .next (u.endCmd c 0 0).settle) ∧
    (∀ d, (∃ ks, c.kind = .wlins desc ks d) ∨ (∃ m, c.kind = .wlpopb desc m d) →
      ∃ (u : State) (v : Fin 32 → Word), u.cmds = s.cmds ∧ exec (i cmd) s = .next (u.listResults c d v).settle)

/-- RAYQ of a ray with a NaN, or into a tree whose root box has no child, ends with no hit (R310, R311). -/
def RayEnds (i : Nat → Instr) : Prop :=
  ∀ cmd (s : State) (c : Cmd) any cull root ray n, s.cmd? cmd = some c → c.kind = .rayq any cull root ray n →
    c.runs = true →
    (rayOf ray = .nan ∨
      ∃ r h, rayOf ray = .ray r ∧ c.mem0 = s.mem ∧ root.toNat % 128 = 0 ∧ HeldAs s (c.ctx) root.toNat .read h ∧
        s.linePoisoned (c.partNo) h = false ∧
        ∀ k < 4, natLE (((s.readPhys (c.partNo) h 128).drop (4 * (24 + k))).take 4) / 2 ^ 30 = 0) →
    exec (i cmd) s = .next (s.rayEnd c n (rayOut false none) 0).settle

/-- COLL of a group that is this device alone, whose vectors are reached, ends without error (R321, R322). -/
def CollEnds (i : Nat → List CollPeer → Instr) : Prop :=
  ∀ cmd (s : State) (c : Cmd) kind op ty desc src dst count root h hl, s.cmd? cmd = some c →
    c.kind = .coll kind op ty desc src dst count root → c.runs = true → c.mem0 = s.mem → desc.toNat % 64 = 0 →
    let x := c.ctx
    let g := Group.decode (natLE (s.readPhys (c.partNo) h 16))
    HeldAs s x desc.toNat .read h → g.nrank = 1 → g.rank = 0 → g.list % 2 = 0 → HeldAs s x g.list .read hl →
    natLE (s.readPhys (c.partNo) hl 2) = s.devNum →
    HeldRange s x src.toNat (sourceBytes kind (CollTy.bytes ty) count 1 0 root) .read →
    HeldRange s x dst.toNat (destBytes kind (CollTy.bytes ty) count 1) .write →
    ∃ (u : State) (sig : Sig), exec (i cmd []) s = .next (u.endCmd c 0 sig).settle ∧ u.cmds = s.cmds ∧ u.teams = s.teams

/-- ENQ of one card that is reached, to a queue of the device's own that is enabled and has room: the card is stored, the
tail goes on, and the thread gets 0 (R283). -/
def EnqEnds (i : Nat → Instr) : Prop :=
  ∀ cmd (s : State) (c : Cmd) d l queue a h hs, s.cmd? cmd = some c → c.kind = .enq [(l, queue, a)] d → c.mem0 = s.mem →
    let vf := (s.job c.wave.team.job).vf
    let q := s.qdesc vf queue
    let x := s.queueCtx vf q
    let card := s.readPhys (c.partNo) h 128
    queue < (s.vf vf).qcount → q.en = true → q.host = false → a.toNat % 128 = 0 →
    HeldAs s (c.ctx) a.toNat .read h → s.linePoisoned (c.partNo) h = false →
    (cardCounters q.draw (natLE card)).1 ≤ (s.vf vf).ccount → (cardCounters q.draw (natLE card)).2 ≤ (s.vf vf).ccount →
    q.count ≠ 2 ^ q.log2 → HeldAs s x (q.cardAt q.tail) .write hs →
    exec (i cmd) s = .next
      (((((s.writePhys x.part hs card).putTail vf queue ((q.tail + 1) % 2 ^ 32)).wantSlot vf queue).listResults c d
        fun _ => 0).settle)

/-- A fragment of a draw that tests depth early, with one colour for a target that holds its pixel: the pixel is blended
(R298, R309). -/
def FragmentEnds (i : Nat → Instr) : Prop :=
  ∀ draw (s : State) (d : Draw) (f : Fragment) (e : Export) h hr hw, s.draw? draw = some d → s.nextFragment d = some f →
    f.dropped = false → d.early = true → f.exports = [e] → e.tgt < 8 →
    let at_ := d.desc.targets + 16 * e.tgt
    at_ % 16 = 0 → HeldAs s d.ctx at_ .read h →
    let n := natLE (s.readPhys d.part h 16)
    let t : Target := { fmt := fld n 103 100, w := fld n 79 64 + 1, h := fld n 95 80 + 1, base := fld n 63 0 }
    let va := t.addr f.frag.x f.frag.y
    t.holds false f.frag.x f.frag.y = true → va % t.bytes = 0 → HeldAs s d.ctx va .read hr → HeldAs s d.ctx va .write hw →
    s.linePoisoned d.part (hr / 128 * 128) = false →
    let new := blendPixel (fld d.desc.pstate (9 + 2 * e.tgt) (8 + 2 * e.tgt)) t.fmt e.a (natLE (s.readPhys d.part hr t.bytes))
      (s.openWord 6 e.tgt)
    exec (i draw) s = .next ((s.writePhys d.part hw new).modDraw draw fun d =>
      { d with pending := d.pending.erase f.frag, ready := d.ready.erase f })

/-- The event of a waiting stream operation: the first waiter whose operation is of the kind and can be done is served
(R209 to R216). -/
def Serves (i : Instr) (job team : Nat) (p : WaitOp → Bool) : Prop :=
  (∀ s x, (s.team ⟨job, team⟩).readyWaiter p = some x → exec i s = .next (s.doOp x)) ∧
  ∀ s, (s.team ⟨job, team⟩).readyWaiter p = none → exec i s = .next s

/-- A management write: a frozen device answers nothing; an admitted requester's write has the register's effect and is
answered without error; any other changes nothing and is answered with the error flag (R312, R332). -/
def ManagedWrite (i : Instr) (by_ : Ident) (space index offset : Nat) (f : State → State) : Prop :=
  (∀ s, s.frozen = false → s.admits by_ space index offset false = true →
    exec i s = .next { f s with resp := some (0, false) }.settle) ∧
  (∀ s, s.frozen = false → s.admits by_ space index offset false = false →
    exec i s = .next { s with resp := some (0, true) }) ∧
  ∀ s, s.frozen = true → exec i s = .next s

/-- A management read of a register that clears when it is read. -/
def ManagedRead (i : Instr) (by_ : Ident) (space index offset : Nat) (v : State → Word) (f : State → State) : Prop :=
  (∀ s, s.frozen = false → s.admits by_ space index offset true = true →
    exec i s = .next { f s with resp := some (v s, false) }) ∧
  (∀ s, s.frozen = false → s.admits by_ space index offset true = false →
    exec i s = .next { s with resp := some (0, true) }) ∧
  ∀ s, s.frozen = true → exec i s = .next s

/-- Nothing runs on a device that has not booted (R337, R338). -/
def NothingRuns (s : State) : Prop := s.boot ≠ .done → s.jobs = [] ∧ s.teams = [] ∧ s.runs = []

end Sys2Proof.Machine
end

