-- ==== Sys2Proof/Certificates/Slice0/Obligations.lean ====
section
/-!
DEFINITION. The statements for the provers.
-/

open Sys2Proof Sys2Proof.Machine

/-! ## The ALU class

An instruction that may execute, whose enabled operands are not poisoned and which raises no flag that traps, answers a
next state: each enabled sub-element of each thread's destination is the rule's, the flags of enabled sub-elements gather
in the run, and nothing else of the run changes; where the run ends, it is committed. Where an enabled operand is
poisoned it raises POISON, and where a flag traps FPX. -/

/-- R401 to R408, R413: integer results on bit vectors, wrapped, or clamped with .sat. -/
def Obligations.IntegerArithmetic : Prop :=
  (∀ t f, (subRule t fun _ a b _ => a + b).Computes (.iadd false t f)) ∧
  (∀ t f, (subRule t fun w a b _ => clampRule t.signed w (readAs t.signed a + readAs t.signed b)).Computes (.iadd true t f)) ∧
  (∀ t f, (subRule t fun _ a b _ => a - b).Computes (.isub false t f)) ∧
  (∀ t f, (subRule t fun w a b _ => clampRule t.signed w (readAs t.signed a - readAs t.signed b)).Computes (.isub true t f)) ∧
  (∀ t f, (subRule t fun _ a b _ => a * b).Computes (.imul t f)) ∧
  (∀ t f, (subRule t fun w a b _ => BitVec.ofInt w (readAs t.signed a * readAs t.signed b / 2 ^ w)).Computes (.imulh t f)) ∧
  (∀ t f, (subRule t fun _ a b c => a * b + c).Computes (.imad t f)) ∧
  (∀ t f, (subRule t fun _ a b _ => if readAs t.signed a ≤ readAs t.signed b then a else b).Computes (.imin t f)) ∧
  (∀ t f, (subRule t fun _ a b _ => if readAs t.signed a ≥ readAs t.signed b then a else b).Computes (.imax t f)) ∧
  (∀ w f, (subRule ⟨true, w⟩ fun _ a _ _ => if a.msb then -a else a).Computes (.iabs w f)) ∧
  (∀ w f, (subRule ⟨true, w⟩ fun _ a _ _ => -a).Computes (.ineg w f)) ∧
  (∀ cc t f, (subRule t (icmpRule cc t.signed)).Computes (.icmp cc t f)) ∧
  (∀ sg k f, (subRule ⟨sg, .b64⟩ fun w a b _ => a + b * BitVec.ofNat w (2 ^ k.val)).Computes (.lea sg k f)) ∧
  (∀ t f, (subRule t fun _ a b _ => a + b).Computes (.iaddS t f)) ∧
  (∀ t f, (subRule t fun _ a b _ => a - b).Computes (.isubS t f)) ∧
  (∀ t f, (subRule t fun _ a b _ => a * b).Computes (.imulS t f)) ∧
  (∀ t f, (subRule t fun _ a b _ => if readAs t.signed a ≤ readAs t.signed b then a else b).Computes (.iminS t f)) ∧
  (∀ t f, (subRule t fun _ a b _ => if readAs t.signed a ≥ readAs t.signed b then a else b).Computes (.imaxS t f))

/-- R359, R366, R367, R372, R377, R424, R426, R434, R447: logical, shift, count and bit-field results. -/
def Obligations.IntegerBits : Prop :=
  (∀ t f, (subRule t fun _ a b _ => a &&& b).Computes (.andI t f)) ∧
  (∀ t f, (subRule t fun _ a b _ => a &&& ~~~b).Computes (.andn t f)) ∧
  (∀ t f, (subRule t fun _ a b _ => a ||| b).Computes (.orI t f)) ∧
  (∀ t f, (subRule t fun _ a b _ => a ^^^ b).Computes (.xorI t f)) ∧
  (∀ t f, (subRule t fun _ a _ _ => ~~~a).Computes (.notI t f)) ∧
  (∀ t f, (subRule t fun _ a b _ => a <<< b).Computes (.shl t f)) ∧
  (∀ t f, (subRule t fun _ a b _ => a >>> b).Computes (.shr t f)) ∧
  (∀ t f, (subRule t fun _ a b _ => a.sshiftRight b.toNat).Computes (.sar t f)) ∧
  (∀ t f, (subRule t fun _ a b _ => a.rotateLeft b.toNat).Computes (.rol t f)) ∧
  (∀ t f, (subRule t fun w a _ _ => BitVec.ofNat w ((List.range w).countP fun i => a.getLsbD i)).Computes (.popc t f)) ∧
  (∀ t f, (subRule t fun w a _ _ => BitVec.ofNat w ((List.range w).countP fun i => a.toNat < 2 ^ i)).Computes (.clz t f)) ∧
  (∀ t f, (subRule t fun _ a _ _ => a.reverse).Computes (.brev t f)) ∧
  (∀ t f, (subRule t fun w a b c => fieldRule t.signed w a b c).Computes (.bfe t f)) ∧
  (∀ t f, (subRule t fun w a b c => insertRule w a b c).Computes (.bfi t f)) ∧
  (∀ t f, (subRule t fun _ a b _ => a &&& b).Computes (.andS t f)) ∧
  (∀ t f, (subRule t fun _ a b _ => a ||| b).Computes (.orS t f)) ∧
  (∀ t f, (subRule t fun _ a b _ => a ^^^ b).Computes (.xorS t f)) ∧
  (∀ t f, (subRule t fun _ a b _ => a <<< b).Computes (.shlS t f)) ∧
  (∀ t f, (subRule t fun _ a b _ => a >>> b).Computes (.shrS t f))

/-- R127 to R130, R142, R389 to R391, R397: float arithmetic, comparison and classification. -/
def Obligations.FloatResults : Prop :=
  (∀ t f, (roundRule (.flt t) (faddF t (Mode.ofRm f.rm))).Governs (.fadd t f)) ∧
  (∀ t f, (roundRule (.flt t) (fsubF t (Mode.ofRm f.rm))).Governs (.fsub t f)) ∧
  (∀ t f, (roundRule (.flt t) (fmulF t (Mode.ofRm f.rm))).Governs (.fmul t f)) ∧
  (∀ t f, (roundRule (.flt t) (ffmaF t (Mode.ofRm f.rm))).Governs (.ffma t f)) ∧
  (∀ t f, (roundRule (.flt t) (fminF t)).Governs (.fmin t f)) ∧
  (∀ t f, (roundRule (.flt t) (fmaxF t)).Governs (.fmax t f)) ∧
  (∀ cc t f, (roundRule (.flt t) (fcmpF cc t)).Governs (.fcmp cc t f)) ∧
  (∀ t f, (roundRule (.flt t) fun a b c => ⟨fclassF t a b c, 0⟩).Computes (.fclass t f)) ∧
  (∀ t f, (roundRule (.flt t) (frndF t (Mode.ofRm f.rm))).Governs (.frnd t f)) ∧
  (∀ t f, (roundRule (.flt t) fun a b c => ⟨amaxF t a b c, 0⟩).Computes (.amax t f)) ∧
  (∀ t f, (roundRule (.flt t) (faddF t .ne)).Governs (.faddS t f)) ∧
  (∀ t f, (roundRule (.flt t) (fsubF t .ne)).Governs (.fsubS t f)) ∧
  (∀ t f, (roundRule (.flt t) (fmulF t .ne)).Governs (.fmulS t f)) ∧
  (∀ t f, (roundRule (.flt t) (fminF t)).Governs (.fminS t f)) ∧
  (∀ t f, (roundRule (.flt t) (fmaxF t)).Governs (.fmaxS t f))

/-- R148, R392: the nine functions. -/
def Obligations.Transcendentals : Prop :=
  (∀ t f, (roundRule (.flt t.fty) (transcF .rcp t (Mode.ofRm f.rm))).Governs (.frcp t f)) ∧
  (∀ t f, (roundRule (.flt t.fty) (transcF .rsq t (Mode.ofRm f.rm))).Governs (.frsq t f)) ∧
  (∀ t f, (roundRule (.flt t.fty) (transcF .sqrt t (Mode.ofRm f.rm))).Governs (.fsqrt t f)) ∧
  (∀ t f, (roundRule (.flt t.fty) (transcF .exp2 t (Mode.ofRm f.rm))).Governs (.fexp2 t f)) ∧
  (∀ t f, (roundRule (.flt t.fty) (transcF .log2 t (Mode.ofRm f.rm))).Governs (.flog2 t f)) ∧
  (∀ t f, (roundRule (.flt t.fty) (transcF .sin t (Mode.ofRm f.rm))).Governs (.fsin t f)) ∧
  (∀ t f, (roundRule (.flt t.fty) (transcF .cos t (Mode.ofRm f.rm))).Governs (.fcos t f)) ∧
  (∀ t f, (roundRule (.flt t.fty) (transcF .tanh t (Mode.ofRm f.rm))).Governs (.ftanh t f)) ∧
  (∀ t f, (roundRule (.flt t.fty) (transcF .sigm t (Mode.ofRm f.rm))).Governs (.fsigm t f))

/-- R71, R417 to R420, R425, R436: moves, SEL and PERM; a move carries poison and consumes none (R194). -/
def Obligations.MovesAndSelection : Prop :=
  (∀ t f, (selRule t).Computes (.sel t f)) ∧
  (∀ t f, (permRule t).Computes (.perm t f)) ∧
  (∀ t f, (copyRule t).Completes (.mov t f)) ∧
  (∀ f, (copyRule tyW64).Completes (.movS f)) ∧
  (∀ k w f, (movmRule k false w).Computes (.movm k false w f)) ∧
  (∀ k w f, (movmRule k true w).Completes (.movm k true w f)) ∧
  (∀ code f, (movsRule code).Completes (.movs code f))

/-- R415, R431, R435, R442: RED, SCAN, VOTE and MATCH over the issue group. -/
def Obligations.GroupResults : Prop :=
  (∀ op t f, (reduceRule op t (Mode.ofRm f.rm)).Governs (.red op t f)) ∧
  (∀ op excl t f, (scanRule op excl t (Mode.ofRm f.rm)).Governs (.scan op excl t f)) ∧
  (∀ fn f, (voteRule fn).Computes (.vote fn f)) ∧
  (∀ t f, (matchRule t).Computes (.matchI t f))

/-- R134, R143 to R145, R370, R381, R427: conversions, quantisation and bit planes. -/
def Obligations.Conversions : Prop :=
  (∀ dst src p f, (cvtRule dst src p.val (Mode.ofRm f.rm)).Governs (.cvt dst src p f)) ∧
  (∀ fs f, (qscaleRule fs).Governs (.qscale fs f)) ∧
  (∀ fs f, (qpackRule fs).Governs (.qpack fs f)) ∧
  (∀ fs f, (qunpackRule fs).Governs (.qunpack fs f)) ∧
  (∀ fs f, (bpsplitRule fs).Governs (.bpsplit fs f)) ∧
  (∀ fs f, (bpjoinRule fs).Computes (.bpjoin fs f))

/-- R24, R29, R31, R49, R53: the frame of the instructions of the ALU class. While its run goes on, such an instruction
changes no byte of memory and of no scratchpad, no committed register, program counter or status of a thread, and no lane
outside its group; of the rest of the machine it changes nothing at all, every counter and every device register included,
but for lines of the caches that a token's acquire invalidates. In a lane of its group it changes what its rule writes: the
destination, or the mask that MOVM names, and no other register. -/
def Obligations.ResultFrame : Prop :=
  (∀ (i : Instr) (g : AluRule) (s : State) (r : Run) (sh : Shape), aluRule i = some g → Ready s i r sh →
    g.Clean (s.tokenReads r sh) r sh → s.endsHere r sh = false →
    ∃ t q, exec i s = .next t ∧ t.runs = q :: s.runs.tail ∧ q.wave = r.wave ∧ q.group = r.group ∧ q.stores = r.stores ∧
      q.fence = r.fence ∧ q.pc = r.next sh ∧
      (∀ a, t.mem.read a = s.mem.read a) ∧ (∀ k, (t.team k).scr = (s.team k).scr) ∧
      (∀ w l, (t.thread w l).regs = (s.thread w l).regs ∧ (t.thread w l).pc = (s.thread w l).pc ∧
        (t.thread w l).status = (s.thread w l).status) ∧
      t = { s with runs := t.runs, teams := t.teams, l1 := t.l1, ccache := t.ccache } ∧
      (∀ l : Fin 32, LaneMask.has r.group l = false → q.spec[l] = r.spec[l] ∧ q.flags[l] = r.flags[l]) ∧
      ∀ l : Fin 32, LaneMask.has r.group l = true → q.spec[l] = g.put (s.tokenReads r sh) r sh l r.spec[l]) ∧
  (∀ (i : Instr) (g : AluRule), aluRule i = some g → (match i with | .movm _ false .. => False | _ => True) → g.OnlyDst) ∧
  ∀ (k : Fin 8) (w : Width) (s : State) (r : Run) (sh : Shape) (l : Fin 32) (regs : Regs),
    let x := (movmRule k false w).put s r sh l regs
    x = { regs with m := x.m } ∧ ∀ j : Fin 8, j ≠ k → x.m[j] = regs.m[j]

/-! ## The MEM class -/

/-- R82, R193, R319, R409 to R412: the loads, in every case. -/
def Obligations.Loads : Prop :=
  (∀ f, (⟨.glob, .l1 f.ch, f.w, f.off⟩ : LoadForm).Governs (.ld f)) ∧
  (∀ f, (⟨.glob, .home, f.w, f.off⟩ : LoadForm).Governs (.lda f)) ∧
  (∀ f, (⟨.const, .cc, f.w, f.off⟩ : LoadForm).Governs (.ldc f)) ∧
  (∀ f, (⟨.scr, .scr, f.w, f.off⟩ : LoadForm).Governs (.lds f)) ∧
  (∀ f, (⟨.peer, .scr, f.w, f.off⟩ : LoadForm).Governs (.ldx f)) ∧
  (∀ f, (⟨.glob, .l1 false, .b64, 0⟩ : LoadForm).Governs (.ldS64 f)) ∧
  (∀ f, (⟨.glob, .l1 false, .b32, 0⟩ : LoadForm).Governs (.ldS32 f)) ∧
  (∀ f, (⟨.scr, .scr, .b64, 0⟩ : LoadForm).Governs (.ldsS64 f)) ∧
  (∀ f, (⟨.scr, .scr, .b32, 0⟩ : LoadForm).Governs (.ldsS32 f)) ∧
  (∀ f, (⟨.glob, .l1 f.ch, f.w, f.off⟩ : LoadForm).Awaits (.ld f)) ∧
  (∀ f, (⟨.glob, .home, f.w, f.off⟩ : LoadForm).Awaits (.lda f)) ∧
  (∀ f, (⟨.const, .cc, f.w, f.off⟩ : LoadForm).Awaits (.ldc f)) ∧
  (∀ f, (⟨.glob, .l1 false, .b64, 0⟩ : LoadForm).Awaits (.ldS64 f)) ∧
  (∀ f, (⟨.glob, .l1 false, .b32, 0⟩ : LoadForm).Awaits (.ldS32 f))

/-- R31, R193, R303, R438: the stores, in every case. -/
def Obligations.Stores : Prop :=
  (∀ f, (⟨.glob, .plain, f.w, f.off⟩ : StoreForm).Governs (.st f)) ∧
  (∀ f, (⟨.glob, .marked, f.w, f.off⟩ : StoreForm).Governs (.stl f)) ∧
  (∀ f, (⟨.scr, .plain, f.w, f.off⟩ : StoreForm).Governs (.sts f)) ∧
  (∀ f, (⟨.peer, .plain, f.w, f.off⟩ : StoreForm).Governs (.stx f)) ∧
  (∀ f, (⟨.glob, .plain, .b64, 0⟩ : StoreForm).Governs (.stS64 f)) ∧
  (∀ f, (⟨.glob, .plain, .b32, 0⟩ : StoreForm).Governs (.stS32 f)) ∧
  (∀ f, (⟨.scr, .plain, .b64, 0⟩ : StoreForm).Governs (.stsS64 f)) ∧
  (∀ f, (⟨.scr, .plain, .b32, 0⟩ : StoreForm).Governs (.stsS32 f))

/-- R179, R184, R193, R303, R362, R394: ATOM and ATOMS, in every case; FENCE marks its run with the threads that take part,
and the fence is made at the run's commit. -/
def Obligations.AtomicsAndFence : Prop :=
  (∀ op ord f, AtomGoverns .glob op ord f (.atom op ord f)) ∧
  (∀ op ord f, AtomGoverns .scr op ord f (.atoms op ord f)) ∧
  ∀ (f : Mem) (s : State) (r : Run) (sh : Shape), Ready s (.fence f) r sh → FallsWell s (s.tokenReads r sh) r sh →
    exec (.fence f) s = .next (s.afterPlain [] r sh (s.tokenReads r sh) { r with fence := r.fence ||| r.active sh })

/-! ## The ENG and MAT classes -/

/-- R222 to R230: MMA. A fresh slot is the one that its run has reserved, or the lowest-numbered free one; where only the
queue has no room, the run waits with its slot reserved (R224). With no such slot and every slot of the context held by the
team itself, MMA raises ACCSLOTS; with none otherwise it waits. -/
def Obligations.MmaCommand : Prop :=
  ∀ (f : Mat),
    let ready := fun (s : State) (r : Run) (sh : Shape) (x : Nat) =>
      s.actors r sh ≠ 0 ∧ mmaChecks f s r sh = [] ∧ s.mmaCtx r.wave.team = some x
    let room := fun (s : State) (r : Run) (x : Nat) => (s.tileQueue (s.team r.wave.team).cluster x).length < 16
    let handle := fun (s : State) (r : Run) (sh : Shape) => (handleOf r f.s (lowestLane (s.actors r sh))).bits
    let free := fun (s : State) (r : Run) (x : Nat) => s.slotFor r (s.team r.wave.team).cluster x
    Commits (.mma f) engTys (fun s r sh => s.actors r sh = 0) (fun _ _ _ t q => t.goOnRun q) ∧
    (∀ x, Commits (.mma f) engTys (fun s r sh => ready s r sh x ∧ room s r x ∧ handleValid (handle s r sh) = true)
      (fun s r sh => mmaEffect f x (handleSlot (handle s r sh)) false s r sh)) ∧
    (∀ x k, Commits (.mma f) engTys
      (fun s r sh => ready s r sh x ∧ room s r x ∧ handleValid (handle s r sh) = false ∧ free s r x = some k)
      (mmaEffect f x k true)) ∧
    (∀ x k (s : State) (r : Run) (sh : Shape), Ready s (.mma f) r sh →
      let u := s.tokenReads r sh
      ready u r sh x → ¬room u r x → handleValid (handle u r sh) = false → free u r x = some k →
      exec (.mma f) s = .next (u.putRun { r with reserve := some (x, k), suspended := true })) ∧
    Raises (.mma f) (fun s r sh e => s.actors r sh ≠ 0 ∧ firstExc (mmaChecks f s r sh) = some e) ∧
    (∀ x, Raises (.mma f) (fun s r sh e =>
      ready s r sh x ∧ handleValid (handle s r sh) = false ∧ free s r x = none ∧
        s.holdsAll r.wave.team (s.team r.wave.team).cluster x = true ∧
        e = { code := Code.accSlots, sub := x, lanes := laneBit (lowestLane (s.actors r sh)) })) ∧
    Waits (.mma f) (fun s r sh => s.actors r sh ≠ 0 ∧ mmaChecks f s r sh = [] ∧
      (s.mmaCtx r.wave.team = none ∨ ∃ x, s.mmaCtx r.wave.team = some x ∧
        (¬room s r x ∧ handleValid (handle s r sh) = true ∨
          handleValid (handle s r sh) = false ∧ free s r x = none ∧
            s.holdsAll r.wave.team (s.team r.wave.team).cluster x = false)))

/-- R222, R223, R227 to R230: ACCDRAIN, ACCREL and ACCLOAD. -/
def Obligations.AccumulatorCommands : Prop :=
  (∀ f, DrainGoverns f (.accdrain f)) ∧
  (∀ f, (accrelForm f).Queues [] (.accrel f)) ∧
  (∀ (f : Mat) (s : State) (r : Run) (sh : Shape), Ready s (.accload f) r sh →
    accloadChecks f (s.tokenReads r sh) r sh = [] → accloadBusy f (s.tokenReads r sh) r sh = false →
    (accloadRule f).Clean (s.tokenReads r sh) r sh → FallsWell s (s.tokenReads r sh) r sh →
    exec (.accload f) s = .next (s.afterPlain [tyW64] r sh (s.tokenReads r sh) ((accloadRule f).run (s.tokenReads r sh) r sh))) ∧
  (∀ f, Raises (.accload f) (fun s r sh e => firstExc (accloadChecks f s r sh) = some e)) ∧
  (∀ f, Waits (.accload f) (fun s r sh => accloadChecks f s r sh = [] ∧ accloadBusy f s r sh = true))

/-- R239 to R245, R421, R422, R443: NCALL and the control instructions of the Belfry and the Carillon. -/
def Obligations.NeuralCommands : Prop :=
  (∀ kin mout f, (ncallForm kin mout f).Queues [tyW64] (.ncall kin mout f)) ∧
  (∀ f, (neuralForm true false (flush false)).Governs [tyW64] (.nflush false f)) ∧
  (∀ f, (neuralForm false false (flush true)).Runs [tyW64] (.nflush true f)) ∧
  (∀ f, wbindForm.Governs engTys (.wbind f)) ∧
  (∀ f, (neuralForm true true pin).Governs [tyW64] (.wpin f)) ∧
  (∀ f, (neuralForm true true unpin).Governs [tyW64] (.wunpin f)) ∧
  (∀ f, (neuralForm true false prefetch).Governs [tyW64] (.wpref f))

/-- R256, R257, R264, R398: GMV and GMM. -/
def Obligations.GrammarCommands : Prop :=
  (∀ fs f, (grammarForm 1 fs f).Queues engTys (.gmv fs f)) ∧
  (∀ v fs f, (grammarForm (v.val + 1) fs f).Queues engTys (.gmm v fs f))

/-- R267 to R277, R368, R369, R400, R444, R445: bins, work-lists and HASHB. -/
def Obligations.IrregularCommands : Prop :=
  (∀ op wide f, (binappForm op wide ((f.n.map Fin.val).getD 0)).Queues engTys (.binapp op wide f)) ∧
  (∀ f, (binreplayForm (f.t.reg.headD 0) ((f.n.map Fin.val).getD 0)).Queues engTys (.binreplay f)) ∧
  (∀ f, (listForm true false false .void fun a _ _ => .wlinit a).Governs engTys (.wlinit f)) ∧
  (∀ f, (listForm false true true .void fun a its _ => .wlpush a its).Governs engTys (.wlpush f)) ∧
  (∀ f, (listForm true false true f.t fun a its _ => .wlins a its f.t).Governs engTys (.wlins f)) ∧
  (∀ f, (listForm true false false f.t fun a _ m => .wlpopb a m f.t).Governs engTys (.wlpopb f)) ∧
  (∀ kin proj f, (hashbRule kin proj ((f.n.map Fin.val).getD 0)).Computes (.hashb kin proj f))

/-- R283, R287, R290, R382, R383, R386: ENQ, DEPDEC and DEPSET, and DEAL, whose participating threads all get the next
records of the job and their number. -/
def Obligations.SchedulerCommands : Prop :=
  (∀ f, (enqForm f.t).Governs engTys (.enq f)) ∧
  (∀ set f, (depdecForm set).Governs engTys (.depdec set f)) ∧
  (∀ f, Commits (.deal f) [] (fun s r sh => s.actors r sh = 0)
    (fun s r sh t q => (t.putIdle q.wave (q.group &&& ~~~(s.actors r sh)) f.t).goOnRun q)) ∧
  (∀ f, Commits (.deal f) [] (fun s r sh => s.actors r sh ≠ 0)
    (fun s r sh t q =>
      let act := s.actors r sh
      let j := s.jobOf r.wave
      let size := dealSize j.card.cmin (j.card.nrec.toNat - j.nextRec) (s.dealTeams j.id)
      let t := (t.putIdle q.wave (q.group &&& ~~~act) f.t).modJob j.id fun k => { k with nextRec := j.nextRec + size }
      ((lanesOf act).foldl
        (fun t l => t.setRegs q.wave l fun g => g.put f.t .b64 0xFF ⟨w64 (j.nextRec + size * 2 ^ 32), 0⟩) t).goOnRun q))

/-- R304 to R307, R363, R439: TEX, TEXG and ATTR. -/
def Obligations.TextureResults : Prop :=
  (∀ lod f, SampleGoverns lod false f.n f.t texResult (.tex lod f)) ∧
  (∀ lod ch f, SampleGoverns lod true f.n f.t (fun _ => texgResult ch) (.texg lod ch f)) ∧
  (∀ (f : Eng) (s : State) (r : Run) (sh : Shape), Ready s (.attr f) r sh →
    let u := s.tokenReads r sh
    let words := fun (l : Fin 32) => u.loadAll r l .scr .scr ((List.range 3).map fun k =>
      (u.engArg r sh 0 l, (u.engArg r sh 0 l).bits + w64 (8 * k), 8))
    (∀ l, LaneMask.has (r.active sh) l = true →
      (u.engArg r sh 0 l).bits.toNat % 16 = 0 ∧
      (u.engArg r sh 0 l).bits.toNat + 32 ≤ (u.team r.wave.team).scrSize ∧
      (u.argAs r sh tyF32 1 l).bad = false ∧ ∃ ws t, words l = .ok (ws, t)) →
    let out := fun (l : Fin 32) => if LaneMask.has (r.active sh) l then attrOut u u r sh l else []
    let flags := fun (l : Fin 32) => (out l).foldl (fun a x => a ||| x.flags) 0
    NoFpx r false flags → FallsWell s u r sh →
    exec (.attr f) s = .next (s.afterPlain attrTys r sh u (r.write flags fun l regs =>
      regs.putThread f.t (LaneMask.has (r.active sh) l) ⟨w64 (packN 32 ((out l).map fun x => x.bits)), 0⟩)))

/-- R303, R308, R384, R388: EXPORT records a value in each participating thread that is no helper; DISCARD makes its
threads helpers, without exports. -/
def Obligations.PixelCommands : Prop :=
  (∀ tgt depth f, Commits (.exportV tgt depth f) (exportTys tgt) (fun s r sh => s.engPoison r sh (s.actors r sh) [] = [])
    (fun s r sh t q =>
      (t.modLanes q.wave (s.actors r sh) fun l th =>
        recordExport
          { tgt := tgt.val, a := (s.argAs r sh ((exportTys tgt).headD tyF32) 0 l).bits,
            b := (s.argAs r sh tyF32 1 l).bits, depth := depth } th).goOnRun q)) ∧
  (∀ tgt depth f, Raises (.exportV tgt depth f) (fun s r sh e => firstExc (s.engPoison r sh (s.actors r sh) []) = some e)) ∧
  (∀ f, Commits (.discard f) [] (fun _ _ _ => True)
    (fun _ r sh t q =>
      (t.modLanes q.wave (r.active sh) fun _ th => { th with helper := true, exports := [] }).goOnRun q))

/-- R217, R218, R310, R311, R321, R322, R378, R379, R429: COPY, RAYQ and COLL. -/
def Obligations.CopyRayAndCollectiveCommands : Prop :=
  (∀ lg srcS dstS f,
    (copyForm lg srcS dstS (f.t.reg.headD 0) ((f.n.map Fin.val).getD 0)).Queues engTys (.copy lg srcS dstS f)) ∧
  (∀ any cull f, (rayqForm any cull (f.t.reg.headD 0) ((f.n.map Fin.val).getD 0)).Governs engTys (.rayq any cull f)) ∧
  (∀ kind op ty f,
    (collForm kind op ty (f.t.reg.headD 0) ((f.n.map Fin.val).getD 0)).Governs engTys (.coll kind op ty f))

/-- R209, R212 to R216, R385, R428, R430, R437: the instructions that act with the stream engine. -/
def Obligations.StreamEngineCommands : Prop :=
  (∀ f, (onceForm (fun s r sh => s.engageExcs r sh (lowestLane (s.actors r sh))) true fun s r sh t q =>
    let (seq, t) := t.takeSeq q.wave
    let l := lowestLane (s.actors r sh)
    (.engage (s.engArg r sh 0 l).bits (s.engArg r sh 1 l).bits seq, t)).Governs engTys (.engage f)) ∧
  (∀ f, (onceForm (fun _ _ _ => []) false fun _ _ _ t _ => (.rdv, t)).Runs engTys (.rdv f)) ∧
  (∀ k f, (onceForm (fun s r sh => s.countExc r sh (lowestLane (s.actors r sh))) true fun s r sh t _ =>
    (.sig k (count16 (s.engArg r sh 0 (lowestLane (s.actors r sh))).bits), t)).Governs engTys (.semsig k f)) ∧
  (∀ k f, (onceForm (fun s r sh => s.countExc r sh (lowestLane (s.actors r sh))) true fun s r sh t _ =>
    (.sem k (count16 (s.engArg r sh 0 (lowestLane (s.actors r sh))).bits), t)).Governs engTys (.semwait k f)) ∧
  (∀ k f, Commits (.qpop k f) engTys (fun _ _ _ => True)
    (fun s r sh t q => t.startOp q (s.actors r sh) r.pc (.pop k f.t) true)) ∧
  (∀ k f, Commits (.qpush k f) engTys (fun _ _ _ => True)
    (fun s r sh t q => t.startOp q (s.actors r sh) r.pc
      (.push k (lanesAll.map fun l => if LaneMask.has (s.actors r sh) l then s.engArg r sh 0 l else Val.zero)) true))

/-! ## The CTL class -/

/-- R35, R45, R46, R171, R193, R371, R374, R375, R414, R432: transfers. Each thread of the group goes to its own target;
CALL puts the return address into its destination, LSETUP arms its loop register. The target of a conditional BRA is
checked where no thread takes it, too. -/
def Obligations.Transfers : Prop :=
  (∀ c f, (braForm c f).Governs (.bra c f)) ∧ (∀ f, ∀ i ∈ [Instr.brx f, .ret f], indirectForm.Governs i) ∧
  (∀ f, (callForm f).Governs (.call f)) ∧ ∀ k len2 f, (lsetupForm k len2 f).Governs (.lsetup k len2 f)

/-- R35, R199, R433: RFT, once the headers of the blocks it returns into are fetched, returns every thread of its group from
its handler, or raises the first fault; R192, R440: TRAP commits its run and then raises TRAP with its code. -/
def Obligations.TrapAndReturn : Prop :=
  (∀ (skip e : Bool) (s : State) (r : Run) (sh : Shape), Ready s (.rft skip e) r sh →
    let u := s.tokenReads r sh
    let cs := u.rftChecks r skip
    let v := u.fetched r.wave (cs.map fun c => c.2.1)
    (HeadersAt v r cs →
      exec (.rft skip e) s = .next (s.afterLeave [] r sh v r fun t q => t.returnFrom q.wave q.group q.blk skip)) ∧
    ∀ x, firstExc (v.targetExcs r.wave cs) = some x →
      exec (.rft skip e) s = .next (v.raiseRun r { x with enc := encode (.rft skip e) })) ∧
  (∀ (code : BitVec 16) (e : Bool) (s : State) (r : Run) (sh : Shape), Ready s (.trap code e) r sh →
    exec (.trap code e) s = .next (s.afterLeave [] r sh (s.tokenReads r sh) r fun t q =>
      t.raise q.wave q.group r.pc (r.next sh) q.blk
        { code := Code.trap, sub := code.toNat, lanes := q.group, enc := encode (.trap code e) }))

/-- R26, R39, R42 to R44, R48, R289, R293, R365, R376, R387, R395, R396, R423, R441, R446, R448: the instructions by which
threads end, are created, wait for each other and yield. -/
def Obligations.ThreadsAndBarriers : Prop :=
  (∀ (e : Bool) (s : State) (r : Run) (sh : Shape), Ready s (.exit e) r sh →
    exec (.exit e) s = .next (s.afterLeave [] r sh (s.tokenReads r sh) r fun t q => t.exitThreads q.wave q.group)) ∧
  (∀ f (s : State) (r : Run) (sh : Shape), Ready s (.fork f) r sh →
    let u := s.tokenReads r sh
    let target := targetOf r.pc f.off f.lit
    let hs := forkChecks r sh target
    let v := u.fetched r.wave (hs.map fun h => h.2.1)
    (HeadersAt v r hs → (∀ l, LaneMask.has r.group l = true → ((u.laneIn r sh [tyW64] l).ops.getD 0 Val.zero).bad = false) →
      FallsWell s v r sh →
      exec (.fork f) s = .next (s.afterOwn [tyW64] r sh v r fun t q =>
        let ok := t.canFork q.wave q.group
        let t := if ok then t.forkWave q.wave q.group target fun l => (u.laneIn r sh [tyW64] l).a else t
        ((lanesOf q.group).foldl
          (fun t l => t.setRegs q.wave l fun g => g.put sh.dst .b64 0xFF ⟨if ok then 1 else 0, 0⟩) t).goOnRun q)) ∧
    ∀ e, v.transferExc r.wave hs [] (forkPoison u r sh) = some e →
      exec (.fork f) s = .next (v.raiseRun r { e with enc := encode (.fork f) })) ∧
  (∀ e, Commits (.fjoin e) [] (fun _ _ _ => True)
    (fun _ r _ t q =>
      if (t.wave q.wave).joins = 0 then (t.joinDone q.wave).goOnRun q else t.waitAt q.wave q.group r.pc q.pc .fjoin)) ∧
  (∀ e, Commits (.bar e) [] (fun _ _ _ => True)
    (fun _ r _ => arrive (fun sig t q => t.modTeam q.wave.team fun u =>
      { u with barSig := u.barSig ||| sig, barCut := (t.nextCmd, u.arrivals) }) .bar r.pc)) ∧
  (∀ hold e, Commits (.cbar hold e) [] (fun _ _ _ => True)
    (fun _ r _ => arrive (fun sig t q => t.modTeam q.wave.team fun u =>
      { u with
        cbarSig := u.cbarSig ||| sig, cbarAsked := u.cbarAsked || hold, cbarCut := (t.nextCmd, u.arrivals) })
      .cbar r.pc)) ∧
  (∀ f, Commits (.wsync f) [tyW64]
    (fun s r sh => ∀ l, LaneMask.has r.group l = true →
      ((s.laneIn r sh [tyW64] l).ops.getD 0 Val.zero).poisoned .b32 1 = false)
    (fun s r sh t _ => (lanesOf r.group).foldl
      (fun t l => t.waitAt r.wave (laneBit l) r.pc (r.next sh)
        (.wsync (w32 (low32 (s.laneIn r sh [tyW64] l).a) ||| laneBit l))) t)) ∧
  (∀ e, Commits (.yield e) [] (fun _ _ _ => True)
    (fun _ _ _ t q =>
      (t.goOnRun q).modLanes q.wave q.group fun _ th => { th with since := t.now, yielded := true })) ∧
  (∀ e, Commits (.trig e) [] (fun _ _ _ => True)
    (fun _ _ _ t q =>
      let (sig, t) := t.takeSig q.wave q.group
      ((t.modJob q.wave.team.job fun j => { j with trigSig := j.trigSig ||| sig }).modLanes q.wave q.group
        fun _ th => { th with trig := true }).goOnRun q))

/-- R326, R373, R423: NOP and NOP.S only advance, and so does BRK while breakpoints are off, or where each thread of its
group is in the one run that passes them; else BRK stops the threads of the group that are not (log 35). -/
def Obligations.NopAndBreakpoint : Prop :=
  (∀ (e : Bool) (s : State) (r : Run) (sh : Shape), ∀ i ∈ [Instr.nop e, .nopS e], Ready s i r sh →
    FallsWell s (s.tokenReads r sh) r sh → exec i s = .next (s.afterPlain [] r sh (s.tokenReads r sh) r)) ∧
  (∀ (code : BitVec 16) (e : Bool) (s : State) (r : Run) (sh : Shape), Ready s (.brk code e) r sh →
    let u := s.tokenReads r sh
    let m := u.stoppable r.wave r.group
    let stops := (u.vf (u.jobOf r.wave).vf).dbgctl.getLsbD 0 = true ∧ m ≠ 0
    (∀ l : Fin 32, LaneMask.has m l = true ↔ LaneMask.has r.group l = true ∧ (u.thread r.wave l).pass = false) ∧
    (¬stops → FallsWell s u r sh → exec (.brk code e) s = .next (s.afterPlain [] r sh u r)) ∧
    (stops → exec (.brk code e) s = .next (u.debugStop r.wave m r.start code.toNat (encode (.brk code e)))))

/-- R129, R192, R262, R380, R399: CSRR reads a control register as committed, CSRW writes one at commit, and both raise
PRIV for a system register; HALT raises PRIV in every thread. -/
def Obligations.ControlRegisters : Prop :=
  (∀ (num : BitVec 12) (e : Bool) (d : Dst) (s : State) (r : Run) (sh : Shape), ¬systemReg num →
    Ready s (.csrr num e d) r sh → FallsWell s (s.tokenReads r sh) r sh →
    exec (.csrr num e d) s = .next (s.afterPlain [] r sh (s.tokenReads r sh)
      (r.write (fun _ => 0) fun l g => g.put sh.dst .b64 0xFF
        ⟨(csrRead ((s.tokenReads r sh).thread r.wave l).regs num.toNat).zeroExtend 64, 0⟩))) ∧
  (∀ num f, ¬systemReg num → Commits (.csrw num f) [tyW64] CleanLow
    (fun s r sh t q => ((lanesOf q.group).foldl
      (fun t l => t.setRegs q.wave l fun g =>
        csrWrite g num.toNat (w32 (low32 (s.laneIn r sh [tyW64] l).a))) t).goOnRun q)) ∧
  (∀ num e d, systemReg num → Raises (.csrr num e d) (fun _ r _ x =>
    x = { code := Code.priv, sub := num.toNat, lanes := r.group })) ∧
  (∀ num f, systemReg num → Raises (.csrw num f) (fun _ r _ x =>
    x = { code := Code.priv, sub := num.toNat, lanes := r.group })) ∧
  (∀ e, Raises (.halt e) (fun _ r _ x => x = { code := Code.priv, sub := 0, lanes := r.group }))

/-! ## Stream programs -/

/-- R347, R352, R357, R361: AADD, AMOV and ACMP, whose comparison is unsigned, give their register a value; ASIG adds to a
semaphore, up to 65,535, what the program has written since its last release. -/
def Obligations.StreamRegisters : Prop :=
  (∀ f, StrSets (.amov false f) f fun x => x.src f.a f.lit) ∧
  (∀ f, StrSets (.amov true f) f fun x =>
    (x.src f.a f.lit).extractLsb' 0 32 ++ (x.dest f.d).extractLsb' 0 32) ∧
  (∀ f, StrSets (.aadd f) f fun x => x.src f.a f.lit + x.src f.b f.lit) ∧
  (∀ cc f, StrSets (.acmp cc f) f fun x => acmpRule cc (x.src f.a f.lit) (x.src f.b f.lit)) ∧
  (∀ (k : Fin 8) (f : Str) (s : State) (t : TeamId) (u : Team), StrReady s (.asig k f) t u →
    exec (.asig k f) s = .next (((s.strAt t u).modTeam t fun v =>
      { v with
        sem := v.sem.set k (min (v.sem[k] + (u.stream.src f.a f.lit).toNat % 2 ^ 16) 65535),
        semSig := v.semSig.set k (v.semSig[k] ||| v.stream.sig) }).strDone t u f.lit))

/-- R348, R354, R355, R364: ABR, ALOOP, AWAIT and AHALT. ABR whose target, and ALOOP whose start or end, holds no header
faults with BADTARGET; that ABR checks a target it does not go to is the model's reading (log 66). AWAIT takes its count
with an acquire, or makes the program wait in arrival order. -/
def Obligations.StreamControl : Prop :=
  (∀ c f (s v : State) (t : TeamId) (u : Team) header, StrReady s (.abr c f) t u →
    StrTarget (s.strAt t u) t (strTarget u.stream.pc f) v header →
    (header = true → StrTaken c (u.stream.src f.a f.lit) →
      exec (.abr c f) s = .next (v.strJump t (strTarget u.stream.pc f))) ∧
    (header = true → ¬StrTaken c (u.stream.src f.a f.lit) → exec (.abr c f) s = .next (v.strDone t u f.lit)) ∧
    (header = false → exec (.abr c f) s = .next (v.strFault t Code.badTarget 0))) ∧
  (∀ (k : Fin 4) len2 f (s v w : State) (t : TeamId) (u : Team) first second, StrReady s (.aloop k len2 f) t u →
    let start := strTarget u.stream.pc f
    let stop := wordsAfter start (len2.zeroExtend 64)
    let n := low32 (u.stream.src f.a f.lit)
    StrTarget (s.strAt t u) t start v first →
    (first = false → exec (.aloop k len2 f) s = .next (v.strFault t Code.badTarget 0)) ∧
    (first = true → StrTarget v t stop w second →
      (second = false → exec (.aloop k len2 f) s = .next (w.strFault t Code.badTarget 0)) ∧
      (second = true → exec (.aloop k len2 f) s = .next
        ((w.modStream t fun x =>
          { x with loops := x.loops.set k ⟨start, stop, w32 n, decide (n ≠ 0)⟩ }).strJump t (if n = 0 then stop else start))))) ∧
  (∀ (k : Fin 8) (f : Str) (s : State) (t : TeamId) (u : Team), StrReady s (.await k f) t u →
    let n := (u.stream.src f.a f.lit).toNat % 2 ^ 16
    let may := n = 0 ∨ n ≤ u.sem[k] ∧ ∀ y ∈ u.waiters, ¬(y.order < u.arrivals ∧ y.op.line = k.val)
    (may → exec (.await k f) s = .next
      ((((s.strAt t u).modTeam t fun v => { v with sem := v.sem.set k (v.sem[k] - n) }).acquire u.coreNo u.semSig[k]).strDone
        t u f.lit)) ∧
    (¬may → exec (.await k f) s = .next ((s.strAt t u).modTeam t fun v =>
      { v with
        stream := { v.stream with st := .awaiting v.arrivals k n }, arrivals := v.arrivals + 1 }))) ∧
  (∀ f (s : State) (t : TeamId) (u : Team), StrReady s (.ahalt f) t u →
    exec (.ahalt f) s = .next ((s.strAt t u).modStream t fun x => { x.fresh with st := .idle }).settle)

/-- R211, R212, R275, R353, R358, R360: AMOVE, AGATHER and ASCATTER. A length of 0 moves nothing; an address of no space is
ILLEGAL, a misaligned one ALIGN, and AMOVE past the scratchpad PROT; else what can be moved now is, and the program goes
on, waits at a queue or for an answer, or is suspended. -/
def Obligations.StreamMoves : Prop :=
  (∀ f (s : State) (t : TeamId) (u : Team), StrReady s (.amove f) t u → u.stream.dest f.d = 0 →
    exec (.amove f) s = .next ((s.strAt t u).strDone t u f.lit)) ∧
  (∀ f,
    let src := fun (u : Team) => SAddr.of (u.stream.src f.a f.lit)
    let dst := fun (u : Team) => SAddr.of (u.stream.src f.b f.lit)
    let n := fun (u : Team) => (u.stream.dest f.d).toNat
    let even := fun (u : Team) => n u % 8 = 0 ∧ (src u).aligned 8 = true ∧ (dst u).aligned 8 = true
    StrMoves (.amove f) f
      (fun u => n u ≠ 0 ∧ src u ≠ .bad ∧ dst u ≠ .bad ∧ even u ∧ (src u).outside u (n u) = false ∧ (dst u).outside u (n u) = false)
      (fun s u => s.amoveGo u.id (src u) (dst u) (n u) (n u + 3)) ∧
    ∀ (s : State) (t : TeamId) (u : Team), StrReady s (.amove f) t u → n u ≠ 0 →
      (src u = .bad ∨ dst u = .bad → exec (.amove f) s = .next ((s.strAt t u).strFault t Code.illegal 0)) ∧
      (src u ≠ .bad ∧ dst u ≠ .bad ∧ ¬even u → exec (.amove f) s = .next ((s.strAt t u).strFault t Code.align 0)) ∧
      (src u ≠ .bad ∧ dst u ≠ .bad ∧ even u ∧ ((src u).outside u (n u) = true ∨ (dst u).outside u (n u) = true) →
        exec (.amove f) s = .next ((s.strAt t u).strFault t Code.prot 0))) ∧
  (∀ f (scatter : Bool),
    let i := if scatter then Instr.ascatter f else Instr.agather f
    let base := fun (u : Team) => SAddr.of (u.stream.src f.a f.lit)
    let n := fun (u : Team) => (u.stream.dest f.d).toNat
    (∀ (s : State) (t : TeamId) (u : Team), StrReady s i t u → n u = 0 →
      exec i s = .next ((s.strAt t u).strDone t u f.lit)) ∧
    (∀ lg q v, StrMoves i f
      (fun u => n u ≠ 0 ∧ SAddr.of (u.stream.src f.c f.lit) = .queue lg q ∧ SAddr.of (u.stream.src f.b f.lit) = .glob v ∧
        base u ≠ .bad ∧ (base u).isQueue = false ∧ (base u).aligned (2 ^ lg) = true ∧ v % 4 = 0)
      (fun s u => s.indexGo u.id scatter (base u) (.glob v) (2 ^ lg) (n u) q (3 * n u + 3))))

/-- R187, R211: AMOVE from the team's scratchpad to itself, from its start, copies the bytes as they stood, overlap or not,
and changes no other byte of the scratchpad. -/
def Obligations.StreamMoveCopies : Prop :=
  ∀ (f : Str) (s : State) (t : TeamId) (u : Team) (a b n : Nat), StrReady s (.amove f) t u →
    SAddr.of (u.stream.src f.a f.lit) = .scr a → SAddr.of (u.stream.src f.b f.lit) = .scr b →
    (u.stream.dest f.d).toNat = n → n % 8 = 0 → a % 8 = 0 → b % 8 = 0 → a + n ≤ u.scrSize → b + n ≤ u.scrSize →
    u.stream.cursor = 0 → u.stream.shadow = [] →
    ∃ s' : State, exec (.amove f) s = .next (s'.strDone t u f.lit) ∧
      (∀ i < n, s'.readScr t (b + i) 1 = s.readScr t (a + i) 1) ∧
      ∀ o, ¬(b ≤ o ∧ o < b + n) → s'.readScr t o 1 = s.readScr t o 1

/-! ## Waits that end -/

/-- R26, R37, R40, R44, R276, R365, R376, R446: barriers, FJOIN, WSYNC and the rejoin timer. A barrier waits while an index
element is parked of a command, or of a program, that its team committed before the latest arrival. -/
def Obligations.WaitEvents : Prop :=
  (∀ job team, Turns (.takenWaitResumeBar job team)
    (fun s => (s.team ⟨job, team⟩).isLive = true ∧ (s.team ⟨job, team⟩).allWait .bar = true ∧
      s.elementParked ⟨job, team⟩ (s.team ⟨job, team⟩).barCut = false)
    (fun s =>
      let u := s.team ⟨job, team⟩
      (((s.acquire u.coreNo u.barSig).modTeam ⟨job, team⟩ fun u =>
        { u with barSig := 0, barCut := (0, 0), barGen := u.barGen + 1 }).resumeTeam ⟨job, team⟩ .bar).settle)) ∧
  (∀ job cohort, Turns (.cbarComplete job cohort)
    (fun s => (∃ u ∈ s.cohortTeams job cohort, u.isLive = true) ∧
      ∀ u ∈ s.cohortTeams job cohort, u.allWait .cbar = true ∧ s.elementParked u.id u.cbarCut = false)
    (fun s =>
      let ts := s.cohortTeams job cohort
      let sig := ts.foldl (fun a u => a ||| u.cbarSig) 0
      (ts.foldl
        (fun s u => ((s.acquire u.coreNo sig).modTeam u.id fun u =>
          { u with
            cbarSig := 0, cbarCut := (0, 0), cbarHold := u.cbarAsked, cbarAsked := false, cbarGen := u.cbarGen + 1 }).resumeTeam u.id .cbar)
        s).settle)) ∧
  (∀ (s : State) t cut, s.elementParked t cut = true ↔
    ((s.team t).stream.parked ≠ [] ∧ (s.team t).stream.order < cut.2) ∨
      ∃ c ∈ s.cmds, c.wave.team = t ∧ c.parked ≠ [] ∧ c.id < cut.1) ∧
  (∀ job team wave (s : State),
    let w := (s.team ⟨job, team⟩).waveId wave
    let m := (s.wave w).waitMask .fjoin
    let done := (s.wave w).joinedMask
    (m ≠ 0 ∧ (s.wave w).joins = 0 → exec (.fjoinComplete job team wave) s = .next
      ((s.acquire (s.team w.team).coreNo (s.wave w).joinSig).resumeCmd w m)) ∧
    (¬(m ≠ 0 ∧ (s.wave w).joins = 0) → done ≠ 0 → exec (.fjoinComplete job team wave) s = .next
      ((s.acquire (s.team w.team).coreNo (s.wave w).joinedSig).resumeCmd w done)) ∧
    (¬(m ≠ 0 ∧ (s.wave w).joins = 0) → done = 0 → exec (.fjoinComplete job team wave) s = .next s)) ∧
  (∀ (v : Wave) (l : Fin 32), v.joins = 0 → v.lanes[l].status = .waiting .fjoin →
    v.joinZero.lanes[l].status = .waiting (.joined v.joinSig)) ∧
  (∀ job team wave pc,
    let w := fun (s : State) => (s.team ⟨job, team⟩).waveId wave
    let m := fun (s : State) => (s.wave (w s)).synced pc
    Turns (.wsyncRelease job team wave pc) (fun s => m s ≠ 0)
      (fun s => ((s.resume (w s) (m s)).modWave (w s) fun v => { v with groups := v.groups ++ [m s] }).reimaged s (w s) (m s))) ∧
  (∀ job team wave entry (s : State),
    let w := (s.team ⟨job, team⟩).waveId wave
    exec (.rejoinTimeout job team wave entry) s =
      .next ((s.modWave w fun v => v.expireRejoin entry s.now).reimaged s w 1)) ∧
  (∀ (v : Wave) (i now : Nat) (e : Rejoin), v.rejoin[i]? = some e →
    (e.timer = some 0 → (v.expireRejoin i now).rejoin = v.rejoin.eraseIdx i ∧
      ∀ l : Fin 32, LaneMask.has e.arrived l = true → v.lanes[l].status = .waiting (.rejoin e.target) →
        (v.expireRejoin i now).lanes[l].status = .ready) ∧
    (e.timer ≠ some 0 → v.expireRejoin i now = v))

/-- R209, R212 to R216, R364: waits at the stream engine. -/
def Obligations.StreamEvents : Prop :=
  (∀ job team k, Serves (.semwaitComplete job team k) job team
    (fun o => match o with | .sem j _ => j = k | _ => false)) ∧
  (∀ job team k, Serves (.qpopComplete job team k) job team
    (fun o => match o with | .pop j _ => j = k | _ => false)) ∧
  (∀ job team k, Serves (.qpushComplete job team k) job team
    (fun o => match o with | .push j _ => j = k | _ => false)) ∧
  (∀ job team, Serves (.engageStart job team) job team (fun o => match o with | .engage .. => true | _ => false)) ∧
  (∀ job team, Serves (.rdvComplete job team) job team (fun o => match o with | .rdv => true | _ => false)) ∧
  (∀ job team (s : State) (u : Team) (o n words : Nat) (k : Fin 8) (w : W32), s.team? ⟨job, team⟩ = some u →
    u.stream.st = .awaiting o k n →
    (n = 0 ∨ n ≤ u.sem[k] ∧ ∀ y ∈ u.waiters, ¬(y.order < o ∧ y.op.line = k.val)) →
    s.peekWord (s.strCtx ⟨job, team⟩) u.stream.pc = some w → words = formatWords w →
    exec (.awaitComplete job team) s = .next
      ((((s.modTeam ⟨job, team⟩ fun v => { v with sem := v.sem.set k (v.sem[k] - n) }).acquire u.coreNo u.semSig[k]).modStream
        ⟨job, team⟩ Stream.fresh).strGo ⟨job, team⟩ (u.stream.pc + w64 (4 * words)))) ∧
  (∀ job team (s t : State), (s.team ⟨job, team⟩).place = .resident → (s.team ⟨job, team⟩).owner = false →
    ((∃ x ∈ (s.team ⟨job, team⟩).waiters, x.owned = false) ∨ (s.team ⟨job, team⟩).stream.st ≠ .idle) →
    s.own ⟨job, team⟩ = (true, t) →
    exec (.streamOwnerAcquire job team) s = .next
      (((s.team ⟨job, team⟩).waiters.filter fun x => !x.owned).foldl (fun s x => s.tryOp x) t)) ∧
  (∀ job team (s : State) (u : Team), s.team? ⟨job, team⟩ = some u → u.stream.st.runs = true →
    ((s.strNext u).1 = .illegal → exec (.streamFault job team) s = .next (s.strFault ⟨job, team⟩ Code.illegal 0)) ∧
    ((s.strNext u).1 = .badTarget → exec (.streamFault job team) s = .next (s.strFault ⟨job, team⟩ Code.badTarget 0)) ∧
    (∀ e, (s.strNext u).1 = .fetch e → exec (.streamFault job team) s = .next (s.strPark ⟨job, team⟩ e)) ∧
    ((s.strNext u).1 = .none → exec (.streamFault job team) s = .next s)) ∧
  (∀ job team (s : State),
    let u := s.team ⟨job, team⟩
    (u.deadlocked = true → 64 ≤ u.pool → exec (.dqGrow job team) s = .next (s.modTeam ⟨job, team⟩ fun u =>
      { u with dqCap := u.dqCap.set u.growQueue (u.dqCap[u.growQueue] + 64) })) ∧
    (u.deadlocked = true → u.pool < 64 → exec (.dqGrow job team) s = .next
      ((u.waiters.filter fun x => x.owned && (match x.op with | .pop .. => true | .push .. => true | _ => false)).foldl
        (fun s x => s.dqDead x) s)) ∧
    (u.deadlocked = false → exec (.dqGrow job team) s = .next s))

/-! ## Engine commands that end -/

/-- R187, R188, R218, R219, R226 to R230, R258 to R276, R283, R310, R322: a command ends with its results and its token, or
is suspended with a record at a translation fault; an index element that meets one is parked; otherwise the event changes
nothing. What the work of the six clauses in one form comes to is told by `AccumulatorCommands` to `IrregularCommands`
for their commands and by `CopyAndTileCompletions` and `EngineCompletions` for their ends. That a collective of a
terminated team goes on without a token is the model's choice (log 23). -/
def Obligations.CommandEvents : Prop :=
  (∀ cmd, Becomes (.copyComplete cmd) fun s t => ∃ m k v sig u,
    s.copyReady cmd = some (m, k) ∧ s.copyRun m k = .complete v sig u ∧ t = (u.endCmd m v sig).settle) ∧
  (∀ cmd, Becomes (.copyFault cmd) fun s t => ∃ m k e i shadow u,
    s.copyReady cmd = some (m, k) ∧ s.copyRun m k = .stuck e i shadow u ∧
      t = (u.modCmd cmd fun m => { m with kind := .copy { k with cursor := i, shadow := shadow } }).suspendCmd m e) ∧
  (∀ cmd, Becomes (.mmaComplete cmd) fun s t => ∃ (c : Cmd) (x k fs kc : Nat) (rows : LaneMask) (a b : Word),
    s.cmd? cmd = some c ∧ c.kind = .mma x k fs kc rows a b ∧ s.tileTurn c = true ∧
      let slot := (s.job c.wave.team.job).card.slots.toList.getD fs 0
      let n := operandBytes slot kc
      ∃ as bs u v, s.fetch (c.srcCtx) a.toNat n = .got as u ∧ u.fetch (c.srcCtx) b.toNat n = .got bs v ∧
        t = (((v.setAcc ((v.accSlot c.cluster x k).mma slot kc rows as bs)).tileDone (v.jobOf c.wave).vf c.cluster x
          1).endCmd c 0 0).settle) ∧
  (∀ cmd, Works (.accdrainComplete cmd) fun s => s.drainWork cmd) ∧
  (∀ cmd, Works (.grammarComplete cmd) fun s => s.gramWork cmd) ∧
  (∀ cmd, Works (.binappAppend cmd) fun s => s.binappWork cmd) ∧
  (∀ cmd, Works (.binreplayComplete cmd) fun s => s.replayWork cmd) ∧
  (∀ cmd, Works (.worklistApply cmd) fun s => s.listWork cmd) ∧
  (∀ cmd, Works (.rayqComplete cmd) fun s => s.rayWork cmd) ∧
  (∀ cmd peers, Becomes (.collComplete cmd peers) fun s t =>
    (∃ u, s.collWork cmd peers = .ok u ∧ t = u.settle) ∨
      ∃ c, s.cmd? cmd = some c ∧ c.silent = true ∧
        (∃ e, s.collWork cmd peers = .stop e ∨ ∃ u, s.collWork cmd peers = .partly u e) ∧ t = (s.dropCmd cmd).settle) ∧
  (∀ cmd, Becomes (.enqComplete cmd) fun s t => ∃ c cards d vs u,
    s.cmd? cmd = some c ∧ c.kind = .enq cards d ∧ s.enqAll c cards = some (vs, u) ∧
      t = (u.listResults c d fun l => w64 ((getAssoc l.val vs).getD 0)).settle) ∧
  (∀ cmd, Becomes (.commandTranslationFault cmd) fun s t => ∃ c e,
    s.cmd? cmd = some c ∧ c.silent = false ∧
      (s.work c = .stop e ∧ t = s.suspendCmd c e ∨ ∃ u, s.work c = .partly u e ∧ t = u.suspendCmd c e)) ∧
  (∀ cmd element, Becomes (.indexElementPark cmd element) fun s t => ∃ c op wide recs bs u e,
    s.cmd? cmd = some c ∧ c.kind = .binapp op wide recs ∧ s.binTurn c = true ∧
      (c.open_ recs.length).contains element = true ∧ s.binDescs (c.srcCtx) recs = .ok (bs, u) ∧
      u.appendAt (c.ctx) bs op wide recs element = .park e ∧ t = u.parkElement c element e)

/-- R187, R188, R218, R219, R226, R228, R230, R233: commands of the copy engine and of the matrix engine whose operands are
reached end, and those whose next operand is not mapped are suspended. -/
def Obligations.CopyAndTileCompletions : Prop :=
  CopyEnds .copyComplete ∧ CopyFaults .copyFault ∧ MmaEnds .mmaComplete ∧ MmaFaults .commandTranslationFault ∧
    DrainEnds .accdrainComplete

/-- R258, R263, R270, R271, R273 to R275, R283, R310, R322: commands of the other engines whose operands are reached end.
That an index element out of bounds is recorded as PROT is log 57, that the root of a tree is a box node log 22, both the
model's reading. -/
def Obligations.EngineCompletions : Prop :=
  GrammarEnds .grammarComplete ∧ BinappEnds .binappAppend ∧ ElementParks .indexElementPark ∧
    ReplayEnds .binreplayComplete ∧ ListEnds .worklistApply ∧ RayEnds .rayqComplete ∧ CollEnds .collComplete ∧
    EnqEnds .enqComplete

/-- R234, R239 to R249: calls, bins and sets of the Belfry and the Carillon, and a job that leaves a tile engine. Where its
condition does not hold, each event changes nothing. What becomes of pins that a rebound handle makes too large is the
model's choice (log 65). -/
def Obligations.CarillonEvents : Prop :=
  (∀ cmd, Becomes (.ncallComplete cmd) fun s t => ∃ b c,
    (s.bins.find? fun b => b.calls.any fun c => c.id = cmd) = some b ∧ (b.calls.find? fun c => c.id = cmd) = some c ∧
      s.tileReady b = true ∧ t = (s.tileCall b c).settle) ∧
  (∀ cluster vf handle,
    let waits := fun (b : Bin) =>
      b.dispatched && b.weights = .waiting && b.cluster = cluster && b.vf = vf && b.handle = handle
    let read := fun (s : State) => match s.handleEntry vf handle with
      | some h => s.bringIn cluster h
      | none => s
    Turns (.belfryLoad cluster vf handle) (fun s => s.bins.any waits = true)
      (fun s =>
        let w := match (read s).weightsNow cluster vf handle with | .waiting => Weights.missing | w => w
        { read s with
          bins := (read s).bins.map fun (b : Bin) => if waits b then { b with weights := w } else b })) ∧
  (∀ bin, Becomes (.binDispatchTimer bin) fun s t => ∃ b,
    (s.bins.find? fun b => b.id = bin) = some b ∧ b.opened = true ∧ (∃ c ∈ b.calls, c.at_ + 2048 ≤ s.now) ∧
      t = s.dispatchAll (s.bins.filter fun x => x.expired s.now)) ∧
  (∀ cluster, Turns (.binDispatchBlocked cluster)
    (fun s => ∀ b ∈ s.bins, b.cluster = cluster → ∀ c ∈ b.calls, s.waveBlocked c.wave = true)
    (fun s => s.dispatchAll (s.bins.filter fun b => b.cluster = cluster))) ∧
  (∀ cmd, Becomes (.wbindComplete cmd) fun s t => ∃ c h a u,
    s.cmd? cmd = some c ∧ c.kind = .wbind h a ∧
      ((∃ hpa size, s.checkSet c a = .good hpa size u) ∨ ∃ code sub at_, s.checkSet c a = .bad code sub at_ u) ∧
      let mine := u.bins.filter fun b => b.vf = c.vf && b.handle = h
      let open_ := mine.filter Bin.opened
      (open_ ≠ [] ∧ t = u.dispatchAll open_ ∨
        open_ = [] ∧ (∃ b ∈ mine, b.weights = .waiting) ∧ t = u ∨
        open_ = [] ∧ (∀ b ∈ mine, b.weights ≠ .waiting) ∧
          let gone : State := { u with
            belfry := u.belfry.filter fun b => !(b.vf = c.vf && b.handle = h),
            handles := u.handles.filter fun k => !(k.vf = c.vf && k.handle = h) }
          let ends := fun (x : State) => ((x.endCmd c 0 0).resumeCmd c.wave c.lanes).settle
          ((∃ hpa size, s.checkSet c a = .good hpa size u ∧ t = ends (State.trimPins
              { gone with handles := gone.handles ++ [{ vf := c.vf, handle := h, hpa := hpa, size := size }] } c.vf h)) ∨
            ∃ code sub at_, s.checkSet c a = .bad code sub at_ u ∧ t = ends (gone.cmdReport c code sub at_)))) ∧
  (∀ job cluster (s : State),
    let mine := s.bins.filter fun b => b.job = job && b.cluster = cluster
    let due := s.ctxIdle job cluster = true ∧ (s.ctxWanted job cluster = true ∨ s.awayWanted job cluster = true)
    (¬due → exec (.jobLeaveEngine job cluster) s = .next s) ∧
    (due → (∃ b ∈ mine, b.opened = true) → exec (.jobLeaveEngine job cluster) s = .next (s.dispatchAll mine)) ∧
    (due → (∀ b ∈ mine, b.opened = false) → mine ≠ [] → exec (.jobLeaveEngine job cluster) s = .next s) ∧
    (due → mine = [] → exec (.jobLeaveEngine job cluster) s = .next (s.saveCtx job cluster).settle))

/-! ## The scheduler -/

/-- R278 to R290, R296: the head card of a queue launches its job, or is rejected with the job's record when its fields
break a rule or it cannot be read; an early successor launches outside its queue; a job that is over completes. -/
def Obligations.LaunchEvents : Prop :=
  (∀ vf queue (s : State),
    let q := s.qdesc vf queue
    let x := s.queueCtx vf q
    let ready := s.mayStart (s.vf vf).partition = true ∧ s.mapped vf queue = true ∧ q.empty = false ∧ q.en = true ∧
      q.draw = false
    let start := fun (t : State) (d : Nat) (reject : Option (Nat × Nat × Nat)) =>
      (((t.startJob vf (some queue) (w32 q.head) (w64 (q.cardAt q.head)) (Card.decode d) x.asd reject).putHead vf queue
        ((q.head + 1) % 2 ^ 32)).releaseSlot vf queue).settle
    (¬ready → exec (.cardLaunch vf queue) s = .next s) ∧
    (∀ e, ready → s.readCard x (q.cardAt q.head) = .error e →
      exec (.cardLaunch vf queue) s = .next (start (s.markLeaves x.part e.marks) 0 (some (e.code, e.sub, e.addr)))) ∧
    (∀ h, q.cardAt q.head % 128 = 0 → HeldAs s x (q.cardAt q.head) .read h →
      s.readCard x (q.cardAt q.head) = .ok (natLE (s.readPhys x.part h 128), s)) ∧
    (∀ d t, ready → s.readCard x (q.cardAt q.head) = .ok (d, t) →
      (t.waitDone vf (Card.decode d).wait = false → exec (.cardLaunch vf queue) s = .next t) ∧
      (t.waitDone vf (Card.decode d).wait = true → exec (.cardLaunch vf queue) s = .next
        (start t d (if cardOk d (s.vf vf).ccount then none else some (Code.illegal, 0, q.cardAt q.head)))))) ∧
  (∀ job (s t : State) (j : Job) (d : Nat), (s.jobs.find? fun j => j.id = job) = some j → j.earlyDone = false →
    j.draw = none → (s.part j.part).run = true → s.allTrig j = true →
    s.readCard { part := j.part, cluster := 0, core := none, asd := j.asd, sys := false } j.card.early.toNat = .ok (d, t) →
    t.waitDone j.vf (Card.decode d).wait = true →
    let u := (t.startJob j.vf none 0 j.card.early (Card.decode d) j.asd
      (if cardOk d (t.vf j.vf).ccount then none else some (Code.illegal, 0, j.card.early.toNat))).modJob job
        fun j => { j with earlyDone := true }
    exec (.earlyLaunch job) s = .next { u with jobs := u.jobs.filter fun j => !(j.id = job && j.completed) }) ∧
  (∀ job (s : State) (j : Job), (s.jobs.find? fun j => j.id = job) = some j → j.completed = false → j.draw = none →
    s.jobOver j = true →
    let t := if j.recorded then s else s.recordJob j
    (t.recordHeld job = true → exec (.jobComplete job) s = .next t) ∧
    (t.recordHeld job = false → exec (.jobComplete job) s = .next (t.finishJob j)))

/-- R22, R34, R203 to R205, R291 to R293, R335: admission, time slices, parking, pre-emption, restoring and the power
grant. The model's reading: runs of a parked wave abort, and a parked cohort comes back whole with a new guard (log 42); a
cohort is swapped or pre-empted only while another fits nowhere or parking space is exhausted (log 59); images that are
swapped out leave the save area (log 20). -/
def Obligations.PlacementEvents : Prop :=
  (∀ job cohort cluster cores, Becomes (.teamAdmit job cohort cluster cores) fun s t => ∃ w,
    (s.waitingCohorts.find? fun w => w.job = job && w.cohort = cohort) = some w ∧ s.mayGo w cluster = true ∧
      s.coresFit w cluster cores = true ∧ (∀ x ∈ s.fitting cluster, x.before w = false) ∧ t = s.takeIn w cluster cores) ∧
  (∀ (s : State) (w : WaveId),
    let u := s.team w.team
    (s.freeSlot u.coreNo = none → s.seatWave w = s) ∧
    ∀ k, s.freeSlot u.coreNo = some k →
      let t := s.modWave w fun v => v.seat k s.now
      s.seatWave w = if t.imagesFit (s.job w.team.job).part u.cluster then t else s) ∧
  (∀ job team wave, Becomes (.restore job team wave) fun s t =>
    let u := s.team ⟨job, team⟩
    let w := u.waveId wave
    (s.wave w).isLive = true ∧ (s.wave w).slot = none ∧
      (u.place = .resident ∧ t = s.seatWave w ∨
        u.place = .parked ∧ s.mayReturn job u.cohort = true ∧ t = s.returnCohort w u.cohort)) ∧
  (∀ job team wave, Becomes (.parking job team wave) fun s t =>
    let u := s.team ⟨job, team⟩
    let w := u.waveId wave
    let j := s.job job
    let others := ∃ v ∈ u.waves, v.isLive = true ∧ v.slot.isSome = true ∧ v.uid ≠ w.uid
    u.place = .resident ∧ (s.wave w).slot.isSome = true ∧ u.guard ≤ s.now ∧
      (¬others ∧ s.unguarded job u.cohort = true ∧ s.canPark j.part u.cluster (s.parkNeed job u.cohort) = true ∧
          t = (s.parkCohort job u.cohort).settle ∨
        others ∧ s.canPark j.part u.cluster (waveLen j.card.named) = true ∧ t = (s.parkWave w).settle)) ∧
  (∀ job cohort, Turns (.swapping job cohort)
    (fun s => s.cohortAdmitted job cohort = true ∧ s.unguarded job cohort = true ∧
      ((∃ w ∈ s.waitingCohorts, (s.job w.job).part = (s.job job).part ∧ ∀ k < 16, s.pickCores w k = none) ∨
        ∃ u ∈ s.cohortTeams job cohort, s.parkingFull (s.job job).part u.cluster = true))
    (fun s => s.swapOut job cohort)) ∧
  (∀ job team, Turns (.guardExpire job team)
    (fun s => (s.team ⟨job, team⟩).guard ≠ 0 ∧ (s.team ⟨job, team⟩).guard ≤ s.now)
    (fun s => s.modTeam ⟨job, team⟩ fun u => { u with guard := 0 })) ∧
  (∀ job cohort, Becomes (.preempt job cohort) fun s t =>
    let part := (s.job job).part
    let ids := ((s.cohortTeams job cohort).filter fun u => u.place = .resident).map fun u => u.id
    (∃ w ∈ s.waitingCohorts, (s.job w.job).part = part ∧ s.preemptVictim part w.cls = some (job, cohort) ∧
      ∀ k < 16, s.pickCores w k = none) ∧
      t = ((ids.foldl (fun x k => x.saveTeam k part (x.job job).card.named)
        (ids.foldl State.abortTeam s)).parkCohort job cohort).settle) ∧
  (∀ cluster (s : State), s.now < (getAssoc cluster s.sliceAt).getD 0 + 480000 → exec (.sliceStep cluster) s = .next s) ∧
  (∀ cluster (s : State), (getAssoc cluster s.sliceAt).getD 0 + 480000 ≤ s.now →
    let t := { s with sliceAt := putAssoc cluster s.now s.sliceAt }
    let waits := sortOn (fun w => w.since)
      (sortOn (fun w => w.cohort) (t.waitingCohorts.filter fun w => t.mayGo w cluster))
    let due := sortOn (fun (c : Nat × Nat × Nat) => c.2.2)
      ((t.admittedOn cluster).filter fun c => c.2.2 + 480000 ≤ t.now && t.unguarded c.1 c.2.1)
    let u := match due with
      | c :: _ => t.swapOut c.1 c.2.1
      | [] => t
    (waits = [] → exec (.sliceStep cluster) s = .next t) ∧
    ∀ w rest, waits = w :: rest → exec (.sliceStep cluster) s = .next
      (match u.pickCores w cluster with
        | some cores => u.takeIn w cluster cores
        | none => u)) ∧
  (∀ job team wave pc (s : State),
    let w := (s.team ⟨job, team⟩).waveId wave
    (s.team ⟨job, team⟩).place = .resident → (s.wave w).slot.isSome = true →
    (∃ g ∈ s.readyGroups w (s.wave w), g.1 = pc ∧ (s.wave w).readySince g.2 s.now + 1024 ≤ s.now ∧
      (s.wave w).promotedAt g s.now = none) →
    exec (.starvationPromote job team wave pc) s =
      .next (s.modWave w fun v => { v with promoted := (v.promoted.filter fun p => p.1 ≠ pc) ++ [(pc, s.now)] })) ∧
  (∀ demands, Turns (.kettleGrant demands) (fun s => (s.periodAt + 1) * 3072 ≤ 5 * s.now)
    (fun s =>
      let floor := bits s.kbudget 31 16
      let total := ((List.range 16).map fun i => demands.getD i 0).foldl (· + ·) 0
      { s with
        periodAt := s.periodAt + 1,
        grantsW := (List.range 16).map fun i =>
          floor + (if total = 0 then 0 else (bits s.kbudget 15 0 - 16 * floor) * demands.getD i 0 / total) }))

/-! ## Rendering -/

/-- R288, R296 to R301, R309: a draw launches, or is rejected when its card or a stage record breaks a rule; its
primitives become teams one after the other; its fragments are blended; it completes. The model's
choices: exact arithmetic and pixel teams from one primitive at a time (log 18); the order of a queue's draws, the wait of
the early test and the rules of a fragment (log 19). -/
def Obligations.RenderEvents : Prop :=
  (∀ vf queue (s : State),
    let q := s.qdesc vf queue
    let x := s.queueCtx vf q
    let a := q.cardAt q.head
    let ready := s.mayStart (s.vf vf).partition = true ∧ s.mapped vf queue = true ∧ q.empty = false ∧ q.en = true ∧
      q.draw = true ∧ ∀ d ∈ s.draws, d.vf = vf → d.queue = queue → s.verticesFetched d = true
    let start := fun (t : State) (d : Nat) (st : Nat × Nat) (vs : List Word) (reject : Option (Nat × Nat × Nat)) =>
      (((t.startDraw vf queue q.head a d x.asd st vs reject).putHead vf queue ((q.head + 1) % 2 ^ 32)).releaseSlot vf
        queue).settle
    (¬ready → exec (.drawLaunch vf queue) s = .next s) ∧
    (∀ e, ready → s.readCard x a = .error e →
      exec (.drawLaunch vf queue) s = .next (start (s.markLeaves x.part e.marks) 0 (0, 0) [] (some (e.code, e.sub, a)))) ∧
    (∀ d t, ready → s.readCard x a = .ok (d, t) → t.waitDone vf (DrawCard.decode d).wait = true →
      drawCardOk d (s.vf vf).ccount = false →
      exec (.drawLaunch vf queue) s = .next (start t d (0, 0) [] (some (Code.illegal, 0, a)))) ∧
    (∀ d t v t1 p t2 vs t3, ready → s.readCard x a = .ok (d, t) → t.waitDone vf (DrawCard.decode d).wait = true →
      drawCardOk d (s.vf vf).ccount = true → t.readCard x (DrawCard.decode d).vstage = .ok (v, t1) →
      t1.readCard x (DrawCard.decode d).pstage = .ok (p, t2) → stageOk v (DrawCard.decode d) true = true →
      stageOk p (DrawCard.decode d) false = true → t2.vertexIndices x (DrawCard.decode d) = .ok (vs, t3) →
      exec (.drawLaunch vf queue) s = .next (start t3 d (v, p) vs none))) ∧
  (∀ draw (s : State) d v0 v1 v2, s.draw? draw = some d → d.rejected = false → d.nextPrim < d.desc.primCount →
    (∀ e ∈ s.earlierDraws d, e.rejected = true ∨ e.desc.primCount ≤ e.nextPrim) → d.early = false →
    (d.desc.primitive d.nextPrim).map d.vertex? = [some v0, some v1, some v2] →
    let free := fun (k : Nat) => s.openWord 5 k
    let clip := fun (i : Fin 3) (v : VertexOut) => clipVertex (fun k => free (2 ^ 36 + 4 * i.val + k)) i v.pos
    let cs := coverage d.desc [clip 0 v0, clip 1 v1, clip 2 v2]
    let quads := (quadsOf cs).map
      (quadSeeds draw d.nextPrim d.desc cs (fun x y => (cs.map fun p => (p.1, p.2.1)).contains (x, y)) free)
    exec (.rasterise draw) s = .next (s.modDraw draw fun d =>
      { d with
        nextPrim := d.nextPrim + 1,
        formed := d.formed ++ formTeams (s.job d.pjob).card.waves quads (attrBlocks v0 v1 v2 d.desc.apairs),
        pending := d.pending ++ quads.flatten.filterMap fun x =>
          match x with | some x => if x.covered then some x.frag else none | none => none })) ∧
  FragmentEnds .fragmentBlend ∧
  (∀ draw (s t : State) d f, s.draw? draw = some d → s.nextFragment d = some f → s.blend d f = .ok t →
    exec (.fragmentBlend draw) s = .next (t.modDraw draw fun d =>
      { d with
        pending := d.pending.erase f.frag, ready := d.ready.erase f })) ∧
  (∀ draw (s : State) d, s.draw? draw = some d → s.drawOver d = true →
    let t := if d.recorded then s else s.recordDraw d
    (t.recordHeld draw = true → exec (.drawComplete draw) s = .next t) ∧
    (t.recordHeld draw = false → exec (.drawComplete draw) s = .next (t.finishDraw d)))

/-! ## Management -/

/-- R6, R173, R191, R195 to R198, R281, R285, R312 to R317, R331, R332, R335, R342: management writes and reads. Each is the
register's own for an admitted requester; any other changes nothing. VFTABLES, IRQPTR and SAMPPTR clear a field when they
are read. That a write of FQPTR writes held records at once is the model's reading (log 28), that a read stands in
REGISTER_WRITE its choice (log 69). -/
def Obligations.ManagementAccesses : Prop :=
  (∀ b vf v, ManagedWrite (.qnotify b vf v) b 3 vf 0 fun s => s.notify vf v) ∧
  (∀ b vf k, ManagedWrite (.faultackRetry b vf k) b 3 vf 0x18 fun s => s.ack vf k State.ackRetry) ∧
  (∀ b vf k, ManagedWrite (.faultackDeliver b vf k) b 3 vf 0x18 fun s => s.ack vf k State.ackDeliver) ∧
  (∀ b vf k, ManagedWrite (.faultackTerminate b vf k) b 3 vf 0x18 fun s => s.ack vf k State.ackTerminate) ∧
  (∀ b vf v, ManagedWrite (.tlbinv b vf v) b 3 vf 0x20 fun s => s.writeTlbinv vf v) ∧
  (∀ b p k v, ManagedWrite (.bankcfgWrite b p k v) b 1 p (0x800 + 4 * k) fun s =>
    if k < 192 then s.writeBank p k v else s) ∧
  (∀ b p v, ManagedWrite (.partownWrite b p v) b 0 p 0 fun s => if p < 32 then s.writeOwn p v else s) ∧
  (∀ b vf v, ManagedWrite (.harvestStart b vf v) b 2 vf 0x38 fun s => s.writeHarvest vf v) ∧
  (∀ b vf v, ManagedWrite (.fqcfgWrite b vf v) b 3 vf 8 fun s => s.writeFqcfg vf v) ∧
  (∀ b vf v, ManagedWrite (.fqptrWrite b vf v) b 3 vf 0x10 fun s =>
    (s.setVf vf { s.vf vf with fqhead := bits v 47 32 }).retryHeld vf) ∧
  (∀ b vf v, ManagedWrite (.sysasdWrite b vf v) b 2 vf 0x40 fun s => s.writeSysasd vf v) ∧
  (∀ b vf v, ManagedWrite (.sampcfgWrite b vf v) b 3 vf 0x50 fun s => s.writeSampcfg vf v) ∧
  (∀ b vf v, ManagedWrite (.vfcfgWrite b vf v) b 2 vf 0x10 fun s => s.writeVfcfg vf v) ∧
  (∀ b vf v, ManagedWrite (.vfquotaWrite b vf v) b 2 vf 0 fun s => s.writeQuota vf v) ∧
  (∀ b v, ManagedWrite (.kbudgetWrite b v) b 0 32 0x38 fun s => s.writeKbudget v) ∧
  (∀ b vf v, ManagedWrite (.irqlogWrite b vf v) b 2 vf 0x18 fun s => s.writeIrqlog vf v) ∧
  (∀ b p v, ManagedWrite (.hvidWrite b p v) b 1 p 8 fun s => s.writeHvid b p v) ∧
  (∀ b p v, ManagedWrite (.qctlGo b p v) b 4 p 0x120 fun s => s.writeQctl p v) ∧
  (∀ b v, ManagedWrite (.freezeWrite b v) b 0 32 0x30 fun s =>
    if v.getLsbD 0 then { s with frozen := true } else s) ∧
  (∀ b space index offset v, ManagedWrite (.registerWrite b space index offset (.write v)) b space index offset fun s =>
    s.writeReg b space index offset v) ∧
  (∀ b space index offset, ManagedRead (.registerWrite b space index offset .read) b space index offset
    (fun s => s.readReg space index offset) (fun s => s.clearRead space index offset)) ∧
  (∀ b vf, ManagedRead (.vftablesRead b vf) b 2 vf 8 (fun s => (s.vf vf).vftables)
    (fun s => s.setVf vf { s.vf vf with pnovf := 0 })) ∧
  (∀ b vf, ManagedRead (.irqptrRead b vf) b 2 vf 0x20 (fun s => (s.vf vf).irqptr)
    (fun s => s.setVf vf { s.vf vf with irqpend := 0 })) ∧
  (∀ b vf, ManagedRead (.sampptrRead b vf) b 3 vf 0x58 (fun s => (s.vf vf).sampptr)
    (fun s => s.setVf vf { s.vf vf with sampdrop := 0 }))

/-- R158, R173, R191, R196, R340, R342: what a register's GO bit or a change of a bank starts ends. That a bank's change
wipes it is log 27, what a harvest walks log 25, both the model's reading. -/
def Obligations.ManagementEvents : Prop :=
  (∀ vf, Turns (.harvestDone vf) (fun s => s.frozen = false ∧ (s.vf vf).harvest.getLsbD 63 = true)
    (fun s =>
      let t := s.harvest vf
      (t.setVf vf { t.vf vf with harvest := (s.vf vf).harvest &&& 0x7FFFFFFFFFFFFFFF }).irqVf vf 3)) ∧
  (∀ vf, Turns (.tlbinvDone vf) (fun s => s.frozen = false ∧ (s.vf vf).tlbinv.getLsbD 63 = true)
    (fun s =>
      let w := (s.vf vf).tlbinv
      let t := s.invalidate vf w
      (List.range 128).foldl
        (fun s u => match s.sysCtx u with
          | some c => if s.invCtx w vf c.asd.ctx then s.retryHeld u else s
          | none => s)
        (t.setVf vf { t.vf vf with tlbinv := w &&& 0x7FFFFFFFFFFFFFFF }))) ∧
  (∀ bank, Turns (.bankcfgChangeDone bank) (fun s => s.frozen = false) (fun s => s.bankDone bank)) ∧
  (∀ part, Becomes (.quoteDone part) fun s t => ∃ q rest,
    s.quotes = q :: rest ∧ s.frozen = false ∧ q.part = part ∧
      let u := { s with quotes := rest }
      let r := s.part part
      (s.attested = false ∧ t = u.setPart part { r with qgo := false, qstatus := 2 } ∨
        s.attested = true ∧ leafCount ≤ s.quoteLeaf ∧ t = u.setPart part { r with qgo := false, qstatus := 1 } ∨
        s.attested = true ∧ s.quoteLeaf < leafCount ∧
          t = { u.setPart part { r with qgo := false, qstatus := 0, qresp := u.quoteResponse q } with
            quoteLeaf := s.quoteLeaf + 1 }))

/-! ## Outside the cores -/

/-- R178, R194, R319, R340: requests from and to other devices, the expiry of an L1 line, and errors of registers and
memory devices. The model's reading: which of several partitions serves a request (log 33), what an error marks (log 34),
and that corrected errors are counted (log 43). -/
def Obligations.OutsideEvents : Prop :=
  (∀ dev part hpa k (s : State) p, s.frozen = false →
    choose (s.pickNo 12 0)
      ((List.range 32).filter fun p => s.requestOpen p dev part (ReqKind.writes k) hpa.toNat (ReqKind.size k)) = some p →
    exec (.remoteRequest dev part hpa k) s = .next (s.serve p hpa.toNat k)) ∧
  (∀ dev part hpa k (s : State), s.frozen = false →
    (∀ p < 32, s.requestOpen p dev part (ReqKind.writes k) hpa.toNat (ReqKind.size k) = false) →
    exec (.remoteRequest dev part hpa k) s = .next { s with resp := some (0, true), readData := [] }) ∧
  (∀ job team wave lane hpa write (s : State) x, s.remoteOf job team wave lane hpa write = some x → s.frozen = false →
    exec (.remoteRefusal job team wave lane hpa write) s = .next (s.remoteRefuse x) ∧
    (x.since + 2400000 ≤ s.now → exec (.remoteTimeout job team wave lane hpa write) s = .next (s.remoteRefuse x)) ∧
    (s.now < x.since + 2400000 → exec (.remoteTimeout job team wave lane hpa write) s = .next s)) ∧
  (∀ core line, Turns (.l1LineExpire core line) (fun s => s.frozen = false)
    (fun s => { s with l1 := s.l1.filter fun e =>
      !(e.core = core && e.pline = line && !e.own && e.fill + 2048 ≤ s.now) })) ∧
  (∀ job team wave lane r,
    let w := fun (s : State) => (s.team ⟨job, team⟩).waveId wave
    Turns (.registerFileError job team wave lane r)
      (fun s => s.frozen = false ∧ (s.thread (w s) lane).status.live = true)
      (fun s => s.putRegs (w s) lane fun g => g.poisonReg r)) ∧
  (∀ hpa, Turns (.gddr7UncorrectableError hpa true) (fun s => s.frozen = false ∧ hpa.toNat < 24 * gddrBytes)
    (fun s => { s with corrected := s.corrected + 1 })) ∧
  (∀ hpa, Turns (.gddr7UncorrectableError hpa false) (fun s => s.frozen = false ∧ hpa.toNat < 24 * gddrBytes)
    (fun s => { s with
      poisoned := if s.poisoned.contains (hpa.toNat / 128) then s.poisoned else hpa.toNat / 128 :: s.poisoned }))

/-- R332, R333, R337 to R339: FRZ_N freezes the device; the test port answers BYPASS and IDCODE, and SCANRD with the dump
of a frozen device that is not restricted; RST_N discards all state; measured boot extends the digest and names the
management identity, or restricts the device. Not the spec's: what BYPASS shifts out and the codes of the instruction
register (log 32), that a reset keeps the device number (log 30), the order of the log and of the attestation (log 31). -/
def Obligations.FreezeResetBoot : Prop :=
  (∀ s, exec .frzNAssert s = .next { s with frozen := true }) ∧
  Turns .bypass (fun s => s.portOpen = true) (fun s => { s with ir := 0xFF, tdo := [0] }) ∧
  Turns .idcode (fun s => s.portOpen = true) (fun s => { s with ir := 0x01, tdo := [Config.idcode.zeroExtend 64] }) ∧
  Turns .scanrd (fun s => s.frozen = true ∧ s.restricted = false) (fun s => { s with ir := 0x20, tdo := s.dump }) ∧
  (∀ s, exec .rstN s = .next { State.reset with
    tick := s.tick, devNum := s.devNum, idLeaves := s.idLeaves, inputs := s.inputs }) ∧
  (∀ img (s : State), s.frozen = false → s.boot = .pending →
    exec (.measuredBoot img) s = .next
      (if imageGood img then
        img.parts.foldl State.startPart
          { ((shake256 img.image :: img.stages).foldl State.measure (s.measure Config.romDigest)).attest with
            boot := .done, mgrid := (1 : BitVec 32) ++ img.mgrid, quoteLeaf := 0 }
      else { s.measure Config.romDigest with boot := .failed, restricted := true })) ∧
  (∀ img (s : State), s.frozen = true ∨ s.boot ≠ .pending → exec (.measuredBoot img) s = .next s)

/-- R338: a device whose boot fails a check answers only reads of the identity block and, at its test port, BYPASS and
IDCODE; nothing runs on it, so no queue starts; only a reset leaves this state. That every sender may read the identity
block is log 26, what BYPASS shifts out and the codes of the instruction register log 32. -/
def Obligations.BootFailed : Prop :=
  (∀ img (s : State), s.frozen = false → s.boot = .pending →
    ∃ t, exec (.measuredBoot img) s = .next t ∧ (imageGood img = false ↔ t.boot = .failed) ∧
      (t.boot = .failed → t.restricted = true)) ∧
  (∀ (s : State) by_ space index offset read, s.boot = .failed →
    (s.admits by_ space index offset read = true ↔ space = 4 ∧ index < 32 ∧ read = true ∧ offset < 0x100)) ∧
  (∀ s : State, s.restricted = true →
    exec .bypass s = .next { s with ir := 0xFF, tdo := [0] } ∧
      exec .idcode s = .next { s with ir := 0x01, tdo := [Config.idcode.zeroExtend 64] } ∧ exec .scanrd s = .next s) ∧
  ∀ s s' : State, s.boot = .failed → s.restricted = true → NothingRuns s → s.inputs.head? ≠ some .rstN →
    step s = .next s' → s'.boot = .failed ∧ s'.restricted = true ∧ NothingRuns s'

/-! ## Instruction words -/

/-- R362, R373, R374, R433 and others: words that the spec writes out decode to the instructions they stand for. -/
def Obligations.DecodeWords : Prop :=
  (decodeWords [0x7F600A80, 0]).toOption = some (.rft false true, 2) ∧
  (decodeWords [0x7F600A82, 0]).toOption = some (.rft true true, 2) ∧
  (decodeWords [0x7F900A80, 7]).toOption = some (.brk 7 true, 2) ∧
  (decodeWords [0x02409250]).toOption = some (.iaddS ⟨true, .b16⟩ { e := false, d := .push, a := .n 4, b := .n 5, pm := 0, ha := false }, 1) ∧
  (decodeWords [0x7BA0044A, 0x80000002]).toOption = some (.atoms .add .plain
      { e := true, pm := 0, d := .push, a := .n 2, b := .one, off := 0, pn := false, ch := false, xa := .own, xb := .own,
        w := .b32, lit := none }, 2) ∧
  (decodeWords [0x7DE00431, 0x02000000]).toOption = some (.enq
      { e := true, pm := 0, t := .push, a := .n 1, b := .n 2, n := none, hold := .off, xa := .own, xb := .own, pn := false,
        lit := none }, 2) ∧
  (decodeWords [0x96111C69, 0x80000000, 0x00001000]).toOption = some (.aadd { e := false, d := some 3, a := .a 3, b := .lit, c := .zero, lit := some 0x1000 }, 3)

/-- R72 to R96: the words of an instruction decode to it, whatever words follow. -/
def Obligations.EncodeDecode : Prop :=
  ∀ (i : Instr) (rest : List W32), i.WellFormed = true → decodeWords (encode i ++ rest) = .ok (i, (encode i).length)

/-- R72, R97: only well-formed instructions are decoded, from exactly the words that encode them and as many as the
format bits announce; so no bit of an instruction is left unread, and no two encodings stand for one instruction. -/
def Obligations.DecodeEncode : Prop :=
  ∀ (w0 : W32) (ws : List W32) (i : Instr) (n : Nat), decodeWords (w0 :: ws) = .ok (i, n) →
    i.WellFormed = true ∧ n = formatWords w0 ∧ encode i = (w0 :: ws).take n

/-- R90, R97: a header reads as the fields that its words hold; one with LEN below 3 or FLAGS[3] set is refused. -/
def Obligations.HeaderWords : Prop :=
  ∀ w0 w1 : W32,
    let w : BitVec 64 := w0 ++ w1
    (w.extractLsb' 62 2 = 3 ∧ 3 ≤ (w.extractLsb' 52 10).toNat ∧ w.getLsbD 3 = false →
      ∃ h : Header, headerOf w0 w1 = .ok h ∧ h.len = w.extractLsb' 52 10 ∧ h.live = w.extractLsb' 20 32 ∧
        h.join = w.extractLsb' 6 14 ∧ h.pf.val = (w.extractLsb' 4 2).toNat ∧ h.cold = w.getLsbD 2 ∧
        h.loop = w.getLsbD 1 ∧ h.entry = w.getLsbD 0 ∧ h.encode = [w0, w1]) ∧
    (¬(w.extractLsb' 62 2 = 3 ∧ 3 ≤ (w.extractLsb' 52 10).toNat ∧ w.getLsbD 3 = false) →
      ∃ e, headerOf w0 w1 = .error e)

/-! ## Steps -/

/-- A step of a booted device that is not frozen runs the instruction that it decodes, and then time passes: the first of
a run when a group issues (R23, R29, R98), the next of a run in progress (R24), the next of a stream program (R211), a
device event, or what comes from outside. A stream program that enters a block, a copy's next word (R188) and an answer of
another device (R319) are steps of their own, and so are the fault and the wait of a softmax sequence that the device
executes as one operation (R393). The model's choices: a free pick among the moves there are (log 6), inputs first
(log 8), and a softmax sequence that waits or faults as a whole (log 75, 76). -/
def Obligations.StepRunsDecoded : Prop :=
  (∀ (s : State) (i : Instr) (rest : List Instr), s.inputs = i :: rest → Instr.external i = true → s.frozen = false →
    step s = afterTime (exec i { s with inputs := rest })) ∧
  ∀ (s : State) (move : Move), s.inputs = [] → s.frozen = false → s.boot = .done →
    choose (s.pickNo 0 0) s.moves = some move →
    let a := s.asking move
    (∀ w m, move = .issue w m →
      let t := (a.noteServed w).modWave w fun v =>
        { v with promoted := v.promoted.filter fun p => p.1 ≠ (s.thread w (lowestLane m)).pc }
      let r := (t.wave w).runOf w m
      let heads := (t.wave w).lanes[lowestLane m].pc = r.blk
      ∀ (u v : State) pc ws text i n, t.stepsHere w m = 0 → t.breakAt w m r.start = 0 →
        (heads ∧ t.headerBad (t.xctx w) r.blk m = (u, none) ∨ ¬heads ∧ u = t) →
        let c := u.xctx w
        let stop := wordsAfter r.blk (w64 (u.headerLen c r.blk))
        State.fetchText c stop 25 r.start u = .ok ((pc, ws) :: text, v) →
        v.textBad w m stop 0 r.holds ((pc, ws) :: text) = none → decodeWords ws = .ok (i, n) →
        let x : State := { v with runs := r :: v.runs, focus := .simt }
        (x.fusion r i = .apart → step s = afterTime (exec i x)) ∧
          (x.fusion r i = .waits → step s = afterTime (.next (x.putRun { r with suspended := true }))) ∧
          ∀ e, x.fusion r i = .faults e → step s = afterTime (.next (x.raiseRun r e))) ∧
    (∀ r, move = .run r →
      let t := { a with runs := r :: a.runs.erase r, focus := .simt }
      ∀ (u : State) ws i n, t.fetchInstr (t.xctx r.wave) r.pc = .ok (ws, u) → decodeWords ws = .ok (i, n) →
        (u.fusion r i = .apart → step s = afterTime (exec i u)) ∧
          (u.fusion r i = .waits → step s = afterTime (.next (u.putRun { r with suspended := true }))) ∧
          ∀ e, u.fusion r i = .faults e → step s = afterTime (.next (u.raiseRun r e))) ∧
    (∀ t u i, move = .stream t → a.team? t = some u → (a.strNext u).2 = some i →
      step s = afterTime (exec i { a with focus := .stream t })) ∧
    (∀ t h, move = .enter t h → step s = afterTime (.next (a.strEnter t h))) ∧
    (∀ k, move = .ahead k → step s = afterTime (.next (a.copyAhead k))) ∧
    (move = .answer → step s = afterTime (.next a.remoteAnswer)) ∧
    ∀ i, move = .event i → step s = afterTime (exec i a)

/-- R332, R333: a frozen device stays as it is, but for the answers of its test port, until reset: a step changes nothing
else but the model's own step count and list of inputs. -/
def Obligations.FrozenStays : Prop :=
  ∀ s s' : State, s.frozen = true → s.inputs.head? ≠ some .rstN → step s = .next s' →
    s' = { s with tick := s.tick + 1, inputs := s.inputs.tail, ir := s'.ir, tdo := s'.tdo }

/-- R289, R314, R337, R338: no job, team or run is there before the device has booted, whatever comes from outside. -/
def Obligations.NothingRunsBeforeBoot : Prop :=
  ∀ s s' : State, NothingRuns s → step s = .next s' → NothingRuns s'

/-- R51, R157, R281, R313 to R316, R335, R337: the machine right after reset. Memory lists nothing, and every byte reads as 0,
which is the model's choice (log 1); the registers whose reset value the spec gives hold it; no instruction runs. -/
def Obligations.ResetState : Prop :=
  let s := State.reset
  s.mem.wf = true ∧ (∀ a, s.mem.read a = 0) ∧ NothingRuns s ∧ s.boot = .pending ∧ s.frozen = false ∧
  (s.part 0).partown = BitVec.ofNat 384 (2 ^ 276 - 1) ∧ (∀ p, p ≠ 0 → (s.part p).partown = 0) ∧
  (∀ p, (s.part p).hvid = 0 ∧ (s.part p).hvirq = 0 ∧ ∀ k : Fin 64, (s.part p).grants[k] = 0) ∧
  (∀ b, (s.bankReg b).cfg = if b % 12 < 4 then 0x30 else 0x20) ∧
  (∀ v, (s.vf v).vfcfg = 0 ∧ (s.vf v).vfquota = 0 ∧ (s.vf v).fqcfg = 4 ∧ (s.vf v).irqlog = 0x400 ∧ (s.vf v).sysasd = 0 ∧
    (s.vf v).dbgctl = 0) ∧
  s.kbudget = 0x00280500 ∧ s.mgrid = 0 ∧ s.jobs = [] ∧ s.teams = [] ∧ s.runs = []

/-! ## Registers, operands, loops and rejoin entries -/

/-- R49, R53, R59: a push shifts the queue once, whatever the mask, and its disabled sub-elements are 0; a named
destination keeps the disabled ones; a result that is discarded changes nothing; the other registers stay. R64: the codes of routes,
and the lane that each takes its value from. -/
def Obligations.ResultQueue : Prop :=
  (∀ (r : Regs) (w : Width) (m : BitVec 8) (v : Val),
    (let t := r.put .push w m v;
      (∀ k : Fin 16, 0 < k.val → t.q[k] = r.q[k.val - 1]'(by omega)) ∧
      (∀ i < 64, t.q[0].bits.getLsbD i = (m.getLsbD (i / w.bits) && v.bits.getLsbD i)) ∧
      (∀ i < 8, t.q[0].poison.getLsbD i = (m.getLsbD (i / w.bytes) && v.poison.getLsbD i)) ∧
      t = { r with q := t.q }) ∧
    r.put .void w m v = r ∧
    ∀ k : Fin 32,
      let t := r.put (.n k) w m v
      (∀ i < 64, t.n[k].bits.getLsbD i =
        if m.getLsbD (i / w.bits) then v.bits.getLsbD i else r.n[k].bits.getLsbD i) ∧
      (∀ i < 8, t.n[k].poison.getLsbD i =
        if m.getLsbD (i / w.bytes) then v.poison.getLsbD i else r.n[k].poison.getLsbD i) ∧
      (∀ j : Fin 32, j ≠ k → t.n[j] = r.n[j]) ∧ t = { r with n := t.n }) ∧
  (routeOf 0b0000000).toOption = some .own ∧
  (∀ p : BitVec 5, (routeOf (0b01#2 ++ p)).toOption = some (.rot p.toFin) ∧ (routeOf (0b10#2 ++ p)).toOption = some (.bc p.toFin) ∧
    (routeOf (0b11#2 ++ p)).toOption = some (.bfly p.toFin)) ∧
  (∀ k : BitVec 4, (routeOf (0b001#3 ++ k)).toOption = some (.idx k.toFin)) ∧
  (∀ x : BitVec 4, x ≠ 0 → (routeOf (0b000#3 ++ x)).toOption = none) ∧
  ∀ (r : Regs) (l : Fin 32),
    routeLane r l .own = l ∧ (∀ p, (routeLane r l (.rot p)).val = (l.val + p.val) % 32) ∧
    (∀ p, routeLane r l (.bc p) = p) ∧ (∀ p, (routeLane r l (.bfly p)).val = l.val ^^^ p.val) ∧
    ∀ k : Fin 16, (routeLane r l (.idx k)).val = ((r.n[16 + k.val]'(by omega)).bits.extractLsb' 0 5).toNat

/-- R76: the codes of source operands; the reserved ones are refused. -/
def Obligations.OperandCodes : Prop :=
  ∀ v : BitVec 6,
    (∀ k : Fin 16, v.toNat = k.val → (srcOf v).toOption = some (.q k)) ∧
    (∀ k : Fin 3, v.toNat = 0x10 + k.val → (srcOf v).toOption = some (.h k)) ∧
    (v = 0x13 → (srcOf v).toOption = some .lit) ∧ (v = 0x14 → (srcOf v).toOption = some .zero) ∧
    (v = 0x15 → (srcOf v).toOption = some .one) ∧
    (0x16 ≤ v.toNat ∧ v.toNat ≤ 0x1F → (srcOf v).toOption = none) ∧
    ∀ k : Fin 32, v.toNat = 0x20 + k.val → (srcOf v).toOption = some (.n k)

/-- R77: the codes of destinations; the reserved ones are refused. A result that is pushed becomes q0, one that is
discarded leaves the queue, and every register, as it was. -/
def Obligations.DestinationCodes : Prop :=
  (∀ v : BitVec 6,
    (v = 0 → (dstOf v).toOption = some .push) ∧ (v = 1 → (dstOf v).toOption = some .void) ∧
    (2 ≤ v.toNat ∧ v.toNat ≤ 0x1F → (dstOf v).toOption = none) ∧
    ∀ k : Fin 32, v.toNat = 0x20 + k.val → (dstOf v).toOption = some (.n k)) ∧
  (∀ (r : Regs) (v : Val), (r.put .push .b64 0xFF v).q[0] = v) ∧
  ∀ (r : Regs) (w : Width) (m : BitVec 8) (v : Val), r.put .void w m v = r

/-- R46: the loop check at a header H. `p` is the first active register whose end is H and whose count is above 1, 4 where
there is none: every active one before it whose end is H becomes inactive; it counts down and sends the thread to its
start; no other changes.

R36, R37: a transfer that keeps its group at one address, or stands in a block without JOIN, pushes no entry; one that
does not pushes exactly one, for the whole group; a full stack drops its oldest. A thread that arrives at a header waits
exactly where an entry names that header and holds the thread. -/
def Obligations.HeaderArrival : Prop :=
  (∀ (lc : Vector Loop 4) (h : Word) (p : Nat), p ≤ 4 →
    let hits := fun (k : Fin 4) => lc[k].active = true ∧ lc[k].stop = h
    (∀ k : Fin 4, k.val < p → hits k → lc[k].count.toNat ≤ 1) →
    (∀ k : Fin 4, k.val = p → hits k ∧ 1 < lc[k].count.toNat) →
    let out := loopCheck lc h
    (∀ k : Fin 4, k.val < p → hits k → out.1[k] = { lc[k] with active := false }) ∧
    (∀ k : Fin 4, k.val < p → ¬hits k → out.1[k] = lc[k]) ∧
    (∀ k : Fin 4, k.val = p → out.1[k] = { lc[k] with count := lc[k].count - 1 } ∧ out.2 = lc[k].start) ∧
    (∀ k : Fin 4, p < k.val → out.1[k] = lc[k]) ∧ (p = 4 → out.2 = h)) ∧
  (∀ (s : State) w m blk (goal : Fin 32 → Word),
    (∀ l k, LaneMask.has m l = true → LaneMask.has m k = true → goal l = goal k) → s.pushDiverge w m blk goal = s) ∧
  (∀ (s : State) w m blk (goal : Fin 32 → Word), s.headerJoin (s.xctx w) blk = 0 → s.pushDiverge w m blk goal = s) ∧
  (∀ (s : State) w m blk (goal : Fin 32 → Word) l k, LaneMask.has m l = true → LaneMask.has m k = true → goal l ≠ goal k →
    s.headerJoin (s.xctx w) blk ≠ 0 →
    s.isH (s.xctx w) (wordsAfter blk (s.headerJoin (s.xctx w) blk)) = true →
    s.pushDiverge w m blk goal =
      s.modWave w fun v => v.pushRejoin s.now m (wordsAfter blk (s.headerJoin (s.xctx w) blk))) ∧
  (∀ (v : Wave) now m target,
    (v.pushRejoin now m target).rejoin =
      (({ mask := m, target := target, arrived := 0, timer := none } : Rejoin) :: v.rejoin).take 8) ∧
  ∀ (v : Wave) now (l : Fin 32) h,
    let goal := (loopCheck v.lanes[l].regs.lc h).2
    let t := (v.arrive now l h).lanes[l]
    t.pc = goal ∧ t.regs = { v.lanes[l].regs with lc := (loopCheck v.lanes[l].regs.lc h).1 } ∧
    (t.status = .waiting (.rejoin goal) ↔ ∃ e ∈ v.rejoin, e.target = goal ∧ LaneMask.has e.mask l = true) ∧
    ∀ k : Fin 32, k ≠ l → (v.arrive now l h).lanes[k] = v.lanes[k]

/-! ## Exceptions -/

/-- R33, R192, R193, R195, R198, R199: a fault aborts the group's run; one that the table routes to the handler, in threads that
have one and are not in it, makes every thread enter it once its record is written, and waits for that where it is held
back; without a handler, or inside it, the team ends; a fault of translation parks the group under a ticket of its own,
which the record names. Entry changes of a thread's registers only those of R199, where the thread's team has no image that
a debugger may have written. That tickets count up and skip 0 is the model's choice (log 16). -/
def Obligations.HandlerEntry : Prop :=
  (∀ (s : State) (w : WaveId) (m : LaneMask) (epc after blk : Word) (e : Exc),
    let t := ((s.abort w m).markLeaves (s.jobOf w).part e.marks).noteResume w m after blk 0
    let inside := ∃ l, LaneMask.has m l = true ∧ (t.thread w l).inHandler = true
    let handler := (s.jobOf w).card.handler
    e.parks = false →
    (handler ≠ 0 → ¬inside → ∀ u ok,
      t.report (s.jobOf w).vf .fault (t.excRec w epc e 0 1).encode (some (w, m)) = (u, ok) →
      s.raise w m epc after blk e =
        if ok then u.enterHandler w m e.code e.sub epc
        else u.modLanes w m fun _ t => { t with status := .waiting .ringFull }) ∧
    (handler = 0 ∨ inside →
      s.raise w m epc after blk e =
        (t.report (s.jobOf w).vf .fault (t.excRec w epc e 0 2).encode none).1.terminate w.team e.code)) ∧
  (∀ (s : State) (w : WaveId) (m : LaneMask) (epc after blk : Word) (e : Exc),
    e.code = Code.xlate ∨ e.code = Code.prot ∧ e.sub % 4 ≠ 0 →
    let t := ((s.abort w m).markLeaves (s.jobOf w).part e.marks).noteResume w m after blk 0
    let k := t.nextTicket
    let u : State := { t with
      tickets := t.tickets ++
        [{ num := k, vf := (s.jobOf w).vf, who := .threads w m, code := e.code, sub := e.sub, stop := false }],
      nextTicket := if k = BitVec.allOnes 32 then 1 else k + 1 }
    let v := u.modLanes w m fun _ t => { t with status := .parked k }
    s.raise w m epc after blk e = (v.report (s.jobOf w).vf .fault (v.excRec w epc e k 0).encode none).1) ∧
  ∀ (s : State) (w : WaveId) (m : LaneMask) (code sub : Nat) (epc : Word) (u : Team) (v : Wave) (l : Fin 32),
    s.team? w.team = some u → u.wave? w.uid = some v →
    let t := (s.enterHandler w m code sub epc).thread w l
    let h := (s.jobOf w).card.handler
    (LaneMask.has m l = true →
      t.status = .ready ∧ t.cause = w32 (code + sub * 2 ^ 16) ∧ t.epc = epc ∧ t.snapshot = t.regs.q ∧ t.inHandler = true ∧
        t.pc = h ∧ t.blk = h) ∧
    (u.image = none → LaneMask.has m l = true →
      t = { v.lanes[l] with
        status := Status.ready, cause := w32 (code + sub * 2 ^ 16), epc := epc, snapshot := v.lanes[l].regs.q,
        inHandler := true, pc := h, next := h, blk := h, since := s.now, stepLatch := [] }) ∧
    (u.image = none → LaneMask.has m l = false → t = v.lanes[l])

/-- R199, R433: RFT without skipping gives each thread of the group its queue as it was and clears the in-handler bit; the
other registers, `cause` and `epc` stay; the thread stands at its faulting run. -/
def Obligations.HandlerReturn : Prop :=
  ∀ (s : State) (w : WaveId) (m : LaneMask) (blk : Word) (u : Team) (v : Wave) (l : Fin 32),
    s.team? w.team = some u → u.wave? w.uid = some v → LaneMask.has m l = true →
    (∀ k, LaneMask.has m k = true → v.lanes[k].resumption false = v.lanes[l].resumption false) →
    (s.returnFrom w m blk false).thread w l =
      { v.lanes[l] with
        regs := { v.lanes[l].regs with q := v.lanes[l].snapshot }, inHandler := false, blk := v.lanes[l].resumeBlk,
        pc := if v.lanes[l].epc = v.lanes[l].resumeBlk + 8 then v.lanes[l].resumeBlk else v.lanes[l].epc,
        since := s.now, status := .ready }

/-! ## Memory at commit -/

/-- R4, R32, R170, R182: a plain store of a committed run puts its bytes where they belong, lowest first, and changes no
other byte of memory, beyond what the translation of its address sets in a table entry: nothing where a TLB entry serves
it. -/
def Obligations.StoredBytes : Prop :=
  (∀ (s : State) (r : Run) (e : Store) (p hpa : Nat), e.loc = .phys p hpa → s.isLocal hpa = true →
    (∀ i < e.bytes.length, ∀ j < e.bytes.length, s.key p (hpa + i) = s.key p (hpa + j) → i = j) →
    (∀ i < e.bytes.length, (s.applyStore r e).mem.read (s.key p (hpa + i)) = e.bytes.getD i 0) ∧
    (∀ a, (∀ i < e.bytes.length, s.key p (hpa + i) ≠ a) →
      (s.applyStore r e).mem.read a = (s.touch (s.xctx r.wave) e.va.toNat .write).mem.read a) ∧
    (s.heldAt (s.xctx r.wave) e.va.toNat .write ≠ none → s.touch (s.xctx r.wave) e.va.toNat .write = s)) ∧
  ∀ (s : State) (r : Run) (e : Store) (t : TeamId) (o : Nat), e.loc = .scr t o → s.team? t ≠ none →
    (∀ i < e.bytes.length, ((s.applyStore r e).team t).scr.read (o + i) = e.bytes.getD i 0) ∧
    (∀ a, (∀ i < e.bytes.length, o + i ≠ a) → ((s.applyStore r e).team t).scr.read a = (s.team t).scr.read a) ∧
    (s.applyStore r e).mem = s.mem ∧ ∀ u, u ≠ t → ((s.applyStore r e).team u).scr = (s.team u).scr

/-- R362: the new value of each atomic operation, on words of 32 or 64 bits; an atomic on a scratchpad word answers the old
value and leaves the new one there. -/
def Obligations.AtomicValues : Prop :=
  (∀ (wide : Bool),
    let b := if wide then 64 else 32
    let f := if wide then Fmt.f64 else Fmt.f32
    ∀ old v cmp : BitVec b,
      let new := fun op => BitVec.ofNat b (atomicNew op b old.toNat v.toNat cmp.toNat)
      new .add = old + v ∧ new .smin = (if v.slt old then v else old) ∧ new .smax = (if old.slt v then v else old) ∧
      new .umin = (if v < old then v else old) ∧ new .umax = (if old < v then v else old) ∧ new .and = old &&& v ∧
      new .or = old ||| v ∧ new .xor = old ^^^ v ∧ new .exch = v ∧ new .cas = (if old = cmp then v else old) ∧
      new .fadd = BitVec.ofNat b (f.add .ne (f.decode old.toNat) (f.decode v.toNat)).bits ∧
      new .fmin = BitVec.ofNat b (f.minmax false old.toNat v.toNat).bits ∧
      new .fmax = BitVec.ofNat b (f.minmax true old.toNat v.toNat).bits) ∧
  ∀ (s : State) core (t : TeamId) o op n v cmp, s.team? t ≠ none →
    let (old, s') := s.atomicAt core (.scr t o) op n v cmp
    old = natLE (s.readScr t o n) ∧ natLE (s'.readScr t o n) = atomicNew op (8 * n) old v cmp % 2 ^ (8 * n) ∧
      ∀ a, (a < o ∨ o + n ≤ a) → (s'.team t).scr.read a = (s.team t).scr.read a
end

