-- ==== Sys2Proof/Laws/Execute.lean ====
section
/-!
SUPPORT. What `execute` does, said once: the lemmas that claims about single instructions cite instead of unfolding it.
-/

namespace Sys2Proof.Machine

open Sys2Proof

/-- An instruction that may execute is handed to its body. -/
theorem execute_ready {s : State} {i : Instr} {r : Run} {sh : Shape} (h : Ready s i r sh) (tys : List Ty)
    (body : State → Run → Shape → Body) :
    execute s i tys body =
      match body (s.tokenReads r sh) r sh with
      | .fault s' e => .next (s'.raiseRun r { e with enc := encode i })
      | .wait s' => .next (s'.putRun { r with suspended := true })
      | .waitWith s' r' => .next (s'.putRun { r' with suspended := true })
      | .gone s' => .next s'
      | .done s' r' eff => .next (s.conclude tys (encode i) r sh s' r' eff) := by
  obtain ⟨hr, hs, hl, hw, ha⟩ := h
  cases hx : s.runs with
  | nil => simp [hx] at hr
  | cons r0 rest =>
    simp only [hx, List.head?_cons, Option.some.injEq] at hr
    subst hr
    simp only [execute, hx, hs, hl, hw, ha]
    rfl

theorem conclude_plain {s s' : State} {tys : List Ty} {ws : List W32} {r r' : Run} {sh : Shape} (h : FallsWell s s' r sh) :
    s.conclude tys ws r sh s' r' .goOn = s.afterPlain tys r sh s' r' := by
  by_cases he : s.endsHere r sh = true
  · obtain ⟨t, ht⟩ := h he
    simp [State.conclude, State.afterPlain, State.afterOwn, State.closed, State.runAfter, State.fallen, he, ht]
  · simp [State.conclude, State.afterPlain, State.afterOwn, State.runAfter, he]

theorem conclude_own {s s' : State} {tys : List Ty} {ws : List W32} {r r' : Run} {sh : Shape} {f : State → Run → State}
    (h : FallsWell s s' r sh) : s.conclude tys ws r sh s' r' (.own f) = s.afterOwn tys r sh s' r' f := by
  by_cases he : s.endsHere r sh = true
  · obtain ⟨t, ht⟩ := h he
    simp [State.conclude, State.afterOwn, State.closed, State.runAfter, State.fallen, he, ht]
  · simp [State.conclude, State.afterOwn, State.runAfter, he]

theorem conclude_leave {s s' : State} {tys : List Ty} {ws : List W32} {r r' : Run} {sh : Shape} {f : State → Run → State} :
    s.conclude tys ws r sh s' r' (.leave f) = s.afterLeave tys r sh s' r' f := by
  by_cases he : s.endsHere r sh = true
  · simp [State.conclude, State.afterLeave, State.closed, State.runAfter, he]
  · simp [State.conclude, State.afterLeave, State.runAfter, he]

/-- An instruction whose body is done with registers and stores alone. -/
theorem execute_plain {s s' : State} {i : Instr} {r r' : Run} {sh : Shape} {tys : List Ty}
    {body : State → Run → Shape → Body} (h : Ready s i r sh) (hb : body (s.tokenReads r sh) r sh = .done s' r' .goOn)
    (hf : FallsWell s s' r sh) : execute s i tys body = .next (s.afterPlain tys r sh s' r') := by
  simp only [execute_ready h, hb, conclude_plain hf]

/-- An instruction with an effect at commit. -/
theorem execute_own {s s' : State} {i : Instr} {r r' : Run} {sh : Shape} {tys : List Ty} {f : State → Run → State}
    {body : State → Run → Shape → Body} (h : Ready s i r sh) (hb : body (s.tokenReads r sh) r sh = .done s' r' (.own f))
    (hf : FallsWell s s' r sh) : execute s i tys body = .next (s.afterOwn tys r sh s' r' f) := by
  simp only [execute_ready h, hb, conclude_own hf]

/-- A transfer. -/
theorem execute_leave {s s' : State} {i : Instr} {r r' : Run} {sh : Shape} {tys : List Ty} {f : State → Run → State}
    {body : State → Run → Shape → Body} (h : Ready s i r sh) (hb : body (s.tokenReads r sh) r sh = .done s' r' (.leave f)) :
    execute s i tys body = .next (s.afterLeave tys r sh s' r' f) := by
  simp only [execute_ready h, hb, conclude_leave]

/-- An instruction whose body raises an exception. -/
theorem execute_fault {s s' : State} {i : Instr} {r : Run} {sh : Shape} {tys : List Ty} {e : Exc}
    {body : State → Run → Shape → Body} (h : Ready s i r sh) (hb : body (s.tokenReads r sh) r sh = .fault s' e) :
    execute s i tys body = .next (s'.raiseRun r { e with enc := encode i }) := by
  simp only [execute_ready h, hb]

/-- An instruction that waits. -/
theorem execute_wait {s s' : State} {i : Instr} {r : Run} {sh : Shape} {tys : List Ty}
    {body : State → Run → Shape → Body} (h : Ready s i r sh) (hb : body (s.tokenReads r sh) r sh = .wait s') :
    execute s i tys body = .next (s'.putRun { r with suspended := true }) := by
  simp only [execute_ready h, hb]

/-- Reading tokens acquires what they bring and forgets them; nothing else changes (R176, R188). -/
theorem tokenReads_cases (s : State) (r : Run) (sh : Shape) :
    s.tokenReads r sh = s ∨ ∃ core sig m, s.tokenReads r sh =
      (s.acquire core sig).modLanes r.wave m fun _ t => { t with
        tokSig := none, tokReg := 0 } := by
  dsimp only [State.tokenReads]
  split
  · exact .inl rfl
  · exact .inr ⟨_, _, _, rfl⟩

end Sys2Proof.Machine
end

