-- ==== Sys2Proof/Laws/Integer.lean ====
section
/-!
SUPPORT. The integer functions of the machine over numbers, as operations on bit vectors.
-/

namespace Sys2Proof.Machine

open Sys2Proof

theorem width_pos (w : Width) : 0 < w.bits := by cases w <;> decide

theorem sub_lt (w : Width) (x : Word) (j : Nat) : sub w x j < 2 ^ w.bits := Nat.mod_lt _ (Nat.two_pow_pos _)

theorem toNat_of_lt {w a : Nat} (h : a < 2 ^ w) : (BitVec.ofNat w a).toNat = a := by
  simp [Nat.mod_eq_of_lt h]

theorem wrap_eq (w : Nat) (v : Int) : wrap w v = (BitVec.ofInt w v).toNat := by
  simp [wrap, BitVec.toNat_ofInt]

theorem signed_eq {w v : Nat} (hw : 0 < w) (h : v < 2 ^ w) : signed w v = (BitVec.ofNat w v).toInt := by
  have h2 : 2 ^ w = 2 * 2 ^ (w - 1) := by rw [← Nat.pow_succ']; congr 1; omega
  rw [BitVec.toInt_eq_toNat_cond, toNat_of_lt h]
  unfold signed
  split <;> split <;> omega

theorem ival_eq {t : ITy} {v : Nat} (h : v < 2 ^ t.width.bits) :
    ival t v = readAs t.signed (BitVec.ofNat t.width.bits v) := by
  unfold ival readAs
  cases t.signed <;> simp only [if_true, if_false, Bool.false_eq_true]
  · rw [toNat_of_lt h]
  · exact signed_eq (width_pos _) h

theorem ofInt_readAs (sg : Bool) {w : Nat} (a : BitVec w) : BitVec.ofInt w (readAs sg a) = a := by
  unfold readAs
  cases sg
  · apply BitVec.eq_of_toNat_eq
    simp
  · simp

section Arith

variable {t : ITy} {a b c : Nat}

theorem clamp_eq (t : ITy) (v : Int) : wrap t.width.bits (clampTo t v) = (clampRule t.signed t.width.bits v).toNat := by
  rw [wrap_eq]
  congr 1
  obtain ⟨sg, w⟩ := t
  have e : ∀ n : Nat, ((2 ^ n : Nat) : Int) = 2 ^ n := fun n => by push_cast; rfl
  cases sg
  · simp only [clampRule, clampTo, Bool.false_eq_true, if_false, e]
    congr 1
    have : (0 : Int) ≤ 2 ^ w.bits - 1 := by have := Nat.two_pow_pos w.bits; have := e w.bits; omega
    split
    · omega
    · split <;> omega
  · simp only [clampRule, clampTo, if_true, e]
    congr 1
    have : (1 : Int) ≤ 2 ^ (w.bits - 1) := by have := Nat.two_pow_pos (w.bits - 1); have := e (w.bits - 1); omega
    split
    · omega
    · split <;> omega

theorem iaddF_eq (ha : a < 2 ^ t.width.bits) (hb : b < 2 ^ t.width.bits) :
    iaddF t false a b c = (BitVec.ofNat t.width.bits a + BitVec.ofNat t.width.bits b).toNat := by
  simp only [iaddF, iresult, Bool.false_eq_true, if_false, wrap_eq, ival_eq ha, ival_eq hb, BitVec.ofInt_add, ofInt_readAs]

theorem iaddSatF_eq (ha : a < 2 ^ t.width.bits) (hb : b < 2 ^ t.width.bits) :
    iaddF t true a b c =
      (clampRule t.signed t.width.bits (readAs t.signed (BitVec.ofNat t.width.bits a) + readAs t.signed (BitVec.ofNat t.width.bits b))).toNat := by
  simp only [iaddF, iresult, if_true, clamp_eq, ival_eq ha, ival_eq hb]

theorem isubF_eq (ha : a < 2 ^ t.width.bits) (hb : b < 2 ^ t.width.bits) :
    isubF t false a b c = (BitVec.ofNat t.width.bits a - BitVec.ofNat t.width.bits b).toNat := by
  simp only [isubF, iresult, Bool.false_eq_true, if_false, wrap_eq, ival_eq ha, ival_eq hb, Int.sub_eq_add_neg, BitVec.ofInt_add, BitVec.ofInt_neg, ofInt_readAs, BitVec.sub_eq_add_neg]

theorem isubSatF_eq (ha : a < 2 ^ t.width.bits) (hb : b < 2 ^ t.width.bits) :
    isubF t true a b c =
      (clampRule t.signed t.width.bits (readAs t.signed (BitVec.ofNat t.width.bits a) - readAs t.signed (BitVec.ofNat t.width.bits b))).toNat := by
  simp only [isubF, iresult, if_true, clamp_eq, ival_eq ha, ival_eq hb]

theorem imulF_eq (ha : a < 2 ^ t.width.bits) (hb : b < 2 ^ t.width.bits) :
    imulF t a b c = (BitVec.ofNat t.width.bits a * BitVec.ofNat t.width.bits b).toNat := by
  simp only [imulF, wrap_eq, ival_eq ha, ival_eq hb, BitVec.ofInt_mul, ofInt_readAs]

theorem imulhF_eq (ha : a < 2 ^ t.width.bits) (hb : b < 2 ^ t.width.bits) :
    imulhF t a b c =
      (BitVec.ofInt t.width.bits
        (readAs t.signed (BitVec.ofNat t.width.bits a) * readAs t.signed (BitVec.ofNat t.width.bits b) / 2 ^ t.width.bits)).toNat := by
  simp only [imulhF, wrap_eq, ival_eq ha, ival_eq hb]
  norm_cast

theorem imadF_eq (ha : a < 2 ^ t.width.bits) (hb : b < 2 ^ t.width.bits) (hc : c < 2 ^ t.width.bits) :
    imadF t a b c = (BitVec.ofNat t.width.bits a * BitVec.ofNat t.width.bits b + BitVec.ofNat t.width.bits c).toNat := by
  simp only [imadF, wrap_eq, ival_eq ha, ival_eq hb, ival_eq hc, BitVec.ofInt_mul, BitVec.ofInt_add, ofInt_readAs]

theorem iminF_eq (ha : a < 2 ^ t.width.bits) (hb : b < 2 ^ t.width.bits) :
    iminF t a b c =
      (if readAs t.signed (BitVec.ofNat t.width.bits a) ≤ readAs t.signed (BitVec.ofNat t.width.bits b) then BitVec.ofNat t.width.bits a
        else BitVec.ofNat t.width.bits b).toNat := by
  simp only [iminF, ival_eq ha, ival_eq hb]
  split <;> split <;> simp only [toNat_of_lt ha, toNat_of_lt hb] <;> omega

theorem imaxF_eq (ha : a < 2 ^ t.width.bits) (hb : b < 2 ^ t.width.bits) :
    imaxF t a b c =
      (if readAs t.signed (BitVec.ofNat t.width.bits a) ≥ readAs t.signed (BitVec.ofNat t.width.bits b) then BitVec.ofNat t.width.bits a
        else BitVec.ofNat t.width.bits b).toNat := by
  simp only [imaxF, ival_eq ha, ival_eq hb]
  split <;> split <;> simp only [toNat_of_lt ha, toNat_of_lt hb] <;> omega

theorem inegF_eq {w : Width} (ha : a < 2 ^ w.bits) : inegF w a b c = (-BitVec.ofNat w.bits a).toNat := by
  simp only [inegF, wrap_eq, signed_eq (width_pos w) ha, BitVec.ofInt_neg, BitVec.ofInt_toInt]

theorem iabsF_eq {w : Width} (ha : a < 2 ^ w.bits) :
    iabsF w a b c = (if (BitVec.ofNat w.bits a).msb then -BitVec.ofNat w.bits a else BitVec.ofNat w.bits a).toNat := by
  have h : (((signed w.bits a).natAbs : Nat) : Int) = if (BitVec.ofNat w.bits a).msb then -(BitVec.ofNat w.bits a).toInt else (BitVec.ofNat w.bits a).toInt := by
    rw [signed_eq (width_pos w) ha]
    have := BitVec.toInt_neg_iff (x := BitVec.ofNat w.bits a)
    rw [BitVec.msb_eq_toInt]
    by_cases hn : (BitVec.ofNat w.bits a).toInt < 0 <;> simp [hn] <;> omega
  simp only [iabsF, wrap_eq, h]
  split <;> simp [BitVec.ofInt_neg]

theorem icmpF_eq {cc : Icc} (ha : a < 2 ^ t.width.bits) (hb : b < 2 ^ t.width.bits) [Decidable (compareRule cc
      (readAs t.signed (BitVec.ofNat t.width.bits a)) (readAs t.signed (BitVec.ofNat t.width.bits b)))] :
    icmpF cc t a b c =
      (if compareRule cc (readAs t.signed (BitVec.ofNat t.width.bits a)) (readAs t.signed (BitVec.ofNat t.width.bits b)) then
        BitVec.allOnes t.width.bits else 0).toNat := by
  simp only [icmpF, ival_eq ha, ival_eq hb, allOnesIf]
  have : relation cc (readAs t.signed (BitVec.ofNat t.width.bits a)) (readAs t.signed (BitVec.ofNat t.width.bits b)) = true ↔
      compareRule cc (readAs t.signed (BitVec.ofNat t.width.bits a)) (readAs t.signed (BitVec.ofNat t.width.bits b)) := by
    cases cc <;> simp [relation, compareRule]
  by_cases hr : compareRule cc (readAs t.signed (BitVec.ofNat t.width.bits a)) (readAs t.signed (BitVec.ofNat t.width.bits b))
  · rw [if_pos (this.2 hr), if_pos hr, BitVec.toNat_allOnes]
  · rw [if_neg (fun h => hr (this.1 h)), if_neg hr]; rfl

theorem leaF_eq {k : Fin 8} : leaF k a b c = (BitVec.ofNat 64 a + BitVec.ofNat 64 b * BitVec.ofNat 64 (2 ^ k.val)).toNat := by
  simp only [leaF, wrap_eq]
  congr 1
  rw [BitVec.ofInt_natCast, BitVec.ofNat_add, BitVec.ofNat_mul]

end Arith

end Sys2Proof.Machine
end

