-- ==== Sys2Proof/Laws/Bits.lean ====
section
/-!
SUPPORT. The logical, shift, count and bit-field functions of the machine over numbers, as operations on bit vectors.
-/

namespace Sys2Proof.Machine
open Sys2Proof

section Bits

variable {w : Nat} {a b c : Nat}

theorem andF_eq (ha : a < 2 ^ w) (hb : b < 2 ^ w) : andF a b c = (BitVec.ofNat w a &&& BitVec.ofNat w b).toNat := by
  simp only [andF, BitVec.toNat_and, toNat_of_lt ha, toNat_of_lt hb]

theorem orF_eq (ha : a < 2 ^ w) (hb : b < 2 ^ w) : orF a b c = (BitVec.ofNat w a ||| BitVec.ofNat w b).toNat := by
  simp only [orF, BitVec.toNat_or, toNat_of_lt ha, toNat_of_lt hb]

theorem xorF_eq (ha : a < 2 ^ w) (hb : b < 2 ^ w) : xorF a b c = (BitVec.ofNat w a ^^^ BitVec.ofNat w b).toNat := by
  simp only [xorF, BitVec.toNat_xor, toNat_of_lt ha, toNat_of_lt hb]

variable {v : Width}

theorem notF_eq (ha : a < 2 ^ v.bits) : notF v a b c = (~~~BitVec.ofNat v.bits a).toNat := by
  simp only [notF, BitVec.toNat_not, toNat_of_lt ha]

theorem andnF_eq (ha : a < 2 ^ v.bits) (hb : b < 2 ^ v.bits) :
    andnF v a b c = (BitVec.ofNat v.bits a &&& ~~~BitVec.ofNat v.bits b).toNat := by
  simp only [andnF, BitVec.toNat_and, BitVec.toNat_not, toNat_of_lt ha, toNat_of_lt hb]

theorem shlF_eq (ha : a < 2 ^ v.bits) (hb : b < 2 ^ v.bits) :
    shlF v a b c = (BitVec.ofNat v.bits a <<< BitVec.ofNat v.bits b).toNat := by
  rw [BitVec.shiftLeft_eq', BitVec.toNat_shiftLeft, toNat_of_lt ha, toNat_of_lt hb, Nat.shiftLeft_eq]
  unfold shlF
  split
  · rfl
  · rename_i h
    have : v.bits ≤ b := by omega
    obtain ⟨k, rfl⟩ := Nat.exists_eq_add_of_le this
    rw [Nat.pow_add, ← Nat.mul_assoc, Nat.mul_right_comm, Nat.mul_mod_left]

theorem shrF_eq (ha : a < 2 ^ v.bits) (hb : b < 2 ^ v.bits) :
    shrF v a b c = (BitVec.ofNat v.bits a >>> BitVec.ofNat v.bits b).toNat := by
  rw [BitVec.ushiftRight_eq', BitVec.toNat_ushiftRight, toNat_of_lt ha, toNat_of_lt hb, Nat.shiftRight_eq_div_pow]
  unfold shrF
  split
  · rfl
  · rename_i h
    rw [Nat.div_eq_of_lt]
    exact Nat.lt_of_lt_of_le ha (Nat.pow_le_pow_right (by decide) (by omega))

/-- A shift by more than the width takes the sign. -/
theorem div_pow_min {k : Nat} {x : Int} (h1 : -2 ^ k ≤ x) (h2 : x < 2 ^ k) (n : Nat) :
    x / (2 ^ min n k : Nat) = x / (2 ^ n : Nat) := by
  by_cases h : n ≤ k
  · rw [Nat.min_eq_left h]
  · have hk : k ≤ n := by omega
    rw [Nat.min_eq_right hk]
    have hp : (0 : Int) < 2 ^ k := by positivity
    have hq : (2 : Int) ^ k ≤ 2 ^ n := pow_le_pow_right₀ (by decide) hk
    push_cast
    rcases Int.lt_or_le x 0 with hx | hx
    · rw [(Int.ediv_eq_iff_of_pos (y := -1) hp).2 ⟨by omega, by omega⟩,
        (Int.ediv_eq_iff_of_pos (y := -1) (by omega)).2 ⟨by omega, by omega⟩]
    · rw [Int.ediv_eq_zero_of_lt hx h2, Int.ediv_eq_zero_of_lt hx (by omega)]

theorem sarF_eq (ha : a < 2 ^ v.bits) (hb : b < 2 ^ v.bits) :
    sarF v a b c = ((BitVec.ofNat v.bits a).sshiftRight (BitVec.ofNat v.bits b).toNat).toNat := by
  rw [toNat_of_lt hb]
  unfold sarF
  rw [wrap_eq, signed_eq (width_pos v) ha]
  congr 1
  conv => rhs; rw [← BitVec.ofInt_toInt (x := (BitVec.ofNat v.bits a).sshiftRight b), BitVec.toInt_sshiftRight,
    Int.shiftRight_eq_div_pow]
  congr 1
  exact div_pow_min (BitVec.le_toInt (x := BitVec.ofNat v.bits a)) (BitVec.toInt_lt (x := BitVec.ofNat v.bits a)) b

theorem rolF_eq (ha : a < 2 ^ v.bits) (hb : b < 2 ^ v.bits) :
    rolF v a b c = ((BitVec.ofNat v.bits a).rotateLeft (BitVec.ofNat v.bits b).toNat).toNat := by
  rw [toNat_of_lt hb, BitVec.toNat_rotateLeft, toNat_of_lt ha, Nat.shiftLeft_eq, Nat.shiftRight_eq_div_pow]
  unfold rolF
  have hk : b % v.bits < v.bits := Nat.mod_lt _ (width_pos v)
  generalize b % v.bits = k at hk ⊢
  have e : 2 ^ v.bits = 2 ^ k * 2 ^ (v.bits - k) := by rw [← Nat.pow_add]; congr 1; omega
  have hl : a / 2 ^ (v.bits - k) < 2 ^ k := by
    rw [Nat.div_lt_iff_lt_mul (Nat.two_pow_pos _), ← e]; exact ha
  simp only [Nat.mul_comm a, e, Nat.mul_mod_mul_left]
  exact Nat.two_pow_add_eq_or_of_lt hl _

/-- `popcount` counts the bits that are set. -/
theorem popcount_eq : ∀ n v : Nat, popcount n v = (List.range n).countP fun i => v.testBit i
  | 0, _ => by simp [popcount]
  | n + 1, v => by
    rw [popcount, popcount_eq n, List.range_succ_eq_map, List.countP_cons, List.countP_map, Nat.add_comm]
    congr 1
    · apply List.countP_congr
      intro i _
      simp [Function.comp, Nat.testBit_succ]
    · simp only [Nat.testBit_zero]
      have : v % 2 = 0 ∨ v % 2 = 1 := by omega
      rcases this with h | h <;> simp [h]

theorem popcF_eq (_ : a < 2 ^ v.bits) :
    popcF v a b c = (BitVec.ofNat v.bits ((List.range v.bits).countP fun i => (BitVec.ofNat v.bits a).getLsbD i)).toNat := by
  have h : (List.range v.bits).countP (fun i => (BitVec.ofNat v.bits a).getLsbD i) = popcount v.bits a := by
    rw [popcount_eq]
    apply List.countP_congr
    intro i hi
    rw [BitVec.getLsbD_ofNat]
    simp [List.mem_range.1 hi]
  have hl : popcount v.bits a < 2 ^ v.bits := by
    rw [popcount_eq]
    exact Nat.lt_of_le_of_lt List.countP_le_length (by simp [Nat.lt_two_pow_self])
  rw [h, toNat_of_lt hl]
  rfl

theorem countP_lt (k : Nat) : ∀ n : Nat, (List.range n).countP (fun i => decide (k < i)) = n - 1 - k
  | 0 => by simp
  | n + 1 => by
    rw [List.range_succ, List.countP_append, countP_lt k n]
    by_cases h : k < n <;> simp [h] <;> omega

theorem clzF_eq (ha : a < 2 ^ v.bits) :
    clzF v a b c = (BitVec.ofNat v.bits ((List.range v.bits).countP fun i => (BitVec.ofNat v.bits a).toNat < 2 ^ i)).toNat := by
  rw [toNat_of_lt ha]
  have hl : ∀ p : Nat → Bool, (List.range v.bits).countP p < 2 ^ v.bits := fun p =>
    Nat.lt_of_le_of_lt List.countP_le_length (by simp [Nat.lt_two_pow_self])
  rw [toNat_of_lt (hl _)]
  unfold clzF
  by_cases h : a = 0
  · simp [h]
  · simp only [h, if_false, ← Nat.log2_lt h]
    rw [countP_lt]

theorem testBit_reverseBits : ∀ n v i : Nat, (reverseBits n v).testBit i = (decide (i < n) && v.testBit (n - 1 - i))
  | 0, v, i => by simp [reverseBits]
  | n + 1, v, i => by
    have hlt : reverseBits n (v / 2) < 2 ^ n := by
      apply Nat.lt_pow_two_of_testBit
      intro j hj
      rw [testBit_reverseBits n]
      simp [Nat.not_lt.2 hj]
    rw [reverseBits, Nat.mul_comm, Nat.two_pow_add_eq_or_of_lt hlt, Nat.testBit_or, testBit_reverseBits n,
      Nat.testBit_two_pow_mul]
    rcases Nat.lt_trichotomy i n with h | h | h
    · have : n + 1 - 1 - i = (n - 1 - i) + 1 := by omega
      rw [this, Nat.testBit_succ]
      simp [h, Nat.not_le.2 h]
      omega
    · subst h
      simp
    · simp [Nat.not_lt.2 (Nat.le_of_lt h), Nat.le_of_lt h, show ¬ i < n + 1 by omega]
      have : i - n = (i - n - 1) + 1 := by omega
      rw [this, Nat.testBit_succ]
      have : v % 2 / 2 = 0 := by omega
      simp [this]

theorem brevF_eq (_ : a < 2 ^ v.bits) : brevF v a b c = (BitVec.ofNat v.bits a).reverse.toNat := by
  apply Nat.eq_of_testBit_eq
  intro i
  rw [brevF, testBit_reverseBits, BitVec.testBit_toNat, BitVec.getLsbD_reverse, BitVec.getMsbD, BitVec.getLsbD_ofNat]
  by_cases h : i < v.bits
  · simp [h, show v.bits - 1 - i < v.bits by omega]
  · simp [h]

theorem fieldAt_eq {t : ITy} (ha : a < 2 ^ t.width.bits) (o l : Nat) :
    (let f := a / 2 ^ o % 2 ^ l
     wrap t.width.bits (if t.signed && decide (l > 0) && decide (f ≥ 2 ^ (l - 1)) then (f : Int) - (2 ^ l : Nat) else f)) =
      (fieldAt t.signed t.width.bits (BitVec.ofNat _ a) o l).toNat := by
  have hf : (BitVec.extractLsb' o l (BitVec.ofNat t.width.bits a)).toNat = a / 2 ^ o % 2 ^ l := by
    rw [BitVec.extractLsb'_toNat, toNat_of_lt ha, Nat.shiftRight_eq_div_pow]
  have hlt : a / 2 ^ o % 2 ^ l < 2 ^ l := Nat.mod_lt _ (Nat.two_pow_pos _)
  simp only [fieldAt, wrap_eq]
  congr 1
  cases t.signed
  · simp only [Bool.false_and, if_false, Bool.false_eq_true]
    apply BitVec.eq_of_toNat_eq
    rw [BitVec.ofInt_natCast, BitVec.toNat_setWidth, hf, BitVec.toNat_ofNat]
  · simp only [if_true, Bool.true_and]
    rw [BitVec.signExtend]
    congr 1
    rw [BitVec.toInt_eq_toNat_cond, hf]
    rcases Nat.eq_zero_or_pos l with h0 | h0
    · subst h0
      simp [Nat.mod_one]
    · have h2 : 2 ^ l = 2 * 2 ^ (l - 1) := by rw [← Nat.pow_succ']; congr 1; omega
      by_cases h : 2 ^ (l - 1) ≤ a / 2 ^ o % 2 ^ l
      · simp only [h0, h, decide_true, Bool.and_self, if_true]
        rw [if_neg (by omega)]
      · simp only [h0, h, decide_true, decide_false, Bool.and_false, if_false, Bool.false_eq_true]
        rw [if_pos (by omega)]

theorem bfeF_eq {t : ITy} (ha : a < 2 ^ t.width.bits) (hb : b < 2 ^ t.width.bits) (hc : c < 2 ^ t.width.bits) :
    bfeF t a b c = (fieldRule t.signed t.width.bits (BitVec.ofNat _ a) (BitVec.ofNat _ b) (BitVec.ofNat _ c)).toNat := by
  simp only [fieldRule, toNat_of_lt hb, toNat_of_lt hc]
  rw [← fieldAt_eq ha]
  rfl

theorem insertAt_eq (ha : a < 2 ^ v.bits) (hb : b < 2 ^ v.bits) {o l : Nat} (h : o + l ≤ v.bits) :
    ((b &&& (2 ^ v.bits - 1 - (2 ^ l - 1) * 2 ^ o)) ||| (a * 2 ^ o % 2 ^ v.bits &&& (2 ^ l - 1) * 2 ^ o)) =
      (insertAt v.bits (BitVec.ofNat _ a) (BitVec.ofNat _ b) o l).toNat := by
  have hm : (BitVec.setWidth v.bits (BitVec.allOnes l) <<< o).toNat = (2 ^ l - 1) * 2 ^ o := by
    have h1 : 2 ^ l ≤ 2 ^ v.bits := Nat.pow_le_pow_right (by decide) (by omega)
    have hp := Nat.two_pow_pos l
    have ho := Nat.two_pow_pos o
    rw [BitVec.toNat_shiftLeft, BitVec.toNat_setWidth, BitVec.toNat_allOnes, Nat.shiftLeft_eq,
      Nat.mod_eq_of_lt (a := 2 ^ l - 1) (by omega)]
    have h2 : 2 ^ l * 2 ^ o ≤ 2 ^ v.bits := by
      rw [← Nat.pow_add]
      exact Nat.pow_le_pow_right (by decide) (by omega)
    apply Nat.mod_eq_of_lt
    have h3 : (2 ^ l - 1) * 2 ^ o < 2 ^ l * 2 ^ o := Nat.mul_lt_mul_of_pos_right (by omega) ho
    omega
  simp only [insertAt, BitVec.toNat_or, BitVec.toNat_and, BitVec.toNat_not, toNat_of_lt hb, hm]
  rw [BitVec.toNat_shiftLeft, toNat_of_lt ha, Nat.shiftLeft_eq]

theorem bfiF_eq (ha : a < 2 ^ v.bits) (hb : b < 2 ^ v.bits) (hc : c < 2 ^ v.bits) :
    bfiF v a b c = (insertRule v.bits (BitVec.ofNat _ a) (BitVec.ofNat _ b) (BitVec.ofNat _ c)).toNat := by
  simp only [insertRule, toNat_of_lt hc]
  rw [← insertAt_eq ha hb (by omega)]
  simp only [bfiF]

end Bits

end Sys2Proof.Machine
end

