-- ==== Sys2Proof/Laws/Alu.lean ====
section
/-!
SUPPORT. Sets of lanes as tests, and what the shared bodies of the ALU class do.
-/

namespace Sys2Proof.Machine

open Sys2Proof

/-! ## Sets of lanes -/

theorem has_or (a b : LaneMask) (l : Fin 32) : LaneMask.has (a ||| b) l = (LaneMask.has a l || LaneMask.has b l) := by
  simp [LaneMask.has]

theorem has_laneBit (k l : Fin 32) : LaneMask.has (laneBit k) l = decide (l = k) := by
  simp only [LaneMask.has, laneBit, BitVec.getLsbD_ofNat, Nat.testBit_two_pow]
  have := l.isLt
  simp [this, Fin.ext_iff, eq_comm]

theorem has_foldl (ls : List (Fin 32)) (m : LaneMask) (l : Fin 32) :
    LaneMask.has (ls.foldl (fun m k => m ||| laneBit k) m) l = (LaneMask.has m l || decide (l ∈ ls)) := by
  induction ls generalizing m with
  | nil => simp
  | cons k ks ih =>
    rw [List.foldl_cons, ih, has_or, has_laneBit]
    by_cases h : l = k <;> simp [h]

theorem has_maskOf (ls : List (Fin 32)) (l : Fin 32) : LaneMask.has (maskOf ls) l = decide (l ∈ ls) := by
  rw [maskOf, has_foldl]
  simp [LaneMask.has]

/-- A lane is in the mask of a test if it passes it. -/
@[simp] theorem has_maskWhere (p : Fin 32 → Bool) (l : Fin 32) : LaneMask.has (maskWhere p) l = p l := by
  rw [maskWhere, has_maskOf]
  simp [lanesAll]

theorem mask_ext {a b : LaneMask} (h : ∀ l, LaneMask.has a l = LaneMask.has b l) : a = b := by
  apply BitVec.eq_of_getLsbD_eq
  intro i hi
  exact h ⟨i, hi⟩

theorem maskWhere_eq_zero {p : Fin 32 → Bool} : maskWhere p = 0 ↔ ∀ l, p l = false := by
  constructor
  · intro h l
    rw [← has_maskWhere p l, h]
    simp [LaneMask.has]
  · intro h
    apply mask_ext
    intro l
    rw [has_maskWhere, h]
    simp [LaneMask.has]

theorem maskWhere_has (m : LaneMask) : maskWhere (LaneMask.has m) = m := mask_ext fun l => has_maskWhere _ l

theorem mem_lanesOf {m : LaneMask} {l : Fin 32} : l ∈ lanesOf m ↔ LaneMask.has m l = true := by
  simp [lanesOf, lanesAll]

/-! ## Bodies -/

/-- No enabled flag: the results are written. -/
theorem finishPut_clean {s : State} {r : Run} {trap : Bool} {flags : Fin 32 → Flags} {put : Fin 32 → Regs → Regs}
    (h : NoFpx r trap flags) : finishPut s r trap flags put = .done s (r.write flags put) .goOn := by
  have : maskWhere (fun l => LaneMask.has r.group l && fpxFlags r.spec[l].fpen trap (flags l) ≠ 0) = 0 := by
    rw [maskWhere_eq_zero]
    intro l
    cases hg : LaneMask.has r.group l
    · simp
    · have := h l hg
      simp only [this]
      rfl
  simp only [finishPut, this, ne_eq, not_true_eq_false, if_false]

/-- Without flags nothing traps. -/
theorem noFpx_zero (r : Run) (trap : Bool) : NoFpx r trap fun _ => 0 := by
  intro l _
  simp [fpxFlags]

/-- Lanes that do not consume poison. -/
theorem noBad {r : Run} {bad : Fin 32 → Bool} (h : ∀ l, LaneMask.has r.group l = true → bad l = false) :
    maskWhere (fun l => LaneMask.has r.group l && bad l) = 0 := by
  rw [maskWhere_eq_zero]
  intro l
  cases hg : LaneMask.has r.group l
  · simp
  · simp [h l hg]

/-- Two runs with the same changes of registers in the lanes of the group are one. -/
theorem write_congr {r : Run} {f g : Fin 32 → Flags} {p q : Fin 32 → Regs → Regs}
    (hf : ∀ l, LaneMask.has r.group l = true → f l = g l)
    (hp : ∀ l, LaneMask.has r.group l = true → p l = q l) : r.write f p = r.write g q := by
  unfold Run.write
  congr 1
  · apply Vector.ext
    intro i hi
    simp only [Vector.getElem_mapFinIdx]
    split
    · rename_i h; rw [hp ⟨i, hi⟩ h]
    · rfl
  · apply Vector.ext
    intro i hi
    simp only [Vector.getElem_mapFinIdx]
    split
    · rename_i h; rw [hf ⟨i, hi⟩ h]
    · rfl
  · simp only [List.flatMap_def]
    rw [List.map_congr_left fun l hl => by rw [hp l (mem_lanesOf.1 hl)]]

theorem foldl_or_bit {ls : List (Fin 32)} {f : Fin 32 → Flags} {a : Flags} {k : Nat} :
    (ls.foldl (fun a l => a ||| f l) a).getLsbD k = true ↔ a.getLsbD k = true ∨ ∃ l ∈ ls, (f l).getLsbD k = true := by
  induction ls generalizing a with
  | nil => simp
  | cons l ls ih => simp [ih, or_assoc]

/-- The shape of every body of the ALU class: the check for poison, FPX, and the results. -/
def AluRule.body (g : AluRule) (s : State) (r : Run) (sh : Shape) : Body :=
  if maskWhere (fun l => LaneMask.has r.group l && g.bad s r sh l) ≠ 0 then
    .fault s (poisonExc (maskWhere fun l => LaneMask.has r.group l && g.bad s r sh l))
  else finishPut s r (g.trap s r) (g.flags s r sh) (g.put s r sh)

/-- A rule whose body is that shape governs its instruction. -/
theorem governs_of_body {g : AluRule} {i : Instr} {body : State → Run → Shape → Body}
    (he : ∀ s r, s.runs.head? = some r → exec i s = execute s i (g.tys s r) body)
    (hb : ∀ s r sh, body s r sh = g.body s r sh) : g.Governs i := by
  refine ⟨fun s r sh hr hc hf => ?_, fun s r sh hr hp => ?_, fun s r sh hr hp hx => ?_⟩
  · refine (he s r hr.inHand).trans (execute_plain hr ?_ hf)
    rw [hb, AluRule.body, if_neg (not_not.2 (noBad hc.1))]
    exact finishPut_clean hc.2
  · rw [he s r hr.inHand, execute_fault (s' := s.tokenReads r sh) (e := poisonExc (g.poisons (s.tokenReads r sh) r sh)) hr]
    · rfl
    · rw [hb]
      exact if_pos hp
  · have hm : ∀ l, (LaneMask.has r.group l && decide (fpxFlags r.spec[l].fpen (g.trap (s.tokenReads r sh) r)
        (g.flags (s.tokenReads r sh) r sh l) ≠ 0)) = decide (g.raises (s.tokenReads r sh) r sh l ≠ 0) := by
      intro l
      unfold AluRule.raises
      cases LaneMask.has r.group l <;> simp
    have hn : maskWhere (fun l => decide (g.raises (s.tokenReads r sh) r sh l ≠ 0)) ≠ 0 := by
      obtain ⟨l, hl⟩ := hx
      intro h
      exact hl (of_decide_eq_false (maskWhere_eq_zero.1 h l) |> not_not.1)
    refine ⟨(lanesOf (maskWhere fun l => g.raises (s.tokenReads r sh) r sh l ≠ 0)).foldl
      (fun a l => a ||| g.raises (s.tokenReads r sh) r sh l) 0, fun k => ?_, ?_⟩
    · rw [foldl_or_bit]
      have z : (0 : Flags).getLsbD k = false := BitVec.getLsbD_zero
      simp only [mem_lanesOf, has_maskWhere, decide_eq_true_eq, z, Bool.false_eq_true, false_or]
      constructor
      · rintro ⟨l, -, h⟩; exact ⟨l, h⟩
      · rintro ⟨l, h⟩
        refine ⟨l, fun h0 => ?_, h⟩
        rw [h0, z] at h
        cases h
    · rw [he s r hr.inHand, execute_fault (s' := s.tokenReads r sh) (e := fpxExc _ _) hr]
      · rfl
      · rw [hb, AluRule.body]
        refine (if_neg (not_not.2 hp)).trans ?_
        simp only [finishPut, hm]
        rw [if_pos hn]
        congr 2
        apply List.foldl_ext
        intro a l hl
        rw [mem_lanesOf, has_maskWhere, decide_eq_true_eq] at hl
        congr 1
        unfold AluRule.raises at hl ⊢
        split at hl
        · rename_i h; rw [if_pos h]
        · exact absurd rfl hl

theorem AluRule.Governs.computes {g : AluRule} {i : Instr} (h : g.Governs i) : g.Computes i := ⟨h.1, h.2.1⟩

/-- The ALU body of the rounding instructions. -/
theorem aluBody_round {t : Ty} {g : Nat → Nat → Nat → Rnd} {s : State} {r : Run} {sh : Shape} :
    aluBody [t, t, t] t.width t.width false false (perSubF t.width g) s r sh = (roundRule t g).body s r sh := by
  simp only [aluBody, Bool.not_false, Bool.and_true]
  rfl

/-- Without flags, the rounding body is the plain one. -/
theorem perSubF_plain (w : Width) (g : Nat → Nat → Nat → Nat) (x : LaneIn) :
    perSubF w (fun a b c => ⟨g a b c, 0⟩) x = perSub w g x := by
  have : ∀ n (x : LaneIn), (List.range n).foldl (fun (a : Flags) j => if x.mask.getLsbD j then a ||| 0 else a) 0 = 0 := by
    intro n x
    induction n with
    | zero => rfl
    | succ n ih => rw [List.range_succ, List.foldl_append, ih]; simp
  simp only [perSubF, perSub, plain, this]

/-- The ALU body of the integer instructions. -/
theorem aluBody_sub {t : ITy} {g : SubRule} {k : Nat → Nat → Nat → Nat}
    (hk : ∀ {a b c : Nat}, a < 2 ^ t.width.bits → b < 2 ^ t.width.bits → c < 2 ^ t.width.bits →
      k a b c = (g t.width.bits (BitVec.ofNat _ a) (BitVec.ofNat _ b) (BitVec.ofNat _ c)).toNat)
    {s : State} {r : Run} {sh : Shape} :
    aluBody [.int t, .int t, .int t] (Ty.int t).width (Ty.int t).width false false (perSub t.width k) s r sh =
      (subRule t g).body s r sh := by
  have hv : perSub t.width k = fun x => plain (g.word t.width x) := by
    funext x
    unfold perSub SubRule.word
    congr 2
    funext j
    exact hk (sub_lt _ _ _) (sub_lt _ _ _) (sub_lt _ _ _)
  simp only [aluBody, Bool.not_false, Bool.and_true, hv]
  rfl

/-- An integer rule governs an instruction by its function of sub-elements. -/
theorem governs_sub {t : ITy} {g : SubRule} {k : Nat → Nat → Nat → Nat} {i : Instr} (he : ∀ s, exec i s = intOp i t k s)
    (hk : ∀ {a b c : Nat}, a < 2 ^ t.width.bits → b < 2 ^ t.width.bits → c < 2 ^ t.width.bits →
      k a b c = (g t.width.bits (BitVec.ofNat _ a) (BitVec.ofNat _ b) (BitVec.ofNat _ c)).toNat) :
    (subRule t g).Governs i :=
  governs_of_body (fun s _ _ => he s) fun _ _ _ => aluBody_sub hk

/-- A rounding rule governs a float instruction. -/
theorem governs_round {t : FTy} {g : Nat → Nat → Nat → Rnd} {i : Instr} (he : ∀ s, exec i s = fltOp i t g s) :
    (roundRule (.flt t) g).Governs i :=
  governs_of_body (fun s _ _ => he s) fun _ _ _ => aluBody_round

/-- The same without flags. -/
theorem governs_codes {t : FTy} {g : Nat → Nat → Nat → Nat} {i : Instr}
    (he : ∀ s, exec i s = aluOp i (.flt t) (perSub t.width g) s) :
    (roundRule (.flt t) fun a b c => ⟨g a b c, 0⟩).Governs i :=
  governs_of_body (fun s _ _ => he s) fun s r sh => by
    rw [← aluBody_round, funext (perSubF_plain _ g)]
    rfl

end Sys2Proof.Machine
end

