-- ==== Sys2Proof/Laws/Codec.lean ====
section
/-!
SUPPORT. Field codes and class layouts: each code reads as what it stands for, no other code does, and the fields of a
word stand where its layout puts them.
-/

namespace Sys2Proof

/-! ## Field codes -/

/-- Both directions of a field's code, from a check over all its values. -/
theorem ok_of_toOption {α ε : Type} {x : Except ε α} {a : α} (h : x.toOption = some a) : x = .ok a := by
  cases x with
  | ok b => exact congrArg _ (Option.some.inj h)
  | error _ => exact absurd h (by simp [Except.toOption])

theorem toOption_of_ok {α ε : Type} {x : Except ε α} {a : α} (h : x = .ok a) : x.toOption = some a := by rw [h]; rfl


theorem srcOf_code (s : Src) : srcOf (Src.code s) = .ok s := by
  apply ok_of_toOption
  cases s with
  | q k => revert k; decide
  | h k => revert k; decide
  | n k => revert k; decide
  | lit => rfl
  | zero => rfl
  | one => rfl

theorem srcOf_ok {v : BitVec 6} {s : Src} (h : srcOf v = .ok s) : Src.code s = v := by
  have key : ∀ v : BitVec 6, (srcOf v).toOption.all (fun s => Src.code s = v) = true := by decide
  have := key v
  rw [toOption_of_ok h] at this
  simpa using this

theorem dstOf_code (s : Dst) : dstOf (Dst.code s) = .ok s := by
  apply ok_of_toOption
  cases s with
  | n k => revert k; decide
  | push => rfl
  | void => rfl

theorem dstOf_ok {v : BitVec 6} {s : Dst} (h : dstOf v = .ok s) : Dst.code s = v := by
  have key : ∀ v : BitVec 6, (dstOf v).toOption.all (fun s => Dst.code s = v) = true := by decide
  have := key v
  rw [toOption_of_ok h] at this
  simpa using this

theorem routeOf_code (s : Route) : routeOf (Route.code s) = .ok s := by
  apply ok_of_toOption
  cases s with
  | own => rfl
  | rot k => revert k; decide
  | bc k => revert k; decide
  | bfly k => revert k; decide
  | idx k => revert k; decide

theorem routeOf_ok {v : BitVec 7} {s : Route} (h : routeOf v = .ok s) : Route.code s = v := by
  have key : ∀ v : BitVec 7, (routeOf v).toOption.all (fun s => Route.code s = v) = true := by decide
  have := key v
  rw [toOption_of_ok h] at this
  simpa using this

theorem asrcOf_code (s : ASrc) : asrcOf (ASrc.code s) = .ok s := by
  apply ok_of_toOption
  cases s with
  | a k => revert k; decide
  | zero => rfl
  | one => rfl
  | lit => rfl

theorem asrcOf_ok {v : BitVec 6} {s : ASrc} (h : asrcOf v = .ok s) : ASrc.code s = v := by
  have key : ∀ v : BitVec 6, (asrcOf v).toOption.all (fun s => ASrc.code s = v) = true := by decide
  have := key v
  rw [toOption_of_ok h] at this
  simpa using this

theorem adstOf_code (s : Option (Fin 16)) : adstOf (adstCode s) = .ok s := by
  apply ok_of_toOption
  cases s with
  | none => rfl
  | some k => revert k; decide

theorem adstOf_ok {v : BitVec 6} {s : Option (Fin 16)} (h : adstOf v = .ok s) : adstCode s = v := by
  have key : ∀ v : BitVec 6, (adstOf v).toOption.all (fun s => adstCode s = v) = true := by decide
  have := key v
  rw [toOption_of_ok h] at this
  simpa using this

theorem nOf_code (s : Option (Fin 32)) : nOf (nCode s) = .ok s := by
  apply ok_of_toOption
  cases s with
  | none => rfl
  | some k => revert k; decide

theorem nOf_ok {v : BitVec 6} {s : Option (Fin 32)} (h : nOf v = .ok s) : nCode s = v := by
  have key : ∀ v : BitVec 6, (nOf v).toOption.all (fun s => nCode s = v) = true := by decide
  have := key v
  rw [toOption_of_ok h] at this
  simpa using this

theorem holdOf_code (s : Hold) : holdOf (Hold.code s) = s := by cases s <;> rfl

theorem holdOf_back_of (v : BitVec 2) : Hold.code (holdOf v) = v := by revert v; decide

theorem rmOf_code (s : Rm) : rmOf (Rm.code s) = s := by cases s <;> rfl

theorem rmOf_back_of (v : BitVec 2) : Rm.code (rmOf v) = v := by revert v; decide

theorem ordOf_code (s : Ord4) : ordOf (Ord4.code s) = s := by cases s <;> rfl

theorem ordOf_back_of (v : BitVec 2) : Ord4.code (ordOf v) = v := by revert v; decide

theorem widthOf_code (s : Width) : widthOf s.code = s := by cases s <;> rfl

theorem widthOf_back : ∀ c < 4, (widthOf c).code = c := by decide

theorem ityOf_code (t : ITy) : ityOf t.code = t := by
  obtain ⟨s, w⟩ := t
  cases s <;> cases w <;> rfl

theorem ityOf_back : ∀ c < 8, (ityOf c).code = c := by decide

theorem ftyOf_code (t : FTy) : ftyOf (t.code - 8) = t := by cases t <;> rfl

theorem ftyOf_back : ∀ c < 4, (ftyOf c).code = c + 8 := by decide

theorem tyOf_code (s : Ty) : tyOf (Ty.code s) = .ok s := by
  obtain ⟨⟨s, w⟩⟩ | t | _ | _ | _ := s
  · cases s <;> cases w <;> rfl
  · cases t <;> rfl
  all_goals rfl

theorem tyOf_ok {c : Nat} {s : Ty} (hc : c < 16) (h : tyOf c = .ok s) : Ty.code s = c := by
  have key : ∀ c < 16, (tyOf c).toOption.all (fun s => Ty.code s = c) = true := by decide
  have := key c hc
  rw [toOption_of_ok h] at this
  simpa using this

theorem iccOf_code (s : Icc) : iccOf (Icc.code s) = .ok s := by
  cases s <;> rfl

theorem iccOf_ok {c : Nat} {s : Icc} (hc : c < 64) (h : iccOf c = .ok s) : Icc.code s = c := by
  have key : ∀ c < 64, (iccOf c).toOption.all (fun s => Icc.code s = c) = true := by decide
  have := key c hc
  rw [toOption_of_ok h] at this
  simpa using this

theorem fccOf_code (s : Fcc) : fccOf (Fcc.code s) = .ok s := by
  cases s <;> rfl

theorem fccOf_ok {c : Nat} {s : Fcc} (hc : c < 64) (h : fccOf c = .ok s) : Fcc.code s = c := by
  have key : ∀ c < 64, (fccOf c).toOption.all (fun s => Fcc.code s = c) = true := by decide
  have := key c hc
  rw [toOption_of_ok h] at this
  simpa using this

theorem redOf_code (s : RedOp) : redOf (RedOp.code s) = .ok s := by
  cases s <;> rfl

theorem redOf_ok {c : Nat} {s : RedOp} (hc : c < 64) (h : redOf c = .ok s) : RedOp.code s = c := by
  have key : ∀ c < 64, (redOf c).toOption.all (fun s => RedOp.code s = c) = true := by decide
  have := key c hc
  rw [toOption_of_ok h] at this
  simpa using this

theorem voteOf_code (s : VoteFn) : voteOf (VoteFn.code s) = .ok s := by
  cases s <;> rfl

theorem voteOf_ok {c : Nat} {s : VoteFn} (hc : c < 64) (h : voteOf c = .ok s) : VoteFn.code s = c := by
  have key : ∀ c < 64, (voteOf c).toOption.all (fun s => VoteFn.code s = c) = true := by decide
  have := key c hc
  rw [toOption_of_ok h] at this
  simpa using this

theorem aopOf_code (s : AOp) : aopOf (AOp.code s) = .ok s := by
  cases s <;> rfl

theorem aopOf_ok {c : Nat} {s : AOp} (hc : c < 16) (h : aopOf c = .ok s) : AOp.code s = c := by
  have key : ∀ c < 16, (aopOf c).toOption.all (fun s => AOp.code s = c) = true := by decide
  have := key c hc
  rw [toOption_of_ok h] at this
  simpa using this

theorem brOf_code (s : BrCond) : brOf (BrCond.code s) = .ok s := by
  cases s <;> rfl

theorem brOf_ok {c : Nat} {s : BrCond} (hc : c < 16) (h : brOf c = .ok s) : BrCond.code s = c := by
  have key : ∀ c < 16, (brOf c).toOption.all (fun s => BrCond.code s = c) = true := by decide
  have := key c hc
  rw [toOption_of_ok h] at this
  simpa using this

theorem lodOf_code (s : Lod) : lodOf (Lod.code s) = .ok s := by
  cases s <;> rfl

theorem lodOf_ok {c : Nat} {s : Lod} (hc : c < 128) (h : lodOf c = .ok s) : Lod.code s = c := by
  have key : ∀ c < 128, (lodOf c).toOption.all (fun s => Lod.code s = c) = true := by decide
  have := key c hc
  rw [toOption_of_ok h] at this
  simpa using this

theorem collOpOf_code (s : CollOp) : collOpOf (CollOp.code s) = .ok s := by
  cases s <;> rfl

theorem collOpOf_ok {c : Nat} {s : CollOp} (hc : c < 4) (h : collOpOf c = .ok s) : CollOp.code s = c := by
  have key : ∀ c < 4, (collOpOf c).toOption.all (fun s => CollOp.code s = c) = true := by decide
  have := key c hc
  rw [toOption_of_ok h] at this
  simpa using this

theorem collTyOf_code (s : CollTy) : collTyOf (CollTy.code s) = .ok s := by
  cases s <;> rfl

theorem collTyOf_ok {c : Nat} {s : CollTy} (hc : c < 8) (h : collTyOf c = .ok s) : CollTy.code s = c := by
  have key : ∀ c < 8, (collTyOf c).toOption.all (fun s => CollTy.code s = c) = true := by decide
  have := key c hc
  rw [toOption_of_ok h] at this
  simpa using this

/-! ## Class layouts -/

theorem ex_hi {n m : Nat} (x : BitVec n) (y : BitVec m) (s k l : Nat) (h : s = m + k) :
    (x ++ y).extractLsb' s l = x.extractLsb' k l := by
  subst h
  apply BitVec.eq_of_getLsbD_eq; intro i hi
  simp only [BitVec.getLsbD_extractLsb', BitVec.getLsbD_append, hi]
  rw [if_neg (by omega), show m + k + i - m = k + i by omega]

theorem ex_lo {n m : Nat} (x : BitVec n) (y : BitVec m) : (x ++ y).extractLsb' 0 m = y := by
  apply BitVec.eq_of_getLsbD_eq; intro i hi
  simp [BitVec.getLsbD_append, hi]

theorem ex_join {n : Nat} (w : BitVec n) (t s a b : Nat) (h : t = s + b) :
    w.extractLsb' t a ++ w.extractLsb' s b = w.extractLsb' s (a + b) := by
  subst h
  apply BitVec.eq_of_getLsbD_eq; intro i hi
  simp only [BitVec.getLsbD_extractLsb', BitVec.getLsbD_append]
  split
  · rename_i h; simp [h, hi]
  · rename_i h; rw [show s + b + (i - b) = s + i by omega]; simp [hi]; omega

theorem getLsbD_extract {n : Nat} (w : BitVec n) (k : Nat) : w.getLsbD k = (w.extractLsb' k 1).getLsbD 0 := by simp

theorem bit1_get (b : Bool) : (bit1 b).getLsbD 0 = b := by cases b <;> rfl

theorem bit1_back (v : BitVec 1) : bit1 (v.getLsbD 0) = v := by revert v; decide

/-- The fields of the Alu layout, top first. -/
theorem fieldsAlu (fmt : BitVec 2) (e : BitVec 1) (opc : BitVec 9) (pm : BitVec 3) (d : BitVec 6) (a : BitVec 6) (b : BitVec 6) (c : BitVec 6) (hold : BitVec 2) (xa : BitVec 7) (xb : BitVec 7) (xc : BitVec 7) (rm : BitVec 2) :
    let v : BitVec 64 := fmt ++ e ++ opc ++ pm ++ d ++ a ++ b ++ c ++ hold ++ xa ++ xb ++ xc ++ rm
    v.extractLsb' 62 2 = fmt ∧
    v.extractLsb' 61 1 = e ∧
    v.extractLsb' 52 9 = opc ∧
    v.extractLsb' 49 3 = pm ∧
    v.extractLsb' 43 6 = d ∧
    v.extractLsb' 37 6 = a ∧
    v.extractLsb' 31 6 = b ∧
    v.extractLsb' 25 6 = c ∧
    v.extractLsb' 23 2 = hold ∧
    v.extractLsb' 16 7 = xa ∧
    v.extractLsb' 9 7 = xb ∧
    v.extractLsb' 2 7 = xc ∧
    v.extractLsb' 0 2 = rm := by
  intro v
  exact ⟨(ex_hi _ _ 62 60 2 rfl).trans <| (ex_hi _ _ 60 53 2 rfl).trans <| (ex_hi _ _ 53 46 2 rfl).trans <| (ex_hi _ _ 46 39 2 rfl).trans <| (ex_hi _ _ 39 37 2 rfl).trans <| (ex_hi _ _ 37 31 2 rfl).trans <| (ex_hi _ _ 31 25 2 rfl).trans <| (ex_hi _ _ 25 19 2 rfl).trans <| (ex_hi _ _ 19 13 2 rfl).trans <| (ex_hi _ _ 13 10 2 rfl).trans <| (ex_hi _ _ 10 1 2 rfl).trans <| (ex_hi _ _ 1 0 2 rfl).trans <| BitVec.extractLsb'_eq_self,
    (ex_hi _ _ 61 59 1 rfl).trans <| (ex_hi _ _ 59 52 1 rfl).trans <| (ex_hi _ _ 52 45 1 rfl).trans <| (ex_hi _ _ 45 38 1 rfl).trans <| (ex_hi _ _ 38 36 1 rfl).trans <| (ex_hi _ _ 36 30 1 rfl).trans <| (ex_hi _ _ 30 24 1 rfl).trans <| (ex_hi _ _ 24 18 1 rfl).trans <| (ex_hi _ _ 18 12 1 rfl).trans <| (ex_hi _ _ 12 9 1 rfl).trans <| (ex_hi _ _ 9 0 1 rfl).trans <| ex_lo _ _,
    (ex_hi _ _ 52 50 9 rfl).trans <| (ex_hi _ _ 50 43 9 rfl).trans <| (ex_hi _ _ 43 36 9 rfl).trans <| (ex_hi _ _ 36 29 9 rfl).trans <| (ex_hi _ _ 29 27 9 rfl).trans <| (ex_hi _ _ 27 21 9 rfl).trans <| (ex_hi _ _ 21 15 9 rfl).trans <| (ex_hi _ _ 15 9 9 rfl).trans <| (ex_hi _ _ 9 3 9 rfl).trans <| (ex_hi _ _ 3 0 9 rfl).trans <| ex_lo _ _,
    (ex_hi _ _ 49 47 3 rfl).trans <| (ex_hi _ _ 47 40 3 rfl).trans <| (ex_hi _ _ 40 33 3 rfl).trans <| (ex_hi _ _ 33 26 3 rfl).trans <| (ex_hi _ _ 26 24 3 rfl).trans <| (ex_hi _ _ 24 18 3 rfl).trans <| (ex_hi _ _ 18 12 3 rfl).trans <| (ex_hi _ _ 12 6 3 rfl).trans <| (ex_hi _ _ 6 0 3 rfl).trans <| ex_lo _ _,
    (ex_hi _ _ 43 41 6 rfl).trans <| (ex_hi _ _ 41 34 6 rfl).trans <| (ex_hi _ _ 34 27 6 rfl).trans <| (ex_hi _ _ 27 20 6 rfl).trans <| (ex_hi _ _ 20 18 6 rfl).trans <| (ex_hi _ _ 18 12 6 rfl).trans <| (ex_hi _ _ 12 6 6 rfl).trans <| (ex_hi _ _ 6 0 6 rfl).trans <| ex_lo _ _,
    (ex_hi _ _ 37 35 6 rfl).trans <| (ex_hi _ _ 35 28 6 rfl).trans <| (ex_hi _ _ 28 21 6 rfl).trans <| (ex_hi _ _ 21 14 6 rfl).trans <| (ex_hi _ _ 14 12 6 rfl).trans <| (ex_hi _ _ 12 6 6 rfl).trans <| (ex_hi _ _ 6 0 6 rfl).trans <| ex_lo _ _,
    (ex_hi _ _ 31 29 6 rfl).trans <| (ex_hi _ _ 29 22 6 rfl).trans <| (ex_hi _ _ 22 15 6 rfl).trans <| (ex_hi _ _ 15 8 6 rfl).trans <| (ex_hi _ _ 8 6 6 rfl).trans <| (ex_hi _ _ 6 0 6 rfl).trans <| ex_lo _ _,
    (ex_hi _ _ 25 23 6 rfl).trans <| (ex_hi _ _ 23 16 6 rfl).trans <| (ex_hi _ _ 16 9 6 rfl).trans <| (ex_hi _ _ 9 2 6 rfl).trans <| (ex_hi _ _ 2 0 6 rfl).trans <| ex_lo _ _,
    (ex_hi _ _ 23 21 2 rfl).trans <| (ex_hi _ _ 21 14 2 rfl).trans <| (ex_hi _ _ 14 7 2 rfl).trans <| (ex_hi _ _ 7 0 2 rfl).trans <| ex_lo _ _,
    (ex_hi _ _ 16 14 7 rfl).trans <| (ex_hi _ _ 14 7 7 rfl).trans <| (ex_hi _ _ 7 0 7 rfl).trans <| ex_lo _ _,
    (ex_hi _ _ 9 7 7 rfl).trans <| (ex_hi _ _ 7 0 7 rfl).trans <| ex_lo _ _,
    (ex_hi _ _ 2 0 7 rfl).trans <| ex_lo _ _,
    ex_lo _ _⟩

/-- A word is the fields of the Alu layout, joined. -/
theorem joinedAlu (w : BitVec 64) :
    (w.extractLsb' 62 2 ++ w.extractLsb' 61 1 ++ w.extractLsb' 52 9 ++ w.extractLsb' 49 3 ++ w.extractLsb' 43 6 ++ w.extractLsb' 37 6 ++ w.extractLsb' 31 6 ++ w.extractLsb' 25 6 ++ w.extractLsb' 23 2 ++ w.extractLsb' 16 7 ++ w.extractLsb' 9 7 ++ w.extractLsb' 2 7 ++ w.extractLsb' 0 2 : BitVec 64) = w := by
  rw [ex_join w 62 61 2 1 rfl,
    ex_join w 61 52 3 9 rfl,
    ex_join w 52 49 12 3 rfl,
    ex_join w 49 43 15 6 rfl,
    ex_join w 43 37 21 6 rfl,
    ex_join w 37 31 27 6 rfl,
    ex_join w 31 25 33 6 rfl,
    ex_join w 25 23 39 2 rfl,
    ex_join w 23 16 41 7 rfl,
    ex_join w 16 9 48 7 rfl,
    ex_join w 9 2 55 7 rfl,
    ex_join w 2 0 62 2 rfl]
  exact BitVec.extractLsb'_eq_self

/-- The fields of the Mem layout, top first. -/
theorem fieldsMem (fmt : BitVec 2) (e : BitVec 1) (opc : BitVec 9) (pm : BitVec 3) (d : BitVec 6) (a : BitVec 6) (b : BitVec 6) (hi : BitVec 6) (pn : BitVec 1) (ch : BitVec 1) (xa : BitVec 7) (xb : BitVec 7) (lo : BitVec 6) (w : BitVec 3) :
    let v : BitVec 64 := fmt ++ e ++ opc ++ pm ++ d ++ a ++ b ++ hi ++ pn ++ ch ++ xa ++ xb ++ lo ++ w
    v.extractLsb' 62 2 = fmt ∧
    v.extractLsb' 61 1 = e ∧
    v.extractLsb' 52 9 = opc ∧
    v.extractLsb' 49 3 = pm ∧
    v.extractLsb' 43 6 = d ∧
    v.extractLsb' 37 6 = a ∧
    v.extractLsb' 31 6 = b ∧
    v.extractLsb' 25 6 = hi ∧
    v.extractLsb' 24 1 = pn ∧
    v.extractLsb' 23 1 = ch ∧
    v.extractLsb' 16 7 = xa ∧
    v.extractLsb' 9 7 = xb ∧
    v.extractLsb' 3 6 = lo ∧
    v.extractLsb' 0 3 = w := by
  intro v
  exact ⟨(ex_hi _ _ 62 59 2 rfl).trans <| (ex_hi _ _ 59 53 2 rfl).trans <| (ex_hi _ _ 53 46 2 rfl).trans <| (ex_hi _ _ 46 39 2 rfl).trans <| (ex_hi _ _ 39 38 2 rfl).trans <| (ex_hi _ _ 38 37 2 rfl).trans <| (ex_hi _ _ 37 31 2 rfl).trans <| (ex_hi _ _ 31 25 2 rfl).trans <| (ex_hi _ _ 25 19 2 rfl).trans <| (ex_hi _ _ 19 13 2 rfl).trans <| (ex_hi _ _ 13 10 2 rfl).trans <| (ex_hi _ _ 10 1 2 rfl).trans <| (ex_hi _ _ 1 0 2 rfl).trans <| BitVec.extractLsb'_eq_self,
    (ex_hi _ _ 61 58 1 rfl).trans <| (ex_hi _ _ 58 52 1 rfl).trans <| (ex_hi _ _ 52 45 1 rfl).trans <| (ex_hi _ _ 45 38 1 rfl).trans <| (ex_hi _ _ 38 37 1 rfl).trans <| (ex_hi _ _ 37 36 1 rfl).trans <| (ex_hi _ _ 36 30 1 rfl).trans <| (ex_hi _ _ 30 24 1 rfl).trans <| (ex_hi _ _ 24 18 1 rfl).trans <| (ex_hi _ _ 18 12 1 rfl).trans <| (ex_hi _ _ 12 9 1 rfl).trans <| (ex_hi _ _ 9 0 1 rfl).trans <| ex_lo _ _,
    (ex_hi _ _ 52 49 9 rfl).trans <| (ex_hi _ _ 49 43 9 rfl).trans <| (ex_hi _ _ 43 36 9 rfl).trans <| (ex_hi _ _ 36 29 9 rfl).trans <| (ex_hi _ _ 29 28 9 rfl).trans <| (ex_hi _ _ 28 27 9 rfl).trans <| (ex_hi _ _ 27 21 9 rfl).trans <| (ex_hi _ _ 21 15 9 rfl).trans <| (ex_hi _ _ 15 9 9 rfl).trans <| (ex_hi _ _ 9 3 9 rfl).trans <| (ex_hi _ _ 3 0 9 rfl).trans <| ex_lo _ _,
    (ex_hi _ _ 49 46 3 rfl).trans <| (ex_hi _ _ 46 40 3 rfl).trans <| (ex_hi _ _ 40 33 3 rfl).trans <| (ex_hi _ _ 33 26 3 rfl).trans <| (ex_hi _ _ 26 25 3 rfl).trans <| (ex_hi _ _ 25 24 3 rfl).trans <| (ex_hi _ _ 24 18 3 rfl).trans <| (ex_hi _ _ 18 12 3 rfl).trans <| (ex_hi _ _ 12 6 3 rfl).trans <| (ex_hi _ _ 6 0 3 rfl).trans <| ex_lo _ _,
    (ex_hi _ _ 43 40 6 rfl).trans <| (ex_hi _ _ 40 34 6 rfl).trans <| (ex_hi _ _ 34 27 6 rfl).trans <| (ex_hi _ _ 27 20 6 rfl).trans <| (ex_hi _ _ 20 19 6 rfl).trans <| (ex_hi _ _ 19 18 6 rfl).trans <| (ex_hi _ _ 18 12 6 rfl).trans <| (ex_hi _ _ 12 6 6 rfl).trans <| (ex_hi _ _ 6 0 6 rfl).trans <| ex_lo _ _,
    (ex_hi _ _ 37 34 6 rfl).trans <| (ex_hi _ _ 34 28 6 rfl).trans <| (ex_hi _ _ 28 21 6 rfl).trans <| (ex_hi _ _ 21 14 6 rfl).trans <| (ex_hi _ _ 14 13 6 rfl).trans <| (ex_hi _ _ 13 12 6 rfl).trans <| (ex_hi _ _ 12 6 6 rfl).trans <| (ex_hi _ _ 6 0 6 rfl).trans <| ex_lo _ _,
    (ex_hi _ _ 31 28 6 rfl).trans <| (ex_hi _ _ 28 22 6 rfl).trans <| (ex_hi _ _ 22 15 6 rfl).trans <| (ex_hi _ _ 15 8 6 rfl).trans <| (ex_hi _ _ 8 7 6 rfl).trans <| (ex_hi _ _ 7 6 6 rfl).trans <| (ex_hi _ _ 6 0 6 rfl).trans <| ex_lo _ _,
    (ex_hi _ _ 25 22 6 rfl).trans <| (ex_hi _ _ 22 16 6 rfl).trans <| (ex_hi _ _ 16 9 6 rfl).trans <| (ex_hi _ _ 9 2 6 rfl).trans <| (ex_hi _ _ 2 1 6 rfl).trans <| (ex_hi _ _ 1 0 6 rfl).trans <| ex_lo _ _,
    (ex_hi _ _ 24 21 1 rfl).trans <| (ex_hi _ _ 21 15 1 rfl).trans <| (ex_hi _ _ 15 8 1 rfl).trans <| (ex_hi _ _ 8 1 1 rfl).trans <| (ex_hi _ _ 1 0 1 rfl).trans <| ex_lo _ _,
    (ex_hi _ _ 23 20 1 rfl).trans <| (ex_hi _ _ 20 14 1 rfl).trans <| (ex_hi _ _ 14 7 1 rfl).trans <| (ex_hi _ _ 7 0 1 rfl).trans <| ex_lo _ _,
    (ex_hi _ _ 16 13 7 rfl).trans <| (ex_hi _ _ 13 7 7 rfl).trans <| (ex_hi _ _ 7 0 7 rfl).trans <| ex_lo _ _,
    (ex_hi _ _ 9 6 7 rfl).trans <| (ex_hi _ _ 6 0 7 rfl).trans <| ex_lo _ _,
    (ex_hi _ _ 3 0 6 rfl).trans <| ex_lo _ _,
    ex_lo _ _⟩

/-- A word is the fields of the Mem layout, joined. -/
theorem joinedMem (w : BitVec 64) :
    (w.extractLsb' 62 2 ++ w.extractLsb' 61 1 ++ w.extractLsb' 52 9 ++ w.extractLsb' 49 3 ++ w.extractLsb' 43 6 ++ w.extractLsb' 37 6 ++ w.extractLsb' 31 6 ++ w.extractLsb' 25 6 ++ w.extractLsb' 24 1 ++ w.extractLsb' 23 1 ++ w.extractLsb' 16 7 ++ w.extractLsb' 9 7 ++ w.extractLsb' 3 6 ++ w.extractLsb' 0 3 : BitVec 64) = w := by
  rw [ex_join w 62 61 2 1 rfl,
    ex_join w 61 52 3 9 rfl,
    ex_join w 52 49 12 3 rfl,
    ex_join w 49 43 15 6 rfl,
    ex_join w 43 37 21 6 rfl,
    ex_join w 37 31 27 6 rfl,
    ex_join w 31 25 33 6 rfl,
    ex_join w 25 24 39 1 rfl,
    ex_join w 24 23 40 1 rfl,
    ex_join w 23 16 41 7 rfl,
    ex_join w 16 9 48 7 rfl,
    ex_join w 9 3 55 6 rfl,
    ex_join w 3 0 61 3 rfl]
  exact BitVec.extractLsb'_eq_self

/-- The fields of the Mat layout, top first. -/
theorem fieldsMat (fmt : BitVec 2) (e : BitVec 1) (opc : BitVec 9) (pm : BitVec 3) (s : BitVec 6) (a : BitVec 6) (b : BitVec 6) (d : BitVec 6) (hold : BitVec 2) (xa : BitVec 7) (xb : BitVec 7) (fs : BitVec 3) (kc : BitVec 4) (z : BitVec 1) (pn : BitVec 1) :
    let v : BitVec 64 := fmt ++ e ++ opc ++ pm ++ s ++ a ++ b ++ d ++ hold ++ xa ++ xb ++ fs ++ kc ++ z ++ pn
    v.extractLsb' 62 2 = fmt ∧
    v.extractLsb' 61 1 = e ∧
    v.extractLsb' 52 9 = opc ∧
    v.extractLsb' 49 3 = pm ∧
    v.extractLsb' 43 6 = s ∧
    v.extractLsb' 37 6 = a ∧
    v.extractLsb' 31 6 = b ∧
    v.extractLsb' 25 6 = d ∧
    v.extractLsb' 23 2 = hold ∧
    v.extractLsb' 16 7 = xa ∧
    v.extractLsb' 9 7 = xb ∧
    v.extractLsb' 6 3 = fs ∧
    v.extractLsb' 2 4 = kc ∧
    v.extractLsb' 1 1 = z ∧
    v.extractLsb' 0 1 = pn := by
  intro v
  exact ⟨(ex_hi _ _ 62 61 2 rfl).trans <| (ex_hi _ _ 61 60 2 rfl).trans <| (ex_hi _ _ 60 56 2 rfl).trans <| (ex_hi _ _ 56 53 2 rfl).trans <| (ex_hi _ _ 53 46 2 rfl).trans <| (ex_hi _ _ 46 39 2 rfl).trans <| (ex_hi _ _ 39 37 2 rfl).trans <| (ex_hi _ _ 37 31 2 rfl).trans <| (ex_hi _ _ 31 25 2 rfl).trans <| (ex_hi _ _ 25 19 2 rfl).trans <| (ex_hi _ _ 19 13 2 rfl).trans <| (ex_hi _ _ 13 10 2 rfl).trans <| (ex_hi _ _ 10 1 2 rfl).trans <| (ex_hi _ _ 1 0 2 rfl).trans <| BitVec.extractLsb'_eq_self,
    (ex_hi _ _ 61 60 1 rfl).trans <| (ex_hi _ _ 60 59 1 rfl).trans <| (ex_hi _ _ 59 55 1 rfl).trans <| (ex_hi _ _ 55 52 1 rfl).trans <| (ex_hi _ _ 52 45 1 rfl).trans <| (ex_hi _ _ 45 38 1 rfl).trans <| (ex_hi _ _ 38 36 1 rfl).trans <| (ex_hi _ _ 36 30 1 rfl).trans <| (ex_hi _ _ 30 24 1 rfl).trans <| (ex_hi _ _ 24 18 1 rfl).trans <| (ex_hi _ _ 18 12 1 rfl).trans <| (ex_hi _ _ 12 9 1 rfl).trans <| (ex_hi _ _ 9 0 1 rfl).trans <| ex_lo _ _,
    (ex_hi _ _ 52 51 9 rfl).trans <| (ex_hi _ _ 51 50 9 rfl).trans <| (ex_hi _ _ 50 46 9 rfl).trans <| (ex_hi _ _ 46 43 9 rfl).trans <| (ex_hi _ _ 43 36 9 rfl).trans <| (ex_hi _ _ 36 29 9 rfl).trans <| (ex_hi _ _ 29 27 9 rfl).trans <| (ex_hi _ _ 27 21 9 rfl).trans <| (ex_hi _ _ 21 15 9 rfl).trans <| (ex_hi _ _ 15 9 9 rfl).trans <| (ex_hi _ _ 9 3 9 rfl).trans <| (ex_hi _ _ 3 0 9 rfl).trans <| ex_lo _ _,
    (ex_hi _ _ 49 48 3 rfl).trans <| (ex_hi _ _ 48 47 3 rfl).trans <| (ex_hi _ _ 47 43 3 rfl).trans <| (ex_hi _ _ 43 40 3 rfl).trans <| (ex_hi _ _ 40 33 3 rfl).trans <| (ex_hi _ _ 33 26 3 rfl).trans <| (ex_hi _ _ 26 24 3 rfl).trans <| (ex_hi _ _ 24 18 3 rfl).trans <| (ex_hi _ _ 18 12 3 rfl).trans <| (ex_hi _ _ 12 6 3 rfl).trans <| (ex_hi _ _ 6 0 3 rfl).trans <| ex_lo _ _,
    (ex_hi _ _ 43 42 6 rfl).trans <| (ex_hi _ _ 42 41 6 rfl).trans <| (ex_hi _ _ 41 37 6 rfl).trans <| (ex_hi _ _ 37 34 6 rfl).trans <| (ex_hi _ _ 34 27 6 rfl).trans <| (ex_hi _ _ 27 20 6 rfl).trans <| (ex_hi _ _ 20 18 6 rfl).trans <| (ex_hi _ _ 18 12 6 rfl).trans <| (ex_hi _ _ 12 6 6 rfl).trans <| (ex_hi _ _ 6 0 6 rfl).trans <| ex_lo _ _,
    (ex_hi _ _ 37 36 6 rfl).trans <| (ex_hi _ _ 36 35 6 rfl).trans <| (ex_hi _ _ 35 31 6 rfl).trans <| (ex_hi _ _ 31 28 6 rfl).trans <| (ex_hi _ _ 28 21 6 rfl).trans <| (ex_hi _ _ 21 14 6 rfl).trans <| (ex_hi _ _ 14 12 6 rfl).trans <| (ex_hi _ _ 12 6 6 rfl).trans <| (ex_hi _ _ 6 0 6 rfl).trans <| ex_lo _ _,
    (ex_hi _ _ 31 30 6 rfl).trans <| (ex_hi _ _ 30 29 6 rfl).trans <| (ex_hi _ _ 29 25 6 rfl).trans <| (ex_hi _ _ 25 22 6 rfl).trans <| (ex_hi _ _ 22 15 6 rfl).trans <| (ex_hi _ _ 15 8 6 rfl).trans <| (ex_hi _ _ 8 6 6 rfl).trans <| (ex_hi _ _ 6 0 6 rfl).trans <| ex_lo _ _,
    (ex_hi _ _ 25 24 6 rfl).trans <| (ex_hi _ _ 24 23 6 rfl).trans <| (ex_hi _ _ 23 19 6 rfl).trans <| (ex_hi _ _ 19 16 6 rfl).trans <| (ex_hi _ _ 16 9 6 rfl).trans <| (ex_hi _ _ 9 2 6 rfl).trans <| (ex_hi _ _ 2 0 6 rfl).trans <| ex_lo _ _,
    (ex_hi _ _ 23 22 2 rfl).trans <| (ex_hi _ _ 22 21 2 rfl).trans <| (ex_hi _ _ 21 17 2 rfl).trans <| (ex_hi _ _ 17 14 2 rfl).trans <| (ex_hi _ _ 14 7 2 rfl).trans <| (ex_hi _ _ 7 0 2 rfl).trans <| ex_lo _ _,
    (ex_hi _ _ 16 15 7 rfl).trans <| (ex_hi _ _ 15 14 7 rfl).trans <| (ex_hi _ _ 14 10 7 rfl).trans <| (ex_hi _ _ 10 7 7 rfl).trans <| (ex_hi _ _ 7 0 7 rfl).trans <| ex_lo _ _,
    (ex_hi _ _ 9 8 7 rfl).trans <| (ex_hi _ _ 8 7 7 rfl).trans <| (ex_hi _ _ 7 3 7 rfl).trans <| (ex_hi _ _ 3 0 7 rfl).trans <| ex_lo _ _,
    (ex_hi _ _ 6 5 3 rfl).trans <| (ex_hi _ _ 5 4 3 rfl).trans <| (ex_hi _ _ 4 0 3 rfl).trans <| ex_lo _ _,
    (ex_hi _ _ 2 1 4 rfl).trans <| (ex_hi _ _ 1 0 4 rfl).trans <| ex_lo _ _,
    (ex_hi _ _ 1 0 1 rfl).trans <| ex_lo _ _,
    ex_lo _ _⟩

/-- A word is the fields of the Mat layout, joined. -/
theorem joinedMat (w : BitVec 64) :
    (w.extractLsb' 62 2 ++ w.extractLsb' 61 1 ++ w.extractLsb' 52 9 ++ w.extractLsb' 49 3 ++ w.extractLsb' 43 6 ++ w.extractLsb' 37 6 ++ w.extractLsb' 31 6 ++ w.extractLsb' 25 6 ++ w.extractLsb' 23 2 ++ w.extractLsb' 16 7 ++ w.extractLsb' 9 7 ++ w.extractLsb' 6 3 ++ w.extractLsb' 2 4 ++ w.extractLsb' 1 1 ++ w.extractLsb' 0 1 : BitVec 64) = w := by
  rw [ex_join w 62 61 2 1 rfl,
    ex_join w 61 52 3 9 rfl,
    ex_join w 52 49 12 3 rfl,
    ex_join w 49 43 15 6 rfl,
    ex_join w 43 37 21 6 rfl,
    ex_join w 37 31 27 6 rfl,
    ex_join w 31 25 33 6 rfl,
    ex_join w 25 23 39 2 rfl,
    ex_join w 23 16 41 7 rfl,
    ex_join w 16 9 48 7 rfl,
    ex_join w 9 6 55 3 rfl,
    ex_join w 6 2 58 4 rfl,
    ex_join w 2 1 62 1 rfl,
    ex_join w 1 0 63 1 rfl]
  exact BitVec.extractLsb'_eq_self

/-- The fields of the Eng layout, top first. -/
theorem fieldsEng (fmt : BitVec 2) (e : BitVec 1) (opc : BitVec 9) (pm : BitVec 3) (t : BitVec 6) (a : BitVec 6) (b : BitVec 6) (n : BitVec 6) (hold : BitVec 2) (xa : BitVec 7) (xb : BitVec 7) (cmd : BitVec 7) (z : BitVec 1) (pn : BitVec 1) :
    let v : BitVec 64 := fmt ++ e ++ opc ++ pm ++ t ++ a ++ b ++ n ++ hold ++ xa ++ xb ++ cmd ++ z ++ pn
    v.extractLsb' 62 2 = fmt ∧
    v.extractLsb' 61 1 = e ∧
    v.extractLsb' 52 9 = opc ∧
    v.extractLsb' 49 3 = pm ∧
    v.extractLsb' 43 6 = t ∧
    v.extractLsb' 37 6 = a ∧
    v.extractLsb' 31 6 = b ∧
    v.extractLsb' 25 6 = n ∧
    v.extractLsb' 23 2 = hold ∧
    v.extractLsb' 16 7 = xa ∧
    v.extractLsb' 9 7 = xb ∧
    v.extractLsb' 2 7 = cmd ∧
    v.extractLsb' 1 1 = z ∧
    v.extractLsb' 0 1 = pn := by
  intro v
  exact ⟨(ex_hi _ _ 62 61 2 rfl).trans <| (ex_hi _ _ 61 60 2 rfl).trans <| (ex_hi _ _ 60 53 2 rfl).trans <| (ex_hi _ _ 53 46 2 rfl).trans <| (ex_hi _ _ 46 39 2 rfl).trans <| (ex_hi _ _ 39 37 2 rfl).trans <| (ex_hi _ _ 37 31 2 rfl).trans <| (ex_hi _ _ 31 25 2 rfl).trans <| (ex_hi _ _ 25 19 2 rfl).trans <| (ex_hi _ _ 19 13 2 rfl).trans <| (ex_hi _ _ 13 10 2 rfl).trans <| (ex_hi _ _ 10 1 2 rfl).trans <| (ex_hi _ _ 1 0 2 rfl).trans <| BitVec.extractLsb'_eq_self,
    (ex_hi _ _ 61 60 1 rfl).trans <| (ex_hi _ _ 60 59 1 rfl).trans <| (ex_hi _ _ 59 52 1 rfl).trans <| (ex_hi _ _ 52 45 1 rfl).trans <| (ex_hi _ _ 45 38 1 rfl).trans <| (ex_hi _ _ 38 36 1 rfl).trans <| (ex_hi _ _ 36 30 1 rfl).trans <| (ex_hi _ _ 30 24 1 rfl).trans <| (ex_hi _ _ 24 18 1 rfl).trans <| (ex_hi _ _ 18 12 1 rfl).trans <| (ex_hi _ _ 12 9 1 rfl).trans <| (ex_hi _ _ 9 0 1 rfl).trans <| ex_lo _ _,
    (ex_hi _ _ 52 51 9 rfl).trans <| (ex_hi _ _ 51 50 9 rfl).trans <| (ex_hi _ _ 50 43 9 rfl).trans <| (ex_hi _ _ 43 36 9 rfl).trans <| (ex_hi _ _ 36 29 9 rfl).trans <| (ex_hi _ _ 29 27 9 rfl).trans <| (ex_hi _ _ 27 21 9 rfl).trans <| (ex_hi _ _ 21 15 9 rfl).trans <| (ex_hi _ _ 15 9 9 rfl).trans <| (ex_hi _ _ 9 3 9 rfl).trans <| (ex_hi _ _ 3 0 9 rfl).trans <| ex_lo _ _,
    (ex_hi _ _ 49 48 3 rfl).trans <| (ex_hi _ _ 48 47 3 rfl).trans <| (ex_hi _ _ 47 40 3 rfl).trans <| (ex_hi _ _ 40 33 3 rfl).trans <| (ex_hi _ _ 33 26 3 rfl).trans <| (ex_hi _ _ 26 24 3 rfl).trans <| (ex_hi _ _ 24 18 3 rfl).trans <| (ex_hi _ _ 18 12 3 rfl).trans <| (ex_hi _ _ 12 6 3 rfl).trans <| (ex_hi _ _ 6 0 3 rfl).trans <| ex_lo _ _,
    (ex_hi _ _ 43 42 6 rfl).trans <| (ex_hi _ _ 42 41 6 rfl).trans <| (ex_hi _ _ 41 34 6 rfl).trans <| (ex_hi _ _ 34 27 6 rfl).trans <| (ex_hi _ _ 27 20 6 rfl).trans <| (ex_hi _ _ 20 18 6 rfl).trans <| (ex_hi _ _ 18 12 6 rfl).trans <| (ex_hi _ _ 12 6 6 rfl).trans <| (ex_hi _ _ 6 0 6 rfl).trans <| ex_lo _ _,
    (ex_hi _ _ 37 36 6 rfl).trans <| (ex_hi _ _ 36 35 6 rfl).trans <| (ex_hi _ _ 35 28 6 rfl).trans <| (ex_hi _ _ 28 21 6 rfl).trans <| (ex_hi _ _ 21 14 6 rfl).trans <| (ex_hi _ _ 14 12 6 rfl).trans <| (ex_hi _ _ 12 6 6 rfl).trans <| (ex_hi _ _ 6 0 6 rfl).trans <| ex_lo _ _,
    (ex_hi _ _ 31 30 6 rfl).trans <| (ex_hi _ _ 30 29 6 rfl).trans <| (ex_hi _ _ 29 22 6 rfl).trans <| (ex_hi _ _ 22 15 6 rfl).trans <| (ex_hi _ _ 15 8 6 rfl).trans <| (ex_hi _ _ 8 6 6 rfl).trans <| (ex_hi _ _ 6 0 6 rfl).trans <| ex_lo _ _,
    (ex_hi _ _ 25 24 6 rfl).trans <| (ex_hi _ _ 24 23 6 rfl).trans <| (ex_hi _ _ 23 16 6 rfl).trans <| (ex_hi _ _ 16 9 6 rfl).trans <| (ex_hi _ _ 9 2 6 rfl).trans <| (ex_hi _ _ 2 0 6 rfl).trans <| ex_lo _ _,
    (ex_hi _ _ 23 22 2 rfl).trans <| (ex_hi _ _ 22 21 2 rfl).trans <| (ex_hi _ _ 21 14 2 rfl).trans <| (ex_hi _ _ 14 7 2 rfl).trans <| (ex_hi _ _ 7 0 2 rfl).trans <| ex_lo _ _,
    (ex_hi _ _ 16 15 7 rfl).trans <| (ex_hi _ _ 15 14 7 rfl).trans <| (ex_hi _ _ 14 7 7 rfl).trans <| (ex_hi _ _ 7 0 7 rfl).trans <| ex_lo _ _,
    (ex_hi _ _ 9 8 7 rfl).trans <| (ex_hi _ _ 8 7 7 rfl).trans <| (ex_hi _ _ 7 0 7 rfl).trans <| ex_lo _ _,
    (ex_hi _ _ 2 1 7 rfl).trans <| (ex_hi _ _ 1 0 7 rfl).trans <| ex_lo _ _,
    (ex_hi _ _ 1 0 1 rfl).trans <| ex_lo _ _,
    ex_lo _ _⟩

/-- A word is the fields of the Eng layout, joined. -/
theorem joinedEng (w : BitVec 64) :
    (w.extractLsb' 62 2 ++ w.extractLsb' 61 1 ++ w.extractLsb' 52 9 ++ w.extractLsb' 49 3 ++ w.extractLsb' 43 6 ++ w.extractLsb' 37 6 ++ w.extractLsb' 31 6 ++ w.extractLsb' 25 6 ++ w.extractLsb' 23 2 ++ w.extractLsb' 16 7 ++ w.extractLsb' 9 7 ++ w.extractLsb' 2 7 ++ w.extractLsb' 1 1 ++ w.extractLsb' 0 1 : BitVec 64) = w := by
  rw [ex_join w 62 61 2 1 rfl,
    ex_join w 61 52 3 9 rfl,
    ex_join w 52 49 12 3 rfl,
    ex_join w 49 43 15 6 rfl,
    ex_join w 43 37 21 6 rfl,
    ex_join w 37 31 27 6 rfl,
    ex_join w 31 25 33 6 rfl,
    ex_join w 25 23 39 2 rfl,
    ex_join w 23 16 41 7 rfl,
    ex_join w 16 9 48 7 rfl,
    ex_join w 9 2 55 7 rfl,
    ex_join w 2 1 62 1 rfl,
    ex_join w 1 0 63 1 rfl]
  exact BitVec.extractLsb'_eq_self

/-- The fields of the Ctl layout, top first. -/
theorem fieldsCtl (fmt : BitVec 2) (e : BitVec 1) (opc : BitVec 9) (pm : BitVec 3) (d : BitVec 6) (a : BitVec 6) (cf : BitVec 4) (len2 : BitVec 10) (xa : BitVec 7) (off : BitVec 16) :
    let v : BitVec 64 := fmt ++ e ++ opc ++ pm ++ d ++ a ++ cf ++ len2 ++ xa ++ off
    v.extractLsb' 62 2 = fmt ∧
    v.extractLsb' 61 1 = e ∧
    v.extractLsb' 52 9 = opc ∧
    v.extractLsb' 49 3 = pm ∧
    v.extractLsb' 43 6 = d ∧
    v.extractLsb' 37 6 = a ∧
    v.extractLsb' 33 4 = cf ∧
    v.extractLsb' 23 10 = len2 ∧
    v.extractLsb' 16 7 = xa ∧
    v.extractLsb' 0 16 = off := by
  intro v
  exact ⟨(ex_hi _ _ 62 46 2 rfl).trans <| (ex_hi _ _ 46 39 2 rfl).trans <| (ex_hi _ _ 39 29 2 rfl).trans <| (ex_hi _ _ 29 25 2 rfl).trans <| (ex_hi _ _ 25 19 2 rfl).trans <| (ex_hi _ _ 19 13 2 rfl).trans <| (ex_hi _ _ 13 10 2 rfl).trans <| (ex_hi _ _ 10 1 2 rfl).trans <| (ex_hi _ _ 1 0 2 rfl).trans <| BitVec.extractLsb'_eq_self,
    (ex_hi _ _ 61 45 1 rfl).trans <| (ex_hi _ _ 45 38 1 rfl).trans <| (ex_hi _ _ 38 28 1 rfl).trans <| (ex_hi _ _ 28 24 1 rfl).trans <| (ex_hi _ _ 24 18 1 rfl).trans <| (ex_hi _ _ 18 12 1 rfl).trans <| (ex_hi _ _ 12 9 1 rfl).trans <| (ex_hi _ _ 9 0 1 rfl).trans <| ex_lo _ _,
    (ex_hi _ _ 52 36 9 rfl).trans <| (ex_hi _ _ 36 29 9 rfl).trans <| (ex_hi _ _ 29 19 9 rfl).trans <| (ex_hi _ _ 19 15 9 rfl).trans <| (ex_hi _ _ 15 9 9 rfl).trans <| (ex_hi _ _ 9 3 9 rfl).trans <| (ex_hi _ _ 3 0 9 rfl).trans <| ex_lo _ _,
    (ex_hi _ _ 49 33 3 rfl).trans <| (ex_hi _ _ 33 26 3 rfl).trans <| (ex_hi _ _ 26 16 3 rfl).trans <| (ex_hi _ _ 16 12 3 rfl).trans <| (ex_hi _ _ 12 6 3 rfl).trans <| (ex_hi _ _ 6 0 3 rfl).trans <| ex_lo _ _,
    (ex_hi _ _ 43 27 6 rfl).trans <| (ex_hi _ _ 27 20 6 rfl).trans <| (ex_hi _ _ 20 10 6 rfl).trans <| (ex_hi _ _ 10 6 6 rfl).trans <| (ex_hi _ _ 6 0 6 rfl).trans <| ex_lo _ _,
    (ex_hi _ _ 37 21 6 rfl).trans <| (ex_hi _ _ 21 14 6 rfl).trans <| (ex_hi _ _ 14 4 6 rfl).trans <| (ex_hi _ _ 4 0 6 rfl).trans <| ex_lo _ _,
    (ex_hi _ _ 33 17 4 rfl).trans <| (ex_hi _ _ 17 10 4 rfl).trans <| (ex_hi _ _ 10 0 4 rfl).trans <| ex_lo _ _,
    (ex_hi _ _ 23 7 10 rfl).trans <| (ex_hi _ _ 7 0 10 rfl).trans <| ex_lo _ _,
    (ex_hi _ _ 16 0 7 rfl).trans <| ex_lo _ _,
    ex_lo _ _⟩

/-- A word is the fields of the Ctl layout, joined. -/
theorem joinedCtl (w : BitVec 64) :
    (w.extractLsb' 62 2 ++ w.extractLsb' 61 1 ++ w.extractLsb' 52 9 ++ w.extractLsb' 49 3 ++ w.extractLsb' 43 6 ++ w.extractLsb' 37 6 ++ w.extractLsb' 33 4 ++ w.extractLsb' 23 10 ++ w.extractLsb' 16 7 ++ w.extractLsb' 0 16 : BitVec 64) = w := by
  rw [ex_join w 62 61 2 1 rfl,
    ex_join w 61 52 3 9 rfl,
    ex_join w 52 49 12 3 rfl,
    ex_join w 49 43 15 6 rfl,
    ex_join w 43 37 21 6 rfl,
    ex_join w 37 33 27 4 rfl,
    ex_join w 33 23 31 10 rfl,
    ex_join w 23 16 41 7 rfl,
    ex_join w 16 0 48 16 rfl]
  exact BitVec.extractLsb'_eq_self

/-- The fields of the Str layout, top first. -/
theorem fieldsStr (fmt : BitVec 2) (e : BitVec 1) (opc : BitVec 9) (pm : BitVec 3) (d : BitVec 6) (a : BitVec 6) (b : BitVec 6) (c : BitVec 6) (z : BitVec 25) :
    let v : BitVec 64 := fmt ++ e ++ opc ++ pm ++ d ++ a ++ b ++ c ++ z
    v.extractLsb' 62 2 = fmt ∧
    v.extractLsb' 61 1 = e ∧
    v.extractLsb' 52 9 = opc ∧
    v.extractLsb' 49 3 = pm ∧
    v.extractLsb' 43 6 = d ∧
    v.extractLsb' 37 6 = a ∧
    v.extractLsb' 31 6 = b ∧
    v.extractLsb' 25 6 = c ∧
    v.extractLsb' 0 25 = z := by
  intro v
  exact ⟨(ex_hi _ _ 62 37 2 rfl).trans <| (ex_hi _ _ 37 31 2 rfl).trans <| (ex_hi _ _ 31 25 2 rfl).trans <| (ex_hi _ _ 25 19 2 rfl).trans <| (ex_hi _ _ 19 13 2 rfl).trans <| (ex_hi _ _ 13 10 2 rfl).trans <| (ex_hi _ _ 10 1 2 rfl).trans <| (ex_hi _ _ 1 0 2 rfl).trans <| BitVec.extractLsb'_eq_self,
    (ex_hi _ _ 61 36 1 rfl).trans <| (ex_hi _ _ 36 30 1 rfl).trans <| (ex_hi _ _ 30 24 1 rfl).trans <| (ex_hi _ _ 24 18 1 rfl).trans <| (ex_hi _ _ 18 12 1 rfl).trans <| (ex_hi _ _ 12 9 1 rfl).trans <| (ex_hi _ _ 9 0 1 rfl).trans <| ex_lo _ _,
    (ex_hi _ _ 52 27 9 rfl).trans <| (ex_hi _ _ 27 21 9 rfl).trans <| (ex_hi _ _ 21 15 9 rfl).trans <| (ex_hi _ _ 15 9 9 rfl).trans <| (ex_hi _ _ 9 3 9 rfl).trans <| (ex_hi _ _ 3 0 9 rfl).trans <| ex_lo _ _,
    (ex_hi _ _ 49 24 3 rfl).trans <| (ex_hi _ _ 24 18 3 rfl).trans <| (ex_hi _ _ 18 12 3 rfl).trans <| (ex_hi _ _ 12 6 3 rfl).trans <| (ex_hi _ _ 6 0 3 rfl).trans <| ex_lo _ _,
    (ex_hi _ _ 43 18 6 rfl).trans <| (ex_hi _ _ 18 12 6 rfl).trans <| (ex_hi _ _ 12 6 6 rfl).trans <| (ex_hi _ _ 6 0 6 rfl).trans <| ex_lo _ _,
    (ex_hi _ _ 37 12 6 rfl).trans <| (ex_hi _ _ 12 6 6 rfl).trans <| (ex_hi _ _ 6 0 6 rfl).trans <| ex_lo _ _,
    (ex_hi _ _ 31 6 6 rfl).trans <| (ex_hi _ _ 6 0 6 rfl).trans <| ex_lo _ _,
    (ex_hi _ _ 25 0 6 rfl).trans <| ex_lo _ _,
    ex_lo _ _⟩

/-- A word is the fields of the Str layout, joined. -/
theorem joinedStr (w : BitVec 64) :
    (w.extractLsb' 62 2 ++ w.extractLsb' 61 1 ++ w.extractLsb' 52 9 ++ w.extractLsb' 49 3 ++ w.extractLsb' 43 6 ++ w.extractLsb' 37 6 ++ w.extractLsb' 31 6 ++ w.extractLsb' 25 6 ++ w.extractLsb' 0 25 : BitVec 64) = w := by
  rw [ex_join w 62 61 2 1 rfl,
    ex_join w 61 52 3 9 rfl,
    ex_join w 52 49 12 3 rfl,
    ex_join w 49 43 15 6 rfl,
    ex_join w 43 37 21 6 rfl,
    ex_join w 37 31 27 6 rfl,
    ex_join w 31 25 33 6 rfl,
    ex_join w 25 0 39 25 rfl]
  exact BitVec.extractLsb'_eq_self

/-- The fields of the StrCtl layout, top first. -/
theorem fieldsStrCtl (fmt : BitVec 2) (e : BitVec 1) (opc : BitVec 9) (pm : BitVec 3) (d : BitVec 6) (a : BitVec 6) (cf : BitVec 4) (len2 : BitVec 10) (z : BitVec 7) (off : BitVec 16) :
    let v : BitVec 64 := fmt ++ e ++ opc ++ pm ++ d ++ a ++ cf ++ len2 ++ z ++ off
    v.extractLsb' 62 2 = fmt ∧
    v.extractLsb' 61 1 = e ∧
    v.extractLsb' 52 9 = opc ∧
    v.extractLsb' 49 3 = pm ∧
    v.extractLsb' 43 6 = d ∧
    v.extractLsb' 37 6 = a ∧
    v.extractLsb' 33 4 = cf ∧
    v.extractLsb' 23 10 = len2 ∧
    v.extractLsb' 16 7 = z ∧
    v.extractLsb' 0 16 = off := by
  intro v
  exact ⟨(ex_hi _ _ 62 46 2 rfl).trans <| (ex_hi _ _ 46 39 2 rfl).trans <| (ex_hi _ _ 39 29 2 rfl).trans <| (ex_hi _ _ 29 25 2 rfl).trans <| (ex_hi _ _ 25 19 2 rfl).trans <| (ex_hi _ _ 19 13 2 rfl).trans <| (ex_hi _ _ 13 10 2 rfl).trans <| (ex_hi _ _ 10 1 2 rfl).trans <| (ex_hi _ _ 1 0 2 rfl).trans <| BitVec.extractLsb'_eq_self,
    (ex_hi _ _ 61 45 1 rfl).trans <| (ex_hi _ _ 45 38 1 rfl).trans <| (ex_hi _ _ 38 28 1 rfl).trans <| (ex_hi _ _ 28 24 1 rfl).trans <| (ex_hi _ _ 24 18 1 rfl).trans <| (ex_hi _ _ 18 12 1 rfl).trans <| (ex_hi _ _ 12 9 1 rfl).trans <| (ex_hi _ _ 9 0 1 rfl).trans <| ex_lo _ _,
    (ex_hi _ _ 52 36 9 rfl).trans <| (ex_hi _ _ 36 29 9 rfl).trans <| (ex_hi _ _ 29 19 9 rfl).trans <| (ex_hi _ _ 19 15 9 rfl).trans <| (ex_hi _ _ 15 9 9 rfl).trans <| (ex_hi _ _ 9 3 9 rfl).trans <| (ex_hi _ _ 3 0 9 rfl).trans <| ex_lo _ _,
    (ex_hi _ _ 49 33 3 rfl).trans <| (ex_hi _ _ 33 26 3 rfl).trans <| (ex_hi _ _ 26 16 3 rfl).trans <| (ex_hi _ _ 16 12 3 rfl).trans <| (ex_hi _ _ 12 6 3 rfl).trans <| (ex_hi _ _ 6 0 3 rfl).trans <| ex_lo _ _,
    (ex_hi _ _ 43 27 6 rfl).trans <| (ex_hi _ _ 27 20 6 rfl).trans <| (ex_hi _ _ 20 10 6 rfl).trans <| (ex_hi _ _ 10 6 6 rfl).trans <| (ex_hi _ _ 6 0 6 rfl).trans <| ex_lo _ _,
    (ex_hi _ _ 37 21 6 rfl).trans <| (ex_hi _ _ 21 14 6 rfl).trans <| (ex_hi _ _ 14 4 6 rfl).trans <| (ex_hi _ _ 4 0 6 rfl).trans <| ex_lo _ _,
    (ex_hi _ _ 33 17 4 rfl).trans <| (ex_hi _ _ 17 10 4 rfl).trans <| (ex_hi _ _ 10 0 4 rfl).trans <| ex_lo _ _,
    (ex_hi _ _ 23 7 10 rfl).trans <| (ex_hi _ _ 7 0 10 rfl).trans <| ex_lo _ _,
    (ex_hi _ _ 16 0 7 rfl).trans <| ex_lo _ _,
    ex_lo _ _⟩

/-- A word is the fields of the StrCtl layout, joined. -/
theorem joinedStrCtl (w : BitVec 64) :
    (w.extractLsb' 62 2 ++ w.extractLsb' 61 1 ++ w.extractLsb' 52 9 ++ w.extractLsb' 49 3 ++ w.extractLsb' 43 6 ++ w.extractLsb' 37 6 ++ w.extractLsb' 33 4 ++ w.extractLsb' 23 10 ++ w.extractLsb' 16 7 ++ w.extractLsb' 0 16 : BitVec 64) = w := by
  rw [ex_join w 62 61 2 1 rfl,
    ex_join w 61 52 3 9 rfl,
    ex_join w 52 49 12 3 rfl,
    ex_join w 49 43 15 6 rfl,
    ex_join w 43 37 21 6 rfl,
    ex_join w 37 33 27 4 rfl,
    ex_join w 33 23 31 10 rfl,
    ex_join w 23 16 41 7 rfl,
    ex_join w 16 0 48 16 rfl]
  exact BitVec.extractLsb'_eq_self

/-- The fields of the Short layout, top first. -/
theorem fieldsShort (fmt : BitVec 2) (e : BitVec 1) (ops : BitVec 7) (d : BitVec 6) (a : BitVec 6) (b : BitVec 6) (pm : BitVec 3) (ha : BitVec 1) :
    let v : BitVec 32 := fmt ++ e ++ ops ++ d ++ a ++ b ++ pm ++ ha
    v.extractLsb' 30 2 = fmt ∧
    v.extractLsb' 29 1 = e ∧
    v.extractLsb' 22 7 = ops ∧
    v.extractLsb' 16 6 = d ∧
    v.extractLsb' 10 6 = a ∧
    v.extractLsb' 4 6 = b ∧
    v.extractLsb' 1 3 = pm ∧
    v.extractLsb' 0 1 = ha := by
  intro v
  exact ⟨(ex_hi _ _ 30 29 2 rfl).trans <| (ex_hi _ _ 29 26 2 rfl).trans <| (ex_hi _ _ 26 20 2 rfl).trans <| (ex_hi _ _ 20 14 2 rfl).trans <| (ex_hi _ _ 14 8 2 rfl).trans <| (ex_hi _ _ 8 1 2 rfl).trans <| (ex_hi _ _ 1 0 2 rfl).trans <| BitVec.extractLsb'_eq_self,
    (ex_hi _ _ 29 28 1 rfl).trans <| (ex_hi _ _ 28 25 1 rfl).trans <| (ex_hi _ _ 25 19 1 rfl).trans <| (ex_hi _ _ 19 13 1 rfl).trans <| (ex_hi _ _ 13 7 1 rfl).trans <| (ex_hi _ _ 7 0 1 rfl).trans <| ex_lo _ _,
    (ex_hi _ _ 22 21 7 rfl).trans <| (ex_hi _ _ 21 18 7 rfl).trans <| (ex_hi _ _ 18 12 7 rfl).trans <| (ex_hi _ _ 12 6 7 rfl).trans <| (ex_hi _ _ 6 0 7 rfl).trans <| ex_lo _ _,
    (ex_hi _ _ 16 15 6 rfl).trans <| (ex_hi _ _ 15 12 6 rfl).trans <| (ex_hi _ _ 12 6 6 rfl).trans <| (ex_hi _ _ 6 0 6 rfl).trans <| ex_lo _ _,
    (ex_hi _ _ 10 9 6 rfl).trans <| (ex_hi _ _ 9 6 6 rfl).trans <| (ex_hi _ _ 6 0 6 rfl).trans <| ex_lo _ _,
    (ex_hi _ _ 4 3 6 rfl).trans <| (ex_hi _ _ 3 0 6 rfl).trans <| ex_lo _ _,
    (ex_hi _ _ 1 0 3 rfl).trans <| ex_lo _ _,
    ex_lo _ _⟩

/-- A word is the fields of the Short layout, joined. -/
theorem joinedShort (w : BitVec 32) :
    (w.extractLsb' 30 2 ++ w.extractLsb' 29 1 ++ w.extractLsb' 22 7 ++ w.extractLsb' 16 6 ++ w.extractLsb' 10 6 ++ w.extractLsb' 4 6 ++ w.extractLsb' 1 3 ++ w.extractLsb' 0 1 : BitVec 32) = w := by
  rw [ex_join w 30 29 2 1 rfl,
    ex_join w 29 22 3 7 rfl,
    ex_join w 22 16 10 6 rfl,
    ex_join w 16 10 16 6 rfl,
    ex_join w 10 4 22 6 rfl,
    ex_join w 4 1 28 3 rfl,
    ex_join w 1 0 31 1 rfl]
  exact BitVec.extractLsb'_eq_self

end Sys2Proof
end

