-- ==== Sys2Proof/Laws/Engine.lean ====
section
/-!
SUPPORT. The shape of the bodies of engine instructions, said once: what they do in every case.
-/

namespace Sys2Proof.Machine

open Sys2Proof

theorem firstExc_none {es : List (Fin 32 × Exc)} : firstExc es = none ↔ es = [] := by
  cases es <;> simp [firstExc]

/-- A form governs an instruction whose body does what the form says in each of its four cases. -/
theorem EngForm.queues {g : EngForm} {tys : List Ty} {i : Instr}
    {body : State → Run → Shape → Body} (he : ∀ s, exec i s = execute s i tys body)
    (hidle : ∀ s r sh, g.acts s r sh = 0 → body s r sh = .done s r (.own (g.idle s r sh)))
    (hfault : ∀ s r sh e, g.acts s r sh ≠ 0 → firstExc (g.checks s r sh) = some e → body s r sh = .fault s e)
    (hwait : ∀ s r sh, g.acts s r sh ≠ 0 → firstExc (g.checks s r sh) = none → g.late s r sh = true →
      body s r sh = .wait s)
    (hdone : ∀ s r sh, g.acts s r sh ≠ 0 → firstExc (g.checks s r sh) = none → g.late s r sh = false →
      body s r sh = .done s r (.own (g.effect s r sh))) : g.Queues tys i := by
  refine ⟨⟨⟨fun s r sh hr h hf => ?_, fun s r sh hr h hf => ?_⟩, fun s r sh e hr h => ?_⟩, fun s r sh hr h => ?_⟩
  · rw [he]
    exact execute_own hr (hidle _ _ _ h) hf
  · rw [he]
    exact execute_own hr (hdone _ _ _ h.1 (firstExc_none.2 h.2.1) h.2.2) hf
  · rw [he]
    exact execute_fault hr (hfault _ _ _ _ h.1 h.2)
  · rw [he]
    exact execute_wait hr (hwait _ _ _ h.1 (firstExc_none.2 h.2.1) h.2.2)

/-- An instruction whose body is always done with one effect at commit. -/
theorem commits_of_body {i : Instr} {tys : List Ty} {ok : State → Run → Shape → Prop}
    {f : State → Run → Shape → State → Run → State} {body : State → Run → Shape → Body}
    (he : ∀ s, exec i s = execute s i tys body) (hb : ∀ s r sh, ok s r sh → body s r sh = .done s r (.own (f s r sh))) :
    Commits i tys ok f := by
  intro s r sh hr ho hf
  rw [he]
  exact execute_own hr (hb _ _ _ ho) hf

/-- A transfer by its body: its form governs it where what is clean raises nothing. -/
theorem Leaving.governs {g : Leaving} {i : Instr} {body : State → Run → Shape → Body}
    (he : ∀ s, exec i s = execute s i g.tys body)
    (hb : ∀ s r sh, body s r sh =
      transferBody (g.first s r sh) (g.heads s r sh) (g.excs s r sh) (g.goal s r sh) (g.put s r sh) s r)
    (hc : ∀ s r sh, g.clean s r sh → HeadersAt (g.after s r sh) r (g.all s r sh) → g.exc s r sh = none) :
    g.Governs i := by
  refine fun s r sh h => ⟨fun hg hh => ?_, fun e hx => ?_⟩
  · have hn := hc _ _ _ hg hh
    simp only [Leaving.exc, Leaving.after, Leaving.all, Leaving.later] at hn ⊢
    rw [he]
    exact execute_leave h (by rw [hb, transferBody]; simp only [hn])
  · simp only [Leaving.exc, Leaving.after, Leaving.all, Leaving.later] at hx ⊢
    rw [he]
    exact execute_fault h (by rw [hb, transferBody]; simp only [hx])

/-- A fault by its body. -/
theorem raises_of_body {i : Instr} {tys : List Ty} {bad : State → Run → Shape → Exc → Prop}
    {body : State → Run → Shape → Body} (he : ∀ s, exec i s = execute s i tys body)
    (hb : ∀ s r sh e, bad s r sh e → body s r sh = .fault s e) : Raises i bad := by
  intro s r sh e hr ho
  rw [he]
  exact execute_fault hr (hb _ _ _ _ ho)

/-- A wait by its body. -/
theorem waits_of_body {i : Instr} {tys : List Ty} {late : State → Run → Shape → Prop}
    {body : State → Run → Shape → Body} (he : ∀ s, exec i s = execute s i tys body)
    (hb : ∀ s r sh, late s r sh → body s r sh = .wait s) : Waits i late := by
  intro s r sh hr ho
  rw [he]
  exact execute_wait hr (hb _ _ _ ho)

end Sys2Proof.Machine
end

