-- ==== Sys2Proof/Laws/Memory.lean ====
section
/-!
SUPPORT. Memory: every operation keeps the canonical form, what is written is read again, and other bytes stay.
-/

namespace Sys2Proof.Machine

open Sys2Proof

theorem cellsFrom_mono {lo hi : Nat} {l : List Host.Cell} (h : lo ≤ hi) (w : cellsFrom hi l = true) :
    cellsFrom lo l = true := by
  cases l with
  | nil => rfl
  | cons x xs => simp only [cellsFrom, Bool.and_eq_true, decide_eq_true_eq] at w ⊢; exact ⟨⟨by omega, w.1.2⟩, w.2⟩

theorem cellsFrom_cellPut {lo a : Nat} {b : Byte} : ∀ {l : List Host.Cell}, cellsFrom lo l = true → lo ≤ a →
    cellsFrom lo (cellPut l a b) = true
  | [], _, h => by
    simp only [cellPut]
    split
    · rfl
    · rename_i hb
      simp only [cellsFrom, Bool.and_eq_true, decide_eq_true_eq, bne_iff_ne, and_true]
      exact ⟨h, hb⟩
  | (k, c) :: rest, w, h => by
    simp only [cellsFrom, Bool.and_eq_true, decide_eq_true_eq] at w
    simp only [cellPut]
    split
    · split
      · simp only [cellsFrom, Bool.and_eq_true, decide_eq_true_eq]; exact w
      · rename_i h1 h2
        simp only [cellsFrom, Bool.and_eq_true, decide_eq_true_eq, bne_iff_ne]
        exact ⟨⟨h, h2⟩, ⟨by omega, by simpa using w.1.2⟩, w.2⟩
    · split
      · split
        · exact cellsFrom_mono (by omega) w.2
        · rename_i h1 h2 h3
          simp only [cellsFrom, Bool.and_eq_true, decide_eq_true_eq, bne_iff_ne]
          exact ⟨⟨h, h3⟩, by rw [h2]; exact w.2⟩
      · simp only [cellsFrom, Bool.and_eq_true, decide_eq_true_eq]
        exact ⟨w.1, cellsFrom_cellPut w.2 (by omega)⟩

/-- A write keeps the canonical form. -/
theorem Memory.wf_write {m : Memory} (a : Nat) (b : Byte) (h : m.wf = true) : (m.write a b).wf = true :=
  cellsFrom_cellPut h (Nat.zero_le _)

theorem Memory.wf_writeL {bs : List Byte} : ∀ {m : Memory} (a : Nat), m.wf = true → (m.writeL a bs).wf = true := by
  induction bs with
  | nil => exact fun _ h => h
  | cons b bs ih => exact fun a h => ih (a + 1) (Memory.wf_write a b h)

theorem cellsFrom_filter {p : Host.Cell → Bool} : ∀ {lo : Nat} {l : List Host.Cell}, cellsFrom lo l = true →
    cellsFrom lo (l.filter p) = true
  | _, [], _ => rfl
  | lo, (k, c) :: rest, w => by
    simp only [cellsFrom, Bool.and_eq_true, decide_eq_true_eq] at w
    rw [List.filter_cons]
    split
    · simp only [cellsFrom, Bool.and_eq_true, decide_eq_true_eq]; exact ⟨w.1, cellsFrom_filter w.2⟩
    · exact cellsFrom_mono (by omega) (cellsFrom_filter w.2)

theorem Memory.wf_clear {m : Memory} (lo hi : Nat) (h : m.wf = true) : (m.clear lo hi).wf = true := cellsFrom_filter h

theorem Memory.wf_foldl {ι : Type} {f : ι → Nat} {g : ι → Byte} (ls : List ι) :
    ∀ {m : Memory}, m.wf = true → (ls.foldl (fun m i => m.write (f i) (g i)) m).wf = true := by
  induction ls with
  | nil => exact fun h => h
  | cons x xs ih => exact fun h => ih (Memory.wf_write _ _ h)

theorem cellGet_below {l : List Host.Cell} : ∀ {lo a : Nat}, cellsFrom lo l = true → a < lo → cellGet l a = 0 := by
  induction l with
  | nil => exact fun _ _ => rfl
  | cons x xs ih =>
    intro lo a w h
    simp only [cellsFrom, Bool.and_eq_true, decide_eq_true_eq] at w
    rw [cellGet, if_neg (by omega)]
    exact ih w.2 (by omega)

/-- What is written is read again. -/
theorem cellGet_cellPut_same {a : Nat} {b : Byte} : ∀ {lo : Nat} {l : List Host.Cell}, cellsFrom lo l = true →
    cellGet (cellPut l a b) a = b
  | _, [], _ => by
    simp only [cellPut]
    split
    · rename_i h; exact h.symm
    · exact if_pos rfl
  | _, (k, c) :: rest, w => by
    simp only [cellsFrom, Bool.and_eq_true, decide_eq_true_eq] at w
    simp only [cellPut]
    split
    · split
      · rename_i h1 h2
        rw [cellGet, if_neg (by omega), cellGet_below w.2 (by omega), h2]
      · simp [cellGet]
    · split
      · split
        · rename_i h1 h2 h3
          rw [cellGet_below w.2 (by omega), h3]
        · simp [cellGet]
      · rename_i h1 h2
        rw [cellGet, if_neg (by omega)]
        exact cellGet_cellPut_same w.2

/-- Another byte stays, in canonical form or not. -/
theorem cellGet_cellPut_ne {a x : Nat} {b : Byte} (hx : x ≠ a) : ∀ {l : List Host.Cell}, cellGet (cellPut l a b) x = cellGet l x
  | [] => by
    simp only [cellPut]
    split
    · rfl
    · exact if_neg (Ne.symm hx)
  | (k, c) :: rest => by
    simp only [cellPut]
    split
    · split
      · rfl
      · rw [cellGet, if_neg (Ne.symm hx)]
    · split
      · rename_i h1 h2
        split
        · rw [cellGet, if_neg (by omega)]
        · rw [cellGet, if_neg (Ne.symm hx), cellGet, if_neg (by omega)]
      · simp only [cellGet]; split
        · rfl
        · exact cellGet_cellPut_ne hx

theorem Memory.read_write_same {m : Memory} (a : Nat) (b : Byte) (h : m.wf = true) : (m.write a b).read a = b :=
  cellGet_cellPut_same h

theorem Memory.read_write_ne {m : Memory} {a x : Nat} (b : Byte) (h : x ≠ a) : (m.write a b).read x = m.read x :=
  cellGet_cellPut_ne h

theorem Memory.read_writeL_out {bs : List Byte} : ∀ {m : Memory} {a x : Nat}, (x < a ∨ a + bs.length ≤ x) →
    (m.writeL a bs).read x = m.read x := by
  induction bs with
  | nil => exact fun _ => rfl
  | cons b bs ih =>
    intro m a x h
    simp only [List.length_cons] at h
    exact (ih (by omega)).trans (Memory.read_write_ne b (by omega))

theorem Memory.read_writeL_in {bs : List Byte} : ∀ {m : Memory} {a i : Nat}, m.wf = true → i < bs.length →
    (m.writeL a bs).read (a + i) = bs.getD i 0 := by
  induction bs with
  | nil => exact fun _ h => absurd h (Nat.not_lt_zero _)
  | cons b bs ih =>
    intro m a i w h
    cases i with
    | zero => exact (Memory.read_writeL_out (bs := bs) (x := a) (by omega)).trans (Memory.read_write_same a b w)
    | succ i =>
      have := ih (m := m.write a b) (a := a + 1) (i := i) (Memory.wf_write a b w) (by simpa using h)
      simpa [Memory.writeL, Nat.add_comm, Nat.add_left_comm] using this

theorem Memory.read_clear {m : Memory} {lo hi a : Nat} :
    (m.clear lo hi).read a = if lo ≤ a ∧ a < hi then 0 else m.read a := by
  obtain ⟨l⟩ := m
  simp only [Memory.clear, Memory.read]
  induction l with
  | nil => simp [cellGet]
  | cons x xs ih =>
    obtain ⟨k, c⟩ := x
    rw [List.filter_cons]
    by_cases hk : k = a
    · subst hk
      by_cases h : lo ≤ k ∧ k < hi
      · rw [if_neg (by simp [h]), ih, if_pos h, if_pos h]
      · rw [if_pos (by simp only [Bool.not_eq_true', Bool.and_eq_false_iff, decide_eq_false_iff_not]; omega), if_neg h]
        simp only [cellGet, if_true]
    · by_cases h : (!(decide (lo ≤ k) && decide (k < hi))) = true
      · rw [if_pos h]; simp only [cellGet, if_neg hk]; exact ih
      · rw [if_neg h, ih]; simp only [cellGet, if_neg hk]

/-- Two memories in canonical form that read alike are equal. -/
theorem Memory.ext_of_read {m n : Memory} (hm : m.wf = true) (hn : n.wf = true) (h : ∀ a, m.read a = n.read a) : m = n := by
  obtain ⟨l⟩ := m; obtain ⟨k⟩ := n
  have key : ∀ (l k : List Host.Cell) (lo : Nat), cellsFrom lo l = true → cellsFrom lo k = true →
      (∀ a, cellGet l a = cellGet k a) → l = k := by
    intro l
    induction l with
    | nil =>
      intro k lo _ hk h
      cases k with
      | nil => rfl
      | cons y ys =>
        simp only [cellsFrom, Bool.and_eq_true, decide_eq_true_eq, bne_iff_ne] at hk
        exact absurd ((h y.1).trans (if_pos rfl)).symm hk.1.2
    | cons x xs ih =>
      intro k lo hl hk h
      cases k with
      | nil =>
        simp only [cellsFrom, Bool.and_eq_true, decide_eq_true_eq, bne_iff_ne] at hl
        exact absurd ((if_pos rfl).symm.trans (h x.1)) hl.1.2
      | cons y ys =>
        simp only [cellsFrom, Bool.and_eq_true, decide_eq_true_eq, bne_iff_ne] at hl hk
        have e : x.1 = y.1 := by
          rcases Nat.lt_trichotomy x.1 y.1 with g | g | g
          · have := h x.1
            rw [cellGet, if_pos rfl, cellGet, if_neg (by omega), cellGet_below hk.2 (by omega)] at this
            exact absurd this hl.1.2
          · exact g
          · have := h y.1
            rw [cellGet, if_neg (by omega), cellGet_below hl.2 (by omega), cellGet, if_pos rfl] at this
            exact absurd this.symm hk.1.2
        have e2 : x.2 = y.2 := by
          have := h x.1
          rwa [cellGet, if_pos rfl, cellGet, if_pos e.symm] at this
        obtain ⟨x1, x2⟩ := x; obtain ⟨y1, y2⟩ := y
        obtain rfl : x1 = y1 := e
        obtain rfl : x2 = y2 := e2
        congr 1
        refine ih ys _ hl.2 hk.2 fun a => ?_
        by_cases g : a < x1 + 1
        · rw [cellGet_below hl.2 g, cellGet_below hk.2 g]
        · have := h a
          rwa [cellGet, if_neg (by omega), cellGet, if_neg (by omega)] at this
  exact congrArg Memory.mk (key l k 0 hm hn h)

/-! ## Memory of the machine -/

theorem State.wf_writeMem {s : State} (w : Writer) (k : Bool) (p a : Nat) (bs : List Byte) (h : s.mem.wf = true) :
    (s.writeMem w k p a bs).mem.wf = true := Memory.wf_foldl _ h

theorem State.wf_writePhys {s : State} (p a : Nat) (bs : List Byte) (h : s.mem.wf = true) :
    (s.writePhys p a bs).mem.wf = true := by
  unfold State.writePhys
  split
  · exact State.wf_writeMem _ _ _ _ _ h
  · exact h

/-- A write touches only the places of its bytes. -/
theorem State.writeMem_out {s : State} {w : Writer} {k : Bool} {p a x : Nat} {bs : List Byte}
    (h : ∀ i < bs.length, s.key p (a + i) ≠ x) : (s.writeMem w k p a bs).mem.read x = s.mem.read x := by
  have key : ∀ (n : Nat) (m : Memory), n ≤ bs.length →
      ((List.range n).foldl (fun m i => m.write (s.key p (a + i)) (bs.getD i 0)) m).read x = m.read x := by
    intro n
    induction n with
    | zero => exact fun _ _ => rfl
    | succ n ih =>
      intro m hn
      rw [List.range_succ, List.foldl_append]
      exact (Memory.read_write_ne _ (Ne.symm (h n (by omega)))).trans (ih m (by omega))
  exact key _ _ (Nat.le_refl _)

end Sys2Proof.Machine
end

