-- ==== Sys2Proof/Laws/State.lean ====
section
/-!
SUPPORT. What each update of the state leaves, field by field, and what it finds afterwards.
-/

namespace Sys2Proof.Machine

open Sys2Proof

/-! ## `State.modTeam` -/

@[simp] theorem State.modTeam_tick (s : State) (t : TeamId) (f : Team → Team) : (s.modTeam t f).tick = s.tick := rfl
@[simp] theorem State.modTeam_clock (s : State) (t : TeamId) (f : Team → Team) : (s.modTeam t f).clock = s.clock := rfl
@[simp] theorem State.modTeam_now (s : State) (t : TeamId) (f : Team → Team) : (s.modTeam t f).now = s.now := rfl
@[simp] theorem State.modTeam_frozen (s : State) (t : TeamId) (f : Team → Team) : (s.modTeam t f).frozen = s.frozen := rfl
@[simp] theorem State.modTeam_boot (s : State) (t : TeamId) (f : Team → Team) : (s.modTeam t f).boot = s.boot := rfl
@[simp] theorem State.modTeam_restricted (s : State) (t : TeamId) (f : Team → Team) : (s.modTeam t f).restricted = s.restricted := rfl
@[simp] theorem State.modTeam_devNum (s : State) (t : TeamId) (f : Team → Team) : (s.modTeam t f).devNum = s.devNum := rfl
@[simp] theorem State.modTeam_inputs (s : State) (t : TeamId) (f : Team → Team) : (s.modTeam t f).inputs = s.inputs := rfl
@[simp] theorem State.modTeam_focus (s : State) (t : TeamId) (f : Team → Team) : (s.modTeam t f).focus = s.focus := rfl
@[simp] theorem State.modTeam_runs (s : State) (t : TeamId) (f : Team → Team) : (s.modTeam t f).runs = s.runs := rfl
@[simp] theorem State.modTeam_mem (s : State) (t : TeamId) (f : Team → Team) : (s.modTeam t f).mem = s.mem := rfl
@[simp] theorem State.modTeam_poisoned (s : State) (t : TeamId) (f : Team → Team) : (s.modTeam t f).poisoned = s.poisoned := rfl
@[simp] theorem State.modTeam_corrected (s : State) (t : TeamId) (f : Team → Team) : (s.modTeam t f).corrected = s.corrected := rfl
@[simp] theorem State.modTeam_owners (s : State) (t : TeamId) (f : Team → Team) : (s.modTeam t f).owners = s.owners := rfl
@[simp] theorem State.modTeam_sigs (s : State) (t : TeamId) (f : Team → Team) : (s.modTeam t f).sigs = s.sigs := rfl
@[simp] theorem State.modTeam_l1 (s : State) (t : TeamId) (f : Team → Team) : (s.modTeam t f).l1 = s.l1 := rfl
@[simp] theorem State.modTeam_ccache (s : State) (t : TeamId) (f : Team → Team) : (s.modTeam t f).ccache = s.ccache := rfl
@[simp] theorem State.modTeam_tlb (s : State) (t : TeamId) (f : Team → Team) : (s.modTeam t f).tlb = s.tlb := rfl
@[simp] theorem State.modTeam_jobs (s : State) (t : TeamId) (f : Team → Team) : (s.modTeam t f).jobs = s.jobs := rfl
@[simp] theorem State.modTeam_nextJob (s : State) (t : TeamId) (f : Team → Team) : (s.modTeam t f).nextJob = s.nextJob := rfl
@[simp] theorem State.modTeam_draws (s : State) (t : TeamId) (f : Team → Team) : (s.modTeam t f).draws = s.draws := rfl
@[simp] theorem State.modTeam_acc (s : State) (t : TeamId) (f : Team → Team) : (s.modTeam t f).acc = s.acc := rfl
@[simp] theorem State.modTeam_contexts (s : State) (t : TeamId) (f : Team → Team) : (s.modTeam t f).contexts = s.contexts := rfl
@[simp] theorem State.modTeam_turn (s : State) (t : TeamId) (f : Team → Team) : (s.modTeam t f).turn = s.turn := rfl
@[simp] theorem State.modTeam_savedCtx (s : State) (t : TeamId) (f : Team → Team) : (s.modTeam t f).savedCtx = s.savedCtx := rfl
@[simp] theorem State.modTeam_cmds (s : State) (t : TeamId) (f : Team → Team) : (s.modTeam t f).cmds = s.cmds := rfl
@[simp] theorem State.modTeam_nextCmd (s : State) (t : TeamId) (f : Team → Team) : (s.modTeam t f).nextCmd = s.nextCmd := rfl
@[simp] theorem State.modTeam_bins (s : State) (t : TeamId) (f : Team → Team) : (s.modTeam t f).bins = s.bins := rfl
@[simp] theorem State.modTeam_belfry (s : State) (t : TeamId) (f : Team → Team) : (s.modTeam t f).belfry = s.belfry := rfl
@[simp] theorem State.modTeam_pins (s : State) (t : TeamId) (f : Team → Team) : (s.modTeam t f).pins = s.pins := rfl
@[simp] theorem State.modTeam_handles (s : State) (t : TeamId) (f : Team → Team) : (s.modTeam t f).handles = s.handles := rfl
@[simp] theorem State.modTeam_counters (s : State) (t : TeamId) (f : Team → Team) : (s.modTeam t f).counters = s.counters := rfl
@[simp] theorem State.modTeam_slots (s : State) (t : TeamId) (f : Team → Team) : (s.modTeam t f).slots = s.slots := rfl
@[simp] theorem State.modTeam_lastVf (s : State) (t : TeamId) (f : Team → Team) : (s.modTeam t f).lastVf = s.lastVf := rfl
@[simp] theorem State.modTeam_sliceAt (s : State) (t : TeamId) (f : Team → Team) : (s.modTeam t f).sliceAt = s.sliceAt := rfl
@[simp] theorem State.modTeam_served (s : State) (t : TeamId) (f : Team → Team) : (s.modTeam t f).served = s.served := rfl
@[simp] theorem State.modTeam_asked (s : State) (t : TeamId) (f : Team → Team) : (s.modTeam t f).asked = s.asked := rfl
@[simp] theorem State.modTeam_tickets (s : State) (t : TeamId) (f : Team → Team) : (s.modTeam t f).tickets = s.tickets := rfl
@[simp] theorem State.modTeam_nextTicket (s : State) (t : TeamId) (f : Team → Team) : (s.modTeam t f).nextTicket = s.nextTicket := rfl
@[simp] theorem State.modTeam_held (s : State) (t : TeamId) (f : Team → Team) : (s.modTeam t f).held = s.held := rfl
@[simp] theorem State.modTeam_remotes (s : State) (t : TeamId) (f : Team → Team) : (s.modTeam t f).remotes = s.remotes := rfl
@[simp] theorem State.modTeam_vfs (s : State) (t : TeamId) (f : Team → Team) : (s.modTeam t f).vfs = s.vfs := rfl
@[simp] theorem State.modTeam_parts (s : State) (t : TeamId) (f : Team → Team) : (s.modTeam t f).parts = s.parts := rfl
@[simp] theorem State.modTeam_banks (s : State) (t : TeamId) (f : Team → Team) : (s.modTeam t f).banks = s.banks := rfl
@[simp] theorem State.modTeam_perf (s : State) (t : TeamId) (f : Team → Team) : (s.modTeam t f).perf = s.perf := rfl
@[simp] theorem State.modTeam_kbudget (s : State) (t : TeamId) (f : Team → Team) : (s.modTeam t f).kbudget = s.kbudget := rfl
@[simp] theorem State.modTeam_grantsW (s : State) (t : TeamId) (f : Team → Team) : (s.modTeam t f).grantsW = s.grantsW := rfl
@[simp] theorem State.modTeam_periodAt (s : State) (t : TeamId) (f : Team → Team) : (s.modTeam t f).periodAt = s.periodAt := rfl
@[simp] theorem State.modTeam_mgrid (s : State) (t : TeamId) (f : Team → Team) : (s.modTeam t f).mgrid = s.mgrid := rfl
@[simp] theorem State.modTeam_digest (s : State) (t : TeamId) (f : Team → Team) : (s.modTeam t f).digest = s.digest := rfl
@[simp] theorem State.modTeam_log (s : State) (t : TeamId) (f : Team → Team) : (s.modTeam t f).log = s.log := rfl
@[simp] theorem State.modTeam_digestAtBoot (s : State) (t : TeamId) (f : Team → Team) : (s.modTeam t f).digestAtBoot = s.digestAtBoot := rfl
@[simp] theorem State.modTeam_bootLeaf (s : State) (t : TeamId) (f : Team → Team) : (s.modTeam t f).bootLeaf = s.bootLeaf := rfl
@[simp] theorem State.modTeam_attested (s : State) (t : TeamId) (f : Team → Team) : (s.modTeam t f).attested = s.attested := rfl
@[simp] theorem State.modTeam_idLeaves (s : State) (t : TeamId) (f : Team → Team) : (s.modTeam t f).idLeaves = s.idLeaves := rfl
@[simp] theorem State.modTeam_quoteLeaf (s : State) (t : TeamId) (f : Team → Team) : (s.modTeam t f).quoteLeaf = s.quoteLeaf := rfl
@[simp] theorem State.modTeam_quotes (s : State) (t : TeamId) (f : Team → Team) : (s.modTeam t f).quotes = s.quotes := rfl
@[simp] theorem State.modTeam_dropped (s : State) (t : TeamId) (f : Team → Team) : (s.modTeam t f).dropped = s.dropped := rfl
@[simp] theorem State.modTeam_resp (s : State) (t : TeamId) (f : Team → Team) : (s.modTeam t f).resp = s.resp := rfl
@[simp] theorem State.modTeam_readData (s : State) (t : TeamId) (f : Team → Team) : (s.modTeam t f).readData = s.readData := rfl
@[simp] theorem State.modTeam_ir (s : State) (t : TeamId) (f : Team → Team) : (s.modTeam t f).ir = s.ir := rfl
@[simp] theorem State.modTeam_tdo (s : State) (t : TeamId) (f : Team → Team) : (s.modTeam t f).tdo = s.tdo := rfl

/-! ## `State.modWave` -/

@[simp] theorem State.modWave_tick (s : State) (w : WaveId) (f : Wave → Wave) : (s.modWave w f).tick = s.tick := rfl
@[simp] theorem State.modWave_clock (s : State) (w : WaveId) (f : Wave → Wave) : (s.modWave w f).clock = s.clock := rfl
@[simp] theorem State.modWave_now (s : State) (w : WaveId) (f : Wave → Wave) : (s.modWave w f).now = s.now := rfl
@[simp] theorem State.modWave_frozen (s : State) (w : WaveId) (f : Wave → Wave) : (s.modWave w f).frozen = s.frozen := rfl
@[simp] theorem State.modWave_boot (s : State) (w : WaveId) (f : Wave → Wave) : (s.modWave w f).boot = s.boot := rfl
@[simp] theorem State.modWave_restricted (s : State) (w : WaveId) (f : Wave → Wave) : (s.modWave w f).restricted = s.restricted := rfl
@[simp] theorem State.modWave_devNum (s : State) (w : WaveId) (f : Wave → Wave) : (s.modWave w f).devNum = s.devNum := rfl
@[simp] theorem State.modWave_inputs (s : State) (w : WaveId) (f : Wave → Wave) : (s.modWave w f).inputs = s.inputs := rfl
@[simp] theorem State.modWave_focus (s : State) (w : WaveId) (f : Wave → Wave) : (s.modWave w f).focus = s.focus := rfl
@[simp] theorem State.modWave_runs (s : State) (w : WaveId) (f : Wave → Wave) : (s.modWave w f).runs = s.runs := rfl
@[simp] theorem State.modWave_mem (s : State) (w : WaveId) (f : Wave → Wave) : (s.modWave w f).mem = s.mem := rfl
@[simp] theorem State.modWave_poisoned (s : State) (w : WaveId) (f : Wave → Wave) : (s.modWave w f).poisoned = s.poisoned := rfl
@[simp] theorem State.modWave_corrected (s : State) (w : WaveId) (f : Wave → Wave) : (s.modWave w f).corrected = s.corrected := rfl
@[simp] theorem State.modWave_owners (s : State) (w : WaveId) (f : Wave → Wave) : (s.modWave w f).owners = s.owners := rfl
@[simp] theorem State.modWave_sigs (s : State) (w : WaveId) (f : Wave → Wave) : (s.modWave w f).sigs = s.sigs := rfl
@[simp] theorem State.modWave_l1 (s : State) (w : WaveId) (f : Wave → Wave) : (s.modWave w f).l1 = s.l1 := rfl
@[simp] theorem State.modWave_ccache (s : State) (w : WaveId) (f : Wave → Wave) : (s.modWave w f).ccache = s.ccache := rfl
@[simp] theorem State.modWave_tlb (s : State) (w : WaveId) (f : Wave → Wave) : (s.modWave w f).tlb = s.tlb := rfl
@[simp] theorem State.modWave_jobs (s : State) (w : WaveId) (f : Wave → Wave) : (s.modWave w f).jobs = s.jobs := rfl
@[simp] theorem State.modWave_nextJob (s : State) (w : WaveId) (f : Wave → Wave) : (s.modWave w f).nextJob = s.nextJob := rfl
@[simp] theorem State.modWave_draws (s : State) (w : WaveId) (f : Wave → Wave) : (s.modWave w f).draws = s.draws := rfl
@[simp] theorem State.modWave_acc (s : State) (w : WaveId) (f : Wave → Wave) : (s.modWave w f).acc = s.acc := rfl
@[simp] theorem State.modWave_contexts (s : State) (w : WaveId) (f : Wave → Wave) : (s.modWave w f).contexts = s.contexts := rfl
@[simp] theorem State.modWave_turn (s : State) (w : WaveId) (f : Wave → Wave) : (s.modWave w f).turn = s.turn := rfl
@[simp] theorem State.modWave_savedCtx (s : State) (w : WaveId) (f : Wave → Wave) : (s.modWave w f).savedCtx = s.savedCtx := rfl
@[simp] theorem State.modWave_cmds (s : State) (w : WaveId) (f : Wave → Wave) : (s.modWave w f).cmds = s.cmds := rfl
@[simp] theorem State.modWave_nextCmd (s : State) (w : WaveId) (f : Wave → Wave) : (s.modWave w f).nextCmd = s.nextCmd := rfl
@[simp] theorem State.modWave_bins (s : State) (w : WaveId) (f : Wave → Wave) : (s.modWave w f).bins = s.bins := rfl
@[simp] theorem State.modWave_belfry (s : State) (w : WaveId) (f : Wave → Wave) : (s.modWave w f).belfry = s.belfry := rfl
@[simp] theorem State.modWave_pins (s : State) (w : WaveId) (f : Wave → Wave) : (s.modWave w f).pins = s.pins := rfl
@[simp] theorem State.modWave_handles (s : State) (w : WaveId) (f : Wave → Wave) : (s.modWave w f).handles = s.handles := rfl
@[simp] theorem State.modWave_counters (s : State) (w : WaveId) (f : Wave → Wave) : (s.modWave w f).counters = s.counters := rfl
@[simp] theorem State.modWave_slots (s : State) (w : WaveId) (f : Wave → Wave) : (s.modWave w f).slots = s.slots := rfl
@[simp] theorem State.modWave_lastVf (s : State) (w : WaveId) (f : Wave → Wave) : (s.modWave w f).lastVf = s.lastVf := rfl
@[simp] theorem State.modWave_sliceAt (s : State) (w : WaveId) (f : Wave → Wave) : (s.modWave w f).sliceAt = s.sliceAt := rfl
@[simp] theorem State.modWave_served (s : State) (w : WaveId) (f : Wave → Wave) : (s.modWave w f).served = s.served := rfl
@[simp] theorem State.modWave_asked (s : State) (w : WaveId) (f : Wave → Wave) : (s.modWave w f).asked = s.asked := rfl
@[simp] theorem State.modWave_tickets (s : State) (w : WaveId) (f : Wave → Wave) : (s.modWave w f).tickets = s.tickets := rfl
@[simp] theorem State.modWave_nextTicket (s : State) (w : WaveId) (f : Wave → Wave) : (s.modWave w f).nextTicket = s.nextTicket := rfl
@[simp] theorem State.modWave_held (s : State) (w : WaveId) (f : Wave → Wave) : (s.modWave w f).held = s.held := rfl
@[simp] theorem State.modWave_remotes (s : State) (w : WaveId) (f : Wave → Wave) : (s.modWave w f).remotes = s.remotes := rfl
@[simp] theorem State.modWave_vfs (s : State) (w : WaveId) (f : Wave → Wave) : (s.modWave w f).vfs = s.vfs := rfl
@[simp] theorem State.modWave_parts (s : State) (w : WaveId) (f : Wave → Wave) : (s.modWave w f).parts = s.parts := rfl
@[simp] theorem State.modWave_banks (s : State) (w : WaveId) (f : Wave → Wave) : (s.modWave w f).banks = s.banks := rfl
@[simp] theorem State.modWave_perf (s : State) (w : WaveId) (f : Wave → Wave) : (s.modWave w f).perf = s.perf := rfl
@[simp] theorem State.modWave_kbudget (s : State) (w : WaveId) (f : Wave → Wave) : (s.modWave w f).kbudget = s.kbudget := rfl
@[simp] theorem State.modWave_grantsW (s : State) (w : WaveId) (f : Wave → Wave) : (s.modWave w f).grantsW = s.grantsW := rfl
@[simp] theorem State.modWave_periodAt (s : State) (w : WaveId) (f : Wave → Wave) : (s.modWave w f).periodAt = s.periodAt := rfl
@[simp] theorem State.modWave_mgrid (s : State) (w : WaveId) (f : Wave → Wave) : (s.modWave w f).mgrid = s.mgrid := rfl
@[simp] theorem State.modWave_digest (s : State) (w : WaveId) (f : Wave → Wave) : (s.modWave w f).digest = s.digest := rfl
@[simp] theorem State.modWave_log (s : State) (w : WaveId) (f : Wave → Wave) : (s.modWave w f).log = s.log := rfl
@[simp] theorem State.modWave_digestAtBoot (s : State) (w : WaveId) (f : Wave → Wave) : (s.modWave w f).digestAtBoot = s.digestAtBoot := rfl
@[simp] theorem State.modWave_bootLeaf (s : State) (w : WaveId) (f : Wave → Wave) : (s.modWave w f).bootLeaf = s.bootLeaf := rfl
@[simp] theorem State.modWave_attested (s : State) (w : WaveId) (f : Wave → Wave) : (s.modWave w f).attested = s.attested := rfl
@[simp] theorem State.modWave_idLeaves (s : State) (w : WaveId) (f : Wave → Wave) : (s.modWave w f).idLeaves = s.idLeaves := rfl
@[simp] theorem State.modWave_quoteLeaf (s : State) (w : WaveId) (f : Wave → Wave) : (s.modWave w f).quoteLeaf = s.quoteLeaf := rfl
@[simp] theorem State.modWave_quotes (s : State) (w : WaveId) (f : Wave → Wave) : (s.modWave w f).quotes = s.quotes := rfl
@[simp] theorem State.modWave_dropped (s : State) (w : WaveId) (f : Wave → Wave) : (s.modWave w f).dropped = s.dropped := rfl
@[simp] theorem State.modWave_resp (s : State) (w : WaveId) (f : Wave → Wave) : (s.modWave w f).resp = s.resp := rfl
@[simp] theorem State.modWave_readData (s : State) (w : WaveId) (f : Wave → Wave) : (s.modWave w f).readData = s.readData := rfl
@[simp] theorem State.modWave_ir (s : State) (w : WaveId) (f : Wave → Wave) : (s.modWave w f).ir = s.ir := rfl
@[simp] theorem State.modWave_tdo (s : State) (w : WaveId) (f : Wave → Wave) : (s.modWave w f).tdo = s.tdo := rfl

/-! ## `State.modLanes` -/

@[simp] theorem State.modLanes_tick (s : State) (w : WaveId) (m : LaneMask) (f : Fin 32 → Thread → Thread) : (s.modLanes w m f).tick = s.tick := rfl
@[simp] theorem State.modLanes_clock (s : State) (w : WaveId) (m : LaneMask) (f : Fin 32 → Thread → Thread) : (s.modLanes w m f).clock = s.clock := rfl
@[simp] theorem State.modLanes_now (s : State) (w : WaveId) (m : LaneMask) (f : Fin 32 → Thread → Thread) : (s.modLanes w m f).now = s.now := rfl
@[simp] theorem State.modLanes_frozen (s : State) (w : WaveId) (m : LaneMask) (f : Fin 32 → Thread → Thread) : (s.modLanes w m f).frozen = s.frozen := rfl
@[simp] theorem State.modLanes_boot (s : State) (w : WaveId) (m : LaneMask) (f : Fin 32 → Thread → Thread) : (s.modLanes w m f).boot = s.boot := rfl
@[simp] theorem State.modLanes_restricted (s : State) (w : WaveId) (m : LaneMask) (f : Fin 32 → Thread → Thread) : (s.modLanes w m f).restricted = s.restricted := rfl
@[simp] theorem State.modLanes_devNum (s : State) (w : WaveId) (m : LaneMask) (f : Fin 32 → Thread → Thread) : (s.modLanes w m f).devNum = s.devNum := rfl
@[simp] theorem State.modLanes_inputs (s : State) (w : WaveId) (m : LaneMask) (f : Fin 32 → Thread → Thread) : (s.modLanes w m f).inputs = s.inputs := rfl
@[simp] theorem State.modLanes_focus (s : State) (w : WaveId) (m : LaneMask) (f : Fin 32 → Thread → Thread) : (s.modLanes w m f).focus = s.focus := rfl
@[simp] theorem State.modLanes_runs (s : State) (w : WaveId) (m : LaneMask) (f : Fin 32 → Thread → Thread) : (s.modLanes w m f).runs = s.runs := rfl
@[simp] theorem State.modLanes_mem (s : State) (w : WaveId) (m : LaneMask) (f : Fin 32 → Thread → Thread) : (s.modLanes w m f).mem = s.mem := rfl
@[simp] theorem State.modLanes_poisoned (s : State) (w : WaveId) (m : LaneMask) (f : Fin 32 → Thread → Thread) : (s.modLanes w m f).poisoned = s.poisoned := rfl
@[simp] theorem State.modLanes_corrected (s : State) (w : WaveId) (m : LaneMask) (f : Fin 32 → Thread → Thread) : (s.modLanes w m f).corrected = s.corrected := rfl
@[simp] theorem State.modLanes_owners (s : State) (w : WaveId) (m : LaneMask) (f : Fin 32 → Thread → Thread) : (s.modLanes w m f).owners = s.owners := rfl
@[simp] theorem State.modLanes_sigs (s : State) (w : WaveId) (m : LaneMask) (f : Fin 32 → Thread → Thread) : (s.modLanes w m f).sigs = s.sigs := rfl
@[simp] theorem State.modLanes_l1 (s : State) (w : WaveId) (m : LaneMask) (f : Fin 32 → Thread → Thread) : (s.modLanes w m f).l1 = s.l1 := rfl
@[simp] theorem State.modLanes_ccache (s : State) (w : WaveId) (m : LaneMask) (f : Fin 32 → Thread → Thread) : (s.modLanes w m f).ccache = s.ccache := rfl
@[simp] theorem State.modLanes_tlb (s : State) (w : WaveId) (m : LaneMask) (f : Fin 32 → Thread → Thread) : (s.modLanes w m f).tlb = s.tlb := rfl
@[simp] theorem State.modLanes_jobs (s : State) (w : WaveId) (m : LaneMask) (f : Fin 32 → Thread → Thread) : (s.modLanes w m f).jobs = s.jobs := rfl
@[simp] theorem State.modLanes_nextJob (s : State) (w : WaveId) (m : LaneMask) (f : Fin 32 → Thread → Thread) : (s.modLanes w m f).nextJob = s.nextJob := rfl
@[simp] theorem State.modLanes_draws (s : State) (w : WaveId) (m : LaneMask) (f : Fin 32 → Thread → Thread) : (s.modLanes w m f).draws = s.draws := rfl
@[simp] theorem State.modLanes_acc (s : State) (w : WaveId) (m : LaneMask) (f : Fin 32 → Thread → Thread) : (s.modLanes w m f).acc = s.acc := rfl
@[simp] theorem State.modLanes_contexts (s : State) (w : WaveId) (m : LaneMask) (f : Fin 32 → Thread → Thread) : (s.modLanes w m f).contexts = s.contexts := rfl
@[simp] theorem State.modLanes_turn (s : State) (w : WaveId) (m : LaneMask) (f : Fin 32 → Thread → Thread) : (s.modLanes w m f).turn = s.turn := rfl
@[simp] theorem State.modLanes_savedCtx (s : State) (w : WaveId) (m : LaneMask) (f : Fin 32 → Thread → Thread) : (s.modLanes w m f).savedCtx = s.savedCtx := rfl
@[simp] theorem State.modLanes_cmds (s : State) (w : WaveId) (m : LaneMask) (f : Fin 32 → Thread → Thread) : (s.modLanes w m f).cmds = s.cmds := rfl
@[simp] theorem State.modLanes_nextCmd (s : State) (w : WaveId) (m : LaneMask) (f : Fin 32 → Thread → Thread) : (s.modLanes w m f).nextCmd = s.nextCmd := rfl
@[simp] theorem State.modLanes_bins (s : State) (w : WaveId) (m : LaneMask) (f : Fin 32 → Thread → Thread) : (s.modLanes w m f).bins = s.bins := rfl
@[simp] theorem State.modLanes_belfry (s : State) (w : WaveId) (m : LaneMask) (f : Fin 32 → Thread → Thread) : (s.modLanes w m f).belfry = s.belfry := rfl
@[simp] theorem State.modLanes_pins (s : State) (w : WaveId) (m : LaneMask) (f : Fin 32 → Thread → Thread) : (s.modLanes w m f).pins = s.pins := rfl
@[simp] theorem State.modLanes_handles (s : State) (w : WaveId) (m : LaneMask) (f : Fin 32 → Thread → Thread) : (s.modLanes w m f).handles = s.handles := rfl
@[simp] theorem State.modLanes_counters (s : State) (w : WaveId) (m : LaneMask) (f : Fin 32 → Thread → Thread) : (s.modLanes w m f).counters = s.counters := rfl
@[simp] theorem State.modLanes_slots (s : State) (w : WaveId) (m : LaneMask) (f : Fin 32 → Thread → Thread) : (s.modLanes w m f).slots = s.slots := rfl
@[simp] theorem State.modLanes_lastVf (s : State) (w : WaveId) (m : LaneMask) (f : Fin 32 → Thread → Thread) : (s.modLanes w m f).lastVf = s.lastVf := rfl
@[simp] theorem State.modLanes_sliceAt (s : State) (w : WaveId) (m : LaneMask) (f : Fin 32 → Thread → Thread) : (s.modLanes w m f).sliceAt = s.sliceAt := rfl
@[simp] theorem State.modLanes_served (s : State) (w : WaveId) (m : LaneMask) (f : Fin 32 → Thread → Thread) : (s.modLanes w m f).served = s.served := rfl
@[simp] theorem State.modLanes_asked (s : State) (w : WaveId) (m : LaneMask) (f : Fin 32 → Thread → Thread) : (s.modLanes w m f).asked = s.asked := rfl
@[simp] theorem State.modLanes_tickets (s : State) (w : WaveId) (m : LaneMask) (f : Fin 32 → Thread → Thread) : (s.modLanes w m f).tickets = s.tickets := rfl
@[simp] theorem State.modLanes_nextTicket (s : State) (w : WaveId) (m : LaneMask) (f : Fin 32 → Thread → Thread) : (s.modLanes w m f).nextTicket = s.nextTicket := rfl
@[simp] theorem State.modLanes_held (s : State) (w : WaveId) (m : LaneMask) (f : Fin 32 → Thread → Thread) : (s.modLanes w m f).held = s.held := rfl
@[simp] theorem State.modLanes_remotes (s : State) (w : WaveId) (m : LaneMask) (f : Fin 32 → Thread → Thread) : (s.modLanes w m f).remotes = s.remotes := rfl
@[simp] theorem State.modLanes_vfs (s : State) (w : WaveId) (m : LaneMask) (f : Fin 32 → Thread → Thread) : (s.modLanes w m f).vfs = s.vfs := rfl
@[simp] theorem State.modLanes_parts (s : State) (w : WaveId) (m : LaneMask) (f : Fin 32 → Thread → Thread) : (s.modLanes w m f).parts = s.parts := rfl
@[simp] theorem State.modLanes_banks (s : State) (w : WaveId) (m : LaneMask) (f : Fin 32 → Thread → Thread) : (s.modLanes w m f).banks = s.banks := rfl
@[simp] theorem State.modLanes_perf (s : State) (w : WaveId) (m : LaneMask) (f : Fin 32 → Thread → Thread) : (s.modLanes w m f).perf = s.perf := rfl
@[simp] theorem State.modLanes_kbudget (s : State) (w : WaveId) (m : LaneMask) (f : Fin 32 → Thread → Thread) : (s.modLanes w m f).kbudget = s.kbudget := rfl
@[simp] theorem State.modLanes_grantsW (s : State) (w : WaveId) (m : LaneMask) (f : Fin 32 → Thread → Thread) : (s.modLanes w m f).grantsW = s.grantsW := rfl
@[simp] theorem State.modLanes_periodAt (s : State) (w : WaveId) (m : LaneMask) (f : Fin 32 → Thread → Thread) : (s.modLanes w m f).periodAt = s.periodAt := rfl
@[simp] theorem State.modLanes_mgrid (s : State) (w : WaveId) (m : LaneMask) (f : Fin 32 → Thread → Thread) : (s.modLanes w m f).mgrid = s.mgrid := rfl
@[simp] theorem State.modLanes_digest (s : State) (w : WaveId) (m : LaneMask) (f : Fin 32 → Thread → Thread) : (s.modLanes w m f).digest = s.digest := rfl
@[simp] theorem State.modLanes_log (s : State) (w : WaveId) (m : LaneMask) (f : Fin 32 → Thread → Thread) : (s.modLanes w m f).log = s.log := rfl
@[simp] theorem State.modLanes_digestAtBoot (s : State) (w : WaveId) (m : LaneMask) (f : Fin 32 → Thread → Thread) : (s.modLanes w m f).digestAtBoot = s.digestAtBoot := rfl
@[simp] theorem State.modLanes_bootLeaf (s : State) (w : WaveId) (m : LaneMask) (f : Fin 32 → Thread → Thread) : (s.modLanes w m f).bootLeaf = s.bootLeaf := rfl
@[simp] theorem State.modLanes_attested (s : State) (w : WaveId) (m : LaneMask) (f : Fin 32 → Thread → Thread) : (s.modLanes w m f).attested = s.attested := rfl
@[simp] theorem State.modLanes_idLeaves (s : State) (w : WaveId) (m : LaneMask) (f : Fin 32 → Thread → Thread) : (s.modLanes w m f).idLeaves = s.idLeaves := rfl
@[simp] theorem State.modLanes_quoteLeaf (s : State) (w : WaveId) (m : LaneMask) (f : Fin 32 → Thread → Thread) : (s.modLanes w m f).quoteLeaf = s.quoteLeaf := rfl
@[simp] theorem State.modLanes_quotes (s : State) (w : WaveId) (m : LaneMask) (f : Fin 32 → Thread → Thread) : (s.modLanes w m f).quotes = s.quotes := rfl
@[simp] theorem State.modLanes_dropped (s : State) (w : WaveId) (m : LaneMask) (f : Fin 32 → Thread → Thread) : (s.modLanes w m f).dropped = s.dropped := rfl
@[simp] theorem State.modLanes_resp (s : State) (w : WaveId) (m : LaneMask) (f : Fin 32 → Thread → Thread) : (s.modLanes w m f).resp = s.resp := rfl
@[simp] theorem State.modLanes_readData (s : State) (w : WaveId) (m : LaneMask) (f : Fin 32 → Thread → Thread) : (s.modLanes w m f).readData = s.readData := rfl
@[simp] theorem State.modLanes_ir (s : State) (w : WaveId) (m : LaneMask) (f : Fin 32 → Thread → Thread) : (s.modLanes w m f).ir = s.ir := rfl
@[simp] theorem State.modLanes_tdo (s : State) (w : WaveId) (m : LaneMask) (f : Fin 32 → Thread → Thread) : (s.modLanes w m f).tdo = s.tdo := rfl

/-! ## `State.modJob` -/

@[simp] theorem State.modJob_tick (s : State) (j : Nat) (f : Job → Job) : (s.modJob j f).tick = s.tick := rfl
@[simp] theorem State.modJob_clock (s : State) (j : Nat) (f : Job → Job) : (s.modJob j f).clock = s.clock := rfl
@[simp] theorem State.modJob_now (s : State) (j : Nat) (f : Job → Job) : (s.modJob j f).now = s.now := rfl
@[simp] theorem State.modJob_frozen (s : State) (j : Nat) (f : Job → Job) : (s.modJob j f).frozen = s.frozen := rfl
@[simp] theorem State.modJob_boot (s : State) (j : Nat) (f : Job → Job) : (s.modJob j f).boot = s.boot := rfl
@[simp] theorem State.modJob_restricted (s : State) (j : Nat) (f : Job → Job) : (s.modJob j f).restricted = s.restricted := rfl
@[simp] theorem State.modJob_devNum (s : State) (j : Nat) (f : Job → Job) : (s.modJob j f).devNum = s.devNum := rfl
@[simp] theorem State.modJob_inputs (s : State) (j : Nat) (f : Job → Job) : (s.modJob j f).inputs = s.inputs := rfl
@[simp] theorem State.modJob_focus (s : State) (j : Nat) (f : Job → Job) : (s.modJob j f).focus = s.focus := rfl
@[simp] theorem State.modJob_runs (s : State) (j : Nat) (f : Job → Job) : (s.modJob j f).runs = s.runs := rfl
@[simp] theorem State.modJob_mem (s : State) (j : Nat) (f : Job → Job) : (s.modJob j f).mem = s.mem := rfl
@[simp] theorem State.modJob_poisoned (s : State) (j : Nat) (f : Job → Job) : (s.modJob j f).poisoned = s.poisoned := rfl
@[simp] theorem State.modJob_corrected (s : State) (j : Nat) (f : Job → Job) : (s.modJob j f).corrected = s.corrected := rfl
@[simp] theorem State.modJob_owners (s : State) (j : Nat) (f : Job → Job) : (s.modJob j f).owners = s.owners := rfl
@[simp] theorem State.modJob_sigs (s : State) (j : Nat) (f : Job → Job) : (s.modJob j f).sigs = s.sigs := rfl
@[simp] theorem State.modJob_l1 (s : State) (j : Nat) (f : Job → Job) : (s.modJob j f).l1 = s.l1 := rfl
@[simp] theorem State.modJob_ccache (s : State) (j : Nat) (f : Job → Job) : (s.modJob j f).ccache = s.ccache := rfl
@[simp] theorem State.modJob_tlb (s : State) (j : Nat) (f : Job → Job) : (s.modJob j f).tlb = s.tlb := rfl
@[simp] theorem State.modJob_nextJob (s : State) (j : Nat) (f : Job → Job) : (s.modJob j f).nextJob = s.nextJob := rfl
@[simp] theorem State.modJob_draws (s : State) (j : Nat) (f : Job → Job) : (s.modJob j f).draws = s.draws := rfl
@[simp] theorem State.modJob_teams (s : State) (j : Nat) (f : Job → Job) : (s.modJob j f).teams = s.teams := rfl
@[simp] theorem State.modJob_acc (s : State) (j : Nat) (f : Job → Job) : (s.modJob j f).acc = s.acc := rfl
@[simp] theorem State.modJob_contexts (s : State) (j : Nat) (f : Job → Job) : (s.modJob j f).contexts = s.contexts := rfl
@[simp] theorem State.modJob_turn (s : State) (j : Nat) (f : Job → Job) : (s.modJob j f).turn = s.turn := rfl
@[simp] theorem State.modJob_savedCtx (s : State) (j : Nat) (f : Job → Job) : (s.modJob j f).savedCtx = s.savedCtx := rfl
@[simp] theorem State.modJob_cmds (s : State) (j : Nat) (f : Job → Job) : (s.modJob j f).cmds = s.cmds := rfl
@[simp] theorem State.modJob_nextCmd (s : State) (j : Nat) (f : Job → Job) : (s.modJob j f).nextCmd = s.nextCmd := rfl
@[simp] theorem State.modJob_bins (s : State) (j : Nat) (f : Job → Job) : (s.modJob j f).bins = s.bins := rfl
@[simp] theorem State.modJob_belfry (s : State) (j : Nat) (f : Job → Job) : (s.modJob j f).belfry = s.belfry := rfl
@[simp] theorem State.modJob_pins (s : State) (j : Nat) (f : Job → Job) : (s.modJob j f).pins = s.pins := rfl
@[simp] theorem State.modJob_handles (s : State) (j : Nat) (f : Job → Job) : (s.modJob j f).handles = s.handles := rfl
@[simp] theorem State.modJob_counters (s : State) (j : Nat) (f : Job → Job) : (s.modJob j f).counters = s.counters := rfl
@[simp] theorem State.modJob_slots (s : State) (j : Nat) (f : Job → Job) : (s.modJob j f).slots = s.slots := rfl
@[simp] theorem State.modJob_lastVf (s : State) (j : Nat) (f : Job → Job) : (s.modJob j f).lastVf = s.lastVf := rfl
@[simp] theorem State.modJob_sliceAt (s : State) (j : Nat) (f : Job → Job) : (s.modJob j f).sliceAt = s.sliceAt := rfl
@[simp] theorem State.modJob_served (s : State) (j : Nat) (f : Job → Job) : (s.modJob j f).served = s.served := rfl
@[simp] theorem State.modJob_asked (s : State) (j : Nat) (f : Job → Job) : (s.modJob j f).asked = s.asked := rfl
@[simp] theorem State.modJob_tickets (s : State) (j : Nat) (f : Job → Job) : (s.modJob j f).tickets = s.tickets := rfl
@[simp] theorem State.modJob_nextTicket (s : State) (j : Nat) (f : Job → Job) : (s.modJob j f).nextTicket = s.nextTicket := rfl
@[simp] theorem State.modJob_held (s : State) (j : Nat) (f : Job → Job) : (s.modJob j f).held = s.held := rfl
@[simp] theorem State.modJob_remotes (s : State) (j : Nat) (f : Job → Job) : (s.modJob j f).remotes = s.remotes := rfl
@[simp] theorem State.modJob_vfs (s : State) (j : Nat) (f : Job → Job) : (s.modJob j f).vfs = s.vfs := rfl
@[simp] theorem State.modJob_parts (s : State) (j : Nat) (f : Job → Job) : (s.modJob j f).parts = s.parts := rfl
@[simp] theorem State.modJob_banks (s : State) (j : Nat) (f : Job → Job) : (s.modJob j f).banks = s.banks := rfl
@[simp] theorem State.modJob_perf (s : State) (j : Nat) (f : Job → Job) : (s.modJob j f).perf = s.perf := rfl
@[simp] theorem State.modJob_kbudget (s : State) (j : Nat) (f : Job → Job) : (s.modJob j f).kbudget = s.kbudget := rfl
@[simp] theorem State.modJob_grantsW (s : State) (j : Nat) (f : Job → Job) : (s.modJob j f).grantsW = s.grantsW := rfl
@[simp] theorem State.modJob_periodAt (s : State) (j : Nat) (f : Job → Job) : (s.modJob j f).periodAt = s.periodAt := rfl
@[simp] theorem State.modJob_mgrid (s : State) (j : Nat) (f : Job → Job) : (s.modJob j f).mgrid = s.mgrid := rfl
@[simp] theorem State.modJob_digest (s : State) (j : Nat) (f : Job → Job) : (s.modJob j f).digest = s.digest := rfl
@[simp] theorem State.modJob_log (s : State) (j : Nat) (f : Job → Job) : (s.modJob j f).log = s.log := rfl
@[simp] theorem State.modJob_digestAtBoot (s : State) (j : Nat) (f : Job → Job) : (s.modJob j f).digestAtBoot = s.digestAtBoot := rfl
@[simp] theorem State.modJob_bootLeaf (s : State) (j : Nat) (f : Job → Job) : (s.modJob j f).bootLeaf = s.bootLeaf := rfl
@[simp] theorem State.modJob_attested (s : State) (j : Nat) (f : Job → Job) : (s.modJob j f).attested = s.attested := rfl
@[simp] theorem State.modJob_idLeaves (s : State) (j : Nat) (f : Job → Job) : (s.modJob j f).idLeaves = s.idLeaves := rfl
@[simp] theorem State.modJob_quoteLeaf (s : State) (j : Nat) (f : Job → Job) : (s.modJob j f).quoteLeaf = s.quoteLeaf := rfl
@[simp] theorem State.modJob_quotes (s : State) (j : Nat) (f : Job → Job) : (s.modJob j f).quotes = s.quotes := rfl
@[simp] theorem State.modJob_dropped (s : State) (j : Nat) (f : Job → Job) : (s.modJob j f).dropped = s.dropped := rfl
@[simp] theorem State.modJob_resp (s : State) (j : Nat) (f : Job → Job) : (s.modJob j f).resp = s.resp := rfl
@[simp] theorem State.modJob_readData (s : State) (j : Nat) (f : Job → Job) : (s.modJob j f).readData = s.readData := rfl
@[simp] theorem State.modJob_ir (s : State) (j : Nat) (f : Job → Job) : (s.modJob j f).ir = s.ir := rfl
@[simp] theorem State.modJob_tdo (s : State) (j : Nat) (f : Job → Job) : (s.modJob j f).tdo = s.tdo := rfl

/-! ## `State.setVf` -/

@[simp] theorem State.setVf_tick (s : State) (v : Nat) (r : VfRegs) : (s.setVf v r).tick = s.tick := rfl
@[simp] theorem State.setVf_clock (s : State) (v : Nat) (r : VfRegs) : (s.setVf v r).clock = s.clock := rfl
@[simp] theorem State.setVf_now (s : State) (v : Nat) (r : VfRegs) : (s.setVf v r).now = s.now := rfl
@[simp] theorem State.setVf_frozen (s : State) (v : Nat) (r : VfRegs) : (s.setVf v r).frozen = s.frozen := rfl
@[simp] theorem State.setVf_boot (s : State) (v : Nat) (r : VfRegs) : (s.setVf v r).boot = s.boot := rfl
@[simp] theorem State.setVf_restricted (s : State) (v : Nat) (r : VfRegs) : (s.setVf v r).restricted = s.restricted := rfl
@[simp] theorem State.setVf_devNum (s : State) (v : Nat) (r : VfRegs) : (s.setVf v r).devNum = s.devNum := rfl
@[simp] theorem State.setVf_inputs (s : State) (v : Nat) (r : VfRegs) : (s.setVf v r).inputs = s.inputs := rfl
@[simp] theorem State.setVf_focus (s : State) (v : Nat) (r : VfRegs) : (s.setVf v r).focus = s.focus := rfl
@[simp] theorem State.setVf_runs (s : State) (v : Nat) (r : VfRegs) : (s.setVf v r).runs = s.runs := rfl
@[simp] theorem State.setVf_mem (s : State) (v : Nat) (r : VfRegs) : (s.setVf v r).mem = s.mem := rfl
@[simp] theorem State.setVf_poisoned (s : State) (v : Nat) (r : VfRegs) : (s.setVf v r).poisoned = s.poisoned := rfl
@[simp] theorem State.setVf_corrected (s : State) (v : Nat) (r : VfRegs) : (s.setVf v r).corrected = s.corrected := rfl
@[simp] theorem State.setVf_owners (s : State) (v : Nat) (r : VfRegs) : (s.setVf v r).owners = s.owners := rfl
@[simp] theorem State.setVf_sigs (s : State) (v : Nat) (r : VfRegs) : (s.setVf v r).sigs = s.sigs := rfl
@[simp] theorem State.setVf_l1 (s : State) (v : Nat) (r : VfRegs) : (s.setVf v r).l1 = s.l1 := rfl
@[simp] theorem State.setVf_ccache (s : State) (v : Nat) (r : VfRegs) : (s.setVf v r).ccache = s.ccache := rfl
@[simp] theorem State.setVf_tlb (s : State) (v : Nat) (r : VfRegs) : (s.setVf v r).tlb = s.tlb := rfl
@[simp] theorem State.setVf_jobs (s : State) (v : Nat) (r : VfRegs) : (s.setVf v r).jobs = s.jobs := rfl
@[simp] theorem State.setVf_nextJob (s : State) (v : Nat) (r : VfRegs) : (s.setVf v r).nextJob = s.nextJob := rfl
@[simp] theorem State.setVf_draws (s : State) (v : Nat) (r : VfRegs) : (s.setVf v r).draws = s.draws := rfl
@[simp] theorem State.setVf_teams (s : State) (v : Nat) (r : VfRegs) : (s.setVf v r).teams = s.teams := rfl
@[simp] theorem State.setVf_acc (s : State) (v : Nat) (r : VfRegs) : (s.setVf v r).acc = s.acc := rfl
@[simp] theorem State.setVf_contexts (s : State) (v : Nat) (r : VfRegs) : (s.setVf v r).contexts = s.contexts := rfl
@[simp] theorem State.setVf_turn (s : State) (v : Nat) (r : VfRegs) : (s.setVf v r).turn = s.turn := rfl
@[simp] theorem State.setVf_savedCtx (s : State) (v : Nat) (r : VfRegs) : (s.setVf v r).savedCtx = s.savedCtx := rfl
@[simp] theorem State.setVf_cmds (s : State) (v : Nat) (r : VfRegs) : (s.setVf v r).cmds = s.cmds := rfl
@[simp] theorem State.setVf_nextCmd (s : State) (v : Nat) (r : VfRegs) : (s.setVf v r).nextCmd = s.nextCmd := rfl
@[simp] theorem State.setVf_bins (s : State) (v : Nat) (r : VfRegs) : (s.setVf v r).bins = s.bins := rfl
@[simp] theorem State.setVf_belfry (s : State) (v : Nat) (r : VfRegs) : (s.setVf v r).belfry = s.belfry := rfl
@[simp] theorem State.setVf_pins (s : State) (v : Nat) (r : VfRegs) : (s.setVf v r).pins = s.pins := rfl
@[simp] theorem State.setVf_handles (s : State) (v : Nat) (r : VfRegs) : (s.setVf v r).handles = s.handles := rfl
@[simp] theorem State.setVf_counters (s : State) (v : Nat) (r : VfRegs) : (s.setVf v r).counters = s.counters := rfl
@[simp] theorem State.setVf_slots (s : State) (v : Nat) (r : VfRegs) : (s.setVf v r).slots = s.slots := rfl
@[simp] theorem State.setVf_lastVf (s : State) (v : Nat) (r : VfRegs) : (s.setVf v r).lastVf = s.lastVf := rfl
@[simp] theorem State.setVf_sliceAt (s : State) (v : Nat) (r : VfRegs) : (s.setVf v r).sliceAt = s.sliceAt := rfl
@[simp] theorem State.setVf_served (s : State) (v : Nat) (r : VfRegs) : (s.setVf v r).served = s.served := rfl
@[simp] theorem State.setVf_asked (s : State) (v : Nat) (r : VfRegs) : (s.setVf v r).asked = s.asked := rfl
@[simp] theorem State.setVf_tickets (s : State) (v : Nat) (r : VfRegs) : (s.setVf v r).tickets = s.tickets := rfl
@[simp] theorem State.setVf_nextTicket (s : State) (v : Nat) (r : VfRegs) : (s.setVf v r).nextTicket = s.nextTicket := rfl
@[simp] theorem State.setVf_held (s : State) (v : Nat) (r : VfRegs) : (s.setVf v r).held = s.held := rfl
@[simp] theorem State.setVf_remotes (s : State) (v : Nat) (r : VfRegs) : (s.setVf v r).remotes = s.remotes := rfl
@[simp] theorem State.setVf_parts (s : State) (v : Nat) (r : VfRegs) : (s.setVf v r).parts = s.parts := rfl
@[simp] theorem State.setVf_banks (s : State) (v : Nat) (r : VfRegs) : (s.setVf v r).banks = s.banks := rfl
@[simp] theorem State.setVf_perf (s : State) (v : Nat) (r : VfRegs) : (s.setVf v r).perf = s.perf := rfl
@[simp] theorem State.setVf_kbudget (s : State) (v : Nat) (r : VfRegs) : (s.setVf v r).kbudget = s.kbudget := rfl
@[simp] theorem State.setVf_grantsW (s : State) (v : Nat) (r : VfRegs) : (s.setVf v r).grantsW = s.grantsW := rfl
@[simp] theorem State.setVf_periodAt (s : State) (v : Nat) (r : VfRegs) : (s.setVf v r).periodAt = s.periodAt := rfl
@[simp] theorem State.setVf_mgrid (s : State) (v : Nat) (r : VfRegs) : (s.setVf v r).mgrid = s.mgrid := rfl
@[simp] theorem State.setVf_digest (s : State) (v : Nat) (r : VfRegs) : (s.setVf v r).digest = s.digest := rfl
@[simp] theorem State.setVf_log (s : State) (v : Nat) (r : VfRegs) : (s.setVf v r).log = s.log := rfl
@[simp] theorem State.setVf_digestAtBoot (s : State) (v : Nat) (r : VfRegs) : (s.setVf v r).digestAtBoot = s.digestAtBoot := rfl
@[simp] theorem State.setVf_bootLeaf (s : State) (v : Nat) (r : VfRegs) : (s.setVf v r).bootLeaf = s.bootLeaf := rfl
@[simp] theorem State.setVf_attested (s : State) (v : Nat) (r : VfRegs) : (s.setVf v r).attested = s.attested := rfl
@[simp] theorem State.setVf_idLeaves (s : State) (v : Nat) (r : VfRegs) : (s.setVf v r).idLeaves = s.idLeaves := rfl
@[simp] theorem State.setVf_quoteLeaf (s : State) (v : Nat) (r : VfRegs) : (s.setVf v r).quoteLeaf = s.quoteLeaf := rfl
@[simp] theorem State.setVf_quotes (s : State) (v : Nat) (r : VfRegs) : (s.setVf v r).quotes = s.quotes := rfl
@[simp] theorem State.setVf_dropped (s : State) (v : Nat) (r : VfRegs) : (s.setVf v r).dropped = s.dropped := rfl
@[simp] theorem State.setVf_resp (s : State) (v : Nat) (r : VfRegs) : (s.setVf v r).resp = s.resp := rfl
@[simp] theorem State.setVf_readData (s : State) (v : Nat) (r : VfRegs) : (s.setVf v r).readData = s.readData := rfl
@[simp] theorem State.setVf_ir (s : State) (v : Nat) (r : VfRegs) : (s.setVf v r).ir = s.ir := rfl
@[simp] theorem State.setVf_tdo (s : State) (v : Nat) (r : VfRegs) : (s.setVf v r).tdo = s.tdo := rfl

/-! ## `State.setPart` -/

@[simp] theorem State.setPart_tick (s : State) (p : Nat) (r : PartRegs) : (s.setPart p r).tick = s.tick := rfl
@[simp] theorem State.setPart_clock (s : State) (p : Nat) (r : PartRegs) : (s.setPart p r).clock = s.clock := rfl
@[simp] theorem State.setPart_now (s : State) (p : Nat) (r : PartRegs) : (s.setPart p r).now = s.now := rfl
@[simp] theorem State.setPart_frozen (s : State) (p : Nat) (r : PartRegs) : (s.setPart p r).frozen = s.frozen := rfl
@[simp] theorem State.setPart_boot (s : State) (p : Nat) (r : PartRegs) : (s.setPart p r).boot = s.boot := rfl
@[simp] theorem State.setPart_restricted (s : State) (p : Nat) (r : PartRegs) : (s.setPart p r).restricted = s.restricted := rfl
@[simp] theorem State.setPart_devNum (s : State) (p : Nat) (r : PartRegs) : (s.setPart p r).devNum = s.devNum := rfl
@[simp] theorem State.setPart_inputs (s : State) (p : Nat) (r : PartRegs) : (s.setPart p r).inputs = s.inputs := rfl
@[simp] theorem State.setPart_focus (s : State) (p : Nat) (r : PartRegs) : (s.setPart p r).focus = s.focus := rfl
@[simp] theorem State.setPart_runs (s : State) (p : Nat) (r : PartRegs) : (s.setPart p r).runs = s.runs := rfl
@[simp] theorem State.setPart_mem (s : State) (p : Nat) (r : PartRegs) : (s.setPart p r).mem = s.mem := rfl
@[simp] theorem State.setPart_poisoned (s : State) (p : Nat) (r : PartRegs) : (s.setPart p r).poisoned = s.poisoned := rfl
@[simp] theorem State.setPart_corrected (s : State) (p : Nat) (r : PartRegs) : (s.setPart p r).corrected = s.corrected := rfl
@[simp] theorem State.setPart_owners (s : State) (p : Nat) (r : PartRegs) : (s.setPart p r).owners = s.owners := rfl
@[simp] theorem State.setPart_sigs (s : State) (p : Nat) (r : PartRegs) : (s.setPart p r).sigs = s.sigs := rfl
@[simp] theorem State.setPart_l1 (s : State) (p : Nat) (r : PartRegs) : (s.setPart p r).l1 = s.l1 := rfl
@[simp] theorem State.setPart_ccache (s : State) (p : Nat) (r : PartRegs) : (s.setPart p r).ccache = s.ccache := rfl
@[simp] theorem State.setPart_tlb (s : State) (p : Nat) (r : PartRegs) : (s.setPart p r).tlb = s.tlb := rfl
@[simp] theorem State.setPart_jobs (s : State) (p : Nat) (r : PartRegs) : (s.setPart p r).jobs = s.jobs := rfl
@[simp] theorem State.setPart_nextJob (s : State) (p : Nat) (r : PartRegs) : (s.setPart p r).nextJob = s.nextJob := rfl
@[simp] theorem State.setPart_draws (s : State) (p : Nat) (r : PartRegs) : (s.setPart p r).draws = s.draws := rfl
@[simp] theorem State.setPart_teams (s : State) (p : Nat) (r : PartRegs) : (s.setPart p r).teams = s.teams := rfl
@[simp] theorem State.setPart_acc (s : State) (p : Nat) (r : PartRegs) : (s.setPart p r).acc = s.acc := rfl
@[simp] theorem State.setPart_contexts (s : State) (p : Nat) (r : PartRegs) : (s.setPart p r).contexts = s.contexts := rfl
@[simp] theorem State.setPart_turn (s : State) (p : Nat) (r : PartRegs) : (s.setPart p r).turn = s.turn := rfl
@[simp] theorem State.setPart_savedCtx (s : State) (p : Nat) (r : PartRegs) : (s.setPart p r).savedCtx = s.savedCtx := rfl
@[simp] theorem State.setPart_cmds (s : State) (p : Nat) (r : PartRegs) : (s.setPart p r).cmds = s.cmds := rfl
@[simp] theorem State.setPart_nextCmd (s : State) (p : Nat) (r : PartRegs) : (s.setPart p r).nextCmd = s.nextCmd := rfl
@[simp] theorem State.setPart_bins (s : State) (p : Nat) (r : PartRegs) : (s.setPart p r).bins = s.bins := rfl
@[simp] theorem State.setPart_belfry (s : State) (p : Nat) (r : PartRegs) : (s.setPart p r).belfry = s.belfry := rfl
@[simp] theorem State.setPart_pins (s : State) (p : Nat) (r : PartRegs) : (s.setPart p r).pins = s.pins := rfl
@[simp] theorem State.setPart_handles (s : State) (p : Nat) (r : PartRegs) : (s.setPart p r).handles = s.handles := rfl
@[simp] theorem State.setPart_counters (s : State) (p : Nat) (r : PartRegs) : (s.setPart p r).counters = s.counters := rfl
@[simp] theorem State.setPart_slots (s : State) (p : Nat) (r : PartRegs) : (s.setPart p r).slots = s.slots := rfl
@[simp] theorem State.setPart_lastVf (s : State) (p : Nat) (r : PartRegs) : (s.setPart p r).lastVf = s.lastVf := rfl
@[simp] theorem State.setPart_sliceAt (s : State) (p : Nat) (r : PartRegs) : (s.setPart p r).sliceAt = s.sliceAt := rfl
@[simp] theorem State.setPart_served (s : State) (p : Nat) (r : PartRegs) : (s.setPart p r).served = s.served := rfl
@[simp] theorem State.setPart_asked (s : State) (p : Nat) (r : PartRegs) : (s.setPart p r).asked = s.asked := rfl
@[simp] theorem State.setPart_tickets (s : State) (p : Nat) (r : PartRegs) : (s.setPart p r).tickets = s.tickets := rfl
@[simp] theorem State.setPart_nextTicket (s : State) (p : Nat) (r : PartRegs) : (s.setPart p r).nextTicket = s.nextTicket := rfl
@[simp] theorem State.setPart_held (s : State) (p : Nat) (r : PartRegs) : (s.setPart p r).held = s.held := rfl
@[simp] theorem State.setPart_remotes (s : State) (p : Nat) (r : PartRegs) : (s.setPart p r).remotes = s.remotes := rfl
@[simp] theorem State.setPart_vfs (s : State) (p : Nat) (r : PartRegs) : (s.setPart p r).vfs = s.vfs := rfl
@[simp] theorem State.setPart_banks (s : State) (p : Nat) (r : PartRegs) : (s.setPart p r).banks = s.banks := rfl
@[simp] theorem State.setPart_perf (s : State) (p : Nat) (r : PartRegs) : (s.setPart p r).perf = s.perf := rfl
@[simp] theorem State.setPart_kbudget (s : State) (p : Nat) (r : PartRegs) : (s.setPart p r).kbudget = s.kbudget := rfl
@[simp] theorem State.setPart_grantsW (s : State) (p : Nat) (r : PartRegs) : (s.setPart p r).grantsW = s.grantsW := rfl
@[simp] theorem State.setPart_periodAt (s : State) (p : Nat) (r : PartRegs) : (s.setPart p r).periodAt = s.periodAt := rfl
@[simp] theorem State.setPart_mgrid (s : State) (p : Nat) (r : PartRegs) : (s.setPart p r).mgrid = s.mgrid := rfl
@[simp] theorem State.setPart_digest (s : State) (p : Nat) (r : PartRegs) : (s.setPart p r).digest = s.digest := rfl
@[simp] theorem State.setPart_log (s : State) (p : Nat) (r : PartRegs) : (s.setPart p r).log = s.log := rfl
@[simp] theorem State.setPart_digestAtBoot (s : State) (p : Nat) (r : PartRegs) : (s.setPart p r).digestAtBoot = s.digestAtBoot := rfl
@[simp] theorem State.setPart_bootLeaf (s : State) (p : Nat) (r : PartRegs) : (s.setPart p r).bootLeaf = s.bootLeaf := rfl
@[simp] theorem State.setPart_attested (s : State) (p : Nat) (r : PartRegs) : (s.setPart p r).attested = s.attested := rfl
@[simp] theorem State.setPart_idLeaves (s : State) (p : Nat) (r : PartRegs) : (s.setPart p r).idLeaves = s.idLeaves := rfl
@[simp] theorem State.setPart_quoteLeaf (s : State) (p : Nat) (r : PartRegs) : (s.setPart p r).quoteLeaf = s.quoteLeaf := rfl
@[simp] theorem State.setPart_quotes (s : State) (p : Nat) (r : PartRegs) : (s.setPart p r).quotes = s.quotes := rfl
@[simp] theorem State.setPart_dropped (s : State) (p : Nat) (r : PartRegs) : (s.setPart p r).dropped = s.dropped := rfl
@[simp] theorem State.setPart_resp (s : State) (p : Nat) (r : PartRegs) : (s.setPart p r).resp = s.resp := rfl
@[simp] theorem State.setPart_readData (s : State) (p : Nat) (r : PartRegs) : (s.setPart p r).readData = s.readData := rfl
@[simp] theorem State.setPart_ir (s : State) (p : Nat) (r : PartRegs) : (s.setPart p r).ir = s.ir := rfl
@[simp] theorem State.setPart_tdo (s : State) (p : Nat) (r : PartRegs) : (s.setPart p r).tdo = s.tdo := rfl

/-! ## `State.putRun` -/

@[simp] theorem State.putRun_tick (s : State) (r : Run) : (s.putRun r).tick = s.tick := rfl
@[simp] theorem State.putRun_clock (s : State) (r : Run) : (s.putRun r).clock = s.clock := rfl
@[simp] theorem State.putRun_now (s : State) (r : Run) : (s.putRun r).now = s.now := rfl
@[simp] theorem State.putRun_frozen (s : State) (r : Run) : (s.putRun r).frozen = s.frozen := rfl
@[simp] theorem State.putRun_boot (s : State) (r : Run) : (s.putRun r).boot = s.boot := rfl
@[simp] theorem State.putRun_restricted (s : State) (r : Run) : (s.putRun r).restricted = s.restricted := rfl
@[simp] theorem State.putRun_devNum (s : State) (r : Run) : (s.putRun r).devNum = s.devNum := rfl
@[simp] theorem State.putRun_inputs (s : State) (r : Run) : (s.putRun r).inputs = s.inputs := rfl
@[simp] theorem State.putRun_focus (s : State) (r : Run) : (s.putRun r).focus = s.focus := rfl
@[simp] theorem State.putRun_mem (s : State) (r : Run) : (s.putRun r).mem = s.mem := rfl
@[simp] theorem State.putRun_poisoned (s : State) (r : Run) : (s.putRun r).poisoned = s.poisoned := rfl
@[simp] theorem State.putRun_corrected (s : State) (r : Run) : (s.putRun r).corrected = s.corrected := rfl
@[simp] theorem State.putRun_owners (s : State) (r : Run) : (s.putRun r).owners = s.owners := rfl
@[simp] theorem State.putRun_sigs (s : State) (r : Run) : (s.putRun r).sigs = s.sigs := rfl
@[simp] theorem State.putRun_l1 (s : State) (r : Run) : (s.putRun r).l1 = s.l1 := rfl
@[simp] theorem State.putRun_ccache (s : State) (r : Run) : (s.putRun r).ccache = s.ccache := rfl
@[simp] theorem State.putRun_tlb (s : State) (r : Run) : (s.putRun r).tlb = s.tlb := rfl
@[simp] theorem State.putRun_jobs (s : State) (r : Run) : (s.putRun r).jobs = s.jobs := rfl
@[simp] theorem State.putRun_nextJob (s : State) (r : Run) : (s.putRun r).nextJob = s.nextJob := rfl
@[simp] theorem State.putRun_draws (s : State) (r : Run) : (s.putRun r).draws = s.draws := rfl
@[simp] theorem State.putRun_teams (s : State) (r : Run) : (s.putRun r).teams = s.teams := rfl
@[simp] theorem State.putRun_acc (s : State) (r : Run) : (s.putRun r).acc = s.acc := rfl
@[simp] theorem State.putRun_contexts (s : State) (r : Run) : (s.putRun r).contexts = s.contexts := rfl
@[simp] theorem State.putRun_turn (s : State) (r : Run) : (s.putRun r).turn = s.turn := rfl
@[simp] theorem State.putRun_savedCtx (s : State) (r : Run) : (s.putRun r).savedCtx = s.savedCtx := rfl
@[simp] theorem State.putRun_cmds (s : State) (r : Run) : (s.putRun r).cmds = s.cmds := rfl
@[simp] theorem State.putRun_nextCmd (s : State) (r : Run) : (s.putRun r).nextCmd = s.nextCmd := rfl
@[simp] theorem State.putRun_bins (s : State) (r : Run) : (s.putRun r).bins = s.bins := rfl
@[simp] theorem State.putRun_belfry (s : State) (r : Run) : (s.putRun r).belfry = s.belfry := rfl
@[simp] theorem State.putRun_pins (s : State) (r : Run) : (s.putRun r).pins = s.pins := rfl
@[simp] theorem State.putRun_handles (s : State) (r : Run) : (s.putRun r).handles = s.handles := rfl
@[simp] theorem State.putRun_counters (s : State) (r : Run) : (s.putRun r).counters = s.counters := rfl
@[simp] theorem State.putRun_slots (s : State) (r : Run) : (s.putRun r).slots = s.slots := rfl
@[simp] theorem State.putRun_lastVf (s : State) (r : Run) : (s.putRun r).lastVf = s.lastVf := rfl
@[simp] theorem State.putRun_sliceAt (s : State) (r : Run) : (s.putRun r).sliceAt = s.sliceAt := rfl
@[simp] theorem State.putRun_served (s : State) (r : Run) : (s.putRun r).served = s.served := rfl
@[simp] theorem State.putRun_asked (s : State) (r : Run) : (s.putRun r).asked = s.asked := rfl
@[simp] theorem State.putRun_tickets (s : State) (r : Run) : (s.putRun r).tickets = s.tickets := rfl
@[simp] theorem State.putRun_nextTicket (s : State) (r : Run) : (s.putRun r).nextTicket = s.nextTicket := rfl
@[simp] theorem State.putRun_held (s : State) (r : Run) : (s.putRun r).held = s.held := rfl
@[simp] theorem State.putRun_remotes (s : State) (r : Run) : (s.putRun r).remotes = s.remotes := rfl
@[simp] theorem State.putRun_vfs (s : State) (r : Run) : (s.putRun r).vfs = s.vfs := rfl
@[simp] theorem State.putRun_parts (s : State) (r : Run) : (s.putRun r).parts = s.parts := rfl
@[simp] theorem State.putRun_banks (s : State) (r : Run) : (s.putRun r).banks = s.banks := rfl
@[simp] theorem State.putRun_perf (s : State) (r : Run) : (s.putRun r).perf = s.perf := rfl
@[simp] theorem State.putRun_kbudget (s : State) (r : Run) : (s.putRun r).kbudget = s.kbudget := rfl
@[simp] theorem State.putRun_grantsW (s : State) (r : Run) : (s.putRun r).grantsW = s.grantsW := rfl
@[simp] theorem State.putRun_periodAt (s : State) (r : Run) : (s.putRun r).periodAt = s.periodAt := rfl
@[simp] theorem State.putRun_mgrid (s : State) (r : Run) : (s.putRun r).mgrid = s.mgrid := rfl
@[simp] theorem State.putRun_digest (s : State) (r : Run) : (s.putRun r).digest = s.digest := rfl
@[simp] theorem State.putRun_log (s : State) (r : Run) : (s.putRun r).log = s.log := rfl
@[simp] theorem State.putRun_digestAtBoot (s : State) (r : Run) : (s.putRun r).digestAtBoot = s.digestAtBoot := rfl
@[simp] theorem State.putRun_bootLeaf (s : State) (r : Run) : (s.putRun r).bootLeaf = s.bootLeaf := rfl
@[simp] theorem State.putRun_attested (s : State) (r : Run) : (s.putRun r).attested = s.attested := rfl
@[simp] theorem State.putRun_idLeaves (s : State) (r : Run) : (s.putRun r).idLeaves = s.idLeaves := rfl
@[simp] theorem State.putRun_quoteLeaf (s : State) (r : Run) : (s.putRun r).quoteLeaf = s.quoteLeaf := rfl
@[simp] theorem State.putRun_quotes (s : State) (r : Run) : (s.putRun r).quotes = s.quotes := rfl
@[simp] theorem State.putRun_dropped (s : State) (r : Run) : (s.putRun r).dropped = s.dropped := rfl
@[simp] theorem State.putRun_resp (s : State) (r : Run) : (s.putRun r).resp = s.resp := rfl
@[simp] theorem State.putRun_readData (s : State) (r : Run) : (s.putRun r).readData = s.readData := rfl
@[simp] theorem State.putRun_ir (s : State) (r : Run) : (s.putRun r).ir = s.ir := rfl
@[simp] theorem State.putRun_tdo (s : State) (r : Run) : (s.putRun r).tdo = s.tdo := rfl

/-! ## `State.putRegs` -/

@[simp] theorem State.putRegs_tick (s : State) (w : WaveId) (l : Fin 32) (f : Regs → Regs) : (s.putRegs w l f).tick = s.tick := rfl
@[simp] theorem State.putRegs_clock (s : State) (w : WaveId) (l : Fin 32) (f : Regs → Regs) : (s.putRegs w l f).clock = s.clock := rfl
@[simp] theorem State.putRegs_now (s : State) (w : WaveId) (l : Fin 32) (f : Regs → Regs) : (s.putRegs w l f).now = s.now := rfl
@[simp] theorem State.putRegs_frozen (s : State) (w : WaveId) (l : Fin 32) (f : Regs → Regs) : (s.putRegs w l f).frozen = s.frozen := rfl
@[simp] theorem State.putRegs_boot (s : State) (w : WaveId) (l : Fin 32) (f : Regs → Regs) : (s.putRegs w l f).boot = s.boot := rfl
@[simp] theorem State.putRegs_restricted (s : State) (w : WaveId) (l : Fin 32) (f : Regs → Regs) : (s.putRegs w l f).restricted = s.restricted := rfl
@[simp] theorem State.putRegs_devNum (s : State) (w : WaveId) (l : Fin 32) (f : Regs → Regs) : (s.putRegs w l f).devNum = s.devNum := rfl
@[simp] theorem State.putRegs_inputs (s : State) (w : WaveId) (l : Fin 32) (f : Regs → Regs) : (s.putRegs w l f).inputs = s.inputs := rfl
@[simp] theorem State.putRegs_focus (s : State) (w : WaveId) (l : Fin 32) (f : Regs → Regs) : (s.putRegs w l f).focus = s.focus := rfl
@[simp] theorem State.putRegs_mem (s : State) (w : WaveId) (l : Fin 32) (f : Regs → Regs) : (s.putRegs w l f).mem = s.mem := rfl
@[simp] theorem State.putRegs_poisoned (s : State) (w : WaveId) (l : Fin 32) (f : Regs → Regs) : (s.putRegs w l f).poisoned = s.poisoned := rfl
@[simp] theorem State.putRegs_corrected (s : State) (w : WaveId) (l : Fin 32) (f : Regs → Regs) : (s.putRegs w l f).corrected = s.corrected := rfl
@[simp] theorem State.putRegs_owners (s : State) (w : WaveId) (l : Fin 32) (f : Regs → Regs) : (s.putRegs w l f).owners = s.owners := rfl
@[simp] theorem State.putRegs_sigs (s : State) (w : WaveId) (l : Fin 32) (f : Regs → Regs) : (s.putRegs w l f).sigs = s.sigs := rfl
@[simp] theorem State.putRegs_l1 (s : State) (w : WaveId) (l : Fin 32) (f : Regs → Regs) : (s.putRegs w l f).l1 = s.l1 := rfl
@[simp] theorem State.putRegs_ccache (s : State) (w : WaveId) (l : Fin 32) (f : Regs → Regs) : (s.putRegs w l f).ccache = s.ccache := rfl
@[simp] theorem State.putRegs_tlb (s : State) (w : WaveId) (l : Fin 32) (f : Regs → Regs) : (s.putRegs w l f).tlb = s.tlb := rfl
@[simp] theorem State.putRegs_jobs (s : State) (w : WaveId) (l : Fin 32) (f : Regs → Regs) : (s.putRegs w l f).jobs = s.jobs := rfl
@[simp] theorem State.putRegs_nextJob (s : State) (w : WaveId) (l : Fin 32) (f : Regs → Regs) : (s.putRegs w l f).nextJob = s.nextJob := rfl
@[simp] theorem State.putRegs_draws (s : State) (w : WaveId) (l : Fin 32) (f : Regs → Regs) : (s.putRegs w l f).draws = s.draws := rfl
@[simp] theorem State.putRegs_acc (s : State) (w : WaveId) (l : Fin 32) (f : Regs → Regs) : (s.putRegs w l f).acc = s.acc := rfl
@[simp] theorem State.putRegs_contexts (s : State) (w : WaveId) (l : Fin 32) (f : Regs → Regs) : (s.putRegs w l f).contexts = s.contexts := rfl
@[simp] theorem State.putRegs_turn (s : State) (w : WaveId) (l : Fin 32) (f : Regs → Regs) : (s.putRegs w l f).turn = s.turn := rfl
@[simp] theorem State.putRegs_savedCtx (s : State) (w : WaveId) (l : Fin 32) (f : Regs → Regs) : (s.putRegs w l f).savedCtx = s.savedCtx := rfl
@[simp] theorem State.putRegs_cmds (s : State) (w : WaveId) (l : Fin 32) (f : Regs → Regs) : (s.putRegs w l f).cmds = s.cmds := rfl
@[simp] theorem State.putRegs_nextCmd (s : State) (w : WaveId) (l : Fin 32) (f : Regs → Regs) : (s.putRegs w l f).nextCmd = s.nextCmd := rfl
@[simp] theorem State.putRegs_bins (s : State) (w : WaveId) (l : Fin 32) (f : Regs → Regs) : (s.putRegs w l f).bins = s.bins := rfl
@[simp] theorem State.putRegs_belfry (s : State) (w : WaveId) (l : Fin 32) (f : Regs → Regs) : (s.putRegs w l f).belfry = s.belfry := rfl
@[simp] theorem State.putRegs_pins (s : State) (w : WaveId) (l : Fin 32) (f : Regs → Regs) : (s.putRegs w l f).pins = s.pins := rfl
@[simp] theorem State.putRegs_handles (s : State) (w : WaveId) (l : Fin 32) (f : Regs → Regs) : (s.putRegs w l f).handles = s.handles := rfl
@[simp] theorem State.putRegs_counters (s : State) (w : WaveId) (l : Fin 32) (f : Regs → Regs) : (s.putRegs w l f).counters = s.counters := rfl
@[simp] theorem State.putRegs_slots (s : State) (w : WaveId) (l : Fin 32) (f : Regs → Regs) : (s.putRegs w l f).slots = s.slots := rfl
@[simp] theorem State.putRegs_lastVf (s : State) (w : WaveId) (l : Fin 32) (f : Regs → Regs) : (s.putRegs w l f).lastVf = s.lastVf := rfl
@[simp] theorem State.putRegs_sliceAt (s : State) (w : WaveId) (l : Fin 32) (f : Regs → Regs) : (s.putRegs w l f).sliceAt = s.sliceAt := rfl
@[simp] theorem State.putRegs_served (s : State) (w : WaveId) (l : Fin 32) (f : Regs → Regs) : (s.putRegs w l f).served = s.served := rfl
@[simp] theorem State.putRegs_asked (s : State) (w : WaveId) (l : Fin 32) (f : Regs → Regs) : (s.putRegs w l f).asked = s.asked := rfl
@[simp] theorem State.putRegs_tickets (s : State) (w : WaveId) (l : Fin 32) (f : Regs → Regs) : (s.putRegs w l f).tickets = s.tickets := rfl
@[simp] theorem State.putRegs_nextTicket (s : State) (w : WaveId) (l : Fin 32) (f : Regs → Regs) : (s.putRegs w l f).nextTicket = s.nextTicket := rfl
@[simp] theorem State.putRegs_held (s : State) (w : WaveId) (l : Fin 32) (f : Regs → Regs) : (s.putRegs w l f).held = s.held := rfl
@[simp] theorem State.putRegs_remotes (s : State) (w : WaveId) (l : Fin 32) (f : Regs → Regs) : (s.putRegs w l f).remotes = s.remotes := rfl
@[simp] theorem State.putRegs_vfs (s : State) (w : WaveId) (l : Fin 32) (f : Regs → Regs) : (s.putRegs w l f).vfs = s.vfs := rfl
@[simp] theorem State.putRegs_parts (s : State) (w : WaveId) (l : Fin 32) (f : Regs → Regs) : (s.putRegs w l f).parts = s.parts := rfl
@[simp] theorem State.putRegs_banks (s : State) (w : WaveId) (l : Fin 32) (f : Regs → Regs) : (s.putRegs w l f).banks = s.banks := rfl
@[simp] theorem State.putRegs_perf (s : State) (w : WaveId) (l : Fin 32) (f : Regs → Regs) : (s.putRegs w l f).perf = s.perf := rfl
@[simp] theorem State.putRegs_kbudget (s : State) (w : WaveId) (l : Fin 32) (f : Regs → Regs) : (s.putRegs w l f).kbudget = s.kbudget := rfl
@[simp] theorem State.putRegs_grantsW (s : State) (w : WaveId) (l : Fin 32) (f : Regs → Regs) : (s.putRegs w l f).grantsW = s.grantsW := rfl
@[simp] theorem State.putRegs_periodAt (s : State) (w : WaveId) (l : Fin 32) (f : Regs → Regs) : (s.putRegs w l f).periodAt = s.periodAt := rfl
@[simp] theorem State.putRegs_mgrid (s : State) (w : WaveId) (l : Fin 32) (f : Regs → Regs) : (s.putRegs w l f).mgrid = s.mgrid := rfl
@[simp] theorem State.putRegs_digest (s : State) (w : WaveId) (l : Fin 32) (f : Regs → Regs) : (s.putRegs w l f).digest = s.digest := rfl
@[simp] theorem State.putRegs_log (s : State) (w : WaveId) (l : Fin 32) (f : Regs → Regs) : (s.putRegs w l f).log = s.log := rfl
@[simp] theorem State.putRegs_digestAtBoot (s : State) (w : WaveId) (l : Fin 32) (f : Regs → Regs) : (s.putRegs w l f).digestAtBoot = s.digestAtBoot := rfl
@[simp] theorem State.putRegs_bootLeaf (s : State) (w : WaveId) (l : Fin 32) (f : Regs → Regs) : (s.putRegs w l f).bootLeaf = s.bootLeaf := rfl
@[simp] theorem State.putRegs_attested (s : State) (w : WaveId) (l : Fin 32) (f : Regs → Regs) : (s.putRegs w l f).attested = s.attested := rfl
@[simp] theorem State.putRegs_idLeaves (s : State) (w : WaveId) (l : Fin 32) (f : Regs → Regs) : (s.putRegs w l f).idLeaves = s.idLeaves := rfl
@[simp] theorem State.putRegs_quoteLeaf (s : State) (w : WaveId) (l : Fin 32) (f : Regs → Regs) : (s.putRegs w l f).quoteLeaf = s.quoteLeaf := rfl
@[simp] theorem State.putRegs_quotes (s : State) (w : WaveId) (l : Fin 32) (f : Regs → Regs) : (s.putRegs w l f).quotes = s.quotes := rfl
@[simp] theorem State.putRegs_dropped (s : State) (w : WaveId) (l : Fin 32) (f : Regs → Regs) : (s.putRegs w l f).dropped = s.dropped := rfl
@[simp] theorem State.putRegs_resp (s : State) (w : WaveId) (l : Fin 32) (f : Regs → Regs) : (s.putRegs w l f).resp = s.resp := rfl
@[simp] theorem State.putRegs_readData (s : State) (w : WaveId) (l : Fin 32) (f : Regs → Regs) : (s.putRegs w l f).readData = s.readData := rfl
@[simp] theorem State.putRegs_ir (s : State) (w : WaveId) (l : Fin 32) (f : Regs → Regs) : (s.putRegs w l f).ir = s.ir := rfl
@[simp] theorem State.putRegs_tdo (s : State) (w : WaveId) (l : Fin 32) (f : Regs → Regs) : (s.putRegs w l f).tdo = s.tdo := rfl

/-- Where no image of the team is in the save area and no poisoned register is overwritten or pushed out, `setRegs` changes
registers alone. -/
theorem State.setRegs_plain {s : State} {w : WaveId} {l : Fin 32} {f : Regs → Regs}
    (hi : (s.putRegs w l f).imageOf ((s.putRegs w l f).team w.team) ((s.putRegs w l f).job w.team.job).part = none)
    (hp : scrubbed (s.thread w l).regs (wipes f (s.thread w l).regs) (if pushes f (s.thread w l).regs then 1 else 0) = 0) :
    s.setRegs w l f = s.putRegs w l f := by
  simp [State.setRegs, State.imaged, State.logScrubbed, hi, hp]

/-! ## `State.acquire` -/

@[simp] theorem State.acquire_tick (s : State) (k : Nat) (g : Sig) : (s.acquire k g).tick = s.tick := rfl
@[simp] theorem State.acquire_clock (s : State) (k : Nat) (g : Sig) : (s.acquire k g).clock = s.clock := rfl
@[simp] theorem State.acquire_now (s : State) (k : Nat) (g : Sig) : (s.acquire k g).now = s.now := rfl
@[simp] theorem State.acquire_frozen (s : State) (k : Nat) (g : Sig) : (s.acquire k g).frozen = s.frozen := rfl
@[simp] theorem State.acquire_boot (s : State) (k : Nat) (g : Sig) : (s.acquire k g).boot = s.boot := rfl
@[simp] theorem State.acquire_restricted (s : State) (k : Nat) (g : Sig) : (s.acquire k g).restricted = s.restricted := rfl
@[simp] theorem State.acquire_devNum (s : State) (k : Nat) (g : Sig) : (s.acquire k g).devNum = s.devNum := rfl
@[simp] theorem State.acquire_inputs (s : State) (k : Nat) (g : Sig) : (s.acquire k g).inputs = s.inputs := rfl
@[simp] theorem State.acquire_focus (s : State) (k : Nat) (g : Sig) : (s.acquire k g).focus = s.focus := rfl
@[simp] theorem State.acquire_runs (s : State) (k : Nat) (g : Sig) : (s.acquire k g).runs = s.runs := rfl
@[simp] theorem State.acquire_mem (s : State) (k : Nat) (g : Sig) : (s.acquire k g).mem = s.mem := rfl
@[simp] theorem State.acquire_poisoned (s : State) (k : Nat) (g : Sig) : (s.acquire k g).poisoned = s.poisoned := rfl
@[simp] theorem State.acquire_corrected (s : State) (k : Nat) (g : Sig) : (s.acquire k g).corrected = s.corrected := rfl
@[simp] theorem State.acquire_owners (s : State) (k : Nat) (g : Sig) : (s.acquire k g).owners = s.owners := rfl
@[simp] theorem State.acquire_sigs (s : State) (k : Nat) (g : Sig) : (s.acquire k g).sigs = s.sigs := rfl
@[simp] theorem State.acquire_tlb (s : State) (k : Nat) (g : Sig) : (s.acquire k g).tlb = s.tlb := rfl
@[simp] theorem State.acquire_jobs (s : State) (k : Nat) (g : Sig) : (s.acquire k g).jobs = s.jobs := rfl
@[simp] theorem State.acquire_nextJob (s : State) (k : Nat) (g : Sig) : (s.acquire k g).nextJob = s.nextJob := rfl
@[simp] theorem State.acquire_draws (s : State) (k : Nat) (g : Sig) : (s.acquire k g).draws = s.draws := rfl
@[simp] theorem State.acquire_teams (s : State) (k : Nat) (g : Sig) : (s.acquire k g).teams = s.teams := rfl
@[simp] theorem State.acquire_acc (s : State) (k : Nat) (g : Sig) : (s.acquire k g).acc = s.acc := rfl
@[simp] theorem State.acquire_contexts (s : State) (k : Nat) (g : Sig) : (s.acquire k g).contexts = s.contexts := rfl
@[simp] theorem State.acquire_turn (s : State) (k : Nat) (g : Sig) : (s.acquire k g).turn = s.turn := rfl
@[simp] theorem State.acquire_savedCtx (s : State) (k : Nat) (g : Sig) : (s.acquire k g).savedCtx = s.savedCtx := rfl
@[simp] theorem State.acquire_cmds (s : State) (k : Nat) (g : Sig) : (s.acquire k g).cmds = s.cmds := rfl
@[simp] theorem State.acquire_nextCmd (s : State) (k : Nat) (g : Sig) : (s.acquire k g).nextCmd = s.nextCmd := rfl
@[simp] theorem State.acquire_bins (s : State) (k : Nat) (g : Sig) : (s.acquire k g).bins = s.bins := rfl
@[simp] theorem State.acquire_belfry (s : State) (k : Nat) (g : Sig) : (s.acquire k g).belfry = s.belfry := rfl
@[simp] theorem State.acquire_pins (s : State) (k : Nat) (g : Sig) : (s.acquire k g).pins = s.pins := rfl
@[simp] theorem State.acquire_handles (s : State) (k : Nat) (g : Sig) : (s.acquire k g).handles = s.handles := rfl
@[simp] theorem State.acquire_counters (s : State) (k : Nat) (g : Sig) : (s.acquire k g).counters = s.counters := rfl
@[simp] theorem State.acquire_slots (s : State) (k : Nat) (g : Sig) : (s.acquire k g).slots = s.slots := rfl
@[simp] theorem State.acquire_lastVf (s : State) (k : Nat) (g : Sig) : (s.acquire k g).lastVf = s.lastVf := rfl
@[simp] theorem State.acquire_sliceAt (s : State) (k : Nat) (g : Sig) : (s.acquire k g).sliceAt = s.sliceAt := rfl
@[simp] theorem State.acquire_served (s : State) (k : Nat) (g : Sig) : (s.acquire k g).served = s.served := rfl
@[simp] theorem State.acquire_asked (s : State) (k : Nat) (g : Sig) : (s.acquire k g).asked = s.asked := rfl
@[simp] theorem State.acquire_tickets (s : State) (k : Nat) (g : Sig) : (s.acquire k g).tickets = s.tickets := rfl
@[simp] theorem State.acquire_nextTicket (s : State) (k : Nat) (g : Sig) : (s.acquire k g).nextTicket = s.nextTicket := rfl
@[simp] theorem State.acquire_held (s : State) (k : Nat) (g : Sig) : (s.acquire k g).held = s.held := rfl
@[simp] theorem State.acquire_remotes (s : State) (k : Nat) (g : Sig) : (s.acquire k g).remotes = s.remotes := rfl
@[simp] theorem State.acquire_vfs (s : State) (k : Nat) (g : Sig) : (s.acquire k g).vfs = s.vfs := rfl
@[simp] theorem State.acquire_parts (s : State) (k : Nat) (g : Sig) : (s.acquire k g).parts = s.parts := rfl
@[simp] theorem State.acquire_banks (s : State) (k : Nat) (g : Sig) : (s.acquire k g).banks = s.banks := rfl
@[simp] theorem State.acquire_perf (s : State) (k : Nat) (g : Sig) : (s.acquire k g).perf = s.perf := rfl
@[simp] theorem State.acquire_kbudget (s : State) (k : Nat) (g : Sig) : (s.acquire k g).kbudget = s.kbudget := rfl
@[simp] theorem State.acquire_grantsW (s : State) (k : Nat) (g : Sig) : (s.acquire k g).grantsW = s.grantsW := rfl
@[simp] theorem State.acquire_periodAt (s : State) (k : Nat) (g : Sig) : (s.acquire k g).periodAt = s.periodAt := rfl
@[simp] theorem State.acquire_mgrid (s : State) (k : Nat) (g : Sig) : (s.acquire k g).mgrid = s.mgrid := rfl
@[simp] theorem State.acquire_digest (s : State) (k : Nat) (g : Sig) : (s.acquire k g).digest = s.digest := rfl
@[simp] theorem State.acquire_log (s : State) (k : Nat) (g : Sig) : (s.acquire k g).log = s.log := rfl
@[simp] theorem State.acquire_digestAtBoot (s : State) (k : Nat) (g : Sig) : (s.acquire k g).digestAtBoot = s.digestAtBoot := rfl
@[simp] theorem State.acquire_bootLeaf (s : State) (k : Nat) (g : Sig) : (s.acquire k g).bootLeaf = s.bootLeaf := rfl
@[simp] theorem State.acquire_attested (s : State) (k : Nat) (g : Sig) : (s.acquire k g).attested = s.attested := rfl
@[simp] theorem State.acquire_idLeaves (s : State) (k : Nat) (g : Sig) : (s.acquire k g).idLeaves = s.idLeaves := rfl
@[simp] theorem State.acquire_quoteLeaf (s : State) (k : Nat) (g : Sig) : (s.acquire k g).quoteLeaf = s.quoteLeaf := rfl
@[simp] theorem State.acquire_quotes (s : State) (k : Nat) (g : Sig) : (s.acquire k g).quotes = s.quotes := rfl
@[simp] theorem State.acquire_dropped (s : State) (k : Nat) (g : Sig) : (s.acquire k g).dropped = s.dropped := rfl
@[simp] theorem State.acquire_resp (s : State) (k : Nat) (g : Sig) : (s.acquire k g).resp = s.resp := rfl
@[simp] theorem State.acquire_readData (s : State) (k : Nat) (g : Sig) : (s.acquire k g).readData = s.readData := rfl
@[simp] theorem State.acquire_ir (s : State) (k : Nat) (g : Sig) : (s.acquire k g).ir = s.ir := rfl
@[simp] theorem State.acquire_tdo (s : State) (k : Nat) (g : Sig) : (s.acquire k g).tdo = s.tdo := rfl

/-! ## `State.answer` -/

@[simp] theorem State.answer_tick (s : State) (v : Word) (e : Bool) : (s.answer v e).tick = s.tick := rfl
@[simp] theorem State.answer_clock (s : State) (v : Word) (e : Bool) : (s.answer v e).clock = s.clock := rfl
@[simp] theorem State.answer_now (s : State) (v : Word) (e : Bool) : (s.answer v e).now = s.now := rfl
@[simp] theorem State.answer_frozen (s : State) (v : Word) (e : Bool) : (s.answer v e).frozen = s.frozen := rfl
@[simp] theorem State.answer_boot (s : State) (v : Word) (e : Bool) : (s.answer v e).boot = s.boot := rfl
@[simp] theorem State.answer_restricted (s : State) (v : Word) (e : Bool) : (s.answer v e).restricted = s.restricted := rfl
@[simp] theorem State.answer_devNum (s : State) (v : Word) (e : Bool) : (s.answer v e).devNum = s.devNum := rfl
@[simp] theorem State.answer_inputs (s : State) (v : Word) (e : Bool) : (s.answer v e).inputs = s.inputs := rfl
@[simp] theorem State.answer_focus (s : State) (v : Word) (e : Bool) : (s.answer v e).focus = s.focus := rfl
@[simp] theorem State.answer_runs (s : State) (v : Word) (e : Bool) : (s.answer v e).runs = s.runs := rfl
@[simp] theorem State.answer_mem (s : State) (v : Word) (e : Bool) : (s.answer v e).mem = s.mem := rfl
@[simp] theorem State.answer_poisoned (s : State) (v : Word) (e : Bool) : (s.answer v e).poisoned = s.poisoned := rfl
@[simp] theorem State.answer_corrected (s : State) (v : Word) (e : Bool) : (s.answer v e).corrected = s.corrected := rfl
@[simp] theorem State.answer_owners (s : State) (v : Word) (e : Bool) : (s.answer v e).owners = s.owners := rfl
@[simp] theorem State.answer_sigs (s : State) (v : Word) (e : Bool) : (s.answer v e).sigs = s.sigs := rfl
@[simp] theorem State.answer_l1 (s : State) (v : Word) (e : Bool) : (s.answer v e).l1 = s.l1 := rfl
@[simp] theorem State.answer_ccache (s : State) (v : Word) (e : Bool) : (s.answer v e).ccache = s.ccache := rfl
@[simp] theorem State.answer_tlb (s : State) (v : Word) (e : Bool) : (s.answer v e).tlb = s.tlb := rfl
@[simp] theorem State.answer_jobs (s : State) (v : Word) (e : Bool) : (s.answer v e).jobs = s.jobs := rfl
@[simp] theorem State.answer_nextJob (s : State) (v : Word) (e : Bool) : (s.answer v e).nextJob = s.nextJob := rfl
@[simp] theorem State.answer_draws (s : State) (v : Word) (e : Bool) : (s.answer v e).draws = s.draws := rfl
@[simp] theorem State.answer_teams (s : State) (v : Word) (e : Bool) : (s.answer v e).teams = s.teams := rfl
@[simp] theorem State.answer_acc (s : State) (v : Word) (e : Bool) : (s.answer v e).acc = s.acc := rfl
@[simp] theorem State.answer_contexts (s : State) (v : Word) (e : Bool) : (s.answer v e).contexts = s.contexts := rfl
@[simp] theorem State.answer_turn (s : State) (v : Word) (e : Bool) : (s.answer v e).turn = s.turn := rfl
@[simp] theorem State.answer_savedCtx (s : State) (v : Word) (e : Bool) : (s.answer v e).savedCtx = s.savedCtx := rfl
@[simp] theorem State.answer_cmds (s : State) (v : Word) (e : Bool) : (s.answer v e).cmds = s.cmds := rfl
@[simp] theorem State.answer_nextCmd (s : State) (v : Word) (e : Bool) : (s.answer v e).nextCmd = s.nextCmd := rfl
@[simp] theorem State.answer_bins (s : State) (v : Word) (e : Bool) : (s.answer v e).bins = s.bins := rfl
@[simp] theorem State.answer_belfry (s : State) (v : Word) (e : Bool) : (s.answer v e).belfry = s.belfry := rfl
@[simp] theorem State.answer_pins (s : State) (v : Word) (e : Bool) : (s.answer v e).pins = s.pins := rfl
@[simp] theorem State.answer_handles (s : State) (v : Word) (e : Bool) : (s.answer v e).handles = s.handles := rfl
@[simp] theorem State.answer_counters (s : State) (v : Word) (e : Bool) : (s.answer v e).counters = s.counters := rfl
@[simp] theorem State.answer_slots (s : State) (v : Word) (e : Bool) : (s.answer v e).slots = s.slots := rfl
@[simp] theorem State.answer_lastVf (s : State) (v : Word) (e : Bool) : (s.answer v e).lastVf = s.lastVf := rfl
@[simp] theorem State.answer_sliceAt (s : State) (v : Word) (e : Bool) : (s.answer v e).sliceAt = s.sliceAt := rfl
@[simp] theorem State.answer_served (s : State) (v : Word) (e : Bool) : (s.answer v e).served = s.served := rfl
@[simp] theorem State.answer_asked (s : State) (v : Word) (e : Bool) : (s.answer v e).asked = s.asked := rfl
@[simp] theorem State.answer_tickets (s : State) (v : Word) (e : Bool) : (s.answer v e).tickets = s.tickets := rfl
@[simp] theorem State.answer_nextTicket (s : State) (v : Word) (e : Bool) : (s.answer v e).nextTicket = s.nextTicket := rfl
@[simp] theorem State.answer_held (s : State) (v : Word) (e : Bool) : (s.answer v e).held = s.held := rfl
@[simp] theorem State.answer_remotes (s : State) (v : Word) (e : Bool) : (s.answer v e).remotes = s.remotes := rfl
@[simp] theorem State.answer_vfs (s : State) (v : Word) (e : Bool) : (s.answer v e).vfs = s.vfs := rfl
@[simp] theorem State.answer_parts (s : State) (v : Word) (e : Bool) : (s.answer v e).parts = s.parts := rfl
@[simp] theorem State.answer_banks (s : State) (v : Word) (e : Bool) : (s.answer v e).banks = s.banks := rfl
@[simp] theorem State.answer_perf (s : State) (v : Word) (e : Bool) : (s.answer v e).perf = s.perf := rfl
@[simp] theorem State.answer_kbudget (s : State) (v : Word) (e : Bool) : (s.answer v e).kbudget = s.kbudget := rfl
@[simp] theorem State.answer_grantsW (s : State) (v : Word) (e : Bool) : (s.answer v e).grantsW = s.grantsW := rfl
@[simp] theorem State.answer_periodAt (s : State) (v : Word) (e : Bool) : (s.answer v e).periodAt = s.periodAt := rfl
@[simp] theorem State.answer_mgrid (s : State) (v : Word) (e : Bool) : (s.answer v e).mgrid = s.mgrid := rfl
@[simp] theorem State.answer_digest (s : State) (v : Word) (e : Bool) : (s.answer v e).digest = s.digest := rfl
@[simp] theorem State.answer_log (s : State) (v : Word) (e : Bool) : (s.answer v e).log = s.log := rfl
@[simp] theorem State.answer_digestAtBoot (s : State) (v : Word) (e : Bool) : (s.answer v e).digestAtBoot = s.digestAtBoot := rfl
@[simp] theorem State.answer_bootLeaf (s : State) (v : Word) (e : Bool) : (s.answer v e).bootLeaf = s.bootLeaf := rfl
@[simp] theorem State.answer_attested (s : State) (v : Word) (e : Bool) : (s.answer v e).attested = s.attested := rfl
@[simp] theorem State.answer_idLeaves (s : State) (v : Word) (e : Bool) : (s.answer v e).idLeaves = s.idLeaves := rfl
@[simp] theorem State.answer_quoteLeaf (s : State) (v : Word) (e : Bool) : (s.answer v e).quoteLeaf = s.quoteLeaf := rfl
@[simp] theorem State.answer_quotes (s : State) (v : Word) (e : Bool) : (s.answer v e).quotes = s.quotes := rfl
@[simp] theorem State.answer_dropped (s : State) (v : Word) (e : Bool) : (s.answer v e).dropped = s.dropped := rfl
@[simp] theorem State.answer_readData (s : State) (v : Word) (e : Bool) : (s.answer v e).readData = s.readData := rfl
@[simp] theorem State.answer_ir (s : State) (v : Word) (e : Bool) : (s.answer v e).ir = s.ir := rfl
@[simp] theorem State.answer_tdo (s : State) (v : Word) (e : Bool) : (s.answer v e).tdo = s.tdo := rfl

/-! ## What is found after an update -/

theorem getAssoc_putAssoc {α β : Type} [DecidableEq α] (k x : α) (v : β) (l : List (α × β)) :
    getAssoc x (putAssoc k v l) = if x = k then some v else getAssoc x l := by
  induction l with
  | nil => simp [putAssoc, getAssoc, eq_comm]
  | cons y ys ih =>
    obtain ⟨a, b⟩ := y
    simp only [putAssoc]
    split
    · rename_i h
      subst h
      by_cases hx : a = x
      · subst hx; simp [getAssoc]
      · simp [getAssoc, hx, Ne.symm hx]
    · rename_i h
      simp only [getAssoc, ih]
      by_cases hx : a = x
      · subst hx; simp [h]
      · simp [hx]

@[simp] theorem State.vf_setVf (s : State) (v : Nat) (r : VfRegs) : (s.setVf v r).vf v = r := by
  simp [State.vf, State.setVf, getAssoc_putAssoc]

theorem State.vf_setVf_ne (s : State) {v u : Nat} (r : VfRegs) (h : u ≠ v) : (s.setVf v r).vf u = s.vf u := by
  simp [State.vf, State.setVf, getAssoc_putAssoc, h]

@[simp] theorem State.part_setPart (s : State) (p : Nat) (r : PartRegs) : (s.setPart p r).part p = r := by
  simp [State.part, State.setPart, getAssoc_putAssoc]

theorem State.part_setPart_ne (s : State) {p q : Nat} (r : PartRegs) (h : q ≠ p) : (s.setPart p r).part q = s.part q := by
  simp [State.part, State.setPart, getAssoc_putAssoc, h]

theorem find?_map_key {α κ : Type} [DecidableEq κ] {key : α → κ} {k : κ} {f : α → α} (hf : ∀ x, key x = k → key (f x) = k) :
    ∀ l : List α, (l.map fun x => if key x = k then f x else x).find? (fun x => decide (key x = k)) =
      (l.find? fun x => decide (key x = k)).map f
  | [] => rfl
  | x :: xs => by
    simp only [List.map_cons, List.find?_cons]
    by_cases h : key x = k
    · simp [h, hf x h]
    · simpa [h] using find?_map_key hf xs

/-- The team found is the one changed. -/
theorem State.team?_modTeam {s : State} {t : TeamId} {f : Team → Team} (hf : ∀ u, u.id = t → (f u).id = t) :
    (s.modTeam t f).team? t = (s.team? t).map f := find?_map_key (key := fun u : Team => u.id) hf _

theorem find?_map_other {α κ : Type} [DecidableEq κ] {key : α → κ} {k x : κ} {f : α → α} (hx : x ≠ k)
    (hf : ∀ a, key a = k → key (f a) = k) :
    ∀ l : List α, (l.map fun a => if key a = k then f a else a).find? (fun a => decide (key a = x)) =
      l.find? fun a => decide (key a = x)
  | [] => rfl
  | a :: as => by
    simp only [List.map_cons, List.find?_cons]
    by_cases h : key a = k
    · simp only [h, if_true, hf a h, Ne.symm hx, decide_false]
      exact find?_map_other hx hf as
    · simp only [h, if_false]
      by_cases g : key a = x
      · simp [g]
      · simpa [g] using find?_map_other hx hf as

/-- Other teams stay. -/
theorem State.team?_modTeam_ne {s : State} {t u : TeamId} {f : Team → Team} (h : u ≠ t)
    (hf : ∀ x, x.id = t → (f x).id = t) : (s.modTeam t f).team? u = s.team? u :=
  find?_map_other (key := fun u : Team => u.id) h hf _

theorem State.team?_modWave {s : State} {w : WaveId} {f : Wave → Wave} :
    (s.modWave w f).team? w.team = (s.team? w.team).map fun t =>
      { t with waves := t.waves.map fun v => if v.uid = w.uid then f v else v } :=
  State.team?_modTeam fun _ h => h

/-- The wave found is the one changed. -/
theorem State.wave_modWave {s : State} {w : WaveId} {f : Wave → Wave} {u : Team} {v : Wave} (hu : s.team? w.team = some u)
    (hv : u.wave? w.uid = some v) (hf : ∀ v, v.uid = w.uid → (f v).uid = w.uid) : (s.modWave w f).wave w = f v := by
  have h := find?_map_key (key := fun v : Wave => v.uid) hf u.waves
  rw [Team.wave?] at hv
  simp only [State.wave, State.team, State.team?_modWave, hu, Option.map_some, Option.getD_some, Team.wave?, h, hv]

/-- A thread after a change of the lanes of its wave. -/
theorem State.thread_modLanes {s : State} {w : WaveId} {m : LaneMask} {f : Fin 32 → Thread → Thread} {u : Team} {v : Wave}
    (l : Fin 32) (hu : s.team? w.team = some u) (hv : u.wave? w.uid = some v) :
    (s.modLanes w m f).thread w l = if LaneMask.has m l then f l v.lanes[l] else v.lanes[l] := by
  have h : (s.modLanes w m f).wave w = { v with
      lanes := v.lanes.mapFinIdx fun i t h => if LaneMask.has m ⟨i, h⟩ then f ⟨i, h⟩ t else t } :=
    State.wave_modWave hu hv fun _ h => h
  simp [State.thread, h]

/-- A management write, whoever asks (R312). -/
theorem manage_cases {by_ : Ident} {space index offset : Nat} {f : State → State} {s t : State}
    (h : manage by_ space index offset f s = .next t) :
    s.frozen = true ∧ t = s ∨
    s.frozen = false ∧ s.admits by_ space index offset false = true ∧ t = ((f s).answer 0 false).settle ∨
    s.frozen = false ∧ s.admits by_ space index offset false = false ∧ t = s.answer 0 true := by
  unfold manage at h
  split at h
  · rename_i hf; cases h; exact .inl ⟨hf, rfl⟩
  · rename_i hf
    split at h <;> rename_i ha <;> cases h
    · exact .inr (.inl ⟨by simpa using hf, ha, rfl⟩)
    · exact .inr (.inr ⟨by simpa using hf, by simpa using ha, rfl⟩)

end Sys2Proof.Machine
end

