-- ==== Sys2Proof/Laws/Stream.lean ====
section
/-!
SUPPORT. What an instruction of a stream program that may be executed comes to, said once.
-/

namespace Sys2Proof.Machine

open Sys2Proof

theorem team?_id {s : State} {t : TeamId} {u : Team} (h : s.team? t = some u) : u.id = t := by
  simpa using List.find?_some h

/-- An instruction of a stream program that may be executed does what its meaning says. -/
theorem strExec_ready {s : State} {i : Instr} {t : TeamId} {u : Team} (h : StrReady s i t u) (words : Nat)
    (f : State → Team → StrRes) : strExec s i words f = (f (s.strAt t u) u).out t (u.stream.pc + w64 (4 * words)) := by
  obtain ⟨h1, h2, h3, h4⟩ := h
  simp [strExec, State.strAt, h1, h2, h3, h4]

theorem bits_low16 (x : Word) : bits x 15 0 = x.toNat % 2 ^ 16 := by simp [bits, fld]

theorem low32_eq (x : Word) : low32 x = x.toNat % 2 ^ 32 := by simp [low32, bits, fld]

/-- A form whose instruction computes a register. -/
theorem strSets_of {i : Instr} {f : Str} {g g' : Stream → Word} (he : ∀ s, exec i s = strAlu i f g s)
    (hg : ∀ x, g x = g' x) : StrSets i f g' := by
  obtain rfl : g = g' := funext hg
  intro s t u h
  rw [he, strAlu, strExec_ready h, team?_id h.held]
  rfl

end Sys2Proof.Machine
end

