-- ==== Sys2Proof/Machine/Bof.lean ====
section
/-!
DEFINITION. BOF objects and their loader (R111, R113 to R118, R123, R124): the file as bytes and as data, relocation, and
the checks and preparations before a launch. What a loader leaves in memory reaches the device as memory requests.
-/

namespace Sys2Proof.Bof

open Sys2Proof Sys2Proof.Machine

/-! ## Objects (R111, R113 to R117) -/

/-- KIND of a section (R111). -/
inductive Kind where
  | code | scode | data | rodata | zero | wset | gram | slots | job | line
  deriving DecidableEq, Repr

def Kind.num : Kind → Nat
  | .code => 1 | .scode => 2 | .data => 3 | .rodata => 4 | .zero => 5 | .wset => 6 | .gram => 7 | .slots => 8 | .job => 9
  | .line => 10

def kindOf (v : Nat) : Option Kind :=
  [Kind.code, .scode, .data, .rodata, .zero, .wset, .gram, .slots, .job, .line].find? fun k => k.num = v

/-- The base-2 logarithm of a kind's alignment; for data the default (R111). -/
def Kind.align : Kind → Nat
  | .slots => 2
  | .data => 3 | .rodata => 3 | .zero => 3 | .line => 3
  | _ => 7

/-- Kinds that hold records (R118). -/
def Kind.records : Kind → Bool
  | .wset => true | .gram => true | .slots => true | .job => true | _ => false

/-- PAYOFF of the records of a section kind: the first multiple of its alignment after the 16-byte header (R118). -/
def Kind.payOff (k : Kind) : Nat := roundUp 16 (2 ^ k.align)

/-- SKIND (R115). -/
inductive SKind where
  | proc | block | object | slots | wset | gram | job | sproc | absolute
  deriving DecidableEq, Repr

def SKind.num : SKind → Nat
  | .proc => 1 | .block => 2 | .object => 3 | .slots => 4 | .wset => 5 | .gram => 6 | .job => 7 | .sproc => 8
  | .absolute => 9

def skindOf (v : Nat) : Option SKind :=
  [SKind.proc, .block, .object, .slots, .wset, .gram, .job, .sproc, .absolute].find? fun k => k.num = v

/-- BIND (R115). -/
inductive Bind where
  | loc | glob | ext
  deriving DecidableEq, Repr

def Bind.num : Bind → Nat | .loc => 0 | .glob => 1 | .ext => 2
def bindOf (v : Nat) : Option Bind := [Bind.loc, .glob, .ext].find? fun k => k.num = v

/-- SECT (R115). -/
inductive Sect where
  | idx (k : Nat) | absolute | ext
  deriving DecidableEq, Repr

def Sect.num : Sect → Nat | .idx k => k | .absolute => 0xFFFE | .ext => 0xFFFF
def sectOf (v : Nat) : Sect := if v = 0xFFFE then .absolute else if v = 0xFFFF then .ext else .idx v

/-- TYPE of a relocation (R117). -/
inductive RelType where
  | abs64 | abs32 | litLo | litHi | ctl16 | ctl32 | mem12 | handle | prel64
  deriving DecidableEq, Repr

def RelType.num : RelType → Nat
  | .abs64 => 1 | .abs32 => 2 | .litLo => 3 | .litHi => 4 | .ctl16 => 5 | .ctl32 => 6 | .mem12 => 7 | .handle => 8
  | .prel64 => 9

def relTypeOf (v : Nat) : Option RelType :=
  [RelType.abs64, .abs32, .litLo, .litHi, .ctl16, .ctl32, .mem12, .handle, .prel64].find? fun k => k.num = v

/-- A relocation entry (R116): where, which symbol by index, which type, and the signed addend. -/
structure Reloc where
  off  : Nat
  sym  : Nat
  type : RelType
  add  : Int
  deriving DecidableEq, Repr

/-- A section with its contents and relocations (R114); `name` is an offset in the string table. -/
structure Section where
  name  : Nat
  kind  : Kind
  align : Nat
  size  : Nat
  bytes : List Byte          -- none for `zero`
  rels  : List Reloc
  link  : Nat
  deriving DecidableEq, Repr

/-- A symbol (R115). -/
structure Symbol where
  name  : Nat
  sect  : Sect
  kind  : SKind
  bind  : Bind
  value : Nat
  size  : Nat
  deriving DecidableEq, Repr

structure Object where
  sections : List Section
  symbols  : List Symbol
  strings  : List Byte
  deriving DecidableEq, Repr

/-- The string at an offset, without its end; offset 0 names the empty one (R113). -/
def Object.str (o : Object) (off : Nat) : List Byte := if off = 0 then [] else (o.strings.drop off).takeWhile (· ≠ 0)

/-! ## The file (R113 to R116) -/

def magic : Nat := 0x00464F42

def Section.header (s : Section) (relOff fOff : Nat) : List Byte :=
  bytesLE 4 s.name ++ bytesLE 1 0 ++ bytesLE 1 s.kind.num ++ bytesLE 1 s.align ++ bytesLE 1 0 ++ bytesLE 8 s.size ++
    bytesLE 4 fOff ++ bytesLE 4 relOff ++ bytesLE 4 s.rels.length ++ bytesLE 4 s.link

def Symbol.entry (s : Symbol) : List Byte :=
  bytesLE 4 s.name ++ bytesLE 2 s.sect.num ++ bytesLE 1 (s.kind.num + 16 * s.bind.num) ++ bytesLE 1 0 ++
    bytesLE 8 s.value ++ bytesLE 8 s.size

def Reloc.entry (r : Reloc) : List Byte :=
  bytesLE 8 r.off ++ bytesLE 4 r.sym ++ bytesLE 1 r.type.num ++ bytesLE 3 0 ++ bytesLE 8 (wrap 64 r.add)

/-- Section headers, with the contents and relocation tables from an offset on. -/
def placeSections : Nat → List Section → List Byte × List Byte
  | _, [] => ([], [])
  | at_, s :: ss =>
    let body := s.bytes ++ s.rels.flatMap Reloc.entry
    let (hs, bs) := placeSections (at_ + body.length) ss
    (s.header (at_ + s.bytes.length) (if s.kind = .zero then 0 else at_) ++ hs, body ++ bs)

/-- The bytes of an object: header, section table, symbol table, strings, then the sections. The places of the tables
are free (R113); these are this writer's. DESIGN CHOICE, unsafe (log 61). -/
def Object.write (o : Object) : List Byte :=
  let n := o.sections.length
  let secOff := 32
  let symOff := secOff + 32 * n
  let strOff := symOff + 24 * o.symbols.length
  let (hs, body) := placeSections (strOff + o.strings.length) o.sections
  bytesLE 4 magic ++ bytesLE 2 1 ++ bytesLE 2 0 ++ bytesLE 4 n ++ bytesLE 4 secOff ++ bytesLE 4 o.symbols.length ++
    bytesLE 4 symOff ++ bytesLE 4 strOff ++ bytesLE 4 o.strings.length ++ hs ++ o.symbols.flatMap Symbol.entry ++
    o.strings ++ body

/-- Why a load is rejected (R118, R123, R124). -/
inductive Cause where
  | magic | version | reserved | truncated | sections | alignment | unresolved | noHandle | noPlace | range | record | unreadable
  | gfwd | gdepth | gcap
  deriving DecidableEq, Repr

/-- What the loader reports: the section, the offset and the cause (R123). -/
structure LoadErr where
  sec   : Nat
  off   : Nat
  cause : Cause
  deriving DecidableEq, Repr

def fail {α : Type} (sec off : Nat) (c : Cause) : Except LoadErr α := .error { sec := sec, off := off, cause := c }

/-- `n` bytes of a file. -/
def slice (f : List Byte) (off n sec : Nat) : Except LoadErr (List Byte) :=
  let bs := (f.drop off).take n
  if bs.length = n then .ok bs else fail sec off .truncated

/-- A number of a file. -/
def field (f : List Byte) (off n sec : Nat) : Except LoadErr Nat := do return natLE (← slice f off n sec)

def known {α : Type} (v : Option α) (sec off : Nat) : Except LoadErr α :=
  match v with | some x => .ok x | none => fail sec off .reserved

def readReloc (f : List Byte) (sec : Nat) (at_ : Nat) : Except LoadErr Reloc := do
  let off ← field f at_ 8 sec
  let sym ← field f (at_ + 8) 4 sec
  let type ← known (relTypeOf (← field f (at_ + 12) 1 sec)) sec off
  if (← field f (at_ + 13) 3 sec) ≠ 0 then fail sec off .reserved
  return { off := off, sym := sym, type := type, add := signed 64 (← field f (at_ + 16) 8 sec) }

def readSection (f : List Byte) (secOff k : Nat) : Except LoadErr Section := do
  let h := secOff + 32 * k
  let name ← field f h 4 k
  if (← field f (h + 4) 1 k) ≠ 0 || (← field f (h + 7) 1 k) ≠ 0 then fail k 0 .reserved
  let kind ← known (kindOf (← field f (h + 5) 1 k)) k 0
  let align ← field f (h + 6) 1 k
  let size ← field f (h + 8) 8 k
  let bytes ← if kind = .zero then pure [] else slice f (← field f (h + 16) 4 k) size k
  let relOff ← field f (h + 20) 4 k
  let rels ← (List.range (← field f (h + 24) 4 k)).mapM fun i => readReloc f k (relOff + 24 * i)
  return { name := name, kind := kind, align := align, size := size, bytes := bytes, rels := rels,
           link := ← field f (h + 28) 4 k }

def readSymbol (f : List Byte) (symOff k : Nat) : Except LoadErr Symbol := do
  let h := symOff + 24 * k
  let kb ← field f (h + 6) 1 0
  if (← field f (h + 7) 1 0) ≠ 0 then fail 0 h .reserved
  return { name := ← field f h 4 0, sect := sectOf (← field f (h + 4) 2 0), kind := ← known (skindOf (kb % 16)) 0 h,
           bind := ← known (bindOf (kb / 16)) 0 h, value := ← field f (h + 8) 8 0, size := ← field f (h + 16) 8 0 }

/-- The object of a file (R113 to R117), or why it is rejected (R123, step 1). -/
def read (f : List Byte) : Except LoadErr Object := do
  if (← field f 0 4 0) ≠ magic then fail 0 0 .magic
  if (← field f 4 2 0) ≠ 1 then fail 0 4 .version
  if (← field f 6 2 0) ≠ 0 then fail 0 6 .reserved
  let n ← field f 8 4 0
  if n < 1 || 65533 < n then fail 0 8 .sections
  let secOff ← field f 12 4 0
  let sections ← (List.range n).mapM fun k => readSection f secOff k
  let symCnt ← field f 16 4 0
  let symOff ← field f 20 4 0
  let symbols ← (List.range symCnt).mapM fun k => readSymbol f symOff k
  let strings ← slice f (← field f 24 4 0) (← field f 28 4 0) 0
  return { sections := sections, symbols := symbols, strings := strings }

/-! ## Records (R118) -/

/-- A record of a section: where it starts, the index of its symbol, and its payload's place and size. -/
structure Record where
  off  : Nat
  sym  : Nat
  pay  : Nat
  size : Nat
  deriving DecidableEq, Repr

/-- The header of a record (R118). -/
def recordHeader (k : Kind) (sym size : Nat) : List Byte :=
  bytesLE 4 sym ++ bytesLE 4 size ++ bytesLE 2 k.payOff ++ bytesLE 6 0

/-- The records of a section from an offset on. -/
def recordsFrom (k : Kind) (sec : Nat) (bs : List Byte) : Nat → Nat → Except LoadErr (List Record)
  | 0, off => if off < bs.length then fail sec off .record else .ok []
  | n + 1, off =>
    if bs.length ≤ off then .ok []
    else do
      let size ← field bs (off + 4) 4 sec
      if (← field bs (off + 8) 2 sec) ≠ k.payOff then fail sec off .record
      if (← field bs (off + 10) 6 sec) ≠ 0 then fail sec off .reserved
      let _ ← slice bs (off + k.payOff) size sec
      let rest ← recordsFrom k sec bs n (off + roundUp (k.payOff + size) (2 ^ k.align))
      return { off := off, sym := ← field bs off 4 sec, pay := off + k.payOff, size := size } :: rest

def Section.records (s : Section) (sec : Nat) : Except LoadErr (List Record) :=
  if s.kind.records then recordsFrom s.kind sec s.bytes (s.bytes.length + 1) 0 else .ok []

/-! ## Relocation (R116, R117) -/

/-- Bytes written over others. -/
def putBytes (bs : List Byte) (off : Nat) (new : List Byte) : List Byte :=
  bs.take off ++ new ++ bs.drop (off + new.length)

/-- Bits [lo+w-1:lo] of the word at an offset. -/
def patchBits (bs : List Byte) (off lo w v : Nat) : List Byte :=
  let old := natLE ((bs.drop off).take 4)
  putBytes bs off (bytesLE 4 (old - old / 2 ^ lo % 2 ^ w * 2 ^ lo + v % 2 ^ w * 2 ^ lo))

/-- The value of a relocation and the bytes with it (R117); none where it falls outside its range. `s` is an absolute
symbol's VALUE as 64 unsigned bits, so that a negative one of another object falls outside MEM12 and ABS32.
DESIGN CHOICE, safe (log 63). -/
def RelType.apply (t : RelType) (bs : List Byte) (off : Nat) (s p : Nat) (a : Int) : Option (List Byte) :=
  let v : Int := s + a
  let d : Int := v - p
  let room := fun n => off + n ≤ bs.length
  let within := fun (lo hi x : Int) => lo ≤ x && x ≤ hi
  match t with
  | .abs64 => if room 8 then some (putBytes bs off (bytesLE 8 (wrap 64 v))) else none
  | .abs32 => if room 4 && within 0 (2 ^ 32 - 1) v then some (putBytes bs off (bytesLE 4 v.toNat)) else none
  | .litLo => if room 12 then some (putBytes bs (off + 8) (bytesLE 4 (wrap 64 v))) else none
  | .litHi => if room 12 then some (putBytes bs (off + 8) (bytesLE 4 (wrap 64 v / 2 ^ 32))) else none
  | .ctl16 =>
    if room 8 && d % 4 = 0 && within (-32768) 32767 (d / 4) then some (patchBits bs (off + 4) 0 16 (wrap 16 (d / 4)))
    else none
  | .ctl32 =>
    if room 12 && d % 4 = 0 && within (-(2 ^ 31)) (2 ^ 31 - 1) (d / 4) then
      some (putBytes bs (off + 8) (bytesLE 4 (wrap 32 (d / 4))))
    else none
  | .mem12 =>
    if room 8 && within (-2048) 2047 v then
      some (patchBits (patchBits bs (off + 4) 25 6 (wrap 12 v / 64)) (off + 4) 3 6 (wrap 12 v % 64))
    else none
  | .handle => if room 12 && within 0 4095 v then some (putBytes bs (off + 8) (bytesLE 4 v.toNat)) else none
  | .prel64 => if room 8 then some (putBytes bs off (bytesLE 8 (wrap 64 d))) else none

/-! ## The loader (R123) -/

/-- What the loader chooses: an address for each section of each object, the handle-table entries in the order it takes
them, and an address for the segments of each grammar that it splits. -/
structure Choice where
  base    : List (List Nat)
  handles : List Nat
  splits  : List Nat
  deriving DecidableEq, Repr

def Choice.at (c : Choice) (obj sec : Nat) : Nat := ((c.base.getD obj []).getD sec 0)

/-- Every weight-set record of the objects with the handle it receives (R123, step 4): object, section, record, handle. -/
structure SetAt where
  obj    : Nat
  sec    : Nat
  rec_   : Record
  handle : Nat
  deriving DecidableEq, Repr

/-- The sections of an object with their numbers. -/
def Object.indexed (o : Object) : List (Nat × Section) := (List.range o.sections.length).zip o.sections

def setsOf (objs : List Object) : Except LoadErr (List (Nat × Nat × Record)) := do
  let per ← ((List.range objs.length).zip objs).mapM fun (i, o) => do
    let rs ← o.indexed.mapM fun (k, s) => do
      if s.kind = .wset then return (← s.records k).map fun r => (i, k, r) else return []
    return rs.flatten
  return per.flatten

/-- The entries of the handle table that the loader may take: those that exist and are free, each once. -/
def Choice.free (c : Choice) (bound : List Nat) : List Nat :=
  (c.handles.filter fun h => h < 4096 && !bound.contains h).eraseDups

/-- Handles for the sets, a free entry each. -/
def assign : List (Nat × Nat × Record) → List Nat → Except LoadErr (List SetAt)
  | [], _ => .ok []
  | (_, k, r) :: _, [] => fail k r.off .noHandle
  | (i, k, r) :: xs, h :: hs => do
    return { obj := i, sec := k, rec_ := r, handle := h } :: (← assign xs hs)

/-- The global symbol of a name among the objects loaded together (R123, step 3). DESIGN CHOICE, safe (log 63). -/
def findGlobal (objs : List Object) (name : List Byte) : Option (Nat × Nat) :=
  ((List.range objs.length).zip objs).findSome? fun (i, o) =>
    (o.symbols.findIdx? fun s => s.bind = .glob && o.str s.name = name).map fun k => (i, k)

/-- S of a symbol: its load address, its value if absolute, the handle of a weight set (R116). -/
def symValue (objs : List Object) (c : Choice) (sets : List SetAt) (obj sym : Nat) : Option Nat :=
  match objs[obj]? with
  | none => none
  | some o =>
    match o.symbols[sym]? with
    | none => none
    | some s =>
      match s.sect with
      | .absolute => some s.value
      | .ext =>
        match findGlobal objs (o.str s.name) with
        | none => none
        | some (i, k) => local_ objs c sets i k
      | .idx _ => local_ objs c sets obj sym
where
  local_ (objs : List Object) (c : Choice) (sets : List SetAt) (obj sym : Nat) : Option Nat :=
    match (objs[obj]?.bind fun o => o.symbols[sym]?) with
    | none => none
    | some s =>
      match s.sect with
      | .absolute => some s.value
      | .ext => none
      | .idx k =>
        if s.kind = .wset then
          (sets.find? fun x => x.obj = obj && x.sec = k && x.rec_.sym = sym).map fun x => x.handle
        else some (c.at obj k + s.value)

/-- A section after its relocations, in table order (R123, step 5). -/
def relocate (objs : List Object) (c : Choice) (sets : List SetAt) (obj sec : Nat) (s : Section) :
    Except LoadErr (List Byte) :=
  s.rels.foldlM (fun bs r =>
    match symValue objs c sets obj r.sym with
    | none => fail sec r.off .unresolved
    | some v => match r.type.apply bs r.off v (c.at obj sec + r.off) r.add with
      | some bs => .ok bs
      | none => fail sec r.off .range) s.bytes

/-! ## Grammars (R124) -/

/-- A part of memory that the loader writes. -/
structure Piece where
  addr  : Nat
  bytes : List Byte
  deriving DecidableEq, Repr

/-- The word at an address of what is loaded. -/
def wordAt (ps : List Piece) (a : Nat) : Option Nat :=
  ps.findSome? fun p =>
    if p.addr ≤ a && a + 4 ≤ p.addr + p.bytes.length then some (natLE ((p.bytes.drop (a - p.addr)).take 4)) else none

def wordsAt (ps : List Piece) (a n : Nat) : Option (List Nat) := (List.range n).mapM fun i => wordAt ps (a + 4 * i)

/-- A rule: its symbols (R253). -/
abbrev Rule := List Nat

/-- The rules of a grammar: the runs of symbols between neighbouring pointers. -/
def rulesOf (ps : List Piece) (syms : Nat) : List Nat → Option (List Rule)
  | a :: b :: r => do
    let x ← wordsAt ps (syms + 4 * a) (b - a)
    return x :: (← rulesOf ps syms (b :: r))
  | _ => some []

def refsOf (r : Rule) : List Nat := (r.filter symRef).map symRule

/-- The depths of rules, in order; GFWD for a reference not below its rule, GDEPTH past 16 (R124, R253). -/
def depths (sec off : Nat) : List Nat → List Rule → Except LoadErr (List Nat)
  | done, [] => .ok done
  | done, r :: rs =>
    let refs := refsOf r
    if refs.any fun k => done.length ≤ k then fail sec off .gfwd
    else
      let d := 1 + (refs.map fun k => done.getD k 0).foldl max 0
      if 16 < d then fail sec off .gdepth else depths sec off (done ++ [d]) rs

/-- Two rising lists merged, each member once. -/
def union (a b : List Nat) : List Nat :=
  b.foldl (fun l x => if l.contains x then l else l.insertIdx (l.takeWhile (· < x)).length x) a

/-- The rules that a rule reaches, itself among them, rising; the depth bounds the walk. -/
def reach (rules : List Rule) : Nat → Nat → List Nat
  | 0, _ => []
  | n + 1, k => (refsOf (rules.getD k [])).foldl (fun l j => union l (reach rules n j)) [k]

/-- A segment of a grammar: rules renumbered in rising original order, row roots, and the output index of its row 0. -/
structure Segment where
  rules : List Rule
  rows  : List Nat
  row0  : Nat
  deriving DecidableEq, Repr

def noRow : Nat := 0xFFFFFFFF

/-- References renumbered by a rising list of the rules kept. -/
def renumber (kept : List Nat) (r : Rule) : Rule :=
  r.map fun w => if symRef w then 2 ^ 31 + kept.idxOf (symRule w) else w

/-- A segment of some of the rules and rows: a row that names no rule of the grammar becomes an empty one.
DESIGN CHOICE, safe (log 63). -/
def Segment.of (rules : List Rule) (kept rows : List Nat) (row0 : Nat) : Segment :=
  { rules := kept.map fun k => renumber kept (rules.getD k []),
    rows := rows.map fun x => if x = noRow then noRow else kept.idxOf x, row0 := row0 }

/-- Rows in order, each with the rules it reaches, into segments of at most `cap` rules (R124). `kept` and `rows` are
those of the open segment. DESIGN CHOICE, safe (log 63). -/
def splitRows (sec off cap : Nat) (rules : List Rule) : List Nat → List Nat → Nat → List Nat →
    Except LoadErr (List Segment)
  | kept, rows, row0, [] => .ok [Segment.of rules kept rows row0]
  | kept, rows, row0, x :: xs =>
    let own := if x = noRow then [] else reach rules 16 x
    if cap < own.length then fail sec off .gcap
    else if cap < (union kept own).length then do
      let rest ← splitRows sec off cap rules own [x] (row0 + rows.length) xs
      return Segment.of rules kept rows row0 :: rest
    else splitRows sec off cap rules (union kept own) (rows ++ [x]) row0 xs

/-- A grammar descriptor's SYMS, RPTR and ROWTAB replaced (R254). -/
def withArrays (desc : List Byte) (syms rptr rowtab : Nat) : List Byte :=
  putBytes desc 8 (bytesLE 8 syms ++ bytesLE 8 rptr ++ bytesLE 8 rowtab)

/-- A grammar record after the loader: its descriptor with load addresses, and its segments where it was split. -/
structure Prepared where
  addr  : Nat
  desc  : List Byte
  split : List Segment
  deriving DecidableEq, Repr

/-- One grammar record checked and prepared (R124): its arrays lie at offsets from the payload, which become load addresses
(R265); one that keeps the limit is not split. DESIGN CHOICE, safe (log 63). -/
def grammar (cap : Nat) (ps : List Piece) (sec off addr : Nat) : Except LoadErr Prepared := do
  let got := fun (x : Option (List Nat)) => match x with
    | some v => Except.ok v
    | none => fail sec off .unreadable
  let raw := (← got (wordsAt ps addr 16)).flatMap (bytesLE 4)
  let d := GDesc.decode (natLE raw)
  let desc := withArrays raw (addr + d.syms) (addr + d.rptr) (if d.csr then 0 else addr + d.rowtab)
  if d.csr then return { addr := addr, desc := desc, split := [] }
  let ptrs ← got (wordsAt ps (addr + d.rptr) (d.nrules + 1))
  let rules ← match rulesOf ps (addr + d.syms) ptrs with
    | some r => Except.ok r
    | none => fail sec off .unreadable
  let _ ← depths sec off [] rules
  let rows ← got (wordsAt ps (addr + d.rowtab) d.nrows)
  let split ← if rules.length ≤ cap then Except.ok [] else splitRows sec off cap rules [] [] d.row0 rows
  return { addr := addr, desc := desc, split := split }

/-- The rule-pointer array of some rules. -/
def pointers : Nat → List Rule → List Nat
  | a, [] => [a]
  | a, r :: rs => a :: pointers (a + r.length) rs

/-- A segment at an address: its descriptor, and its symbols, pointers and row table (R253, R254).
DESIGN CHOICE, safe (log 63). -/
def Segment.bytes (g : Segment) (desc : List Byte) (addr : Nat) : List Byte × List Byte :=
  let syms := g.rules.flatten
  let ptrs := pointers 0 g.rules
  let rptr := addr + 4 * syms.length
  let d := withArrays desc addr rptr (rptr + 4 * ptrs.length)
  let d := putBytes d 36 (bytesLE 4 g.rules.length ++ bytesLE 4 g.rows.length)
  (putBytes d 56 (bytesLE 4 g.row0), (syms ++ ptrs ++ g.rows).flatMap (bytesLE 4))

/-- The descriptors of a grammar's segments in order (R265), and their arrays from an address on. -/
def segments (desc : List Byte) : Nat → List Segment → List Byte × List Byte
  | _, [] => ([], [])
  | at_, g :: gs =>
    let (d, xs) := g.bytes desc at_
    let (ds, ys) := segments desc (at_ + xs.length) gs
    (d ++ ds, xs ++ ys)

/-- What the loader writes for prepared grammars: each descriptor again, and the segments of those that were split at
addresses of its choice, 64-byte aligned. DESIGN CHOICE, safe (log 63). -/
def prepare : List (Nat × Prepared) → List Nat → Except LoadErr (List Piece)
  | [], _ => .ok []
  | (k, p) :: ps, at_ => do
    let own : Piece := { addr := p.addr, bytes := p.desc }
    if p.split.isEmpty then return own :: (← prepare ps at_)
    match at_ with
    | [] => fail k 0 .noPlace
    | a :: rest =>
      if a % 64 ≠ 0 then fail k 0 .alignment
      let (ds, xs) := segments p.desc (a + 64 * p.split.length) p.split
      return own :: { addr := a, bytes := ds ++ xs } :: (← prepare ps rest)

/-! ## What a load leaves (R123) -/

/-- The loader's acts, in order. DESIGN CHOICE, safe (log 63). -/
inductive Act where
  | contiguous (addr size : Nat)                 -- pages of consecutive host-physical addresses (step 4, R239)
  | place (p : Piece) (run : Bool)               -- bytes at an address; `run` on pages marked executable (step 2)
  | bind (handle addr size : Nat)                -- a job executes WBIND for a set (step 4, R239)
  | awaitBinds                                   -- every WBIND has completed (step 7)
  | makeVisible                                  -- a release (step 7)
  deriving DecidableEq, Repr

structure Loaded where
  acts     : List Act
  grammars : List Prepared
  cards    : List Nat                             -- addresses of the job templates' cards
  deriving DecidableEq, Repr

/-- All sections of all objects. -/
def allSections (objs : List Object) : List (Nat × Nat × Section) :=
  ((List.range objs.length).zip objs).flatMap fun (i, o) => o.indexed.map fun (k, s) => (i, k, s)

/-- Load objects together, where some entries of the handle table are bound already (R123, R124). A load that is rejected
leaves nothing. DESIGN CHOICE, safe (log 63). -/
def load (objs : List Object) (bound : List Nat) (c : Choice) : Except LoadErr Loaded := do
  let secs := allSections objs
  for x in secs do
    if c.at x.1 x.2.1 % 2 ^ x.2.2.align ≠ 0 then fail x.2.1 0 .alignment
  for x in (List.range objs.length).zip objs do
    for s in x.2.symbols do
      if s.bind = .ext && (findGlobal objs (x.2.str s.name)).isNone then fail 0 s.name .unresolved
  let sets ← assign (← setsOf objs) (c.free bound)
  let pieces ← secs.mapM fun (i, k, s) => do
    let bs ← relocate objs c sets i k s
    return ({ addr := c.at i k, bytes := if s.kind = .zero then List.replicate s.size 0 else bs } : Piece)
  let gs ← secs.mapM fun (i, k, s) => do
    if s.kind = .gram then
      (← s.records k).mapM fun r => do return (k, ← grammar 65536 pieces k r.off (c.at i k + r.pay))
    else return []
  let extra ← prepare gs.flatten c.splits
  let cards ← secs.mapM fun (i, k, s) => do
    if s.kind = .job then return (← s.records k).map fun r => c.at i k + r.pay else return []
  for x in secs do
    if x.2.2.kind = .slots then let _ ← x.2.2.records x.2.1
  let places := (secs.zip pieces).map fun x =>
    Act.place x.2 (x.1.2.2.kind = .code || x.1.2.2.kind = .scode)
  let payAt := fun (x : SetAt) => c.at x.obj x.sec + x.rec_.pay
  let pages := sets.map fun x => Act.contiguous (payAt x) x.rec_.size
  let binds := sets.map fun x => Act.bind x.handle (payAt x) x.rec_.size
  return { acts := pages ++ places ++ (extra.map fun p => Act.place p false) ++ binds ++ (if binds.isEmpty then [] else [.awaitBinds]) ++ [.makeVisible],
           grammars := gs.flatten.map (·.2), cards := cards.flatten }

end Sys2Proof.Bof
end

