-- ==== Sys2Proof/Machine/Mladas.lean ====
section
/-!
DEFINITION. The mladas language (R10, R99 to R107): words and statements of a line, expressions, literals, and the one
instruction that a statement stands for. Programs of many lines are in Assemble.lean.
-/

namespace Sys2Proof.Mladas

open Sys2Proof Sys2Proof.Machine Sys2Proof.Bof

/-- Why the assembler refuses a source (R99 to R122). -/
inductive Err where
  | lexical | statement | expression | reservedName | unknownName | unknownMnemonic | unknownSuffix | operand
  | fieldUnknown | fieldTwice | fieldRange | literal | twoLiterals | route | maskNegated | maskInCtl
  | format | illegal (b : Bad) | relocation | target | division | overflow | value
  | directive | sectionKind | nesting | noProcedure | fallsThrough | runTooLong (row : Nat) | notLast | latch | namedRange
  | blockTooLong | liveRange | duplicate | globalUndefined | externDefined | unknownKey | missingKey | tooMany
  | wrongEngine | unsettled
  deriving DecidableEq, Repr

/-! ## Words of a line (R10, R99) -/

/-- Words of a line: names in lower case, numbers as written, strings, and single marks. -/
inductive Tok where
  | word (s : String) | num (s : String) | str (s : String) | mark (c : Char)
  deriving DecidableEq, Repr

def wordChar (c : Char) : Bool := c.isAlphanum || c = '_'

/-- The words of a line; a comment ends it. -/
def lexLine : Nat → List Char → Except Err (List Tok)
  | _, [] => .ok []
  | 0, _ => .error .lexical
  | n + 1, c :: cs =>
    if c = ';' || (c = '/' && cs.head? = some '/') then .ok []
    else if c = ' ' || c = '\t' || c = '\r' then lexLine n cs
    else if c = '"' then do
      let s := cs.takeWhile (· ≠ '"')
      let rest := cs.drop s.length
      if rest.isEmpty then .error .lexical
      let ts ← lexLine n (rest.drop 1)
      return .str (String.ofList s) :: ts
    else if wordChar c then do
      let s := (c :: cs).takeWhile wordChar
      let ts ← lexLine n ((c :: cs).drop s.length)
      let w := String.ofList (s.map Char.toLower)
      return (if c.isDigit then .num w else .word w) :: ts
    else do
      let ts ← lexLine n cs
      return .mark c :: ts

/-- The lines of a source. -/
def linesOf (cs : List Char) : List (List Char) :=
  let (done, last) := cs.foldr (fun c (acc : List (List Char) × List Char) =>
    if c = '\n' then (acc.2 :: acc.1, []) else (acc.1, c :: acc.2)) ([], [])
  last :: done

def digitVal (c : Char) : Option Nat :=
  if c.isDigit then some (c.toNat - '0'.toNat)
  else if 'a' ≤ c && c ≤ 'f' then some (c.toNat - 'a'.toNat + 10) else none

def digits (base : Nat) (cs : List Char) : Option Nat :=
  if cs.isEmpty then none
  else cs.foldl (fun a c => do let v ← a; let d ← digitVal c; if d < base then some (v * base + d) else none) (some 0)

/-- A decimal, 0x or 0b constant (R107). -/
def constOf (s : String) : Except Err Nat :=
  let r := match s.toList with
    | '0' :: 'x' :: ds => digits 16 ds
    | '0' :: 'b' :: ds => digits 2 ds
    | ds => digits 10 ds
  match r with | some v => .ok v | none => .error .expression

/-! ## Expressions (R107) -/

inductive BinOp where
  | or | xor | and | shl | shr | add | sub | mul | div | mod
  deriving DecidableEq, Repr

inductive Expr where
  | num (v : Nat) | sym (s : String) | here | neg (a : Expr) | inv (a : Expr) | bin (o : BinOp) (a b : Expr)
  deriving DecidableEq, Repr

/-- A binary operator of a level, `|` lowest, and the words after it. -/
def opAt (level : Nat) : List Tok → Option (BinOp × List Tok)
  | .mark '<' :: .mark '<' :: r => if level = 3 then some (.shl, r) else none
  | .mark '>' :: .mark '>' :: r => if level = 3 then some (.shr, r) else none
  | .mark '|' :: r => if level = 0 then some (.or, r) else none
  | .mark '^' :: r => if level = 1 then some (.xor, r) else none
  | .mark '&' :: r => if level = 2 then some (.and, r) else none
  | .mark '+' :: r => if level = 4 then some (.add, r) else none
  | .mark '-' :: r => if level = 4 then some (.sub, r) else none
  | .mark '*' :: r => if level = 5 then some (.mul, r) else none
  | .mark '/' :: r => if level = 5 then some (.div, r) else none
  | .mark '%' :: r => if level = 5 then some (.mod, r) else none
  | _ => none

/-- An expression at the head of some words, and the words after it; `acc` is the left operand read so far. -/
def parseExpr : Nat → Nat → Option Expr → List Tok → Except Err (Expr × List Tok)
  | 0, _, _, _ => .error .expression
  | n + 1, level, some a, ts =>
    match opAt level ts with
    | none => .ok (a, ts)
    | some (o, r) => do
      let (b, r) ← parseExpr n (level + 1) none r
      parseExpr n level (some (.bin o a b)) r
  | n + 1, level, none, ts =>
    if level < 6 then do
      let (a, r) ← parseExpr n (level + 1) none ts
      parseExpr n level (some a) r
    else
      match ts with
      | .num s :: r => do return (.num (← constOf s), r)
      | .word s :: r => .ok (.sym s, r)
      | .mark '.' :: r => .ok (.here, r)
      | .mark '-' :: r => do let (a, r) ← parseExpr n 6 none r; return (.neg a, r)
      | .mark '+' :: r => parseExpr n 6 none r
      | .mark '~' :: r => do let (a, r) ← parseExpr n 6 none r; return (.inv a, r)
      | .mark '(' :: r => do
        let (a, r) ← parseExpr n 0 none r
        match r with
        | .mark ')' :: r => return (a, r)
        | _ => .error .expression
      | _ => .error .expression

/-- The expression that some words spell as a whole. -/
def exprOf (ts : List Tok) : Except Err Expr := do
  let (e, r) ← parseExpr (16 * (ts.length + 1)) 0 none ts
  if r.isEmpty then return e else .error .expression

/-- Where a name stands: an absolute value, a place in a section, an address that only the loader knows, or not yet
known. -/
inductive Place where
  | abs (v : Int) | sec (k off : Nat) | loader | unknown
  deriving DecidableEq, Repr

/-- What a statement may read: the names, the section and the offset where it stands, and whether a name that stands
nowhere is an error (it is none before the last pass). -/
structure Scope where
  place   : String → Place
  isBlock : String → Bool
  isSet   : String → Bool                    -- a weight set, whose load address is its handle (R116)
  anchor  : Nat → Option (String × Nat)      -- a symbol of a section, to name an address of it
  blockAt : Int → Bool                       -- does a block of the own section start at an offset?
  sec     : Nat
  here    : Nat
  strict  : Bool

/-- What an address counts from. -/
inductive Base where
  | sym (s : String) | here
  deriving DecidableEq, Repr

/-- Which half of a value (R117, LITLO and LITHI). -/
inductive Half where
  | whole | low | high
  deriving DecidableEq, Repr

/-- A value: a number, plus a load address, minus the load address of the current section. -/
structure Val where
  plus  : Option Base
  minus : Bool
  add   : Int
  half  : Half
  deriving DecidableEq, Repr

def Val.num (v : Int) : Val := { plus := none, minus := false, add := v, half := .whole }
def Val.isNum (v : Val) : Bool := v.plus.isNone && !v.minus && v.half = .whole

def Scope.placeOf (c : Scope) : Base → Place
  | .here => .sec c.sec c.here
  | .sym s => c.place s

/-- The signed reading of the low 64 bits. -/
def asSigned (v : Int) : Int := signed 64 (wrap 64 v)

/-- Is a value one of 64-bit two's complement (R107)? -/
def fits64 (v : Int) : Bool := -(2 ^ 63 : Int) ≤ v && v < (2 ^ 63 : Int)

def checked64 (v : Int) : Except Err Val := if fits64 v then .ok (.num v) else .error .overflow

/-- A constant of 64 bits: one from 2^63 on is the bits of a negative value (R107). DESIGN CHOICE, unsafe (log 61). -/
def constant (v : Nat) : Except Err Val := if v < 2 ^ 64 then .ok (.num (asSigned v)) else .error .overflow

def bitOp (f : Nat → Nat → Nat) (a b : Int) : Val := .num (asSigned (f (wrap 64 a) (wrap 64 b)))

/-- A binary operator on numbers (R107): the shifts are those of a signed value, by 0 to 63. DESIGN CHOICE, unsafe (log 61). -/
def numOp (o : BinOp) (a b : Int) : Except Err Val :=
  match o with
  | .or => .ok (bitOp (· ||| ·) a b)
  | .xor => .ok (bitOp (· ^^^ ·) a b)
  | .and => .ok (bitOp (· &&& ·) a b)
  | .shl => if b < 0 || b > 63 then .error .overflow else checked64 (a * (2 ^ b.toNat : Nat))
  | .shr => if b < 0 || b > 63 then .error .overflow else .ok (.num (a / (2 ^ b.toNat : Nat)))
  | .add => checked64 (a + b)
  | .sub => checked64 (a - b)
  | .mul => checked64 (a * b)
  | .div => if b = 0 then .error .division else checked64 (a.tdiv b)
  | .mod => if b = 0 then .error .division else checked64 (a.tmod b)

/-- The difference of two addresses: a number in one section, else an address less the current section (R117). -/
def Scope.minus (c : Scope) (a b : Val) : Except Err Val :=
  match a.plus, b.plus with
  | some x, some y =>
    match c.placeOf x, c.placeOf y with
    | .sec k p, .sec l q =>
      if k = l then checked64 ((p : Int) + a.add - q - b.add)
      else if l = c.sec then .ok { a with minus := true, add := a.add - b.add - q }
      else .error .relocation
    | _, .sec l q =>
      if l = c.sec then .ok { a with minus := true, add := a.add - b.add - q } else .error .relocation
    | _, _ => if x = y then checked64 (a.add - b.add) else .error .relocation
  | _, _ => .error .relocation

/-- A binary operator (R107): addresses may be moved by numbers and subtracted, and their halves taken (R117). -/
def Scope.apply (c : Scope) (o : BinOp) (a b : Val) : Except Err Val :=
  if a.isNum && b.isNum then numOp o a.add b.add
  else if a.half ≠ .whole || b.half ≠ .whole || a.minus || b.minus then .error .relocation
  else match o with
    | .add =>
      if b.isNum then .ok { a with add := a.add + b.add }
      else if a.isNum then .ok { b with add := a.add + b.add }
      else .error .relocation
    | .sub => if b.isNum then .ok { a with add := a.add - b.add } else c.minus a b
    | .and => if b = .num 0xFFFFFFFF then .ok { a with half := .low } else .error .relocation
    | .shr => if b = .num 32 then .ok { a with half := .high } else .error .relocation
    | _ => .error .relocation

/-- A value at least `lo` and below `hi`. Before the last pass a name may still have no value, so that a value outside
the range is no error yet and counts as the least. -/
def Scope.inRange (c : Scope) (e : Err) (lo hi v : Int) : Except Err Int :=
  if lo ≤ v && v < hi then .ok v else if c.strict then .error e else .ok lo

/-- The value of an expression (R107). A symbol that is defined nowhere stands as an external one where a relocation can
carry it. -/
def Scope.eval (c : Scope) : Expr → Except Err Val
  | .num v => constant v
  | .here => .ok { plus := some .here, minus := false, add := 0, half := .whole }
  | .sym s =>
    match c.place s with
    | .abs v => .ok (.num v)
    | .unknown => if c.strict then .error .unknownName else .ok (.num 0)
    | _ => .ok { plus := some (.sym s), minus := false, add := 0, half := .whole }
  | .neg a => do
    let v ← c.eval a
    if v.isNum then checked64 (-v.add) else .error .relocation
  | .inv a => do
    let v ← c.eval a
    if v.isNum then return .num (-v.add - 1) else .error .relocation
  | .bin o a b => do
    let x ← c.eval a
    let y ← c.eval b
    match c.apply o x y with
    | .ok v => return v
    | .error e => if c.strict then .error e else return .num 0

/-- The value of an expression that no relocation can carry. -/
def Scope.number (c : Scope) (e : Expr) : Except Err Int := do
  let v ← c.eval e
  if v.isNum then return v.add else if c.strict then .error .relocation else return 0

def Scope.numberOf (c : Scope) (ts : List Tok) : Except Err Int := do c.number (← exprOf ts)

/-- A relocation that a statement asks for, at its first word or datum (R116). -/
structure Rel where
  sym  : String
  type : RelType
  add  : Int
  deriving DecidableEq, Repr

/-- The symbol and addend that name an address. -/
def Scope.named (c : Scope) (b : Base) (add : Int) : Except Err (String × Int) :=
  match b with
  | .sym s => .ok (s, add)
  | .here => match c.anchor c.sec with
    | some (s, off) => .ok (s, (c.here : Int) + add - off)
    | none => if c.strict then .error .relocation else .ok ("", 0)

/-- A relocation for an address that the assembler cannot resolve. -/
def Scope.rel (c : Scope) (t : RelType) (v : Val) : Except Err Rel := do
  match v.plus with
  | some b => do let (s, a) ← c.named b v.add; return { sym := s, type := t, add := a }
  | none => .error .relocation

/-! ## Literals (R101, R449) -/

/-- A decimal constant with its sign, or an infinity (R107). -/
inductive Dec where
  | fin (neg : Bool) (n d : Nat) | inf (neg : Bool)
  deriving DecidableEq, Repr

/-- A decimal exponent: `e12` in one word, or `e` and a signed number. -/
def expoOf (cs : List Char) (r : List Tok) : Option Int :=
  match cs, r with
  | [], [] => some 0
  | ['e'], [.mark '+', .num k] => (digits 10 k.toList).map Int.ofNat
  | ['e'], [.mark '-', .num k] => (digits 10 k.toList).map fun v => -(v : Int)
  | 'e' :: ds, [] => (digits 10 ds).map Int.ofNat
  | _, _ => none

/-- n × 10^e with a sign. -/
def decOf (neg : Bool) (n : Nat) (e : Int) : Dec :=
  .fin neg (n * 10 ^ e.toNat) (10 ^ (-e).toNat)

/-- The decimal constant that some words spell as a whole (R107). -/
def decimal : Bool → List Tok → Option Dec
  | neg, [.word "inf"] => some (.inf neg)
  | neg, .num a :: .mark '.' :: .num b :: r => do
    let n ← digits 10 a.toList
    let fs := b.toList.takeWhile Char.isDigit
    let f ← digits 10 fs
    let e ← expoOf (b.toList.drop fs.length) r
    return decOf neg (n * 10 ^ fs.length + f) (e - fs.length)
  | neg, .num a :: r => do
    let ns := a.toList.takeWhile Char.isDigit
    let n ← digits 10 ns
    let e ← expoOf (a.toList.drop ns.length) r
    return decOf neg n e
  | _, _ => none

def decimalOf (ts : List Tok) : Except Err Dec :=
  let r := match ts with
    | .mark '-' :: r => decimal true r
    | .mark '+' :: r => decimal false r
    | r => decimal false r
  match r with | some v => .ok v | none => .error .literal

/-- A constant converted with RM 00, refused where OF or NV would be set (R101, R112); and whether it is inexact. -/
def toFloat (f : Fmt) (v : Dec) : Except Err (Nat × Bool) :=
  let r := match v with
    | .fin neg n d => f.round .ne neg n d 0
    | .inf neg => f.convert .ne (.inf neg)
  if r.flags &&& (Flags.of ||| Flags.nv) ≠ 0 then .error .literal else .ok (r.bits, r.flags &&& Flags.nx ≠ 0)

/-- A value of w bits replicated across a word. -/
def replicate (w v : Nat) : Nat := packN w (List.replicate (32 / w) v)

/-- The literal of an integer of w bits, signed or not (R101). -/
def intLit (t : ITy) (v : Int) : Except Err Nat :=
  let w := t.width.bits
  if 32 ≤ w then
    if -(2 ^ 31 : Int) ≤ v && v < (2 ^ 32 : Int) then .ok (wrap 32 v) else .error .literal
  else
    let lo : Int := if t.signed then -(2 ^ (w - 1) : Nat) else 0
    let hi : Int := if t.signed then (2 ^ (w - 1) : Nat) else (2 ^ w : Nat)
    if lo ≤ v && v < hi then .ok (replicate w (wrap w v)) else .error .literal

/-- The literal of a float type (R101). -/
def fltLit (f : Fmt) (v : Dec) : Except Err Nat := do
  if f = .f64 then
    let (x, nx) ← toFloat .f32 v
    if nx then .error .literal
    return x
  else
    let (x, _) ← toFloat f v
    return (if f.width = 32 then x else replicate f.width x)

/-- A literal: its bits, or the relocation that carries them. -/
structure Lit where
  bits : Nat
  rel  : Option Rel
  deriving DecidableEq, Repr

/-- A literal that is an address (R117): a weight set's handle, or a half of an address.
DESIGN CHOICE, unsafe (log 61). -/
def Scope.litRel (c : Scope) (v : Val) : Except Err Lit := do
  if v.minus then .error .relocation
  let set := match v.plus with | some (.sym s) => c.isSet s | _ => false
  let t := match v.half with | .high => RelType.litHi | .low => .litLo | .whole => if set then .handle else .litLo
  return { bits := 0, rel := some (← c.rel t v) }

/-- The source type of an operand (R449); `slot` where the format slot decides it, which the assembler does not see. -/
inductive LitTy where
  | of (t : Ty) | slot
  deriving DecidableEq, Repr

/-- The literal that the words after `#` spell (R101). For e2m1, the source type of some CVTs, R101 gives no conversion:
such a literal is spelled `#raw`. DESIGN CHOICE, unsafe (log 61). -/
def Scope.literal (c : Scope) (t : LitTy) (ts : List Tok) : Except Err Lit :=
  match ts with
  | .word "raw" :: .mark '(' :: r => do
    let v ← c.eval (← exprOf (.mark '(' :: r))
    if v.isNum then return { bits := wrap 32 v.add, rel := none }
    else c.litRel (if v.half = .whole then { v with half := .low } else v)
  | _ =>
    match t with
    | .of (.int t) => do
      let v ← c.eval (← exprOf ts)
      if v.isNum then return { bits := ← intLit t v.add, rel := none }
      else if 32 ≤ t.width.bits then c.litRel v
      else .error .relocation
    | .of (.flt f) => do return { bits := ← fltLit (.ofF f) (← decimalOf ts), rel := none }
    | .of .e5m2 => do return { bits := ← fltLit .e5m2 (← decimalOf ts), rel := none }
    | .of .e4m3 => do return { bits := ← fltLit .e4m3 (← decimalOf ts), rel := none }
    | .of .e2m1 => .error .literal
    | .slot =>
      -- the assembler does not see the job's slots: an integer is a code, any other decimal an f32 (log 61)
      match if ts.contains (.word "inf") then Except.error Err.literal else exprOf ts with
      | .ok e => do return { bits := ← intLit ⟨false, .b32⟩ (← c.number e), rel := none }
      | .error _ => do return { bits := ← fltLit .f32 (← decimalOf ts), rel := none }

/-! ## Names (R99, R100) -/

/-- A register name of one kind: a letter or two and a number below a bound. -/
def indexed (pre : String) (bound : Nat) (s : String) : Option Nat :=
  let ds := s.toList.drop pre.length
  if s.toList.take pre.length = pre.toList then
    match digits 10 ds with
    | some v => if v < bound && (ds.length = 1 || ds.head? ≠ some '0') then some v else none
    | none => none
  else none

/-- The code of a source name (R76, R100); stream code names a registers (R89). -/
def srcCode (stream : Bool) (s : String) : Option Nat :=
  if s = "zero" then some 0x14
  else if s = "one" then some 0x15
  else if stream then (indexed "a" 16 s).map (0x20 + ·)
  else (indexed "q" 16 s) <|> ((indexed "h" 3 s).map (0x10 + ·)) <|> ((indexed "n" 32 s).map (0x20 + ·))

/-- The code of a destination name (R77, R89, R100). -/
def dstCode (stream : Bool) (s : String) : Option Nat :=
  if s = "void" then some 1
  else if stream then (indexed "a" 16 s).map (0x20 + ·)
  else if s = "push" then some 0
  else (indexed "n" 32 s).map (0x20 + ·)

/-- Names of the special registers, in the order of their codes (R71). -/
def specials : List String :=
  ["lane", "wave", "team", "cohort", "core", "cluster", "wid", "wf0", "wf1", "wf2", "wf3", "wf4", "wf5", "rec", "nrec",
   "argbase", "clock", "cause", "epc", "vf", "part"]

def indexIn (l : List String) (s : String) : Option Nat := l.findIdx? (· = s)

/-- Field names (R105). -/
def fieldNames : List String :=
  ["e", "pm", "d", "a", "b", "c", "fn", "hold", "xa", "xb", "xc", "rm", "off", "pn", "ch", "w", "aop", "ord", "s", "fs",
   "kc", "t", "n", "cmd", "cf", "len2", "fmt"]

/-! ## Types in suffixes (R55, R92) -/

def tySuffix : List (String × Ty) :=
  [("i8x8", .int ⟨true, .b8⟩), ("i16x4", .int ⟨true, .b16⟩), ("i32x2", .int ⟨true, .b32⟩), ("i64x1", .int ⟨true, .b64⟩),
   ("w8x8", .int ⟨false, .b8⟩), ("w16x4", .int ⟨false, .b16⟩), ("w32x2", .int ⟨false, .b32⟩),
   ("w64x1", .int ⟨false, .b64⟩), ("f64x1", .flt .f64), ("f32x2", .flt .f32), ("f16x4", .flt .f16),
   ("bf16x4", .flt .bf16), ("e5m2x8", .e5m2), ("e4m3x8", .e4m3)]

def tyNames : List (String × Ty) :=
  [("i8", .int ⟨true, .b8⟩), ("i16", .int ⟨true, .b16⟩), ("i32", .int ⟨true, .b32⟩), ("i64", .int ⟨true, .b64⟩),
   ("w8", .int ⟨false, .b8⟩), ("w16", .int ⟨false, .b16⟩), ("w32", .int ⟨false, .b32⟩), ("w64", .int ⟨false, .b64⟩),
   ("f64", .flt .f64), ("f32", .flt .f32), ("f16", .flt .f16), ("bf16", .flt .bf16), ("e5m2", .e5m2), ("e4m3", .e4m3),
   ("e2m1", .e2m1)]

def find {α : Type} (l : List (String × α)) (s : String) (e : Err) : Except Err α :=
  match l.find? (·.1 = s) with | some x => .ok x.2 | none => .error e

def tyOfSuffix (s : String) : Except Err Ty := find tySuffix s .unknownSuffix
def tyOfName (s : String) : Except Err Ty := find tyNames s .unknownSuffix

def intSuffix (s : String) : Except Err ITy := do
  match ← tyOfSuffix s with | .int t => return t | _ => .error .unknownSuffix
def fltSuffix (s : String) : Except Err FTy := do
  match ← tyOfSuffix s with | .flt t => return t | _ => .error .unknownSuffix

def num {α : Type} (l : List (α × Nat)) (p : α → Bool) (e : Err) : Except Err Nat :=
  match l.find? (fun x => p x.1) with | some x => .ok x.2 | none => .error e

/-! ## Forms of the mnemonics (R106 and the reference entries) -/

/-- The layouts a statement may fill (R80 to R89). -/
inductive Layout where
  | alu | mem | mat | eng | ctl | str | strCtl
  deriving DecidableEq, Repr

def Layout.isStream : Layout → Bool | .str => true | .strCtl => true | _ => false

/-- What a positional operand is. -/
inductive Role where
  | dst (lo : Nat) | src (lo : Nat) | routed (lo xlo k : Nat) | range (lo : Nat) | mem
  | target | start | stop | loopReg | level | maskReg | special | ctlReg | code | handleOrAll
  deriving DecidableEq, Repr

/-- A field of the word: where it starts, its width and its value. -/
structure Put where
  lo    : Nat
  width : Nat
  val   : Nat
  deriving DecidableEq, Repr

/-- A named option of one instruction: where it goes and what is taken from its value. -/
structure Opt where
  name  : String
  lo    : Nat
  width : Nat
  less  : Nat
  deriving DecidableEq, Repr

/-- A mnemonic with its suffixes. `tys` are the source types of A, B and C (R449). -/
structure Form where
  layout : Layout
  opc    : Nat
  roles  : List Role
  puts   : List Put
  opts   : List Opt
  tys    : List LitTy
  deriving DecidableEq, Repr

def rD : Role := .dst 43
def rA : Role := .routed 37 16 0
def rB : Role := .routed 31 9 1
def rC : Role := .routed 25 2 2
def rN : Role := .range 25

def w64L : LitTy := .of (.int ⟨false, .b64⟩)
def w32L : LitTy := .of (.int ⟨false, .b32⟩)
def f32L : LitTy := .of (.flt .f32)
def i8L : LitTy := .of (.int ⟨true, .b8⟩)

def form (l : Layout) (opc : Nat) (roles : List Role) (tys : List LitTy) : Form :=
  { layout := l, opc := opc, roles := roles, puts := [], opts := [], tys := tys }

def Form.fn (f : Form) (v : Nat) : Form := { f with puts := f.puts ++ [{ lo := 25, width := 6, val := v }] }
def Form.cmd (f : Form) (v : Nat) : Form := { f with puts := f.puts ++ [{ lo := 2, width := 7, val := v }] }
def Form.opt (f : Form) (name : String) (lo width less : Nat) : Form :=
  { f with opts := f.opts ++ [{ name := name, lo := lo, width := width, less := less }] }

def aluT (opc : Nat) (roles : List Role) (t : Ty) : Form := form .alu opc roles [.of t, .of t, .of t]

/-- Integer block: rows of R93 by name. -/
def int2 : List (String × Nat) :=
  [("imul", 2), ("imulh", 3), ("imin", 5), ("imax", 6), ("and", 11), ("andn", 12), ("or", 13), ("xor", 14), ("shl", 16),
   ("shr", 17), ("sar", 18), ("rol", 19)]
def int1 : List (String × Nat) := [("iabs", 7), ("ineg", 8), ("not", 15), ("popc", 20), ("clz", 21), ("brev", 22)]
def int3 : List (String × Nat) := [("imad", 4), ("bfe", 23), ("bfi", 24), ("sel", 25)]
/-- Float block: rows of R94 by name. -/
def flt2 : List (String × Nat) := [("fadd", 0), ("fsub", 1), ("fmul", 2), ("fmin", 4), ("fmax", 5)]
def flt1 : List (String × Nat) :=
  [("fclass", 7), ("frnd", 8), ("frcp", 9), ("frsq", 10), ("fsqrt", 11), ("fexp2", 12), ("flog2", 13), ("fsin", 14),
   ("fcos", 15), ("ftanh", 16), ("fsigm", 17)]

def iccNames : List (String × Nat) := [("eq", 0), ("ne", 1), ("lt", 2), ("le", 3), ("gt", 4), ("ge", 5)]
def fccNames : List (String × Nat) := iccNames ++ [("uo", 6), ("or", 7)]
def redNames : List (String × Nat) := [("add", 0), ("min", 1), ("max", 2), ("and", 3), ("or", 4), ("xor", 5)]
def aopNames : List (String × Nat) :=
  [("add", 0), ("smin", 1), ("smax", 2), ("umin", 3), ("umax", 4), ("and", 5), ("or", 6), ("xor", 7), ("exch", 8),
   ("cas", 9), ("fadd", 10), ("fmin", 11), ("fmax", 12)]
def sizeNames : List (String × Nat) := [("w8", 0), ("w16", 1), ("w32", 2), ("w64", 3)]
def ordNames : List (String × Nat) := [("acq", 1), ("rel", 2), ("ar", 3)]

def suf (l : List (String × Nat)) (s : String) : Except Err Nat := find l s .unknownSuffix

/-- The width code of an atomic's size suffix: w32 and w64, or f32 and f64 for the float operations (R106, R362). -/
def atomSize (op : Nat) (s : String) : Except Err Nat :=
  suf (if 10 ≤ op then [("f32", 2), ("f64", 3)] else [("w32", 2), ("w64", 3)]) s

def atomForm (opc op ord : Nat) (sz : String) : Except Err Form := do
  let w ← atomSize op sz
  return { form .mem opc [rD, rA, rB] [w64L, w64L] with
    puts := [{ lo := 27, width := 4, val := op }, { lo := 25, width := 2, val := ord }, { lo := 0, width := 3, val := w }] }

def memForm (opc : Nat) (store : Bool) (sz : String) : Except Err Form := do
  let w ← suf sizeNames sz
  return { form .mem opc (if store then [.mem, rB] else [rD, .mem]) [w64L, w64L] with
    puts := [{ lo := 0, width := 3, val := w }] }

/-- ENG instructions without suffixes: opcode, operands and the source types of A and B. -/
def engPlain : List (String × Nat × List Role × LitTy) :=
  [("engage", 0x1C9, [rA, rB], w64L), ("rdv", 0x1CA, [], w64L), ("ncall", 0x1CF, [rD, rA, .dst 31, rN], w64L),
   ("nflush", 0x1D0, [.handleOrAll], w64L), ("wbind", 0x1D1, [rA, rB], w64L), ("wpin", 0x1D2, [rA], w64L),
   ("wunpin", 0x1D3, [rA], w64L), ("wpref", 0x1D4, [rA], w64L), ("gmv", 0x1D5, [rD, rA, rB, rN], w64L),
   ("binreplay", 0x1D8, [rD, rA, rB, rN], w64L), ("wlinit", 0x1D9, [rA], w64L), ("wlpush", 0x1DA, [rA, rB], w64L),
   ("wlins", 0x1DB, [rD, rA, rB], w64L), ("wlpopb", 0x1DC, [rD, rA], w64L), ("hashb", 0x1DD, [rD, rA, rN], w64L),
   ("enq", 0x1DE, [rD, rA, rB], w64L), ("discard", 0x1E4, [], w64L), ("rayq", 0x1E5, [rD, rA, rN], w64L),
   ("deal", 0x1E7, [rD], w64L), ("qpop", 0x1CD, [rD], w64L), ("qpush", 0x1CE, [rA], w64L),
   ("semsig", 0x1CB, [rA], w64L), ("semwait", 0x1CC, [rA], w64L)]

/-- Options of ENG instructions by name. -/
def engOpts (m : String) (f : Form) : Form :=
  if m = "ncall" then (f.opt "in" 2 3 1).opt "out" 5 2 1
  else if m = "gmv" then f.opt "fs" 4 3 0
  else if m = "hashb" then (f.opt "in" 2 3 1).opt "proj" 5 4 1
  else if m = "rayq" then (f.opt "any" 2 1 0).opt "cull" 3 1 0
  else if m = "qpop" || m = "qpush" then f.opt "queue" 2 2 0
  else if m = "semsig" || m = "semwait" then f.opt "sem" 2 3 0
  else f

/-- CTL instructions without suffixes. -/
def ctlPlain : List (String × Nat × List Role) :=
  [("bra", 0x1E8, [rA, .target]), ("brx", 0x1E9, [rA]), ("call", 0x1EA, [rD, .target]), ("ret", 0x1EB, [rA]),
   ("exit", 0x1EC, []), ("lsetup", 0x1ED, [.loopReg, .start, .stop, rA]), ("fork", 0x1EE, [rD, rA, .target]),
   ("fjoin", 0x1EF, []), ("bar", 0x1F0, []), ("cbar", 0x1F1, []), ("yield", 0x1F2, []), ("nop", 0x1F3, []),
   ("trig", 0x1F4, []), ("trap", 0x1F5, [.code]), ("rft", 0x1F6, []), ("csrr", 0x1F7, [rD, .ctlReg]),
   ("csrw", 0x1F8, [.ctlReg, rA]), ("brk", 0x1F9, [.code]), ("halt", 0x1FA, [])]

/-- Stream instructions without suffixes. -/
def strPlain : List (String × Layout × Nat × List Role) :=
  [("amov", .str, 0x160, [rD, .src 37]), ("aadd", .str, 0x161, [rD, .src 37, .src 31]),
   ("abr", .strCtl, 0x163, [.src 37, .target]), ("aloop", .strCtl, 0x164, [.level, .start, .stop, .src 37]),
   ("amove", .str, 0x165, [rD, .src 37, .src 31]), ("agather", .str, 0x166, [rD, .src 37, .src 31, .src 25]),
   ("ascatter", .str, 0x167, [rD, .src 37, .src 31, .src 25]), ("asig", .str, 0x168, [.src 37]),
   ("await", .str, 0x169, [.src 37]), ("ahalt", .str, 0x16A, [])]

/-- Every mnemonic, which names may not use (R99). -/
def mnemonics : List String :=
  int2.map (·.1) ++ int1.map (·.1) ++ int3.map (·.1) ++ flt2.map (·.1) ++ flt1.map (·.1) ++ engPlain.map (·.1) ++
    ctlPlain.map (·.1) ++ strPlain.map (·.1) ++
    ["iadd", "isub", "icmp", "lea", "ffma", "fcmp", "red", "scan", "cvt", "amax", "qscale", "qpack", "qunpack", "bpsplit",
     "bpjoin", "perm", "vote", "match", "wsync", "mov", "movm", "movs", "ld", "st", "lda", "stl", "lds", "sts", "ldx",
     "stx", "ldc", "atom", "atoms", "fence", "mma", "accload", "accdrain", "accrel", "copy", "gmm", "binapp", "depdec",
     "tex", "texg", "attr", "ex" ++ "port", "coll", "acmp"]

/-- Forms with a fixed set of suffixes of their own. BPJOIN's operand has no element type, so its literal is a w64
(R370, R449). -/
def ownForm (m : String) (ss : List String) : Except Err Form :=
  let sat := fun (opc : Nat) (t : String) (s : Bool) => do
    let t ← intSuffix t
    let f := aluT (opc + t.code) [rD, rA, rB] (.int t)
    return (if s then { f with puts := [{ lo := 25, width := 1, val := 1 }] } else f)
  let slots := fun (opc : Nat) (rs : List Role) (ts : List LitTy) => (form .alu opc rs ts).opt "fs" 25 3 0
  match m, ss with
  | "iadd", [t] => sat 0 t false
  | "iadd", ["sat", t] => sat 0 t true
  | "isub", [t] => sat 8 t false
  | "isub", ["sat", t] => sat 8 t true
  | "icmp", [c, t] => do let t ← intSuffix t; return (aluT (72 + t.code) [rD, rA, rB] (.int t)).fn (← suf iccNames c)
  | "lea", [t] =>
    if t = "i64x1" || t = "i64" then .ok (aluT 0x53 [rD, rA, rB] (.int ⟨true, .b64⟩))
    else if t = "w64x1" || t = "w64" then .ok (aluT 0x57 [rD, rA, rB] (.int ⟨false, .b64⟩))
    else .error .unknownSuffix
  | "ffma", [t] => do let t ← fltSuffix t; return aluT (0x10C + (t.code - 8)) [rD, rA, rB, rC] (.flt t)
  | "fcmp", [c, t] => do
    let t ← fltSuffix t; return (aluT (0x118 + (t.code - 8)) [rD, rA, rB] (.flt t)).fn (← suf fccNames c)
  | "red", [o, t] => do let t ← tyOfSuffix t; return (aluT (0x180 + (← suf redNames o)) [rD, rA] t).fn t.code
  | "scan", [o, t] => do let t ← tyOfSuffix t; return (aluT (0x188 + (← suf redNames o)) [rD, rA] t).fn t.code
  | "scan", [o, "excl", t] => do
    let t ← tyOfSuffix t; return (aluT (0x188 + (← suf redNames o)) [rD, rA] t).fn (16 + t.code)
  | "cvt", [d, s] => do
    let d ← tyOfName d
    let s ← tyOfName s
    return { aluT (0x190 + s.code) [rD, rA] s with puts := [{ lo := 25, width := 4, val := d.code }] }
  | "amax", [t] => do let t ← fltSuffix t; return (aluT 0x1A0 [rD, rA, rB] (.flt t)).fn t.code
  | "qscale", [] => .ok (slots 0x1A1 [rD, rA] [f32L])
  | "qpack", [] => .ok (slots 0x1A2 [rD, rA, rB] [f32L, .slot])
  | "qunpack", [] => .ok (slots 0x1A3 [rD, rA, rB] [w32L, .slot])
  | "bpsplit", [] => .ok (slots 0x1A4 [rD, rA] [i8L])
  | "bpjoin", [] => .ok (slots 0x1A5 [rD, rA] [w64L])
  | "perm", [t] => do let t ← tyOfSuffix t; return (form .alu 0x1A6 [rD, rA, rB] [.of t, w64L]).fn t.code
  | "vote", [v] => do
    return (form .alu 0x1A7 [rD, rA] [w64L]).fn
      (← suf [("all", 0), ("any", 1), ("ballot", 2), ("uniform", 3)] v)
  | "match", [t] => do let t ← tyOfSuffix t; return (aluT 0x1A8 [rD, rA] t).fn t.code
  | "wsync", [] => .ok (form .alu 0x1A9 [rA] [w64L])
  | "mov", [t] => do let t ← tyOfSuffix t; return (aluT 0x1AA [rD, rA] t).fn t.code
  | "movm", [t] => do
    let t ← tyOfSuffix t
    return { aluT 0x1AB [.maskReg, rA] t with puts := [{ lo := 25, width := 2, val := 3 - t.width.code }] }
  | "movs", [] => .ok (form .alu 0x1AC [rD, .special] [])
  | "ld", [z] => memForm 0x1B0 false z
  | "st", [z] => memForm 0x1B1 true z
  | "lda", [z] => memForm 0x1B2 false z
  | "stl", [z] => memForm 0x1B3 true z
  | "lds", [z] => memForm 0x1B4 false z
  | "sts", [z] => memForm 0x1B5 true z
  | "ldx", [z] => memForm 0x1B6 false z
  | "stx", [z] => memForm 0x1B7 true z
  | "ldc", [z] => memForm 0x1B8 false z
  | "atom", [o, z] => do atomForm 0x1B9 (← suf aopNames o) 0 z
  | "atom", [o, k, z] => do atomForm 0x1B9 (← suf aopNames o) (← suf ordNames k) z
  | "atoms", [o, z] => do atomForm 0x1BA (← suf aopNames o) 0 z
  | "atoms", [o, k, z] => do atomForm 0x1BA (← suf aopNames o) (← suf ordNames k) z
  | "fence", [] => .ok (form .mem 0x1BB [] [])
  | "mma", [] => .ok (form .mat 0x1C0 [rD, rA, rB] [w64L, w64L])
  | "accload", [] => .ok (form .mat 0x1C1 [.dst 25, rD, rA] [w64L])
  | "accdrain", [] => .ok (form .mat 0x1C2 [rD, rA, rB] [w64L, w64L])
  | "accrel", [] => .ok (form .mat 0x1C3 [rD] [])
  | "copy", [p, z] => do
    let p ← suf [("gg", 0), ("gs", 4), ("sg", 8), ("ss", 12)] p
    return (form .eng 0x1C8 [rD, rA, rB, rN] [w64L, w64L]).cmd (p + (← suf sizeNames z))
  | "gmm", [v] => do
    let v ← suf [("v1", 0), ("v2", 1), ("v3", 2), ("v4", 3)] v
    return { form .eng 0x1D6 [rD, rA, rB, rN] [w64L, w64L] with
      puts := [{ lo := 2, width := 2, val := v }], opts := [{ name := "fs", lo := 4, width := 3, less := 0 }] }
  | "binapp", [o, z] => do
    let o ← suf aopNames o
    if o = 9 then .error .unknownSuffix
    let w ← atomSize o z
    return (form .eng 0x1D7 [rA, rB, rN] [w64L, w64L]).cmd (o + 16 * (w - 2))
  | "depdec", [] => .ok ((form .eng 0x1DF [rA, rB] [w64L, w64L]).cmd 0)
  | "depdec", ["set"] => .ok ((form .eng 0x1DF [rA, rB] [w64L, w64L]).cmd 1)
  | "tex", [] => .ok ((form .eng 0x1E0 [rD, rA, rB, rN] [f32L, f32L]).cmd 0)
  | "tex", [l] => do
    return (form .eng 0x1E0 [rD, rA, rB, rN] [f32L, f32L]).cmd (← suf [("imp", 0), ("bias", 1), ("lvl", 2)] l)
  | "texg", [c] => do
    return (form .eng 0x1E1 [rD, rA, rB, rN] [f32L, f32L]).cmd (4 * (← suf [("r", 0), ("g", 1), ("b", 2), ("a", 3)] c))
  | "texg", [l, c] => do
    let l ← suf [("imp", 0), ("bias", 1), ("lvl", 2)] l
    return (form .eng 0x1E1 [rD, rA, rB, rN] [f32L, f32L]).cmd
      (l + 4 * (← suf [("r", 0), ("g", 1), ("b", 2), ("a", 3)] c))
  | "attr", [] => .ok (form .eng 0x1E2 [rD, rA, rB] [w64L, f32L])
  | "coll", ["ag", t] => do
    return (form .eng 0x1E6 [rD, rA, rB, rN] [w64L, w64L]).cmd (2 + 16 * (← suf collTypes t))
  | "coll", ["bc", t] => do
    return (form .eng 0x1E6 [rD, rA, rB, rN] [w64L, w64L]).cmd (3 + 16 * (← suf collTypes t))
  | "coll", [k, o, t] => do
    let k ← suf [("ar", 0), ("rs", 1)] k
    let o ← suf [("add", 0), ("min", 1), ("max", 2)] o
    return (form .eng 0x1E6 [rD, rA, rB, rN] [w64L, w64L]).cmd (k + 4 * o + 16 * (← suf collTypes t))
  | "amov", ["hi"] => .ok ((form .str 0x160 [rD, .src 37] [w64L]).fn 1)
  | "acmp", [c] => do return (form .str 0x162 [rD, .src 37, .src 31] [w64L, w64L]).fn (← suf iccNames c)
  | _, _ => .error .unknownSuffix
where
  collTypes : List (String × Nat) := [("f32", 0), ("f64", 1), ("bf16", 2), ("f16", 3), ("i32", 4), ("i64", 5)]

/-- EXPORT; `Scope.outTypes` gives A its type, which follows the target (R308, R449). -/
def outForm (depth : Bool) : Form :=
  { form .eng 0x1E3 [rA, rB] [f32L, f32L] with
    puts := if depth then [{ lo := 6, width := 1, val := 1 }] else [],
    opts := [{ name := "tgt", lo := 2, width := 4, less := 0 }] }

/-- The form of a mnemonic with its suffixes (R106). -/
def formOf (m : String) (ss : List String) : Except Err Form :=
  match int2.lookup m, int1.lookup m, int3.lookup m, flt2.lookup m, flt1.lookup m, ss with
  | some r, _, _, _, _, [t] => do let t ← intSuffix t; return aluT (8 * r + t.code) [rD, rA, rB] (.int t)
  | _, some r, _, _, _, [t] => do let t ← intSuffix t; return aluT (8 * r + t.code) [rD, rA] (.int t)
  | _, _, some r, _, _, [t] => do let t ← intSuffix t; return aluT (8 * r + t.code) [rD, rA, rB, rC] (.int t)
  | _, _, _, some r, _, [t] => do
    let t ← fltSuffix t; return aluT (0x100 + 4 * r + (t.code - 8)) [rD, rA, rB] (.flt t)
  | _, _, _, _, some r, [t] => do
    let t ← fltSuffix t; return aluT (0x100 + 4 * r + (t.code - 8)) [rD, rA] (.flt t)
  | _, _, _, _, _, _ =>
    match engPlain.lookup m, ctlPlain.lookup m, strPlain.lookup m, ss with
    | some (opc, rs, t), _, _, [] => .ok (engOpts m (form .eng opc rs [t, t]))
    | _, some (opc, rs), _, [] => .ok (form .ctl opc rs [w64L])
    | _, _, some (l, opc, rs), [] =>
      let f := form l opc rs [w64L, w64L, w64L]
      .ok (if m = "asig" || m = "await" then f.opt "sem" 25 3 0 else f)
    | _, _, _, _ =>
      if m = "ex" ++ "port" then
        match ss with
        | [] => .ok (outForm false)
        | ["depth"] => .ok (outForm true)
        | _ => .error .unknownSuffix
      else if mnemonics.contains m then ownForm m ss
      else .error .unknownMnemonic

/-! ## Filling the fields (R78, R100 to R105) -/

/-- The fields of a layout by name (R105), but OFF, which has its own rules: start and width. -/
def fieldAt (l : Layout) (name : String) : Option (Nat × Nat) :=
  let common := [("e", 61, 1), ("pm", 49, 3), ("a", 37, 6)]
  let routes := [("xa", 16, 7), ("xb", 9, 7)]
  let tbl : List (String × Nat × Nat) := match l with
    | .alu => common ++ routes ++
        [("d", 43, 6), ("b", 31, 6), ("c", 25, 6), ("fn", 25, 6), ("hold", 23, 2), ("xc", 2, 7), ("rm", 0, 2)]
    | .mem => common ++ routes ++
        [("d", 43, 6), ("b", 31, 6), ("pn", 24, 1), ("ch", 23, 1), ("w", 0, 3), ("aop", 27, 4), ("ord", 25, 2)]
    | .mat => common ++ routes ++
        [("s", 43, 6), ("b", 31, 6), ("d", 25, 6), ("hold", 23, 2), ("fs", 6, 3), ("kc", 2, 4), ("pn", 0, 1)]
    | .eng => common ++ routes ++
        [("t", 43, 6), ("b", 31, 6), ("n", 25, 6), ("hold", 23, 2), ("cmd", 2, 7), ("pn", 0, 1)]
    | .ctl => common ++ [("d", 43, 6), ("cf", 33, 4), ("len2", 23, 10), ("xa", 16, 7)]
    | .str => common ++ routes ++
        [("d", 43, 6), ("b", 31, 6), ("c", 25, 6), ("fn", 25, 6), ("hold", 23, 2), ("xc", 2, 7), ("rm", 0, 2)]
    | .strCtl => common ++ [("d", 43, 6), ("cf", 33, 4), ("len2", 23, 10), ("xa", 16, 7)]
  tbl.lookup name

/-- The fixed values of unread fields (R78). -/
def fixedFields (f : Form) : List Put :=
  let reg := fun lo v => ({ lo := lo, width := 6, val := v } : Put)
  let common := [reg 43 1, reg 37 0x14]
  let readsFn := [0x160, 0x161, 0x162, 0x165, 0x168, 0x169, 0x16A].contains f.opc || f.opc < 0x10
    || (0x48 ≤ f.opc && f.opc ≤ 0x57) || (0x118 ≤ f.opc && f.opc ≤ 0x11B)
    || (0x180 ≤ f.opc && f.opc ≤ 0x1A8) || (0x1AA ≤ f.opc && f.opc ≤ 0x1AC)
  match f.layout with
  | .alu => common ++ [reg 31 0x14] ++ (if readsFn then [] else [reg 25 0x14])
  | .str => common ++ [reg 31 0x14] ++ (if readsFn then [] else [reg 25 0x14])
  | .mem => common ++ [reg 31 0x14]
  | .mat => common ++ [reg 31 0x14, reg 25 1]
  | .eng => common ++ [reg 31 0x14, reg 25 1]
  | .ctl => common
  | .strCtl => common

/-- An offset, or the relocation that carries it. -/
structure Off where
  val : Int
  rel : Option Rel
  deriving DecidableEq, Repr

/-- What the parts of a statement have set so far; `byPos` are the fields set by position, `offPos` whether OFF is one. -/
structure Fill where
  puts  : List Put
  byPos : List Put
  lit   : Option Lit
  off   : Option Off
  offPos : Bool
  fmt   : Option String
  start : Option (Place × Int)
  deriving DecidableEq, Repr

def Fill.empty : Fill :=
  { puts := [], byPos := [], lit := none, off := none, offPos := false, fmt := none, start := none }

/-- Do two settings of overlapping bits disagree? -/
def Put.clash (a b : Put) : Bool :=
  let lo := max a.lo b.lo
  let hi := min (a.lo + a.width) (b.lo + b.width)
  lo < hi && a.val / 2 ^ (lo - a.lo) % 2 ^ (hi - lo) ≠ b.val / 2 ^ (lo - b.lo) % 2 ^ (hi - lo)

def Put.meets (a b : Put) : Bool := max a.lo b.lo < min (a.lo + a.width) (b.lo + b.width)

/-- Set a field; a field set twice is an error where the spellings disagree (R105). -/
def Fill.put (f : Fill) (p : Put) : Except Err Fill :=
  if p.val ≥ 2 ^ p.width then .error .fieldRange
  else if f.puts.any p.clash then .error .fieldTwice
  else .ok { f with puts := p :: f.puts }

/-- Set a field by position. -/
def Fill.pos (f : Fill) (p : Put) : Except Err Fill := do
  let f ← f.put p
  return { f with byPos := p :: f.byPos }

/-- Set a field by name: not one that stands by position (R105). -/
def Fill.named (f : Fill) (p : Put) : Except Err Fill :=
  if f.byPos.any p.meets then .error .fieldTwice else f.put p

/-- One literal serves every field that names lit (R101). -/
def Fill.setLit (f : Fill) (l : Lit) : Except Err Fill :=
  match f.lit with
  | none => .ok { f with lit := some l }
  | some x => if x = l then .ok f else .error .twoLiterals

/-- Set OFF by position. -/
def Fill.posOff (f : Fill) (o : Off) : Except Err Fill :=
  if f.off.isSome then .error .fieldTwice else .ok { f with off := some o, offPos := true }

/-- Set OFF by name: not where it stands by position, nor twice with values that disagree (R105). -/
def Fill.nameOff (f : Fill) (o : Off) : Except Err Fill :=
  match f.off with
  | none => .ok { f with off := some o }
  | some x => if f.offPos || x ≠ o then .error .fieldTwice else .ok f

/-- A route after an operand (R102): its code and the words after it. -/
def routeAt : List Tok → Except Err (Option Nat × List Tok)
  | .mark ':' :: .word w :: .mark '.' :: .num k :: r => do
    let k ← constOf k
    if k ≥ 32 then .error .route
    if w = "rot" then return (some (0x20 + k), r)
    else if w = "bc" then return (some (0x40 + k), r)
    else if w = "xor" then return (some (0x60 + k), r)
    else .error .route
  | .mark ':' :: .word "idx" :: .mark '.' :: .word n :: r =>
    match indexed "n" 32 n with
    | some j => if 16 ≤ j then .ok (some (0x10 + (j - 16)), r) else .error .route
    | none => .error .route
  | .mark ':' :: _ => .error .route
  | r => .ok (none, r)

/-- The value of a field of register codes: a name, or a number. -/
def Scope.regField (c : Scope) (stream : Bool) (name : String) (ts : List Tok) : Except Err Nat :=
  match ts with
  | [.word s] => match if ["a", "b", "c"].contains name then srcCode stream s else dstCode stream s with
    | some v => .ok v
    | none => natural
  | _ => natural
where natural := do
    let v ← c.numberOf ts
    if v < 0 then .error .fieldRange else return v.toNat

/-- A source operand at `lo` with its route at `xlo`, and the words after it (R100, R102). -/
def Scope.source (c : Scope) (form : Form) (lo : Nat) (route : Option Nat) (k : Nat) (f : Fill) (ts : List Tok) :
    Except Err (Fill × List Tok) :=
  match ts with
  | .mark '#' :: r => do
    let f ← f.pos { lo := lo, width := 6, val := 0x13 }
    let f ← f.setLit (← c.literal (form.tys.getD k w64L) r)
    return (f, [])
  | .word s :: r =>
    match srcCode form.layout.isStream s with
    | none => .error .operand
    | some v => do
      let f ← f.pos { lo := lo, width := 6, val := v }
      let (x, r) ← routeAt r
      match x, route with
      | none, _ => return (f, r)
      | some _, none => .error .route
      | some x, some xlo => return (← f.put { lo := xlo, width := 7, val := x }, r)
  | _ => .error .operand

def allUsed (x : Fill × List Tok) : Except Err Fill := if x.2.isEmpty then .ok x.1 else .error .operand

/-- The distance in words from a statement to a block label (R100), or the relocation that carries it (R117).
DESIGN CHOICE, unsafe (log 61). -/
def Scope.targetOff (c : Scope) (fmt : Option String) (ts : List Tok) : Except Err (Off × Place) :=
  match ts with
  | [.word s] =>
    let rel := fun (_ : Unit) =>
      ({ val := 0, rel := some { sym := s, type := if fmt = some "x" then .ctl32 else .ctl16, add := 0 } } : Off)
    match c.place s with
    | .sec k p =>
      if !c.isBlock s then .error .target
      else if k = c.sec then .ok ({ val := ((p : Int) - c.here) / 4, rel := none }, .sec k p)
      else .ok (rel (), .sec k p)
    | .loader => .ok (rel (), .loader)
    | .abs _ => .error .target
    | .unknown => if c.strict then .error .unknownName else .ok ({ val := 0, rel := none }, .unknown)
  | _ => .error .target

/-- A byte offset of a MEM operand, or the relocation that carries it (R100, R117). -/
def Scope.memOff (c : Scope) (fmt : Option String) (ts : List Tok) : Except Err Off := do
  let v ← c.eval (← exprOf ts)
  if v.isNum then return { val := v.add, rel := none }
  else if v.half ≠ .whole || v.minus then .error .relocation
  else return { val := 0, rel := some (← c.rel (if fmt = some "x" then .litLo else .mem12) v) }

/-- One positional operand (R100). What follows a base is one expression, sign and all: `q0-8+4` is q0 + (-8 + 4).
DESIGN CHOICE, unsafe (log 61). -/
def Scope.operand (c : Scope) (form : Form) (f : Fill) (r : Role) (ts : List Tok) : Except Err Fill :=
  let stream := form.layout.isStream
  match r with
  | .dst lo => match ts with
    | [.word s] => match dstCode stream s with
      | some v => f.pos { lo := lo, width := 6, val := v }
      | none => .error .operand
    | _ => .error .operand
  | .range lo => match ts with
    | [.word s] => match indexed "n" 32 s with
      | some v => f.pos { lo := lo, width := 6, val := 0x20 + v }
      | none => .error .operand
    | _ => .error .operand
  | .src lo => do
    let k := if lo = 37 then 0 else if lo = 31 then 1 else 2
    allUsed (← c.source form lo none k f ts)
  | .routed lo xlo k => do allUsed (← c.source form lo (some xlo) k f ts)
  | .mem => do
    let (f, r) ← c.source form 37 (some 16) 0 f ts
    match r with
    | [] => return f
    | .mark s :: _ => if s ≠ '+' && s ≠ '-' then .error .operand else f.posOff (← c.memOff f.fmt r)
    | _ => .error .operand
  | .target => do f.posOff (← c.targetOff f.fmt ts).1
  | .start => do
    let (o, p) ← c.targetOff f.fmt ts
    let f ← f.posOff o
    return { f with start := some (p, 0) }
  | .stop => do
    let (_, p) ← c.targetOff none ts
    match f.start, p with
    | some (.sec k a, _), .sec l b =>
      let d : Int := ((b : Int) - a) / 4
      if k ≠ l then .error .target
      else if 1 ≤ d && d ≤ 1023 then f.pos { lo := 23, width := 10, val := d.toNat }
      else if c.strict then .error .target else f.pos { lo := 23, width := 10, val := 1 }
    | _, _ => if c.strict then .error .target else f.pos { lo := 23, width := 10, val := 1 }
  | .loopReg => match ts with
    | [.word s] => match indexed "lc" 4 s with
      | some k => f.pos { lo := 35, width := 2, val := k }
      | none => .error .operand
    | _ => .error .operand
  | .level => do
    let v ← c.numberOf ts
    if v < 0 then .error .fieldRange else f.pos { lo := 35, width := 2, val := v.toNat }
  | .maskReg => .error .operand
  | .special => match ts with
    | [.word s] => match indexIn specials s with
      | some k => f.pos { lo := 25, width := 6, val := k }
      | none => .error .operand
    | _ => .error .operand
  | .ctlReg => match ts with
    | [.word "fpstat"] => f.posOff { val := 1, rel := none }
    | [.word "fpen"] => f.posOff { val := 2, rel := none }
    | [.word "gstat"] => f.posOff { val := 3, rel := none }
    | _ => do
      let v ← c.numberOf ts
      if 0 ≤ v && v < 4096 then f.posOff { val := v, rel := none } else .error .fieldRange
  | .code => do
    let v ← c.numberOf ts
    if 0 ≤ v && v < 65536 then f.posOff { val := v, rel := none } else .error .fieldRange
  | .handleOrAll => match ts with
    | [.word "all"] => f.pos { lo := 2, width := 1, val := 1 }
    | _ => do allUsed (← c.source form 37 (some 16) 0 f ts)

/-- MOVM's two directions (R418). -/
def Scope.movm (c : Scope) (form : Form) (f : Fill) : List (List Tok) → Except Err Fill
  | [[.word x], y] =>
    match indexed "m" 8 x with
    | some k => do
      let f ← f.pos { lo := 28, width := 3, val := k }
      c.operand form f rA y
    | none => match y with
      | [.word y] => match indexed "m" 8 y with
        | some k => do
          let f ← c.operand form f rD [.word x]
          let f ← f.pos { lo := 28, width := 3, val := k }
          f.put { lo := 27, width := 1, val := 1 }
        | none => .error .operand
      | _ => .error .operand
  | [] => .ok f
  | _ => .error .operand

/-- The positional operands in order; a branch with one operand is unconditional (R348, R371). -/
def Scope.operands (c : Scope) (form : Form) (f : Fill) (ops : List (List Tok)) : Except Err Fill :=
  if form.roles.head? = some .maskReg then c.movm form f ops
  else
    let rs := if form.roles.drop 1 = [.target] && ops.length = 1 && form.roles.head? ≠ some rD then [.target]
      else form.roles
    if ops.length > rs.length then .error .operand
    else (List.zip rs ops).foldlM (fun f (x : Role × List Tok) => c.operand form f x.1 x.2) f

/-- OFF by name: a number, or the spelling of the layout (R100, R105). -/
def Scope.assignOff (c : Scope) (form : Form) (f : Fill) (ts : List Tok) : Except Err Fill := do
  match form.layout, ts with
  | .mem, _ => f.nameOff (← c.memOff f.fmt ts)
  | .ctl, [.word _] | .strCtl, [.word _] =>
    match c.targetOff f.fmt ts with
    | .ok (o, _) => f.nameOff o
    | .error _ => f.nameOff { val := ← c.numberOf ts, rel := none }
  | .ctl, _ | .strCtl, _ => f.nameOff { val := ← c.numberOf ts, rel := none }
  | _, _ => .error .fieldUnknown

/-- A source field by name: a register with its route, a literal, or a number (R100, R102, R105). -/
def Scope.assignSource (c : Scope) (form : Form) (f : Fill) (name : String) (lo : Nat) (ts : List Tok) : Except Err Fill :=
  let k := if name = "a" then 0 else if name = "b" then 1 else 2
  match ts with
  | .mark '#' :: r => do
    let f ← f.named { lo := lo, width := 6, val := 0x13 }
    f.setLit (← c.literal (form.tys.getD k w64L) r)
  | .word s :: .mark ':' :: r => do
    let some v := srcCode form.layout.isStream s | .error .operand
    let (x, r) ← routeAt (.mark ':' :: r)
    let f ← f.named { lo := lo, width := 6, val := v }
    match x, fieldAt form.layout ("x" ++ name) with
    | some x, some (xlo, w) => if r.isEmpty then f.put { lo := xlo, width := w, val := x } else .error .route
    | _, _ => .error .route
  | _ => do f.named { lo := lo, width := 6, val := ← c.regField form.layout.isStream name ts }

/-- A field assignment (R103 to R105). -/
def Scope.assign (c : Scope) (form : Form) (f : Fill) (name : String) (ts : List Tok) : Except Err Fill :=
  let pick := fun (l : List (String × Nat)) => match ts with
    | [.word s] => l.lookup s
    | _ => none
  let number := do
    let v ← c.numberOf ts
    if v < 0 then Except.error Err.fieldRange else Except.ok v.toNat
  let spelt := fun (l : List (String × Nat)) => match pick l with | some v => pure v | none => number
  match form.opts.find? (·.name = name) with
  | some o => do
    let v ← number
    if v < o.less then .error .fieldRange
    f.named { lo := o.lo, width := o.width, val := v - o.less }
  | none =>
    if name = "fmt" then .ok f
    else if name = "off" then c.assignOff form f ts
    else match fieldAt form.layout name with
      | none => .error .fieldUnknown
      | some (lo, width) =>
        if ["a", "b", "c"].contains name then c.assignSource form f name lo ts
        else do
          let v ←
            if name = "hold" then spelt [("a", 1), ("b", 2), ("c", 3)]
            else if name = "rm" then spelt [("rn", 0), ("rz", 1), ("rd", 2), ("ru", 3)]
            else if name = "fn" && form.roles.contains .special then
              spelt (specials.zip (List.range specials.length))
            else if ["xa", "xb", "xc"].contains name then
              match ts with
              | .mark ':' :: _ => routeNumber ts
              | .word _ :: .mark '.' :: _ => routeNumber (.mark ':' :: ts)
              | _ => number
            else if width = 6 && name ≠ "fn" then c.regField form.layout.isStream name ts
            else number
          if name = "xa" || name = "xb" || name = "xc" then f.put { lo := lo, width := width, val := v }
          else f.named { lo := lo, width := width, val := v }
where routeNumber (ts : List Tok) : Except Err Nat := do
  match ← routeAt ts with
  | (some x, []) => return x
  | _ => .error .route

/-! ## Statements (R99) -/

/-- A source line in its parts. `head` is the mnemonic or, with its dot, the directive. -/
structure Line where
  label : Option String
  mask  : Option (Bool × Nat)
  head  : Option String
  sufs  : List String
  args  : List (List Tok)
  bang  : Bool
  deriving DecidableEq, Repr

/-- Words between commas that stand outside parentheses. -/
def commas : Nat → List Tok → List (List Tok)
  | _, [] => []
  | d, t :: ts =>
    let rest := commas (match t with | .mark '(' => d + 1 | .mark ')' => d - 1 | _ => d) ts
    if t = .mark ',' && d = 0 then [] :: (if rest.isEmpty then [[]] else rest)
    else match rest with
      | [] => [[t]]
      | x :: xs => (t :: x) :: xs

/-- Suffixes after a mnemonic, and the words after them. -/
def suffixes : List Tok → List String × List Tok
  | .mark '.' :: .word s :: r => let (ss, r) := suffixes r; (s :: ss, r)
  | r => ([], r)

/-- The parts of a line (R99). -/
def parseLine (ts : List Tok) : Except Err Line := do
  let (label, ts) := match ts with
    | .word l :: .mark ':' :: r => (some l, r)
    | r => (none, r)
  let (mask, ts) ← (match ts with
    | .mark '[' :: .word m :: .mark ']' :: r =>
      match indexed "m" 8 m with | some k => Except.ok (some (false, k), r) | none => .error .statement
    | .mark '[' :: .mark '!' :: .word m :: .mark ']' :: r =>
      match indexed "m" 8 m with | some k => .ok (some (true, k), r) | none => .error .statement
    | .mark '[' :: _ => .error .statement
    | r => .ok (none, r))
  let bang := ts.getLast? = some (.mark '!')
  let body := if bang then ts.dropLast else ts
  let line := fun h (ss : List String) r =>
    ({ label := label, mask := mask, head := h, sufs := ss, args := commas 0 r, bang := bang } : Line)
  match body with
  | [] => if mask.isSome || bang then .error .statement else return line none [] []
  | .mark '.' :: .word d :: r => if mask.isSome || bang then .error .statement else return line (some ("." ++ d)) [] r
  | .word m :: r => let (ss, r) := suffixes r; return line (some m) ss r
  | _ => .error .statement

/-- Field assignments among the arguments of a statement. -/
def splitArgs (args : List (List Tok)) : List (List Tok) × List (String × List Tok) :=
  args.foldr (fun a (acc : List (List Tok) × List (String × List Tok)) =>
    match a with
    | .word n :: .mark '=' :: v => (acc.1, (n, v) :: acc.2)
    | _ => (a :: acc.1, acc.2)) ([], [])

/-- Positional operands stand before the assignments (R99). -/
def inOrder : Bool → List (List Tok) → Bool
  | _, [] => true
  | seen, a :: as =>
    match a with
    | .word _ :: .mark '=' :: _ => inOrder true as
    | _ => !seen && inOrder seen as

/-! ## One instruction (R104 to R106) -/

/-- An instruction of a statement, its words, and the relocations at its first word. -/
structure Out where
  instr : Instr
  words : List W32
  rels  : List Rel
  deriving DecidableEq, Repr

def Short.of (f : Alu) (b : Src) : Short :=
  { e := f.e, d := f.d, a := f.a, b := b, pm := f.pm, ha := f.hold = .a }

/-- Can an ALU instruction stand in S format (R74, R106)? -/
def aluShort (f : Alu) : Bool :=
  f.lit.isNone && f.xa = .own && f.xb = .own && f.xc = .own && f.rm = .ne && (f.hold = .off || f.hold = .a)

def memShort (f : Mem) : Option (Width × Short) :=
  if f.lit.isNone && f.xa = .own && f.xb = .own && f.off = 0 && !f.pn && !f.ch && (f.w = .b32 || f.w = .b64) then
    some (f.w, { e := f.e, d := f.d, a := f.a, b := f.b, pm := f.pm, ha := false })
  else none

def whenShort (f : Alu) (k : Short → Instr) : Option Instr := if aluShort f then some (k (Short.of f f.b)) else none

/-- The S form of an instruction, where R96 has one that holds every field (R106). -/
def shortForm : Instr → Option Instr
  | .nop e => some (.nopS e)
  | .mov (.int ⟨false, .b64⟩) f => whenShort f .movS
  | .ld f => (memShort f).map fun x => if x.1 = .b64 then .ldS64 x.2 else .ldS32 x.2
  | .st f => (memShort f).map fun x => if x.1 = .b64 then .stS64 x.2 else .stS32 x.2
  | .lds f => (memShort f).map fun x => if x.1 = .b64 then .ldsS64 x.2 else .ldsS32 x.2
  | .sts f => (memShort f).map fun x => if x.1 = .b64 then .stsS64 x.2 else .stsS32 x.2
  | .iadd false t f => whenShort f (.iaddS t)
  | .isub false t f => whenShort f (.isubS t)
  | .imul t f => whenShort f (.imulS t)
  | .andI t f => whenShort f (.andS t)
  | .orI t f => whenShort f (.orS t)
  | .xorI t f => whenShort f (.xorS t)
  | .shl t f => whenShort f (.shlS t)
  | .shr t f => whenShort f (.shrS t)
  | .imin t f => whenShort f (.iminS t)
  | .imax t f => whenShort f (.imaxS t)
  | .fadd t f => whenShort f (.faddS t)
  | .fsub t f => whenShort f (.fsubS t)
  | .fmul t f => whenShort f (.fmulS t)
  | .fmin t f => whenShort f (.fminS t)
  | .fmax t f => whenShort f (.fmaxS t)
  | _ => none

/-- Fields laid over a word. -/
def overlay (w : Nat) (ps : List Put) : Nat :=
  ps.foldl (fun w p => w - w / 2 ^ p.lo % 2 ^ p.width * 2 ^ p.lo + p.val * 2 ^ p.lo) w

/-- The words of an L instruction, or with a literal of an X instruction (R72). -/
def longWords (opc body : Nat) (lit : Option Nat) : List W32 :=
  let w := (if lit.isSome then 2 else 1) * 2 ^ 62 + opc * 2 ^ 52 + body
  [w32 (w / 2 ^ 32), w32 w] ++ (lit.map w32).toList

/-- The fates of R97. A control register's number is none of them: it is judged when it is used (R380).
DEDUCED, unsafe (log 62). -/
def asmCheck : Instr → Option Bad
  | .csrr .. => none
  | .csrw _ f => (Instr.csrw 1 f).check
  | i => i.check

/-- The instruction of an L or X word, refused where R97 marks it ILLEGAL (R109). -/
def decoded (ws : List W32) : Except Err Instr :=
  let r := match ws with
    | w0 :: w1 :: lit => decodeOpc (w0 ++ w1) lit.head?
    | _ => .error .truncated
  match r with
  | .ok i => match asmCheck i with | none => .ok i | some b => .error (.illegal b)
  | .error b => .error (.illegal b)

/-- The bits of OFF in a layout (R82, R86). -/
def offPuts (l : Layout) (v : Int) : List Put :=
  match l with
  | .mem =>
    let x := wrap 12 v
    [{ lo := 25, width := 6, val := x / 64 }, { lo := 3, width := 6, val := x % 64 }]
  | _ => [{ lo := 0, width := 16, val := wrap 16 v }]

/-- The least and the first value above the greatest that OFF holds (R106). -/
def offFits (form : Form) (v : Int) : Bool :=
  if form.layout = .mem then -2048 ≤ v && v < 2048
  else if form.roles.any (fun r => r = .code || r = .ctlReg) then 0 ≤ v && v < 65536
  else -32768 ≤ v && v < 32768

/-- The instruction of filled fields in the shortest format that holds them, or in the one forced (R106).
DESIGN CHOICE, unsafe (log 61). -/
def build (form : Form) (f : Fill) : Except Err Out := do
  let off := f.off.getD { val := 0, rel := none }
  let usesOff := form.layout = .mem || form.layout = .ctl || form.layout = .strCtl
  let longOff := usesOff && !offFits form off.val
  let litRel := match off.rel with | some r => r.type = .litLo || r.type = .ctl32 | none => false
  let needX := f.lit.isSome || longOff || litRel
  if f.fmt = some "l" && needX then .error .format
  if f.fmt = some "s" && off.rel.isSome then .error .format
  -- AOP and ORD lie over OFF[11:6] (R82): a word holds one of them
  if off.rel.isNone && form.layout = .mem && f.off.isSome && !longOff &&
      (offPuts form.layout off.val).any (fun p => f.puts.any p.clash) then .error .fieldTwice
  if (form.opc = 0x1B9 || form.opc = 0x1BA) && (off.val ≠ 0 || off.rel.isSome) then .error .fieldTwice
  let x := needX || f.fmt = some "x"
  let puts := fixedFields form ++ f.puts.reverse
  let puts := if form.layout.isStream then puts ++ [{ lo := 61, width := 1, val := 0 }] else puts
  let puts := if x || off.val = 0 then puts else puts ++ offPuts form.layout off.val
  let lit ←
    if !x then pure none
    else if usesOff then
      if f.lit.isSome then Except.error (Err.illegal .litOutsideX)
      else if -(2 ^ 31 : Int) ≤ off.val && off.val < (2 ^ 31 : Int) then pure (some (wrap 32 off.val))
      else .error .fieldRange
    else pure (some ((f.lit.map (·.bits)).getD 0))
  let rels := off.rel.toList ++ (match f.lit with | some l => l.rel.toList | none => [])
  let ws := longWords form.opc (overlay 0 puts) lit
  let i ← decoded ws
  let asIs : Out := { instr := i, words := ws, rels := rels }
  let short := fun j => ({ instr := j, words := encode j, rels := rels } : Out)
  match shortForm i with
  | some j =>
    if f.fmt = some "s" then return short j
    else if f.fmt = none && rels.isEmpty then return short j
    else return asIs
  | none => if f.fmt = some "s" then .error .format else return asIs

/-- EXPORT's source types: A is f16x4 for the targets 0 to 7, as `tgt=` or the low bits of `cmd=` name them, 0 where neither
stands (R78, R308, R449). -/
def Scope.outTypes (c : Scope) (form : Form) (named : List (String × List Tok)) : Except Err Form := do
  if form.opc ≠ 0x1E3 then return form
  let tgt ← (match named.find? (·.1 = "tgt"), named.find? (·.1 = "cmd") with
    | some (_, ts), _ => c.numberOf ts
    | none, some (_, ts) => do return (← c.numberOf ts) % 16
    | none, none => Except.ok 0)
  return (if tgt ≤ 7 then { form with tys := [.of (.flt .f16), f32L] } else form)

/-- A target in the own section, and the end of an LSETUP or ALOOP there, is a block label in whatever way its field is set,
also where it is left out (R109). -/
def Scope.targetOk (c : Scope) (form : Form) (f : Fill) : Bool :=
  let off := f.off.getD { val := 0, rel := none }
  let start := (c.here : Int) + 4 * off.val
  let len := match f.puts.find? (fun p => p.lo = 23) with | some p => p.val | none => 0
  let loops := form.roles.contains .stop
  !c.strict || off.rel.isSome || !(loops || form.roles.contains .target) ||
    (c.blockAt start && (!loops || c.blockAt (start + 4 * len)))

/-- The instruction of a statement (R99 to R106). -/
def Scope.instruction (c : Scope) (l : Line) : Except Err Out := do
  let some m := l.head | .error .statement
  let form ← formOf m l.sufs
  if !inOrder false l.args then .error .statement
  let (ops, named) := splitArgs l.args
  let fmt ← (match named.find? (·.1 = "fmt") with
    | none => Except.ok none
    | some (_, [.word s]) => if s = "s" || s = "l" || s = "x" then .ok (some s) else .error .format
    | some _ => .error .format)
  if named.any fun x => x.1 = "fmt" && some x.2 ≠ fmt.map fun s => [.word s] then .error .fieldTwice
  let form ← c.outTypes form named
  let f : Fill := { Fill.empty with fmt := fmt, puts := form.puts.reverse }
  let f ← c.operands form f ops
  let f ← named.foldlM (fun f (x : String × List Tok) => c.assign form f x.1 x.2) f
  let f ← (match l.mask with
    | none => Except.ok f
    | some (neg, k) =>
      if neg && (form.layout = .alu || form.layout = .ctl || form.layout.isStream) then .error .maskNegated
      else if (form.layout = .ctl || form.layout.isStream) && k ≠ 0 then .error .maskInCtl
      else do
        let f ← f.put { lo := 49, width := 3, val := k }
        if neg then f.put { lo := if form.layout = .mem then 24 else 0, width := 1, val := 1 } else return f)
  let f ← if l.bang then f.put { lo := 61, width := 1, val := 1 } else pure f
  if !c.targetOk form f then .error .target
  build form f

end Sys2Proof.Mladas
end

