-- ==== Sys2Proof/Machine/Assemble.lean ====
section
/-!
DEFINITION. The mladas assembler over a whole source (R108 to R112, R118 to R122): procedures, blocks and runs, sections
and directives, records, and the object it writes. Passes over the source repeat until every name stands still; the last
one reports errors.
-/

namespace Sys2Proof.Mladas

open Sys2Proof Sys2Proof.Machine Sys2Proof.Bof

/-! ## What a pass builds -/

/-- A symbol with the section it stands in; none for an absolute one. -/
structure Sym where
  name  : String
  kind  : SKind
  sec   : Option Nat
  value : Int
  size  : Nat
  deriving DecidableEq, Repr

/-- A row of the line table (R122): the instruction's offset, its source position, and whether it begins a run. -/
structure Row where
  addr : Nat
  file : String
  line : Nat
  col  : Nat
  rs   : Bool
  deriving DecidableEq, Repr

/-- A section as it grows. `recs` are the offsets of record headers with the names of their symbols. -/
structure Sec where
  name  : String
  kind  : Kind
  align : Nat
  size  : Nat
  bytes : List Byte
  rels  : List (Nat × Rel)
  recs  : List (Nat × String)
  rows  : List Row
  deriving DecidableEq, Repr

/-- A statement of a block with its source position. -/
structure Stmt where
  names : List String             -- labels that stand at it
  line : Line
  file : String
  row  : Nat
  col  : Nat
  deriving DecidableEq, Repr

/-- The open block: its label, where it starts, and its statements so far. -/
structure Blk where
  label : String
  names : List String             -- labels since its last statement
  opts  : List (List Tok)
  start : Nat
  entry : Bool
  stmts : List Stmt
  deriving DecidableEq, Repr

structure Proc where
  name   : String
  named  : Nat
  stream : Bool
  sec    : Nat
  start  : Nat
  blk    : Option Blk
  leaves : Bool            -- the last block closed does not fall through
  deriving DecidableEq, Repr

/-- An open `.wset` or `.grammar` record. -/
structure Rec where
  name  : String
  set   : Bool
  sec   : Nat
  start : Nat
  deriving DecidableEq, Repr

structure Asm where
  secs    : List Sec
  cur     : Nat
  syms    : List Sym
  proc    : Option Proc
  rec_    : Option Rec
  slots   : List (String × Nat)
  tables  : List (String × List Nat)
  globals : List String
  externs : List String
  loc     : Option (String × Nat × Nat)
  row     : Nat
  deriving DecidableEq, Repr

def Asm.empty : Asm :=
  { secs := [], cur := 0, syms := [], proc := none, rec_ := none, slots := [], tables := [], globals := [], externs := [],
    loc := none, row := 0 }

def Asm.sec (a : Asm) : Except Err Sec := match a.secs[a.cur]? with | some s => .ok s | none => .error .directive

def Asm.modSec (a : Asm) (f : Sec → Sec) : Asm := { a with secs := a.secs.modify a.cur f }

/-- What an earlier pass found: the symbols, and the names declared external. Once a pass is through, every name that is
defined is known. -/
structure Env where
  syms    : List Sym
  externs : List String
  known   : Bool
  deriving DecidableEq, Repr

def Env.empty : Env := { syms := [], externs := [], known := false }

def Env.find (e : Env) (s : String) : Option Sym := e.syms.find? fun x => x.name = s

/-- The scope of a statement. -/
def Asm.scope (a : Asm) (e : Env) (strict : Bool) (here : Nat) : Scope :=
  { place := fun s =>
      match e.find s with
      | some x =>
        match x.sec with
        | none => .abs x.value
        | some k => if x.kind = .wset then .loader else .sec k x.value.toNat
      | none => if e.known || a.externs.contains s then .loader else .unknown,
    isBlock := fun s => match e.find s with | some x => x.kind = .block | none => false,
    isSet := fun s => match e.find s with | some x => x.kind = .wset | none => false,
    anchor := fun k => (e.syms.find? fun x => x.sec = some k && x.kind ≠ .wset).map fun x => (x.name, x.value.toNat),
    blockAt := fun d => e.syms.any fun x => x.kind = .block && x.sec = some a.cur && x.value = d,
    sec := a.cur, here := here, strict := strict }

/-! ## Names (R99) -/

/-- The names of the special and control registers (R71, R380) are not reserved: they stand only where MOVS, CSRR and CSRW
read them. DESIGN CHOICE, unsafe (log 61). -/
def reserved (s : String) : Bool :=
  (srcCode false s).isSome || (srcCode true s).isSome || (dstCode false s).isSome || (indexed "m" 8 s).isSome || (indexed "lc" 4 s).isSome
    || fieldNames.contains s || mnemonics.contains s

def nameOf (ts : List Tok) : Except Err String :=
  match ts with
  | [.word s] => if reserved s then .error .reservedName else .ok s
  | _ => .error .directive

def namesOf (as : List (List Tok)) : Except Err (List String) := as.mapM nameOf

/-- Define a symbol; a second definition is an error. -/
def Asm.define (a : Asm) (x : Sym) : Except Err Asm :=
  if reserved x.name then .error .reservedName
  else if a.syms.any fun y => y.name = x.name then .error .duplicate
  else .ok { a with syms := a.syms ++ [x] }

/-- A label stands where its statement begins: in an open block at the next instruction, else at the end of its section so
far (R99). DESIGN CHOICE, unsafe (log 61). -/
def Asm.label (a : Asm) (l : Option String) : Except Err Asm := do
  match l with
  | none => return a
  | some n =>
    match a.proc with
    | some p =>
      match p.blk with
      | some b =>
        if a.cur = p.sec then return { a with proc := some { p with blk := some { b with names := b.names ++ [n] } } }
      | none => pure ()
    | none => pure ()
    let s ← a.sec
    a.define { name := n, kind := .object, sec := some a.cur, value := s.size, size := 0 }

/-! ## Blocks (R108 to R110) -/

/-- The canonical NOP, which pads (R110). -/
def padWord : W32 := 0x00015140

def padBytes (n : Nat) : List Byte := (List.replicate n padWord).flatMap bytesOfWord

/-- NOPs before `n` words at a word offset, so that they do not cross a fetch line (R110). -/
def padBefore (pos n : Nat) : Nat := if pos % 32 + n > 32 then 32 - pos % 32 else 0

/-- A block being laid out. `run` is how many instructions the open run holds, `holds` how many values it has held, `first`
the source line of its first statement. -/
structure Lay where
  pos    : Nat                    -- words from the start of the section
  bytes  : List Byte
  rels   : List (Nat × Rel)
  rows   : List Row
  instrs : List Instr
  syms   : List Sym
  run    : Nat
  first  : Nat
  holds  : Nat
  open_  : Bool                   -- the last instruction has E = 0 and must end its run (R30)
  deriving DecidableEq, Repr

/-- The instruction of a statement at a word offset; before the last pass a statement that is none yet counts two words. -/
def Asm.instrAt (a : Asm) (e : Env) (strict : Bool) (st : Stmt) (pos : Nat) : Except Err Out :=
  match (a.scope e strict (4 * pos)).instruction st.line with
  | .ok o => .ok o
  | .error x => if strict then .error x else .ok { instr := .nop false, words := [0, 0], rels := [] }

/-- NOPs inside a run count to its 24 instructions; an error stands at the run's first statement (R29, R110). -/
def Lay.pad (y : Lay) (strict : Bool) (n : Nat) : Except Err Lay :=
  if n = 0 then .ok y
  else if strict && y.open_ then .error .notLast
  else if strict && 24 < y.run + n then .error (.runTooLong y.first)
  else .ok { y with pos := y.pos + n, bytes := y.bytes ++ padBytes n, run := y.run + n }

/-- The checks of a run on one more instruction (R109). -/
def Lay.check (y : Lay) (p : Proc) (i : Instr) : Except Err Unit :=
  if i.isStream ≠ p.stream then .error .wrongEngine
  else match i.shape with
    | none => .ok ()
    | some sh =>
      if 24 < y.run + 1 then .error (.runTooLong y.first)
      else if y.open_ then .error .notLast
      else if sh.srcs.any (fun o => match o.1 with | .h k => y.holds ≤ k.val | _ => false) then .error .latch
      else if (namedRegs sh).any fun k => p.named ≤ k then .error .namedRange
      else .ok ()

/-- The run after one more instruction. -/
def Lay.count (y : Lay) (i : Instr) : Lay :=
  match i.shape with
  | none => { y with run := 0, holds := 0, open_ := false }
  | some sh =>
    if sh.e then { y with run := 0, holds := 0, open_ := false }
    else { y with run := y.run + 1, holds := if sh.hold = .off then y.holds else y.holds + 1, open_ := endsRun i }

/-- One more instruction of a block (R108 to R110, R122); stream programs have no runs (R346). -/
def Asm.layOne (a : Asm) (e : Env) (strict : Bool) (p : Proc) (y : Lay) (st : Stmt) : Except Err Lay := do
  let y := if y.run = 0 then { y with first := st.row } else y
  let o ← a.instrAt e strict st y.pos
  let pad := padBefore y.pos o.words.length
  -- on the next line nothing crosses, so what is built there stays there, be it shorter
  let o ← if pad = 0 then pure o else a.instrAt e strict st (y.pos + pad)
  let y ← y.pad strict pad
  let rs := y.run = 0 && !p.stream
  if strict then y.check p o.instr
  let y := y.count o.instr
  return { y with
    pos := y.pos + o.words.length, bytes := y.bytes ++ o.words.flatMap bytesOfWord,
    rels := y.rels ++ o.rels.map fun r => (4 * y.pos, r),
    rows := y.rows ++ [{ addr := 4 * y.pos, file := st.file, line := st.row, col := st.col, rs := rs }],
    instrs := y.instrs ++ [o.instr],
    syms := y.syms ++ (st.names ++ st.line.label.toList).map fun l =>
      { name := l, kind := .object, sec := some a.cur, value := 4 * y.pos, size := 4 * o.words.length } }

/-- Registers that some instruction reads before any instruction of the block writes them (R108). -/
def liveOf (is : List Instr) : W32 :=
  let (live, _) := is.foldl (fun (acc : List Nat × List Nat) i =>
    match i.shape with
    | none => acc
    | some sh =>
      let reads := sh.srcs.flatMap (fun o => o.1.reg ++ routeIndex o.2) ++ sh.reads
      (acc.1 ++ reads.filter (fun k => !acc.2.contains k), acc.2 ++ writesReg sh)) ([], [])
  live.foldl (fun (m : W32) k => m ||| BitVec.ofNat 32 (2 ^ k)) 0

/-- Does control never go on to the next word after this instruction? LSETUP and ALOOP always transfer (R45, R355).
DEDUCED, unsafe (log 62). -/
def leavesBlock : Instr → Bool
  | .lsetup .. => true | .aloop .. => true
  | .exit _ => true | .bra .always _ => true | .brx _ => true | .ret _ => true | .rft .. => true
  | .ahalt _ => true | .abr .always _ => true | _ => false

/-- Words between dots. -/
def dots : List Tok → List (List Tok)
  | [] => [[]]
  | t :: ts =>
    match t, dots ts with
    | .mark '.', r => [] :: r
    | _, x :: xs => (t :: x) :: xs
    | _, [] => [[t]]

/-- The registers of one item of a `live=` list (R108). -/
def liveItem : List Tok → Except Err (List Nat)
  | [.word x] => match indexed "n" 32 x with
    | some j => .ok [j]
    | none => .error .operand
  | [.word x, .mark '-', .word z] => match indexed "n" 32 x, indexed "n" 32 z with
    | some j, some k => .ok ((List.range 32).filter fun i => j ≤ i && i ≤ k)
    | _, _ => .error .operand
  | _ => .error .operand

/-- The registers of a `live=` list (R108). -/
def liveList (c : Scope) (named : Nat) (ts : List Tok) : Except Err W32 := do
  let ks := (← (dots ts).mapM liveItem).flatten
  if c.strict && ks.any fun k => named ≤ k then .error .liveRange
  return ks.foldl (fun (m : W32) k => m ||| BitVec.ofNat 32 (2 ^ k)) 0

/-- The options of `.block` on a header (R108). A negative `live=#expr` is no 32-bit value here.
DESIGN CHOICE, unsafe (log 61). -/
def Asm.blockOpts (c : Scope) (named : Nat) (h : Header) (opts : List (List Tok)) : Except Err Header :=
  opts.foldlM (fun (h : Header) o =>
    match o with
    | [.word "cold"] => .ok { h with cold := true }
    | [.word "loop"] => .ok { h with loop := true }
    | [.word "pf", .mark '=', .word p] =>
      match indexIn ["none", "line", "four", "fall"] p with
      | some k => .ok { h with pf := Fin.ofNat 4 k }
      | none => .error .operand
    | [.word "live", .mark '=', .word "none"] => .ok { h with live := 0 }
    | .word "live" :: .mark '=' :: .mark '#' :: r => do
      return { h with live := w32 (← c.inRange .liveRange 0 (2 ^ 32) (← c.numberOf r)).toNat }
    | .word "live" :: .mark '=' :: r => do return { h with live := ← liveList c named r }
    | [.word "join", .mark '=', .word j] =>
      match c.place j with
      | .sec k p =>
        let d : Int := ((p : Int) - c.here) / 4
        if k ≠ c.sec || !c.isBlock j then .error .target
        else return { h with join := BitVec.ofNat 14 (wrap 14 (← c.inRange .fieldRange (-8192) 8192 d)) }
      | _ => if c.strict then .error .target else .ok h
    | _ => .error .unknownKey) h

/-- Close the open block: `more` when another block follows, before whose header the padding counts here (R108, R110). -/
def Asm.closeBlock (a : Asm) (e : Env) (strict more : Bool) : Except Err Asm := do
  let some p := a.proc | .error .noProcedure
  if a.cur ≠ p.sec then .error .noProcedure
  let some b := p.blk | return a
  let y0 : Lay := { pos := b.start / 4 + 2, bytes := [], rels := [], rows := [], instrs := [], syms := [], run := 0,
                    first := 0, holds := 0, open_ := false }
  let y ← b.stmts.foldlM (fun y st => a.layOne e strict p y st) y0
  let y ← if more then y.pad strict (padBefore y.pos 2) else pure y
  let len := y.pos - b.start / 4
  if strict && (1023 < len || len < 3) then .error .blockTooLong
  let h : Header := { len := BitVec.ofNat 10 len, live := liveOf y.instrs, join := 0, pf := 0, cold := false,
                      loop := false, entry := b.entry }
  let h ← Asm.blockOpts (a.scope e strict b.start) p.named h b.opts
  let a ← a.define { name := b.label, kind := .block, sec := some a.cur, value := b.start, size := 4 * len }
  let ends := b.names.map fun n => ({ name := n, kind := .object, sec := some a.cur, value := 4 * y.pos, size := 0 } : Sym)
  let a ← (y.syms ++ ends).foldlM (fun a x => a.define x) a
  let a := a.modSec fun s => { s with
    bytes := s.bytes ++ h.encode.flatMap bytesOfWord ++ y.bytes, size := 4 * y.pos, rels := s.rels ++ y.rels,
    rows := s.rows ++ y.rows }
  return { a with proc := some { p with blk := none, leaves := y.instrs.any leavesBlock } }

/-! ## Data (R111, R112) -/

/-- Append bytes to the current section; a `zero` section holds zeros only. -/
def Asm.emit (a : Asm) (bs : List Byte) : Except Err Asm := do
  let s ← a.sec
  if s.kind = .zero then .error .directive
  return a.modSec fun s => { s with bytes := s.bytes ++ bs, size := s.size + bs.length }

/-- `n` copies of a byte. -/
def Asm.fill (a : Asm) (n : Nat) (v : Byte) : Except Err Asm := do
  let s ← a.sec
  if s.kind = .zero then
    if v = 0 then return a.modSec fun s => { s with size := s.size + n } else .error .value
  else a.emit (List.replicate n v)

/-- Pad to a power of two, with NOPs in code from the next word on (R112). DESIGN CHOICE, unsafe (log 61). -/
def Asm.alignTo (a : Asm) (log : Nat) : Except Err Asm := do
  let s ← a.sec
  let n := roundUp s.size (2 ^ log) - s.size
  if s.kind = .code || s.kind = .scode then a.emit (List.replicate (n % 4) 0 ++ padBytes (n / 4)) else a.fill n 0

/-- An integer of n bytes, or an address in a word or dword (R112, R117). DESIGN CHOICE, unsafe (log 61). -/
def Asm.datum (a : Asm) (c : Scope) (n : Nat) (ts : List Tok) : Except Err Asm := do
  let v ← c.eval (← exprOf ts)
  let s ← a.sec
  if v.isNum then
    a.emit (bytesLE n (wrap (8 * n) (← c.inRange .value (-(2 ^ (8 * n - 1))) (2 ^ (8 * n)) v.add)))
  else if v.half ≠ .whole then .error .relocation
  else
    let t ← if n = 8 then pure (if v.minus then RelType.prel64 else .abs64)
      else if n = 4 && !v.minus then pure RelType.abs32 else Except.error .relocation
    let r ← c.rel t v
    -- PREL64 counts from the datum, the expression from its section
    let r := if v.minus then { r with add := r.add + s.size } else r
    let a := a.modSec fun s => { s with rels := s.rels ++ [(s.size, r)] }
    a.emit (bytesLE n 0)

/-- A float constant (R112). -/
def Asm.constant (a : Asm) (f : Fmt) (ts : List Tok) : Except Err Asm := do
  let (v, _) ← toFloat f (← decimalOf ts)
  a.emit (bytesLE (f.width / 8) v)

/-! ## Records (R118 to R121) -/

/-- A key of `.fslot` in the slot word (R119). -/
def slotKey (c : Scope) (w : Nat) (k : String) (ts : List Tok) : Except Err Nat := do
  let name := fun (l : List (String × Nat)) => match ts with
    | [.word s] => (find l s .unknownKey).map Int.ofNat
    | _ => Except.error Err.operand
  let set := fun (v : Int) (lo width : Nat) => do
    return w + (← c.inRange .fieldRange 0 ((2 ^ width : Nat) : Int) v).toNat * 2 ^ lo
  match k with
  | "fmt" => do
    let v ← name [("e4m3", 0), ("e5m2", 1), ("e2m1", 2), ("i8", 3), ("f16", 4), ("bf16", 5), ("f32", 6), ("bp2", 8),
      ("bp3", 9), ("bp4", 10), ("bp5", 11), ("bp6", 12), ("bp7", 13), ("bp8", 14)]
    set v 0 4
  | "scale" => do set (← name [("none", 0), ("tensor", 1), ("e8m0", 2), ("e4m3", 3)]) 4 4
  | "round" => do set (← name [("rn", 0), ("rz", 1), ("rd", 2), ("ru", 3)]) 16 2
  | "block" => do
    let v ← c.numberOf ts
    let l := v.toNat.log2
    if 0 < v && v = (2 ^ l : Nat) then set l 8 4 else if c.strict then .error .fieldRange else return w
  | "planes" => do set ((← c.numberOf ts) - 1) 12 3
  | "centre" => do set (← c.numberOf ts) 15 1
  | "stoch" => do set (← c.numberOf ts) 18 1
  | "trap" => do set (← c.numberOf ts) 19 1
  | "seed" => do set (← c.numberOf ts) 20 12
  | _ => .error .unknownKey

/-- Keys with their values, no key twice. -/
def keysOf (as : List (List Tok)) : Except Err (List (String × List Tok)) := do
  let ks ← as.mapM fun a => match a with
    | .word k :: .mark '=' :: v => Except.ok (k, v)
    | _ => .error .operand
  if (ks.map (·.1)).eraseDups.length ≠ ks.length then .error .fieldTwice
  return ks

def slotWord (c : Scope) (as : List (List Tok)) : Except Err Nat := do
  let w ← (← keysOf as).foldlM (fun w (x : String × List Tok) => slotKey c w x.1 x.2) 0
  let k := fld w 3 0
  -- planes read: 1 to the format's own
  if c.strict && 8 ≤ k && k - 6 < fld w 14 12 + 1 then .error .fieldRange
  return w

/-- The value of a job key in the card (R121, R278): its lowest bit, its width, and whether it is an address. -/
def jobField (k : String) : Except Err (Nat × Nat × Bool) :=
  find [("entry", (0, 64, true)), ("args", (64, 64, true)), ("rec", (128, 32, false)), ("nrec", (160, 32, false)),
    ("waves", (512, 6, false)), ("named", (518, 6, false)), ("scratch", (524, 19, false)), ("cohort", (543, 4, false)),
    ("class", (547, 2, false)), ("wait", (608, 16, false)), ("signal", (624, 16, false)), ("early", (640, 64, true)),
    ("handler", (704, 64, true))] k .unknownKey

/-- Six widths joined by dots (R121). -/
def widthsOf (c : Scope) (ts : List Tok) : Except Err Nat := do
  let vs ← (dots ts).mapM fun t => do c.inRange .fieldRange 0 128 (← c.numberOf t)
  if vs.length ≠ 6 then .error .operand
  return packN 7 (vs.map Int.toNat) * 2 ^ 192

/-- A job card with its address relocations at byte offsets (R121, R278). A slot table stands before the template that names
it, and a slot word before its table. DEDUCED, unsafe (log 62); DESIGN CHOICE, unsafe (log 61). -/
def Asm.card (a : Asm) (c : Scope) (as : List (List Tok)) : Except Err (Nat × List (Nat × Rel)) := do
  let ks ← keysOf as
  if !(["entry", "waves", "named", "scratch", "cohort", "class"].all fun k => ks.any fun x => x.1 = k) then
    .error .missingKey
  ks.foldlM (fun (acc : Nat × List (Nat × Rel)) (x : String × List Tok) => do
    if x.1 = "widths" then return (acc.1 + (← widthsOf c x.2), acc.2)
    else if x.1 = "slots" then
      match x.2 with
      | [.word s] => do
        match a.tables.lookup s with
        | some ws => return (acc.1 + packN 32 ws * 2 ^ 256, acc.2)
        | none => if c.strict then .error .unknownName else return acc
      | _ => .error .operand
    else do
      let (lo, width, addr) ← jobField x.1
      let v ← c.eval (← exprOf x.2)
      if v.isNum then
        return (acc.1 + (← c.inRange .fieldRange 0 ((2 ^ width : Nat) : Int) v.add).toNat * 2 ^ lo, acc.2)
      else if addr && v.half = .whole && !v.minus then return (acc.1, acc.2 ++ [(lo / 8, ← c.rel .abs64 v)])
      else .error .relocation) (0, [])

/-- A whole record of the current section, with relocations in its payload (R118). DEDUCED, unsafe (log 62). -/
def Asm.record (a : Asm) (name : String) (sk : SKind) (payload : List Byte) (rels : List (Nat × Rel)) : Except Err Asm := do
  let s ← a.sec
  let start := roundUp s.size (2 ^ s.align)
  let pay := start + s.kind.payOff
  let a ← a.define { name := name, kind := sk, sec := some a.cur, value := pay, size := payload.length }
  let a := a.modSec fun s => { s with
    recs := s.recs ++ [(start, name)], rels := s.rels ++ rels.map fun r => (pay + r.1, r.2) }
  let gap := List.replicate (start - s.size) (0 : Byte)
  let head := recordHeader s.kind 0 payload.length
  let fill := List.replicate (s.kind.payOff - 16) (0 : Byte)
  let whole := gap ++ head ++ fill ++ payload
  a.emit (whole ++ List.replicate (roundUp (s.size + whole.length) (2 ^ s.align) - (s.size + whole.length)) 0)

/-- Open a record around data directives (R112, R118). -/
def Asm.openRecord (a : Asm) (name : String) (set : Bool) : Except Err Asm := do
  let s ← a.sec
  if a.rec_.isSome then .error .nesting
  if s.kind ≠ (if set then .wset else .gram) then .error .nesting
  let start := s.size
  let a ← a.emit (recordHeader s.kind 0 0 ++ List.replicate (s.kind.payOff - 16) 0)
  let a := a.modSec fun s => { s with recs := s.recs ++ [(start, name)] }
  return { a with rec_ := some { name := name, set := set, sec := a.cur, start := start } }

/-- Close it: its size goes into the header, and it is padded to the section's alignment. DEDUCED, unsafe (log 62). -/
def Asm.closeRecord (a : Asm) (set : Bool) : Except Err Asm := do
  let some r := a.rec_ | .error .nesting
  if r.set ≠ set || r.sec ≠ a.cur then .error .nesting
  let s ← a.sec
  let pay := r.start + s.kind.payOff
  let size := s.size - pay
  let a ← a.define { name := r.name, kind := if set then .wset else .gram, sec := some a.cur, value := pay, size := size }
  let a := a.modSec fun s => { s with bytes := putBytes s.bytes (r.start + 4) (bytesLE 4 size) }
  let a ← a.alignTo s.align
  return { a with rec_ := none }

/-! ## Directives (R111, R112) -/

def kindNames : List (String × Kind) :=
  [("code", .code), ("scode", .scode), ("data", .data), ("rodata", .rodata), ("zero", .zero), ("wset", .wset),
   ("gram", .gram), ("slots", .slots), ("job", .job)]

/-- `.section` may stand inside a procedure or a record, which goes on once its own section is open again (R112). A
log2align given for a kind of fixed alignment, or when a section is opened again, is checked and has no effect.
DESIGN CHOICE, unsafe (log 61). -/
def Asm.section (a : Asm) (c : Scope) (name : String) (k : Kind) (log : Option (List Tok)) : Except Err Asm := do
  let align ← (match log with
    | none => Except.ok k.align
    | some ts => do
      let v ← c.inRange .value 0 17 (← c.numberOf ts)
      if k = .data || k = .rodata || k = .zero then return v.toNat
      else .ok k.align)
  match a.secs.findIdx? fun s => s.name = name with
  | some i =>
    match a.secs[i]? with
    | some s => if s.kind = k then return { a with cur := i } else .error .sectionKind
    | none => .error .sectionKind
  | none =>
    return { a with
      secs := a.secs ++ [{ name := name, kind := k, align := align, size := 0, bytes := [], rels := [], recs := [],
                           rows := [] }],
      cur := a.secs.length }

/-- `.proc`: starts at the next fetch line (R108, R112). Without `stream` it is a SIMT procedure, also in an `scode`
section. DESIGN CHOICE, unsafe (log 61). -/
def Asm.openProc (a : Asm) (c : Scope) (as : List (List Tok)) : Except Err Asm := do
  if a.proc.isSome then .error .nesting
  let s ← a.sec
  if s.kind ≠ .code && s.kind ≠ .scode then .error .nesting
  let name ← nameOf (as.headD [])
  let (n, st) ← (as.drop 1).foldlM (fun (x : Nat × Bool) o => match o with
    | .word "named" :: .mark '=' :: v => do
      return ((← c.inRange .value 1 33 (← c.numberOf v)).toNat, x.2)
    | [.word "stream"] => .ok (x.1, true)
    | _ => .error .unknownKey) (32, false)
  if st && s.kind ≠ .scode then .error .nesting
  let a ← a.alignTo 7
  let s ← a.sec
  return { a with proc := some { name := name, named := n, stream := st, sec := a.cur, start := s.size, blk := none,
                                    leaves := false } }

def Asm.closeProc (a : Asm) (e : Env) (strict : Bool) (l : Option String) : Except Err Asm := do
  let a ← (← a.closeBlock e strict false).label l
  let some p := a.proc | .error .noProcedure
  if strict && !p.leaves then .error .fallsThrough
  let s ← a.sec
  let a ← a.define { name := p.name, kind := if p.stream then .sproc else .proc, sec := some a.cur, value := p.start,
                     size := s.size - p.start }
  return { a with proc := none }

def Asm.openBlock (a : Asm) (e : Env) (strict : Bool) (l : Option String) (as : List (List Tok)) : Except Err Asm := do
  let a ← (← a.closeBlock e strict true).label l
  let some p := a.proc | .error .noProcedure
  let s ← a.sec
  let label ← nameOf (as.headD [])
  return { a with proc := some { p with
    blk := some { label := label, names := [], opts := as.drop 1, start := s.size, entry := s.size = p.start, stmts := [] } } }

def dataFloats : List (String × Fmt) :=
  [(".f16", .f16), (".bf16", .bf16), (".f32", .f32), (".f64", .f64), (".e5m2", .e5m2), (".e4m3", .e4m3)]
def dataInts : List (String × Nat) := [(".byte", 1), (".half", 2), (".word", 4), (".dword", 8)]

/-- May data stand here? In code only outside procedures; in record sections only inside a record (R111, R112). -/
def Asm.dataOk (a : Asm) : Except Err Unit := do
  let s ← a.sec
  if a.proc.isSome && (s.kind = .code || s.kind = .scode) then .error .nesting
  else if (s.kind = .wset || s.kind = .gram) && a.rec_.isNone then .error .nesting
  else if s.kind = .slots || s.kind = .job then .error .nesting
  else return ()

/-- A number of a directive from 0 to below a bound. -/
def Scope.natOf (c : Scope) (bound : Nat) (ts : List Tok) : Except Err Nat := do
  return (← c.inRange .value 0 bound (← c.numberOf ts)).toNat

/-- Directives of data (R112). -/
def Asm.data (a : Asm) (c : Scope) (d : String) (as : List (List Tok)) : Except Err Asm := do
  a.dataOk
  match dataInts.lookup d, dataFloats.lookup d with
  | some n, _ => as.foldlM (fun a ts => a.datum c n ts) a
  | _, some f => as.foldlM (fun a ts => a.constant f ts) a
  | none, none =>
    match d, as with
    | ".space", n :: r => do
      let n ← c.natOf (2 ^ 63) n
      let v ← (match r with | [] => Except.ok 0 | [v] => c.numberOf v | _ => .error .operand)
      let v ← if (← a.sec).kind = .zero then c.inRange .value 0 1 v else c.inRange .value (-128) 256 v
      a.fill n (BitVec.ofNat 8 (wrap 8 v))
    | ".gterm", [col, code] => do a.emit (bytesLE 4 ((← c.natOf (2 ^ 23) col) * 256 + (← c.natOf 256 code)))
    | ".gref", [k] => do a.emit (bytesLE 4 (2 ^ 31 + (← c.natOf (2 ^ 24) k)))
    | _, _ => .error .directive

/-- `.slots`: names or words, eight at most (R112, R119). -/
def Asm.slotTable (a : Asm) (c : Scope) (as : List (List Tok)) : Except Err (List Nat) := do
  if 8 < as.length then .error .tooMany
  let ws ← as.mapM fun ts => do
    let byName := match ts with | [.word s] => a.slots.lookup s | _ => none
    match byName with
    | some w => return w
    | none =>
      c.natOf (2 ^ 32) ts
  return ws ++ List.replicate (8 - ws.length) 0

/-- One directive (R112). -/
def Asm.directive (a : Asm) (e : Env) (strict : Bool) (l : Line) (d : String) : Except Err Asm := do
  let a ← if d = ".block" || d = ".endproc" then pure a else a.label l.label
  let size := match a.secs[a.cur]? with | some s => s.size | none => 0
  let c := a.scope e strict size
  if d = ".section" then
    match l.args with
    | [n, [.word k]] => do a.section c (← nameOf n) (← find kindNames k .sectionKind) none
    | [n, [.word k], g] => do a.section c (← nameOf n) (← find kindNames k .sectionKind) (some g)
    | _ => .error .directive
  else if d = ".proc" then a.openProc c l.args
  else if d = ".endproc" then a.closeProc e strict l.label
  else if d = ".block" then a.openBlock e strict l.label l.args
  else if d = ".global" then return { a with globals := a.globals ++ (← namesOf l.args) }
  else if d = ".extern" then return { a with externs := a.externs ++ (← namesOf l.args) }
  else if d = ".equ" then
    match l.args with
    | [n, v] => do
      a.define { name := ← nameOf n, kind := .absolute, sec := none, value := ← c.numberOf v, size := 0 }
    | _ => .error .directive
  else if d = ".loc" then
    match l.args with
    | [f, r, k] => do
      let f ← match f with | [.str s] => Except.ok s | [.word s] => .ok s | _ => .error .directive
      return { a with loc := some (f, ← c.natOf (2 ^ 63) r, ← c.natOf (2 ^ 63) k) }
    | _ => .error .directive
  else if d = ".align" then
    match l.args with
    | [g] => do
      if a.proc.isSome then .error .nesting
      a.alignTo (← c.natOf (2 ^ 63) g)
    | _ => .error .directive
  else if d = ".fslot" then
    match l.args with
    | n :: ks => do
      let n ← nameOf n
      if (a.slots.lookup n).isSome then .error .duplicate
      return { a with slots := a.slots ++ [(n, ← slotWord c ks)] }
    | [] => .error .directive
  else if d = ".slots" then
    match l.args with
    | n :: ws => do
      let n ← nameOf n
      let s ← a.sec
      if s.kind ≠ .slots then .error .nesting
      let ws ← a.slotTable c ws
      let a ← a.record n .slots (ws.flatMap (bytesLE 4)) []
      return { a with tables := a.tables ++ [(n, ws)] }
    | [] => .error .directive
  else if d = ".jobtemplate" then
    match l.args with
    | n :: ks => do
      let n ← nameOf n
      let s ← a.sec
      if s.kind ≠ .job then .error .nesting
      let (v, rs) ← a.card c ks
      a.record n .job (bytesLE 128 v) rs
    | [] => .error .directive
  else if d = ".wset" then a.openRecord (← nameOf (l.args.headD [])) true
  else if d = ".endwset" then a.closeRecord true
  else if d = ".grammar" then a.openRecord (← nameOf (l.args.headD [])) false
  else if d = ".endgrammar" then a.closeRecord false
  else a.data c d l.args

/-- One line of a pass (R99, R108). -/
def Asm.line (e : Env) (strict : Bool) (a : Asm) (l : Line) : Except Err Asm := do
  let a := { a with row := a.row + 1 }
  match l.head with
  | none => a.label l.label
  | some h =>
    if h.toList.head? = some '.' then a.directive e strict l h
    else
      match a.proc with
      | none => .error .noProcedure
      | some p =>
        match if a.cur = p.sec then p.blk else none with
        | none => .error .noProcedure
        | some b =>
          let (f, r, k) := match a.loc with | some x => x | none => ("", a.row, 0)
          return { a with proc := some { p with
            blk := some { b with names := [], stmts := b.stmts ++ [{ names := b.names, line := l, file := f, row := r, col := k }] } } }

def pass (e : Env) (strict : Bool) (ls : List Line) : Except Err Asm := do
  let a ← ls.foldlM (Asm.line e strict) Asm.empty
  if a.proc.isSome || a.rec_.isSome then .error .nesting
  return a

def Asm.env (a : Asm) : Env := { syms := a.syms, externs := a.externs, known := true }

/-- Passes until no name moves any more; the number of passes is bounded. -/
def settle : Nat → Env → List Line → Except Err Env
  | 0, _, _ => .error .unsettled
  | n + 1, e, ls => do
    let a ← pass e false ls
    if a.env = e then return e else settle n a.env ls

/-! ## The object (R113 to R122) -/

/-- The words of an operand or expression where a symbol may stand: not a route's, nor `raw` before its parenthesis. -/
def exprWords : List Tok → List String
  | .mark ':' :: .word _ :: .mark '.' :: _ :: r => exprWords r
  | .word "raw" :: .mark '(' :: r => exprWords r
  | .word s :: r => s :: exprWords r
  | _ :: r => exprWords r
  | [] => []

/-- The value words of `key=value` items whose keys are not of a list. -/
def keyWords (spelt : List String) (as : List (List Tok)) : List String :=
  as.flatMap fun a => match a with
    | .word k :: .mark '=' :: v => if spelt.contains k then [] else exprWords v
    | _ => []

/-- The words of a field assignment where symbols stand: not the spellings of FMT, RM and the routes, nor a special
register of MOVS (R71, R102, R105). -/
def fieldWords (m k : String) (v : List Tok) : List String :=
  match v with
  | [.word s] =>
    if k = "fmt" || (k = "rm" && ["rn", "rz", "rd", "ru"].contains s) || (k = "fn" && m = "movs" && specials.contains s)
    then [] else [s]
  | .word w :: .mark '.' :: r => if ["xa", "xb", "xc"].contains k then exprWords (r.drop 1) else exprWords (.word w :: .mark '.' :: r)
  | v => exprWords v

/-- The words of an instruction's operands where symbols stand: a special register, a control register or NFLUSH's `all` is
none (R71, R380). -/
def instrWords (m : String) (args : List (List Tok)) : List String :=
  let args := if m = "movs" then args.take 1 ++ args.drop 2 else args
  args.flatMap fun a => match a with
    | .word k :: .mark '=' :: v => fieldWords m k v
    | [.word s] =>
      if (m = "nflush" && s = "all") || ((m = "csrr" || m = "csrw") && ["fpstat", "fpen", "gstat"].contains s) then []
      else [s]
    | _ => exprWords a

/-- The words of a statement where symbols stand, in order (R115); `slots` are the names of slot words. -/
def Line.symWords (slots : List String) (l : Line) : List String :=
  let names := (l.args.take 1).flatMap exprWords
  let rest := l.args.drop 1
  l.label.toList ++ match l.head with
    | none => []
    | some h =>
      if h.toList.head? ≠ some '.' then instrWords h l.args
      else if h = ".section" then l.args.drop 2 |>.flatMap exprWords
      else if h = ".loc" then rest.flatMap exprWords
      else if h = ".proc" || h = ".jobtemplate" then names ++ keyWords [] rest
      else if h = ".block" then names ++ keyWords ["pf"] (rest.map fun o => match o with
        | .word "live" :: .mark '=' :: .mark '#' :: r => .word "live" :: .mark '=' :: r
        | .word "live" :: _ => []
        | o => o)
      else if h = ".fslot" then keyWords ["fmt", "scale", "round"] rest
      else if h = ".slots" then names ++ (rest.flatMap exprWords).filter fun w => !slots.contains w
      else l.args.flatMap exprWords

/-- The symbols of a source in order of first appearance (R115). -/
def appearances (known slots : List String) (ls : List Line) : List String :=
  ((ls.flatMap (Line.symWords slots)).filter known.contains).eraseDups

/-- The string table, and the offset of each string in it (R113). -/
def intern (ss : List String) : List Byte × (String → Nat) :=
  let uniq := (ss.filter (· ≠ "")).eraseDups
  let enc := fun (s : String) => s.toList.flatMap (fun ch => (String.utf8EncodeChar ch).map fun b => BitVec.ofNat 8 b.toNat)
  let (tab, offs) := uniq.foldl (fun (acc : List Byte × List (String × Nat)) s =>
    (acc.1 ++ enc s ++ [0], acc.2 ++ [(s, acc.1.length)])) ([0], [])
  (tab, fun s => (offs.lookup s).getD 0)

/-- Sizes of data symbols: up to the next symbol of their section, or its end (log 61).
DESIGN CHOICE, unsafe (log 61). -/
def sizeOf_ (a : Asm) (x : Sym) : Nat :=
  if x.kind ≠ .object || x.size ≠ 0 then x.size
  else
    match x.sec with
    | none => 0
    | some k =>
      let stop : Int := match a.secs[k]? with | some s => s.size | none => 0
      let after := a.syms.filter fun y => y.sec = some k && x.value < y.value
      ((after.map fun y => y.value).foldl min stop - x.value).toNat

/-- The 16 bytes of a line-table row (R122): a line or column that its field does not hold is stored modulo the field.
DESIGN CHOICE, unsafe (log 61). -/
def Row.bytes (r : Row) (str : String → Nat) : List Byte :=
  bytesLE 8 r.addr ++ bytesLE 4 (str r.file) ++ bytesLE 3 r.line ++ bytesLE 1 (r.col % 128 + 128 * boolN r.rs)

/-- The object of the last pass: it has a section (R113). DESIGN CHOICE, unsafe (log 61). -/
def Asm.object (a : Asm) (ls : List Line) : Except Err Object := do
  if a.secs.isEmpty then .error .directive
  if a.globals.any fun g => (a.syms.all fun x => x.name ≠ g) then .error .globalUndefined
  if a.externs.any fun g => (a.syms.any fun x => x.name = g) then .error .externDefined
  let carried := a.secs.flatMap fun s => s.rels.map fun r => r.2.sym
  let names := appearances (a.syms.map (·.name) ++ a.externs ++ carried) (a.slots.map (·.1)) ls
  let (tab, str) := intern (a.secs.map (·.name) ++ ["line"] ++ names ++ a.secs.flatMap fun s => s.rows.map (·.file))
  let index := fun (n : String) => match names.findIdx? (· = n) with
    | some k => Except.ok k
    | none => .error Err.unknownName
  let symbols := names.map fun n =>
    match a.syms.find? fun x => x.name = n with
    | some x =>
      { name := str n, sect := (match x.sec with | some k => .idx k | none => .absolute), kind := x.kind,
        bind := if a.globals.contains n || x.kind = .proc || x.kind = .sproc then .glob else .loc,
        value := wrap 64 x.value, size := sizeOf_ a x : Bof.Symbol }
    | none => { name := str n, sect := .ext, kind := .object, bind := .ext, value := 0, size := 0 }
  let sections ← a.secs.mapM fun s => do
    let bytes ← s.recs.foldlM (fun bs (r : Nat × String) => do return putBytes bs r.1 (bytesLE 4 (← index r.2))) s.bytes
    let rels ← s.rels.mapM fun r => do
      return ({ off := r.1, sym := ← index r.2.sym, type := r.2.type, add := r.2.add } : Reloc)
    return ({ name := str s.name, kind := s.kind, align := s.align, size := s.size, bytes := bytes, rels := rels,
              link := 0 } : Bof.Section)
  let lines := ((List.range a.secs.length).zip a.secs).filterMap fun (k, s) =>
    if s.kind = .code || s.kind = .scode then
      let bs := s.rows.flatMap fun r => r.bytes str
      some ({ name := str "line", kind := .line, align := 3, size := bs.length, bytes := bs, rels := [], link := k } :
        Bof.Section)
    else none
  if 65533 < sections.length + lines.length then .error .tooMany
  return { sections := sections ++ lines, symbols := symbols, strings := tab }

/-- Assemble source lines (R99 to R122). -/
def assembleChars (src : List (List Char)) : Except Err Object := do
  let toks ← src.mapM fun l => lexLine (l.length + 1) l
  let ls ← toks.mapM parseLine
  let e ← settle (4 * ls.length + 16) Env.empty ls
  let a ← pass e true ls
  if a.env ≠ e then .error .unsettled
  a.object ls

def assembleLines (src : List String) : Except Err Object := assembleChars (src.map String.toList)

/-- Assemble a source text. -/
def assemble (src : String) : Except Err Object := assembleChars (linesOf src.toList)

end Sys2Proof.Mladas
end

