-- ==== Sys2Proof/Tests/Slice0.lean ====
section
/-!
SUPPORT. Tests of one step each, expected values from the spec's worked encodings and examples; and, for every statement
with hypotheses, states that meet them.
-/

namespace Sys2Proof.Tests

open Sys2Proof Sys2Proof.Machine

set_option Elab.async false

/-! ## Terms that are no instructions -/

def tAlu : Alu :=
  { e := true, pm := 0, d := .n 9, a := .n 1, b := .n 2, c := .zero, hold := .off, xa := .own, xb := .own, xc := .own,
    rm := .ne, lit := none }
def tAlu3 : Alu := { tAlu with c := .n 3 }
def tAlu1 : Alu := { tAlu with b := .zero }
def tAlu0 : Alu := { tAlu1 with a := .zero }
def tMem : Mem :=
  { e := true, pm := 0, d := .n 9, a := .n 1, b := .zero, off := 0, pn := false, ch := false, xa := .own, xb := .own,
    w := .b64, lit := none }
def tMemS : Mem := { tMem with d := .void, b := .n 2 }
def tMat : Mat :=
  { e := true, pm := 0, s := 9, a := .n 1, b := .n 2, d := .void, hold := .off, xa := .own, xb := .own, fs := 0, kc := 1,
    pn := false, lit := none }
def tEng : Eng :=
  { e := true, pm := 0, t := .void, a := .n 1, b := .n 2, n := none, hold := .off, xa := .own, xb := .own, pn := false,
    lit := none }
def tCtl : Ctl := { e := true, d := .void, a := .n 1, xa := .own, off := 0, lit := none }
def tShort : Short := { e := true, d := .n 9, a := .n 1, b := .n 2, pm := 0, ha := false }
def tStr : Str := { e := true, d := some 3, a := .a 1, b := .zero, c := .zero, lit := none }
def tStrCtl : StrCtl := { e := true, a := .a 1, off := 0, lit := none }

def w32i : ITy := ⟨true, .b32⟩

/-- One term for each check of R97 that a term can fail; each is refused under the check's name. -/
theorem test_wellformed_refuses :
    ([ (.iadd false w32i { tAlu with c := .n 3 }, .unusedField), (.iadd false w32i { tAlu with a := .lit }, .litOutsideX),
       (.iadd false w32i { tAlu with a := .one, xa := .rot 1 }, .routeOnConstant),
       (.iadd false w32i { tAlu with hold := .c }, .holdUnread), (.iadd false w32i { tAlu with rm := .up }, .rmNotAllowed),
       (.st tMem, .dstNotAllowed), (.atoms .add .plain { tMem with w := .b8 }, .reservedW),
       (.atoms .add .plain { tMem with lit := some 1 }, .xFormNotAllowed), (.movS { tShort with b := .n 2 }, .unusedField),
       (.ldS64 { tShort with b := .zero, ha := true }, .haOnMem), (.red .and (.flt .f32) tAlu1, .typeNotAllowed),
       (.binapp .cas false { tEng with n := some 3 }, .reservedAop), (.exportV 13 false tEng, .reservedCmd),
       (.ncall 0 0 { tEng with t := .n 4, n := some 5, b := .one }, .reservedSrc),
       (.cvt (.flt .f32) (.flt .f64) 2 tAlu1, .reservedFn), (.csrr 7 true .push, .reservedBit) ] :
      List (Instr × Bad)).all (fun p => p.1.check = some p.2 && !p.1.WellFormed) = true := by decide +kernel

/-- Device events are encoded by no words. -/
theorem test_events_have_no_words : (Instr.cardLaunch 0 0).WellFormed = false := by decide

/-! ## Words that the spec writes out -/

def decodes (ws : List W32) (i : Instr) : Bool := (decodeWords ws).toOption = some (i, ws.length) && encode i = ws

/-! ## A word for every instruction, from the layouts of R74, R75 and R80 to R96, with fields away from 0 -/

def a2 : Alu :=
  { e := true, pm := 3, d := .n 9, a := .n 1, b := .q 2, c := .zero, hold := .b, xa := .rot 3, xb := .own, xc := .own,
    rm := .ne, lit := none }
def a1 : Alu := { a2 with b := .zero, hold := .a, xa := .bc 5 }
def a3 : Alu := { a2 with c := .h 1, hold := .c, xa := .own, xb := .bfly 7 }
def a0 : Alu := { a2 with a := .zero, b := .zero, hold := .off, xa := .own }
def up (f : Alu) : Alu := { f with rm := .up }
def m2 : Mem :=
  { e := true, pm := 2, d := .void, a := .n 1, b := .n 2, off := 0xFC1, pn := true, ch := false, xa := .rot 3, xb := .bc 5,
    w := .b64, lit := none }
def m1 : Mem := { m2 with d := .n 9, b := .zero, xb := .own }
def m0 : Mem := { m2 with a := .zero, b := .zero, off := 0, xa := .own, xb := .own, w := .b8 }
def t1 : Mat :=
  { e := true, pm := 2, s := 9, a := .n 1, b := .n 2, d := .void, hold := .off, xa := .rot 3, xb := .own, fs := 0, kc := 0,
    pn := true, lit := none }
def e2 : Eng :=
  { e := true, pm := 2, t := .void, a := .n 1, b := .n 2, n := none, hold := .off, xa := .rot 3, xb := .bc 5, pn := true,
    lit := none }
def e1 : Eng := { e2 with b := .zero, xb := .own }
def e0 : Eng := { e1 with a := .zero, xa := .own }
def c1 : Ctl := { e := true, d := .void, a := .n 1, xa := .rot 3, off := 0, lit := none }
def c0 : Ctl := { c1 with a := .zero, xa := .own }
def s2 : Short := { e := false, d := .n 9, a := .n 1, b := .n 2, pm := 3, ha := false }
def s1 : Short := { s2 with b := .zero }
def f2 : Str := { e := false, d := some 3, a := .a 1, b := .a 2, c := .zero, lit := none }
def f1 : Str := { f2 with b := .zero }
def g1 : StrCtl := { e := false, a := .a 1, off := 0, lit := none }

/-- R93. -/
theorem test_decode_integer : ([
    ([0x60174C21, 0x03230000], .iadd true ⟨true, .b16⟩ a2),
    ([0x60E74C21, 0x01230000], .isub false ⟨false, .b32⟩ a2),
    ([0x61074C21, 0x29230000], .imul ⟨true, .b8⟩ a2),
    ([0x61D74C21, 0x29230000], .imulh ⟨false, .b16⟩ a2),
    ([0x62774C21, 0x2380CE00], .imad ⟨false, .b64⟩ a3),
    ([0x62A74C21, 0x29230000], .imin ⟨true, .b32⟩ a2),
    ([0x63474C21, 0x29230000], .imax ⟨false, .b8⟩ a2),
    ([0x63A74C2A, 0x28C50000], .iabs .b32 a1),
    ([0x64074C2A, 0x28C50000], .ineg .b8 a1),
    ([0x64B74C21, 0x0B230000], .icmp .ge ⟨true, .b64⟩ a2),
    ([0x65374C21, 0x0D230000], .lea true 6 a2),
    ([0x65974C21, 0x29230000], .andI ⟨true, .b16⟩ a2),
    ([0x66274C21, 0x29230000], .andn ⟨true, .b32⟩ a2),
    ([0x66B74C21, 0x29230000], .orI ⟨true, .b64⟩ a2),
    ([0x67474C21, 0x29230000], .xorI ⟨false, .b8⟩ a2),
    ([0x67D74C2A, 0x28C50000], .notI ⟨false, .b16⟩ a1),
    ([0x68674C21, 0x29230000], .shl ⟨false, .b32⟩ a2),
    ([0x68F74C21, 0x29230000], .shr ⟨false, .b64⟩ a2),
    ([0x69074C21, 0x29230000], .sar ⟨true, .b8⟩ a2),
    ([0x69974C21, 0x29230000], .rol ⟨true, .b16⟩ a2),
    ([0x6A274C2A, 0x28C50000], .popc ⟨true, .b32⟩ a1),
    ([0x6AB74C2A, 0x28C50000], .clz ⟨true, .b64⟩ a1),
    ([0x6B474C2A, 0x28C50000], .brev ⟨false, .b8⟩ a1),
    ([0x6BD74C21, 0x2380CE00], .bfe ⟨false, .b16⟩ a3),
    ([0x6C674C21, 0x2380CE00], .bfi ⟨false, .b32⟩ a3),
    ([0x6CF74C21, 0x2380CE00], .sel ⟨false, .b64⟩ a3) ] :
      List (List W32 × Instr)).all (fun p => decodes p.1 p.2) = true := by decide +kernel

/-- R94. -/
theorem test_decode_float : ([
    ([0x70074C21, 0x29230003], .fadd .f64 (up a2)),
    ([0x70574C21, 0x29230003], .fsub .f32 (up a2)),
    ([0x70A74C21, 0x29230003], .fmul .f16 (up a2)),
    ([0x70F74C21, 0x2380CE03], .ffma .bf16 (up a3)),
    ([0x71074C21, 0x29230000], .fmin .f64 a2),
    ([0x71574C21, 0x29230000], .fmax .f32 a2),
    ([0x71A74C21, 0x0D230000], .fcmp .uo .f16 a2),
    ([0x71F74C2A, 0x28C50000], .fclass .bf16 a1),
    ([0x72174C2A, 0x28C50003], .frnd .f32 (up a1)),
    ([0x72574C2A, 0x28C50003], .frcp .f32 (up a1)),
    ([0x72A74C2A, 0x28C50003], .frsq .f16 (up a1)),
    ([0x72D74C2A, 0x28C50003], .fsqrt .f32 (up a1)),
    ([0x73274C2A, 0x28C50003], .fexp2 .f16 (up a1)),
    ([0x73574C2A, 0x28C50003], .flog2 .f32 (up a1)),
    ([0x73A74C2A, 0x28C50003], .fsin .f16 (up a1)),
    ([0x73D74C2A, 0x28C50003], .fcos .f32 (up a1)),
    ([0x74274C2A, 0x28C50003], .ftanh .f16 (up a1)),
    ([0x74574C2A, 0x28C50003], .fsigm .f32 (up a1)) ] :
      List (List W32 × Instr)).all (fun p => decodes p.1 p.2) = true := by decide +kernel

/-- R95. -/
theorem test_decode_lanes : ([
    ([0x78474C2A, 0x06C50000], .red .or (.int ⟨true, .b64⟩) a1),
    ([0x78874C2A, 0x32C50003], .scan .add true (.flt .f32) (up a1)),
    ([0x79974C2A, 0x3AC50003], .cvt .e4m3 (.flt .f32) 1 (up a1)),
    ([0x7A074C21, 0x15230000], .amax .f16 a2),
    ([0x7A174C2A, 0x0AC50000], .qscale 5 a1),
    ([0x7A274C21, 0x0D230000], .qpack 6 a2),
    ([0x7A374C21, 0x0F230000], .qunpack 7 a2),
    ([0x7A474C2A, 0x06C50000], .bpsplit 3 a1),
    ([0x7A574C2A, 0x08C50000], .bpjoin 4 a1),
    ([0x7A674C21, 0x19230000], .perm .e5m2 a2),
    ([0x7A774C2A, 0x06C50000], .vote .uniform a1),
    ([0x7A874C2A, 0x0EC50000], .matchI (.int ⟨false, .b64⟩) a1),
    ([0x7A900C2A, 0x28450000], .wsync { a1 with pm := 0, d := .void, hold := .off }),
    ([0x7AA74C2A, 0x1AC50000], .mov .e4m3 a1),
    ([0x7AB60C2A, 0x54C50000], .movm 5 false .b16 { a1 with d := .void }),
    ([0x7AC74A8A, 0x28000000], .movs 20 a0) ] :
      List (List W32 × Instr)).all (fun p => decodes p.1 p.2) = true := by decide +kernel

/-- R82, R83, R95. -/
theorem test_decode_memory : ([
    ([0x7B054C2A, 0x7FA30008], .ld { m1 with w := .b8, ch := true }),
    ([0x7B140C31, 0x7F238A09], .st { m2 with w := .b16 }),
    ([0x7B254C2A, 0x7F23000A], .lda { m1 with w := .b32 }),
    ([0x7B340C31, 0x7F238A0B], .stl { m2 with w := .b64 }),
    ([0x7B454C2A, 0x7F23000B], .lds m1),
    ([0x7B654C2A, 0x7F23000B], .ldx m1),
    ([0x7B854C2A, 0x7F23000B], .ldc m1),
    ([0x7B540C31, 0x7F238A0B], .sts m2),
    ([0x7B740C31, 0x7F238A0B], .stx m2),
    ([0x7B954C31, 0x4F238A03], .atom .cas .ar { m2 with d := .n 9, off := 0 }),
    ([0x7BA40C31, 0x63238A02], .atoms .fmax .acq { m2 with off := 0, w := .b32 }),
    ([0x7BB40A8A, 0x01000000], .fence { m0 with pn := true }) ] :
      List (List W32 × Instr)).all (fun p => decodes p.1 p.2) = true := by decide +kernel

/-- R84, R85, R95. -/
theorem test_decode_engines : ([
    ([0x7C054C31, 0x0223016D], .mma { t1 with fs := 5, kc := 11 }),
    ([0x7C154C2A, 0x48230001], .accload { t1 with b := .zero, d := .n 4 }),
    ([0x7C254C31, 0x02230181], .accdrain { t1 with fs := 6 }),
    ([0x7C354A8A, 0x02000001], .accrel { t1 with a := .zero, b := .zero, xa := .own }),
    ([0x7C854C31, 0x48238A25], .copy .b16 false true { e2 with t := .n 9, n := some 4 }),
    ([0x7C940C31, 0x02238A01], .engage e2),
    ([0x7CA40A8A, 0x02000001], .rdv e0),
    ([0x7CB40C2A, 0x0223001D], .semsig 7 e1),
    ([0x7CC40C2A, 0x02230019], .semwait 6 e1),
    ([0x7CD4028A, 0x0200000D], .qpop 3 { e0 with t := .push }),
    ([0x7CE40C2A, 0x02230009], .qpush 2 e1),
    ([0x7CF54C31, 0x4823005D], .ncall 7 2 { e1 with t := .n 9, b := .n 2, n := some 4 }),
    ([0x7D040A8A, 0x02000005], .nflush true e0),
    ([0x7D140C31, 0x02230001], .wbind { e2 with xb := .own }),
    ([0x7D240C2A, 0x02230001], .wpin e1),
    ([0x7D340C2A, 0x02230001], .wunpin e1),
    ([0x7D440C2A, 0x02230001], .wpref e1),
    ([0x7D554C31, 0x48238A31], .gmv 3 { e2 with t := .n 9, n := some 4 }),
    ([0x7D654C31, 0x48238A59], .gmm 2 5 { e2 with t := .n 9, n := some 4 }),
    ([0x7D740C31, 0x48238A61], .binapp .exch true { e2 with n := some 4 }),
    ([0x7D854C31, 0x48238A01], .binreplay { e2 with t := .n 9, n := some 4 }),
    ([0x7D940C2A, 0x02230001], .wlinit e1),
    ([0x7DA40C31, 0x02238A01], .wlpush e2),
    ([0x7DB40431, 0x02238A01], .wlins { e2 with t := .push }),
    ([0x7DC54C2A, 0x02230001], .wlpopb { e1 with t := .n 9 }),
    ([0x7DD4042A, 0x48230139], .hashb 6 9 { e1 with t := .push, n := some 4 }),
    ([0x7DE40431, 0x02238A01], .enq { e2 with t := .push }),
    ([0x7DF40C31, 0x02238A05], .depdec true e2),
    ([0x7E040431, 0x48238A05], .tex .bias { e2 with t := .push, n := some 4 }),
    ([0x7E140431, 0x48238A29], .texg .level 2 { e2 with t := .push, n := some 4 }),
    ([0x7E240431, 0x02238A01], .attr { e2 with t := .push }),
    ([0x7E340C31, 0x02238A71], .exportV 12 true e2),
    ([0x7E440A8A, 0x02000001], .discard e0),
    ([0x7E554C2A, 0x48230009], .rayq false true { e1 with t := .n 9, n := some 4 }),
    ([0x7E654C31, 0x48238B25], .coll .reduceScatter .max .i32 { e2 with t := .n 9, n := some 4 }),
    ([0x7E74028A, 0x02000001], .deal { e0 with t := .push }) ] :
      List (List W32 × Instr)).all (fun p => decodes p.1 p.2) = true := by decide +kernel

/-- R86, R87, R95. -/
theorem test_decode_control : ([
    ([0x7E800C24, 0x0023FFFE], .bra .zero { c1 with off := 0xFFFE }),
    ([0x7E900C20, 0x00230000], .brx c1),
    ([0x7EA14A80, 0x00000006], .call { c0 with d := .n 9, off := 6 }),
    ([0x7EB00C20, 0x00230000], .ret c1),
    ([0x7EC00A80, 0x00000000], .exit true),
    ([0x7ED00C38, 0x03A30002], .lsetup 3 7 { c1 with off := 2 }),
    ([0x7EE00420, 0x00230004], .fork { c1 with d := .push, off := 4 }),
    ([0x7EF00A80, 0x00000000], .fjoin true),
    ([0x7F000A80, 0x00000000], .bar true),
    ([0x7F100A82, 0x00000000], .cbar true true),
    ([0x7F200A80, 0x00000000], .yield true),
    ([0x7F300A80, 0x00000000], .nop true),
    ([0x7F400A80, 0x00000000], .trig true),
    ([0x7F500A80, 0x0000ABCD], .trap 0xABCD true),
    ([0x7F600A82, 0x00000000], .rft true true),
    ([0x7F700280, 0x00000002], .csrr 2 true .push),
    ([0x7F800C20, 0x00230801], .csrw 0x801 c1),
    ([0x7F900A80, 0x00000007], .brk 7 true),
    ([0x7FA00A80, 0x00000000], .halt true) ] :
      List (List W32 × Instr)).all (fun p => decodes p.1 p.2) = true := by decide +kernel

/-- R74, R96. -/
theorem test_decode_short : ([
    ([0x00015140], .nopS false),
    ([0x00698547], .movS { s1 with ha := true }),
    ([0x00A98546], .ldS64 s1),
    ([0x00C18626], .stS64 { s2 with d := .void }),
    ([0x01298546], .ldsS64 s1),
    ([0x01418626], .stsS64 { s2 with d := .void }),
    ([0x01A98546], .ldS32 s1),
    ([0x01C18626], .stS32 { s2 with d := .void }),
    ([0x1B298546], .ldsS32 s1),
    ([0x1B418626], .stsS32 { s2 with d := .void }),
    ([0x02298627], .iaddS ⟨true, .b8⟩ { s2 with ha := true }),
    ([0x04698627], .isubS ⟨true, .b16⟩ { s2 with ha := true }),
    ([0x06A98627], .imulS ⟨true, .b32⟩ { s2 with ha := true }),
    ([0x08E98627], .andS ⟨true, .b64⟩ { s2 with ha := true }),
    ([0x0B298627], .orS ⟨false, .b8⟩ { s2 with ha := true }),
    ([0x0D698627], .xorS ⟨false, .b16⟩ { s2 with ha := true }),
    ([0x0FA98627], .shlS ⟨false, .b32⟩ { s2 with ha := true }),
    ([0x11E98627], .shrS ⟨false, .b64⟩ { s2 with ha := true }),
    ([0x12298627], .iminS ⟨true, .b8⟩ { s2 with ha := true }),
    ([0x14698627], .imaxS ⟨true, .b16⟩ { s2 with ha := true }),
    ([0x16298627], .faddS .f64 { s2 with ha := true }),
    ([0x17698627], .fsubS .f32 { s2 with ha := true }),
    ([0x18A98627], .fmulS .f16 { s2 with ha := true }),
    ([0x19E98627], .fminS .bf16 { s2 with ha := true }),
    ([0x1A298627], .fmaxS .f64 { s2 with ha := true }) ] :
      List (List W32 × Instr)).all (fun p => decodes p.1 p.2) = true := by decide +kernel

/-- R89, R211. -/
theorem test_decode_stream : ([
    ([0x56011C2A, 0x02000000], .amov true f1),
    ([0x56111C31, 0x00000000], .aadd f2),
    ([0x56211C31, 0x08000000], .acmp .gt f2),
    ([0x56300C22, 0x00000005], .abr .nonzero { g1 with off := 5 }),
    ([0x56400C30, 0x04800002], .aloop 2 9 { g1 with off := 2 }),
    ([0x56511C31, 0x00000000], .amove f2),
    ([0x56611C31, 0x4A000000], .agather { f2 with c := .a 5 }),
    ([0x56711C31, 0x4A000000], .ascatter { f2 with c := .a 5 }),
    ([0x56800C2A, 0x0E000000], .asig 7 { f1 with d := none }),
    ([0x56900C2A, 0x0C000000], .await 6 { f1 with d := none }),
    ([0x56A00A8A, 0x00000000], .ahalt { f1 with d := none, a := .zero }) ] :
      List (List W32 × Instr)).all (fun p => decodes p.1 p.2) = true := by decide +kernel

def x2 : Alu := { tAlu with e := false, d := .push, a := .n 4, b := .n 5 }
def y2 : Eng := { tEng with a := .n 2, b := .n 3 }

/-- The worked encodings of the pages of ICMP, IMAD, LEA, SEL, IADD, XOR, OR, PERM, QSCALE, HASHB and LSETUP. -/
theorem test_worked_encodings : ([
    ([0x44A0000A, 0x04000000], .icmp .lt ⟨true, .b32⟩ { x2 with a := .q 0, b := .zero }),
    ([0x42600492, 0xCC000000], .imad ⟨false, .b32⟩ { x2 with c := .n 6 }),
    ([0x45700000, 0x86000000], .lea false 3 { x2 with a := .q 0, b := .q 1 }),
    ([0x4CE00012, 0x4A000000], .sel ⟨false, .b32⟩ { x2 with a := .q 0, b := .n 4, c := .n 5 }),
    ([0x40100492, 0x82000000], .iadd true ⟨true, .b16⟩ x2),
    ([0x0DC00010], .xorS ⟨false, .b64⟩ { e := false, d := .push, a := .q 0, b := .q 1, pm := 0, ha := false }),
    ([0x86F11009, 0xA8000000, 0x3C000000],
      .orI ⟨false, .b64⟩ { x2 with d := .n 2, a := .q 0, b := .lit, lit := some 0x3C000000 }),
    ([0x9A600489, 0x88000000, 0x01234567], .perm (.int ⟨false, .b8⟩) { x2 with b := .lit, lit := some 0x01234567 }),
    ([0x5A11380A, 0x02000000], .qscale 1 { x2 with d := .n 7, a := .q 0, b := .zero }),
    ([0x5DD0042A, 0x480001E4], .hashb 1 15 { y2 with e := false, t := .push, a := .n 1, b := .zero, n := some 4 }),
    ([0x7E614C51, 0xC8000000], .coll .allReduce .add .f32 { y2 with t := .n 9, n := some 4 }),
    ([0x7C814C51, 0xC8000028], .copy .b32 false true { y2 with t := .n 9, n := some 4 }),
    ([0x7ED00D00, 0x03800002], .lsetup 0 7 { e := true, d := .void, a := .n 8, xa := .own, off := 2, lit := none }) ] :
      List (List W32 × Instr)).all (fun p => decodes p.1 p.2) = true := by decide +kernel

/-- Reserved encodings are refused and fall to no neighbour (R92, R95, R96, R97). -/
theorem test_reserved_encodings :
    ([[0x5AD0048A, 0x14000000], [0x74F00000, 0], [0x7FB00A80, 0], [0x1B800000], [0x00000000], [0x5AF0048A, 0x14000000],
      [0x44A0000A, 0x0C000000], [0x60000000]] : List (List W32)).all (fun ws => (decodeWords ws).toOption.isNone) = true := by
  decide +kernel

/-! ## States for the witnesses -/

/-- Registers of every lane of the run in hand: n1, n2 and `fpen` as given, every other as at launch. -/
def tRegs (n1 n2 : Val) (fpen : W32) : Regs :=
  { Regs.launch with
    n := (Regs.launch.n.set 1 n1).set 2 n2, fpen := fpen }

def tJob : Job :=
  { placeJob with
    card := { placeJob.card with slots := #v[0, 0x10, 0, 0, 0, 0, 0, 8], handler := placeCode } }

def tTeam : Team :=
  { placeTeam 0 with
    scrSize := 1024, stage := some (.pixel 1),
    waves := [placeWave { Thread.launch placeCode 0 0 with inHandler := true }] }

/-- A run of lane 0 at the first instruction of the block at `placeCode`. -/
def tRun (g : Regs) : Run :=
  { wave := ⟨⟨1, 0⟩, 0, 0⟩, group := 1, start := placeCode + 8, blk := placeCode, pc := placeCode + 8, count := 0,
    pushes := 0, spec := Vector.replicate 32 g, latch := Vector.replicate 32 [], holds := 0, stores := [],
    flags := Vector.replicate 32 0, rx := false, fence := 0, samples := [], suspended := false, reserve := none, wiped := [] }

/-- A booted device with one team and that run, over the page table and block of `State.place` with a two-word
instruction. -/
def tState (g : Regs) : State :=
  ({ State.reset with
      boot := .done, runs := [tRun g], jobs := [tJob], teams := [tTeam] } : State).place [0x7F300A80, 0]

def calm : Regs := tRegs Val.zero Val.zero 0
def tainted : Regs := tRegs ⟨0, 0xFF⟩ ⟨0, 0xFF⟩ 0
/-- n1 and n2 hold signalling NaNs of f32, and every exception is enabled to trap. -/
def strict : Regs := tRegs ⟨0x7F8000017F800001, 0⟩ ⟨0x7F8000017F800001, 0⟩ 0x1F

/-! ## Checks that decide the hypotheses of the statements -/

def readyB (s : State) (r : Run) (sh : Shape) (i : Instr) : Bool :=
  (s.illegal r.wave r.group r.holds (s.lastOfText r sh) i).isNone && !s.mustWait r sh && !s.owesAck r sh i

def fallsB (s : State) (r : Run) (sh : Shape) : Bool :=
  match s.checkFall r sh with
  | .ok _ => true
  | .error _ => false

theorem ready_of {s : State} {r : Run} {sh : Shape} {i : Instr} (hr : s.runs.head? = some r) (hs : i.shape = some sh)
    (h : readyB s r sh i = true) : Ready s i r sh := by
  simp only [readyB, Bool.and_eq_true, Option.isNone_iff_eq_none, Bool.not_eq_true'] at h
  exact ⟨hr, hs, h.1.1, h.1.2, h.2⟩

theorem falls_of {s s' : State} {r : Run} {sh : Shape} (h : fallsB s' r sh = true) : FallsWell s s' r sh := by
  intro _
  unfold fallsB at h
  split at h
  · exact ⟨_, by assumption⟩
  · simp at h

/-- A state and a run where instruction `i` is ready and a condition on them holds. -/
def Meets (i : Instr) (ok : State → Run → Shape → Prop) : Prop :=
  ∃ s r sh, Ready s i r sh ∧ ok (s.tokenReads r sh) r sh ∧ FallsWell s (s.tokenReads r sh) r sh

def meetsB (s : State) (i : Instr) (ok : State → Run → Shape → Bool) : Bool :=
  match i.shape, s.runs with
  | some sh, r :: _ => readyB s r sh i && ok (s.tokenReads r sh) r sh && fallsB (s.tokenReads r sh) r sh
  | _, _ => false

theorem meets_of {s : State} {i : Instr} {ok : State → Run → Shape → Prop} {okB : State → Run → Shape → Bool}
    (hb : ∀ s r sh, okB s r sh = true → ok s r sh) (h : meetsB s i okB = true) : Meets i ok := by
  unfold meetsB at h
  split at h
  · rename_i sh r _ hs hr
    simp only [Bool.and_eq_true] at h
    exact ⟨s, r, sh, ready_of (by simp [hr]) hs h.1.1, hb _ _ _ h.1.2, falls_of h.2⟩
  · simp at h

/-! ## The ALU class -/

def cleanB (g : AluRule) (s : State) (r : Run) (sh : Shape) : Bool :=
  (List.finRange 32).all fun l => !LaneMask.has r.group l ||
    (!g.bad s r sh l && fpxFlags (r.spec[l]).fpen (g.trap s r) (g.flags s r sh l) == 0)

theorem clean_of {g : AluRule} (s : State) (r : Run) (sh : Shape) (h : cleanB g s r sh = true) : g.Clean s r sh := by
  simp only [cleanB, List.all_eq_true, List.mem_finRange, true_implies, Bool.or_eq_true, Bool.not_eq_true', Bool.and_eq_true,
    beq_iff_eq] at h
  refine ⟨fun l hl => ?_, fun l hl => ?_⟩ <;> rcases h l with h | h
  · simp [h] at hl
  · exact h.1
  · simp [h] at hl
  · exact h.2

/-- What the first clause of a rule asks holds somewhere; and the second; and the third. -/
def CleanSomewhere (p : Instr × AluRule) : Prop := Meets p.1 p.2.Clean
def PoisonSomewhere (p : Instr × AluRule) : Prop := Meets p.1 fun s r sh => p.2.poisons s r sh ≠ 0
def TrapSomewhere (p : Instr × AluRule) : Prop :=
  Meets p.1 fun s r sh => p.2.poisons s r sh = 0 ∧ ∃ l, p.2.raises s r sh l ≠ 0

def cleanAll (ps : List (Instr × AluRule)) : Bool := ps.all fun p => meetsB (tState calm) p.1 (cleanB p.2)
def poisonAll (ps : List (Instr × AluRule)) : Bool :=
  ps.all fun p => meetsB (tState tainted) p.1 fun s r sh => p.2.poisons s r sh != 0
def trapAll (ps : List (Instr × AluRule)) : Bool :=
  ps.all fun p => meetsB (tState strict) p.1 fun s r sh => p.2.poisons s r sh == 0 && p.2.raises s r sh 0 != 0

theorem clean_all {ps : List (Instr × AluRule)} (h : cleanAll ps = true) : ∀ p ∈ ps, CleanSomewhere p := fun p hp =>
  meets_of clean_of (List.all_eq_true.1 h p hp)

theorem poison_all {ps : List (Instr × AluRule)} (h : poisonAll ps = true) : ∀ p ∈ ps, PoisonSomewhere p := fun p hp =>
  meets_of (by simp) (List.all_eq_true.1 h p hp)

theorem trap_all {ps : List (Instr × AluRule)} (h : trapAll ps = true) : ∀ p ∈ ps, TrapSomewhere p := fun p hp =>
  meets_of (fun s r sh h => by
    simp only [Bool.and_eq_true, beq_iff_eq, bne_iff_ne] at h
    exact ⟨h.1, 0, h.2⟩) (List.all_eq_true.1 h p hp)

def i32 : ITy := ⟨true, .b32⟩

/-- One instruction for each clause of `IntegerArithmetic`. -/
noncomputable def arithmetic : List (Instr × AluRule) :=
  [ (.iadd false i32 tAlu, subRule i32 fun _ a b _ => a + b),
    (.iadd true i32 tAlu, subRule i32 fun w a b _ => clampRule true w (readAs true a + readAs true b)),
    (.isub false i32 tAlu, subRule i32 fun _ a b _ => a - b),
    (.isub true i32 tAlu, subRule i32 fun w a b _ => clampRule true w (readAs true a - readAs true b)),
    (.imul i32 tAlu, subRule i32 fun _ a b _ => a * b),
    (.imulh i32 tAlu, subRule i32 fun w a b _ => BitVec.ofInt w (readAs true a * readAs true b / 2 ^ w)),
    (.imad i32 tAlu3, subRule i32 fun _ a b c => a * b + c),
    (.imin i32 tAlu, subRule i32 fun _ a b _ => if readAs true a ≤ readAs true b then a else b),
    (.imax i32 tAlu, subRule i32 fun _ a b _ => if readAs true a ≥ readAs true b then a else b),
    (.iabs .b32 tAlu1, subRule ⟨true, .b32⟩ fun _ a _ _ => if a.msb then -a else a),
    (.ineg .b32 tAlu1, subRule ⟨true, .b32⟩ fun _ a _ _ => -a),
    (.icmp .lt i32 tAlu, subRule i32 (icmpRule .lt true)),
    (.lea true 3 tAlu, subRule ⟨true, .b64⟩ fun w a b _ => a + b * BitVec.ofNat w (2 ^ 3)),
    (.iaddS i32 tShort, subRule i32 fun _ a b _ => a + b), (.isubS i32 tShort, subRule i32 fun _ a b _ => a - b),
    (.imulS i32 tShort, subRule i32 fun _ a b _ => a * b),
    (.iminS i32 tShort, subRule i32 fun _ a b _ => if readAs true a ≤ readAs true b then a else b),
    (.imaxS i32 tShort, subRule i32 fun _ a b _ => if readAs true a ≥ readAs true b then a else b) ]

theorem witness_IntegerArithmetic : (∀ p ∈ arithmetic, CleanSomewhere p) ∧ ∀ p ∈ arithmetic, PoisonSomewhere p :=
  ⟨clean_all (by decide +kernel), poison_all (by decide +kernel)⟩

/-- One instruction for each clause of `IntegerBits`. -/
noncomputable def bitwise : List (Instr × AluRule) :=
  [ (.andI i32 tAlu, subRule i32 fun _ a b _ => a &&& b), (.andn i32 tAlu, subRule i32 fun _ a b _ => a &&& ~~~b),
    (.orI i32 tAlu, subRule i32 fun _ a b _ => a ||| b), (.xorI i32 tAlu, subRule i32 fun _ a b _ => a ^^^ b),
    (.notI i32 tAlu1, subRule i32 fun _ a _ _ => ~~~a), (.shl i32 tAlu, subRule i32 fun _ a b _ => a <<< b),
    (.shr i32 tAlu, subRule i32 fun _ a b _ => a >>> b), (.sar i32 tAlu, subRule i32 fun _ a b _ => a.sshiftRight b.toNat),
    (.rol i32 tAlu, subRule i32 fun _ a b _ => a.rotateLeft b.toNat),
    (.popc i32 tAlu1, subRule i32 fun w a _ _ => BitVec.ofNat w ((List.range w).countP fun i => a.getLsbD i)),
    (.clz i32 tAlu1, subRule i32 fun w a _ _ => BitVec.ofNat w ((List.range w).countP fun i => a.toNat < 2 ^ i)),
    (.brev i32 tAlu1, subRule i32 fun _ a _ _ => a.reverse), (.bfe i32 tAlu3, subRule i32 fun w a b c => fieldRule true w a b c),
    (.bfi i32 tAlu3, subRule i32 fun w a b c => insertRule w a b c), (.andS i32 tShort, subRule i32 fun _ a b _ => a &&& b),
    (.orS i32 tShort, subRule i32 fun _ a b _ => a ||| b), (.xorS i32 tShort, subRule i32 fun _ a b _ => a ^^^ b),
    (.shlS i32 tShort, subRule i32 fun _ a b _ => a <<< b), (.shrS i32 tShort, subRule i32 fun _ a b _ => a >>> b) ]

theorem witness_IntegerBits : (∀ p ∈ bitwise, CleanSomewhere p) ∧ ∀ p ∈ bitwise, PoisonSomewhere p :=
  ⟨clean_all (by decide +kernel), poison_all (by decide +kernel)⟩

/-- One instruction for each clause of `FloatResults`: those with flags, and the two without. -/
def floats : List (Instr × AluRule) :=
  [ (.fadd .f32 tAlu, roundRule (.flt .f32) (faddF .f32 .ne)), (.fsub .f32 tAlu, roundRule (.flt .f32) (fsubF .f32 .ne)),
    (.fmul .f32 tAlu, roundRule (.flt .f32) (fmulF .f32 .ne)), (.ffma .f32 tAlu3, roundRule (.flt .f32) (ffmaF .f32 .ne)),
    (.fmin .f32 tAlu, roundRule (.flt .f32) (fminF .f32)), (.fmax .f32 tAlu, roundRule (.flt .f32) (fmaxF .f32)),
    (.fcmp .lt .f32 tAlu, roundRule (.flt .f32) (fcmpF .lt .f32)),
    (.frnd .f32 tAlu1, roundRule (.flt .f32) (frndF .f32 .ne)), (.faddS .f32 tShort, roundRule (.flt .f32) (faddF .f32 .ne)),
    (.fsubS .f32 tShort, roundRule (.flt .f32) (fsubF .f32 .ne)),
    (.fmulS .f32 tShort, roundRule (.flt .f32) (fmulF .f32 .ne)), (.fminS .f32 tShort, roundRule (.flt .f32) (fminF .f32)),
    (.fmaxS .f32 tShort, roundRule (.flt .f32) (fmaxF .f32)) ]
def flagless : List (Instr × AluRule) :=
  [ (.fclass .f32 tAlu1, roundRule (.flt .f32) fun a b c => ⟨fclassF .f32 a b c, 0⟩),
    (.amax .f32 tAlu, roundRule (.flt .f32) fun a b c => ⟨amaxF .f32 a b c, 0⟩) ]

theorem witness_FloatResults :
    (∀ p ∈ floats ++ flagless, CleanSomewhere p) ∧ (∀ p ∈ floats ++ flagless, PoisonSomewhere p) ∧
      ∀ p ∈ floats, TrapSomewhere p :=
  ⟨clean_all (by decide +kernel), poison_all (by decide +kernel), trap_all (by decide +kernel)⟩

/-- One instruction for each clause of `Transcendentals`. -/
def transcs : List (Instr × AluRule) :=
  let g := fun f => roundRule (.flt .f32) (transcF f .f32 .ne)
  [ (.frcp .f32 tAlu1, g .rcp), (.frsq .f32 tAlu1, g .rsq), (.fsqrt .f32 tAlu1, g .sqrt), (.fexp2 .f32 tAlu1, g .exp2),
    (.flog2 .f32 tAlu1, g .log2), (.fsin .f32 tAlu1, g .sin), (.fcos .f32 tAlu1, g .cos), (.ftanh .f32 tAlu1, g .tanh),
    (.fsigm .f32 tAlu1, g .sigm) ]

theorem witness_Transcendentals :
    (∀ p ∈ transcs, CleanSomewhere p) ∧ (∀ p ∈ transcs, PoisonSomewhere p) ∧ ∀ p ∈ transcs, TrapSomewhere p :=
  ⟨clean_all (by decide +kernel), poison_all (by decide +kernel), trap_all (by decide +kernel)⟩

/-- One instruction for each clause of `MovesAndSelection`: those that consume poison, and the moves that carry it. -/
def selections : List (Instr × AluRule) :=
  [ (.sel i32 tAlu3, selRule i32), (.perm tyW32 tAlu, permRule tyW32),
    (.movm 2 false .b32 { tAlu1 with d := .void }, movmRule 2 false .b32) ]
def moves : List (Instr × AluRule) :=
  [ (.mov tyW32 tAlu1, copyRule tyW32), (.movS { tShort with b := .zero }, copyRule tyW64),
    (.movm 2 true .b32 tAlu0, movmRule 2 true .b32), (.movs 16 tAlu0, movsRule 16) ]

theorem witness_MovesAndSelection :
    (∀ p ∈ selections ++ moves, CleanSomewhere p) ∧ ∀ p ∈ selections, PoisonSomewhere p :=
  ⟨clean_all (by decide +kernel), poison_all (by decide +kernel)⟩

/-- One instruction for each clause of `GroupResults`. -/
def folds : List (Instr × AluRule) :=
  [ (.red .add tyF32 tAlu1, reduceRule .add tyF32 .ne), (.scan .add true tyF32 { tAlu1 with a := .n 1 }, scanRule .add true tyF32 .ne) ]
noncomputable def ballots : List (Instr × AluRule) :=
  [ (.vote .ballot tAlu1, voteRule .ballot), (.matchI tyW32 tAlu1, matchRule tyW32) ]

theorem witness_GroupResults :
    (∀ p ∈ folds ++ ballots, CleanSomewhere p) ∧ (∀ p ∈ folds ++ ballots, PoisonSomewhere p) ∧ ∀ p ∈ folds, TrapSomewhere p :=
  ⟨clean_all (by decide +kernel), poison_all (by decide +kernel), trap_all (by decide +kernel)⟩

/-- One instruction for each clause of `Conversions`. -/
def conversions : List (Instr × AluRule) :=
  [ (.cvt tyF16 tyF32 0 tAlu1, cvtRule tyF16 tyF32 0 .ne), (.qscale 1 tAlu1, qscaleRule 1), (.qpack 1 tAlu, qpackRule 1),
    (.qunpack 1 tAlu, qunpackRule 1), (.bpsplit 7 tAlu1, bpsplitRule 7) ]

theorem witness_Conversions :
    (∀ p ∈ conversions ++ [(.bpjoin 7 tAlu1, bpjoinRule 7)], CleanSomewhere p) ∧
      (∀ p ∈ conversions ++ [(.bpjoin 7 tAlu1, bpjoinRule 7)], PoisonSomewhere p) ∧ ∀ p ∈ conversions, TrapSomewhere p :=
  ⟨clean_all (by decide +kernel), poison_all (by decide +kernel), trap_all (by decide +kernel)⟩

/-! ## The MEM class -/

/-- n1 is an address, n2 a datum. -/
def at_ (a : Word) : Regs := tRegs ⟨a, 0⟩ ⟨7, 0⟩ 0

def LoadRuns (p : Instr × LoadForm) : Prop := Meets p.1 fun s r sh =>
  excsOf (p.2.lanes s r sh).1 = [] ∧ holdsOf (p.2.lanes s r sh).1 = [] ∧ ∀ t, FallsWell t (p.2.after s r sh).2 r sh
def LoadFaults (p : Instr × LoadForm) : Prop := Meets p.1 fun s r sh =>
  ∃ e, firstExc (excsOf (p.2.lanes s r sh).1) = some e

def loadRunsB (a : Word) (p : Instr × LoadForm) : Bool := meetsB (tState (at_ a)) p.1 fun s r sh =>
  (excsOf (p.2.lanes s r sh).1).isEmpty && (holdsOf (p.2.lanes s r sh).1).isEmpty && fallsB (p.2.after s r sh).2 r sh
def loadFaultsB (p : Instr × LoadForm) : Bool := meetsB (tState (at_ 1)) p.1 fun s r sh =>
  (firstExc (excsOf (p.2.lanes s r sh).1)).isSome

theorem load_runs {a : Word} {p : Instr × LoadForm} (h : loadRunsB a p = true) : LoadRuns p :=
  meets_of (fun s r sh h => by
    simp only [Bool.and_eq_true, List.isEmpty_iff] at h
    exact ⟨h.1.1, h.1.2, fun _ => falls_of h.2⟩) h

theorem load_faults {p : Instr × LoadForm} (h : loadFaultsB p = true) : LoadFaults p :=
  meets_of (fun _ _ _ h => Option.isSome_iff_exists.1 h) h

def tShortL : Short := { tShort with b := .zero }
def tShortS : Short := { tShort with d := .void }

/-- The loads of global memory, and those of scratchpads. -/
def globLoads : List (Instr × LoadForm) :=
  [ (.ld tMem, ⟨.glob, .l1 false, .b64, 0⟩), (.lda tMem, ⟨.glob, .home, .b64, 0⟩), (.ldc tMem, ⟨.const, .cc, .b64, 0⟩),
    (.ldS64 tShortL, ⟨.glob, .l1 false, .b64, 0⟩), (.ldS32 tShortL, ⟨.glob, .l1 false, .b32, 0⟩) ]
def scrLoads : List (Instr × LoadForm) :=
  [ (.lds tMem, ⟨.scr, .scr, .b64, 0⟩), (.ldx tMem, ⟨.peer, .scr, .b64, 0⟩),
    (.ldsS64 tShortL, ⟨.scr, .scr, .b64, 0⟩), (.ldsS32 tShortL, ⟨.scr, .scr, .b32, 0⟩) ]

theorem witness_Loads : (∀ p ∈ globLoads ++ scrLoads, LoadRuns p) ∧ ∀ p ∈ globLoads ++ scrLoads, LoadFaults p := by
  have h : globLoads.all (loadRunsB placeCode) = true ∧ scrLoads.all (loadRunsB 0) = true ∧
      (globLoads ++ scrLoads).all loadFaultsB = true := by decide +kernel
  refine ⟨fun p hp => ?_, fun p hp => load_faults (List.all_eq_true.1 h.2.2 p hp)⟩
  rcases List.mem_append.1 hp with hp | hp
  · exact load_runs (List.all_eq_true.1 h.1 p hp)
  · exact load_runs (List.all_eq_true.1 h.2.1 p hp)

/-- A leaf of the page after the code leads to a byte of device 1 (R162). -/
def remoteLeaf : Word := 0x00010000000009DF
def remoteHpa : Nat := 0x0001000000000000

def State.withRemote (s : State) : State :=
  { s with
    mem := (List.range 8).foldl
      (fun m i => m.write (s.key 0 (placeTable + 16 + i)) ((bytesLE 8 remoteLeaf.toNat).getD i 0)) s.mem }

def tRemote : State := State.withRemote (tState (at_ (2 * placeCode)))

/-- The state in which the walks of a load are done. -/
def walked (s : State) (r : Run) (sh : Shape) (g : LoadForm) : State :=
  if g.path = .home then s.reached r g.sp .read (g.places s r sh) else s

def remoteB (p : Instr × LoadForm) : Bool := meetsB tRemote p.1 fun s r sh =>
  lanesOf (r.active sh) = [0] && !((walked s r sh p.2).addrOf r sh 0).bad &&
    match (walked s r sh p.2).spot r 0 p.2.sp (s.placeOf r sh p.2.off 0) p.2.w.bytes .read with
    | .ok (x, t) => x.loc = .phys 0 remoteHpa && !t.isLocal remoteHpa && t.tick = 0
    | .error _ => false

/-- A load waits where the other device does not answer; whether it does is not the spec's to say here, and so a premise. -/
theorem witness_Loads_await (h : Config.peerAnswers 0 remoteHpa = false) :
    ∀ p ∈ globLoads, Meets p.1 fun s r sh => excsOf (p.2.lanes s r sh).1 = [] ∧ holdsOf (p.2.lanes s r sh).1 ≠ [] := by
  have hb : globLoads.all remoteB = true := by decide +kernel
  intro p hp
  refine meets_of (fun s r sh h' => ?_) (List.all_eq_true.1 hb p hp)
  simp only [Bool.and_eq_true, decide_eq_true_eq, Bool.not_eq_true'] at h'
  obtain ⟨⟨h1, h2⟩, h3⟩ := h'
  split at h3
  · rename_i x t hx
    simp only [Bool.and_eq_true, decide_eq_true_eq, Bool.not_eq_true'] at h3
    obtain ⟨⟨h3, h4⟩, h5⟩ := h3
    have e : p.2.lanes s r sh = ([(0, .hold remoteHpa)], t) := by
      show gather _ _ (walked s r sh p.2) = _
      simp only [h1, gather, State.loadLane]
      simp only [show (if p.2.path = .home then s.reached r p.2.sp .read (p.2.places s r sh) else s) = walked s r sh p.2 from rfl,
        hx, h2, h3, h4, h5, h]
      rfl
    rw [e]
    exact ⟨rfl, by simp [holdsOf]⟩
  · simp at h3

def StoreRuns (p : Instr × StoreForm) : Prop := Meets p.1 fun s r sh =>
  (p.2.lanes s r sh).2.1 = [] ∧ ∀ t, FallsWell t (p.2.lanes s r sh).2.2 r sh
def StoreFaults (p : Instr × StoreForm) : Prop := Meets p.1 fun s r sh => ∃ e, firstExc (p.2.lanes s r sh).2.1 = some e

def storeRunsB (a : Word) (p : Instr × StoreForm) : Bool := meetsB (tState (at_ a)) p.1 fun s r sh =>
  (p.2.lanes s r sh).2.1.isEmpty && fallsB (p.2.lanes s r sh).2.2 r sh
def storeFaultsB (p : Instr × StoreForm) : Bool := meetsB (tState (at_ 1)) p.1 fun s r sh =>
  (firstExc (p.2.lanes s r sh).2.1).isSome

theorem store_runs {a : Word} {p : Instr × StoreForm} (h : storeRunsB a p = true) : StoreRuns p :=
  meets_of (fun s r sh h => by
    simp only [Bool.and_eq_true, List.isEmpty_iff] at h
    exact ⟨h.1, fun _ => falls_of h.2⟩) h

theorem store_faults {p : Instr × StoreForm} (h : storeFaultsB p = true) : StoreFaults p :=
  meets_of (fun _ _ _ h => Option.isSome_iff_exists.1 h) h

def globStores : List (Instr × StoreForm) :=
  [ (.st tMemS, ⟨.glob, .plain, .b64, 0⟩), (.stl tMemS, ⟨.glob, .marked, .b64, 0⟩),
    (.stS64 tShortS, ⟨.glob, .plain, .b64, 0⟩), (.stS32 tShortS, ⟨.glob, .plain, .b32, 0⟩) ]
def scrStores : List (Instr × StoreForm) :=
  [ (.sts tMemS, ⟨.scr, .plain, .b64, 0⟩), (.stx tMemS, ⟨.peer, .plain, .b64, 0⟩),
    (.stsS64 tShortS, ⟨.scr, .plain, .b64, 0⟩), (.stsS32 tShortS, ⟨.scr, .plain, .b32, 0⟩) ]

theorem witness_Stores : (∀ p ∈ globStores ++ scrStores, StoreRuns p) ∧ ∀ p ∈ globStores ++ scrStores, StoreFaults p := by
  have h : globStores.all (storeRunsB placeCode) = true ∧ scrStores.all (storeRunsB 0) = true ∧
      (globStores ++ scrStores).all storeFaultsB = true := by decide +kernel
  refine ⟨fun p hp => ?_, fun p hp => store_faults (List.all_eq_true.1 h.2.2 p hp)⟩
  rcases List.mem_append.1 hp with hp | hp
  · exact store_runs (List.all_eq_true.1 h.1 p hp)
  · exact store_runs (List.all_eq_true.1 h.2.1 p hp)

def tAtom : Mem := { tMem with b := .n 2 }

theorem witness_AtomicsAndFence :
    (Meets (.atom .add .ar tAtom) fun s r sh =>
      (atomLanes .glob .add .b64 (.n 9) s r sh).2.1 = [] ∧ ∀ t, FallsWell t (atomLanes .glob .add .b64 (.n 9) s r sh).2.2 r sh) ∧
    (Meets (.atom .add .ar tAtom) fun s r sh => ∃ e, firstExc (atomLanes .glob .add .b64 (.n 9) s r sh).2.1 = some e) ∧
    (Meets (.atoms .cas .plain tAtom) fun s r sh =>
      (atomLanes .scr .cas .b64 (.n 9) s r sh).2.1 = [] ∧ ∀ t, FallsWell t (atomLanes .scr .cas .b64 (.n 9) s r sh).2.2 r sh) ∧
    Meets (.atoms .cas .plain tAtom) fun s r sh => ∃ e, firstExc (atomLanes .scr .cas .b64 (.n 9) s r sh).2.1 = some e := by
  have run : ∀ (sp : Space) op (i : Instr) a, meetsB (tState (at_ a)) i (fun s r sh =>
      (atomLanes sp op .b64 (.n 9) s r sh).2.1.isEmpty && fallsB (atomLanes sp op .b64 (.n 9) s r sh).2.2 r sh) = true →
      Meets i fun s r sh =>
        (atomLanes sp op .b64 (.n 9) s r sh).2.1 = [] ∧ ∀ t, FallsWell t (atomLanes sp op .b64 (.n 9) s r sh).2.2 r sh := by
    intro sp op i a
    exact meets_of fun s r sh h => by
      simp only [Bool.and_eq_true, List.isEmpty_iff] at h
      exact ⟨h.1, fun _ => falls_of h.2⟩
  have bad : ∀ (sp : Space) op (i : Instr), meetsB (tState (at_ 1)) i (fun s r sh =>
      (firstExc (atomLanes sp op .b64 (.n 9) s r sh).2.1).isSome) = true →
      Meets i fun s r sh => ∃ e, firstExc (atomLanes sp op .b64 (.n 9) s r sh).2.1 = some e := by
    intro sp op i
    exact meets_of fun _ _ _ h => Option.isSome_iff_exists.1 h
  exact ⟨run _ _ _ placeCode (by decide +kernel), bad _ _ _ (by decide +kernel), run _ _ _ 0 (by decide +kernel),
    bad _ _ _ (by decide +kernel)⟩

def tFence : Mem := { tMemS with a := .zero, b := .zero, w := .b8 }

theorem witness_AtomicsAndFence_fence : Meets (.fence tFence) fun _ _ _ => True :=
  meets_of (okB := fun _ _ _ => true) (fun _ _ _ _ => trivial) (s := tState calm) (by decide +kernel)

/-! ## The ENG and MAT classes -/

/-- Every named register holds v; n9 is the handle of slot 0 of context 0. -/
def allRegs (v : Val) : Regs :=
  { Regs.launch with
    n := (Vector.replicate 32 v).set 9 ⟨handleWord 0 0 0, v.poison⟩ }

def tSlot : AccSlot := { cluster := 0, ctx := 0, slot := 0, gen := 0, owner := some ⟨1, 0⟩, data := [], poison := [] }

/-- The device with its team holding slot 0 of context 0, 16 counters, and commands of one kind in flight. -/
def eState (v : Val) (cmds : List Cmd) : State :=
  { tState (allRegs v) with
    acc := [tSlot], contexts := [⟨0, 0, 1⟩], cmds := cmds,
    vfs := [(0, { VfRegs.reset with vfquota := BitVec.allOnes 64, vfcfg := BitVec.allOnes 64 })] }

/-- Operands that are good for every engine instruction: a page's address, aligned to it. -/
def fit : Val := ⟨placeCode, 0⟩
/-- Operands that are not: misaligned, outside every bound, and poisoned. -/
def unfit : Val := ⟨0xFFFF0001, 0xFF⟩

def tCmd (kind : CmdKind) : Cmd :=
  { id := 0, wave := ⟨⟨1, 0⟩, 0, 0⟩, lanes := 1, tok := none, seq := 1, pc := placeCode + 8, cls := 0, cluster := 0,
    core := 0, wid := 0, vf := 0, partNo := 0, asd := tJob.asd, kind := kind, ticket := none, parked := [], drop := [], done := [], part := none,
    started := none, sig := 0, silent := false, enc := [], mem0 := ⟨[]⟩, scr0 := ⟨[]⟩ }

def EngIdles (p : Instr × EngForm) : Prop := Meets p.1 fun s r sh => p.2.acts s r sh = 0
def EngGoes (p : Instr × EngForm) : Prop :=
  Meets p.1 fun s r sh => p.2.acts s r sh ≠ 0 ∧ p.2.checks s r sh = [] ∧ p.2.late s r sh = false
def EngFaults (p : Instr × EngForm) : Prop :=
  Meets p.1 fun s r sh => ∃ e, p.2.acts s r sh ≠ 0 ∧ firstExc (p.2.checks s r sh) = some e
def EngWaits (p : Instr × EngForm) : Prop :=
  Meets p.1 fun s r sh => p.2.acts s r sh ≠ 0 ∧ p.2.checks s r sh = [] ∧ p.2.late s r sh = true

def engIdlesB (p : Instr × EngForm) : Bool := meetsB (eState fit []) p.1 fun s r sh => p.2.acts s r sh == 0
def engGoesB (p : Instr × EngForm) : Bool := meetsB (eState fit []) p.1 fun s r sh =>
  p.2.acts s r sh != 0 && (p.2.checks s r sh).isEmpty && !p.2.late s r sh
def engFaultsB (p : Instr × EngForm) : Bool := meetsB (eState unfit []) p.1 fun s r sh =>
  p.2.acts s r sh != 0 && (firstExc (p.2.checks s r sh)).isSome
def engWaitsB (s : State) (p : Instr × EngForm) : Bool := meetsB s p.1 fun s r sh =>
  p.2.acts s r sh != 0 && (p.2.checks s r sh).isEmpty && p.2.late s r sh

theorem eng_idles {p : Instr × EngForm} (h : engIdlesB p = true) : EngIdles p := meets_of (by simp) h
theorem eng_goes {p : Instr × EngForm} (h : engGoesB p = true) : EngGoes p :=
  meets_of (fun s r sh h => by
    simp only [Bool.and_eq_true, bne_iff_ne, List.isEmpty_iff, Bool.not_eq_true'] at h
    exact ⟨h.1.1, h.1.2, h.2⟩) h
theorem eng_faults {p : Instr × EngForm} (h : engFaultsB p = true) : EngFaults p :=
  meets_of (fun s r sh h => by
    simp only [Bool.and_eq_true, bne_iff_ne] at h
    obtain ⟨e, he⟩ := Option.isSome_iff_exists.1 h.2
    exact ⟨e, h.1, he⟩) h
theorem eng_waits {s : State} {p : Instr × EngForm} (h : engWaitsB s p = true) : EngWaits p :=
  meets_of (fun s r sh h => by
    simp only [Bool.and_eq_true, bne_iff_ne, List.isEmpty_iff] at h
    exact ⟨h.1.1, h.1.2, h.2⟩) h

/-- An instruction and its form, for either value of PN, which decides whether lane 0 takes part. -/
abbrev Pair := Bool → Instr × EngForm

def pe (f : Eng) (pn : Bool) : Eng := { f with pn := pn }
def pm_ (f : Mat) (pn : Bool) : Mat := { f with pn := pn }
def tTok : Eng := { tEng with t := .n 8, n := some 3 }
def tOne : Eng := { tEng with b := .zero }
def tNone : Eng := { tOne with a := .zero }

/-- One pair for each EngForm clause of a statement that waits while a queue is full. -/
def pCopy : Pair := fun pn => (.copy .b32 false false (pe tTok pn), copyForm .b32 false false 8 3)
def pRel : Pair := fun pn => let f := pm_ { tMat with kc := 0, a := .zero, b := .zero } pn; (.accrel f, accrelForm f)
def pCall : Pair := fun pn => let f := pe { tTok with b := .n 5 } pn; (.ncall 1 1 f, ncallForm 1 1 f)
def pGmv : Pair := fun pn => let f := pe tTok pn; (.gmv 0 f, grammarForm 1 0 f)
def pGmm : Pair := fun pn => let f := pe tTok pn; (.gmm 3 0 f, grammarForm 4 0 f)
def pApp : Pair := fun pn => let f := pe { tEng with n := some 3 } pn; (.binapp .add true f, binappForm .add true 3)
def pReplay : Pair := fun pn => let f := pe tTok pn; (.binreplay f, binreplayForm 8 3)

def queued : List Pair := [pCopy, pRel, pCall, pGmv, pGmm, pApp, pReplay]

/-! One pair for each EngForm clause of a statement that never waits. -/

def neural : List Pair :=
  [ fun pn => (.nflush false (pe tOne pn), neuralForm true false (flush false)),
    fun pn => (.wbind (pe { tEng with a := .one } pn), wbindForm),
    fun pn => (.wpin (pe tOne pn), neuralForm true true pin), fun pn => (.wunpin (pe tOne pn), neuralForm true true unpin),
    fun pn => (.wpref (pe tOne pn), neuralForm true false prefetch) ]
def lists_ : List Pair :=
  [ fun pn => (.wlinit (pe tOne pn), listForm true true false .void fun a _ _ => .wlinit a),
    fun pn => (.wlpush (pe tEng pn), listForm false true true .void fun a its _ => .wlpush a its),
    fun pn => (.wlins (pe { tEng with t := .push } pn), listForm true false true .push fun a its _ => .wlins a its .push),
    fun pn => (.wlpopb (pe { tOne with t := .push } pn), listForm true false false .push fun a _ m => .wlpopb a m .push) ]
def sched : List Pair :=
  [ fun pn => (.enq (pe { tEng with t := .push } pn), enqForm .push),
    fun pn => (.depdec true (pe { tEng with a := .one } pn), depdecForm true),
    fun pn => (.depdec false (pe { tEng with a := .one } pn), depdecForm false) ]
def rays : List Pair :=
  [ fun pn => (.rayq true true (pe { tTok with b := .zero } pn), rayqForm true true 8 3),
    fun pn => (.coll .allReduce .add .f32 (pe tTok pn), collForm .allReduce .add .f32 8 3) ]
def streamOps : List Pair :=
  [ fun pn => (.engage (pe tEng pn), onceForm (fun s r sh => s.engageExcs r sh (lowestLane (s.actors r sh))) true
      fun s r sh t q =>
        let (seq, t) := t.takeSeq q.wave
        let l := lowestLane (s.actors r sh)
        (.engage (s.engArg r sh 0 l).bits (s.engArg r sh 1 l).bits seq, t)),
    fun pn => (.semsig 0 (pe tOne pn), onceForm (fun s r sh => s.countExc r sh (lowestLane (s.actors r sh))) true
      fun s r sh t _ => (.sig 0 (count16 (s.engArg r sh 0 (lowestLane (s.actors r sh))).bits), t)),
    fun pn => (.semwait 7 (pe tOne pn), onceForm (fun s r sh => s.countExc r sh (lowestLane (s.actors r sh))) true
      fun s r sh t _ => (.sem 7 (count16 (s.engArg r sh 0 (lowestLane (s.actors r sh))).bits), t)) ]
def prompt_ : List Pair := neural ++ lists_ ++ sched ++ rays ++ streamOps

/-- And for those that raise nothing. -/
def faultless : List Pair :=
  [ fun pn => (.nflush true (pe tNone pn), neuralForm false false (flush true)),
    fun pn => (.rdv (pe tNone pn), onceForm (fun _ _ _ => []) false fun _ _ _ t _ => (.rdv, t)) ]


/-! Commands in flight that fill each queue, and contexts that no job of ours may use. -/

def copies : List Cmd := List.replicate 256 (tCmd (.copy
  { log2 := 2, dst := 0, src := 0, count := 0, srcS := false, dstS := false, cursor := 0, shadow := [], wrote := [] }))
def tiles : List Cmd := List.replicate 16 (tCmd (.mma 0 0 0 1 1 0 0))
def gramCmds : List Cmd := List.replicate 64 (tCmd (.grammar 1 0 0 0 0 0 0 false))
def binCmds : List Cmd :=
  (List.range 64).map fun i => { tCmd (.binapp .add true []) with seq := w32 i }

def waiting : List (State × Pair) :=
  [ (eState fit copies, pCopy), (eState fit tiles, pRel),
    ({ eState fit [] with contexts := [⟨0, 0, 2⟩, ⟨0, 1, 3⟩] }, pCall), (eState fit gramCmds, pGmv), (eState fit gramCmds, pGmm),
    (eState fit binCmds, pApp), (eState fit binCmds, pReplay) ]

theorem idles_all : ∀ p ∈ queued ++ prompt_ ++ faultless, EngIdles (p true) := by
  have h : (queued ++ prompt_ ++ faultless).all (fun p => engIdlesB (p true)) = true := by decide +kernel
  exact fun p hp => eng_idles (List.all_eq_true.1 h p hp)

theorem goes_all : ∀ p ∈ queued ++ prompt_ ++ faultless, EngGoes (p false) := by
  have h : (queued ++ prompt_ ++ faultless).all (fun p => engGoesB (p false)) = true := by decide +kernel
  exact fun p hp => eng_goes (List.all_eq_true.1 h p hp)

theorem faults_all : ∀ p ∈ queued ++ prompt_, EngFaults (p false) := by
  have h : (queued ++ prompt_).all (fun p => engFaultsB (p false)) = true := by decide +kernel
  exact fun p hp => eng_faults (List.all_eq_true.1 h p hp)

theorem waits_all : ∀ p ∈ waiting, EngWaits (p.2 false) := by
  have h : waiting.all (fun p => engWaitsB p.1 (p.2 false)) = true := by decide +kernel
  exact fun p hp => eng_waits (List.all_eq_true.1 h p hp)

/-- What a form that waits has: lanes that take no part, a run, a fault and a wait. -/
def FourCases (p : Pair) : Prop := EngIdles (p true) ∧ EngGoes (p false) ∧ EngFaults (p false) ∧ EngWaits (p false)
def ThreeCases (p : Pair) : Prop := EngIdles (p true) ∧ EngGoes (p false) ∧ EngFaults (p false)
def TwoCases (p : Pair) : Prop := EngIdles (p true) ∧ EngGoes (p false)

theorem four_cases {k : State} {p : Pair} (h : p ∈ queued) (hw : (k, p) ∈ waiting) : FourCases p :=
  ⟨idles_all p (by simp [h]), goes_all p (by simp [h]), faults_all p (by simp [h]), waits_all (k, p) hw⟩

theorem three_cases : ∀ p ∈ prompt_, ThreeCases p := fun p h =>
  ⟨idles_all p (by simp [h]), goes_all p (by simp [h]), faults_all p (by simp [h])⟩

theorem two_cases : ∀ p ∈ faultless, TwoCases p := fun p h => ⟨idles_all p (by simp [h]), goes_all p (by simp [h])⟩

theorem witness_CopyRayAndCollectiveCommands_copy : FourCases pCopy := four_cases (.head _) (.head _)

theorem witness_GrammarCommands : FourCases pGmv ∧ FourCases pGmm :=
  ⟨four_cases (by simp [queued]) (List.mem_of_getElem (i := 3) (h := by decide) rfl),
   four_cases (by simp [queued]) (List.mem_of_getElem (i := 4) (h := by decide) rfl)⟩

theorem witness_NeuralCommands :
    FourCases pCall ∧ (∀ p ∈ neural, ThreeCases p) ∧ TwoCases fun pn => (.nflush true (pe tNone pn), neuralForm false false (flush true)) :=
  ⟨four_cases (by simp [queued]) (List.mem_of_getElem (i := 2) (h := by decide) rfl),
   fun p h => three_cases p (by simp [prompt_, h]), two_cases _ (.head _)⟩

theorem witness_CopyRayAndCollectiveCommands : ∀ p ∈ rays, ThreeCases p := fun p h => three_cases p (by simp [prompt_, h])

theorem meets_dec {s : State} {i : Instr} {ok : State → Run → Shape → Prop} [∀ s r sh, Decidable (ok s r sh)]
    (h : meetsB s i (fun s r sh => decide (ok s r sh)) = true) : Meets i ok :=
  meets_of (fun _ _ _ => of_decide_eq_true) h

theorem meets_some {s : State} {i : Instr} {α : Type} {ok : State → Run → Shape → Prop}
    [∀ s r sh, Decidable (ok s r sh)] {f : State → Run → Shape → Option α}
    (h : meetsB s i (fun s r sh => decide (ok s r sh) && (f s r sh).isSome) = true) :
    Meets i fun s r sh => ∃ e, ok s r sh ∧ f s r sh = some e :=
  meets_of (fun s r sh h => by
    simp only [Bool.and_eq_true, decide_eq_true_eq] at h
    obtain ⟨e, he⟩ := Option.isSome_iff_exists.1 h.2
    exact ⟨e, h.1, he⟩) h

/-- The device with n9 holding no valid handle, and given slots. -/
def mmaState (slots : List AccSlot) (contexts : List Context) (cmds : List Cmd) : State :=
  { tState (allRegs fit) with
    runs := [tRun { allRegs fit with n := (allRegs fit).n.set 9 Val.zero }], acc := slots, contexts := contexts,
    cmds := cmds }

def fullOf (t : TeamId) : List AccSlot := (List.range 32).map fun k => { tSlot with slot := k, owner := some t }

/-- A run that waits with slot 1 reserved. -/
def reserved (m : State) : State := { m with runs := m.runs.map fun r => { r with reserve := some (0, 1) } }

theorem witness_MmaCommand :
    (Meets (.mma { tMat with pn := true }) fun s r sh => s.actors r sh = 0) ∧
    (Meets (.mma tMat) fun s r sh => (s.actors r sh ≠ 0 ∧ mmaChecks tMat s r sh = [] ∧ s.mmaCtx r.wave.team = some 0) ∧
      (s.tileQueue (s.team r.wave.team).cluster 0).length < 16 ∧
      handleValid (handleOf r 9 (lowestLane (s.actors r sh))).bits = true) ∧
    (∀ m ∈ [mmaState [tSlot] [⟨0, 0, 1⟩] [], reserved (mmaState [tSlot] [⟨0, 0, 1⟩] [])],
      meetsB m (.mma tMat) (fun s r sh => decide ((s.actors r sh ≠ 0 ∧ mmaChecks tMat s r sh = [] ∧
        s.mmaCtx r.wave.team = some 0) ∧ (s.tileQueue (s.team r.wave.team).cluster 0).length < 16 ∧
        handleValid (handleOf r 9 (lowestLane (s.actors r sh))).bits = false ∧
        s.slotFor r (s.team r.wave.team).cluster 0 = some 1)) = true) ∧
    (Meets (.mma tMat) fun s r sh => (s.actors r sh ≠ 0 ∧ mmaChecks tMat s r sh = [] ∧ s.mmaCtx r.wave.team = some 0) ∧
      ¬(s.tileQueue (s.team r.wave.team).cluster 0).length < 16 ∧
      handleValid (handleOf r 9 (lowestLane (s.actors r sh))).bits = false ∧
      s.slotFor r (s.team r.wave.team).cluster 0 = some 0) ∧
    (Meets (.mma tMat) fun s r sh => ∃ e, s.actors r sh ≠ 0 ∧ firstExc (mmaChecks tMat s r sh) = some e) ∧
    (Meets (.mma tMat) fun s r sh => (s.actors r sh ≠ 0 ∧ mmaChecks tMat s r sh = [] ∧ s.mmaCtx r.wave.team = some 0) ∧
      handleValid (handleOf r 9 (lowestLane (s.actors r sh))).bits = false ∧
      s.slotFor r (s.team r.wave.team).cluster 0 = none ∧ s.holdsAll r.wave.team (s.team r.wave.team).cluster 0 = true) ∧
    (Meets (.mma tMat) fun s r sh => s.actors r sh ≠ 0 ∧ mmaChecks tMat s r sh = [] ∧ s.mmaCtx r.wave.team = none) ∧
    (Meets (.mma tMat) fun s r sh => s.actors r sh ≠ 0 ∧ mmaChecks tMat s r sh = [] ∧ s.mmaCtx r.wave.team = some 0 ∧
      ¬(s.tileQueue (s.team r.wave.team).cluster 0).length < 16 ∧
      handleValid (handleOf r 9 (lowestLane (s.actors r sh))).bits = true) ∧
    (Meets (.mma tMat) fun s r sh => s.actors r sh ≠ 0 ∧ mmaChecks tMat s r sh = [] ∧ s.mmaCtx r.wave.team = some 0 ∧
      handleValid (handleOf r 9 (lowestLane (s.actors r sh))).bits = false ∧
      s.slotFor r (s.team r.wave.team).cluster 0 = none ∧
      s.holdsAll r.wave.team (s.team r.wave.team).cluster 0 = false) :=
  ⟨meets_dec (s := eState fit []) (by decide +kernel), meets_dec (s := eState fit []) (by decide +kernel),
   by decide +kernel, meets_dec (s := mmaState [] [⟨0, 0, 1⟩] tiles) (by decide +kernel),
   meets_some (s := eState unfit []) (by decide +kernel),
   meets_dec (s := mmaState (fullOf ⟨1, 0⟩) [⟨0, 0, 1⟩] []) (by decide +kernel),
   meets_dec (s := mmaState [] [⟨0, 0, 2⟩, ⟨0, 1, 3⟩] []) (by decide +kernel),
   meets_dec (s := eState fit tiles) (by decide +kernel),
   meets_dec (s := mmaState (fullOf ⟨1, 1⟩) [⟨0, 0, 1⟩] []) (by decide +kernel)⟩

def tLoad : Mat := { tMat with kc := 0, b := .zero, d := .n 7 }

/-- A drain that scales nothing, and one whose descriptor is at n2. -/
def tDrain : Mat := { tMat with kc := 0, b := .zero }
def tScaled : Mat := { tMat with kc := 0 }

/-- The state with a descriptor of zeros, behind the block. -/
def scaledState : State :=
  { eState fit [] with runs := [tRun { allRegs fit with n := (allRegs fit).n.set 2 ⟨placeCode + 0x400, 0⟩ }] }

def drainGoesB (f : Mat) (s : State) (r : Run) (sh : Shape) : Bool :=
  decide (s.actors r sh ≠ 0 ∧ drainChecks f s r sh = [] ∧ holdsOf (drainVectors f s r sh).1 = [] ∧
    (drainQueue f (drainVectors f s r sh).2 r sh).length < 16) && fallsB ((drainVectors f s r sh).2.remoteDone r) r sh

def DrainGoes (f : Mat) : Prop := Meets (.accdrain f) fun s r sh =>
  (s.actors r sh ≠ 0 ∧ drainChecks f s r sh = [] ∧ holdsOf (drainVectors f s r sh).1 = [] ∧
    (drainQueue f (drainVectors f s r sh).2 r sh).length < 16) ∧
  ∀ t, FallsWell t ((drainVectors f s r sh).2.remoteDone r) r sh

theorem drain_goes {m : State} {f : Mat} (h : meetsB m (.accdrain f) (drainGoesB f) = true) : DrainGoes f :=
  meets_of (fun s r sh h => by
    simp only [drainGoesB, Bool.and_eq_true, decide_eq_true_eq] at h
    exact ⟨h.1, fun _ => falls_of h.2⟩) h

theorem witness_AccumulatorCommands_drain :
    (Meets (.accdrain { tDrain with pn := true }) fun s r sh => s.actors r sh = 0) ∧
    (∀ f ∈ [tDrain, tScaled], Meets (.accdrain f) fun s r sh =>
      ∃ e, s.actors r sh ≠ 0 ∧ firstExc (drainChecks f s r sh) = some e) ∧
    (Meets (.accdrain tDrain) fun s r sh => s.actors r sh ≠ 0 ∧ drainChecks tDrain s r sh = [] ∧
      holdsOf (drainVectors tDrain s r sh).1 = [] ∧ 16 ≤ (drainQueue tDrain (drainVectors tDrain s r sh).2 r sh).length) ∧
    DrainGoes tDrain ∧ DrainGoes tScaled := by
  refine ⟨meets_dec (s := eState fit []) (by decide +kernel), fun f hf => ?_, meets_dec (s := eState fit tiles) (by decide +kernel),
    drain_goes (m := eState fit []) (by decide +kernel), drain_goes (m := scaledState) (by decide +kernel)⟩
  simp only [List.mem_cons, List.not_mem_nil, or_false] at hf
  rcases hf with rfl | rfl
  · exact meets_some (s := eState unfit []) (by decide +kernel)
  · exact meets_some (s := eState unfit []) (by decide +kernel)

/-- The descriptor lies at the other device. -/
def drainAway : State :=
  State.withRemote
    { eState fit [] with runs := [tRun { allRegs fit with n := (allRegs fit).n.set 2 ⟨2 * placeCode, 0⟩ }] }

/-- The two loads of its dwords reach that device, and nothing else is wrong. -/
def drainAwayB (s : State) (r : Run) (sh : Shape) : Bool :=
  let l := lowestLane (s.actors r sh)
  let b := s.engArg r sh 1 l
  s.actors r sh != 0 && decide (b.bits.toNat % 8 = 0) && !b.bad &&
    match s.spot r l .glob b.bits 8 .read with
    | .error _ => false
    | .ok (x, t) => decide (x.loc = .phys 0 remoteHpa) && !t.isLocal remoteHpa && decide (t.tick = 0) &&
      match t.spot r l .glob (b.bits + 8) 8 .read with
      | .error _ => false
      | .ok (y, v) => decide (y.loc = .phys 0 (remoteHpa + 8)) && !v.isLocal (remoteHpa + 8) && decide (v.tick = 0) &&
        let h := handleOf r tScaled.s l
        let a := s.engArg r sh 0 l
        let n := drainRow ((v.jobOf r.wave).card.slots[tScaled.fs])
        decide (a.bits.toNat % 128 = 0) &&
          ((rowsOf (s.actors r sh)).flatMap fun k => v.rangeExcs r l (a.bits.toNat + k * n) n .write).isEmpty &&
          (v.heldExc r h.bits l ++ handlePoison h l ++ handlePoison a l ++ handlePoison b l).isEmpty

/-- A drain waits where another device holds its descriptor and does not answer. -/
theorem witness_AccumulatorCommands_await (h1 : Config.peerAnswers 0 remoteHpa = false)
    (h2 : Config.peerAnswers 0 (remoteHpa + 8) = false) :
    Meets (.accdrain tScaled) fun s r sh =>
      s.actors r sh ≠ 0 ∧ drainChecks tScaled s r sh = [] ∧ holdsOf (drainVectors tScaled s r sh).1 ≠ [] := by
  refine meets_of (s := drainAway) (okB := drainAwayB) (fun s r sh h => ?_) (by decide +kernel)
  simp only [drainAwayB, Bool.and_eq_true, decide_eq_true_eq, Bool.not_eq_true', bne_iff_ne] at h
  obtain ⟨⟨⟨ha, h8⟩, hb⟩, hs⟩ := h
  split at hs
  · simp at hs
  · rename_i x t hx
    simp only [Bool.and_eq_true, decide_eq_true_eq, Bool.not_eq_true'] at hs
    obtain ⟨⟨⟨hl, hlo⟩, ht⟩, hs⟩ := hs
    split at hs
    · simp at hs
    · rename_i y v hy
      simp only [Bool.and_eq_true, decide_eq_true_eq, Bool.not_eq_true', List.isEmpty_iff] at hs
      obtain ⟨⟨⟨hm, hmo⟩, hv⟩, ⟨h128, hr⟩, hp⟩ := hs
      have e1 : s.loadLane r (lowestLane (s.actors r sh)) .glob (.l1 false) (s.engArg r sh 1 (lowestLane (s.actors r sh)))
          (s.engArg r sh 1 (lowestLane (s.actors r sh))).bits 8 = (.hold remoteHpa, t) := by
        simp only [State.loadLane, hx, hb, hl, hlo, ht, h1]
        rfl
      have e2 : t.loadLane r (lowestLane (s.actors r sh)) .glob (.l1 false) (s.engArg r sh 1 (lowestLane (s.actors r sh)))
          ((s.engArg r sh 1 (lowestLane (s.actors r sh))).bits + 8) 8 = (.hold (remoteHpa + 8), v) := by
        simp only [State.loadLane, hy, hb, hm, hmo, hv, h2]
        rfl
      have e : drainVectors tScaled s r sh =
          ([(lowestLane (s.actors r sh), .hold remoteHpa), (lowestLane (s.actors r sh), .hold (remoteHpa + 8))], v) := by
        simp only [drainVectors, State.drainDesc, e1, e2, h8]
        rfl
      refine ⟨ha, ?_, by simp [e, holdsOf]⟩
      simp only [drainChecks, e]
      simp only [List.append_eq_nil_iff] at hp
      simp [needs, h128, h8, hp, excsOf, wordGot, State.vectorExcs]
      simpa using hr

theorem witness_AccumulatorCommands :
    FourCases pRel ∧
    (Meets (.accload tLoad) fun s r sh =>
      (accloadChecks tLoad s r sh = [] ∧ accloadBusy tLoad s r sh = false) ∧ (accloadRule tLoad).Clean s r sh) ∧
    (Meets (.accload tLoad) fun s r sh => ∃ e, True ∧ firstExc (accloadChecks tLoad s r sh) = some e) ∧
    Meets (.accload tLoad) fun s r sh => accloadChecks tLoad s r sh = [] ∧ accloadBusy tLoad s r sh = true :=
  ⟨four_cases (by simp [queued]) (List.mem_of_getElem (i := 1) (h := by decide) rfl),
   meets_of (s := eState fit [])
     (okB := fun s r sh => decide (accloadChecks tLoad s r sh = [] ∧ accloadBusy tLoad s r sh = false) &&
       cleanB (accloadRule tLoad) s r sh)
     (fun s r sh h => by
       simp only [Bool.and_eq_true, decide_eq_true_eq] at h
       exact ⟨h.1, clean_of s r sh h.2⟩) (by decide +kernel),
   meets_some (s := eState unfit []) (by decide +kernel), meets_dec (s := eState fit tiles) (by decide +kernel)⟩

def tHash : Eng := { tEng with b := .zero, t := .n 8, n := some 3 }

theorem witness_IrregularCommands :
    FourCases pApp ∧ FourCases pReplay ∧ (∀ p ∈ lists_, ThreeCases p) ∧
    CleanSomewhere (.hashb 1 15 tHash, hashbRule 1 15 3) ∧ PoisonSomewhere (.hashb 1 15 tHash, hashbRule 1 15 3) :=
  ⟨four_cases (by simp [queued]) (List.mem_of_getElem (i := 5) (h := by decide) rfl),
   four_cases (by simp [queued]) (List.mem_of_getElem (i := 6) (h := by decide) rfl),
   fun p h => three_cases p (by simp [prompt_, h]),
   clean_all (ps := [(.hashb 1 15 tHash, hashbRule 1 15 3)]) (by decide +kernel) _ (.head _),
   poison_all (ps := [(.hashb 1 15 tHash, hashbRule 1 15 3)]) (by decide +kernel) _ (.head _)⟩

def tDeal : Eng := { tNone with t := .push }

theorem witness_SchedulerCommands :
    (∀ p ∈ sched, ThreeCases p) ∧ (Meets (.deal { tDeal with pn := true }) fun s r sh => s.actors r sh = 0) ∧
    Meets (.deal tDeal) fun s r sh => s.actors r sh ≠ 0 :=
  ⟨fun p h => three_cases p (by simp [prompt_, h]), meets_dec (s := eState fit []) (by decide +kernel),
   meets_dec (s := eState fit []) (by decide +kernel)⟩

theorem witness_PixelCommands :
    (Meets (.exportV 0 true tEng) fun s r sh => s.engPoison r sh (s.actors r sh) [] = []) ∧
    (Meets (.exportV 0 true tEng) fun s r sh => ∃ e, True ∧ firstExc (s.engPoison r sh (s.actors r sh) []) = some e) ∧
    Meets (.discard tNone) fun _ _ _ => True :=
  ⟨meets_dec (s := eState fit []) (by decide +kernel), meets_some (s := eState unfit []) (by decide +kernel),
   meets_dec (s := eState fit []) (by decide +kernel)⟩

theorem witness_StreamEngineCommands :
    (∀ p ∈ streamOps, ThreeCases p) ∧ (TwoCases fun pn => (.rdv (pe tNone pn), onceForm (fun _ _ _ => []) false fun _ _ _ t _ => (.rdv, t))) ∧
    (Meets (.qpop 3 tDeal) fun _ _ _ => True) ∧ Meets (.qpush 3 tOne) fun _ _ _ => True :=
  ⟨fun p h => three_cases p (by simp [prompt_, h]), two_cases _ (.tail _ (.head _)),
   meets_dec (s := eState fit []) (by decide +kernel), meets_dec (s := eState fit []) (by decide +kernel)⟩

/-! ## The CTL class -/

/-- n1 is the address of the block's header. -/
def goState : State := tState (at_ placeCode)
/-- From the first instruction to the header of its block, in words; and the block behind it. -/
def tBack : BitVec 16 := 0xFFFE

def headsB (s : State) (r : Run) (hs : List (Fin 32 × Word × Bool)) : Bool :=
  hs.all fun h => match s.translate (s.xctx r.wave) h.2.1.toNat .fetch with
    | .ok (_, t) => t.isH (t.xctx r.wave) h.2.1
    | .error _ => false

theorem heads_of {s : State} {r : Run} {hs : List (Fin 32 × Word × Bool)} (h : headsB s r hs = true) : HeadersAt s r hs := by
  intro x hx
  have := List.all_eq_true.1 h x hx
  split at this
  · exact ⟨_, _, by assumption, this⟩
  · simp at this

/-- A transfer that goes to its headers, and one that raises a fault, which `fault` is not all of. -/
def Leaves (g : Leaving) (i : Instr) : Prop :=
  Meets i fun s r sh => g.clean s r sh ∧ HeadersAt (g.after s r sh) r (g.all s r sh)
def LeaveFaults (g : Leaving) (i : Instr) : Prop :=
  Meets i fun s r sh => ∃ e, firstExc ((g.after s r sh).targetExcs r.wave (g.all s r sh) ++ g.excs s r sh) = some e

def lowB (s : State) (r : Run) (sh : Shape) : Bool := poisonedSrc s r sh .b32 == 0
def soundB (s : State) (r : Run) (sh : Shape) : Bool :=
  decide (∀ l, LaneMask.has r.group l = true → ((s.laneIn r sh [tyW64] l).ops.getD 0 Val.zero).bad = false)
def anyB (_ : State) (_ : Run) (_ : Shape) : Bool := true

theorem leaves_of {s : State} {g : Leaving} {i : Instr} (clB : State → Run → Shape → Bool)
    (hc : ∀ s r sh, clB s r sh = true → g.clean s r sh)
    (h : meetsB s i (fun s r sh => clB s r sh && headsB (g.after s r sh) r (g.all s r sh)) = true) : Leaves g i :=
  meets_of (fun s r sh h => by
    simp only [Bool.and_eq_true] at h
    exact ⟨hc s r sh h.1, heads_of h.2⟩) h

theorem leave_faults {s : State} {g : Leaving} {i : Instr}
    (h : meetsB s i (fun s r sh =>
      (firstExc ((g.after s r sh).targetExcs r.wave (g.all s r sh) ++ g.excs s r sh)).isSome) = true) :
    LeaveFaults g i :=
  meets_of (fun _ _ _ h => Option.isSome_iff_exists.1 h) h

def tBra : Ctl := { tCtl with off := tBack }
/-- To the word behind the header, which is none. -/
def tAside : Ctl := { tCtl with off := 0 }
def goSpoiled : State := tState tainted

theorem witness_Transfers :
    (∀ c ∈ [BrCond.nonzero, .zero], Leaves (braForm c tBra) (.bra c tBra) ∧ LeaveFaults (braForm c tAside) (.bra c tAside) ∧
      LeaveFaults (braForm c tBra) (.bra c tBra)) ∧
    Leaves (braForm .always { tBra with a := .zero }) (.bra .always { tBra with a := .zero }) ∧
    (∀ i ∈ [Instr.brx tCtl, .ret tCtl], Leaves indirectForm i ∧ LeaveFaults indirectForm i) ∧
    Leaves (callForm { tBra with a := .zero, d := .n 4 }) (.call { tBra with a := .zero, d := .n 4 }) ∧
    LeaveFaults (callForm { tAside with a := .zero, d := .n 4 }) (.call { tAside with a := .zero, d := .n 4 }) ∧
    Leaves (lsetupForm 3 4 tBra) (.lsetup 3 4 tBra) ∧ LeaveFaults (lsetupForm 3 4 tAside) (.lsetup 3 4 tAside) := by
  have low : ∀ s r sh, lowB s r sh = true → CleanLow s r sh := fun _ _ _ h => eq_of_beq h
  refine ⟨fun c hc => ?_, leaves_of (s := goState) lowB low (by decide +kernel), fun i hi => ?_,
    leaves_of (s := goState) anyB (fun _ _ _ _ => trivial) (by decide +kernel), leave_faults (s := goState) (by decide +kernel),
    leaves_of (s := goState) lowB low (by decide +kernel), leave_faults (s := goState) (by decide +kernel)⟩
  · simp only [List.mem_cons, List.not_mem_nil, or_false] at hc
    rcases hc with rfl | rfl
    · exact ⟨leaves_of (s := goState) lowB low (by decide +kernel), leave_faults (s := goState) (by decide +kernel),
        leave_faults (s := goSpoiled) (by decide +kernel)⟩
    · exact ⟨leaves_of (s := goState) lowB low (by decide +kernel), leave_faults (s := goState) (by decide +kernel),
        leave_faults (s := goSpoiled) (by decide +kernel)⟩
  · simp only [List.mem_cons, List.not_mem_nil, or_false] at hi
    rcases hi with rfl | rfl
    · exact ⟨leaves_of (s := goState) soundB (fun _ _ _ => of_decide_eq_true) (by decide +kernel),
        leave_faults (s := goSpoiled) (by decide +kernel)⟩
    · exact ⟨leaves_of (s := goState) soundB (fun _ _ _ => of_decide_eq_true) (by decide +kernel),
        leave_faults (s := goSpoiled) (by decide +kernel)⟩

/-- A thread of `goState` whose handler returns to the block's start. -/
def rftState : State :=
  { goState with
    teams := [{ tTeam with waves := [placeWave { Thread.launch placeCode 0 0 with
      inHandler := true, epc := placeCode + 8, resumeBlk := placeCode, resumePc := placeCode }] }] }

/-- And one whose handler would return to a word that is no header. -/
def rftNowhere : State :=
  { goState with
    teams := [{ tTeam with waves := [placeWave { Thread.launch placeCode 0 0 with
      inHandler := true, epc := placeCode + 8, resumeBlk := placeCode + 8, resumePc := placeCode + 8 }] }] }

theorem witness_TrapAndReturn :
    (∀ skip, (Meets (.rft skip true) fun s r _ =>
        HeadersAt (s.fetched r.wave ((s.rftChecks r skip).map fun c => c.2.1)) r (s.rftChecks r skip)) ∧
      Meets (.rft skip true) fun s r _ => ∃ e, True ∧
        firstExc ((s.fetched r.wave ((s.rftChecks r skip).map fun c => c.2.1)).targetExcs r.wave (s.rftChecks r skip)) =
          some e) ∧
    Meets (.trap 7 true) fun _ _ _ => True := by
  refine ⟨fun skip => ?_, meets_dec (s := goState) (by decide +kernel)⟩
  have hb : ∀ skip, meetsB rftState (.rft skip true) (fun s r _ =>
      headsB (s.fetched r.wave ((s.rftChecks r skip).map fun c => c.2.1)) r (s.rftChecks r skip)) = true := by
    decide +kernel
  have hf : ∀ skip, meetsB rftNowhere (.rft skip true) (fun s r _ => decide True &&
      (firstExc ((s.fetched r.wave ((s.rftChecks r skip).map fun c => c.2.1)).targetExcs r.wave
        (s.rftChecks r skip))).isSome) = true := by
    decide +kernel
  exact ⟨meets_of (fun _ _ _ h => heads_of h) (hb skip), meets_some (hf skip)⟩

/-- What FORK checks at its target: one entry for each thread of the group. -/
def forkHeads (off : BitVec 16) (s : State) (r : Run) (sh : Shape) : List (Fin 32 × Word × Bool) :=
  (lanesOf r.group).map fun l => (l, targetOf r.pc off none, ((s.laneIn r sh [tyW64] l).ops.getD 0 Val.zero).bad)

def forkGoesB (off : BitVec 16) (s : State) (r : Run) (sh : Shape) : Bool :=
  headsB (s.fetched r.wave [targetOf r.pc off none]) r (forkHeads off s r sh)
    && (forkHeads off s r sh).all (fun h => !h.2.2) && fallsB (s.fetched r.wave [targetOf r.pc off none]) r sh

theorem witness_ThreadsAndBarriers_fork :
    (Meets (.fork { tBra with d := .push }) fun s r sh =>
      HeadersAt (s.fetched r.wave [targetOf r.pc tBack none]) r (forkHeads tBack s r sh) ∧
        (∀ h ∈ forkHeads tBack s r sh, h.2.2 = false) ∧
        ∀ t, FallsWell t (s.fetched r.wave [targetOf r.pc tBack none]) r sh) ∧
    (Meets (.fork { tAside with d := .push }) fun s r sh => ∃ e, True ∧
      firstExc ((s.fetched r.wave [targetOf r.pc 0 none]).targetExcs r.wave (forkHeads 0 s r sh)) = some e) := by
  have hb : meetsB goState (.fork { tBra with d := .push }) (forkGoesB tBack) = true := by decide +kernel
  refine ⟨meets_of (fun s r sh h => ?_) hb, meets_some (s := goState) (by decide +kernel)⟩
  simp only [forkGoesB, Bool.and_eq_true] at h
  obtain ⟨⟨h1, h2⟩, h3⟩ := h
  exact ⟨heads_of h1, fun x hx => by simpa using List.all_eq_true.1 h2 x hx, fun _ => falls_of h3⟩

theorem witness_ThreadsAndBarriers :
    (∀ i ∈ [Instr.exit true, .fjoin true, .bar true, .cbar false true, .cbar true true, .yield true, .trig true],
      Meets i fun _ _ _ => True) ∧
    Meets (.wsync { tAlu1 with d := .void }) fun s r sh => ∀ l, LaneMask.has r.group l = true →
      ((s.laneIn r sh [tyW64] l).ops.getD 0 Val.zero).poisoned .b32 1 = false := by
  refine ⟨fun i hi => ?_, meets_dec (s := goState) (by decide +kernel)⟩
  have h : [Instr.exit true, .fjoin true, .bar true, .cbar false true, .cbar true true, .yield true, .trig true].all
      (fun i => meetsB goState i fun _ _ _ => decide True) = true := by decide +kernel
  exact meets_dec (List.all_eq_true.1 h i hi)

theorem witness_NopAndBreakpoint :
    (∀ i ∈ [Instr.nop true, .nopS true, .brk 7 true], Meets i fun _ _ _ => True) ∧
    (Meets (.brk 7 true) fun s r _ => (!(s.vf (s.jobOf r.wave).vf).dbgctl.getLsbD 0) = true) ∧
    Meets (.brk 7 true) fun s r _ => (!(s.vf (s.jobOf r.wave).vf).dbgctl.getLsbD 0 ||
      (lanesOf r.group).all fun l => (s.thread r.wave l).pass) = false := by
  refine ⟨fun i hi => ?_, meets_dec (s := goState) (by decide +kernel),
    meets_dec (s := { goState with vfs := [(0, { VfRegs.reset with dbgctl := 1 })] }) (by decide +kernel)⟩
  have h : [Instr.nop true, .nopS true, .brk 7 true].all (fun i => meetsB goState i fun _ _ _ => decide True) = true := by
    decide +kernel
  exact meets_dec (List.all_eq_true.1 h i hi)

theorem witness_ControlRegisters :
    (∀ num ∈ [1, 2, 3], ¬systemReg num ∧ (Meets (.csrr num true .push) fun _ _ _ => True) ∧
      Meets (.csrw num tCtl) fun s r sh => poisonedSrc s r sh .b32 = 0) ∧
    (∀ num ∈ [0x800, 0xFFF], systemReg num ∧ (Meets (.csrr num true .push) fun _ _ _ => True) ∧
      Meets (.csrw num tCtl) fun _ _ _ => True) ∧ Meets (.halt true) fun _ _ _ => True := by
  refine ⟨?_, ?_, meets_dec (s := goState) (by decide +kernel)⟩
  · intro num hn
    have h : ([1, 2, 3] : List (BitVec 12)).all (fun num => decide (¬num.toNat ≥ 0x800) &&
        meetsB goState (.csrr num true .push) (fun _ _ _ => decide True) &&
        meetsB goState (.csrw num tCtl) fun s r sh => decide (poisonedSrc s r sh .b32 = 0)) = true := by decide +kernel
    have := List.all_eq_true.1 h num hn
    simp only [Bool.and_eq_true, decide_eq_true_eq] at this
    exact ⟨this.1.1, meets_dec this.1.2, meets_dec this.2⟩
  · intro num hn
    have h : ([0x800, 0xFFF] : List (BitVec 12)).all (fun num => decide (num.toNat ≥ 0x800) &&
        meetsB goState (.csrr num true .push) (fun _ _ _ => decide True) &&
        meetsB goState (.csrw num tCtl) fun _ _ _ => decide True) = true := by decide +kernel
    have := List.all_eq_true.1 h num hn
    simp only [Bool.and_eq_true, decide_eq_true_eq] at this
    exact ⟨this.1.1, meets_dec this.1.2, meets_dec this.2⟩

/-! ## Textures -/

/-- n3 is the address of an image of one texel at `placeCode`, n4 that of a sampler of zeros. -/
def texRegs (img : Word) : Regs :=
  { Regs.launch with
    n := ((Regs.launch.n).set 3 ⟨img, 0⟩).set 4 ⟨placeCode + 0x500, 0⟩ }

def texState (g : Regs) (m : State) : State :=
  { m with
    runs := [tRun g],
    mem := (List.range 8).foldl
      (fun x i => x.write (m.key 0 (0x400 + i)) ((bytesLE 8 placeCode.toNat).getD i 0)) m.mem }

def texGood : State := texState (texRegs (placeCode + 0x400)) (tState calm)
def texBad : State := texState (texRegs (placeCode + 8)) (tState calm)
def texAway : State := texState (texRegs (2 * placeCode)) tRemote
/-- Lane 1, a partner outside the group, has n1 pending. -/
def texLate : State :=
  { texGood with
    teams := [{ tTeam with waves := [{ placeWave (Thread.launch placeCode 0 0) with
      lanes := ((Vector.replicate 32 Thread.blank).set 0 (Thread.launch placeCode 0 0)).set 1
        { Thread.launch placeCode 0 0 with pend := 2 } }] }] }

def tTex : Eng := { tEng with t := .push, n := some 3 }
/-- With the implicit level, which reads no B. -/
def tTexI : Eng := { tTex with b := .zero }

/-- The cases of a sample but the wait for another device. -/
theorem witness_TextureResults :
    (Meets (.tex .implicit tTexI) fun s r sh => quadLate .implicit s r sh = true) ∧
    (Meets (.tex .implicit tTexI) fun s r sh => ∃ e, quadLate .implicit s r sh = false ∧
      firstExc (excsOf (sampleLanes .implicit false tTexI.n texResult s r sh).1) = some e) ∧
    (Meets (.tex .level tTex) fun s r sh => quadLate .level s r sh = false ∧
      excsOf (sampleLanes .level false tTex.n texResult s r sh).1 = [] ∧
      holdsOf (sampleLanes .level false tTex.n texResult s r sh).1 = [] ∧
      ∀ t, FallsWell t (sampleAfter .level false tTex.n s (sampleLanes .level false tTex.n texResult s r sh).2 r sh).2 r sh) ∧
    (Meets (.texg .level 3 tTex) fun s r sh => quadLate .level s r sh = false ∧
      excsOf (sampleLanes .level true tTex.n (fun _ => texgResult 3) s r sh).1 = [] ∧
      holdsOf (sampleLanes .level true tTex.n (fun _ => texgResult 3) s r sh).1 = [] ∧
      ∀ t, FallsWell t
        (sampleAfter .level true tTex.n s (sampleLanes .level true tTex.n (fun _ => texgResult 3) s r sh).2 r sh).2 r sh) := by
  have good : ∀ gath fin (i : Instr), meetsB texGood i (fun s r sh => decide (quadLate .level s r sh = false) &&
      (excsOf (sampleLanes .level gath tTex.n fin s r sh).1).isEmpty &&
      (holdsOf (sampleLanes .level gath tTex.n fin s r sh).1).isEmpty &&
      fallsB (sampleAfter .level gath tTex.n s (sampleLanes .level gath tTex.n fin s r sh).2 r sh).2 r sh) = true →
      Meets i fun s r sh => quadLate .level s r sh = false ∧
        excsOf (sampleLanes .level gath tTex.n fin s r sh).1 = [] ∧
        holdsOf (sampleLanes .level gath tTex.n fin s r sh).1 = [] ∧
        ∀ t, FallsWell t (sampleAfter .level gath tTex.n s (sampleLanes .level gath tTex.n fin s r sh).2 r sh).2 r sh := by
    intro gath fin i
    exact meets_of fun s r sh h => by
      simp only [Bool.and_eq_true, decide_eq_true_eq, List.isEmpty_iff] at h
      exact ⟨h.1.1.1, h.1.1.2, h.1.2, fun _ => falls_of h.2⟩
  exact ⟨meets_dec (s := texLate) (by decide +kernel), meets_some (s := texBad) (by decide +kernel),
    good _ _ _ (by decide +kernel), good _ _ _ (by decide +kernel)⟩

def texAwayB (s : State) (r : Run) (sh : Shape) : Bool :=
  lanesOf (r.active sh) = [0] && !quadLate .level s r sh && (r.spec[0].getN 3).bits = 2 * placeCode &&
    !(r.spec[0].getN 3).bad && (r.spec[0].getN 4).bits.toNat % 16 = 0 &&
    match s.spot r 0 .glob (2 * placeCode) 8 .read with
    | .ok (x, t) => x.loc = .phys 0 remoteHpa && !t.isLocal remoteHpa && t.tick = 0
    | .error _ => false

theorem sample_hold {s t : State} {r : Run} {l : Fin 32} {y : SampleIn} {gath : Bool} {fin : Image → List (Tap × Texel) → Word}
    {a : Nat} (h1 : y.img.bits.toNat % 16 = 0) (h2 : y.smp.bits.toNat % 16 = 0)
    (hl : s.loadLane r l .glob (.l1 false) y.img y.img.bits 8 = (.hold a, t)) :
    s.sampleLane r l y gath fin = (.hold a, s) := by
  have h : s.loadAll r l .glob (.l1 false) y.descs = .error (.hold a) := by
    simp only [SampleIn.descs, State.loadAll, hl]
  simp [State.sampleLane, h1, h2, h]

/-- A sample waits where another device holds its image and does not answer. -/
theorem witness_TextureResults_await (h : Config.peerAnswers 0 remoteHpa = false) (gath : Bool)
    (fin : Word → Image → List (Tap × Texel) → Word) :
    ∀ i ∈ [Instr.tex .level tTex, .texg .level 3 tTex], Meets i fun s r sh => quadLate .level s r sh = false ∧
      excsOf (sampleLanes .level gath tTex.n fin s r sh).1 = [] ∧
      holdsOf (sampleLanes .level gath tTex.n fin s r sh).1 ≠ [] := by
  have hb : [Instr.tex .level tTex, .texg .level 3 tTex].all (fun i => meetsB texAway i texAwayB) = true := by decide +kernel
  intro i hi
  refine meets_of (fun s r sh h' => ?_) (List.all_eq_true.1 hb i hi)
  simp only [texAwayB, Bool.and_eq_true, decide_eq_true_eq, Bool.not_eq_true'] at h'
  obtain ⟨⟨⟨⟨⟨h1, h2⟩, h3⟩, h4⟩, h5⟩, h6⟩ := h'
  split at h6
  · rename_i x t hx
    simp only [Bool.and_eq_true, decide_eq_true_eq, Bool.not_eq_true'] at h6
    obtain ⟨⟨h6, h7⟩, h8⟩ := h6
    have hz : (2 * placeCode).toNat % 16 = 0 := by decide
    have hl : s.loadLane r 0 .glob (.l1 false) (r.spec[0].getN 3) (2 * placeCode) 8 = (.hold remoteHpa, t) := by
      simp only [State.loadLane, hx, h4, h6, h7, h8, h]
      rfl
    have hg : (sampleLanes .level gath tTex.n fin s r sh).1 = [(0, .hold remoteHpa)] := by
      simp only [sampleLanes, h1, gather]
      rw [sample_hold (a := remoteHpa) (t := t)]
      · exact (congrArg (fun w : Word => w.toNat % 16) h3).trans hz
      · exact h5
      · exact (congrArg (fun w => s.loadLane r 0 .glob (.l1 false) (r.spec[0].getN 3) w 8) h3).trans hl
    rw [hg]
    exact ⟨h2, rfl, by simp [holdsOf]⟩
  · simp at h6

theorem witness_TextureResults_attr :
    Meets (.attr { tEng with t := .push }) fun s r sh =>
      (∀ l, LaneMask.has (r.active sh) l = true →
        (s.engArg r sh 0 l).bits.toNat % 16 = 0 ∧
        (s.engArg r sh 0 l).bits.toNat + 32 ≤ (s.team r.wave.team).scrSize ∧
        (s.argAs r sh tyF32 1 l).bad = false ∧ ∃ ws t, s.loadAll r l .scr .scr ((List.range 3).map fun k =>
          (s.engArg r sh 0 l, (s.engArg r sh 0 l).bits + w64 (8 * k), 8)) = .ok (ws, t)) ∧
      NoFpx r false fun l =>
        (if LaneMask.has (r.active sh) l then attrOut s s r sh l else []).foldl (fun a x => a ||| x.flags) 0 := by
  refine meets_of (s := tState calm) (okB := fun s r sh =>
    ((List.finRange 32).all fun l => !LaneMask.has (r.active sh) l ||
      (decide ((s.engArg r sh 0 l).bits.toNat % 16 = 0 ∧
        (s.engArg r sh 0 l).bits.toNat + 32 ≤ (s.team r.wave.team).scrSize ∧ (s.argAs r sh tyF32 1 l).bad = false) &&
        match s.loadAll r l .scr .scr ((List.range 3).map fun k =>
          (s.engArg r sh 0 l, (s.engArg r sh 0 l).bits + w64 (8 * k), 8)) with
        | .ok _ => true
        | .error _ => false)) &&
    (List.finRange 32).all fun l => !LaneMask.has r.group l ||
      fpxFlags r.spec[l].fpen false
        ((if LaneMask.has (r.active sh) l then attrOut s s r sh l else []).foldl (fun a x => a ||| x.flags) 0) == 0)
    ?_ (by decide +kernel)
  intro s r sh h
  simp only [Bool.and_eq_true, List.all_eq_true, List.mem_finRange, true_implies, Bool.or_eq_true, Bool.not_eq_true',
    decide_eq_true_eq, beq_iff_eq] at h
  refine ⟨fun l hl => ?_, fun l hl => ?_⟩
  · rcases h.1 l with h | ⟨⟨h1, h2, h3⟩, h4⟩
    · simp [h] at hl
    · refine ⟨h1, h2, h3, ?_⟩
      split at h4
      · exact ⟨_, _, by assumption⟩
      · simp at h4
  · rcases h.2 l with h | h
    · simp [h] at hl
    · exact h

/-! ## Stream programs -/

def StrMeets (i : Instr) (ok : State → TeamId → Team → Prop) : Prop := ∃ s t u, StrReady s i t u ∧ ok s t u

def strMeetsB (s : State) (i : Instr) (ok : State → TeamId → Team → Bool) : Bool :=
  match s.focus with
  | .simt => false
  | .stream t => match s.team? t with
    | none => false
    | some u => u.stream.st.runs && i.check.isNone && ok s t u

theorem str_meets_of {s : State} {i : Instr} {ok : State → TeamId → Team → Prop} {okB : State → TeamId → Team → Bool}
    (hb : ∀ s t u, okB s t u = true → ok s t u) (h : strMeetsB s i okB = true) : StrMeets i ok := by
  unfold strMeetsB at h
  split at h
  · simp at h
  · rename_i t hf
    split at h
    · simp at h
    · rename_i u hu
      simp only [Bool.and_eq_true, Option.isNone_iff_eq_none] at h
      exact ⟨s, t, u, ⟨hf, hu, h.1.1, h.1.2⟩, hb _ _ _ h.2⟩

theorem str_meets {s : State} {i : Instr} {ok : State → TeamId → Team → Prop} [∀ s t u, Decidable (ok s t u)]
    (h : strMeetsB s i (fun s t u => decide (ok s t u)) = true) : StrMeets i ok :=
  str_meets_of (fun _ _ _ => of_decide_eq_true) h

/-- A program of the team stands at the first instruction of the block at `placeCode`; a1, a2, a3 and a5 as given. -/
def sState (x y n z : Word) : State :=
  { tState calm with
    runs := [], focus := .stream ⟨1, 0⟩,
    teams := [{ tTeam with
      stream := { Stream.idle with
        st := .running, pc := placeCode + 8, blk := placeCode,
        a := ((((Vector.replicate 16 0).set 1 x).set 2 y).set 3 n).set 5 z } }] }

def scr (o : Word) : Word := 0x4000000000000000 + o
def queue8 (k : Word) : Word := 0x800000000000000C + k

def tStr2 : Str := { tStr with b := .a 2 }
def tStr0 : Str := { tStr with d := none }
def tStr3 : Str := { tStr2 with c := .a 5 }

theorem witness_StreamRegisters :
    ∀ i ∈ [Instr.amov false tStr, .amov true tStr, .aadd tStr2, .acmp .lt tStr2, .asig 7 tStr0], StrMeets i fun _ _ _ => True := by
  intro i hi
  have h : [Instr.amov false tStr, .amov true tStr, .aadd tStr2, .acmp .lt tStr2, .asig 7 tStr0].all
      (fun i => strMeetsB (sState 1 2 3 4) i fun _ _ _ => decide True) = true := by decide +kernel
  exact str_meets (List.all_eq_true.1 h i hi)

def tJump : StrCtl := { tStrCtl with off := tBack }
def tOff : StrCtl := { tStrCtl with off := 0 }

/-- Does a fetch find a header where the program may be sent to, or find none? -/
def Finds (s : State) (t : TeamId) (goal : Word) (header : Bool) : Prop := ∃ v, StrTarget s t goal v header

def findsB (s : State) (t : TeamId) (goal : Word) (header : Bool) : Bool :=
  match s.fetchInstr (s.strCtx t) goal with
  | .ok (_, v) => v.isH (s.strCtx t) goal == header
  | .error _ => false

theorem finds_of {s : State} {t : TeamId} {goal : Word} {header : Bool} (h : findsB s t goal header = true) :
    Finds s t goal header := by
  unfold findsB at h
  split at h
  · rename_i ws v hf
    exact ⟨v, ws, hf, eq_of_beq h⟩
  · simp at h

/-- ABR with a condition at a value of its operand, whose target is a header or is none. -/
def BranchMeets (c : BrCond) (f : StrCtl) (header taken : Bool) : Prop :=
  StrMeets (.abr c f) fun s t u => Finds (s.strAt t u) t (strTarget u.stream.pc f) header ∧
    (taken = true ↔ StrTaken c (u.stream.src f.a f.lit))

theorem branch_meets {s : State} {c : BrCond} {f : StrCtl} {header taken : Bool}
    (h : strMeetsB s (.abr c f) (fun s t u => findsB (s.strAt t u) t (strTarget u.stream.pc f) header &&
      decide (taken = match c with
        | .always => true | .nonzero => u.stream.src f.a f.lit != 0 | .zero => u.stream.src f.a f.lit == 0)) = true) :
    BranchMeets c f header taken :=
  str_meets_of (fun s t u h => by
    simp only [Bool.and_eq_true, decide_eq_true_eq] at h
    refine ⟨finds_of h.1, ?_⟩
    rw [h.2]
    cases c <;> simp [StrTaken]) h

/-- ALOOP whose start is a header or none, and whose end is or is none. -/
def LoopMeets (len2 : BitVec 10) (f : StrCtl) (first second : Bool) : Prop :=
  StrMeets (.aloop 3 len2 f) fun s t u =>
    let start := strTarget u.stream.pc f
    ∃ v, StrTarget (s.strAt t u) t start v first ∧ (first = true → Finds v t (wordsAfter start (len2.zeroExtend 64)) second)

theorem loop_meets {s : State} {len2 : BitVec 10} {f : StrCtl} {first second : Bool}
    (h : strMeetsB s (.aloop 3 len2 f) (fun s t u =>
      match (s.strAt t u).fetchInstr ((s.strAt t u).strCtx t) (strTarget u.stream.pc f) with
      | .ok (_, v) => v.isH ((s.strAt t u).strCtx t) (strTarget u.stream.pc f) == first &&
        (!first || findsB v t (wordsAfter (strTarget u.stream.pc f) (len2.zeroExtend 64)) second)
      | .error _ => false) = true) : LoopMeets len2 f first second :=
  str_meets_of (fun s t u h => by
    split at h
    · rename_i ws v hf
      simp only [Bool.and_eq_true, Bool.or_eq_true, Bool.not_eq_true', beq_iff_eq] at h
      refine ⟨v, ⟨ws, hf, h.1⟩, fun h1 => finds_of ?_⟩
      rcases h.2 with h2 | h2
      · simp [h1] at h2
      · exact h2
    · simp at h) h

theorem witness_StreamControl :
    (∀ c ∈ [(BrCond.nonzero : BrCond), .zero], ∀ taken, BranchMeets c tJump true taken ∧ BranchMeets c tOff false taken) ∧
    BranchMeets .always { tJump with a := .zero } true true ∧
    LoopMeets 4 tJump true true ∧ LoopMeets 3 tJump true false ∧ LoopMeets 3 tOff false true ∧
    (StrMeets (.await 7 tStr0) fun _ _ u => (u.stream.src tStr0.a tStr0.lit).toNat % 2 ^ 16 = 0) ∧
    (StrMeets (.await 7 tStr0) fun _ _ u => (u.stream.src tStr0.a tStr0.lit).toNat % 2 ^ 16 ≠ 0 ∧
      ¬(u.stream.src tStr0.a tStr0.lit).toNat % 2 ^ 16 ≤ u.sem[(7 : Fin 8)]) ∧
    StrMeets (.ahalt { tStr0 with a := .zero }) fun _ _ _ => True := by
  refine ⟨fun c hc taken => ?_, branch_meets (s := sState 1 0 0 0) (by decide +kernel),
    loop_meets (s := sState 1 0 0 0) (by decide +kernel), loop_meets (s := sState 1 0 0 0) (by decide +kernel),
    loop_meets (s := sState 1 0 0 0) (by decide +kernel),
    str_meets (s := sState 0 0 0 0) (by decide +kernel), str_meets (s := sState 1 0 0 0) (by decide +kernel),
    str_meets (s := sState 1 0 0 0) (by decide +kernel)⟩
  simp only [List.mem_cons, List.not_mem_nil, or_false] at hc
  rcases hc with rfl | rfl <;> cases taken
  · exact ⟨branch_meets (s := sState 0 0 0 0) (by decide +kernel), branch_meets (s := sState 0 0 0 0) (by decide +kernel)⟩
  · exact ⟨branch_meets (s := sState 1 0 0 0) (by decide +kernel), branch_meets (s := sState 1 0 0 0) (by decide +kernel)⟩
  · exact ⟨branch_meets (s := sState 1 0 0 0) (by decide +kernel), branch_meets (s := sState 1 0 0 0) (by decide +kernel)⟩
  · exact ⟨branch_meets (s := sState 0 0 0 0) (by decide +kernel), branch_meets (s := sState 0 0 0 0) (by decide +kernel)⟩

/-- How a move goes. -/
inductive Way where
  | done | stays | parks | fails
  deriving DecidableEq

def wayOf : StrRes → Way
  | .next _ => .done | .stay _ => .stays | .park .. => .parks | _ => .fails

def moveSrc (f : Str) (u : Team) : SAddr := SAddr.of (u.stream.src f.a f.lit)
def moveDst (f : Str) (u : Team) : SAddr := SAddr.of (u.stream.src f.b f.lit)
def moveLen (f : Str) (u : Team) : Nat := (u.stream.dest f.d).toNat
def moveEven (f : Str) (u : Team) : Prop :=
  moveLen f u % 8 = 0 ∧ (moveSrc f u).aligned 8 = true ∧ (moveDst f u).aligned 8 = true

/-- AMOVE with each outcome: of a length of 0; from scratchpad, an empty queue, and an address that does not translate; and
each of its faults. -/
theorem witness_StreamMoves :
    (StrMeets (.amove tStr2) fun _ _ u => u.stream.dest tStr2.d = 0) ∧
    (∀ w ∈ [Way.done, .stays, .parks], StrMeets (.amove tStr2) fun s t u =>
      (moveLen tStr2 u ≠ 0 ∧ moveSrc tStr2 u ≠ .bad ∧ moveDst tStr2 u ≠ .bad ∧
        (moveLen tStr2 u % 8 = 0 ∧ (moveSrc tStr2 u).aligned 8 = true ∧ (moveDst tStr2 u).aligned 8 = true) ∧
        (moveSrc tStr2 u).outside u (moveLen tStr2 u) = false ∧ (moveDst tStr2 u).outside u (moveLen tStr2 u) = false) ∧
      wayOf ((s.strAt t u).amoveGo u.id (moveSrc tStr2 u) (moveDst tStr2 u) (moveLen tStr2 u) (moveLen tStr2 u + 3)) = w) ∧
    (StrMeets (.amove tStr2) fun _ _ u => moveLen tStr2 u ≠ 0 ∧ moveSrc tStr2 u = .bad) ∧
    (StrMeets (.amove tStr2) fun _ _ u => moveLen tStr2 u ≠ 0 ∧ moveSrc tStr2 u ≠ .bad ∧ moveDst tStr2 u ≠ .bad ∧
      ¬(moveLen tStr2 u % 8 = 0 ∧ (moveSrc tStr2 u).aligned 8 = true ∧ (moveDst tStr2 u).aligned 8 = true)) ∧
    StrMeets (.amove tStr2) fun _ _ u => moveLen tStr2 u ≠ 0 ∧ moveSrc tStr2 u ≠ .bad ∧ moveDst tStr2 u ≠ .bad ∧
      (moveLen tStr2 u % 8 = 0 ∧ (moveSrc tStr2 u).aligned 8 = true ∧ (moveDst tStr2 u).aligned 8 = true) ∧
      (moveDst tStr2 u).outside u (moveLen tStr2 u) = true := by
  refine ⟨str_meets (s := sState 0 0 0 0) (by decide +kernel), fun w hw => ?_,
    str_meets (s := sState (BitVec.allOnes 64) 0 8 0) (by decide +kernel),
    str_meets (s := sState (scr 4) (scr 0) 8 0) (by decide +kernel),
    str_meets (s := sState (scr 0) (scr 1024) 8 0) (by decide +kernel)⟩
  simp only [List.mem_cons, List.not_mem_nil, or_false] at hw
  rcases hw with rfl | rfl | rfl
  · exact str_meets (s := sState (scr 0) (scr 8) 16 0) (by decide +kernel)
  · exact str_meets (s := sState (queue8 0) (scr 8) 16 0) (by decide +kernel)
  · exact str_meets (s := sState 0xF0000000 (scr 8) 16 0) (by decide +kernel)

/-- The same program, with entries in queue 0 and its capacity. -/
def qState (base idx n : Word) (entries : List (List Val)) (cap : Nat) : State :=
  let s := sState base idx n (queue8 0)
  { s with teams := s.teams.map fun (u : Team) => { u with dq := u.dq.set 0 entries, dqCap := u.dqCap.set 0 cap } }

/-- Gathers and scatters: of a length of 0; done, at a queue, and parked at an index that does not translate. -/
theorem witness_StreamMoves_indexed : ∀ scatter : Bool,
    let i := if scatter then Instr.ascatter tStr3 else Instr.agather tStr3
    (StrMeets i fun _ _ u => moveLen tStr3 u = 0) ∧
    ∀ w ∈ [Way.done, .stays, .parks], StrMeets i fun s t u =>
      (moveLen tStr3 u ≠ 0 ∧ SAddr.of (u.stream.src tStr3.c tStr3.lit) = .queue 3 0 ∧
        SAddr.of (u.stream.src tStr3.b tStr3.lit) = .glob (u.stream.src tStr3.b tStr3.lit).toNat ∧
        moveSrc tStr3 u ≠ .bad ∧ (moveSrc tStr3 u).isQueue = false ∧ (moveSrc tStr3 u).aligned (2 ^ 3) = true ∧
        (u.stream.src tStr3.b tStr3.lit).toNat % 4 = 0) ∧
      wayOf ((s.strAt t u).indexGo u.id scatter (moveSrc tStr3 u) (.glob (u.stream.src tStr3.b tStr3.lit).toNat) (2 ^ 3)
        (moveLen tStr3 u) 0 (3 * moveLen tStr3 u + 3)) = w := by
  intro scatter i
  cases scatter
  · refine ⟨str_meets (s := qState 0 0 0 [] 16) (by decide +kernel), fun w hw => ?_⟩
    simp only [List.mem_cons, List.not_mem_nil, or_false] at hw
    rcases hw with rfl | rfl | rfl
    · exact str_meets (s := qState (scr 0) (placeCode + 0x800) 8 [] 16) (by decide +kernel)
    · exact str_meets (s := qState (scr 0) (placeCode + 0x800) 8 [] 0) (by decide +kernel)
    · exact str_meets (s := qState (scr 0) 0xF0000000 8 [] 16) (by decide +kernel)
  · refine ⟨str_meets (s := qState 0 0 0 [] 16) (by decide +kernel), fun w hw => ?_⟩
    simp only [List.mem_cons, List.not_mem_nil, or_false] at hw
    rcases hw with rfl | rfl | rfl
    · exact str_meets (s := qState (scr 0) (placeCode + 0x800) 8 [List.replicate 32 Val.zero] 16) (by decide +kernel)
    · exact str_meets (s := qState (scr 0) (placeCode + 0x800) 8 [] 16) (by decide +kernel)
    · exact str_meets (s := qState (scr 0) 0xF0000000 8 [List.replicate 32 Val.zero] 16) (by decide +kernel)

theorem witness_StreamMoveCopies : StrMeets (.amove tStr2) fun _ _ u =>
    SAddr.of (u.stream.src tStr2.a tStr2.lit) = .scr 8 ∧ SAddr.of (u.stream.src tStr2.b tStr2.lit) = .scr 16 ∧
    (u.stream.dest tStr2.d).toNat = 1008 ∧ 1008 % 8 = 0 ∧ 8 % 8 = 0 ∧ 16 % 8 = 0 ∧ 8 + 1008 ≤ u.scrSize ∧ 16 + 1008 ≤ u.scrSize ∧
    u.stream.cursor = 0 ∧ u.stream.shadow = [] :=
  str_meets (s := sState (scr 8) (scr 16) 1008 0) (by decide +kernel)

/-! ## Events -/

/-- The device with no run in hand and its one team as given. -/
def evState (f : Team → Team) : State := { tState calm with runs := [], teams := [f tTeam] }

/-- Lane 0 of the team's wave as given. -/
def laneOf (t : Thread) (u : Team) : Team := { u with waves := [placeWave t] }
def threadAs (st : Status) : Thread := { Thread.launch placeCode 0 0 with status := st }

theorem witness_WaitEvents :
    let bar := evState (laneOf (threadAs (.waiting .bar)))
    let cbar := evState (laneOf (threadAs (.waiting .cbar)))
    let fjoin := evState (laneOf (threadAs (.waiting .fjoin)))
    let joined := evState (laneOf (threadAs (.waiting (.joined 0))))
    let wsync := evState (laneOf (threadAs (.waiting (.wsync 1))))
    let free := evState id
    (let ok := fun (s : State) => (s.team ⟨1, 0⟩).isLive = true ∧ (s.team ⟨1, 0⟩).allWait .bar = true ∧
        s.elementParked ⟨1, 0⟩ (s.team ⟨1, 0⟩).barCut = false;
      ok bar ∧ ¬ok free) ∧
    (let ok := fun (s : State) => (∃ u ∈ s.cohortTeams 1 0, u.isLive = true) ∧
        ∀ u ∈ s.cohortTeams 1 0, u.allWait .cbar = true ∧ s.elementParked u.id u.cbarCut = false;
      ok cbar ∧ ¬ok free) ∧
    (let w := fun (s : State) => (s.team ⟨1, 0⟩).waveId 0;
      let ok := fun (s : State) => (s.wave (w s)).waitMask .fjoin ≠ 0 ∧ (s.wave (w s)).joins = 0;
      let done := fun (s : State) => (s.wave (w s)).joinedMask ≠ 0;
      ok fjoin ∧ (¬ok joined ∧ done joined) ∧ ¬ok free ∧ ¬done free) ∧
    (let w := fun (s : State) => (s.team ⟨1, 0⟩).waveId 0;
      let ok := fun (s : State) => (s.wave (w s)).synced placeCode ≠ 0;
      ok wsync ∧ ¬ok free) := by
  decide +kernel

/-- A wave whose lane 0 waits at a rejoin entry whose timer has run out; and one whose timer has not. -/
theorem witness_WaitEvents_rejoin :
    let v := fun (n : Nat) => { placeWave (threadAs (.waiting (.rejoin placeCode))) with
      rejoin := [{ mask := 3, target := placeCode, arrived := 1, timer := some n }] }
    ((v 0).rejoin[0]?.any fun e => e.timer = some 0 && LaneMask.has e.arrived 0 &&
      (v 0).lanes[(0 : Fin 32)].status = .waiting (.rejoin e.target)) = true ∧
    ((v 1).rejoin[0]?.any fun e => e.timer ≠ some 0) = true := by
  decide +kernel

def tWaiter (op : WaitOp) (owned : Bool) : Waiter :=
  { wave := ⟨⟨1, 0⟩, 0, 0⟩, mask := 1, act := 1, pc := placeCode + 8, op := op, owned := owned, order := 0, enc := [] }

def strTeam (st : StrState) (ws : List Waiter) (u : Team) : Team :=
  { u with
    owner := true, waiters := ws, sem := Vector.replicate 8 5,
    dq := (Vector.replicate 4 []).set 1 [List.replicate 32 Val.zero],
    stream := { Stream.idle with st := st, pc := placeCode + 8, blk := placeCode } }

theorem witness_StreamEvents_served :
    let served := fun (op : WaitOp) (p : WaitOp → Bool) =>
      (((evState (strTeam .idle [tWaiter op true])).team ⟨1, 0⟩).readyWaiter p).isSome = true ∧
        (((evState (strTeam .idle [])).team ⟨1, 0⟩).readyWaiter p) = none
    (served (.sem 7 5) fun o => match o with | .sem j _ => j = 7 | _ => false) ∧
    (served (.pop 1 .push) fun o => match o with | .pop j _ => j = 1 | _ => false) ∧
    (served (.push 2 []) fun o => match o with | .push j _ => j = 2 | _ => false) ∧
    (served (.engage placeCode 0 1) fun o => match o with | .engage .. => true | _ => false) ∧
    served .rdv fun o => match o with | .rdv => true | _ => false := by
  decide +kernel

theorem witness_StreamEvents :
    let held := evState (strTeam (.awaiting 3 7 5) [])
    let waits := evState fun u => { laneOf (threadAs (.waiting .streamOwner)) u with waiters := [tWaiter .rdv false] }
    (((held.team? ⟨1, 0⟩).any fun u => u.stream.st = .awaiting 3 7 5 && 5 ≤ u.sem[(7 : Fin 8)] && u.waiters = [] &&
      (held.peekWord (held.strCtx ⟨1, 0⟩) u.stream.pc).isSome) = true) ∧
    (waits.team ⟨1, 0⟩).place = .resident ∧ (waits.team ⟨1, 0⟩).owner = false ∧
    (∃ x ∈ (waits.team ⟨1, 0⟩).waiters, x.owned = false) ∧ (waits.own ⟨1, 0⟩).1 = true := by
  decide +kernel

/-- The four fates of a running program, by where it stands: an instruction of another kind, a word behind a block that is no
header's, an address that does not translate, and a header. -/
theorem witness_StreamEvents_faults :
    let at_ := fun (pc blk : Word) =>
      let s := evState fun u => { strTeam .running [] u with stream := { Stream.idle with st := .running, pc := pc, blk := blk } }
      (s.team ⟨1, 0⟩).stream.st.runs && match (s.strNext (s.team ⟨1, 0⟩)).1 with
        | .illegal => pc = placeCode + 8 | .badTarget => pc = placeCode + 0x800 | .fetch _ => pc = 0xF0000000
        | .none => pc = placeCode
    (at_ (placeCode + 8) placeCode && at_ (placeCode + 0x800) (placeCode + 0x800) && at_ 0xF0000000 placeCode &&
      at_ placeCode placeCode) = true := by
  decide +kernel

/-- A team all of whose threads wait at a full queue 2, with pool entries left and with none; and one that can go on. -/
def stuck (cap : Nat) (u : Team) : Team :=
  { laneOf (threadAs (.waiting .qpush)) (strTeam .idle [tWaiter (.push 2 []) true] u) with
    dq := (Vector.replicate 4 []).set 2 (List.replicate cap (List.replicate 32 Val.zero)),
    dqCap := (Vector.replicate 4 16).set 2 cap }

theorem witness_StreamEvents_deadlock :
    let u := fun cap => (evState (stuck cap)).team ⟨1, 0⟩
    ((u 16).deadlocked = true ∧ 64 ≤ (u 16).pool) ∧ ((u 1040).deadlocked = true ∧ (u 1040).pool < 64) ∧
      ((evState id).team ⟨1, 0⟩).deadlocked = false := by
  decide +kernel

/-! ## Engine commands that end -/

def here : Word := placeCode + 0x1000

/-- The bytes of a bin set of 8 records and one region, among others, at `here` and behind it. -/
def cmdMem : Memory :=
  let s := evState id
  (s.mem.write (s.key 0 0x1080) 0).write (s.key 0 0x201C) 8 |>.write (s.key 0 0x2018) 1

/-- A command, and the device with it in flight, no byte of whose memory has changed since its commit. -/
def cmdOf (k : CmdKind) : Cmd := { tCmd k with mem0 := cmdMem }

def cmdState (k : CmdKind) : State :=
  { evState id with
    acc := [tSlot], contexts := [⟨0, 0, 1⟩], cmds := [cmdOf k], mem := cmdMem,
    vfs := [(0, { VfRegs.reset with vfquota := BitVec.allOnes 64, vfcfg := BitVec.allOnes 64 })] }

def binSet : Word := placeCode + 0x2000

def oksB (k : CmdKind) (w : State → Worked) : Bool :=
  match w (cmdState k) with
  | .ok _ => true
  | _ => false

/-- The work of a command ends somewhere, and does not end elsewhere (where no such command is in flight). -/
def OksAndNot (w : State → Worked) : Prop := (∃ s t, w s = .ok t) ∧ ∃ s, ∀ t, w s ≠ .ok t

theorem oks_and_not {k : CmdKind} {w : State → Worked} (h : oksB k w = true) (hn : oksB (.enq [] .void) w = false) :
    OksAndNot w := by
  unfold oksB at h hn
  refine ⟨?_, cmdState (.enq [] .void), fun t ht => ?_⟩
  · split at h
    · exact ⟨_, _, by assumption⟩
    · simp at h
  · simp [ht] at hn

theorem witness_CommandEvents_works :
    OksAndNot (fun s => s.drainWork 0) ∧ OksAndNot (fun s => s.gramWork 0) ∧ OksAndNot (fun s => s.binappWork 0) ∧
    OksAndNot (fun s => s.replayWork 0) ∧ OksAndNot (fun s => s.listWork 0) ∧ OksAndNot (fun s => s.rayWork 0) ∧
    ∃ (s t : State), s.collWork 0 [] = .ok t :=
  ⟨oks_and_not (k := .drain 0 0 0 1 here 0 0) (by decide +kernel) (by decide +kernel),
   oks_and_not (k := .grammar 1 0 here here here 0 0 false) (by decide +kernel) (by decide +kernel),
   oks_and_not (k := .binapp .add true [(0, here, 0, 0)]) (by decide +kernel) (by decide +kernel),
   oks_and_not (k := .binreplay here 0 here) (by decide +kernel) (by decide +kernel),
   oks_and_not (k := .wlinit here) (by decide +kernel) (by decide +kernel),
   oks_and_not (k := .rayq false false here [0, 0, 0, 0] 4) (by decide +kernel) (by decide +kernel),
   (oks_and_not (k := .coll .allReduce .add .f32 here here here 0 0) (w := fun s => s.collWork 0 []) (by decide +kernel)
     (by decide +kernel)).1⟩

def ended (k : Copy) : Bool :=
  match (cmdState (.copy k)).copyReady 0 with
  | some (m, k) => match (cmdState (.copy k)).copyRun m k with
    | .complete .. => true
    | _ => false
  | none => false

def stuckAt (k : Copy) : Bool :=
  match (cmdState (.copy k)).copyReady 0 with
  | some (m, k) => match (cmdState (.copy k)).copyRun m k with
    | .stuck .. => true
    | _ => false
  | none => false

/-- A copy of 8 bytes into the scratchpad ends; one from an address that does not translate is stuck. -/
theorem witness_CommandEvents_copies :
    let k := fun (src : Word) => (⟨2, 0, src, 8, false, true, 0, [], []⟩ : Copy)
    ended (k here) = true ∧ stuckAt (k 0xF0000000) = true := by
  decide +kernel

def fetched (f : Fetched) : Option State :=
  match f with
  | .got _ s => some s
  | _ => none

/-- The others: an MMA whose operands are read, an ENQ, a WBIND, commands at a fault of each kind, and an element that lies in
no region of its bin set. -/
theorem witness_CommandEvents :
    let mma := CmdKind.mma 0 0 0 0 1 here here
    let s := cmdState mma
    (s.tileTurn (cmdOf mma) = true ∧
      ((fetched (s.fetch ((cmdOf mma).ctx) here.toNat (operandBytes 0 0))).bind fun u =>
        fetched (u.fetch ((cmdOf mma).ctx) here.toNat (operandBytes 0 0))).isSome = true) ∧
    ((cmdState (.enq [(0, 0, here)] .push)).enqAll (cmdOf (.enq [(0, 0, here)] .push)) [(0, 0, here)]).isSome = true ∧
    (match (cmdState (.wlinit 0)).work (cmdOf (.wlinit 0)) with | .stop _ => true | _ => false) = true ∧
    (let g := CmdKind.grammar 1 0 0 here here 0 0 false;
      (match (cmdState g).work (cmdOf g) with | .partly .. => true | _ => false) = true) ∧
    (let recs := [(0, binSet, 0x40000, 0)]; let k := CmdKind.binapp .add true recs; let c := cmdOf k;
      (cmdState k).binTurn c = true ∧ (c.open_ 1).contains 0 = true ∧
      (match (cmdState k).binDescs (c.srcCtx) recs with
      | .ok (bs, t) => (match t.appendAt (c.ctx) bs .add true recs 0 with
        | .park .. => true
        | _ => false)
      | .error _ => false) = true) := by
  decide +kernel

/-! ### Commands whose operands are at hand -/

def poke (bs : List (Nat × Byte)) (s : State) : State :=
  { s with mem := bs.foldl (fun m p => m.write (s.key 0 p.1) p.2) s.mem }

/-- A number's bytes at a host-physical address. -/
def field (at_ n v : Nat) : List (Nat × Byte) := (List.range n).map fun i => (at_ + i, (bytesLE n v).getD i 0)

/-- TLB entries of the engines of cluster 0: the page at `placeCode`, and the 2 MB behind it, which lie in halls. -/
def nearPage : TlbEntry :=
  { level2 := true, unit := 0, ctx := 0, vf := 0, va := 0x200000, gpa := 0, log2 := 21, hpa := 0, perm1 := ⟨true, true, true⟩,
    perm2 := ⟨true, true, true⟩, sys := false, nc := false, dirty := true }
def hallPage : TlbEntry := { nearPage with va := 0x400000, gpa := bankBase, hpa := bankBase }

/-- A command in flight with the bytes it finds at host-physical addresses, unchanged since its commit, over those pages. -/
def endMem (bs : List (Nat × Byte)) : Memory := (poke bs (evState id)).mem
def endCmd (k : CmdKind) (bs : List (Nat × Byte)) : Cmd := { tCmd k with mem0 := endMem bs }
def endState (k : CmdKind) (bs : List (Nat × Byte)) : State :=
  { cmdState k with
    banks := [⟨0, 0x23, none⟩], tlb := [nearPage, hallPage], mem := endMem bs, cmds := [endCmd k bs] }

/-- An agent's context that those entries serve. -/
def Near (c : Xctx) : Prop := c.asd.ctx = 0 ∧ c.cluster = 0 ∧ c.core = none ∧ c.part = 0 ∧ c.sys = false

/-- A device that reaches its memory through those entries. -/
def Paged (s : State) : Prop := s.tlb = [nearPage, hallPage] ∧ s.devNum = 0 ∧ (s.part 0).channels.length = 24

theorem paged_held {s : State} (hs : Paged s) {c : Xctx} (hc : Near c) {va : Nat} (a : Acc)
    (h : 0x200000 ≤ va ∧ va < 0x400000) :
    HeldAs s c va a (va - 0x200000) ∧ s.region 0 (va - 0x200000) = some .gddr := by
  obtain ⟨h1, h2, h3, h4, h5⟩ := hc
  obtain ⟨ht, hv, hn⟩ := hs
  have hd : va / 2097152 = 1 := by omega
  have hm : va % 2097152 = va - 0x200000 := by omega
  have ha : permits ⟨true, true, true⟩ a = true := by cases a <;> rfl
  have hr : s.region 0 (va - 0x200000) = some .gddr := by
    simp only [State.region, hn, gddrBytes]
    rw [if_pos (by omega)]
  refine ⟨⟨by omega, ?_, ?_, .inl (by rw [h4]; exact hr)⟩, hr⟩
  · simp [State.heldAt, ht, nearPage, hallPage, TlbEntry.hits, TlbEntry.serves, h1, h2, h5, hd, hm, ha]
  · simp only [State.isLocal, hv, decide_eq_true_eq]
    omega

theorem end_paged (k : CmdKind) (bs : List (Nat × Byte)) : Paged (endState k bs) := by
  refine ⟨rfl, rfl, ?_⟩
  show (PartRegs.reset 0).channels.length = 24
  decide +kernel

theorem near_held {k : CmdKind} {bs : List (Nat × Byte)} {c : Xctx} (hc : Near c) {va : Nat} (a : Acc)
    (h : 0x200000 ≤ va ∧ va < 0x400000) : HeldAs (endState k bs) c va a (va - 0x200000) ∧
      (endState k bs).region 0 (va - 0x200000) = some .gddr := paged_held (end_paged k bs) hc a h

theorem hall_held {k : CmdKind} {bs : List (Nat × Byte)} {c : Xctx} (hc : Near c) {va : Nat} (a : Acc)
    (h : 0x400000 ≤ va ∧ va < 0x400000 + 0x60000) :
    HeldAs (endState k bs) c va a (bankBase + (va - 0x400000)) ∧
      (endState k bs).region 0 (bankBase + (va - 0x400000)) = some (.hall 0) := by
  obtain ⟨h1, h2, h3, h4, h5⟩ := hc
  have hd : va / 2097152 = 2 := by omega
  have hm : va % 2097152 = va - 0x400000 := by omega
  have ha : permits ⟨true, true, true⟩ a = true := by cases a <;> rfl
  have hn : ((endState k bs).part 0).channels.length = 24 := by
    show (PartRegs.reset 0).channels.length = 24
    decide +kernel
  have hp : ((endState k bs).part 0).partown.getLsbD 0 = true := by
    show (PartRegs.reset 0).partown.getLsbD 0 = true
    decide +kernel
  have hh : (endState k bs).hall 0 = 3 := by
    show (0x23 : W32).toNat % 16 = 3
    decide
  have hr : (endState k bs).region 0 (bankBase + (va - 0x400000)) = some (.hall 0) := by
    have e1 : (bankBase + (va - 0x400000)) % 2 ^ 48 = bankBase + (va - 0x400000) := by
      simp only [bankBase]
      omega
    have e2 : (bankBase + (va - 0x400000) - bankBase) / 0x100000 = 0 := by omega
    have e3 : (bankBase + (va - 0x400000)) % 0x100000 = va - 0x400000 := by
      simp only [bankBase]
      omega
    simp only [State.region, e1, e2, e3, hn, hp, hh, gddrBytes]
    have c1 : ¬bankBase + (va - 0x400000) < 24 * 2 ^ 33 := by
      simp only [bankBase]
      omega
    have c2 : (decide (bankBase ≤ bankBase + (va - 0x400000)) &&
        decide (bankBase + (va - 0x400000) < bankBase + 192 * 0x100000)) = true := by
      rw [Bool.and_eq_true, decide_eq_true_eq, decide_eq_true_eq]
      omega
    rw [if_neg c1, if_pos c2]
    simp only [Bool.not_true, Bool.false_eq_true, if_false]
    rw [if_pos (by omega)]
  refine ⟨⟨by omega, ?_, ?_, .inr ⟨0, by rw [h4]; exact hr⟩⟩, hr⟩
  · simp [State.heldAt, endState, nearPage, hallPage, TlbEntry.hits, TlbEntry.serves, h1, h2, h5, hd, hm, ha]
  · simp [State.isLocal, endState, cmdState, evState, tState, State.place]
    show (bankBase + (va - 0x400000)) / 2 ^ 48 = 0
    simp only [bankBase]
    omega


theorem near_cmd (k : CmdKind) (bs : List (Nat × Byte)) : Near ((endCmd k bs).ctx) :=
  ⟨rfl, rfl, rfl, rfl, rfl⟩

theorem near_range {k : CmdKind} {bs : List (Nat × Byte)} {c : Xctx} (hc : Near c) {va n : Nat} (a : Acc)
    (h : 0x200000 ≤ va ∧ va + n ≤ 0x400000) : HeldRange (endState k bs) c va n a := fun i hi =>
  ⟨_, (near_held hc a (by omega)).1⟩

theorem hall_range {k : CmdKind} {bs : List (Nat × Byte)} {c : Xctx} (hc : Near c) {va n : Nat} (a : Acc)
    (h : 0x400000 ≤ va ∧ va + n ≤ 0x400000 + 0x60000) : HeldRange (endState k bs) c va n a := fun i hi =>
  ⟨_, (hall_held hc a (by omega)).1⟩

theorem page_bounds {va n p lo hi : Nat} (h : lo ≤ va ∧ va + n ≤ hi) (hp : p ∈ pageStarts va n) : lo ≤ p ∧ p < hi := by
  unfold pageStarts at hp
  split at hp
  · simp at hp
  · simp only [List.mem_cons, List.mem_map, List.mem_range] at hp
    rcases hp with rfl | ⟨i, hi, rfl⟩ <;> omega

theorem near_pages {k : CmdKind} {bs : List (Nat × Byte)} {c : Xctx} (hc : Near c) {va n : Nat}
    (h : 0x200000 ≤ va ∧ va + n ≤ 0x400000) : HeldPages (endState k bs) c va n false := by
  intro p hp
  have hr := near_held (k := k) (bs := bs) hc .write (page_bounds h hp)
  exact ⟨⟨_, (near_held hc .read (page_bounds h hp)).1⟩, _, hr.1, by rw [hc.2.2.2.1, hr.2]; simp⟩

theorem hall_pages {k : CmdKind} {bs : List (Nat × Byte)} {c : Xctx} (hc : Near c) {va n : Nat}
    (h : 0x400000 ≤ va ∧ va + n ≤ 0x400000 + 0x60000) : HeldPages (endState k bs) c va n true := by
  intro p hp
  have hr := hall_held (k := k) (bs := bs) hc .write (page_bounds h hp)
  exact ⟨⟨_, (hall_held hc .read (page_bounds h hp)).1⟩, _, hr.1, by rw [hc.2.2.2.1, hr.2]; simp⟩

def cScr : Copy :=
  { log2 := 2, dst := 0, src := 8, count := 8, srcS := true, dstS := true, cursor := 0, shadow := [], wrote := [] }
def cGlob : Copy := { cScr with src := here, dst := here + 0x100, srcS := false, dstS := false }
/-- Of a word whose top-level table entry is not valid (R168). -/
def nowhere : Word := 0x2000000000000
def cLost : Copy := { cGlob with src := nowhere, dst := 0, dstS := true }
def kMma (a : Word) : CmdKind := .mma 0 0 1 1 1 a here

theorem witness_CopyAndTileCompletions :
    (let s := endState (.copy cScr) []; s.copyReady 0 = some (endCmd (.copy cScr) [], cScr) ∧
      cScr.srcS = true ∧ cScr.dstS = true ∧ (s.team (endCmd (.copy cScr) []).wave.team).scrPoison = []) ∧
    (let s := endState (.copy cGlob) []; let c := endCmd (.copy cGlob) []; let x := c.ctx;
      s.copyReady 0 = some (c, cGlob) ∧ cGlob.srcS = false ∧ cGlob.dstS = false ∧ cGlob.shadow = [] ∧
      ∀ j, cGlob.first ≤ j → j < cGlob.count / 2 ^ cGlob.log2 →
        (∃ h, HeldAs s x (cGlob.src.toNat + j * 2 ^ cGlob.log2) .read h) ∧
        ∃ h, HeldAs s x (cGlob.dst.toNat + j * 2 ^ cGlob.log2) .write h ∧ s.region (c.partNo) h = some .gddr) ∧
    (let s := endState (.copy cLost) []; let c := endCmd (.copy cLost) [];
      s.copyReady 0 = some (c, cLost) ∧ cLost.srcS = false ∧ cLost.dstS = true ∧
      cLost.cursor < cLost.count / 2 ^ cLost.log2 ∧
      Unmapped s (c.ctx) (cLost.src.toNat + cLost.cursor * 2 ^ cLost.log2) .read) ∧
    (let s := endState (kMma here) []; let c := endCmd (kMma here) []; let n := operandBytes 0x10 1;
      s.cmd? 0 = some c ∧ s.tileTurn c = true ∧ (s.job c.wave.team.job).card.slots.toList.getD 1 0 = 0x10 ∧
      HeldRange s (c.ctx) here.toNat n .read) ∧
    (let s := endState (kMma nowhere) []; let c := endCmd (kMma nowhere) [];
      s.cmd? 0 = some c ∧ s.tileTurn c = true ∧ c.silent = false ∧
      operandBytes ((s.job c.wave.team.job).card.slots.toList.getD 1 0) 1 ≠ 0 ∧
      Unmapped s (c.ctx) nowhere.toNat .read) ∧
    (let k := CmdKind.drain 0 0 0 1 here 0 0; let s := endState k []; let c := endCmd k [];
      s.cmd? 0 = some c ∧ s.tileTurn c = true ∧
      ∀ r ∈ rowsOf 1, HeldRange s (c.ctx) (here.toNat + r * drainRow 0) (drainRow 0) .write) := by
  refine ⟨by decide +kernel, ⟨by decide +kernel, rfl, rfl, rfl, fun j _ hj => ?_⟩, ?_, ⟨?_, ?_, ?_, near_range (near_cmd _ _) _ ?_⟩, ?_,
    ⟨?_, ?_, fun r hr => near_range (near_cmd _ _) _ ?_⟩⟩
  · have : j < 2 := hj
    have e1 : cGlob.src.toNat + j * 2 ^ cGlob.log2 = 0x201000 + j * 4 := rfl
    have e2 : cGlob.dst.toNat + j * 2 ^ cGlob.log2 = 0x201100 + j * 4 := rfl
    rw [e1, e2]
    exact ⟨⟨_, (near_held (near_cmd _ _) _ (by omega)).1⟩, ⟨_, near_held (near_cmd _ _) _ (by omega)⟩⟩
  · unfold Unmapped
    decide +kernel
  · decide +kernel
  · decide +kernel
  · decide +kernel
  · decide +kernel
  · unfold Unmapped
    decide +kernel
  · decide +kernel
  · decide +kernel
  · have : rowsOf 1 = [0, 1] := by decide +kernel
    have hd : drainRow 0 = 64 := by decide +kernel
    rw [this] at hr
    rw [hd]
    simp only [List.mem_cons, List.not_mem_nil, or_false] at hr
    rcases hr with rfl | rfl <;> decide +kernel

/-- The bytes of a 32-byte bin set at `here`: 8 records to a bin, one region, its counts, bins and region behind the code. -/
def setBytes (regions : Nat) : List (Nat × Byte) :=
  field 0x1000 64 (0x240000 + 0x210000 * 2 ^ 64 + 0x220000 * 2 ^ 128 + regions * 2 ^ 192 + 8 * 2 ^ 224)
def tSet (regions : Nat) : BinSet := { bcap := 8, nreg := regions, cbase := 0x220000, bbase := 0x210000, tbase := 0x240000 }
def kApp (off : Word) : CmdKind := .binapp .add true [(0, here, off, 7)]
def kReplay : CmdKind := .binreplay here 0 0x400000

/-- A rule set of one row, which is empty: its ROWTAB at 0x1100 holds the mark of an empty row. -/
def gramBytes : List (Nat × Byte) :=
  field 0x1000 64 (0x201100 * 2 ^ 192 + 1 * 2 ^ 320 + 4 * 2 ^ 352 + 0x3F800000 * 2 ^ 416) ++ field 0x1100 4 0xFFFFFFFF
def kGram : CmdKind := .grammar 1 0 here here (here + 0x200) 0 0 false

/-- A list's descriptor in a hall: ring, bitmap and spill of 256, 1,024 and 32. -/
def listBytes : List (Nat × Byte) :=
  field bankBase 128 (0x401000 * 2 ^ 128 + 0x202000 * 2 ^ 192 + 0x403000 * 2 ^ 256 + 256 * 2 ^ 352 + 32 * 2 ^ 384 + 1024 * 2 ^ 416)
def listAt : Word := 0x400000

/-- A group of this device alone. -/
def collBytes : List (Nat × Byte) := field 0x1000 16 (2 ^ 32 + 0x201100 * 2 ^ 64)
def kColl : CmdKind := .coll .allReduce .add .f32 here (here + 0x200) (here + 0x300) 4 0

theorem here_in : 0x200000 ≤ here.toNat ∧ here.toNat < 0x400000 := by decide +kernel

theorem witness_EngineCompletions_grammar :
    let s := endState kGram gramBytes
    let c := endCmd kGram gramBytes
    let x := c.ctx
    let d := GDesc.decode (natLE (s.readPhys (c.partNo) 0x1000 64))
    let n := gramOutBytes ((s.job c.wave.team.job).card.slots.toList.getD 0 0)
    (s.cmd? 0 = some c ∧ c.part = none ∧ s.gramTurn c = true ∧ c.mem0 = s.mem ∧
      (s.ruleEngine (c.partNo) c.cluster).isSome = true ∧ here.toNat % 64 = 0) ∧ HeldAs s x here.toNat .read 0x1000 ∧
    (d.ok = true ∧ d.csr = false ∧ d.nrules = 0 ∧ d.nrows = 1 ∧ d.rowtab = 0x201100) ∧ HeldAs s x 0x201100 .read 0x1100 ∧
    (natLE (s.readPhys (c.partNo) 0x1100 4) = 2 ^ 32 - 1 ∧ s.linePoisoned (c.partNo) 0x1100 = false) ∧
    ((here + 0x200).toNat + d.row0 * n) % 2 ^ 64 = 0x201200 ∧ HeldAs s x 0x201200 .write 0x1200 :=
  ⟨by decide +kernel, (near_held (near_cmd _ _) _ here_in).1, by decide +kernel, (near_held (near_cmd _ _) _ (by omega)).1,
    by decide +kernel, by decide +kernel, (near_held (near_cmd _ _) _ (by omega)).1⟩

theorem set_at (k : CmdKind) (h : BinSet.decode (natLE ((endState k (setBytes 1)).readPhys 0 0x1000 64)) = tSet 1) :
    BinSetAt (endState k (setBytes 1)) (endCmd k (setBytes 1)) here (tSet 1) :=
  ⟨by decide +kernel, by decide +kernel, 0x1000, (near_held (near_cmd _ _) _ here_in).1, h.symm⟩

theorem witness_EngineCompletions_binapp :
    let s := endState (kApp 0) (setBytes 1)
    let c := endCmd (kApp 0) (setBytes 1)
    let x := c.ctx
    let b := tSet 1
    (s.cmd? 0 = some c ∧ s.binTurn c = true ∧ c.mem0 = s.mem ∧ c.done = [] ∧ c.drop = [] ∧ c.parked = [] ∧
      (s.binEngine (c.partNo) c.cluster).isSome = true) ∧ BinSetAt s c here b ∧
    (0 < b.nreg ∧ b.countAt 0 = 0x220000 ∧ natLE (s.readPhys (c.partNo) 0x20000 4) = 0 ∧ 0 < b.bcap ∧
      b.slotAt 0 0 = 0x210000) ∧
    HeldAs s x 0x220000 .read 0x20000 ∧ HeldAs s x 0x220000 .write 0x20000 ∧ HeldAs s x 0x210000 .write 0x10000 :=
  ⟨by decide +kernel, set_at _ (by decide +kernel), by decide +kernel, (near_held (near_cmd _ _) _ (by omega)).1,
    (near_held (near_cmd _ _) _ (by omega)).1, (near_held (near_cmd _ _) _ (by omega)).1⟩

/-- An element that lies in no region, and one that is not aligned. -/
theorem witness_EngineCompletions_parked : ∀ off ∈ [(0x40000 : Word), 4],
    let s := endState (kApp off) (setBytes 1)
    let c := endCmd (kApp off) (setBytes 1)
    (s.cmd? 0 = some c ∧ s.binTurn c = true ∧ (c.open_ 1).contains 0 = true ∧ c.mem0 = s.mem) ∧
    BinSetAt s c here (tSet 1) ∧ ((tSet 1).nreg ≤ off.toNat / 2 ^ 18 ∨ off.toNat % 8 ≠ 0) := by
  intro off h
  simp only [List.mem_cons, List.not_mem_nil, or_false] at h
  rcases h with rfl | rfl <;> exact ⟨by decide +kernel, set_at _ (by decide +kernel), by decide +kernel⟩

/-- Other commands in flight change nothing of what an agent reaches. -/
theorem held_cmds {s : State} {l : List Cmd} {c : Xctx} {va : Nat} {a : Acc} {h : Nat} (hh : HeldAs s c va a h) :
    HeldAs ({ s with cmds := l } : State) c va a h := hh
theorem range_cmds {s : State} {l : List Cmd} {c : Xctx} {va n : Nat} {a : Acc} (hh : HeldRange s c va n a) :
    HeldRange ({ s with cmds := l } : State) c va n a := hh
theorem pages_cmds {s : State} {l : List Cmd} {c : Xctx} {va n : Nat} {b : Bool} (hh : HeldPages s c va n b) :
    HeldPages ({ s with cmds := l } : State) c va n b := hh

/-- A replay that has started. -/
def startedCmd : Cmd := { endCmd kReplay (setBytes 1) with started := some 1 }
def startedState : State := { endState kReplay (setBytes 1) with cmds := [startedCmd] }

theorem witness_EngineCompletions_replay :
    (let s := endState kReplay (setBytes 1)
     let c := endCmd kReplay (setBytes 1)
     s.cmd? 0 = some c ∧ c.kind = kReplay ∧ s.binTurn c = true ∧ c.started = none) ∧
    let s := startedState
    let c := startedCmd
    let x := c.ctx
    let b := tSet 1
    (s.cmd? 0 = some c ∧ s.binTurn c = true ∧ c.started.isSome = true ∧ s.cmds.any (s.owesRegion c here 0) = false ∧
      (s.binEngine (c.partNo) c.cluster).isSome = true ∧ c.mem0 = s.mem ∧ 0 < b.nreg) ∧ BinSetAt s c here b ∧
    HeldPages s x 0x400000 (2 ^ 18) true ∧ HeldRange s x 0x400000 (2 ^ 18) .write ∧
    (b.countAt 0 = 0x220000 ∧ b.slotAt 0 0 = 0x210000 ∧ b.target 0 0 = 0x240000) ∧ HeldAs s x 0x220000 .read 0x20000 ∧
    HeldRange s x 0x220000 4 .write ∧ HeldRange s x 0x210000 (16 * natLE (s.readPhys (c.partNo) 0x20000 4)) .read ∧
    HeldRange s x 0x240000 (2 ^ 18) .read ∧ HeldRange s x 0x240000 (2 ^ 18) .write := by
  have h0 : natLE (startedState.readPhys 0 0x20000 4) = 0 := by decide +kernel
  have hn : Near startedCmd.ctx := ⟨rfl, rfl, rfl, rfl, rfl⟩
  refine ⟨by decide +kernel, by decide +kernel,
    ⟨by decide +kernel, by decide +kernel, 0x1000, held_cmds (near_held hn _ here_in).1, by decide +kernel⟩,
    pages_cmds (hall_pages hn (by omega)), range_cmds (hall_range hn _ (by omega)), by decide +kernel,
    held_cmds (near_held hn _ (by omega)).1, range_cmds (near_range hn _ (by omega)), range_cmds (near_range hn _ ?_),
    range_cmds (near_range hn _ (by omega)), range_cmds (near_range hn _ (by omega))⟩
  rw [show startedCmd.partNo = 0 from rfl, h0]
  decide

/-- WLINIT, WLPUSH, WLINS and WLPOPB, on a list that is well formed. -/
theorem witness_EngineCompletions_lists :
    ∀ k ∈ [CmdKind.wlinit listAt, .wlpush listAt [(0, 5)], .wlins listAt [(0, 5)] .push, .wlpopb listAt 1 .push],
    let s := endState k listBytes
    let c := endCmd k listBytes
    let x := c.ctx
    let w := WList.decode (natLE (s.readPhys (c.partNo) bankBase 128))
    (s.cmd? 0 = some c ∧ c.listAddr = some listAt ∧ c.ticket = none ∧ ∀ o ∈ s.cmds, c.id ≤ o.id) ∧
    HeldAs s x listAt.toNat .read bankBase ∧
    (listAt.toNat % 128 = 0 ∧ w.rsvd = 0 ∧ w.ring % 128 = 0 ∧ w.bmap % 128 = 0 ∧ w.spill % 128 = 0 ∧
      isPow2 w.rcap 256 65536 = true ∧ w.scap % 32 = 0 ∧ w.bbits % 1024 = 0) ∧
    HeldPages s x listAt.toNat 128 true ∧ HeldPages s x w.ring (4 * w.rcap) true ∧ HeldPages s x w.bmap (w.bbits / 8) true ∧
    HeldPages s x w.spill (4 * w.scap) false := by
  have e : listAt.toNat = 0x400000 := by decide +kernel
  have hw : ∀ k, WList.decode (natLE ((endState k listBytes).readPhys 0 bankBase 128)) =
      { rsvd := 0, drops := 0, scount := 0, tail := 0, head := 0, bbits := 1024, scap := 32, rcap := 256, bmap := 0x403000,
        spill := 0x202000, ring := 0x401000 } := by
    have : WList.decode (natLE ((endState (.wlinit 0) listBytes).readPhys 0 bankBase 128)) =
        { rsvd := 0, drops := 0, scount := 0, tail := 0, head := 0, bbits := 1024, scap := 32, rcap := 256,
          bmap := 0x403000, spill := 0x202000, ring := 0x401000 } := by decide +kernel
    exact fun _ => this
  intro k hk
  refine ⟨?_, ?_, ?_, ?_, ?_, ?_, ?_⟩
  · simp only [List.mem_cons, List.not_mem_nil, or_false] at hk
    rcases hk with rfl | rfl | rfl | rfl <;> decide +kernel
  · rw [e]
    exact (hall_held (near_cmd _ _) _ (by omega)).1
  · refine ⟨by decide +kernel, ?_⟩
    rw [show (endCmd k listBytes).partNo = 0 from rfl, hw k]
    decide +kernel
  · rw [e]
    exact hall_pages (near_cmd _ _) (by omega)
  · rw [show (endCmd k listBytes).partNo = 0 from rfl, hw k]
    exact hall_pages (near_cmd _ _) (by decide)
  · rw [show (endCmd k listBytes).partNo = 0 from rfl, hw k]
    exact hall_pages (near_cmd _ _) (by decide)
  · rw [show (endCmd k listBytes).partNo = 0 from rfl, hw k]
    exact near_pages (near_cmd _ _) (by decide)

def kRay (w : Word) : CmdKind := .rayq true false here [w, 0, 0, 0x3F80000000000000] 9

/-- A ray with a NaN, and one into a tree whose root box has no child. -/
theorem witness_EngineCompletions_rays :
    (let s := endState (kRay 0x7FC00000) []; let c := endCmd (kRay 0x7FC00000) [];
      s.cmd? 0 = some c ∧ c.runs = true ∧ rayOf [0x7FC00000, 0, 0, 0x3F80000000000000] = .nan) ∧
    (let s := endState (kRay 0) []; let c := endCmd (kRay 0) [];
      (s.cmd? 0 = some c ∧ c.runs = true ∧ c.mem0 = s.mem ∧ here.toNat % 128 = 0 ∧
        s.linePoisoned (c.partNo) 0x1000 = false ∧
        (match rayOf [0, 0, 0, 0x3F80000000000000] with | .ray _ => true | _ => false) = true ∧
        ∀ k < 4, natLE (((s.readPhys (c.partNo) 0x1000 128).drop (4 * (24 + k))).take 4) / 2 ^ 30 = 0) ∧
      HeldAs s (c.ctx) here.toNat .read 0x1000) :=
  ⟨by decide +kernel, by decide +kernel, (near_held (near_cmd _ _) _ here_in).1⟩

theorem witness_EngineCompletions_coll :
    let s := endState kColl collBytes
    let c := endCmd kColl collBytes
    let x := c.ctx
    let g := Group.decode (natLE (s.readPhys (c.partNo) 0x1000 16))
    (s.cmd? 0 = some c ∧ c.runs = true ∧ c.mem0 = s.mem ∧ here.toNat % 64 = 0) ∧ HeldAs s x here.toNat .read 0x1000 ∧
    (g.nrank = 1 ∧ g.rank = 0 ∧ g.list = 0x201100 ∧ natLE (s.readPhys (c.partNo) 0x1100 2) = s.devNum) ∧
    HeldAs s x 0x201100 .read 0x1100 ∧
    HeldRange s x (here + 0x200).toNat (sourceBytes .allReduce (CollTy.bytes .f32) 4 1 0 0) .read ∧
    HeldRange s x (here + 0x300).toNat (destBytes .allReduce (CollTy.bytes .f32) 4 1) .write :=
  ⟨by decide +kernel, (near_held (near_cmd _ _) _ here_in).1, by decide +kernel, (near_held (near_cmd _ _) _ (by omega)).1,
    near_range (near_cmd _ _) _ (by decide +kernel), near_range (near_cmd _ _) _ (by decide +kernel)⟩

/-! ## The Carillon and the scheduler -/

def tBin (dispatched : Bool) (w : Weights) : Bin :=
  { id := 5, cluster := 0, job := 1, vf := 0, handle := 9, dispatched := dispatched, entry := 0, weights := w, ran := 0,
    calls := [{ wave := ⟨⟨1, 0⟩, 0, 0⟩, lane := 0, tok := 8, out := 9, outs := 1, x := [0], at_ := 0, id := 7, cluster := 0,
                seq := 1, pc := placeCode + 8 }] }

def binState (dispatched : Bool) (w : Weights) : State :=
  { evState id with
    contexts := [⟨0, 0, 1⟩], bins := [tBin dispatched w], now := 4096 }

/-- A set of one layer of one input and one output (R238). -/
def weightBytes : List (Nat × Byte) :=
  field 0x1000 16 (1 + 64 * 2 ^ 32) ++ field 0x1010 16 (1 + 2 ^ 8 + 32 * 2 ^ 32 + 48 * 2 ^ 64 + 50 * 2 ^ 96)

/-- What the check of the set at `here` finds, and the bins of handle 9 then: open ones, ones that wait for weights. -/
def bound (bs : List (Nat × Byte)) (bins : List Bin) : Option (Bool × Bool × Bool) :=
  let s := ({ endState (.wbind 9 here) bs with bins := bins } : State)
  let found := fun (good : Bool) (u : State) =>
    let mine := u.bins.filter fun b => b.vf = 0 && b.handle = 9
    some (good, !(mine.filter Bin.opened).isEmpty, mine.any fun b => b.weights = .waiting)
  match s.checkSet (endCmd (.wbind 9 here) bs) here with
  | .good _ _ u => found true u
  | .bad _ _ _ u => found false u
  | .later => none

theorem witness_CarillonEvents_wbind :
    [bound weightBytes [tBin false .missing], bound weightBytes [tBin true .waiting], bound weightBytes [], bound [] []] =
      [some (true, true, false), some (true, false, true), some (true, false, false), some (false, false, false)] := by
  decide +kernel

theorem witness_CarillonEvents :
    (let s := binState true .missing;
      (s.bins.find? fun b => b.calls.any fun c => c.id = 7) = some (tBin true .missing) ∧ s.tileReady (tBin true .missing) = true ∧
      ((tBin true .missing).calls.find? fun c => c.id = 7).isSome = true) ∧
    (let waits := fun (b : Bin) => b.dispatched && b.weights = .waiting && b.cluster = 0 && b.vf = 0 && b.handle = 9;
      (binState true .waiting).bins.any waits = true ∧ (binState true .missing).bins.any waits = false) ∧
    (let s := binState false .waiting;
      (s.bins.find? fun b => b.id = 5) = some (tBin false .waiting) ∧ (tBin false .waiting).opened = true ∧
      ∃ c ∈ (tBin false .waiting).calls, c.at_ + 2048 ≤ s.now) ∧
    (let blocked := fun (s : State) =>
        ∀ b ∈ s.bins, b.cluster = 0 → ∀ c ∈ b.calls, s.waveBlocked c.wave = true;
      blocked (evState id) ∧ ¬blocked (binState false .waiting)) ∧
    (let s := cmdState (.wbind 9 here); (s.cmd? 0).map (fun c => c.kind) = some (.wbind 9 here)) := by
  decide +kernel

/-- Job 1, whose team is swapped out, holds a context that an MMA of job 2 waits for. -/
def leaving (bins : List Bin) : State :=
  ({ State.reset with
      boot := .done, jobs := [tJob, { tJob with id := 2 }], contexts := [⟨0, 0, 1⟩, ⟨0, 1, 3⟩], bins := bins,
      teams := [{ tTeam with place := .swapped }, { tTeam with id := ⟨2, 0⟩ }],
      runs := [{ tRun calm with wave := ⟨⟨2, 0⟩, 0, 0⟩, suspended := true }] } : State).place (encode (.mma tMat))

theorem witness_CarillonEvents_leave :
    let due := fun (s : State) => s.ctxIdle 1 0 = true ∧ (s.ctxWanted 1 0 = true ∨ s.awayWanted 1 0 = true)
    let mine := fun (s : State) => s.bins.filter fun b => b.job = 1 && b.cluster = 0
    (evState id).ctxIdle 1 0 = false ∧
    (due (leaving [tBin false .waiting]) ∧ ∃ b ∈ mine (leaving [tBin false .waiting]), b.opened = true) ∧
    (due (leaving [tBin true .waiting]) ∧ (∀ b ∈ mine (leaving [tBin true .waiting]), b.opened = false) ∧
      mine (leaving [tBin true .waiting]) ≠ []) ∧
    (due (leaving []) ∧ mine (leaving []) = []) := by
  decide +kernel

/-- Queue 0 of function 0, mapped and enabled, with one card at an address whose two middle bytes are given; bit 6 of `en` makes
it a queue of draws. -/
def cardState (en : Byte) (hi : Byte) (more : List (Nat × Byte)) : State :=
  poke ([(0x301E, en), (0x3020, 1), (0x3031, 0x10), (0x3032, 0x20), (0x3033, hi), (0x3029, 0x40), (0x4002, 0x10)] ++ more)
    { evState id with
      teams := [], slots := [{ part := 0, vf := 0, queue := 0, since := 0 }],
      vfs := [(0, { VfRegs.reset with qtbase := 0x3000, vfquota := 0x0004000000000000 })], counters := [(0, 0, 1)],
      parts := [(0, { PartRegs.reset 0 with partown := (PartRegs.reset 0).partown ||| runBit })] }

def launches (draw : Bool) (s : State) : Bool :=
  (s.part (s.vf 0).partition).run && s.mapped 0 0 && !(s.qdesc 0 0).empty && (s.qdesc 0 0).en && (s.qdesc 0 0).draw == draw

/-- The card at the head of queue 0, and the state after reading it. -/
def headCard (s : State) : Option (Nat × State) :=
  match s.readCard (s.queueCtx 0 (s.qdesc 0 0)) ((s.qdesc 0 0).cardAt (s.qdesc 0 0).head) with
  | .ok p => some p
  | .error _ => none

theorem witness_LaunchEvents :
    launches false (evState id) = false ∧
    (let s := cardState 0x80 0xF0 []; launches false s = true ∧ headCard s = none) ∧
    (let s := cardState 0x80 0 []; launches false s = true ∧
      (headCard s).any (fun p => p.2.waitDone 0 (Card.decode p.1).wait) = true) ∧
    (let s := cardState 0x80 0 [(0x104C, 1)]; launches false s = true ∧
      (headCard s).any (fun p => !p.2.waitDone 0 (Card.decode p.1).wait) = true) ∧
    (let j := { tJob with earlyDone := false, card := { tJob.card with early := here } };
      let s := { cardState 0x80 0 [] with
        jobs := [j] };
      (s.jobs.find? fun j => j.id = 1) = some j ∧ j.earlyDone = false ∧ j.draw = none ∧ (s.part j.part).run = true ∧
      s.allTrig j = true ∧
      (match s.readCard { part := j.part, cluster := 0, core := none, asd := j.asd, sys := false } j.card.early.toNat with
        | .ok (d, t) => t.waitDone j.vf (Card.decode d).wait
        | .error _ => false) = true) ∧
    (let s := cardState 0x80 0 [];
      (s.jobs.find? fun j => j.id = 1) = some tJob ∧ tJob.completed = false ∧ tJob.draw = none ∧ s.jobOver tJob = true ∧
      (s.recordJob tJob).recordHeld 1 = false) ∧
    (let j := { tJob with recorded := true };
      let s := { cardState 0x80 0 [] with
        jobs := [j], held := [{ vf := 0, kind := .completion 1, record := 0, into := none }] };
      (s.jobs.find? fun j => j.id = 1) = some j ∧ s.jobOver j = true ∧ s.recordHeld 1 = true) := by
  decide +kernel

/-- The card at the head of queue 0 where a TLB entry serves the queue. -/
theorem witness_LaunchEvents_held :
    let s := ({ cardState 0x80 0 [] with tlb := [nearPage, hallPage] } : State)
    let q := s.qdesc 0 0
    launches false s = true ∧ q.cardAt q.head = 0x201000 ∧ q.cardAt q.head % 128 = 0 ∧
      HeldAs s (s.queueCtx 0 q) 0x201000 .read 0x1000 := by
  have hp : Paged ({ cardState 0x80 0 [] with tlb := [nearPage, hallPage] } : State) :=
    ⟨rfl, rfl, by decide +kernel⟩
  exact ⟨by decide +kernel, by decide +kernel, by decide +kernel,
    (paged_held hp (by unfold Near; decide +kernel) _ (by omega)).1⟩

/-! ## Placement and rendering -/

theorem choose_of_ne {α : Type} (n : Nat) (l : List α) (h : l ≠ []) : ∃ k, choose n l = some k := by
  unfold choose
  split
  · exact absurd rfl h
  · exact ⟨_, rfl⟩
  · exact ⟨_, List.getElem?_eq_getElem (Nat.mod_lt _ (by have := List.length_pos_iff.2 h; simpa using this))⟩

theorem free_slot {s : State} {core : Nat}
    (h : ((List.range 16).filter fun k => !(s.usedSlots core).contains k) ≠ []) : ∃ k, s.freeSlot core = some k :=
  choose_of_ne _ _ h

/-- Cores are found whatever number the order starts at, once they are found for each number below 12. -/
theorem cores_found {s : State} {w : Waiting} {cluster : Nat} (hg : (s.mayGo w cluster && s.roomFits w cluster) = true)
    (h : (List.range 12).all (fun q =>
      (s.pickCoresGo cluster (s.needs? w) ((List.range 12).map fun i => (i + q) % 12)).isSome) = true) :
    (s.pickCores w cluster).isSome = true := by
  unfold State.pickCores
  simp only [hg, if_true]
  have : (fun i => (i + s.pickNo 9 cluster) % 12) = fun i => (i + s.pickNo 9 cluster % 12) % 12 := by
    funext i; omega
  rw [this]
  exact List.all_eq_true.1 h _ (List.mem_range.2 (Nat.mod_lt _ (by omega)))

/-- A device on which job 1 waits for admission. -/
def waitState : State :=
  { evState id with
    teams := [], jobs := [{ tJob with nextCohort := 0 }], now := 480000 }

def tWait : Waiting := { job := 1, cohort := 0, cls := 0, since := 0, fresh := true }

theorem witness_PlacementEvents_admit :
    (waitState.waitingCohorts.find? fun w => w.job = 1 && w.cohort = 0) = some tWait ∧ waitState.mayGo tWait 0 = true ∧
    waitState.coresFit tWait 0 [3] = true ∧
    ∀ x ∈ waitState.fitting 0, x.before tWait = false := by
  have hw : waitState.waitingCohorts = [tWait] := by decide +kernel
  refine ⟨by decide +kernel, by decide +kernel, by decide +kernel, fun x hx => ?_⟩
  simp only [State.fitting, hw, List.mem_filter, List.mem_singleton] at hx
  rw [hx.1]
  decide

theorem witness_PlacementEvents_slice :
    (getAssoc 0 waitState.sliceAt).getD 0 + 480000 ≤ waitState.now ∧
    let t := { waitState with sliceAt := putAssoc 0 waitState.now waitState.sliceAt }
    ((t.admittedOn 0).filter fun c => c.2.2 + 480000 ≤ t.now && t.unguarded c.1 c.2.1) = [] ∧
    sortOn (fun w => w.since) (sortOn (fun w => w.cohort) (t.waitingCohorts.filter fun w => t.mayGo w 0)) = [tWait] ∧
    (t.pickCores tWait 0).isSome = true :=
  ⟨by decide +kernel, by decide +kernel, by decide +kernel, cores_found (by decide +kernel) (by decide +kernel)⟩

/-- A slice that has not run out; and one at whose end no cohort waits and the one that ran longest leaves. -/
theorem witness_PlacementEvents_sliceEnds :
    (evState id).now < (getAssoc 0 (evState id).sliceAt).getD 0 + 480000 ∧
    (let s := ({ evState id with now := 480000 } : State)
     let t := { s with sliceAt := putAssoc 0 s.now s.sliceAt }
     (getAssoc 0 s.sliceAt).getD 0 + 480000 ≤ s.now ∧ (t.waitingCohorts.filter fun w => t.mayGo w 0) = [] ∧
      ((t.admittedOn 0).filter fun c => c.2.2 + 480000 ≤ t.now && t.unguarded c.1 c.2.1) = [(1, 0, 0)]) := by
  decide +kernel

/-- The team of job 1 beside job 2, whose teams fit nowhere. -/
def crowded : State :=
  { evState id with
    jobs := [{ tJob with card := { tJob.card with cls := 3 } },
             { tJob with id := 2, nextCohort := 0, card := { tJob.card with scratch := 2 ^ 60 } }] }

def tBig : Waiting := { tWait with job := 2 }

theorem witness_PlacementEvents :
    (crowded.cohortAdmitted 1 0 = true ∧ crowded.unguarded 1 0 = true ∧ (evState id).waitingCohorts = [] ∧
      tBig ∈ crowded.waitingCohorts ∧ (crowded.job tBig.job).part = (crowded.job 1).part ∧
      crowded.preemptVictim (crowded.job 1).part tBig.cls = some (1, 0) ∧ ∀ k < 16, crowded.pickCores tBig k = none) ∧
    (let s := evState fun u => { u with guard := 7 };
      ((s.team ⟨1, 0⟩).guard ≠ 0 ∧ (s.team ⟨1, 0⟩).guard ≤ ({ s with now := 7 } : State).now) ∧
      ((evState id).team ⟨1, 0⟩).guard = 0) ∧
    (let s := ({ evState id with now := 2048 } : State);
      let w := (s.team ⟨1, 0⟩).waveId 0;
      (s.team ⟨1, 0⟩).place = .resident ∧ (s.wave w).slot.isSome = true ∧
      ∃ g ∈ s.readyGroups w (s.wave w), g.1 = placeCode ∧ (s.wave w).readySince g.2 s.now + 1024 ≤ s.now ∧
        (s.wave w).promotedAt g s.now = none) ∧
    ((waitState.periodAt + 1) * 3072 ≤ 5 * waitState.now ∧
      ¬((evState id).periodAt + 1) * 3072 ≤ 5 * (evState id).now) := by
  decide +kernel

/-- The team with a wave that has no slot. -/
def slotless (p : Place) : State :=
  evState fun u => { u with waves := [{ placeWave (Thread.launch placeCode 0 0) with slot := none }], place := p }

/-- A wave without a slot, in a resident team, whose core has a free one, and in a parked one whose cohort has room; and one
that has a slot. -/
theorem witness_PlacementEvents_restore :
    (∀ p ∈ [Place.resident, .parked],
      let s := slotless p
      let u := s.team ⟨1, 0⟩
      (∃ k, s.freeSlot u.coreNo = some k) ∧ (s.wave (u.waveId 0)).isLive = true ∧ (s.wave (u.waveId 0)).slot = none ∧
      u.place = p ∧ (p = .parked → s.mayReturn 1 u.cohort = true)) ∧
    ((evState id).wave (((evState id).team ⟨1, 0⟩).waveId 0)).slot.isSome = true := by
  refine ⟨fun p hp => ?_, by decide +kernel⟩
  simp only [List.mem_cons, List.not_mem_nil, or_false] at hp
  rcases hp with rfl | rfl <;> exact ⟨free_slot (by decide +kernel), by decide +kernel, by decide +kernel, by decide +kernel⟩

/-- Waves that have a slot: of a team within its guard; beside another; alone, and then in a cohort that is within a guard
or is not; there is parking space. -/
theorem witness_PlacementEvents_parking :
    let met := fun (s : State) => (s.team ⟨1, 0⟩).place = .resident ∧ (s.wave ((s.team ⟨1, 0⟩).waveId 0)).slot.isSome = true
    let others := fun (s : State) => ∃ v ∈ (s.team ⟨1, 0⟩).waves,
      v.isLive = true ∧ v.slot.isSome = true ∧ v.uid ≠ ((s.team ⟨1, 0⟩).waveId 0).uid
    let guarded := evState fun u => { u with guard := 7 }
    let two := evState fun u => { u with waves := u.waves ++ [{ placeWave (Thread.launch placeCode 0 0) with
      idx := 1, uid := 1, slot := some 1 }] }
    let mates := ({ evState id with teams := [tTeam, { tTeam with id := ⟨1, 1⟩, core := 1, guard := 7 }] } : State)
    (met guarded ∧ guarded.now < (guarded.team ⟨1, 0⟩).guard) ∧
    (met two ∧ (two.team ⟨1, 0⟩).guard ≤ two.now ∧ others two ∧
      two.canPark (two.job 1).part 0 (waveLen (two.job 1).card.named) = true) ∧
    (met (evState id) ∧ ((evState id).team ⟨1, 0⟩).guard ≤ (evState id).now ∧ ¬others (evState id) ∧
      (evState id).unguarded 1 0 = true ∧ (evState id).canPark ((evState id).job 1).part 0 ((evState id).parkNeed 1 0) = true) ∧
    (met mates ∧ (mates.team ⟨1, 0⟩).guard ≤ mates.now ∧ ¬others mates ∧ mates.unguarded 1 0 = false) := by
  decide +kernel

/-- A draw of one triangle whose three vertices have left their threads. -/
def tDraw : Draw :=
  { id := 9, vf := 0, part := 0, queue := 0, cardIdx := 0, cardAddr := here, card := BitVec.ofNat 1024 (2 ^ 256 + 3 * 2 ^ 224),
    asd := Asd.blank, vjob := 1, pjob := 1, status := 0, verts := [0, 1, 2],
    vout := [0, 1, 2].map fun k => { pair := k, pos := #v[0, 0, 0, 0x3F800000], attrs := Vector.replicate 4 #v[0, 0] },
    nextPrim := 0, formed := [], pending := [], ready := [], rejected := false, recorded := false }

def tFrag : Frag := { draw := 9, prim := 0, x := 1, y := 2, depth := 0 }

def drawState (d : Draw) : State := { evState id with draws := [d] }

/-- The stage record at 0x1100 and the card that names it for both stages. -/
def tDrawCard : List (Nat × Byte) :=
  [(0x1118, 5), (0x1140, 0xC1), (0x1143, 0x80), (0x1041, 0x11), (0x1042, 0x20), (0x1049, 0x11), (0x104A, 0x20), (0x1020, 1), (0x101C, 3)]

def goodDraw (s : State) : Bool :=
  let x := s.queueCtx 0 (s.qdesc 0 0)
  match headCard s with
  | none => false
  | some (d, t) =>
    let c := DrawCard.decode d
    t.waitDone 0 c.wait && drawCardOk d (s.vf 0).ccount &&
      match t.readCard x c.vstage with
      | .error _ => false
      | .ok (v, t1) => match t1.readCard x c.pstage with
        | .error _ => false
        | .ok (p, t2) => stageOk v c true && stageOk p c false && match t2.vertexIndices x c with
          | .ok _ => true
          | .error _ => false

theorem witness_RenderEvents :
    launches true (evState id) = false ∧
    (let s := cardState 0xC0 0xF0 []; launches true s = true ∧ s.draws = [] ∧ headCard s = none) ∧
    (let s := cardState 0xC0 0 []; (launches true s = true ∧ s.draws = []) ∧
      (headCard s).any (fun p => p.2.waitDone 0 (DrawCard.decode p.1).wait && !drawCardOk p.1 (s.vf 0).ccount) = true) ∧
    (let s := cardState 0xC0 0 tDrawCard; launches true s = true ∧ goodDraw s = true) ∧
    (let s := drawState tDraw;
      s.draw? 9 = some tDraw ∧ tDraw.nextPrim < tDraw.desc.primCount ∧ s.earlierDraws tDraw = [] ∧ tDraw.early = false ∧
      ((tDraw.desc.primitive 0).map fun v => (tDraw.vertex? v).isSome) = [true, true, true]) ∧
    (let f : Fragment := { frag := tFrag, exports := [], dropped := true };
      let d := { tDraw with pending := [tFrag], ready := [f] };
      let s := drawState d;
      s.draw? 9 = some d ∧ s.nextFragment d = some f ∧ (match s.blend d f with | .ok _ => true | .error _ => false) = true) ∧
    (let d := { tDraw with rejected := true };
      let s := drawState d;
      s.draw? 9 = some d ∧ s.drawOver d = true ∧ (s.recordDraw d).recordHeld 9 = false) ∧
    (let d := { tDraw with rejected := true, recorded := true };
      let s := { drawState d with held := [{ vf := 0, kind := .completion 9, record := 0, into := none }] };
      s.draw? 9 = some d ∧ s.drawOver d = true ∧ s.recordHeld 9 = true) := by
  decide +kernel

/-- A draw that tests depth early, with a colour for target 0, whose record at 0x1000 names a surface of 16 by 16 pixels. -/
def tEarly : Draw :=
  { tDraw with
    card := BitVec.ofNat 1024 (2 ^ 196 + 0x201000 * 2 ^ 640), pending := [tFrag],
    ready := [{ frag := tFrag, exports := [{ tgt := 0, a := 0x3C003C003C003C00, b := 0, depth := false }], dropped := false }] }

def earlyState : State :=
  { poke (field 0x1000 16 (0x201400 + 15 * 2 ^ 64 + 15 * 2 ^ 80)) (drawState tEarly) with tlb := [nearPage, hallPage] }

theorem witness_RenderEvents_blend :
    let s := earlyState
    let n := natLE (s.readPhys 0 0x1000 16)
    let t : Target := { fmt := fld n 103 100, w := fld n 79 64 + 1, h := fld n 95 80 + 1, base := fld n 63 0 }
    (s.draw? 9 = some tEarly ∧ (s.nextFragment tEarly).any (fun f => !f.dropped && f.exports.length = 1) = true ∧
      tEarly.early = true ∧ tEarly.desc.targets = 0x201000) ∧
    HeldAs s tEarly.ctx 0x201000 .read 0x1000 ∧
    (t.addr 1 2 = 0x201504 ∧ t.holds false 1 2 = true ∧ t.addr 1 2 % t.bytes = 0 ∧
      s.linePoisoned 0 (0x1504 / 128 * 128) = false) ∧
    HeldAs s tEarly.ctx 0x201504 .read 0x1504 ∧ HeldAs s tEarly.ctx 0x201504 .write 0x1504 := by
  have hp : Paged earlyState := ⟨rfl, rfl, by decide +kernel⟩
  have hn : Near tEarly.ctx := by unfold Near; decide +kernel
  exact ⟨by decide +kernel, (paged_held hp hn _ (by omega)).1, by decide +kernel, (paged_held hp hn _ (by omega)).1,
    (paged_held hp hn _ (by omega)).1⟩

/-- One card at `here` to queue 0, which is empty and holds one. -/
def enqState : State :=
  let s := poke [(0x3020, 0)] (cardState 0x80 0 [(0x1FF, 0)])
  { s with
    tlb := [nearPage, hallPage], cmds := [{ tCmd (.enq [(0, 0, here)] .push) with mem0 := s.mem }],
    teams := [tTeam], vfs := [(0, { VfRegs.reset with qtbase := 0x3000, vfquota := 0x0004000000010000 })] }

theorem witness_EngineCompletions_enq :
    let s := enqState
    let c : Cmd := { tCmd (.enq [(0, 0, here)] .push) with mem0 := s.mem }
    let vf := (s.job c.wave.team.job).vf
    let q := s.qdesc vf 0
    let card := natLE (s.readPhys (c.partNo) 0x1000 128)
    (s.cmd? 0 = some c ∧ 0 < (s.vf vf).qcount ∧ q.en = true ∧ q.host = false ∧ here.toNat % 128 = 0 ∧
      s.linePoisoned (c.partNo) 0x1000 = false ∧ (cardCounters q.draw card).1 ≤ (s.vf vf).ccount ∧
      (cardCounters q.draw card).2 ≤ (s.vf vf).ccount ∧ q.count ≠ 2 ^ q.log2 ∧ q.cardAt q.tail = 0x201000) ∧
    HeldAs s (c.ctx) here.toNat .read 0x1000 ∧ HeldAs s (s.queueCtx vf q) 0x201000 .write 0x1000 := by
  have hp : Paged enqState := ⟨rfl, rfl, by decide +kernel⟩
  exact ⟨by decide +kernel, (paged_held hp (by unfold Near; decide +kernel) _ here_in).1,
    (paged_held hp (by unfold Near; decide +kernel) _ (by omega)).1⟩

/-! ## Management, the outside, reset -/

/-- The device with management identity 0. -/
def managed : State := { evState id with mgrid := 0x100000000 }

def requestsMet (space offset : Nat) (read : Bool) : Bool :=
  !managed.frozen && managed.admits 0 space 0 offset read && !managed.admits 1 space 0 offset read

/-- The space and offset of every register that a statement names, for index 0; registers of the device have index 32. -/
theorem witness_ManagementAccesses :
    ([(3, 0), (3, 0x18), (3, 0x20), (1, 0x800), (0, 0), (2, 0x38), (3, 8), (3, 0x10), (2, 0x40), (3, 0x50), (2, 0x10), (2, 0),
      (2, 0x18), (1, 8), (4, 0x120)].all fun p => requestsMet p.1 p.2 false) = true ∧
    ([(2, 8), (2, 0x20), (3, 0x58), (4, 0x120), (2, 0x10)].all fun p => requestsMet p.1 p.2 true) = true ∧
    (managed.admits 0 0 32 0x38 false = true ∧ managed.admits 1 0 32 0x38 false = false) ∧
    (managed.admits 0 0 32 0x30 false = true ∧ managed.admits 1 0 32 0x30 false = false) ∧
    ({ managed with frozen := true } : State).frozen = true := by
  decide +kernel

def going : VfRegs := { VfRegs.reset with harvest := 0x8000000000000000, tlbinv := 0x8000000000000000 }

def quoting (attested : Bool) (leaf : Nat) : State :=
  { evState id with quotes := [⟨3, 0⟩], attested := attested, quoteLeaf := leaf }

theorem witness_ManagementEvents :
    (let s := { evState id with vfs := [(0, going)] };
      s.frozen = false ∧ (s.vf 0).harvest.getLsbD 63 = true ∧ (s.vf 0).tlbinv.getLsbD 63 = true) ∧
    ((evState id).vf 0).harvest.getLsbD 63 = false ∧ ((evState id).vf 0).tlbinv.getLsbD 63 = false ∧
    (let s := { evState id with frozen := true }; s.frozen = true) ∧
    (let met := fun (s : State) => s.quotes = [⟨3, 0⟩] ∧ s.frozen = false;
      (met (quoting false 0) ∧ (quoting false 0).attested = false) ∧
      (met (quoting true leafCount) ∧ leafCount ≤ (quoting true leafCount).quoteLeaf) ∧
      met (quoting true 7) ∧ (quoting true 7).attested = true ∧ (quoting true 7).quoteLeaf < leafCount) := by
  decide +kernel

/-- GRANT entry 0 of partition 0: reads by device 1 of the first GB. -/
def granting : State :=
  { evState id with
    parts := [(0, { PartRegs.reset 0 with grants := (Vector.replicate 64 0).set 0 0x8020000000100000 })] }

def outRequest : Remote :=
  { wave := ⟨⟨1, 0⟩, 0, 0⟩, lane := 0, hpa := 0x2000000000000, write := false, dst := .push, since := 0, pc := placeCode + 8,
    acq := false, held := false, refused := false, enc := [] }

theorem witness_OutsideEvents_request :
    granting.frozen = false ∧
    choose (granting.pickNo 12 0)
      ((List.range 32).filter fun p => granting.requestOpen p 1 0 (ReqKind.writes (.read 4)) 0x1000 (ReqKind.size (.read 4)))
        = some 0 ∧
    ∀ p < 32, granting.requestOpen p 2 0 (ReqKind.writes (.read 4)) 0x1000 (ReqKind.size (.read 4)) = false := by
  have h : ((List.range 32).filter fun p =>
      granting.requestOpen p 1 0 (ReqKind.writes (.read 4)) 0x1000 (ReqKind.size (.read 4))) = [0] := by decide +kernel
  exact ⟨rfl, by rw [h]; rfl, by decide +kernel⟩

theorem witness_OutsideEvents :
    (let s := fun (now : Nat) => ({ evState id with remotes := [outRequest], now := now } : State);
      (s 0).remoteOf 1 0 0 0 0x2000000000000 false = some outRequest ∧ (s 0).frozen = false ∧ (s 0).now < 2400000 ∧
      2400000 ≤ (s 2400000).now ∧ (s 2400000).remoteOf 1 0 0 0 0x2000000000000 false = some outRequest) ∧
    (let w := ((evState id).team ⟨1, 0⟩).waveId 0;
      (evState id).frozen = false ∧ ((evState id).thread w 0).status.live = true ∧
      ((evState id).thread w 1).status.live = false) ∧
    (0x1000 < 24 * gddrBytes ∧ ¬0xFFFFFFFFFFFF < 24 * gddrBytes) ∧
    ({ evState id with frozen := true } : State).frozen = true := by
  decide +kernel

theorem witness_FreezeResetBoot :
    let frozen := { evState id with frozen := true };
    (frozen.portOpen = true ∧ (evState id).portOpen = false) ∧
    (frozen.frozen = true ∧ frozen.restricted = false) ∧ (evState id).frozen = false ∧
    (State.reset.frozen = false ∧ State.reset.boot = .pending) ∧ (evState id).boot ≠ .pending := by
  decide +kernel

/-! ## Words and steps -/

theorem witness_EncodeDecode : (Instr.iaddS ⟨true, .b32⟩ tShort).WellFormed = true ∧ Instr.WellFormed .bypass = false := by
  decide +kernel

theorem witness_DecodeEncode : (decodeWords (0x7F600A80 :: [0])).toOption = some (.rft false true, 2) := by
  decide +kernel

theorem witness_HeaderWords :
    let good := fun (w : BitVec 64) => w.extractLsb' 62 2 = 3 ∧ 3 ≤ (w.extractLsb' 52 10).toNat ∧ w.getLsbD 3 = false
    good 0xC030000000000001 ∧ ¬good 0xC020000000000001 ∧ ¬good 0xC030000000000008 ∧ ¬good 0x4030000000000001 := by
  decide +kernel

theorem choose_one {α : Type} (n : Nat) (a : α) : choose n [a] = some a := rfl

/-- The device with lane 0's program counter at an instruction: it issues from there. -/
def issuing : State := ({ evState id with teams := [{ tTeam with waves := [placeWave (Thread.launch placeCode 0 0)] }] } : State)

/-- And with it behind the header of the block. -/
def issuingOn : State :=
  evState (laneOf { Thread.launch placeCode 0 0 with pc := placeCode + 8, next := placeCode + 8 })

theorem witness_StepRunsDecoded_issue : ∀ s ∈ [issuing, issuingOn],
    let w : WaveId := ⟨⟨1, 0⟩, 0, 0⟩
    s.inputs = [] ∧ s.frozen = false ∧ s.boot = .done ∧ choose (s.pickNo 0 0) s.moves = some (.issue w 1) ∧
    let t := ((s.asking (.issue w 1)).noteServed w).modWave w fun v =>
      { v with promoted := v.promoted.filter fun p => p.1 ≠ (s.thread w (lowestLane 1)).pc }
    let r := (t.wave w).runOf w 1
    let heads := (t.wave w).lanes[lowestLane 1].pc = r.blk
    t.stepsHere w 1 = 0 ∧ t.breakAt w 1 r.start = 0 ∧
    let u := if heads then (t.headerBad (t.xctx w) r.blk 1).1 else t
    (heads → (t.headerBad (t.xctx w) r.blk 1).2 = none) ∧ (heads ↔ s = issuing) ∧
    let c := u.xctx w
    let stop := wordsAfter r.blk (w64 (u.headerLen c r.blk))
    (match State.fetchText c stop 25 r.start u with
      | .ok ((pc, ws) :: text, v) => (v.textBad w 1 stop 0 r.holds ((pc, ws) :: text)).isNone &&
          (decodeWords ws).toOption.any fun p =>
            decide (({ v with runs := r :: v.runs, focus := .simt } : State).fusion r p.1 = .apart)
      | _ => false) = true := by
  have h1 : issuing.moves = [.issue ⟨⟨1, 0⟩, 0, 0⟩ 1] := by decide +kernel
  have h2 : issuingOn.moves = [.issue ⟨⟨1, 0⟩, 0, 0⟩ 1] := by decide +kernel
  intro s hs
  simp only [List.mem_cons, List.not_mem_nil, or_false] at hs
  rcases hs with rfl | rfl
  · exact ⟨rfl, rfl, rfl, by rw [h1]; rfl, by decide +kernel⟩
  · exact ⟨rfl, rfl, rfl, by rw [h2]; rfl, by decide +kernel⟩

/-- A device whose threads wait, with a stream program at a header. -/
def entering : State :=
  evState fun u =>
    { strTeam .running [] (laneOf (threadAs (.waiting .command)) u) with
      stream := { Stream.idle with st := .running, pc := placeCode, blk := placeCode } }

/-- With a copy of one element in flight within global memory. -/
def cOne : Copy := { cGlob with count := 4 }
def copying : State :=
  { endState (.copy cOne) [] with teams := [laneOf (threadAs (.waiting .command)) tTeam] }

/-- With a store of a thread that has exited at another device. -/
def answering : State :=
  { evState (laneOf (threadAs (.waiting .command))) with remotes := [{ outRequest with lane := 1, write := true, dst := .void }] }

/-- The move of a stream program that enters a block; of a copy that writes ahead, where the device picks it; and of another
device that answers. -/
theorem witness_StepRunsDecoded_moves :
    ([entering, copying, answering].all fun s => s.inputs.isEmpty && !s.frozen && decide (s.boot = .done)) = true ∧
    choose (entering.pickNo 0 0) entering.moves = some (.enter ⟨1, 0⟩ placeCode) ∧
    (copying.pickNo 0 0 % 2 = 1 → choose (copying.pickNo 0 0) copying.moves = some (.ahead 0)) ∧
    (Config.peerAnswers 0 0x2000000000000 = true → choose (answering.pickNo 0 0) answering.moves = some .answer) := by
  have h1 : entering.moves = [.enter ⟨1, 0⟩ placeCode] := by decide +kernel
  have h2 : copying.moves = [.event (.copyComplete 0), .ahead 0] := by
    have e : copying.moves? (.ahead 0) = true := by
      have hc : copying.copyReady 0 = some (endCmd (.copy cOne) [], cOne) := by decide +kernel
      have hw : cOne.words (cOne.first * 2 ^ cOne.log2) cOne.count = [(0, 4)] := by decide +kernel
      simp only [State.moves?, State.perform, State.copyAhead, hc, hw, List.length_singleton, Nat.mod_one]
      decide +kernel
    have a1 : copying.syncMoves = [] := by decide +kernel
    have a2 : copying.simtMoves = [] := by decide +kernel
    have a3 : copying.streamMoves = [] := by decide +kernel
    have a4 : (copying.events.map Move.event).filter copying.moves? = [.event (.copyComplete 0)] := by decide +kernel
    have a5 : copying.eventMoves = [.event (.copyComplete 0), .ahead 0] := by
      simp only [State.eventMoves, List.filter_append, a4]
      show ([Move.event (.copyComplete 0)] ++ [Move.ahead 0].filter copying.moves?) ++ [] = _
      rw [List.filter_cons_of_pos e]
      rfl
    simp only [State.moves, a1, a2, a3, a5, List.nil_append]
  refine ⟨by decide +kernel, by rw [h1]; rfl, fun h => ?_, fun h => ?_⟩
  · rw [h2]
    simp [choose, h]
  · have e : answering.moves? .answer = true := by
      have hr : answering.remoteAnswer = { answering with remotes := [] }.settle := by
        have hx : answering.remotes.find? (fun x => x.write && Config.peerAnswers answering.tick x.hpa) =
            some { outRequest with lane := 1, write := true, dst := .void } := by
          show [_].find? _ = _
          rw [List.find?_cons_of_pos]
          exact h
        simp only [State.remoteAnswer, hx]
        rfl
      simp only [State.moves?, State.perform, hr]
      decide +kernel
    have hm : answering.moves = [.answer] := by
      have a1 : answering.syncMoves = [] := by decide +kernel
      have a2 : answering.simtMoves = [] := by decide +kernel
      have a3 : answering.streamMoves = [] := by decide +kernel
      have a4 : (answering.events.map Move.event).filter answering.moves? = [] := by decide +kernel
      have a5 : answering.eventMoves = [.answer] := by
        simp only [State.eventMoves, List.filter_append, a4]
        show [] ++ [] ++ [Move.answer].filter answering.moves? = _
        simp [e]
      simp only [State.moves, a1, a2, a3, a5, List.nil_append]
    rw [hm]
    rfl

/-- A run in hand, a stream program and a barrier that every thread waits at: the one move each device may make. -/
theorem witness_StepRunsDecoded :
    let simt := tState calm
    let stream := State.reset.placed [0x96111C69, 0x80000000, 0x1000]
    let event := evState (laneOf (threadAs (.waiting .bar)))
    ([simt, stream, event].all fun s => s.inputs.isEmpty && !s.frozen && decide (s.boot = .done)) = true ∧
    choose (simt.pickNo 0 0) simt.moves = some (.run (tRun calm)) ∧
    (let a := simt.asking (.run (tRun calm));
      let t := { a with runs := tRun calm :: a.runs.erase (tRun calm), focus := .simt };
      (t.instrAt (t.xctx (tRun calm).wave) (tRun calm).pc).isSome = true) ∧
    choose (stream.pickNo 0 0) stream.moves = some (.stream ⟨1, 0⟩) ∧
    (((stream.asking (.stream ⟨1, 0⟩)).team? ⟨1, 0⟩).any fun u =>
      ((stream.asking (.stream ⟨1, 0⟩)).strNext u).2.isSome) = true ∧
    choose (event.pickNo 0 0) event.moves = some (.event (.takenWaitResumeBar 1 0)) := by
  have h1 : (tState calm).moves = [.run (tRun calm)] := by decide +kernel
  have h2 : (State.reset.placed [0x96111C69, 0x80000000, 0x1000]).moves = [.stream ⟨1, 0⟩] := by decide +kernel
  have h3 : (evState (laneOf (threadAs (.waiting .bar)))).moves = [.event (.takenWaitResumeBar 1 0)] := by decide +kernel
  refine ⟨by decide +kernel, ?_, by decide +kernel, ?_, by decide +kernel, ?_⟩
  · show choose _ (tState calm).moves = _
    rw [h1]; rfl
  · show choose _ (State.reset.placed _).moves = _
    rw [h2]; rfl
  · show choose _ (evState _).moves = _
    rw [h3]; rfl

/-- A run of the softmax sequence over n1, in the block at `placeCode`. -/
def softmaxSeq : List Instr :=
  let f : Alu := { tAlu1 with e := false, d := .push, a := .q 0 }
  [.red .max tyF32 { f with a := .n 1 }, .fsub .f32 { f with a := .n 1, b := .q 0 }, .fexp2 .f32 f,
    .red .add tyF32 { f with e := true }]

def softmaxState (g : Regs) : State :=
  let bytes := placeHeader 8 ++ (softmaxSeq.flatMap encode).flatMap bytesOfWord
  let s := tState g
  { s with mem := (List.range bytes.length).foldl (fun m i => m.write (s.key 0 i) (bytes.getD i 0)) s.mem }

/-- A signalling NaN makes RED.max and FSUB raise FPX; with zeros there is no fault; with n1 pending the sequence waits. A
device that executes the sequence as one operation reports the words of the RED.max (R393). -/
theorem witness_StepRunsDecoded_fused :
    let waiting := (softmaxState calm).setPending (tRun calm).wave 1 1
    (softmaxState strict).following (tRun strict) 4 = softmaxSeq ∧ isSoftmax softmaxSeq = true ∧
    isSoftmax (softmaxSeq.take 3) = false ∧ (softmaxState calm).softmax (tRun calm) softmaxSeq = .apart ∧
    waiting.softmax (tRun calm) softmaxSeq = .waits ∧
    ((softmaxState strict).pickNo 16 0 % 2 = 1 →
      softmaxSeq.head?.map ((softmaxState strict).fusion (tRun strict)) =
        some (.faults { code := Code.fpx, sub := 1, lanes := 1, enc := [0x5820042A, 0x12000000] })) := by
  have h1 : (softmaxState strict).following (tRun strict) 4 = softmaxSeq := by decide +kernel
  have h2 : isSoftmax softmaxSeq = true := by decide +kernel
  have h3 : (softmaxState strict).softmax (tRun strict) softmaxSeq =
    .faults { code := Code.fpx, sub := 1, lanes := 1, enc := [0x5820042A, 0x12000000] } := by decide +kernel
  refine ⟨h1, h2, by decide +kernel, by decide +kernel, by decide +kernel, fun h => ?_⟩
  show some ((softmaxState strict).fusion (tRun strict)
    (.red .max (.flt .f32) { tAlu1 with e := false, d := .push, a := .n 1 })) = _
  simp only [State.fusion, h1, h2, h, h3, Bool.true_and, decide_true, if_true]

theorem witness_StepRunsDecoded_input :
    let s := { State.reset with inputs := [.frzNAssert] }
    s.inputs = .frzNAssert :: [] ∧ Instr.external .frzNAssert = true ∧ s.frozen = false := by
  decide +kernel

/-- A frozen device; and one that has not booted: each makes a step. -/
theorem witness_FrozenStays :
    ({ State.reset with frozen := true } : State).frozen = true ∧ State.reset.inputs.head? ≠ some .rstN ∧
    (match step { State.reset with frozen := true } with | .next _ => true | _ => false) = true := by
  decide +kernel

theorem witness_NothingRunsBeforeBoot :
    NothingRuns State.reset ∧ (match step State.reset with | .next _ => true | _ => false) = true := by
  exact ⟨fun _ => ⟨rfl, rfl, rfl⟩, by decide +kernel⟩

/-! ## Loops, rejoin entries, exceptions, memory -/

/-- LCk is the first register that ends at the header with a count above 1, for each k; and none is, with p = 4. -/
theorem witness_HeaderArrival :
    let ends := fun (count : W32) => (⟨placeCode, here, count, true⟩ : Loop)
    let lc := fun (p : Nat) => (Vector.ofFn fun k : Fin 4 => if k.val < p then ends 1 else ends 2 : Vector Loop 4)
    ∀ p : Fin 5,
      (∀ k : Fin 4, k.val < p.val → ((lc p)[k].active = true ∧ (lc p)[k].stop = here) → (lc p)[k].count.toNat ≤ 1) ∧
      ∀ k : Fin 4, k.val = p.val → ((lc p)[k].active = true ∧ (lc p)[k].stop = here) ∧ 1 < (lc p)[k].count.toNat := by
  decide +kernel

/-- The block at `placeCode` with JOIN 4, which names the header behind it. -/
def joined : State := poke [(5, 1)] (tState calm)

theorem witness_HeaderArrival_entries :
    let w : WaveId := ⟨⟨1, 0⟩, 0, 0⟩
    let goal := fun (l : Fin 32) => if l = 0 then here else placeCode
    (∀ l k : Fin 32, LaneMask.has 1 l = true → LaneMask.has 1 k = true → goal l = goal k) ∧
    (tState calm).headerJoin ((tState calm).xctx w) placeCode = 0 ∧
    (LaneMask.has 3 0 = true ∧ LaneMask.has 3 1 = true ∧ goal 0 ≠ goal 1) ∧
    joined.headerJoin (joined.xctx w) placeCode ≠ 0 ∧
    joined.isH (joined.xctx w) (wordsAfter placeCode (joined.headerJoin (joined.xctx w) placeCode)) = true := by
  decide +kernel

def tExc (code sub : Nat) : Exc := { code := code, sub := sub, addr := 0 }

/-- A fault outside a handler, one inside it and one in a job that has none; and a fault of translation. -/
theorem witness_HandlerEntry :
    let w : WaveId := ⟨⟨1, 0⟩, 0, 0⟩
    let inside := fun (s : State) =>
      ∃ l, LaneMask.has 1 l = true ∧ ((((s.abort w 1).markLeaves (s.jobOf w).part (tExc Code.illegal 0).marks).noteResume w 1
        (placeCode + 12) placeCode 0).thread w l).inHandler = true
    (tExc Code.illegal 0).parks = false ∧ ¬inside issuing ∧ inside (tState calm) ∧ (issuing.jobOf w).card.handler ≠ 0 ∧
    ({ issuing with jobs := [{ tJob with card := { tJob.card with handler := 0 } }] }.jobOf w).card.handler = 0 ∧
    ∃ u v, issuing.team? w.team = some u ∧ u.wave? w.uid = some v ∧ u.image = none ∧
      LaneMask.has 1 0 = true ∧ LaneMask.has 1 1 = false :=
  ⟨by decide +kernel, by decide +kernel, by decide +kernel, by decide +kernel, by decide +kernel,
   { tTeam with waves := [placeWave (Thread.launch placeCode 0 0)] }, placeWave (Thread.launch placeCode 0 0),
   by decide +kernel, by decide +kernel, by decide +kernel, by decide +kernel,
   by decide +kernel⟩

theorem witness_HandlerEntry_parked :
    (tExc Code.xlate 0).code = Code.xlate ∧ (tExc Code.prot 1).code = Code.prot ∧ (tExc Code.prot 1).sub % 4 ≠ 0 := by
  decide +kernel

theorem witness_HandlerReturn :
    let w : WaveId := ⟨⟨1, 0⟩, 0, 0⟩
    (tState calm).team? w.team = some tTeam ∧ tTeam.wave? w.uid = some tTeam.waves[0] ∧ LaneMask.has 1 0 = true ∧
    ∀ k : Fin 32, LaneMask.has 1 k = true → tTeam.waves[0].lanes[k].resumption false = tTeam.waves[0].lanes[0].resumption false := by
  decide +kernel

def tStore : Store :=
  { lane := 0, loc := .phys 0 0x1000, va := here, bytes := [1, 2, 3, 4], poison := false, kind := .plain, inst := 0, pc := placeCode + 8, enc := [] }

theorem witness_StoredBytes :
    (tState calm).isLocal 0x1000 = true ∧ tStore.loc = .phys 0 0x1000 ∧ tStore.bytes.length = 4 ∧
    { tStore with loc := .scr ⟨1, 0⟩ 8 }.loc = .scr ⟨1, 0⟩ 8 ∧
    (∀ i < 4, ∀ j < 4, (tState calm).key 0 (0x1000 + i) = (tState calm).key 0 (0x1000 + j) → i = j) ∧
    (tState calm).team? ⟨1, 0⟩ ≠ none ∧
    (let s := ({ tState calm with tlb := [nearPage] } : State);
      s.heldAt (s.xctx (tRun calm).wave) tStore.va.toNat .write ≠ none) := by
  decide +kernel

theorem witness_AtomicValues : (tState calm).team? ⟨1, 0⟩ ≠ none := by decide +kernel

/-! ## One step, with the results that the spec works out -/

/-- n1 and n2 as given, and mask m1 = 5. -/
def workRegs (n1 n2 : Word) : Regs :=
  { tRegs ⟨n1, 0⟩ ⟨n2, 0⟩ 0 with
    m := (Vector.replicate 8 0).set 1 5 }

/-- A state with formats i4 of two planes in slots 3 and 4, the second with CENTRE (R370). -/
def workState (g : Regs) : State :=
  { tState g with jobs := [{ tJob with card := { tJob.card with slots := #v[0, 0x10, 0, 0x100A, 0x900A, 0, 0, 8] } }] }

/-- A register of a lane after an instruction that ends its run and its block; none where the instruction stops. -/
def after (i : Instr) (s : State) (l : Fin 32) (read : Regs → Word) : Option Word :=
  match exec i s with
  | .next t => some (read (t.thread ⟨⟨1, 0⟩, 0, 0⟩ l).regs)
  | _ => none

def q0 (r : Regs) : Word := r.q[0].bits
def n9 (r : Regs) : Word := r.n[9].bits
def tPush : Alu := { tAlu with d := .push }
def tPush1 : Alu := { tAlu1 with d := .push }
def i16 : ITy := ⟨true, .b16⟩

/-- R407: n4 and n5 of its example. -/
def r407 : State := workState (workRegs 0x7FF08000FFFF0003 0x0020FFFFFFFF7FFF)

theorem test_iadd_wraps : after (.iadd false i16 tPush) r407 0 q0 = some 0x80107FFFFFFE8002 := by decide +kernel
theorem test_iadd_saturates : after (.iadd true i16 tPush) r407 0 q0 = some 0x7FFF8000FFFE7FFF := by decide +kernel
theorem test_iadd_saturates_unsigned : after (.iadd true ⟨false, .b16⟩ tPush) r407 0 q0 = some 0x8010FFFFFFFF8002 := by
  decide +kernel
theorem test_imulh_signed : after (.imulh i16 tPush) r407 0 q0 = some 0x000F000000000001 := by decide +kernel
theorem test_imulh_unsigned : after (.imulh ⟨false, .b16⟩ tPush) r407 0 q0 = some 0x000F7FFFFFFE0001 := by decide +kernel
theorem test_iabs_wraps : after (.iabs .b16 tPush1) r407 0 q0 = some 0x7FF0800000010003 := by decide +kernel

/-- R407: under mask m1 a pushed result is 0 in the sub-elements that are off. -/
theorem test_mask_push : after (.iadd true i16 { tPush with pm := 1 }) r407 0 q0 = some 0x0000800000007FFF := by decide +kernel

/-- R407: a named destination keeps them (R59). -/
theorem test_mask_named :
    let g := workRegs 0x7FF08000FFFF0003 0x0020FFFFFFFF7FFF
    after (.iadd true i16 { tAlu with pm := 1 }) (workState { g with n := g.n.set 9 ⟨0x1111111111111111, 0⟩ }) 0 n9 =
      some 0x1111800011117FFF := by decide +kernel

/-- R370: 5 and -3 in four-bit planes. -/
theorem test_bpsplit : after (.bpsplit 3 tPush1) (workState (workRegs 0xFD05 0)) 0 q0 = some 0x0000000003000302 := by
  decide +kernel
theorem test_bpjoin : after (.bpjoin 3 tPush1) (workState (workRegs 0x03000302 0)) 0 q0 = some 0xFC04 := by decide +kernel
theorem test_bpjoin_centre : after (.bpjoin 4 tPush1) (workState (workRegs 0x03000302 0)) 0 q0 = some 0x020202020202FE06 := by
  decide +kernel

/-- R415: lanes 0 to 3 with the keys of its table. -/
def r415 (pm : Fin 8) : List (Option Word) :=
  let keys : List Word := [0x0000000700000001, 0x0000000700000002, 0x0000000800000001, 0x0000000700000001]
  let s := workState (workRegs 0 0)
  let run := tRun (workRegs 0 0)
  let s := { s with runs := [{ run with
    group := 0xF, spec := Vector.ofFn fun l => { workRegs (keys.getD l.val 0) 0 with m := (Vector.replicate 8 0).set 1 1 } }] }
  (List.finRange 4).map fun l =>
    after (.matchI (.int ⟨false, .b32⟩) { tPush1 with pm := pm }) s (Fin.castLE (by omega) l) q0

theorem test_match : r415 0 = [some 0x0000000000000009, some 0x0000000100000002, some 0x0000000200000004, some 0x0000000000000009] := by
  decide +kernel
theorem test_match_masked : r415 1 = [some 0xD, some 0x0000000100000002, some 0xD, some 0xD] := by decide +kernel

/-- R362: four lanes add 1 to one word of the scratchpad; each receives what it found, in lane order. -/
theorem test_atoms_order :
    let run := tRun (workRegs 0 0)
    let s := { workState (workRegs 0 0) with runs := [{ run with group := 0xF }] }
    let i := Instr.atoms .add .plain { tMem with d := .push, b := .one, w := .b32 }
    ((List.finRange 4).map fun l => after i s (Fin.castLE (by omega) l) q0) = [some 0, some 1, some 2, some 3] ∧
    (match exec i s with | .next t => (t.team ⟨1, 0⟩).scr.read 0 == 4 | _ => false) = true := by
  exact ⟨by decide +kernel, by decide +kernel⟩

/-- R407: the word of its first instruction, as the table numbers its bits; and the step that runs it after reset. -/
theorem test_table_word :
    decodeTableWord 32 0x02409250 = some (.iaddS i16 { e := false, d := .push, a := .n 4, b := .n 5, pm := 0, ha := false }) := by
  decide +kernel

theorem test_step_runs_word :
    (match step (State.reset.withFetchWord 32 0x02409250) with
      | .next t => ((t.team ⟨1, 0⟩).waves.head?.map fun (w : Wave) => w.lanes[(0 : Fin 32)].pc) == some (placeCode + 12)
      | _ => false) = true := by
  decide +kernel


/-- A block of two instructions, so that the run goes on behind the first. -/
def goingOn : State := poke [(2, 0x60), (19, 0)] (tState calm)

/-- The first writes register n9, or mask m1. -/
theorem witness_ResultFrame :
    let add := Instr.iadd false i32 { tAlu with e := false }
    (∃ g sh, aluRule add = some g ∧ add.shape = some sh ∧ Ready goingOn add (tRun calm) sh ∧
      g.Clean (goingOn.tokenReads (tRun calm) sh) (tRun calm) sh ∧ goingOn.endsHere (tRun calm) sh = false) ∧
    LaneMask.has (tRun calm).group 0 = true ∧ LaneMask.has (tRun calm).group 1 = false ∧
    (aluRule (.movm 1 true .b32 tAlu0)).isSome = true :=
  ⟨⟨_, _, rfl, rfl, ready_of rfl rfl (by decide +kernel), clean_of (g := subRule i32 fun _ a b _ => a + b) _ _ _
      (by decide +kernel), by decide +kernel⟩, by decide +kernel, by decide +kernel, rfl⟩

theorem witness_BootFailed :
    let failed := { State.reset with boot := .failed, restricted := true }
    (State.reset.frozen = false ∧ State.reset.boot = .pending) ∧ failed.boot = .failed ∧ failed.restricted = true ∧
    NothingRuns failed ∧ failed.inputs.head? ≠ some .rstN ∧
    (match step failed with | .next _ => true | _ => false) = true :=
  ⟨by decide +kernel, rfl, rfl, fun _ => ⟨rfl, rfl, rfl⟩, by decide +kernel, by decide +kernel⟩

theorem witness_OperandCodes :
    (∀ k : Fin 16, (BitVec.ofNat 6 k.val).toNat = k.val) ∧
    (∀ k : Fin 3, (BitVec.ofNat 6 (0x10 + k.val)).toNat = 0x10 + k.val) ∧
    (∀ k : Fin 32, (BitVec.ofNat 6 (0x20 + k.val)).toNat = 0x20 + k.val) ∧
    ((0x16#6).toNat = 0x16 ∧ (0x1F#6).toNat ≤ 0x1F) := by
  decide +kernel

theorem witness_DestinationCodes :
    (∀ k : Fin 32, (BitVec.ofNat 6 (0x20 + k.val)).toNat = 0x20 + k.val) ∧ 2 ≤ (2#6).toNat ∧ (0x1F#6).toNat ≤ 0x1F := by
  decide +kernel

theorem witness_ResultQueue : (3#4) ≠ 0 ∧ 0 < (1 : Fin 16).val ∧ (1 : Fin 32) ≠ 2 := by decide


/-! ## mladas and BOF (R99 to R124) -/

/-- The words of one statement, outside any section. -/
def asmWords (src : String) : Option (List Nat) :=
  let c : Mladas.Scope := { place := fun _ => .unknown, isBlock := fun _ => false, blockAt := fun _ => true,
                            isSet := fun _ => false,
                            anchor := fun _ => none, sec := 0, here := 0, strict := true }
  match (do Mladas.parseLine (← Mladas.lexLine (src.length + 1) src.toList)) with
  | .ok l => match c.instruction l with | .ok o => some (o.words.map BitVec.toNat) | .error _ => none
  | .error _ => none

/-- The three spellings of R105 assemble to the same two words; S format is taken where it holds (R106). -/
theorem test_asm_spellings :
    ["iadd.w32x2 e=0, pm=0, d=0x00, a=0x24, b=0x24, fn=0, hold=2, xa=0, xb=0x21, xc=0, rm=0",
      "iadd.w32x2 push, n4, n4, xb=0x21, hold=b", "iadd.w32x2 push, n4, n4:rot.1, hold=b"].map asmWords
      = List.replicate 3 (some [0x40600492, 0x01004200])
    ∧ asmWords "iadd.w32x2 push, q0, q1!" = some [0x23800010] := by decide +kernel

/-- Encodings printed in the entries of R389, R438, R362, R347 and R439. -/
theorem test_asm_entries :
    asmWords "ffma.f32x2 push, n5, #0.5, q0" = some [0x90D004A9, 0x80000000, 0x3F000000]
    ∧ asmWords "st.w64 q0+16, q2" = some [0x5B100801, 0x00000083]
    ∧ asmWords "atoms.add.w32 push, n2, one!" = some [0x7BA0044A, 0x80000002]
    ∧ asmWords "aadd a3, a3, #4096" = some [0x96111C69, 0x80000000, 0x00001000]
    ∧ asmWords "texg.lvl.a push, n4, n5, n6" = some [0x5E100492, 0xCC000038] := by decide +kernel

/-- Errors of R101, R103, R105 and R106: two literals, a negated mask in the ALU class, a field set twice, a forced S
format that cannot hold an offset, a literal outside its type. -/
theorem test_asm_errors :
    ["iadd.w32x2 n1, #1, #2", "[!m1] iadd.w32x2 n1, n2, n3", "iadd.w32x2 n1, n2, n3, d=3", "ld.w64 n1, n2+8, fmt=s",
      "iadd.w8x8 n1, n2, #256", "fadd.f64x1 n1, n2, #0.1"].map asmWords = List.replicate 6 none := by decide +kernel

/-- The complete object of 05_assembly_object.md. -/
def exampleLines : List String :=
  ["    .section  code0, code", "    .proc     fillwid, named=1", "    .block    fillwid_b0              ; entry block",
    "    movs      push, wid               // q0 = wid", "    movs      push, argbase",
    "    lea.w64   push, q0, q1, fn=3", "    st.w64    q0, q2", "    exit!", "    .endproc",
    "    .section  buf, zero, 7", "    outbuf:   .space 512", "    .section  jobs, job",
    "    .jobtemplate fillwid_job, entry=fillwid, args=outbuf, rec=8, nrec=64, waves=2, named=1, scratch=0, cohort=1, class=1, widths=6.0.0.0.0.0"]

def asText (l : List (List Char)) : List Byte := l.flatMap fun s => (s.map fun c => BitVec.ofNat 8 c.toNat) ++ [0]

def lineRow (addr line : Nat) (rs : Bool) : List Byte :=
  bytesLE 8 addr ++ bytesLE 4 0 ++ bytesLE 3 line ++ [if rs then 0x80 else 0]

/-- Its code words as the example prints them, its buffer, its card by R118 and R278, its rows by R122, its symbols in
order, and the two ABS64 entries of the card. -/
def exampleObject : Bof.Object :=
  { sections :=
      [{ name := 1, kind := .code, align := 7, size := 44, rels := [], link := 0,
         bytes := ([0xC0B00000, 0x00000001, 0x5AC0028A, 0x0C000000, 0x5AC0028A, 0x1E000000, 0x45700000, 0x86000000,
           0x00C10020, 0x7EC00A80, 0x00000000] : List W32).flatMap bytesOfWord },
       { name := 7, kind := .zero, align := 7, size := 512, bytes := [], rels := [], link := 0 },
       { name := 11, kind := .job, align := 7, size := 256, link := 0,
         rels := [{ off := 128, sym := 0, type := .abs64, add := 0 }, { off := 136, sym := 2, type := .abs64, add := 0 }],
         bytes := bytesLE 4 3 ++ bytesLE 4 128 ++ bytesLE 2 128 ++ List.replicate 118 0 ++
           bytesLE 128 (8 * 2 ^ 128 + 64 * 2 ^ 160 + 6 * 2 ^ 192 + 2 * 2 ^ 512 + 1 * 2 ^ 518 + 1 * 2 ^ 543 + 1 * 2 ^ 547) },
       { name := 16, kind := .line, align := 3, size := 80, rels := [], link := 0,
         bytes := lineRow 8 4 true ++ lineRow 16 5 false ++ lineRow 24 6 false ++ lineRow 32 7 false ++ lineRow 36 8 false }],
    symbols :=
      [{ name := 21, sect := .idx 0, kind := .proc, bind := .glob, value := 0, size := 44 },
       { name := 29, sect := .idx 0, kind := .block, bind := .loc, value := 0, size := 44 },
       { name := 40, sect := .idx 1, kind := .object, bind := .loc, value := 0, size := 512 },
       { name := 47, sect := .idx 2, kind := .job, bind := .loc, value := 128, size := 128 }],
    strings := asText ([[]] ++ ["code0", "buf", "jobs", "line", "fillwid", "fillwid_b0", "outbuf", "fillwid_job"].map
      String.toList) }

theorem test_asm_object : ((Mladas.assembleLines exampleLines).toOption == some exampleObject) = true := by decide +kernel

def causeOf {α : Type} (r : Except Bof.LoadErr α) : Option Bof.LoadErr :=
  match r with | .error e => some e | .ok _ => none

/-- The object is read back from its bytes (R113 to R116). -/
theorem test_bof_file : ((Bof.read exampleObject.write).toOption == some exampleObject) = true := by decide +kernel

/-- Another version is refused (R123). -/
theorem test_bof_version :
    causeOf (Bof.read (Bof.putBytes exampleObject.write 4 [2])) = some ⟨0, 4, .version⟩ := by decide +kernel

/-- Loaded at addresses of the loader's choice, the card holds them (R121, R123, R278). -/
theorem test_bof_load :
    ((Bof.load [exampleObject] [] { base := [[0x10000, 0x20000, 0x30000, 0x40000]], handles := [], splits := [] }).toOption.bind fun l =>
      l.acts.findSome? fun a => match a with
        | .place p _ =>
          let d := natLE (p.bytes.drop 128)
          if p.addr = 0x30000 then some (l.cards, fld d 63 0, fld d 127 64, fld d 517 512, fld d 523 518, fld d 198 192)
          else none
        | _ => none)
      = some ([0x30080], 0x10000, 0x20000, 2, 1, 6) := by decide +kernel

/-- Ranges of R117: CTL16 at its ends and past them, MEM12 into both parts of OFF, a handle above 4,095. -/
theorem test_relocation_ranges :
    Bof.RelType.apply .ctl16 [0, 0, 0, 0, 0, 0, 0, 0] 0 0x21FFC 0x2000 0 = some [0, 0, 0, 0, 0xFF, 0x7F, 0, 0]
    ∧ Bof.RelType.apply .ctl16 [0, 0, 0, 0, 0, 0, 0, 0] 0 0x22000 0x2000 0 = none
    ∧ Bof.RelType.apply .ctl16 [0, 0, 0, 0, 0, 0, 0, 0] 0 0x2002 0x2000 0 = none
    ∧ Bof.RelType.apply .mem12 [0, 0, 0, 0, 0, 0, 0, 0] 0 0 0 (-1) = some [0, 0, 0, 0, 0xF8, 1, 0, 0x7E]
    ∧ Bof.RelType.apply .handle (List.replicate 12 0) 0 4096 0 0 = none := by decide +kernel

/-- R124: a reference that is not below its rule, and a chain of depth 17. -/
theorem test_grammar_checks :
    causeOf (Bof.depths 3 0 [] [[2 ^ 31]]) = some ⟨3, 0, .gfwd⟩
    ∧ causeOf (Bof.depths 3 0 [] ([[1]] ++ (List.range 16).map fun i => [2 ^ 31 + i])) = some ⟨3, 0, .gdepth⟩ := by
  decide +kernel

/-- R124: segments of two rules, and a row that needs more than one. -/
theorem test_grammar_split :
    (Bof.splitRows 3 0 2 [[1], [2 ^ 31], [512]] [] [] 0 [1, 2]).toOption
      = some [⟨[[1], [2 ^ 31]], [1], 0⟩, ⟨[[512]], [0], 1⟩]
    ∧ causeOf (Bof.splitRows 3 0 1 [[1], [2 ^ 31], [512]] [] [] 0 [1]) = some ⟨3, 0, .gcap⟩ := by decide +kernel

end Sys2Proof.Tests
end

namespace Sys2Proof.Machine

open Sys2Proof

/-! ## Management requests -/

section Requests

variable {i : Instr} {by_ : Ident} {space index offset : Nat} {f : State → State} {s : State}

theorem manage_admitted (hf : s.frozen = false) (ha : s.admits by_ space index offset false = true) :
    manage by_ space index offset f s = .next ((f s).answer 0 false).settle := by
  simp [manage, hf, ha]

theorem manage_refused (hf : s.frozen = false) (ha : s.admits by_ space index offset false = false) :
    manage by_ space index offset f s = .next (s.answer 0 true) := by
  simp [manage, hf, ha]

theorem manage_frozen (hf : s.frozen = true) : manage by_ space index offset f s = .next s := by
  simp [manage, hf]

theorem manageRead_admitted {v : Word} (hf : s.frozen = false) (ha : s.admits by_ space index offset true = true) :
    manageRead by_ space index offset v f s = .next ((f s).answer v false) := by
  simp [manageRead, hf, ha]

theorem manageRead_refused {v : Word} (hf : s.frozen = false) (ha : s.admits by_ space index offset true = false) :
    manageRead by_ space index offset v f s = .next (s.answer 0 true) := by
  simp [manageRead, hf, ha]

theorem manageRead_frozen {v : Word} (hf : s.frozen = true) : manageRead by_ space index offset v f s = .next s := by
  simp [manageRead, hf]

/-- An instruction whose meaning is `manage` is a management write (R312, R332). -/
theorem managedWrite_of_manage (h : ∀ s, exec i s = manage by_ space index offset f s) :
    ManagedWrite i by_ space index offset f :=
  ⟨fun s hf ha => (h s).trans (manage_admitted hf ha), fun s hf ha => (h s).trans (manage_refused hf ha),
    fun s hf => (h s).trans (manage_frozen hf)⟩

/-- An instruction whose meaning is `manageRead` is a management read, of the value that stood before anything is
cleared (R6, R312, R332). -/
theorem managedRead_of_manageRead {v : State → Word}
    (h : ∀ s, exec i s = manageRead by_ space index offset (v s) f s) : ManagedRead i by_ space index offset v f :=
  ⟨fun s hf ha => (h s).trans (manageRead_admitted hf ha), fun s hf ha => (h s).trans (manageRead_refused hf ha),
    fun s hf => (h s).trans (manageRead_frozen hf)⟩

end Requests

/-- Settles O40: each write's meaning is `manage`, and each read's `manageRead`, of the register's own function. -/
theorem managementAccesses : Obligations.ManagementAccesses := by
  unfold Obligations.ManagementAccesses
  refine ⟨?qnotify, ?retry, ?deliver, ?terminate, ?tlbinv, ?bankcfg, ?partown, ?harvest, ?fqcfg, ?fqptr, ?sysasd, ?sampcfg,
    ?vfcfg, ?vfquota, ?kbudget, ?irqlog, ?hvid, ?qctl, ?freeze, ?register, ?readRegister, ?vftables, ?irqptr, ?sampptr⟩
  case readRegister | vftables | irqptr | sampptr => intros; exact managedRead_of_manageRead fun _ => rfl
  all_goals intros; exact managedWrite_of_manage fun _ => rfl

/-! ## What a translation changes -/

/-- What a translation may change of a machine: bytes of memory, with the owners, signatures and L1 lines of the words
written, and the TLBs. Memory stays in canonical form. -/
def State.Walks (s t : State) : Prop :=
  (s.mem.wf = true → t.mem.wf = true) ∧
    ∃ mem owners sigs l1 tlb, t = { s with mem := mem, owners := owners, sigs := sigs, l1 := l1, tlb := tlb }

namespace State.Walks

variable {s t u : State}

theorem refl (s : State) : s.Walks s := ⟨id, _, _, _, _, _, rfl⟩

theorem trans (h : s.Walks t) (g : t.Walks u) : s.Walks u := by
  obtain ⟨hm, _, _, _, _, _, rfl⟩ := h
  obtain ⟨gm, _, _, _, _, _, rfl⟩ := g
  exact ⟨gm ∘ hm, _, _, _, _, _, rfl⟩

theorem wf (h : s.Walks t) (w : s.mem.wf = true) : t.mem.wf = true := h.1 w

theorem isLocal (h : s.Walks t) (hpa : Nat) : t.isLocal hpa = s.isLocal hpa := by
  obtain ⟨-, _, _, _, _, _, rfl⟩ := h; rfl

theorem key (h : s.Walks t) (p hpa : Nat) : t.key p hpa = s.key p hpa := by obtain ⟨-, _, _, _, _, _, rfl⟩ := h; rfl

theorem writePhys (s : State) (p a : Nat) (bs : List Byte) : s.Walks (s.writePhys p a bs) := by
  refine ⟨State.wf_writePhys p a bs, ?_⟩
  unfold State.writePhys
  split
  · exact ⟨_, _, _, _, _, rfl⟩
  · exact ⟨_, _, _, _, _, rfl⟩

theorem tlbAdd (s : State) (e : TlbEntry) (cap : Nat) : s.Walks (s.tlbAdd e cap) := ⟨id, _, _, _, _, _, rfl⟩

/-- An update that is made only where it is needed. -/
theorem of_ite (c : Prop) [Decidable c] (h : s.Walks t) : s.Walks (if c then s else t) := by
  split
  · exact refl s
  · exact h

theorem markLeaves (p : Nat) (ms : List (Nat × Bool)) : ∀ s : State, s.Walks (s.markLeaves p ms) := by
  induction ms with
  | nil => exact refl
  | cons m ms ih =>
    intro s
    exact trans (of_ite _ (writePhys s _ _ _)) (ih _)

end State.Walks

theorem bind_eq_ok {ε α β : Type} {x : Except ε α} {f : α → Except ε β} {b : β} (h : x >>= f = .ok b) :
    ∃ a, x = .ok a ∧ f a = .ok b := by
  cases x with
  | error e => cases h
  | ok a => exact ⟨a, rfl, h⟩

theorem mapError_eq_ok {ε δ α : Type} {x : Except ε α} {f : ε → δ} {a : α} (h : x.mapError f = .ok a) : x = .ok a := by
  cases x with
  | error e => cases h
  | ok b => cases h; rfl

theorem State.walk2_walks {part gpa : Nat} {a : Acc} : ∀ {level table : Nat} {s t : State} {l : Leaf},
    s.walk2 part gpa a level table = .ok (l, t) → s.Walks t := by
  intro level
  induction level with
  | zero => intro _ _ _ _ h; cases h
  | succ level ih =>
    intro table s t l h
    rw [State.walk2] at h
    dsimp only at h
    split at h
    · cases h
    · split at h
      · cases h
      · exact ih h
      · split at h
        · cases h
        · cases h
          exact .of_ite _ (.writePhys s _ _ _)

theorem State.stage2_walks {part gpa : Nat} {d : Asd} {a : Acc} {s t : State} {l : Leaf}
    (h : s.stage2 part d gpa a = .ok (l, t)) : s.Walks t := by
  unfold State.stage2 at h
  split at h
  · exact walk2_walks h
  · cases h; exact .refl s

theorem State.walk1_walks {part : Nat} {d : Asd} {sys : Bool} {va : Nat} {a : Acc} :
    ∀ {level table : Nat} {ms : List (Nat × Bool)} {s t : State} {l : Leaf},
    s.walk1 part d sys va a ms level table = .ok (l, t) → s.Walks t := by
  intro level
  induction level with
  | zero => intro _ _ _ _ _ h; cases h
  | succ level ih =>
    intro table ms s t l h
    rw [State.walk1] at h
    dsimp only at h
    obtain ⟨⟨l1, s1⟩, hread, h⟩ := bind_eq_ok h
    have hs := stage2_walks (mapError_eq_ok hread)
    dsimp only at h
    split at h
    · cases h
    · split at h
      · cases h
      · exact hs.trans (ih h)
      · split at h
        · cases h
        · split at h
          · cases h; exact hs
          · obtain ⟨⟨l2, s2⟩, hwrite, h⟩ := bind_eq_ok h
            cases h
            exact hs.trans ((stage2_walks (mapError_eq_ok hwrite)).trans (.writePhys s2 _ _ _))

theorem eq_of_ite_pure_eq_ok {ε α : Type} {c : Prop} [Decidable c] {e : ε} {a b : α}
    (h : (if c then pure a else throw e : Except ε α) = .ok b) : a = b := by
  split at h <;> cases h
  rfl

theorem State.translate_walks {c : Xctx} {va : Nat} {a : Acc} {s t : State} {x : Xlat}
    (h : s.translate c va a = .ok (x, t)) : s.Walks t := by
  unfold State.translate at h
  dsimp only at h
  split at h
  · cases h
  · split at h
    · obtain ⟨_, hserved, h⟩ := bind_eq_ok h
      cases hserved
      cases eq_of_ite_pure_eq_ok h
      exact .refl s
    · obtain ⟨⟨l1, s1⟩, hfirst, h⟩ := bind_eq_ok h
      obtain ⟨⟨l2, s2⟩, hsecond, h⟩ := bind_eq_ok h
      obtain ⟨_, hfilled, h⟩ := bind_eq_ok h
      cases hfilled
      cases eq_of_ite_pure_eq_ok h
      refine ((walk1_walks hfirst).trans (stage2_walks (mapError_eq_ok hsecond))).trans ?_
      dsimp only
      split
      · exact (Walks.tlbAdd ..).trans (.tlbAdd ..)
      · exact .refl s2

theorem State.touch_walks (s : State) (c : Xctx) (va : Nat) (a : Acc) : s.Walks (s.touch c va a) := by
  unfold State.touch
  split
  · rename_i h
    exact translate_walks h
  · exact .markLeaves _ _ s

/-- A translation that a TLB entry serves changes nothing, whether its address may be reached or not (R172). -/
theorem State.touch_of_heldAt {s : State} {c : Xctx} {va : Nat} {a : Acc} (h : s.heldAt c va a ≠ none) :
    s.touch c va a = s := by
  cases he : s.tlb.find? fun e => e.hits c va && e.serves c a with
  | none => exact absurd (by rw [State.heldAt, he]; rfl) h
  | some e =>
    unfold State.touch State.translate
    rw [he]
    by_cases hva : va / 2 ^ 57 ≠ 0
    · rw [if_pos hva]; rfl
    · rw [if_neg hva]
      cases hok : s.hostOk c.part (e.hpa + va % 2 ^ e.log2) with
      | true | false =>
        simp only [bind, Except.bind, pure, Except.pure, hok]
        rfl

/-! ## What a write leaves at its own places -/

/-- Of writes to places that differ from one of them, that one is read again. -/
theorem Memory.read_foldl_write {f : Nat → Nat} {g : Nat → Byte} {m : Memory} {i : Nat} (hm : m.wf = true) :
    ∀ {n : Nat}, i < n → (∀ j < n, f i = f j → i = j) →
      ((List.range n).foldl (fun m j => m.write (f j) (g j)) m).read (f i) = g i := by
  intro n
  induction n with
  | zero => exact fun hi => absurd hi (Nat.not_lt_zero i)
  | succ n ih =>
    intro hi hf
    rw [List.range_succ, List.foldl_append]
    rcases Nat.lt_succ_iff_lt_or_eq.mp hi with hlt | rfl
    · exact (Memory.read_write_ne _ fun h => absurd (hf n (Nat.lt_succ_self n) h) (by omega)).trans
        (ih hlt fun j hj => hf j (by omega))
    · exact Memory.read_write_same _ _ (Memory.wf_foldl _ hm)

theorem State.writeMem_in {s : State} {w : Writer} {k : Bool} {p a i : Nat} {bs : List Byte} (hm : s.mem.wf = true)
    (hi : i < bs.length) (hk : ∀ j < bs.length, s.key p (a + i) = s.key p (a + j) → i = j) :
    (s.writeMem w k p a bs).mem.read (s.key p (a + i)) = bs.getD i 0 :=
  Memory.read_foldl_write (f := fun i => s.key p (a + i)) (g := fun i => bs.getD i 0) hm hi hk

@[simp] theorem State.poisonLine_mem (s : State) (p hpa : Nat) : (s.poisonLine p hpa).mem = s.mem := by
  simp only [State.poisonLine]
  split <;> rfl

/-- A change of a team that keeps its scratchpad. -/
theorem State.scr_modTeam_of_keeps {s : State} {t : TeamId} {f : Team → Team} (hid : ∀ x, (f x).id = x.id)
    (hscr : ∀ x, (f x).scr = x.scr) (u : TeamId) : ((s.modTeam t f).team u).scr = (s.team u).scr := by
  have keeps : ∀ x : Team, x.id = t → (f x).id = t := fun x h => (hid x).trans h
  by_cases h : u = t
  · subst h
    rw [State.team, State.team, State.team?_modTeam keeps]
    cases s.team? u with
    | none => rfl
    | some x => exact hscr x
  · rw [State.team, State.team, State.team?_modTeam_ne h keeps]

theorem State.scr_writeScr_same {s : State} {t : TeamId} (o : Nat) (bs : List Byte) (ht : s.team? t ≠ none) :
    ((s.writeScr t o bs).team t).scr = (s.team t).scr.writeL o bs := by
  obtain ⟨u, hu⟩ := Option.ne_none_iff_exists'.mp ht
  have h : (s.writeScr t o bs).team? t = _ := State.team?_modTeam (s := s) fun _ h => h
  rw [State.team, State.team, h, hu]
  rfl

theorem State.team_writeScr_ne {s : State} {t u : TeamId} (o : Nat) (bs : List Byte) (h : u ≠ t) :
    (s.writeScr t o bs).team u = s.team u := by
  have h : (s.writeScr t o bs).team? u = s.team? u := State.team?_modTeam_ne (s := s) h fun _ h => h
  rw [State.team, State.team, h]

/-! ## A store of a committed run -/

section Store

variable {s : State} {r : Run} {e : Store}

/-- A store to memory writes its bytes once its address is translated, and marks the line where they are poisoned. -/
theorem State.applyStore_local {p hpa : Nat} (hloc : e.loc = .phys p hpa) (hl : s.isLocal hpa = true) :
    s.applyStore r e =
      let t := ((s.touch (s.xctx r.wave) e.va.toNat .write).modLanes r.wave (laneBit e.lane) fun _ t =>
        t.addSig (lineSig hpa)).writeMem (.core (s.team r.wave.team).coreNo) (decide (e.kind = .marked)) p hpa e.bytes
      if e.poison then t.poisonLine p hpa else t := by
  unfold State.applyStore
  rw [hloc]
  exact if_pos (((s.touch_walks _ _ _).isLocal hpa).trans hl)

theorem State.applyStore_scr {t : TeamId} {o : Nat} (hloc : e.loc = .scr t o) :
    s.applyStore r e =
      let u := s.writeScr t o e.bytes
      if e.poison then u.modTeam t fun x => { x with scrPoison := (o / 128) :: x.scrPoison } else u := by
  unfold State.applyStore
  rw [hloc]

theorem State.applyStore_local_mem {p hpa : Nat} (hloc : e.loc = .phys p hpa) (hl : s.isLocal hpa = true) :
    (s.applyStore r e).mem = ((s.touch (s.xctx r.wave) e.va.toNat .write).writeMem (.core (s.team r.wave.team).coreNo)
      (decide (e.kind = .marked)) p hpa e.bytes).mem := by
  rw [applyStore_local hloc hl]
  dsimp only
  split
  · exact poisonLine_mem _ _ _
  · rfl

/-- Every byte that is none of the store's is as the translation of its address leaves it, in canonical form or not. -/
theorem State.applyStore_local_out {p hpa a : Nat} (hloc : e.loc = .phys p hpa) (hl : s.isLocal hpa = true)
    (ha : ∀ i < e.bytes.length, s.key p (hpa + i) ≠ a) :
    (s.applyStore r e).mem.read a = (s.touch (s.xctx r.wave) e.va.toNat .write).mem.read a := by
  have hw := s.touch_walks (s.xctx r.wave) e.va.toNat .write
  rw [applyStore_local_mem hloc hl]
  exact writeMem_out fun i hi => by rw [hw.key]; exact ha i hi

/-- In a memory in canonical form the bytes of a store are read again at their addresses (R4, R32). -/
theorem State.applyStore_local_in {p hpa i : Nat} (hm : s.mem.wf = true) (hloc : e.loc = .phys p hpa)
    (hl : s.isLocal hpa = true) (hi : i < e.bytes.length)
    (hk : ∀ j < e.bytes.length, s.key p (hpa + i) = s.key p (hpa + j) → i = j) :
    (s.applyStore r e).mem.read (s.key p (hpa + i)) = e.bytes.getD i 0 := by
  have hw := s.touch_walks (s.xctx r.wave) e.va.toNat .write
  rw [applyStore_local_mem hloc hl, ← hw.key]
  exact writeMem_in (hw.wf hm) hi fun j hj => by rw [hw.key, hw.key]; exact hk j hj

theorem State.applyStore_scr_mem {t : TeamId} {o : Nat} (hloc : e.loc = .scr t o) : (s.applyStore r e).mem = s.mem := by
  rw [applyStore_scr hloc]
  dsimp only
  split <;> rfl

/-- A store to a scratchpad writes its bytes there; their poison is kept apart from them. -/
theorem State.applyStore_scr_team {t : TeamId} {o : Nat} (hloc : e.loc = .scr t o) (u : TeamId) :
    ((s.applyStore r e).team u).scr = ((s.writeScr t o e.bytes).team u).scr := by
  rw [applyStore_scr hloc]
  dsimp only
  split
  · exact scr_modTeam_of_keeps (by intro; rfl) (by intro; rfl) u
  · rfl

theorem State.applyStore_scr_other {t u : TeamId} {o : Nat} (hloc : e.loc = .scr t o) (hu : u ≠ t) :
    ((s.applyStore r e).team u).scr = (s.team u).scr := by
  rw [applyStore_scr_team hloc, team_writeScr_ne o e.bytes hu]

theorem State.applyStore_scr_out {t : TeamId} {o a : Nat} (hloc : e.loc = .scr t o) (ht : s.team? t ≠ none)
    (ha : a < o ∨ o + e.bytes.length ≤ a) : ((s.applyStore r e).team t).scr.read a = (s.team t).scr.read a := by
  rw [applyStore_scr_team hloc, scr_writeScr_same o e.bytes ht]
  exact Memory.read_writeL_out ha

/-- In a scratchpad in canonical form the bytes of a store are read again at their offsets (R4, R32). -/
theorem State.applyStore_scr_in {t : TeamId} {o i : Nat} (hm : (s.team t).scr.wf = true) (hloc : e.loc = .scr t o)
    (ht : s.team? t ≠ none) (hi : i < e.bytes.length) :
    ((s.applyStore r e).team t).scr.read (o + i) = e.bytes.getD i 0 := by
  rw [applyStore_scr_team hloc, scr_writeScr_same o e.bytes ht]
  exact Memory.read_writeL_in hm hi

end Store

/-! ## Stored bytes, in any memory

A memory that is not in canonical form can hold two cells for one address. A write of 0 takes the first away and uncovers
the second, so the byte stored is not read again. In canonical form it is (`State.applyStore_local_in`,
`State.applyStore_scr_in`), and the statement's other clauses hold of every memory (`State.applyStore_local_out`,
`State.touch_of_heldAt`, `State.applyStore_scr_out`, `State.applyStore_scr_mem`, `State.applyStore_scr_other`). -/

/-- The machine after reset, but with two cells for the first byte of GDDR 7. -/
def doubledCell : State := { State.reset with mem := ⟨[(0, 1), (0, 1)]⟩ }

/-- A store of the byte 0 there. -/
def zeroStore : Store :=
  { lane := 0, loc := .phys 0 0, va := 0, bytes := [0], poison := false, kind := .plain, inst := 0, pc := 0, enc := [] }

def zeroRun : Run := { Run.fresh ⟨⟨0, 0⟩, 0, 0⟩ Wave.blank 1 0 0 with stores := [zeroStore] }

/-- The second cell of `doubledCell` is what is read after the store. -/
theorem doubledCell_applyStore_read :
    (doubledCell.applyStore zeroRun zeroStore).mem.read (doubledCell.key 0 0) = 1 := by
  decide +kernel

/-- Refutes O59: the statement takes any list of cells for a memory. In one that lists the byte at address 0 twice
(`doubledCell`), a store of 0 there leaves a 1 to be read. The fault is the missing hypothesis that memory is in canonical
form. -/
theorem not_storedBytes : ¬ Obligations.StoredBytes := by
  unfold Obligations.StoredBytes
  rintro ⟨hmem, -⟩
  have one_byte : ∀ i < zeroStore.bytes.length, i = 0 := fun i hi => Nat.lt_one_iff.mp hi
  obtain ⟨hread, -⟩ := hmem doubledCell zeroRun zeroStore 0 0 rfl (by decide)
    fun i hi j hj _ => (one_byte i hi).trans (one_byte j hj).symm
  exact absurd (doubledCell_applyStore_read.symm.trans (hread 0 Nat.one_pos)) (by decide)

end Sys2Proof.Machine

namespace Sys2Proof.Machine

open Sys2Proof

/-! ## Stores -/

/-- The body of a store, by the checks of its lanes (R31, R193). -/
theorem StoreForm.body_eq (g : StoreForm) (s : State) (r : Run) (sh : Shape) :
    storeBody g.sp g.kind g.w g.off s r sh =
      match firstExc (g.lanes s r sh).2.1 with
      | some e => .fault (g.lanes s r sh).2.2 e
      | none => .done (g.lanes s r sh).2.2 { r with stores := r.stores ++ (g.lanes s r sh).1 } .goOn := rfl

theorem StoreForm.governs {g : StoreForm} {i : Instr}
    (he : ∀ s, exec i s = execute s i memTys (storeBody g.sp g.kind g.w g.off)) : g.Governs i := by
  refine ⟨fun s r sh hr hx hf => ?_, fun s r sh e hr hx => ?_⟩
  · rw [he]
    exact execute_plain hr (by rw [g.body_eq, firstExc_none.2 hx]) hf
  · rw [he]
    exact execute_fault hr (by rw [g.body_eq, hx])

/-- Settles O10: each store's meaning is the body of its form. -/
theorem stores : Obligations.Stores := by
  unfold Obligations.Stores
  refine ⟨?st, ?stl, ?sts, ?stx, ?stS64, ?stS32, ?stsS64, ?stsS32⟩
  all_goals exact fun _ => StoreForm.governs fun _ => rfl

/-! ## Transfers -/

theorem State.targetExc_header {s t : State} {w : WaveId} {l : Fin 32} {va : Word} {x : Xlat}
    (hx : s.translate (s.xctx w) va.toNat .fetch = .ok (x, t)) (hh : t.isH (t.xctx w) va = true) :
    s.targetExc w l va false = none := by
  simp [State.targetExc, hx, hh]

theorem State.targetExcs_headers {s : State} {r : Run} {hs : List (Fin 32 × Word × Bool)} (hh : HeadersAt s r hs)
    (hp : ∀ h ∈ hs, h.2.2 = false) : s.targetExcs r.wave hs = [] := by
  simp only [State.targetExcs, List.filterMap_eq_nil_iff, Option.map_eq_none_iff]
  intro h hm
  obtain ⟨x, t, hx, ht⟩ := hh h hm
  rw [hp h hm]
  exact targetExc_header hx ht

theorem State.transferExc_headers {s : State} {r : Run} {first later : List (Fin 32 × Word × Bool)}
    (hh : HeadersAt s r (first ++ later)) (hp : ∀ h ∈ first ++ later, h.2.2 = false) :
    s.transferExc r.wave first later [] = none := by
  have ha : s.targetExcs r.wave first = [] :=
    targetExcs_headers (fun h hm => hh h (List.mem_append_left _ hm)) fun h hm => hp h (List.mem_append_left _ hm)
  have hb : s.targetExcs r.wave later = [] :=
    targetExcs_headers (fun h hm => hh h (List.mem_append_right _ hm)) fun h hm => hp h (List.mem_append_right _ hm)
  simp [State.transferExc, ha, hb, firstExc]

theorem landings_clean {r : Run} {put : Fin 32 → Regs → Regs} {goal : Fin 32 → Word} :
    ∀ h ∈ landings r put goal, h.2.2 = false := by
  simp [landings]

/-- A transfer whose operands raise nothing and name no poisoned address raises nothing where each of its targets is a
header. -/
theorem Leaving.exc_none {g : Leaving} {s : State} {r : Run} {sh : Shape} (hh : HeadersAt (g.after s r sh) r (g.all s r sh))
    (he : g.excs s r sh = []) (hf : ∀ h ∈ g.first s r sh, h.2.2 = false) (hl : ∀ h ∈ g.heads s r sh, h.2.2 = false) :
    g.exc s r sh = none := by
  rw [Leaving.exc, he]
  refine State.transferExc_headers hh fun h hm => ?_
  rcases List.mem_append.1 hm with hm | hm
  · exact hf h hm
  · rcases List.mem_append.1 hm with hm | hm
    · exact hl h hm
    · exact landings_clean h hm

theorem lowPoison_clean {s : State} {r : Run} {sh : Shape} (h : CleanLow s r sh) : lowPoison s r sh = [] := by
  rw [lowPoison, show poisonedSrc s r sh .b32 = 0 from h]
  rfl

theorem braChecks_clean {r : Run} {sh : Shape} {target : Word} {taken : Fin 32 → Bool} :
    ∀ h ∈ braChecks r sh target taken, h.2.2 = false := by
  intro h hm
  rw [braChecks] at hm
  rcases List.mem_append.1 hm with hm | hm
  · split at hm
    all_goals
      obtain ⟨l, -, rfl⟩ := List.mem_map.1 hm
      rfl
  · obtain ⟨l, -, rfl⟩ := List.mem_map.1 hm
    rfl

theorem braForm_governs (c : BrCond) (f : Ctl) : (braForm c f).Governs (.bra c f) :=
  Leaving.governs (body := braBody c f) (fun _ => rfl) (fun _ _ _ => rfl) fun _ _ _ hc hh =>
    Leaving.exc_none hh (lowPoison_clean hc) (fun _ hm => absurd hm List.not_mem_nil) braChecks_clean

theorem indirectForm_governs {i : Instr} (he : ∀ s, exec i s = execute s i [tyW64] indirectBody) :
    indirectForm.Governs i := by
  refine Leaving.governs (body := indirectBody) he (fun _ _ _ => rfl) fun s r sh hc hh =>
    Leaving.exc_none hh rfl (fun _ hm => absurd hm List.not_mem_nil) fun h hm => ?_
  obtain ⟨l, hl, rfl⟩ := List.mem_map.1 hm
  exact hc l (mem_lanesOf.1 hl)

theorem callForm_governs (f : Ctl) : (callForm f).Governs (.call f) := by
  refine Leaving.governs (body := callBody f) (fun _ => rfl) (fun _ _ _ => rfl) fun s r sh _ hh =>
    Leaving.exc_none hh rfl (fun h hm => ?_) fun _ hm => absurd hm List.not_mem_nil
  obtain ⟨l, -, rfl⟩ := List.mem_map.1 hm
  rfl

theorem lsetupForm_governs (k : Fin 4) (len2 : BitVec 10) (f : Ctl) :
    (lsetupForm k len2 f).Governs (.lsetup k len2 f) := by
  refine Leaving.governs (body := lsetupBody k len2 f) (fun _ => rfl) (fun _ _ _ => rfl) fun s r sh hc hh =>
    Leaving.exc_none hh (lowPoison_clean hc) (fun h hm => ?_) fun _ hm => absurd hm List.not_mem_nil
  obtain ⟨l, -, hm⟩ := List.mem_flatMap.1 hm
  rcases List.mem_pair.1 hm with rfl | rfl
  · rfl
  · rfl

/-- Settles O22: each transfer's body is that of its form, which raises nothing where its operands are clean and its targets
are headers. -/
theorem transfers : Obligations.Transfers := by
  unfold Obligations.Transfers
  refine ⟨braForm_governs, fun f i hi => ?_, callForm_governs, lsetupForm_governs⟩
  rcases List.mem_pair.1 hi with rfl | rfl
  · exact indirectForm_governs fun _ => rfl
  · exact indirectForm_governs fun _ => rfl

/-! ## FORK -/

theorem forkPoison_clean {s : State} {r : Run} {sh : Shape}
    (h : ∀ l, LaneMask.has r.group l = true → ((s.laneIn r sh [tyW64] l).ops.getD 0 Val.zero).bad = false) :
    forkPoison s r sh = [] := by
  rw [forkPoison, List.map_eq_nil_iff, List.filter_eq_nil_iff]
  intro l hl
  exact ne_true_of_eq_false (h l (mem_lanesOf.1 hl))

theorem forkChecks_clean {r : Run} {sh : Shape} {target : Word} : ∀ h ∈ forkChecks r sh target, h.2.2 = false := by
  intro h hm
  obtain ⟨l, -, hm⟩ := List.mem_flatMap.1 hm
  rcases List.mem_pair.1 hm with rfl | rfl
  · rfl
  · rfl

/-- What FORK does at commit where the value of lane `l` for its child is `v l` (R396). -/
def forkEffect (target : Word) (d : Dst) (v : Fin 32 → Word) (t : State) (q : Run) : State :=
  let ok := t.canFork q.wave q.group
  let t := if ok then t.forkWave q.wave q.group target v else t
  ((lanesOf q.group).foldl (fun t l => t.setRegs q.wave l fun g => g.put d .b64 0xFF ⟨if ok then 1 else 0, 0⟩) t).goOnRun q

/-- The state once FORK's headers are fetched (R171). -/
def State.forkFetched (s : State) (f : Ctl) (r : Run) (sh : Shape) : State :=
  s.fetched r.wave ((forkChecks r sh (targetOf r.pc f.off f.lit)).map fun h => h.2.1)

/-- The first fault of a FORK (R193). -/
def State.forkExc (s : State) (f : Ctl) (r : Run) (sh : Shape) : Option Exc :=
  (s.forkFetched f r sh).transferExc r.wave (forkChecks r sh (targetOf r.pc f.off f.lit)) [] (forkPoison s r sh)

theorem forkBody_eq (f : Ctl) (s : State) (r : Run) (sh : Shape) :
    forkBody f s r sh =
      match s.forkExc f r sh with
      | some e => .fault (s.forkFetched f r sh) e
      | none => .done (s.forkFetched f r sh) r
          (.own (forkEffect (targetOf r.pc f.off f.lit) sh.dst fun l => (s.laneIn r sh [tyW64] l).a)) := rfl

theorem exec_fork_done {f : Ctl} {s : State} {r : Run} {sh : Shape} (hr : Ready s (.fork f) r sh)
    (hh : HeadersAt ((s.tokenReads r sh).forkFetched f r sh) r (forkChecks r sh (targetOf r.pc f.off f.lit)))
    (hp : ∀ l, LaneMask.has r.group l = true →
      (((s.tokenReads r sh).laneIn r sh [tyW64] l).ops.getD 0 Val.zero).bad = false)
    (hf : FallsWell s ((s.tokenReads r sh).forkFetched f r sh) r sh) :
    exec (.fork f) s = .next (s.afterOwn [tyW64] r sh ((s.tokenReads r sh).forkFetched f r sh) r
      (forkEffect (targetOf r.pc f.off f.lit) sh.dst fun l => ((s.tokenReads r sh).laneIn r sh [tyW64] l).a)) := by
  have hx : (s.tokenReads r sh).forkExc f r sh = none := by
    rw [State.forkExc, forkPoison_clean hp]
    exact State.transferExc_headers (by rwa [List.append_nil]) (by rw [List.append_nil]; exact forkChecks_clean)
  exact execute_own (body := forkBody f) hr (by rw [forkBody_eq, hx]) hf

theorem exec_fork_fault {f : Ctl} {s : State} {r : Run} {sh : Shape} {e : Exc} (hr : Ready s (.fork f) r sh)
    (he : (s.tokenReads r sh).forkExc f r sh = some e) :
    exec (.fork f) s = .next (((s.tokenReads r sh).forkFetched f r sh).raiseRun r { e with enc := encode (.fork f) }) :=
  execute_fault (body := forkBody f) hr (by rw [forkBody_eq, he])

/-! ## EXIT, FJOIN, barriers, WSYNC, YIELD and TRIG -/

/-- Settles O24: FORK by its headers and its operand; the others are done with one effect at commit, WSYNC where no lane
consumes poison. -/
theorem threadsAndBarriers : Obligations.ThreadsAndBarriers := by
  unfold Obligations.ThreadsAndBarriers
  refine ⟨?exit, ?fork, ?fjoin, ?bar, ?cbar, ?wsync, ?yield, ?trig⟩
  case exit => exact fun e s r sh hr => execute_leave (body := exitBody) hr rfl
  case fork => exact fun f s r sh hr => ⟨exec_fork_done hr, fun e => exec_fork_fault hr⟩
  case fjoin => exact fun e => commits_of_body (body := fjoinBody) (fun _ => rfl) fun _ _ _ _ => rfl
  case bar => exact fun e => commits_of_body (body := barBody) (fun _ => rfl) fun _ _ _ _ => rfl
  case cbar => exact fun hold e => commits_of_body (body := cbarBody hold) (fun _ => rfl) fun _ _ _ _ => rfl
  case wsync =>
    exact fun f => commits_of_body (body := wsyncBody) (fun _ => rfl) fun s r sh hp => if_neg (not_not.2 (noBad hp))
  case yield => exact fun e => commits_of_body (body := yieldBody) (fun _ => rfl) fun _ _ _ _ => rfl
  case trig => exact fun e => commits_of_body (body := trigBody) (fun _ => rfl) fun _ _ _ _ => rfl

/-! ## Events by their conditions -/

/-- An event whose meaning tests its condition turns where the condition holds. -/
theorem turns_of_test {i : Instr} {ok : State → Prop} {t : State → State} {test : State → Bool}
    (he : ∀ s, exec i s = if test s then .next (t s) else .next s) (ht : ∀ s, test s = true ↔ ok s) : Turns i ok t :=
  ⟨fun s h => (he s).trans (if_pos ((ht s).2 h)), fun s h => (he s).trans (if_neg (mt (ht s).1 h))⟩

theorem State.elementParked_iff (s : State) (t : TeamId) (cut : Nat × Nat) : s.elementParked t cut = true ↔
    ((s.team t).stream.parked ≠ [] ∧ (s.team t).stream.order < cut.2) ∨
      ∃ c ∈ s.cmds, c.wave.team = t ∧ c.parked ≠ [] ∧ c.id < cut.1 := by
  simp [State.elementParked, and_assoc]

/-- What FJOIN's completion comes to (R44, R395). -/
theorem exec_fjoinComplete (job team wave : Nat) (s : State) :
    let w := (s.team ⟨job, team⟩).waveId wave
    let m := (s.wave w).waitMask .fjoin
    let done := (s.wave w).joinedMask
    exec (.fjoinComplete job team wave) s =
      if m ≠ 0 ∧ (s.wave w).joins = 0 then
        .next ((s.acquire (s.team w.team).coreNo (s.wave w).joinSig).resumeCmd w m)
      else if done ≠ 0 then .next ((s.acquire (s.team w.team).coreNo (s.wave w).joinedSig).resumeCmd w done)
      else .next s := by
  intro w m done
  change (if (decide (m ≠ 0) && decide ((s.wave w).joins = 0)) = true then _ else _) = _
  simp only [Bool.and_eq_true, decide_eq_true_eq]
  rfl

theorem Wave.getElem_modLanes (v : Wave) (m : LaneMask) (f : Thread → Thread) (l : Fin 32) :
    (v.modLanes m f).lanes[l] = if LaneMask.has m l then f v.lanes[l] else v.lanes[l] := by
  simp [Wave.modLanes]

theorem Wave.joinZero_status {v : Wave} {l : Fin 32} (hj : v.joins = 0) (hl : v.lanes[l].status = .waiting .fjoin) :
    v.joinZero.lanes[l].status = .waiting (.joined v.joinSig) := by
  have hl' : v.lanes[l.val].status = .waiting .fjoin := hl
  simp [joinZero, hj, hl']

theorem Wave.expireRejoin_due {v : Wave} {i now : Nat} {e : Rejoin} (he : v.rejoin[i]? = some e) (ht : e.timer = some 0) :
    v.expireRejoin i now = ({ v with rejoin := v.rejoin.eraseIdx i } : Wave).modLanes e.arrived fun (t : Thread) =>
        if t.status = .waiting (.rejoin e.target) then t.go now else t := by
  simp [Wave.expireRejoin, he, ht]

theorem Wave.expireRejoin_early {v : Wave} {i now : Nat} {e : Rejoin} (he : v.rejoin[i]? = some e) (ht : e.timer ≠ some 0) :
    v.expireRejoin i now = v := by
  simp [Wave.expireRejoin, he, ht]

theorem Wave.expireRejoin_status {v : Wave} {i now : Nat} {e : Rejoin} {l : Fin 32} (he : v.rejoin[i]? = some e)
    (ht : e.timer = some 0) (hl : LaneMask.has e.arrived l = true) (hw : v.lanes[l].status = .waiting (.rejoin e.target)) :
    (v.expireRejoin i now).lanes[l].status = .ready := by
  rw [expireRejoin_due he ht, getElem_modLanes, if_pos hl]
  exact congrArg Thread.status (if_pos hw)

/-- Settles O31: each event by the test that its meaning makes. -/
theorem waitEvents : Obligations.WaitEvents := by
  unfold Obligations.WaitEvents
  refine ⟨fun job team => ?bar, fun job cohort => ?cbar, State.elementParked_iff, fun job team wave s => ?fjoin,
    fun _ _ => Wave.joinZero_status, fun job team wave pc => ?wsync, fun _ _ _ _ _ => rfl, fun v i now e he => ?rejoin⟩
  case bar => exact turns_of_test (fun _ => rfl) fun _ => by simp [and_assoc]
  case cbar => exact turns_of_test (fun _ => rfl) fun _ => by simp
  case fjoin =>
    have hx := exec_fjoinComplete job team wave s
    exact ⟨fun h => hx.trans (if_pos h), fun h hd => hx.trans ((if_neg h).trans (if_pos hd)),
      fun h hd => hx.trans ((if_neg h).trans (if_neg (not_not.2 hd)))⟩
  case wsync => exact ⟨fun s h => if_neg h, fun s h => if_pos (not_not.1 h)⟩
  case rejoin =>
    refine ⟨fun ht => ⟨?removed, fun l => Wave.expireRejoin_status he ht⟩, Wave.expireRejoin_early he⟩
    case removed => rw [Wave.expireRejoin_due he ht]; rfl

/-- The same where it tests first whether it changes nothing. -/
theorem turns_of_not_test {i : Instr} {ok : State → Prop} {t : State → State} {test : State → Bool}
    (he : ∀ s, exec i s = if (!test s) = true then .next s else .next (t s)) (ht : ∀ s, test s = true ↔ ok s) :
    Turns i ok t :=
  turns_of_test (test := test) (fun s => by rw [he]; cases test s <;> rfl) ht

/-- An event that leads where a rule of it says, and changes nothing unless one holds. -/
theorem becomes_of_cases {i : Instr} {r : State → State → Prop} (hr : ∀ s t, r s t → exec i s = .next t)
    (hs : ∀ s, exec i s = .next s ∨ ∃ t, r s t) : Becomes i r :=
  ⟨hr, fun s h => (hs s).resolve_right (not_exists.2 h)⟩

/-- An event that has one effect where its condition holds. -/
theorem Turns.becomes {i : Instr} {ok : State → Prop} {t : State → State} (h : Turns i ok t) :
    Becomes i fun s u => ok s ∧ u = t s :=
  ⟨fun s _ hu => hu.2 ▸ h.1 s hu.1, fun s hu => h.2 s fun ho => hu _ ⟨ho, rfl⟩⟩

/-! ## Admission and residence -/

theorem State.seatWave_full {s : State} {w : WaveId} (h : s.freeSlot (s.team w.team).coreNo = none) : s.seatWave w = s := by
  simp [State.seatWave, h]

theorem State.seatWave_free {s : State} {w : WaveId} {k : Nat} (h : s.freeSlot (s.team w.team).coreNo = some k) :
    s.seatWave w =
      if (s.modWave w fun v => v.seat k s.now).imagesFit (s.job w.team.job).part (s.team w.team).cluster then
        s.modWave w fun v => v.seat k s.now
      else s := by
  simp [State.seatWave, h]

/-- What the admission of a cohort comes to where the cohort waits (R291, R292). -/
theorem exec_teamAdmit {job cohort cluster : Nat} {cores : List Nat} {s : State} {w : Waiting}
    (hw : (s.waitingCohorts.find? fun w => w.job = job && w.cohort = cohort) = some w) :
    exec (.teamAdmit job cohort cluster cores) s =
      if s.mayGo w cluster = true ∧ s.coresFit w cluster cores = true ∧ ∀ x ∈ s.fitting cluster, x.before w = false then
        .next (s.takeIn w cluster cores)
      else .next s := by
  change execTeamAdmit job cohort cluster cores s = _
  simp only [execTeamAdmit, hw, Bool.and_eq_true, Bool.not_eq_true', List.any_eq_false, Bool.not_eq_true, and_assoc]

/-- A cohort that does not wait is not admitted. -/
theorem exec_teamAdmit_none {job cohort cluster : Nat} {cores : List Nat} {s : State}
    (hw : (s.waitingCohorts.find? fun w => w.job = job && w.cohort = cohort) = none) :
    exec (.teamAdmit job cohort cluster cores) s = .next s := by
  change execTeamAdmit job cohort cluster cores s = _
  simp only [execTeamAdmit, hw]

/-- What the return of a wave or of its parked cohort comes to (R22, R204). -/
theorem exec_restore (job team wave : Nat) (s : State) :
    let u := s.team ⟨job, team⟩
    let w := u.waveId wave
    exec (.restore job team wave) s =
      if (s.wave w).isLive = true ∧ (s.wave w).slot = none then
        if u.place = .resident then .next (s.seatWave w)
        else if u.place = .parked ∧ s.mayReturn job u.cohort = true then .next (s.returnCohort w u.cohort)
        else .next s
      else .next s := by
  intro u w
  change execRestore job team wave s = _
  unfold execRestore
  cases hl : (s.wave w).isLive <;> cases hs : (s.wave w).slot <;> simp [u, w, hl, hs]

/-- What the parking of a wave or of its cohort comes to (R22, R292). -/
theorem exec_parking (job team wave : Nat) (s : State) :
    let u := s.team ⟨job, team⟩
    let w := u.waveId wave
    let j := s.job job
    exec (.parking job team wave) s =
      if u.place = .resident ∧ (s.wave w).slot.isSome = true ∧ u.guard ≤ s.now then
        if ∃ v ∈ u.waves, v.isLive = true ∧ v.slot.isSome = true ∧ v.uid ≠ w.uid then
          if s.canPark j.part u.cluster (waveLen j.card.named) = true then .next (s.parkWave w).settle else .next s
        else .next (if s.unguarded job u.cohort = true ∧ s.canPark j.part u.cluster (s.parkNeed job u.cohort) = true then
          (s.parkCohort job u.cohort).settle
        else s)
      else .next s := by
  intro u w j
  have hw : (decide (u.place ≠ .resident) || (s.wave w).slot.isNone || !decide (u.guard ≤ s.now)) = true ↔
      ¬(u.place = .resident ∧ (s.wave w).slot.isSome = true ∧ u.guard ≤ s.now) := by
    cases (s.wave w).slot <;> simp [← imp_iff_not_or]
  have ho : (u.waves.filter fun v => v.isLive && v.slot.isSome && decide (v.uid ≠ w.uid)).isEmpty = true ↔
      ¬∃ v ∈ u.waves, v.isLive = true ∧ v.slot.isSome = true ∧ v.uid ≠ w.uid := by
    simp
  have he : exec (.parking job team wave) s = _ := if_congr hw rfl (if_congr ho rfl rfl)
  rw [he, ite_not, ite_not]
  simp only [Bool.and_eq_true]
  rfl

theorem State.exhausted_iff (s : State) (job cohort : Nat) : s.exhausted job cohort = true ↔
    (∃ w ∈ s.waitingCohorts, (s.job w.job).part = (s.job job).part ∧ ∀ k < 16, s.pickCores w k = none) ∨
      ∃ u ∈ s.cohortTeams job cohort, s.parkingFull (s.job job).part u.cluster = true := by
  simp [State.exhausted]

/-- Settles O38: each event by the tests that its meaning makes, in its order. -/
theorem placementEvents : Obligations.PlacementEvents := by
  unfold Obligations.PlacementEvents
  refine ⟨fun job cohort cluster cores => ?takeIn, fun s w => ⟨State.seatWave_full, fun _ => State.seatWave_free⟩,
    fun job team wave => ?restore, fun job team wave => ?parking, fun job cohort => ?swapping, fun job team => ?guard,
    fun job cohort => ?preempt, fun cluster s h => ?early, fun cluster s h => ?slice,
    fun job team wave pc s hp hs hg => ?promote, fun demands => ?grant⟩
  case takeIn =>
    refine becomes_of_cases (fun s t => ?_) fun s => ?_
    · rintro ⟨w, hw, hgo, hfit, hfirst, rfl⟩
      exact (exec_teamAdmit hw).trans (if_pos ⟨hgo, hfit, hfirst⟩)
    · cases hw : s.waitingCohorts.find? fun w => w.job = job && w.cohort = cohort with
      | none => exact .inl (exec_teamAdmit_none hw)
      | some w =>
        rw [exec_teamAdmit hw]
        split
        next h => exact .inr ⟨_, w, rfl, h.1, h.2.1, h.2.2, rfl⟩
        next => exact .inl rfl
  case restore =>
    refine becomes_of_cases (fun s t => ?_) fun s => ?_
    · rintro ⟨hl, hs, ⟨hp, rfl⟩ | ⟨hp, hr, rfl⟩⟩
      · rw [exec_restore, if_pos ⟨hl, hs⟩, if_pos hp]
      · rw [exec_restore, if_pos ⟨hl, hs⟩, if_neg (by simp [hp]), if_pos ⟨hp, hr⟩]
    · rw [exec_restore]
      split_ifs with hw hp hr
      · exact .inr ⟨_, hw.1, hw.2, .inl ⟨hp, rfl⟩⟩
      · exact .inr ⟨_, hw.1, hw.2, .inr ⟨hr.1, hr.2, rfl⟩⟩
      · exact .inl rfl
      · exact .inl rfl
  case parking =>
    refine becomes_of_cases (fun s t => ?_) fun s => ?_
    · rintro ⟨hp, hs, hg, ⟨ho, hu, hc, rfl⟩ | ⟨ho, hc, rfl⟩⟩
      · rw [exec_parking, if_pos ⟨hp, hs, hg⟩, if_neg ho, if_pos ⟨hu, hc⟩]
      · rw [exec_parking, if_pos ⟨hp, hs, hg⟩, if_pos ho, if_pos hc]
    · rw [exec_parking]
      split_ifs with hw ho hc hc
      · exact .inr ⟨_, hw.1, hw.2.1, hw.2.2, .inr ⟨ho, hc, rfl⟩⟩
      · exact .inl rfl
      · exact .inr ⟨_, hw.1, hw.2.1, hw.2.2, .inl ⟨ho, hc.1, hc.2, rfl⟩⟩
      · exact .inl rfl
      · exact .inl rfl
  case swapping => exact turns_of_test (fun _ => rfl) fun s => by simp [State.exhausted_iff, and_assoc]
  case guard => exact turns_of_test (fun _ => rfl) fun s => by simp
  case preempt => exact (turns_of_not_test (fun _ => rfl) fun s => by simp [and_assoc]).becomes
  case early => exact if_pos h
  case slice =>
    intro t waits due u
    have he : exec (.sliceStep cluster) s =
        if waits.isEmpty then .next t
        else match waits with
          | w :: _ => match u.pickCores w cluster with
            | some cores => .next (u.takeIn w cluster cores)
            | none => .next u
          | [] => .next u := if_neg (Nat.not_lt.2 h)
    refine ⟨fun hw => ?_, fun w rest hw => ?_⟩
    · rw [he, hw]; rfl
    · simp only [he, hw, List.isEmpty_cons, Bool.false_eq_true, if_false]
      cases u.pickCores w cluster with
      | none | some cores => rfl
  case promote =>
    refine if_pos ?_
    obtain ⟨g, hm, hpc, hsince, hnot⟩ := hg
    simp only [Bool.and_eq_true, decide_eq_true_eq, List.any_eq_true, Option.isNone_iff_eq_none]
    exact ⟨⟨hp, hs⟩, g, hm, ⟨hpc, hsince⟩, hnot⟩
  case grant => exact ⟨fun s h => if_neg (Nat.not_lt.2 h), fun s h => if_pos (Nat.not_le.1 h)⟩

/-! ## The loop check -/

/-- A loop register whose end is the header `h` (R46). -/
def Loop.endsAt (l : Loop) (h : Word) : Prop := l.active = true ∧ l.stop = h

/-- The loop registers from `k` on, of which `p` is the first that sends the thread back from `h`, or 4. -/
structure LoopsBack (lc : Vector Loop 4) (h : Word) (k p : Nat) : Prop where
  passed : ∀ j : Fin 4, k ≤ j.val → j.val < p → lc[j].endsAt h → lc[j].count.toNat ≤ 1
  taken  : ∀ j : Fin 4, j.val = p → lc[j].endsAt h ∧ 1 < lc[j].count.toNat

/-- What the loop check at `h` has made of the registers from `k` on, and where it sends the thread (R46). -/
structure Checked (lc : Vector Loop 4) (h : Word) (k p : Nat) (out : Vector Loop 4 × Word) : Prop where
  ended : ∀ j : Fin 4, k ≤ j.val → j.val < p → lc[j].endsAt h → out.1[j] = { lc[j] with active := false }
  kept  : ∀ j : Fin 4, k ≤ j.val → j.val < p → ¬lc[j].endsAt h → out.1[j] = lc[j]
  taken : ∀ j : Fin 4, j.val = p → out.1[j] = { lc[j] with count := lc[j].count - 1 } ∧ out.2 = lc[j].start
  other : ∀ j : Fin 4, j.val < k ∨ p < j.val → out.1[j] = lc[j]
  goal  : p = 4 → out.2 = h

theorem getElem_set_self {lc : Vector Loop 4} {k : Nat} (hk : k < 4) (x : Loop) {j : Fin 4} (h : j.val = k) :
    (lc.set k x)[j] = x := by
  subst h
  simp

theorem getElem_set_other {lc : Vector Loop 4} {k : Nat} (hk : k < 4) (x : Loop) {j : Fin 4} (h : j.val ≠ k) :
    (lc.set k x)[j] = lc[j] := by
  simp [Vector.getElem_set_ne _ _ (Ne.symm h)]

/-- A register behind which the check goes on, left as it is, or ended. -/
theorem Checked.of_succ {lc lc' : Vector Loop 4} {h : Word} {k p : Nat} {out : Vector Loop 4 × Word}
    (hc : Checked lc' h (k + 1) p out) (hkp : k < p) (he : ∀ j : Fin 4, j.val ≠ k → lc'[j] = lc[j])
    (hk : ∀ j : Fin 4, j.val = k →
      (lc[j].endsAt h → lc'[j] = { lc[j] with active := false }) ∧ (¬lc[j].endsAt h → lc'[j] = lc[j])) :
    Checked lc h k p out where
  ended j hj hjp hx := by
    by_cases h : j.val = k
    · rw [hc.other j (by omega), (hk j h).1 hx]
    · rw [hc.ended j (by omega) hjp (by rwa [he j h]), he j h]
  kept j hj hjp hx := by
    by_cases h : j.val = k
    · rw [hc.other j (by omega), (hk j h).2 hx]
    · rw [hc.kept j (by omega) hjp (by rwa [he j h]), he j h]
  taken j hj := by rw [← he j (by omega)]; exact hc.taken j hj
  other j hj := by rw [hc.other j (by omega), he j (by omega)]
  goal := hc.goal

theorem LoopsBack.succ {lc lc' : Vector Loop 4} {h : Word} {k p : Nat} (hb : LoopsBack lc h k p) (hkp : k < p)
    (he : ∀ j : Fin 4, j.val ≠ k → lc'[j] = lc[j]) : LoopsBack lc' h (k + 1) p where
  passed j hj := by rw [he j (by omega)]; exact hb.passed j (by omega)
  taken j hj := by rw [he j (by omega)]; exact hb.taken j hj

theorem loopFrom_checked {h : Word} {p : Nat} (hp : p ≤ 4) : ∀ {n k : Nat} {lc : Vector Loop 4}, k + n = 4 → k ≤ p →
    LoopsBack lc h k p → Checked lc h k p (loopFrom h n k lc) := by
  intro n
  induction n with
  | zero =>
    intro k lc hk hkp hb
    obtain rfl : p = 4 := by omega
    exact ⟨by omega, by omega, by omega, fun _ _ => rfl, fun _ => rfl⟩
  | succ n ih =>
    intro k lc hk hkp hb
    have hk4 : k < 4 := by omega
    let x : Fin 4 := ⟨k, hk4⟩
    rw [loopFrom, dif_pos hk4]
    by_cases hx : lc[x].endsAt h
    · have hx' : (lc[k].active && decide (lc[k].stop = h)) = true := by simpa [Loop.endsAt, x] using hx
      rw [if_pos hx']
      by_cases hcount : lc[k].count.toNat > 1
      · rw [if_pos hcount]
        obtain rfl : k = p := by
          by_contra hne
          exact absurd (hb.passed x le_rfl (Nat.lt_of_le_of_ne hkp hne) hx) (Nat.not_le.2 hcount)
        exact {
          ended := by omega
          kept := by omega
          taken := fun j hj => by
            obtain rfl : j = x := Fin.ext hj
            exact ⟨getElem_set_self hk4 _ rfl, rfl⟩
          other := fun j hj => getElem_set_other hk4 _ (by omega)
          goal := by omega }
      · rw [if_neg hcount]
        have hlt : k < p := Nat.lt_of_le_of_ne hkp fun hkp => hcount (hb.taken x hkp).2
        have hne : ∀ j : Fin 4, j.val ≠ k → (lc.set k { lc[k] with active := false })[j] = lc[j] :=
          fun j => getElem_set_other hk4 _
        refine (ih (by omega) hlt (hb.succ hlt hne)).of_succ hlt hne fun j hj => ?_
        obtain rfl : j = x := Fin.ext hj
        exact ⟨fun _ => getElem_set_self hk4 _ rfl, fun hn => absurd hx hn⟩
    · have hx' : ¬(lc[k].active && decide (lc[k].stop = h)) = true := by simpa [Loop.endsAt, x] using hx
      rw [if_neg hx']
      have hlt : k < p := Nat.lt_of_le_of_ne hkp fun hkp => hx (hb.taken x hkp).1
      refine (ih (by omega) hlt (hb.succ hlt fun _ _ => rfl)).of_succ hlt (fun _ _ => rfl) fun j hj => ?_
      obtain rfl : j = x := Fin.ext hj
      exact ⟨fun hn => absurd hn hx, fun _ => rfl⟩

theorem loopCheck_checked {lc : Vector Loop 4} {h : Word} {p : Nat} (hp : p ≤ 4) (hb : LoopsBack lc h 0 p) :
    Checked lc h 0 p (loopCheck lc h) :=
  loopFrom_checked hp rfl (Nat.zero_le p) hb

/-! ## Divergence and arrival -/

theorem Wave.rejoin_foldl_modLanes {f : Rejoin → Thread → Thread} {es : List Rejoin} {v : Wave} :
    (es.foldl (fun w e => w.modLanes e.arrived (f e)) v).rejoin = v.rejoin := by
  induction es generalizing v with
  | nil => rfl
  | cons e es ih => exact ih

theorem Wave.pushRejoin_rejoin (v : Wave) (now : Nat) (m : LaneMask) (target : Word) :
    (v.pushRejoin now m target).rejoin =
      (({ mask := m, target := target, arrived := 0, timer := none } : Rejoin) :: v.rejoin).take 8 :=
  Wave.rejoin_foldl_modLanes

theorem arriveAt_found (l : Fin 32) (h : Word) (es : List Rejoin) :
    (arriveAt l h es).2 = true ↔ ∃ e ∈ es, e.target = h ∧ LaneMask.has e.mask l = true := by
  induction es with
  | nil => simp [arriveAt]
  | cons e es ih =>
    rw [arriveAt]
    split
    next he => simpa using .inl (by simpa using he)
    next he =>
      have he' : ¬(e.target = h ∧ LaneMask.has e.mask l = true) := by simpa using he
      simp [ih, he']

/-- Lanes whose goals are not all that of the first do not all have one goal. -/
theorem exists_goal_ne_head {ls : List (Fin 32)} {l : Fin 32} {goal : Fin 32 → Word} :
    (∃ k ∈ ls, goal k ≠ goal l) ↔ ∃ i ∈ l :: ls, ∃ k ∈ l :: ls, goal i ≠ goal k := by
  refine ⟨fun ⟨k, hk, h⟩ => ⟨k, .tail _ hk, l, .head _, h⟩, fun ⟨i, hi, k, hk, h⟩ => ?_⟩
  by_contra hn
  have hl : ∀ j ∈ l :: ls, goal j = goal l := List.forall_mem_cons.2 ⟨rfl, fun j hj => by_contra fun h => hn ⟨j, hj, h⟩⟩
  exact h ((hl i hi).trans (hl k hk).symm)

/-- A transfer pushes an entry exactly where it sends threads of the group apart in a block with JOIN (R36). -/
theorem State.pushDiverge_eq (s : State) (w : WaveId) (m : LaneMask) (blk : Word) (goal : Fin 32 → Word) :
    s.pushDiverge w m blk goal =
      if ((∃ l ∈ lanesOf m, ∃ k ∈ lanesOf m, goal l ≠ goal k) ∧ s.headerJoin (s.xctx w) blk ≠ 0) ∧
          s.isH (s.xctx w) (wordsAfter blk (s.headerJoin (s.xctx w) blk)) = true then
        s.modWave w fun v => v.pushRejoin s.now m (wordsAfter blk (s.headerJoin (s.xctx w) blk))
      else s := by
  unfold State.pushDiverge
  refine if_congr ?_ rfl rfl
  rw [Bool.and_eq_true, Bool.and_eq_true, decide_eq_true_eq]
  refine and_congr_left' (and_congr_left' ?_)
  cases lanesOf m with
  | nil => simp
  | cons l ls =>
    rw [← exists_goal_ne_head]
    simp

theorem State.pushDiverge_together {s : State} {w : WaveId} {m : LaneMask} {blk : Word} {goal : Fin 32 → Word}
    (hg : ∀ l k, LaneMask.has m l = true → LaneMask.has m k = true → goal l = goal k) :
    s.pushDiverge w m blk goal = s := by
  rw [pushDiverge_eq, if_neg]
  rintro ⟨⟨⟨l, hl, k, hk, h⟩, -⟩, -⟩
  exact h (hg l k (mem_lanesOf.1 hl) (mem_lanesOf.1 hk))

theorem State.pushDiverge_noJoin {s : State} {w : WaveId} {m : LaneMask} {blk : Word} {goal : Fin 32 → Word}
    (hj : s.headerJoin (s.xctx w) blk = 0) : s.pushDiverge w m blk goal = s := by
  rw [pushDiverge_eq, if_neg]
  rintro ⟨⟨-, h⟩, -⟩
  exact h hj

theorem State.pushDiverge_apart {s : State} {w : WaveId} {m : LaneMask} {blk : Word} {goal : Fin 32 → Word} {l k : Fin 32}
    (hl : LaneMask.has m l = true) (hk : LaneMask.has m k = true) (hg : goal l ≠ goal k)
    (hj : s.headerJoin (s.xctx w) blk ≠ 0) (hh : s.isH (s.xctx w) (wordsAfter blk (s.headerJoin (s.xctx w) blk)) = true) :
    s.pushDiverge w m blk goal =
      s.modWave w fun v => v.pushRejoin s.now m (wordsAfter blk (s.headerJoin (s.xctx w) blk)) := by
  rw [pushDiverge_eq, if_pos]
  exact ⟨⟨⟨l, mem_lanesOf.2 hl, k, mem_lanesOf.2 hk, hg⟩, hj⟩, hh⟩

/-- The thread that arrives stands at the header that the loop check gives, or waits there (R37, R46). -/
theorem Wave.arrive_self (v : Wave) (now : Nat) (l : Fin 32) (h : Word) :
    (v.arrive now l h).lanes[l] =
      let goal := (loopCheck v.lanes[l].regs.lc h).2
      { v.lanes[l] with
        pc := goal, next := goal, blk := goal,
        regs := { v.lanes[l].regs with lc := (loopCheck v.lanes[l].regs.lc h).1 }, since := now,
        status := if (arriveAt l goal v.rejoin).2 then .waiting (.rejoin goal) else .ready } := by
  simp [Wave.arrive]

theorem Wave.arrive_other (v : Wave) (now : Nat) {l k : Fin 32} (h : Word) (hk : k ≠ l) :
    (v.arrive now l h).lanes[k] = v.lanes[k] := by
  simp [Wave.arrive, Vector.getElem_set_ne _ _ fun he => hk (Fin.ext he.symm)]

/-- Settles O56: the loop check by induction over the registers that are left, divergence by its test, and arrival by the
search for a matching entry. -/
theorem headerArrival : Obligations.HeaderArrival := by
  unfold Obligations.HeaderArrival
  refine ⟨fun lc h p hp => ?loop, fun s w m blk goal => State.pushDiverge_together,
    fun s w m blk goal => State.pushDiverge_noJoin, fun s w m blk goal l k => State.pushDiverge_apart,
    Wave.pushRejoin_rejoin, fun v now l h => ?arrive⟩
  case loop =>
    intro hits hpassed htaken out
    obtain ⟨hended, hkept, ht, hother, hgoal⟩ := loopCheck_checked (lc := lc) hp ⟨fun j _ => hpassed j, htaken⟩
    exact ⟨fun j => hended j (Nat.zero_le _), fun j => hkept j (Nat.zero_le _), ht, fun j hj => hother j (.inr hj), hgoal⟩
  case arrive =>
    intro goal t
    have ht : t = _ := v.arrive_self now l h
    refine ⟨by rw [ht], by rw [ht], ?_, fun k => v.arrive_other now h⟩
    rw [ht, ← arriveAt_found]
    simp [goal]

/-! ## Where a fault goes -/

/-- The state in which a fault is routed: the run is gone, and where to resume is noted (R33, R199). -/
def State.faulted (s : State) (w : WaveId) (m : LaneMask) (after blk : Word) (e : Exc) : State :=
  ((s.abort w m).markLeaves (s.jobOf w).part e.marks).noteResume w m after blk 0

section Raise

variable {s : State} {w : WaveId} {m : LaneMask} {epc after blk : Word} {e : Exc}

/-- A fault that is not parked goes to the handler of threads that have one and are not in it; else it ends the team
(R192, R195, R200). -/
theorem State.raise_unparked (hp : e.parks = false) :
    let t := s.faulted w m after blk e
    s.raise w m epc after blk e =
      if (s.jobOf w).card.handler ≠ 0 ∧ ¬∃ l, LaneMask.has m l = true ∧ (t.thread w l).inHandler = true then
        match t.report (s.jobOf w).vf .fault (t.excRec w epc e 0 1).encode (some (w, m)) with
        | (u, true) => u.enterHandler w m e.code e.sub epc
        | (u, false) => u.modLanes w m fun _ t => { t with status := .waiting .ringFull }
      else (t.report (s.jobOf w).vf .fault (t.excRec w epc e 0 2).encode none).1.terminate w.team e.code := by
  intro t
  have hr : s.raise w m epc after blk e = _ := if_neg (Bool.eq_false_iff.1 hp)
  refine hr.trans (if_congr ?_ rfl rfl)
  simp [t, State.faulted, ← mem_lanesOf]

theorem Exc.parks_iff : e.parks = true ↔ e.code = Code.xlate ∨ e.code = Code.prot ∧ e.sub % 4 ≠ 0 := by
  simp [Exc.parks]

/-- A fault of translation parks the group under the next ticket (R192, R197, R198). -/
theorem State.raise_parked (hp : e.parks = true) :
    let t := s.faulted w m after blk e
    let k := t.newTicket (s.jobOf w).vf (.threads w m) e.code e.sub false
    let v := k.2.modLanes w m fun _ t => { t with status := .parked k.1 }
    s.raise w m epc after blk e = (v.report (s.jobOf w).vf .fault (v.excRec w epc e k.1 0).encode none).1 :=
  if_pos hp

end Raise

/-- A part that no step of a fold changes. -/
theorem foldl_keeps {α β γ : Type} {f : β → α → β} (p : β → γ) {as : List α} (hf : ∀ b, ∀ a ∈ as, p (f b a) = p b)
    (b : β) : p (as.foldl f b) = p b := by
  induction as generalizing b with
  | nil => rfl
  | cons a as ih => exact (ih (fun b x hx => hf b x (.tail _ hx)) _).trans (hf b a (.head _))

theorem teams_foldl_snd {α : Type} {f : Nat × State → α → Nat × State} (hf : ∀ b a, (f b a).2.teams = b.2.teams)
    (as : List α) (b : Nat × State) : (as.foldl f b).2.teams = b.2.teams :=
  foldl_keeps (fun b => b.2.teams) (fun b a _ => hf b a) b

theorem State.team_id (s : State) (k : TeamId) : (s.team k).id = k := by
  unfold State.team
  cases h : s.team? k with
  | none => rfl
  | some u => exact team?_id h

/-! ## A team read back from its image -/

/-- What reading the image of team `id` may change of the teams: of `id` not the identity of its waves, nor where its image
is; of the others nothing. -/
structure State.Rereads (id : TeamId) (s t : State) : Prop where
  others : ∀ k, k ≠ id → t.team? k = s.team? k
  own    : ∀ u, s.team? id = some u → ∃ v, t.team? id = some v ∧ v.image = u.image ∧
    v.waves.map Wave.uid = u.waves.map Wave.uid

namespace State.Rereads

variable {id : TeamId} {s t u : State}

theorem of_teams (h : t.teams = s.teams) : Rereads id s t := by
  have hk : ∀ k, t.team? k = s.team? k := fun k => by rw [State.team?, h]; rfl
  exact ⟨fun k _ => hk k, fun v hv => ⟨v, (hk id).trans hv, rfl, rfl⟩⟩

theorem refl (s : State) : Rereads id s s := of_teams rfl

theorem trans (h : Rereads id s t) (g : Rereads id t u) : Rereads id s u := by
  refine ⟨fun k hk => (g.others k hk).trans (h.others k hk), fun x hx => ?_⟩
  obtain ⟨y, hy, hyi, hyw⟩ := h.own x hx
  obtain ⟨z, hz, hzi, hzw⟩ := g.own y hy
  exact ⟨z, hz, hzi.trans hyi, hzw.trans hyw⟩

theorem modTeam (s : State) {f : Team → Team} (hid : ∀ x, (f x).id = x.id) (himg : ∀ x, (f x).image = x.image)
    (hw : ∀ x, (f x).waves.map Wave.uid = x.waves.map Wave.uid) : Rereads id s (s.modTeam id f) := by
  have keeps : ∀ x : Team, x.id = id → (f x).id = id := fun x h => (hid x).trans h
  refine ⟨fun k hk => State.team?_modTeam_ne hk keeps, fun u hu => ⟨f u, ?_, himg u, hw u⟩⟩
  rw [State.team?_modTeam keeps, hu]
  rfl

theorem modWave (s : State) {w : WaveId} (hw : w.team = id) {f : Wave → Wave} (hf : ∀ v, (f v).uid = v.uid) :
    Rereads id s (s.modWave w f) := by
  subst hw
  refine modTeam s (fun _ => rfl) (fun _ => rfl) fun x => ?_
  rw [List.map_map]
  refine List.map_congr_left fun v _ => ?_
  simp only [Function.comp]
  split
  · exact hf v
  · rfl

theorem modLanes (s : State) {w : WaveId} (hw : w.team = id) (m : LaneMask) (f : Fin 32 → Thread → Thread) :
    Rereads id s (s.modLanes w m f) := modWave s hw fun _ => rfl

theorem foldl {α : Type} {f : State → α → State} (hf : ∀ s a, Rereads id s (f s a)) (as : List α) :
    ∀ s, Rereads id s (as.foldl f s) := by
  induction as with
  | nil => exact refl
  | cons a as ih => exact fun s => (hf s a).trans (ih _)

theorem fixBlocks (s : State) {w : WaveId} (hw : w.team = id) (m : LaneMask) : Rereads id s (s.fixBlocks w m) := by
  unfold State.fixBlocks
  exact modLanes s hw m _

theorem readThreads (s : State) {w : WaveId} (hw : w.team = id) (m : LaneMask) (part named : Nat) :
    Rereads id s (s.readThreads w m part named) := by
  unfold State.readThreads
  dsimp only
  split
  · exact refl s
  · split
    · exact refl s
    · refine ((modLanes s hw m _).trans (modWave _ hw fun v => ?_)).trans (fixBlocks _ hw m)
      split <;> rfl

theorem readCursors (s : State) (k : TeamId) (bs was : List Byte) : Rereads id s (s.readCursors k bs was) := by
  refine foldl (fun s i => ?_) _ s
  dsimp only
  split
  · exact refl s
  · exact of_teams rfl

theorem readShadows (s : State) {t : Team} (ht : t.id = id) (bs was : List Byte) :
    Rereads id s (s.readShadows t bs was) := by
  unfold State.readShadows
  split
  · exact refl s
  · subst ht
    refine .trans (modTeam s ?_ ?_ ?_) (of_teams (teams_foldl_snd ?_ _ _))
    all_goals intros; rfl

theorem readTeam (s : State) (part named : Nat) : Rereads id s (s.readTeam id part named) := by
  have hid : (s.team id).id = id := State.team_id s id
  unfold State.readTeam
  dsimp only
  split
  · exact refl s
  · refine (((foldl (fun s v => ?_) _ s).trans (readCursors _ id _ _)).trans (readShadows _ hid _ _)).trans
      (modTeam _ (fun _ => rfl) (fun _ => rfl) fun _ => rfl)
    refine (readThreads s ?_ _ part named).trans (modWave _ ?_ ?_)
    all_goals intros; rfl

end State.Rereads

/-! ## What writing an image leaves of the teams -/

@[simp] theorem State.writePhys_teams (s : State) (p a : Nat) (bs : List Byte) : (s.writePhys p a bs).teams = s.teams := by
  obtain ⟨-, _, _, _, _, _, h⟩ := State.Walks.writePhys s p a bs
  rw [h]

@[simp] theorem State.saveWrite_teams (s : State) (part cluster off : Nat) (bs : List Byte) :
    (s.saveWrite part cluster off bs).teams = s.teams := by
  induction bs generalizing s off with
  | nil => rfl
  | cons b bs ih =>
    rw [State.saveWrite, ih]
    split
    · exact writePhys_teams ..
    · rfl

@[simp] theorem State.setDir_teams (s : State) (part cluster i : Nat) (e : DirEntry) :
    (s.setDir part cluster i e).teams = s.teams := saveWrite_teams ..

@[simp] theorem State.packImages_teams (s : State) (part cluster : Nat) : (s.packImages part cluster).teams = s.teams := by
  rw [State.packImages]
  refine teams_foldl_snd (fun a e => ?_) _ (0, s)
  dsimp only
  rw [setDir_teams, saveWrite_teams]

theorem State.team?_congr {s t : State} (h : t.teams = s.teams) (k : TeamId) : t.team? k = s.team? k := by
  rw [State.team?, h]
  rfl

theorem State.dropImage_some {s : State} {t : Team} {part i : Nat} (h : t.image = some i) :
    s.dropImage t part =
      (s.setDir part t.cluster i { s.dirEntry part t.cluster i with valid := false }).modTeam t.id fun u =>
        { u with image := none, written := [] } := by
  simp [State.dropImage, h]

/-- Dropping an image changes no other team. -/
theorem State.team?_dropImage_ne {s : State} {t : Team} {part : Nat} {k : TeamId} (hk : k ≠ t.id) :
    (s.dropImage t part).team? k = s.team? k := by
  unfold State.dropImage
  split
  · refine (State.team?_modTeam_ne hk ?_).trans (team?_congr (setDir_teams ..) k)
    exact fun _ h => h
  · rfl

/-- An image that leaves for parking space changes no other team. -/
theorem State.team?_evictImage_ne {s : State} {id : TeamId} {part : Nat} {k : TeamId} (hk : k ≠ id) :
    (s.evictImage id part).team? k = s.team? k := by
  unfold State.evictImage
  dsimp only
  rw [team?_dropImage_ne (by rwa [team_id]), (Rereads.readTeam s part _).others k hk]

/-- Making room for an image changes no team that has none. -/
theorem State.team?_makeRoom {s : State} {part cluster n : Nat} {k : TeamId}
    (hk : ∀ t ∈ s.teams, t.id = k → t.image = none) : (s.makeRoom part cluster n).team? k = s.team? k := by
  have evicted : ∀ s' : State, ∀ t ∈ s.teams.filter fun t => t.cluster = cluster && t.image.isSome && !s.hasStop t.id,
      (if (s'.imageHole part cluster n).isSome then s' else s'.evictImage t.id part).team? k = s'.team? k := by
    intro s' t ht
    obtain ⟨hmem, himg⟩ := List.mem_filter.1 ht
    split
    · rfl
    · refine team?_evictImage_ne fun hid => ?_
      simp [hk t hmem hid.symm] at himg
  unfold State.makeRoom
  dsimp only
  split
  · rfl
  · split
    · exact foldl_keeps (fun s : State => s.team? k) evicted s
    · exact (team?_congr (packImages_teams ..) k).trans (foldl_keeps (fun s : State => s.team? k) evicted s)

/-- A change of a team that keeps its identity and a property keeps that property in every team. -/
theorem State.modTeam_keeps {α : Type} {p : Team → α} (s : State) (k : TeamId) {f : Team → Team}
    (hid : ∀ x, (f x).id = x.id) (hp : ∀ x, p (f x) = p x) (j : TeamId) : p ((s.modTeam k f).team j) = p (s.team j) := by
  have keeps : ∀ x : Team, x.id = k → (f x).id = k := fun x h => (hid x).trans h
  by_cases h : j = k
  · subst h
    rw [State.team, State.team, State.team?_modTeam keeps]
    cases s.team? j with
    | none => rfl
    | some x => exact hp x
  · rw [State.team, State.team, State.team?_modTeam_ne h keeps]

theorem State.waves_modTeam (s : State) (k : TeamId) {f : Team → Team} (hid : ∀ x, (f x).id = x.id)
    (hw : ∀ x, (f x).waves = x.waves) (j : TeamId) : ((s.modTeam k f).team j).waves = (s.team j).waves :=
  s.modTeam_keeps k hid hw j

theorem State.team_congr {s t : State} {k : TeamId} (h : t.team? k = s.team? k) : t.team k = s.team k := by
  rw [State.team, State.team, h]

/-- Writing an image in place of the one a team has leaves the team's waves as they are. -/
theorem State.waves_writeImage {s : State} {t : Team} {part named : Nat} {stop : Bool} {held : Nat → Fin 32 → Bool}
    (ht : t.image ≠ none) : ((s.writeImage t part named stop held).2.team t.id).waves = (s.team t.id).waves := by
  obtain ⟨i, hi⟩ := Option.ne_none_iff_exists'.1 ht
  have hgone : ∀ x ∈ (s.dropImage t part).teams, x.id = t.id → x.image = none := by
    rw [dropImage_some hi]
    intro x hx hid
    obtain ⟨y, -, rfl⟩ := List.mem_map.1 hx
    by_cases hy : y.id = t.id
    · rw [if_pos hy]
    · rw [if_neg hy] at hid
      exact absurd hid hy
  have hdrop : ((s.dropImage t part).team t.id).waves = (s.team t.id).waves := by
    rw [dropImage_some hi, waves_modTeam, team_congr (team?_congr (setDir_teams ..) _)]
    all_goals exact fun _ => rfl
  generalize hy : s.writeImage t part named stop held = y
  -- The body takes the place of the name alone, before its arguments: else the kernel compares the two by a search of
  -- the image directory, which takes it seconds.
  generalize hf : @State.writeImage = f at hy
  delta State.writeImage at hf
  subst hf
  beta_reduce at hy
  extract_lets bs own n x at hy
  have hroom : (x.team t.id).waves = (s.team t.id).waves := by
    rw [team_congr (team?_makeRoom hgone), hdrop]
  clear_value x
  split at hy
  all_goals
    replace hy := congrArg Prod.snd hy
    dsimp only at hy
    rw [← hy]
  · rw [waves_modTeam, team_congr (team?_congr ((saveWrite_teams ..).trans (setDir_teams ..)) _)]
    · exact hroom
    all_goals exact fun _ => rfl
  · exact hroom

/-! ## Entry into the handler -/

/-- A thread that enters its handler (R199). -/
def Thread.entering (t : Thread) (h : Word) (cause : W32) (epc : Word) (now : Nat) : Thread :=
  { t with
    status := .ready, cause := cause, epc := epc, snapshot := t.regs.q, inHandler := true, pc := h, next := h, blk := h,
    since := now, stepLatch := [] }

/-- The threads of a mask enter their handler. -/
def State.entered (s : State) (w : WaveId) (m : LaneMask) (h : Word) (cause : W32) (epc : Word) : State :=
  s.modLanes w m fun _ t => t.entering h cause epc s.now

theorem State.enterHandler_eq (s : State) (w : WaveId) (m : LaneMask) (code sub : Nat) (epc : Word) :
    s.enterHandler w m code sub epc =
      s.inImage w m fun t => t.entered w m (s.jobOf w).card.handler (w32 (code + sub * 2 ^ 16)) epc := rfl

theorem State.inImage_none {s : State} {w : WaveId} {m : LaneMask} {f : State → State} (h : (s.team w.team).image = none) :
    s.inImage w m f = f s := by
  simp [State.inImage, h]

theorem State.team_of_team? {s : State} {k : TeamId} {u : Team} (h : s.team? k = some u) : s.team k = u := by
  rw [State.team, h]
  rfl

theorem Team.wave?_of_uids {t u : Team} {k : Nat} {v : Wave} (h : u.waves.map Wave.uid = t.waves.map Wave.uid)
    (hv : t.wave? k = some v) : ∃ x, u.wave? k = some x := by
  have hk : k ∈ u.waves.map Wave.uid := by
    rw [h]
    exact List.mem_map.2 ⟨v, List.mem_of_find?_eq_some hv, by simpa using List.find?_some hv⟩
  obtain ⟨x, hx, hid⟩ := List.mem_map.1 hk
  exact Option.isSome_iff_exists.1 (List.find?_isSome.2 ⟨x, hx, by simpa using hid⟩)

theorem State.thread_congr {s t : State} {w : WaveId} (h : (t.team w.team).waves = (s.team w.team).waves) (l : Fin 32) :
    t.thread w l = s.thread w l := by
  rw [State.thread, State.thread, State.wave, State.wave, Team.wave?, Team.wave?, h]

/-- What a debugger has written in a team's image of the threads of a mask, or of a team stopped whole, read back (R327). -/
def State.readBack (s : State) (w : WaveId) (m : LaneMask) : State :=
  if s.allStopped w.team then s.readTeam w.team (s.jobOf w).part (s.jobOf w).card.named
  else s.readThreads w m (s.jobOf w).part (s.jobOf w).card.named

theorem State.Rereads.readBack (s : State) (w : WaveId) (m : LaneMask) : Rereads w.team s (s.readBack w m) := by
  unfold State.readBack
  split
  · exact readTeam s _ _
  · exact readThreads s rfl m _ _

/-- A change of a team with an image is made of the team as it is read back, and then written. -/
theorem State.inImage_some {s : State} {w : WaveId} {m : LaneMask} {f : State → State}
    (h : (s.team w.team).image ≠ none) : ∃ x, x = f (s.readBack w m) ∧ ∃ part named stop held,
      s.inImage w m f = (x.writeImage (x.team w.team) part named stop held).2 := by
  generalize hy : s.inImage w m f = y
  unfold State.inImage at hy
  extract_lets j x at hy
  have hx : x = f (s.readBack w m) := rfl
  clear_value x
  -- The name is hidden while the case is chosen: else the kernel works the image out, which takes it seconds.
  obtain ⟨write, hwrite⟩ : ∃ write, write = @State.writeImage := ⟨_, rfl⟩
  rw [← hwrite] at hy ⊢
  generalize (s.team w.team).image = image at hy h
  cases image with
  | none => exact absurd rfl h
  | some i => exact ⟨x, hx, _, _, _, _, hy.symm⟩

/-- Where a team has an image, the waves are those of the change of the team as it is read back. -/
theorem State.waves_inImage {s : State} {w : WaveId} {m : LaneMask} {f : State → State} {u : Team}
    (hu : s.team? w.team = some u) (hi : u.image ≠ none) (hf : ∀ x, Rereads w.team x (f x)) :
    ((s.inImage w m f).team w.team).waves = ((f (s.readBack w m)).team w.team).waves := by
  obtain ⟨x, rfl, part, named, stop, held, heq⟩ := inImage_some (s := s) (w := w) (m := m) (f := f) (by rwa [team_of_team? hu])
  obtain ⟨x, hx, himg, -⟩ := ((Rereads.readBack s w m).trans (hf _)).own u hu
  have hne : ((f (s.readBack w m)).team w.team).image ≠ none := by rwa [team_of_team? hx, himg]
  have hw := waves_writeImage (s := f (s.readBack w m)) (part := part) (named := named) (stop := stop) (held := held) hne
  rwa [team_id, ← heq] at hw

theorem State.Rereads.entered (s : State) (w : WaveId) (m : LaneMask) (h : Word) (cause : W32) (epc : Word) :
    Rereads w.team s (s.entered w m h cause epc) := modLanes s rfl m _

section Entry

variable {s : State} {w : WaveId} {m : LaneMask} {code sub : Nat} {epc : Word} {u : Team} {v : Wave} {l : Fin 32}

/-- In a team without an image each thread of the group enters as it stands, and no other changes. -/
theorem State.thread_enterHandler_noImage (hu : s.team? w.team = some u) (hv : u.wave? w.uid = some v)
    (hi : u.image = none) :
    (s.enterHandler w m code sub epc).thread w l =
      if LaneMask.has m l then
        v.lanes[l].entering (s.jobOf w).card.handler (w32 (code + sub * 2 ^ 16)) epc s.now
      else v.lanes[l] := by
  rw [enterHandler_eq, inImage_none (by rwa [team_of_team? hu])]
  exact thread_modLanes l hu hv

/-- Each thread of the group enters, as it stands or as a debugger has left it in the image. -/
theorem State.thread_enterHandler (hu : s.team? w.team = some u) (hv : u.wave? w.uid = some v)
    (hl : LaneMask.has m l = true) :
    ∃ t : Thread, ∃ now, (s.enterHandler w m code sub epc).thread w l =
      t.entering (s.jobOf w).card.handler (w32 (code + sub * 2 ^ 16)) epc now := by
  by_cases hi : u.image = none
  · exact ⟨_, _, (thread_enterHandler_noImage hu hv hi).trans (if_pos hl)⟩
  · obtain ⟨x, hx, -, hux⟩ := (Rereads.readBack s w m).own u hu
    obtain ⟨y, hy⟩ := Team.wave?_of_uids hux hv
    rw [enterHandler_eq, thread_congr (waves_inImage hu hi fun x => Rereads.entered x w m _ _ _)]
    exact ⟨_, _, (thread_modLanes l hx hy).trans (if_pos hl)⟩

end Entry

/-- Settles O57: a fault by where it is routed; entry by what the group's threads were, read back from the image where the
team has one. -/
theorem handlerEntry : Obligations.HandlerEntry := by
  unfold Obligations.HandlerEntry
  refine ⟨fun s w m epc after blk e => ?routed, fun s w m epc after blk e hx => State.raise_parked (Exc.parks_iff.2 hx),
    fun s w m code sub epc u v l hu hv => ?entry⟩
  case routed =>
    intro t inside handler hp
    have hr := State.raise_unparked (s := s) (w := w) (m := m) (epc := epc) (after := after) (blk := blk) hp
    refine ⟨fun hh hin u ok hrep => ?_, fun hends => ?_⟩
    · rw [hr, if_pos ⟨hh, hin⟩]
      have ht : s.faulted w m after blk e = t := rfl
      rw [ht, hrep]
      cases ok <;> rfl
    · refine hr.trans (if_neg ?_)
      rintro ⟨hh, hin⟩
      exact hends.elim hh hin
  case entry =>
    intro t h
    refine ⟨fun hl => ?_, fun hi hl => ?_, fun hi hl => ?_⟩
    · obtain ⟨x, now, hx⟩ := State.thread_enterHandler (code := code) (sub := sub) (epc := epc) hu hv hl
      have ht : t = x.entering h (w32 (code + sub * 2 ^ 16)) epc now := hx
      rw [ht]
      exact ⟨rfl, rfl, rfl, rfl, rfl, rfl, rfl⟩
    · exact (State.thread_enterHandler_noImage hu hv hi).trans (if_pos hl)
    · exact (State.thread_enterHandler_noImage hu hv hi).trans (if_neg (ne_true_of_eq_false hl))

/-! ## The execution model: what a step runs -/

/-- R393: what a run comes to that its first instruction begins. -/
theorem State.begins_go (x : State) (r : Run) (i : Instr) :
    (x.fusion r i = .apart → (x.begins r i).go = exec i x) ∧
      (x.fusion r i = .waits → (x.begins r i).go = .next (x.putRun { r with suspended := true })) ∧
      ∀ e, x.fusion r i = .faults e → (x.begins r i).go = .next (x.raiseRun r e) := by
  unfold State.begins
  refine ⟨fun h => ?_, fun h => ?_, fun e h => ?_⟩ <;> rw [h] <;> rfl

/-- R98: a run whose words pass the checks begins with the first instruction that they decode to. -/
theorem State.beginRun_of_decoded {u v : State} {w : WaveId} {m : LaneMask} {r : Run} {pc : Word} {ws : List W32}
    {text : List (Word × List W32)} {i : Instr} {n : Nat}
    (hfetch : State.fetchText (u.xctx w) (wordsAfter r.blk (w64 (u.headerLen (u.xctx w) r.blk))) 25 r.start u =
      .ok ((pc, ws) :: text, v))
    (hbad : v.textBad w m (wordsAfter r.blk (w64 (u.headerLen (u.xctx w) r.blk))) 0 r.holds ((pc, ws) :: text) = none)
    (hdec : decodeWords ws = .ok (i, n)) :
    u.beginRun w m r = State.begins { v with runs := r :: v.runs, focus := .simt } r i := by
  simp only [State.beginRun, hfetch, hbad, hdec]

/-- R326, R328: where no debugger's stop is due, a group that stands at no header begins its run. -/
theorem State.startRun_of_inside {t : State} {w : WaveId} {m : LaneMask} (hstep : t.stepsHere w m = 0)
    (hbreak : t.breakAt w m ((t.wave w).runOf w m).start = 0)
    (hpc : (t.wave w).lanes[lowestLane m].pc ≠ ((t.wave w).runOf w m).blk) :
    t.startRun w m = t.beginRun w m ((t.wave w).runOf w m) := by
  simp only [State.startRun, hstep, hbreak, if_neg hpc, ne_eq, not_true_eq_false, if_false]

/-- R35: where no debugger's stop is due, a group that stands at a sound header begins its run. -/
theorem State.startRun_of_header {t u : State} {w : WaveId} {m : LaneMask} (hstep : t.stepsHere w m = 0)
    (hbreak : t.breakAt w m ((t.wave w).runOf w m).start = 0)
    (hpc : (t.wave w).lanes[lowestLane m].pc = ((t.wave w).runOf w m).blk)
    (hhead : t.headerBad (t.xctx w) ((t.wave w).runOf w m).blk m = (u, none)) :
    t.startRun w m = u.beginRun w m ((t.wave w).runOf w m) := by
  simp only [State.startRun, hstep, hbreak, if_pos hpc, hhead, ne_eq, not_true_eq_false, if_false]

/-- R24: a run in progress, taken to the head of the list. -/
def State.heading (s : State) (r : Run) : State := { s with runs := r :: s.runs.erase r, focus := .simt }

/-- A run in progress goes on with the instruction that the words at its address decode to. -/
theorem State.stepRun_of_decoded {s u : State} {r : Run} {ws : List W32} {i : Instr} {n : Nat}
    (hfetch : (s.heading r).fetchInstr ((s.heading r).xctx r.wave) r.pc = .ok (ws, u))
    (hdec : decodeWords ws = .ok (i, n)) : s.stepRun r = u.begins r i := by
  unfold State.heading at hfetch
  simp only [State.stepRun, hfetch, hdec]

/-- An input from outside runs first on a device that is not frozen, and then time passes. -/
theorem step_input {s : State} {i : Instr} {rest : List Instr} (hin : s.inputs = i :: rest) (hext : Instr.external i = true)
    (hfrozen : s.frozen = false) : step s = afterTime (exec i { s with inputs := rest }) := by
  simp only [step, hin, State.takeInput, hext, hfrozen, Bool.not_false, Bool.true_or, Bool.and_self, if_true]

/-- A booted device that is not frozen performs the move that is chosen, and then time passes. -/
theorem step_move {s : State} {move : Move} (hin : s.inputs = []) (hfrozen : s.frozen = false) (hboot : s.boot = .done)
    (hpick : choose (s.pickNo 0 0) s.moves = some move) : step s = afterTime ((s.asking move).perform move) := by
  simp only [step, hin, State.ownMove, hfrozen, hboot, hpick, ne_eq, not_true_eq_false, decide_false, Bool.or_self,
    Bool.false_eq_true, if_false]

/-- R211: a stream program that has a next instruction runs it. -/
theorem State.perform_stream {a : State} {t : TeamId} {u : Team} {i : Instr} (hteam : a.team? t = some u)
    (hnext : (a.strNext u).2 = some i) : a.perform (.stream t) = exec i { a with focus := .stream t } := by
  simp only [State.perform, hteam, hnext]

/-- Settles O49: an input or the chosen move is one outcome of `exec` or of a move of its own, and time passes after it. -/
theorem stepRunsDecoded : Obligations.StepRunsDecoded := by
  unfold Obligations.StepRunsDecoded
  refine ⟨fun s i rest => step_input, fun s move hin hfrozen hboot hpick => ?_⟩
  have hstep := step_move hin hfrozen hboot hpick
  extract_lets a
  refine ⟨?issue, ?run, ?stream, ?enter, ?ahead, ?answer, ?event⟩
  case issue =>
    rintro w m rfl t r heads u v pc ws text i n hsteps hbreak hhead c stop hfetch hbad hdec x
    have hgo : t.startRun w m = x.begins r i := by
      rw [← State.beginRun_of_decoded hfetch hbad hdec]
      rcases hhead with ⟨hpc, hsound⟩ | ⟨hpc, rfl⟩
      · exact State.startRun_of_header hsteps hbreak hpc hsound
      · exact State.startRun_of_inside hsteps hbreak hpc
    have hperf : a.perform (.issue w m) = (x.begins r i).go := congrArg Start.go hgo
    rw [hstep, show s.asking (.issue w m) = a from rfl, hperf]
    obtain ⟨hapart, hwaits, hfaults⟩ := x.begins_go r i
    exact ⟨fun h => congrArg afterTime (hapart h), fun h => congrArg afterTime (hwaits h),
      fun e h => congrArg afterTime (hfaults e h)⟩
  case run =>
    rintro r rfl t u ws i n hfetch hdec
    have hperf : a.perform (.run r) = (u.begins r i).go := congrArg Start.go (State.stepRun_of_decoded hfetch hdec)
    rw [hstep, show s.asking (.run r) = a from rfl, hperf]
    obtain ⟨hapart, hwaits, hfaults⟩ := u.begins_go r i
    exact ⟨fun h => congrArg afterTime (hapart h), fun h => congrArg afterTime (hwaits h),
      fun e h => congrArg afterTime (hfaults e h)⟩
  case stream =>
    rintro t u i rfl hteam hnext
    rw [hstep, ← State.perform_stream hteam hnext]
  case enter => rintro t h rfl; exact hstep
  case ahead => rintro k rfl; exact hstep
  case answer => rintro rfl; exact hstep
  case event => rintro i rfl; exact hstep

/-! ## The execution model: the instructions of the ALU class -/

/-! ### The registers that a rule writes -/

/-- R49, R53: the registers of a lane that a result for a destination leaves. -/
structure Regs.OnlyDst (d : Dst) (regs x : Regs) : Prop where
  m      : x.m = regs.m
  lc     : x.lc = regs.lc
  fpstat : x.fpstat = regs.fpstat
  fpen   : x.fpen = regs.fpen
  gstat  : x.gstat = regs.gstat
  q      : d ≠ .push → x.q = regs.q
  n      : ∀ k : Fin 32, d ≠ .n k → x.n[k] = regs.n[k]

/-- A change of one named register leaves the others. -/
theorem Regs.onlyDst_set (regs : Regs) (k : Fin 32) (v : Val) :
    Regs.OnlyDst (.n k) regs { regs with n := regs.n.set k v } :=
  ⟨rfl, rfl, rfl, rfl, rfl, fun _ => rfl, fun j hj =>
    Vector.getElem_set_ne k.isLt j.isLt fun h => hj (congrArg Dst.n (Fin.ext h))⟩

/-- A push leaves every named register. -/
theorem Regs.onlyDst_push (regs : Regs) (q : Vector Val 16) : Regs.OnlyDst .push regs { regs with q := q } :=
  ⟨rfl, rfl, rfl, rfl, rfl, fun h => absurd rfl h, fun _ _ => rfl⟩

theorem Regs.onlyDst_refl (d : Dst) (regs : Regs) : Regs.OnlyDst d regs regs :=
  ⟨rfl, rfl, rfl, rfl, rfl, fun _ => rfl, fun _ _ => rfl⟩

theorem Regs.put_onlyDst (regs : Regs) (d : Dst) (w : Width) (m : BitVec 8) (v : Val) :
    Regs.OnlyDst d regs (regs.put d w m v) := by
  cases d with
  | void => exact onlyDst_refl _ _
  | push => exact onlyDst_push _ _
  | n k => exact onlyDst_set _ _ _

theorem Regs.putOver_onlyDst (regs : Regs) (d : Dst) (f : Val → Val) : Regs.OnlyDst d regs (regs.putOver d f) := by
  cases d with
  | void => exact onlyDst_refl _ _
  | push => exact onlyDst_push _ _
  | n k => exact onlyDst_set _ _ _

/-- R418: MOVM to a mask writes that mask and no other register. -/
theorem Regs.setM_frame (regs : Regs) (k : Fin 8) (v : BitVec 8) :
    regs.setM k v = { regs with m := (regs.setM k v).m } ∧ ∀ j : Fin 8, j ≠ k → (regs.setM k v).m[j] = regs.m[j] := by
  unfold Regs.setM
  split
  · exact ⟨rfl, fun _ _ => rfl⟩
  · exact ⟨rfl, fun j hj => Vector.getElem_set_ne k.isLt j.isLt fun h => hj (Fin.ext h.symm)⟩

/-! ### Instructions and their rules -/

/-- A rule describes its instruction that completes it and, unless that is MOVM to a mask, writes its destination and no other
register of a lane. -/
structure AluRule.Describes (g : AluRule) (i : Instr) : Prop where
  completes : g.Completes i
  onlyDst   : (∀ k w f, i ≠ .movm k false w f) → g.OnlyDst

theorem AluRule.Completes.describes {g : AluRule} {i : Instr} (h : g.Completes i)
    (hput : ∀ s r sh l regs, Regs.OnlyDst sh.dst regs (g.put s r sh l regs)) : g.Describes i :=
  ⟨h, fun _ s r sh l regs => by
    obtain ⟨hm, hlc, hfpstat, hfpen, hgstat, hq, hn⟩ := hput s r sh l regs
    exact ⟨hm, hlc, hfpstat, hfpen, hgstat, hq, hn⟩⟩

/-- A rule completes its instruction where the body is done with the rule's run in every clean state. -/
theorem AluRule.completes_of_done {g : AluRule} {i : Instr} {body : State → Run → Shape → Body}
    (he : ∀ s r, s.runs.head? = some r → exec i s = execute s i (g.tys s r) body)
    (hb : ∀ s r sh, g.Clean s r sh → body s r sh = .done s (g.run s r sh) .goOn) : g.Completes i :=
  fun s r _ hr hc hf => (he s r hr.inHand).trans (execute_plain hr (hb _ _ _ hc) hf)

/-- A rule whose results go to the destination describes its instruction where the body is the rule's own. -/
theorem AluRule.describes_of_body {g : AluRule} {i : Instr} {body : State → Run → Shape → Body}
    (he : ∀ s r, s.runs.head? = some r → exec i s = execute s i (g.tys s r) body)
    (hput : ∀ s r sh l regs, Regs.OnlyDst sh.dst regs (g.put s r sh l regs))
    (hb : ∀ s r sh, body s r sh = g.body s r sh) : g.Describes i := (governs_of_body he hb).1.describes hput

theorem subRule_describes {t : ITy} {g : SubRule} {k : Nat → Nat → Nat → Nat} {i : Instr}
    (he : ∀ s, exec i s = intOp i t k s)
    (hk : ∀ {a b c : Nat}, a < 2 ^ t.width.bits → b < 2 ^ t.width.bits → c < 2 ^ t.width.bits →
      k a b c = (g t.width.bits (BitVec.ofNat _ a) (BitVec.ofNat _ b) (BitVec.ofNat _ c)).toNat) :
    (subRule t g).Describes i :=
  (governs_sub he hk).1.describes fun _ _ _ _ regs => regs.put_onlyDst ..

theorem roundRule_describes {t : FTy} {g : Nat → Nat → Nat → Rnd} {i : Instr} (he : ∀ s, exec i s = fltOp i t g s) :
    (roundRule (.flt t) g).Describes i :=
  (governs_round he).1.describes fun _ _ _ _ regs => regs.put_onlyDst ..

theorem codesRule_describes {t : FTy} {g : Nat → Nat → Nat → Nat} {i : Instr}
    (he : ∀ s, exec i s = aluOp i (.flt t) (perSub t.width g) s) :
    (roundRule (.flt t) fun a b c => ⟨g a b c, 0⟩).Describes i :=
  (governs_codes he).1.describes fun _ _ _ _ regs => regs.put_onlyDst ..

theorem copyRule_describes {t : Ty} {i : Instr}
    (he : ∀ s, exec i s = execute s i [t] (aluBody [t] t.width t.width true false movLane)) : (copyRule t).Describes i :=
  AluRule.describes_of_body (fun s _ _ => he s) (fun _ _ _ _ regs => regs.put_onlyDst ..) fun s r sh => by
    simp only [aluBody, AluRule.body, copyRule, Bool.not_true, Bool.and_false, Bool.false_and]
    rfl

theorem selRule_describes (t : ITy) (f : Alu) : (selRule t).Describes (.sel t f) :=
  AluRule.describes_of_body (fun _ _ _ => rfl) (fun _ _ _ _ regs => regs.put_onlyDst ..) fun _ _ _ => rfl

theorem permRule_describes (t : Ty) (f : Alu) : (permRule t).Describes (.perm t f) :=
  AluRule.describes_of_body (fun _ _ _ => rfl) (fun _ _ _ _ regs => regs.put_onlyDst ..) fun _ _ _ => rfl

theorem movmRule_describes (k : Fin 8) (toReg : Bool) (w : Width) (f : Alu) :
    (movmRule k toReg w).Describes (.movm k toReg w f) := by
  cases toReg with
  | false =>
    exact ⟨AluRule.completes_of_done (fun _ _ _ => rfl) fun _ _ _ hc =>
        (if_neg (not_not.2 (noBad hc.1))).trans (finishPut_clean hc.2),
      fun h => absurd rfl (h k w f)⟩
  | true => exact AluRule.describes_of_body (fun _ _ _ => rfl) (fun _ _ _ _ regs => regs.put_onlyDst ..) fun _ _ _ => rfl

theorem movsRule_describes (code : Fin 64) (f : Alu) : (movsRule code).Describes (.movs code f) :=
  (AluRule.completes_of_done (fun _ _ _ => rfl) fun _ _ _ hc => finishPut_clean hc.2).describes
    fun _ _ _ _ regs => regs.put_onlyDst ..

theorem reduceRule_describes (op : RedOp) (t : Ty) (f : Alu) :
    (reduceRule op t (Mode.ofRm f.rm)).Describes (.red op t f) :=
  AluRule.describes_of_body (fun _ _ _ => rfl) (fun _ _ _ _ regs => regs.put_onlyDst ..) fun _ _ _ => rfl

theorem scanRule_describes (op : RedOp) (excl : Bool) (t : Ty) (f : Alu) :
    (scanRule op excl t (Mode.ofRm f.rm)).Describes (.scan op excl t f) :=
  AluRule.describes_of_body (fun _ _ _ => rfl) (fun _ _ _ _ regs => regs.put_onlyDst ..) fun _ _ _ => rfl

theorem cvtRule_describes (dst src : Ty) (p : Fin 4) (f : Alu) :
    (cvtRule dst src p.val (Mode.ofRm f.rm)).Describes (.cvt dst src p f) :=
  AluRule.describes_of_body (fun _ _ _ => rfl) (fun _ _ _ _ regs => regs.putOver_onlyDst ..) fun _ _ _ => rfl

theorem qscaleRule_describes (fs : Fin 8) (f : Alu) : (qscaleRule fs).Describes (.qscale fs f) :=
  AluRule.describes_of_body (fun _ _ _ => rfl) (fun _ _ _ _ regs => regs.put_onlyDst ..) fun _ _ _ => rfl

/-- The types that an instruction of a slot reads its sources in are those of the slot of the run in hand (R449). -/
theorem slotTys_of_head {s : State} {r : Run} (h : s.runs.head? = some r) (fs : Fin 8) (a : Ty) :
    slotTys s fs a = [a, scaleTy (s.slotOf r fs)] := by
  simp only [slotTys, h]

theorem qpackRule_describes (fs : Fin 8) (f : Alu) : (qpackRule fs).Describes (.qpack fs f) :=
  AluRule.describes_of_body (fun s _ h => congrArg (execute s _ · _) (slotTys_of_head h fs _))
    (fun _ _ _ _ regs => regs.putOver_onlyDst ..) fun _ _ _ => rfl

theorem qunpackRule_describes (fs : Fin 8) (f : Alu) : (qunpackRule fs).Describes (.qunpack fs f) :=
  AluRule.describes_of_body (fun s _ h => congrArg (execute s _ · _) (slotTys_of_head h fs _))
    (fun _ _ _ _ regs => regs.put_onlyDst ..) fun _ _ _ => rfl

theorem bpsplitRule_describes (fs : Fin 8) (f : Alu) : (bpsplitRule fs).Describes (.bpsplit fs f) :=
  AluRule.describes_of_body (fun _ _ _ => rfl) (fun _ _ sh _ regs => regs.putOver_onlyDst sh.dst fun _ => _) fun _ _ _ => rfl

theorem bpjoinRule_describes (fs : Fin 8) (f : Alu) : (bpjoinRule fs).Describes (.bpjoin fs f) :=
  AluRule.describes_of_body (fun _ _ _ => rfl) (fun _ _ _ _ regs => regs.put_onlyDst ..) fun _ _ _ => rfl

theorem has_and (a b : LaneMask) (l : Fin 32) : LaneMask.has (a &&& b) l = (LaneMask.has a l && LaneMask.has b l) := by
  simp [LaneMask.has]

theorem matchRule_describes (t : Ty) (f : Alu) : (matchRule t).Describes (.matchI t f) :=
  AluRule.describes_of_body (fun _ _ _ => rfl) (fun _ _ _ _ regs => regs.put_onlyDst ..) fun s r sh => by
    simp only [matchBody, finishWhole, has_maskWhere]
    rfl

/-- R442: the lanes whose condition contributes are those that VOTE counts. -/
theorem voters_eq (s : State) (r : Run) (sh : Shape) :
    (maskWhere fun l => LaneMask.has r.group l && (s.laneIn r sh [tyW64] l).mask.getLsbD 0) &&& s.givers r sh =
      maskWhere (votes s r sh) :=
  mask_ext fun l => by rw [has_and, has_maskWhere, has_maskWhere]; rfl

/-- A lane whose condition is true contributes. -/
theorem votesYes_votes {s : State} {r : Run} {sh : Shape} {l : Fin 32} (h : votesYes s r sh l = true) :
    votes s r sh l = true := ((Bool.and_eq_true _ _).mp h).1

/-- R442: every contributing condition is true. -/
theorem voteAll_iff (s : State) (r : Run) (sh : Shape) :
    maskWhere (votes s r sh) = maskWhere (votesYes s r sh) ↔ ∀ k, votes s r sh k = true → votesYes s r sh k = true := by
  refine ⟨fun h k hk => ?_, fun h => mask_ext fun k => ?_⟩
  · rwa [← has_maskWhere (votesYes s r sh), ← h, has_maskWhere]
  · rw [has_maskWhere, has_maskWhere, Bool.eq_iff_iff]
    exact ⟨h k, votesYes_votes⟩

/-- R442: some contributing condition is true. -/
theorem voteAny_iff (s : State) (r : Run) (sh : Shape) :
    maskWhere (votesYes s r sh) ≠ 0 ↔ ∃ k, votesYes s r sh k = true := by
  rw [ne_eq, maskWhere_eq_zero]
  simp only [not_forall, Bool.not_eq_false]

/-- R442: what VOTE gives is the word of the lanes that its rule counts. -/
theorem voteRule_put (fn : VoteFn) (s : State) (r : Run) (sh : Shape) (l : Fin 32) (regs : Regs) :
    (voteRule fn).put s r sh l regs = regs.put sh.dst .b64 (if voted r sh l then 1 else 0)
      ⟨voteWord fn (maskWhere (votes s r sh)) (maskWhere (votesYes s r sh)), 0⟩ := by
  refine congrArg (fun v => regs.put sh.dst .b64 _ ⟨v, 0⟩) ?_
  cases fn with
  | all => exact if_congr (voteAll_iff s r sh).symm rfl rfl
  | any => exact if_congr (voteAny_iff s r sh).symm rfl rfl
  | ballot => rfl
  | uniform =>
    refine if_congr ?_ rfl rfl
    rw [← voteAll_iff, Bool.or_eq_true, decide_eq_true_eq, decide_eq_true_eq, maskWhere_eq_zero]

/-- R442: the lanes of the contributing ones whose condition is true. -/
theorem votersYes_eq (s : State) (r : Run) (sh : Shape) :
    (maskWhere fun l => LaneMask.has (maskWhere (votes s r sh)) l && low32 (s.laneIn r sh [tyW64] l).a ≠ 0) =
      maskWhere (votesYes s r sh) :=
  mask_ext fun l => by rw [has_maskWhere, has_maskWhere, has_maskWhere]; rfl

theorem voteRule_completes (fn : VoteFn) (f : Alu) : (voteRule fn).Completes (.vote fn f) :=
  AluRule.completes_of_done (fun _ _ _ => rfl) fun s r sh hc => by
    have hclean : maskWhere (fun l => LaneMask.has (maskWhere (votes s r sh)) l &&
        ((s.laneIn r sh [tyW64] l).ops.getD 0 Val.zero).poisoned .b32 1) = 0 := by
      refine maskWhere_eq_zero.2 fun l => ?_
      rw [has_maskWhere]
      cases hv : votes s r sh l with
      | false => rfl
      | true =>
        have hbad := hc.1 l (Bool.and_eq_true _ _ |>.mp (Bool.and_eq_true _ _ |>.mp hv).1).1
        rwa [show (voteRule fn).bad s r sh l = (votes s r sh l && _) from rfl, hv] at hbad
    simp only [voteBody, voters_eq, votersYes_eq, hclean, ne_eq, not_true_eq_false, if_false]
    refine (finishPut_clean hc.2).trans (congrArg (Body.done s · .goOn) (write_congr (fun _ _ => rfl) fun l _ => ?_))
    funext regs
    simp only [voteRule_put, has_maskWhere]
    rfl

theorem Run.group_of_active {r : Run} {sh : Shape} {l : Fin 32} (h : LaneMask.has (r.active sh) l = true) :
    LaneMask.has r.group l = true := by
  simp only [Run.active] at h
  split at h
  · exact h
  · exact h
  · rw [has_maskWhere] at h
    exact ((Bool.and_eq_true _ _).mp h).1

theorem hashbRule_completes (kin : Fin 8) (proj : Fin 16) (f : Eng) :
    (hashbRule kin proj ((f.n.map Fin.val).getD 0)).Completes (.hashb kin proj f) :=
  AluRule.completes_of_done (fun _ _ _ => rfl) fun s r sh hc => by
    refine if_neg (not_not.2 (maskWhere_eq_zero.2 fun l => ?_))
    cases hact : LaneMask.has (r.active sh) l with
    | false => rfl
    | true =>
      have hbad := hc.1 l (Run.group_of_active hact)
      rwa [show AluRule.bad _ s r sh l = (LaneMask.has (r.active sh) l && _) from rfl, hact] at hbad

/-- Every instruction of the ALU class is described by its rule. -/
theorem describes_of_aluRule {i : Instr} {g : AluRule} (h : aluRule i = some g) : g.Describes i := by
  unfold aluRule at h
  split at h <;> cases h
  next t f => exact subRule_describes (i := .iadd false t f) (fun _ => rfl) fun ha hb _ => iaddF_eq ha hb
  next t f => exact subRule_describes (i := .iadd true t f) (fun _ => rfl) fun ha hb _ => iaddSatF_eq ha hb
  next t f => exact subRule_describes (i := .isub false t f) (fun _ => rfl) fun ha hb _ => isubF_eq ha hb
  next t f => exact subRule_describes (i := .isub true t f) (fun _ => rfl) fun ha hb _ => isubSatF_eq ha hb
  next t f => exact subRule_describes (i := .imul t f) (fun _ => rfl) fun ha hb _ => imulF_eq ha hb
  next t f => exact subRule_describes (i := .imulh t f) (fun _ => rfl) fun ha hb _ => imulhF_eq ha hb
  next t f => exact subRule_describes (i := .imad t f) (fun _ => rfl) fun ha hb hc => imadF_eq ha hb hc
  next t f => exact subRule_describes (i := .imin t f) (fun _ => rfl) fun ha hb _ => iminF_eq ha hb
  next t f => exact subRule_describes (i := .imax t f) (fun _ => rfl) fun ha hb _ => imaxF_eq ha hb
  next w f => exact subRule_describes (i := .iabs w f) (fun _ => rfl) fun ha _ _ => iabsF_eq ha
  next w f => exact subRule_describes (i := .ineg w f) (fun _ => rfl) fun ha _ _ => inegF_eq ha
  next cc t f => exact subRule_describes (i := .icmp cc t f) (fun _ => rfl) fun ha hb _ => by classical exact icmpF_eq ha hb
  next sg k f => exact subRule_describes (i := .lea sg k f) (fun _ => rfl) fun _ _ _ => leaF_eq
  next t f => exact subRule_describes (i := .iaddS t f) (fun _ => rfl) fun ha hb _ => iaddF_eq ha hb
  next t f => exact subRule_describes (i := .isubS t f) (fun _ => rfl) fun ha hb _ => isubF_eq ha hb
  next t f => exact subRule_describes (i := .imulS t f) (fun _ => rfl) fun ha hb _ => imulF_eq ha hb
  next t f => exact subRule_describes (i := .iminS t f) (fun _ => rfl) fun ha hb _ => iminF_eq ha hb
  next t f => exact subRule_describes (i := .imaxS t f) (fun _ => rfl) fun ha hb _ => imaxF_eq ha hb
  next t f => exact subRule_describes (i := .andI t f) (fun _ => rfl) fun ha hb _ => andF_eq ha hb
  next t f => exact subRule_describes (i := .andn t f) (fun _ => rfl) fun ha hb _ => andnF_eq ha hb
  next t f => exact subRule_describes (i := .orI t f) (fun _ => rfl) fun ha hb _ => orF_eq ha hb
  next t f => exact subRule_describes (i := .xorI t f) (fun _ => rfl) fun ha hb _ => xorF_eq ha hb
  next t f => exact subRule_describes (i := .notI t f) (fun _ => rfl) fun ha _ _ => notF_eq ha
  next t f => exact subRule_describes (i := .shl t f) (fun _ => rfl) fun ha hb _ => shlF_eq ha hb
  next t f => exact subRule_describes (i := .shr t f) (fun _ => rfl) fun ha hb _ => shrF_eq ha hb
  next t f => exact subRule_describes (i := .sar t f) (fun _ => rfl) fun ha hb _ => sarF_eq ha hb
  next t f => exact subRule_describes (i := .rol t f) (fun _ => rfl) fun ha hb _ => rolF_eq ha hb
  next t f => exact subRule_describes (i := .popc t f) (fun _ => rfl) fun ha _ _ => popcF_eq ha
  next t f => exact subRule_describes (i := .clz t f) (fun _ => rfl) fun ha _ _ => clzF_eq ha
  next t f => exact subRule_describes (i := .brev t f) (fun _ => rfl) fun ha _ _ => brevF_eq ha
  next t f => exact subRule_describes (i := .bfe t f) (fun _ => rfl) fun ha hb hc => bfeF_eq ha hb hc
  next t f => exact subRule_describes (i := .bfi t f) (fun _ => rfl) fun ha hb hc => bfiF_eq ha hb hc
  next t f => exact subRule_describes (i := .andS t f) (fun _ => rfl) fun ha hb _ => andF_eq ha hb
  next t f => exact subRule_describes (i := .orS t f) (fun _ => rfl) fun ha hb _ => orF_eq ha hb
  next t f => exact subRule_describes (i := .xorS t f) (fun _ => rfl) fun ha hb _ => xorF_eq ha hb
  next t f => exact subRule_describes (i := .shlS t f) (fun _ => rfl) fun ha hb _ => shlF_eq ha hb
  next t f => exact subRule_describes (i := .shrS t f) (fun _ => rfl) fun ha hb _ => shrF_eq ha hb
  next t f => exact roundRule_describes (i := .fadd t f) fun _ => rfl
  next t f => exact roundRule_describes (i := .fsub t f) fun _ => rfl
  next t f => exact roundRule_describes (i := .fmul t f) fun _ => rfl
  next t f => exact roundRule_describes (i := .ffma t f) fun _ => rfl
  next t f => exact roundRule_describes (i := .fmin t f) fun _ => rfl
  next t f => exact roundRule_describes (i := .fmax t f) fun _ => rfl
  next cc t f => exact roundRule_describes (i := .fcmp cc t f) fun _ => rfl
  next t f => exact codesRule_describes (i := .fclass t f) fun _ => rfl
  next t f => exact roundRule_describes (i := .frnd t f) fun _ => rfl
  next t f => exact codesRule_describes (i := .amax t f) fun _ => rfl
  next t f => exact roundRule_describes (i := .faddS t f) fun _ => rfl
  next t f => exact roundRule_describes (i := .fsubS t f) fun _ => rfl
  next t f => exact roundRule_describes (i := .fmulS t f) fun _ => rfl
  next t f => exact roundRule_describes (i := .fminS t f) fun _ => rfl
  next t f => exact roundRule_describes (i := .fmaxS t f) fun _ => rfl
  next t f => exact roundRule_describes (i := .frcp t f) fun _ => rfl
  next t f => exact roundRule_describes (i := .frsq t f) fun _ => rfl
  next t f => exact roundRule_describes (i := .fsqrt t f) fun _ => rfl
  next t f => exact roundRule_describes (i := .fexp2 t f) fun _ => rfl
  next t f => exact roundRule_describes (i := .flog2 t f) fun _ => rfl
  next t f => exact roundRule_describes (i := .fsin t f) fun _ => rfl
  next t f => exact roundRule_describes (i := .fcos t f) fun _ => rfl
  next t f => exact roundRule_describes (i := .ftanh t f) fun _ => rfl
  next t f => exact roundRule_describes (i := .fsigm t f) fun _ => rfl
  next t f => exact selRule_describes t f
  next t f => exact permRule_describes t f
  next t f => exact copyRule_describes (i := .mov t f) fun _ => rfl
  next f => exact copyRule_describes (i := .movS f) fun _ => rfl
  next k w f => exact movmRule_describes k false w f
  next k w f => exact movmRule_describes k true w f
  next code f => exact movsRule_describes code f
  next op t f => exact reduceRule_describes op t f
  next op excl t f => exact scanRule_describes op excl t f
  next fn f => exact (voteRule_completes fn f).describes fun _ _ _ _ regs => regs.put_onlyDst ..
  next t f => exact matchRule_describes t f
  next dst src p f => exact cvtRule_describes dst src p f
  next fs f => exact qscaleRule_describes fs f
  next fs f => exact qpackRule_describes fs f
  next fs f => exact qunpackRule_describes fs f
  next fs f => exact bpsplitRule_describes fs f
  next fs f => exact bpjoinRule_describes fs f
  next kin proj f => exact (hashbRule_completes kin proj f).describes fun _ _ _ _ regs => regs.put_onlyDst ..

/-! ### The frame of an instruction whose run goes on -/

/-- A change of a wave's lanes that keeps a property of each thread keeps it in every wave that its team finds. -/
theorem Team.lane_mapWaves {α : Type} {p : Thread → α} {f : Wave → Wave} (hid : ∀ v, (f v).uid = v.uid)
    (hp : ∀ v (l : Fin 32), p (f v).lanes[l] = p v.lanes[l]) (t : Team) (uid k : Nat) (l : Fin 32) :
    p ((({ t with waves := t.waves.map fun v => if v.uid = uid then f v else v } : Team).wave? k).getD Wave.blank).lanes[l] =
      p ((t.wave? k).getD Wave.blank).lanes[l] := by
  by_cases h : k = uid
  · subst h
    rw [Team.wave?, find?_map_key (key := fun v : Wave => v.uid) (fun v hv => (hid v).trans hv), ← Team.wave?]
    cases t.wave? k with
    | none => rfl
    | some v => exact hp v l
  · rw [Team.wave?, find?_map_other (key := fun v : Wave => v.uid) h (fun v hv => (hid v).trans hv), ← Team.wave?]

/-- A change of lanes that keeps a property of each thread keeps it in every thread of the machine. -/
theorem State.thread_modLanes_keeps {α : Type} {p : Thread → α} {f : Fin 32 → Thread → Thread}
    (hp : ∀ l t, p (f l t) = p t) (s : State) (w : WaveId) (m : LaneMask) (u : WaveId) (l : Fin 32) :
    p ((s.modLanes w m f).thread u l) = p (s.thread u l) := by
  refine s.modTeam_keeps (p := fun t => p ((t.wave? u.uid).getD Wave.blank).lanes[l]) w.team (by intro; rfl) (fun t => ?_) u.team
  refine Team.lane_mapWaves (f := fun v => { v with lanes := v.lanes.mapFinIdx _ }) (fun _ => rfl) (fun v l => ?_) t w.uid u.uid l
  simp only [Fin.getElem_fin, Vector.getElem_mapFinIdx]
  split
  · exact hp _ _
  · rfl

/-- R176, R188: reading tokens changes nothing but threads' token notes and the lines that an acquire invalidates. -/
theorem State.tokenReads_eq (s : State) (r : Run) (sh : Shape) : s.tokenReads r sh =
    { s with teams := (s.tokenReads r sh).teams, l1 := (s.tokenReads r sh).l1, ccache := (s.tokenReads r sh).ccache } := by
  rcases tokenReads_cases s r sh with h | ⟨core, sig, m, h⟩
  · rw [h]
  · rw [h]
    rfl

theorem State.tokenReads_mem (s : State) (r : Run) (sh : Shape) : (s.tokenReads r sh).mem = s.mem := by
  rw [tokenReads_eq]

theorem State.tokenReads_scr (s : State) (r : Run) (sh : Shape) (k : TeamId) :
    ((s.tokenReads r sh).team k).scr = (s.team k).scr := by
  rcases tokenReads_cases s r sh with h | ⟨core, sig, m, h⟩
  · rw [h]
  · rw [h]
    exact State.scr_modTeam_of_keeps (s := s.acquire core sig) (by intro; rfl) (by intro; rfl) k

theorem State.tokenReads_thread {α : Type} {p : Thread → α}
    (hp : ∀ t : Thread, p { t with tokSig := none, tokReg := 0 } = p t) (s : State) (r : Run) (sh : Shape) (w : WaveId)
    (l : Fin 32) : p ((s.tokenReads r sh).thread w l) = p (s.thread w l) := by
  rcases tokenReads_cases s r sh with h | ⟨core, sig, m, h⟩
  · rw [h]
  · rw [h]
    exact State.thread_modLanes_keeps (fun _ => hp) (s.acquire core sig) r.wave m w l

/-- The rule's results go to the lanes of the group. -/
theorem Run.write_self (flags : Fin 32 → Flags) (put : Fin 32 → Regs → Regs) {r : Run} {l : Fin 32}
    (h : LaneMask.has r.group l = true) : (r.write flags put).spec[l] = put l r.spec[l] := by
  simp [Run.write, h]

/-- The lanes outside the group stay. -/
theorem Run.write_other (flags : Fin 32 → Flags) (put : Fin 32 → Regs → Regs) {r : Run} {l : Fin 32}
    (h : LaneMask.has r.group l = false) :
    (r.write flags put).spec[l] = r.spec[l] ∧ (r.write flags put).flags[l] = r.flags[l] := by
  simp [Run.write, h]

/-- R24, R29: an instruction of a rule whose run goes on leaves the rule's run in hand, and nothing else is changed but by
the reading of its tokens. -/
theorem AluRule.Completes.goesOn {g : AluRule} {i : Instr} {s : State} {r : Run} {sh : Shape} (h : g.Completes i)
    (hr : Ready s i r sh) (hc : g.Clean (s.tokenReads r sh) r sh) (he : s.endsHere r sh = false) :
    exec i s = .next { s.tokenReads r sh with
      runs := s.runAfter (g.tys s r) r sh (g.run (s.tokenReads r sh) r sh) :: s.runs.tail } := by
  have hgo := h s r sh hr hc fun ht => absurd (he.symm.trans ht) Bool.false_ne_true
  have hruns : (s.tokenReads r sh).runs = s.runs := by rw [State.tokenReads_eq]
  have hhead : s.runs = r :: s.runs.tail := (List.cons_head?_tail hr.inHand).symm
  simp only [State.afterPlain, State.afterOwn, he, Bool.false_eq_true, if_false, State.putRun] at hgo
  rw [hgo, hruns, hhead]
  rfl

/-- Settles O8: the rule's run goes on in hand, and reading tokens is all that happens to the rest of the machine. -/
theorem resultFrame : Obligations.ResultFrame := by
  unfold Obligations.ResultFrame
  refine ⟨fun i g s r sh hg hr hc he => ?_, fun i g hg hm => (describes_of_aluRule hg).onlyDst ?_,
    fun k w s r sh l regs => ?_⟩
  · have hgo := (describes_of_aluRule hg).completes.goesOn hr hc he
    refine ⟨_, _, hgo, rfl, rfl, rfl, rfl, rfl, rfl, fun a => ?_, s.tokenReads_scr r sh, fun w l => ⟨?_, ?_, ?_⟩, ?_,
      fun l => Run.write_other _ _, fun l => Run.write_self (g.flags (s.tokenReads r sh) r sh) _⟩
    · exact congrArg (Memory.read · a) (s.tokenReads_mem r sh)
    · exact State.tokenReads_thread (p := Thread.regs) (fun _ => rfl) s r sh w l
    · exact State.tokenReads_thread (p := Thread.pc) (fun _ => rfl) s r sh w l
    · exact State.tokenReads_thread (p := Thread.status) (fun _ => rfl) s r sh w l
    · rw [State.tokenReads_eq]
  · rintro k w f rfl
    exact hm
  · exact regs.setM_frame k _

end Sys2Proof.Machine

namespace Sys2Proof.Machine
open Sys2Proof

/-! ## Moves and selection -/

theorem selRule_governs (t : ITy) (f : Alu) : (selRule t).Governs (.sel t f) :=
  governs_of_body (fun _ _ _ => rfl) fun _ _ _ => rfl

theorem permRule_governs (t : Ty) (f : Alu) : (permRule t).Governs (.perm t f) :=
  governs_of_body (fun _ _ _ => rfl) fun _ _ _ => rfl

/-- R418: MOVM to a mask checks its source for poison before it writes. -/
theorem movmRule_toMask_governs (k : Fin 8) (w : Width) (f : Alu) :
    (movmRule k false w).Governs (.movm k false w f) :=
  governs_of_body (fun _ _ _ => rfl) fun _ _ _ => rfl

/-- Settles O5: the three that consume poison have the body of their rules, check included; the others complete as their
rules describe them. -/
theorem movesAndSelection : Obligations.MovesAndSelection := by
  unfold Obligations.MovesAndSelection
  exact ⟨fun t f => (selRule_governs t f).computes, fun t f => (permRule_governs t f).computes,
    fun t f => (copyRule_describes (i := .mov t f) fun _ => rfl).completes,
    fun f => (copyRule_describes (i := .movS f) fun _ => rfl).completes,
    fun k w f => (movmRule_toMask_governs k w f).computes,
    fun k w f => (movmRule_describes k true w f).completes,
    fun code f => (movsRule_describes code f).completes⟩

/-! ## Sub-elements under a mask (R54, R59) -/

/-- R54: bit i of a packed word is in the field that it falls into. -/
theorem testBit_packN {b : Nat} (hb : 0 < b) (vs : List Nat) (i : Nat) :
    (packN b vs).testBit i = (vs.getD (i / b) 0).testBit (i % b) := by
  induction vs generalizing i with
  | nil => simp [packN]
  | cons v vs ih =>
    rw [packN, Nat.add_comm, Nat.testBit_two_pow_mul_add _ (Nat.mod_lt _ (Nat.two_pow_pos b))]
    split
    next h => rw [Nat.div_eq_of_lt h, Nat.mod_eq_of_lt h, Nat.testBit_mod_two_pow]; simp [h]
    next h =>
      have hle : b ≤ i := Nat.le_of_not_lt h
      rw [ih, Nat.div_eq_sub_div hb hle, List.getD_cons_succ, Nat.mod_eq_sub_mod hle]

/-- A field of ones or zeros for each of n tests. -/
theorem testBit_packN_tests {b n : Nat} (hb : 0 < b) (p : Nat → Bool) {i : Nat} (hi : i / b < n) :
    (packN b ((List.range n).map fun j => if p j then 2 ^ b - 1 else 0)).testBit i = p (i / b) := by
  have hfield : i % b < b := Nat.mod_lt _ hb
  rw [testBit_packN hb, List.getD_eq_getElem?_getD, List.getElem?_map, List.getElem?_range hi]
  cases h : p (i / b) <;> simp [h, hfield]

theorem width_bits_pos (w : Width) : 0 < w.bits := by cases w <;> decide

/-- R54: the sub-elements of a width fill the dword. -/
theorem div_bits_lt_count (w : Width) {i : Nat} (hi : i < 64) : i / w.bits < w.count :=
  Nat.div_lt_of_lt_mul (lt_of_lt_of_eq hi (by cases w <;> rfl))

theorem getLsbD_spread (w : Width) (m : BitVec 8) {i : Nat} (hi : i < 64) :
    (spread w m).getLsbD i = m.getLsbD (i / w.bits) := by
  rw [spread, ofSubs, w64, BitVec.getLsbD_ofNat, testBit_packN_tests (width_bits_pos w) m.getLsbD (div_bits_lt_count w hi)]
  simp [hi]

theorem getLsbD_bytesMask (w : Width) (m : BitVec 8) {i : Nat} (hi : i < 8) :
    (bytesMask w m).getLsbD i = m.getLsbD (i / w.bytes) := by
  have hbit := testBit_packN_tests (n := 8) Nat.one_pos (fun j => m.getLsbD (j / w.bytes)) (i := i) (by simpa using hi)
  rw [Nat.div_one] at hbit
  rw [bytesMask, BitVec.getLsbD_ofNat]
  simpa [hi] using hbit

/-- Bits of the one word where a mask is set and of the other where it is clear. -/
theorem getLsbD_select {n : Nat} (x y m : BitVec n) {i : Nat} (hi : i < n) :
    ((x &&& m) ||| (y &&& ~~~m)).getLsbD i = if m.getLsbD i then x.getLsbD i else y.getLsbD i := by
  rw [BitVec.getLsbD_or, BitVec.getLsbD_and, BitVec.getLsbD_and, BitVec.getLsbD_not]
  cases m.getLsbD i <;> simp [hi]

/-- R59: an enabled sub-element is the new one, a disabled one the old. -/
theorem getLsbD_merge (w : Width) (m : BitVec 8) (new old : Word) {i : Nat} (hi : i < 64) :
    (merge w m new old).getLsbD i = if m.getLsbD (i / w.bits) then new.getLsbD i else old.getLsbD i := by
  rw [merge, getLsbD_select _ _ _ hi, getLsbD_spread w m hi]

theorem getLsbD_mergePoison (w : Width) (m new old : BitVec 8) {i : Nat} (hi : i < 8) :
    (mergePoison w m new old).getLsbD i = if m.getLsbD (i / w.bytes) then new.getLsbD i else old.getLsbD i := by
  rw [mergePoison, getLsbD_select _ _ _ hi, getLsbD_bytesMask w m hi]

/-- R49: over zero, a disabled sub-element is zero. -/
theorem getLsbD_merge_zero (w : Width) (m : BitVec 8) (new : Word) {i : Nat} (hi : i < 64) :
    (merge w m new 0).getLsbD i = (m.getLsbD (i / w.bits) && new.getLsbD i) := by
  rw [getLsbD_merge w m new 0 hi]
  cases m.getLsbD (i / w.bits) <;> simp

theorem getLsbD_mergePoison_zero (w : Width) (m new : BitVec 8) {i : Nat} (hi : i < 8) :
    (mergePoison w m new 0).getLsbD i = (m.getLsbD (i / w.bytes) && new.getLsbD i) := by
  rw [getLsbD_mergePoison w m new 0 hi]
  cases m.getLsbD (i / w.bytes) <;> simp

/-! ## The result queue (R49) -/

theorem pushQ_zero (q : Vector Val 16) (v : Val) : (pushQ q v)[0] = v := by simp [pushQ]

/-- A push moves every older result on by one. -/
theorem pushQ_shift (q : Vector Val 16) (v : Val) {k : Fin 16} (hk : 0 < k.val) :
    (pushQ q v)[k] = q[k.val - 1]'(by omega) := by
  simp only [pushQ, Fin.getElem_fin, Vector.getElem_ofFn, dif_neg (Nat.ne_of_gt hk)]

/-- R49, R59: a push puts the enabled sub-elements, and zeros for the disabled ones, in front. -/
theorem Regs.put_push_front (r : Regs) (w : Width) (m : BitVec 8) (v : Val) :
    (r.put .push w m v).q[0] = ⟨merge w m v.bits 0, mergePoison w m v.poison 0⟩ := pushQ_zero _ _

/-- R53, R59: a named destination is merged with what it held. -/
theorem Regs.put_named (r : Regs) (k : Fin 32) (w : Width) (m : BitVec 8) (v : Val) :
    (r.put (.n k) w m v).n[k] = ⟨merge w m v.bits r.n[k].bits, mergePoison w m v.poison r.n[k].poison⟩ :=
  Vector.getElem_set_self k.isLt

/-! ## Routes (R64) -/

theorem code_rot (p : BitVec 5) : Route.code (.rot p.toFin) = 0b01#2 ++ p := by revert p; decide

theorem code_bc (p : BitVec 5) : Route.code (.bc p.toFin) = 0b10#2 ++ p := by revert p; decide

theorem code_bfly (p : BitVec 5) : Route.code (.bfly p.toFin) = 0b11#2 ++ p := by revert p; decide

theorem code_idx (k : BitVec 4) : Route.code (.idx k.toFin) = 0b001#3 ++ k := by revert k; decide

/-- The code of a route reads as that route. -/
theorem routeOf_toOption {s : Route} {v : BitVec 7} (h : Route.code s = v) : (routeOf v).toOption = some s :=
  toOption_of_ok (h ▸ routeOf_code s)

theorem routeOf_reserved : ∀ x : BitVec 4, x ≠ 0 → (routeOf (0b000#3 ++ x)).toOption = none := by decide

/-- A rotation adds its distance around the 32 lanes. -/
theorem routeLane_rot (r : Regs) (l p : Fin 32) : (routeLane r l (.rot p)).val = (l.val + p.val) % 32 := Fin.val_add l p

theorem routeLane_bfly (r : Regs) (l p : Fin 32) : (routeLane r l (.bfly p)).val = l.val ^^^ p.val :=
  Nat.mod_eq_of_lt (Nat.xor_lt_two_pow (n := 5) l.isLt p.isLt)

/-- An indexed route takes its lane from the low five bits of the named register. -/
theorem routeLane_idx (r : Regs) (l : Fin 32) (k : Fin 16) :
    (routeLane r l (.idx k)).val = ((r.n[16 + k.val]'(by omega)).bits.extractLsb' 0 5).toNat := by
  simp [routeLane, BitVec.extractLsb'_toNat]

/-- Settles O53: a result is merged bit by bit under its mask, with zero in a push and with the old value in a named register;
the codes of routes are those that the encoder gives. -/
theorem resultQueue : Obligations.ResultQueue := by
  unfold Obligations.ResultQueue
  refine ⟨fun r w m v => ⟨?push, rfl, fun k => ?named⟩, rfl,
    fun p => ⟨routeOf_toOption (code_rot p), routeOf_toOption (code_bc p), routeOf_toOption (code_bfly p)⟩,
    fun k => routeOf_toOption (code_idx k), routeOf_reserved,
    fun r l => ⟨rfl, routeLane_rot r l, fun _ => rfl, routeLane_bfly r l, routeLane_idx r l⟩⟩
  case push =>
    extract_lets t
    have hfront : t.q[0] = _ := r.put_push_front w m v
    refine ⟨fun k => pushQ_shift r.q _, fun i hi => ?_, fun i hi => ?_, rfl⟩
    · rw [hfront, getLsbD_merge_zero w m v.bits hi]
    · rw [hfront, getLsbD_mergePoison_zero w m v.poison hi]
  case named =>
    extract_lets t
    have hk : t.n[k] = _ := r.put_named k w m v
    refine ⟨fun i hi => ?_, fun i hi => ?_, fun j hj => ?_, rfl⟩
    · rw [hk, getLsbD_merge w m _ _ hi]
    · rw [hk, getLsbD_mergePoison w m _ _ hi]
    · exact (r.put_onlyDst (.n k) w m v).n j fun h => hj (Dst.n.inj h).symm

end Sys2Proof.Machine

namespace Sys2Proof.Machine

open Sys2Proof

/-! ## Loads -/

/-- The checks of an access change what its translation changes. -/
theorem State.spot_walks {s t : State} {r : Run} {l : Fin 32} {sp : Space} {a : Word} {n : Nat} {acc : Acc} {x : Spot}
    (h : s.spot r l sp a n acc = .ok (x, t)) : s.Walks t := by
  unfold State.spot at h
  dsimp only at h
  split at h
  · cases h
  · split at h
    case h_1 | h_2 =>
      split at h
      · cases h
      next hwalk => cases h; exact translate_walks hwalk
    case h_3 =>
      cases hloc : scrSpot (s.team r.wave.team) a l <;> rw [hloc] at h <;> cases h
      exact .refl s
    case h_4 =>
      cases hloc : s.peerSpot (s.team r.wave.team) a l <;> rw [hloc] at h <;> cases h
      exact .refl s

/-- The walks of lanes' accesses change what translations change. -/
theorem State.reached_walks (r : Run) (sp : Space) (acc : Acc) (as : List (Fin 32 × Word × Nat)) :
    ∀ s : State, s.Walks (s.reached r sp acc as) := by
  induction as with
  | nil => exact .refl
  | cons a as ih =>
    intro s
    refine State.Walks.trans ?_ (ih _)
    beta_reduce
    split
    next hspot => exact spot_walks hspot
    · exact .refl s

/-- An operand is read from the registers, which no translation changes. -/
theorem State.Walks.addrOf {s t : State} (h : s.Walks t) (r : Run) (sh : Shape) (l : Fin 32) :
    t.addrOf r sh l = s.addrOf r sh l := by
  obtain ⟨-, _, _, _, _, _, rfl⟩ := h
  rfl

/-- R235: the walks that an LDA does before its accesses leave its addresses as they were. -/
theorem LoadForm.lanes_eq (g : LoadForm) (s : State) (r : Run) (sh : Shape) :
    g.lanes s r sh =
      gather (fun u l => u.loadLane r l g.sp g.path (s.addrOf r sh l) (s.placeOf r sh g.off l) g.w.bytes)
        (lanesOf (r.active sh)) (if g.path = .home then s.reached r g.sp .read (g.places s r sh) else s) := by
  have hwalk : s.Walks (if g.path = .home then s.reached r g.sp .read (g.places s r sh) else s) := by
    split
    · exact State.reached_walks r g.sp .read (g.places s r sh) s
    · exact .refl s
  simp only [LoadForm.lanes, hwalk.addrOf]

/-- R331: of the loads, those through the L1 are sampled. -/
theorem LoadForm.after_eq (g : LoadForm) (s : State) (r : Run) (sh : Shape) :
    g.after s r sh =
      if g.path matches .l1 _ then
        ((g.lanes s r sh).2.remoteDone r).sampled (((g.lanes s r sh).2.remoteDone r).jobOf r.wave).vf
          (((g.lanes s r sh).2.remoteDone r).requests r g.sp .read (g.places s r sh))
      else ([], (g.lanes s r sh).2.remoteDone r) := by
  unfold LoadForm.after
  cases g.path <;> rfl

/-- The body of a load, by the accesses of its lanes (R193, R319, R409). -/
theorem LoadForm.body_eq (g : LoadForm) (s : State) (r : Run) (sh : Shape) :
    loadBody g.sp g.path g.w g.off s r sh =
      match firstExc (excsOf (g.lanes s r sh).1) with
      | some e => .fault (g.lanes s r sh).2 e
      | none =>
        if !(holdsOf (g.lanes s r sh).1).isEmpty then
          .wait ((g.lanes s r sh).2.awaitRemote r (holdsOf (g.lanes s r sh).1))
        else .done (g.after s r sh).2 (g.run s r sh) .goOn := by
  simp only [LoadForm.run, LoadForm.after_eq, LoadForm.lanes_eq]
  rfl

section Load

variable {g : LoadForm} {i : Instr} (he : ∀ s, exec i s = execute s i memTys (loadBody g.sp g.path g.w g.off))

include he

theorem LoadForm.governs : g.Governs i := by
  refine ⟨fun s r sh hr hx hh hf => ?_, fun s r sh e hr hx => ?_⟩
  · rw [he]
    exact execute_plain hr (by rw [g.body_eq, firstExc_none.2 hx, hh]; rfl) hf
  · rw [he]
    exact execute_fault hr (by rw [g.body_eq, hx])

theorem LoadForm.awaits : g.Awaits i := by
  intro s r sh hr hx hh
  rw [he]
  exact execute_wait hr (by rw [g.body_eq, firstExc_none.2 hx, List.isEmpty_eq_false_iff.2 hh]; rfl)

end Load

/-- Settles O9: each load's meaning is the body of its form, and that body waits where a lane holds. -/
theorem loads : Obligations.Loads := by
  unfold Obligations.Loads
  refine ⟨?ld, ?lda, ?ldc, ?lds, ?ldx, ?ldS64, ?ldS32, ?ldsS64, ?ldsS32, ?ldWaits, ?ldaWaits, ?ldcWaits, ?ldS64Waits,
    ?ldS32Waits⟩
  case ldWaits | ldaWaits | ldcWaits | ldS64Waits | ldS32Waits => exact fun _ => LoadForm.awaits fun _ => rfl
  all_goals exact fun _ => LoadForm.governs fun _ => rfl

end Sys2Proof.Machine

namespace Sys2Proof

open Machine

/-! ## Specifiers (R76, R77) -/

/-- A number read from a field is what the field holds. -/
theorem field_of_toNat {n k : Nat} {v : BitVec n} (h : v.toNat = k) : v = BitVec.ofNat n k := by
  rw [← h, BitVec.ofNat_toNat, BitVec.setWidth_eq]

/-- The code of a source reads as that source. -/
theorem srcOf_toOption {s : Src} {v : BitVec 6} (h : Src.code s = v) : (srcOf v).toOption = some s :=
  toOption_of_ok (h ▸ srcOf_code s)

/-- The code of a destination reads as that destination. -/
theorem dstOf_toOption {d : Dst} {v : BitVec 6} (h : Dst.code d = v) : (dstOf v).toOption = some d :=
  toOption_of_ok (h ▸ dstOf_code d)

theorem srcOf_reserved : ∀ v : BitVec 6, 0x16 ≤ v.toNat ∧ v.toNat ≤ 0x1F → (srcOf v).toOption = none := by decide

theorem dstOf_reserved : ∀ v : BitVec 6, 2 ≤ v.toNat ∧ v.toNat ≤ 0x1F → (dstOf v).toOption = none := by decide

/-- Settles O54: each code of the table is the one that the encoder gives its operand. -/
theorem operandCodes : Obligations.OperandCodes := by
  unfold Obligations.OperandCodes
  exact fun v => ⟨fun k h => srcOf_toOption (s := .q k) (field_of_toNat h).symm,
    fun k h => srcOf_toOption (s := .h k) (field_of_toNat h).symm, fun h => srcOf_toOption (s := .lit) h.symm,
    fun h => srcOf_toOption (s := .zero) h.symm, fun h => srcOf_toOption (s := .one) h.symm, srcOf_reserved v,
    fun k h => srcOf_toOption (s := .n k) (field_of_toNat h).symm⟩

/-- A mask of all sub-elements keeps nothing of the old dword. -/
theorem merge_all (new old : Word) : merge .b64 0xFF new old = new := by
  refine BitVec.eq_of_getLsbD_eq fun i hi => ?_
  rw [getLsbD_merge .b64 _ new old hi, Nat.div_eq_of_lt (show i < Width.bits .b64 from hi)]
  rfl

theorem mergePoison_all (new old : BitVec 8) : mergePoison .b64 0xFF new old = new := by
  refine BitVec.eq_of_getLsbD_eq fun i hi => ?_
  rw [getLsbD_mergePoison .b64 _ new old hi, Nat.div_eq_of_lt (show i < Width.bytes .b64 from hi)]
  rfl

/-- Settles O55: each code of the table is the one that the encoder gives its destination, and a push of a whole dword
merges nothing of the old front. -/
theorem destinationCodes : Obligations.DestinationCodes := by
  unfold Obligations.DestinationCodes
  refine ⟨fun v => ⟨fun h => dstOf_toOption (d := .push) h.symm, fun h => dstOf_toOption (d := .void) h.symm,
    dstOf_reserved v, fun k h => dstOf_toOption (d := .n k) (field_of_toNat h).symm⟩, fun r v => ?push,
    fun _ _ _ _ => rfl⟩
  rw [r.put_push_front, merge_all, mergePoison_all]

/-! ## Reading in the decoder's monad -/

theorem need_ok_iff {p : Bool} {b : Bad} {u : Unit} : need p b = .ok u ↔ p = true := by
  cases p <;> simp [need]

theorem bind_ok_iff {ε α β : Type} {x : Except ε α} {f : α → Except ε β} {b : β} :
    (x >>= f) = .ok b ↔ ∃ a, x = .ok a ∧ f a = .ok b :=
  ⟨bind_eq_ok, fun ⟨_, hx, hf⟩ => hx ▸ hf⟩

theorem pure_ok_iff {ε α : Type} {a b : α} : (pure a : Except ε α) = .ok b ↔ a = b := by simp [pure, Except.pure]

/-! ## Numbers in fields -/

/-- A field of n bits holds each number below 2 ^ n. -/
theorem fin_ofNat_field {n m : Nat} [NeZero m] (hm : 2 ^ n = m) (k : Fin m) :
    Fin.ofNat m (BitVec.ofNat n k.val).toNat = k := by
  subst hm
  apply Fin.ext
  simp

/-- Every number that a field of n bits holds is written back as it was. -/
theorem ofNat_field_fin {n m : Nat} [NeZero m] (hm : 2 ^ n = m) (v : BitVec n) :
    BitVec.ofNat n (Fin.ofNat m v.toNat).val = v := by
  subst hm
  apply BitVec.eq_of_toNat_eq
  simp

theorem toNat_of_field {n k : Nat} {v : BitVec n} (h : v = BitVec.ofNat n k) (hk : k < 2 ^ n) : v.toNat = k := by
  rw [h, BitVec.toNat_ofNat, Nat.mod_eq_of_lt hk]

theorem bit1_getLsbD {n : Nat} (w : BitVec n) (k : Nat) : bit1 (w.getLsbD k) = w.extractLsb' k 1 := by
  rw [getLsbD_extract, bit1_back]

theorem getLsbD_of_bit1 {n : Nat} {w : BitVec n} {k : Nat} {b : Bool} (h : w.extractLsb' k 1 = bit1 b) :
    w.getLsbD k = b := by
  rw [getLsbD_extract, h, bit1_get]

theorem bit_zero_of_not {w : BitVec 64} {k : Nat} (h : (!w.getLsbD k) = true) : w.extractLsb' k 1 = 0#1 := by
  rw [← bit1_getLsbD, (Bool.not_eq_true' _).mp h]
  rfl

/-! ## Layouts: the fields of an encoded word, and the word of decoded fields -/

/-- The opcode of an L or X word (R72). -/
def opcOf (w : BitVec 64) : Nat := (w.extractLsb' 52 9).toNat

/-- What the place of C holds in an ALU or stream word: FN, where the instruction has one (R81). -/
def fnField (fn : Option Nat) (c : BitVec 6) : BitVec 6 := match fn with | some x => BitVec.ofNat 6 x | none => c

/-- The format bits and the opcode of a word. -/
structure HasOpc (w : BitVec 64) (lit : Option W32) (opc : Nat) : Prop where
  fmt : w.extractLsb' 62 2 = fmtCode lit
  opc : w.extractLsb' 52 9 = BitVec.ofNat 9 opc

theorem HasOpc.of_opcOf {w : BitVec 64} {lit : Option W32} {opc : Nat} (hfmt : w.extractLsb' 62 2 = fmtCode lit)
    (h : opcOf w = opc) : HasOpc w lit opc := ⟨hfmt, field_of_toNat h⟩

/-! ### ALU class (R80, R81) -/

/-- What an ALU word holds, but for its format bits, its opcode and the place of C. -/
structure Alu.In (f : Alu) (w : BitVec 64) : Prop where
  e    : w.extractLsb' 61 1 = bit1 f.e
  pm   : w.extractLsb' 49 3 = BitVec.ofNat 3 f.pm.val
  d    : w.extractLsb' 43 6 = f.d.code
  a    : w.extractLsb' 37 6 = f.a.code
  b    : w.extractLsb' 31 6 = f.b.code
  hold : w.extractLsb' 23 2 = f.hold.code
  xa   : w.extractLsb' 16 7 = f.xa.code
  xb   : w.extractLsb' 9 7 = f.xb.code
  xc   : w.extractLsb' 2 7 = f.xc.code
  rm   : w.extractLsb' 0 2 = f.rm.code

theorem aluOf_ok_iff {w : BitVec 64} {lit : Option W32} {c : Src} {f : Alu} :
    aluOf w lit c = .ok f ↔ f.In w ∧ f.lit = lit ∧ f.c = c := by
  simp only [aluOf, bind_ok_iff, pure_ok_iff]
  constructor
  · rintro ⟨d, hd, a, ha, b, hb, xa, hxa, xb, hxb, xc, hxc, rfl⟩
    exact ⟨⟨(bit1_getLsbD w 61).symm, (ofNat_field_fin rfl _).symm, (dstOf_ok hd).symm, (srcOf_ok ha).symm,
      (srcOf_ok hb).symm, (holdOf_back_of _).symm, (routeOf_ok hxa).symm, (routeOf_ok hxb).symm, (routeOf_ok hxc).symm,
      (rmOf_back_of _).symm⟩, rfl, rfl⟩
  · rintro ⟨h, rfl, rfl⟩
    refine ⟨f.d, h.d ▸ dstOf_code _, f.a, h.a ▸ srcOf_code _, f.b, h.b ▸ srcOf_code _, f.xa, h.xa ▸ routeOf_code _,
      f.xb, h.xb ▸ routeOf_code _, f.xc, h.xc ▸ routeOf_code _, ?_⟩
    rw [h.pm, fin_ofNat_field (m := 8) rfl, getLsbD_of_bit1 h.e, h.hold, holdOf_code, h.rm, rmOf_code]

theorem encAlu_eq_iff {w : BitVec 64} {opc : Nat} {fn : Option Nat} {f : Alu} :
    encAlu opc fn f = w ↔ HasOpc w f.lit opc ∧ f.In w ∧ w.extractLsb' 25 6 = fnField fn f.c.code := by
  constructor
  · rintro rfl
    obtain ⟨hfmt, he, hopc, hpm, hd, ha, hb, hc, hhold, hxa, hxb, hxc, hrm⟩ := fieldsAlu (fmtCode f.lit) (bit1 f.e)
      (BitVec.ofNat 9 opc) (BitVec.ofNat 3 f.pm.val) f.d.code f.a.code f.b.code (fnField fn f.c.code) f.hold.code
      f.xa.code f.xb.code f.xc.code f.rm.code
    exact ⟨⟨hfmt, hopc⟩, ⟨he, hpm, hd, ha, hb, hhold, hxa, hxb, hxc, hrm⟩, hc⟩
  · rintro ⟨ho, h, hc⟩
    rw [← joinedAlu w, ho.fmt, ho.opc, h.e, h.pm, h.d, h.a, h.b, hc, h.hold, h.xa, h.xb, h.xc, h.rm]
    rfl

/-- An ALU word that holds C. -/
theorem aluC_ok_iff {w : BitVec 64} {lit : Option W32} {f : Alu} :
    aluC w lit = .ok f ↔ f.In w ∧ f.lit = lit ∧ w.extractLsb' 25 6 = f.c.code := by
  simp only [aluC, bind_ok_iff, aluOf_ok_iff]
  constructor
  · rintro ⟨c, hc, h, rfl, rfl⟩
    exact ⟨h, rfl, (srcOf_ok hc).symm⟩
  · rintro ⟨h, rfl, hc⟩
    exact ⟨f.c, hc ▸ srcOf_code _, h, rfl, rfl⟩

/-! ### MEM class (R82, R83) -/

/-- What a MEM word holds, but for its format bits, its opcode and its bits [30:25]. -/
structure Mem.In (f : Mem) (w : BitVec 64) : Prop where
  e   : w.extractLsb' 61 1 = bit1 f.e
  pm  : w.extractLsb' 49 3 = BitVec.ofNat 3 f.pm.val
  d   : w.extractLsb' 43 6 = f.d.code
  a   : w.extractLsb' 37 6 = f.a.code
  b   : w.extractLsb' 31 6 = f.b.code
  pn  : w.extractLsb' 24 1 = bit1 f.pn
  ch  : w.extractLsb' 23 1 = bit1 f.ch
  xa  : w.extractLsb' 16 7 = f.xa.code
  xb  : w.extractLsb' 9 7 = f.xb.code
  w   : w.extractLsb' 0 3 = BitVec.ofNat 3 f.w.code

theorem Width.code_lt (w : Width) : w.code < 4 := by cases w <;> decide

theorem toNat_widthField (w : Width) : (BitVec.ofNat 3 w.code).toNat = w.code := by cases w <;> rfl

theorem memOf_ok_iff {w : BitVec 64} {lit : Option W32} {off : BitVec 12} {f : Mem} :
    memOf w lit off = .ok f ↔ f.In w ∧ f.lit = lit ∧ f.off = off := by
  simp only [memOf, bind_ok_iff, need_ok_iff, exists_const, pure_ok_iff, decide_eq_true_eq]
  constructor
  · rintro ⟨d, hd, a, ha, b, hb, xa, hxa, xb, hxb, hsz, rfl⟩
    exact ⟨⟨(bit1_getLsbD w 61).symm, (ofNat_field_fin rfl _).symm, (dstOf_ok hd).symm, (srcOf_ok ha).symm,
      (srcOf_ok hb).symm, (bit1_getLsbD w 24).symm, (bit1_getLsbD w 23).symm, (routeOf_ok hxa).symm,
      (routeOf_ok hxb).symm, field_of_toNat (widthOf_back _ hsz).symm⟩, rfl, rfl⟩
  · rintro ⟨h, rfl, rfl⟩
    refine ⟨f.d, h.d ▸ dstOf_code _, f.a, h.a ▸ srcOf_code _, f.b, h.b ▸ srcOf_code _, f.xa, h.xa ▸ routeOf_code _,
      f.xb, h.xb ▸ routeOf_code _, ?_, ?_⟩
    · rw [h.w, toNat_widthField]
      exact f.w.code_lt
    · rw [h.pm, fin_ofNat_field (m := 8) rfl, getLsbD_of_bit1 h.e, getLsbD_of_bit1 h.pn, getLsbD_of_bit1 h.ch, h.w,
        toNat_widthField, widthOf_code]

theorem encMem_eq_iff {w : BitVec 64} {opc : Nat} {hi : BitVec 6} {f : Mem} :
    encMem opc hi f = w ↔ HasOpc w f.lit opc ∧ f.In w ∧ w.extractLsb' 25 6 = hi ∧
      w.extractLsb' 3 6 = f.off.extractLsb' 0 6 := by
  constructor
  · rintro rfl
    obtain ⟨hfmt, he, hopc, hpm, hd, ha, hb, hhi, hpn, hch, hxa, hxb, hlo, hw⟩ := fieldsMem (fmtCode f.lit) (bit1 f.e)
      (BitVec.ofNat 9 opc) (BitVec.ofNat 3 f.pm.val) f.d.code f.a.code f.b.code hi (bit1 f.pn) (bit1 f.ch)
      f.xa.code f.xb.code (f.off.extractLsb' 0 6) (BitVec.ofNat 3 f.w.code)
    exact ⟨⟨hfmt, hopc⟩, ⟨he, hpm, hd, ha, hb, hpn, hch, hxa, hxb, hw⟩, hhi, hlo⟩
  · rintro ⟨ho, h, hhi, hlo⟩
    rw [← joinedMem w, ho.fmt, ho.opc, h.e, h.pm, h.d, h.a, h.b, hhi, h.pn, h.ch, h.xa, h.xb, hlo, h.w]
    rfl

/-- OFF stands in two parts. -/
theorem offOf_eq_iff {w : BitVec 64} {off : BitVec 12} :
    off = offOf w ↔ w.extractLsb' 25 6 = off.extractLsb' 6 6 ∧ w.extractLsb' 3 6 = off.extractLsb' 0 6 := by
  constructor
  · rintro rfl
    exact ⟨((ex_hi _ _ 6 0 6 rfl).trans BitVec.extractLsb'_eq_self).symm, (ex_lo _ _).symm⟩
  · rintro ⟨hhi, hlo⟩
    rw [offOf, hhi, hlo]
    exact (BitVec.extractLsb'_eq_self.symm.trans (ex_join off 6 0 6 6 rfl).symm)

/-- An atomic's OFF is its low part (R83). -/
theorem lowOff_eq {off : BitVec 12} (h : off = 0) : off = 0#6 ++ off.extractLsb' 0 6 := by subst h; rfl

/-! ### MAT class (R84) -/

/-- What a MAT word holds, but for its format bits and its opcode. -/
structure Mat.In (f : Mat) (w : BitVec 64) : Prop where
  e    : w.extractLsb' 61 1 = bit1 f.e
  pm   : w.extractLsb' 49 3 = BitVec.ofNat 3 f.pm.val
  s    : w.extractLsb' 43 6 = BitVec.ofNat 6 (0x20 + f.s.val)
  a    : w.extractLsb' 37 6 = f.a.code
  b    : w.extractLsb' 31 6 = f.b.code
  d    : w.extractLsb' 25 6 = f.d.code
  hold : w.extractLsb' 23 2 = f.hold.code
  xa   : w.extractLsb' 16 7 = f.xa.code
  xb   : w.extractLsb' 9 7 = f.xb.code
  fs   : w.extractLsb' 6 3 = BitVec.ofNat 3 f.fs.val
  kc   : w.extractLsb' 2 4 = BitVec.ofNat 4 f.kc.val
  z    : w.extractLsb' 1 1 = 0#1
  pn   : w.extractLsb' 0 1 = bit1 f.pn

theorem slot_back : ∀ v : BitVec 6, 0x20 ≤ v.toNat →
    BitVec.ofNat 6 (0x20 + (Fin.ofNat 32 (v.toNat - 0x20)).val) = v := by
  decide

theorem slot_code : ∀ s : Fin 32, 0x20 ≤ (BitVec.ofNat 6 (0x20 + s.val)).toNat ∧
    Fin.ofNat 32 ((BitVec.ofNat 6 (0x20 + s.val)).toNat - 0x20) = s := by decide

theorem not_bit_of_zero {w : BitVec 64} {k : Nat} (h : w.extractLsb' k 1 = 0#1) : (!w.getLsbD k) = true := by
  rw [getLsbD_extract, h]
  rfl

theorem matOf_ok_iff {w : BitVec 64} {lit : Option W32} {f : Mat} :
    matOf w lit = .ok f ↔ f.In w ∧ f.lit = lit := by
  simp only [matOf, bind_ok_iff, need_ok_iff, exists_const, pure_ok_iff, decide_eq_true_eq]
  constructor
  · rintro ⟨hs, a, ha, b, hb, d, hd, xa, hxa, xb, hxb, hz, rfl⟩
    exact ⟨⟨(bit1_getLsbD w 61).symm, (ofNat_field_fin rfl _).symm, (slot_back _ hs).symm, (srcOf_ok ha).symm,
      (srcOf_ok hb).symm, (dstOf_ok hd).symm, (holdOf_back_of _).symm, (routeOf_ok hxa).symm, (routeOf_ok hxb).symm,
      (ofNat_field_fin rfl _).symm, (ofNat_field_fin rfl _).symm, bit_zero_of_not hz, (bit1_getLsbD w 0).symm⟩, rfl⟩
  · rintro ⟨h, rfl⟩
    refine ⟨h.s ▸ (slot_code f.s).1, f.a, h.a ▸ srcOf_code _, f.b, h.b ▸ srcOf_code _, f.d, h.d ▸ dstOf_code _,
      f.xa, h.xa ▸ routeOf_code _, f.xb, h.xb ▸ routeOf_code _, not_bit_of_zero h.z, ?_⟩
    rw [h.pm, fin_ofNat_field (m := 8) rfl, h.s, (slot_code f.s).2, h.fs, fin_ofNat_field (m := 8) rfl, h.kc,
      fin_ofNat_field (m := 16) rfl, getLsbD_of_bit1 h.e, getLsbD_of_bit1 h.pn, h.hold, holdOf_code]

theorem encMat_eq_iff {w : BitVec 64} {opc : Nat} {f : Mat} :
    encMat opc f = w ↔ HasOpc w f.lit opc ∧ f.In w := by
  constructor
  · rintro rfl
    obtain ⟨hfmt, he, hopc, hpm, hs, ha, hb, hd, hhold, hxa, hxb, hfs, hkc, hz, hpn⟩ := fieldsMat (fmtCode f.lit)
      (bit1 f.e) (BitVec.ofNat 9 opc) (BitVec.ofNat 3 f.pm.val) (BitVec.ofNat 6 (0x20 + f.s.val)) f.a.code f.b.code
      f.d.code f.hold.code f.xa.code f.xb.code (BitVec.ofNat 3 f.fs.val) (BitVec.ofNat 4 f.kc.val) 0#1 (bit1 f.pn)
    exact ⟨⟨hfmt, hopc⟩, ⟨he, hpm, hs, ha, hb, hd, hhold, hxa, hxb, hfs, hkc, hz, hpn⟩⟩
  · rintro ⟨ho, h⟩
    rw [← joinedMat w, ho.fmt, ho.opc, h.e, h.pm, h.s, h.a, h.b, h.d, h.hold, h.xa, h.xb, h.fs, h.kc, h.z, h.pn]
    rfl

/-! ### ENG class (R85) -/

/-- What an ENG word holds, but for its format bits, its opcode and CMD. -/
structure Eng.In (f : Eng) (w : BitVec 64) : Prop where
  e    : w.extractLsb' 61 1 = bit1 f.e
  pm   : w.extractLsb' 49 3 = BitVec.ofNat 3 f.pm.val
  t    : w.extractLsb' 43 6 = f.t.code
  a    : w.extractLsb' 37 6 = f.a.code
  b    : w.extractLsb' 31 6 = f.b.code
  n    : w.extractLsb' 25 6 = nCode f.n
  hold : w.extractLsb' 23 2 = f.hold.code
  xa   : w.extractLsb' 16 7 = f.xa.code
  xb   : w.extractLsb' 9 7 = f.xb.code
  z    : w.extractLsb' 1 1 = 0#1
  pn   : w.extractLsb' 0 1 = bit1 f.pn

theorem engOf_ok_iff {w : BitVec 64} {lit : Option W32} {f : Eng} :
    engOf w lit = .ok f ↔ f.In w ∧ f.lit = lit := by
  simp only [engOf, bind_ok_iff, need_ok_iff, exists_const, pure_ok_iff]
  constructor
  · rintro ⟨t, ht, a, ha, b, hb, n, hn, xa, hxa, xb, hxb, hz, rfl⟩
    exact ⟨⟨(bit1_getLsbD w 61).symm, (ofNat_field_fin rfl _).symm, (dstOf_ok ht).symm, (srcOf_ok ha).symm,
      (srcOf_ok hb).symm, (nOf_ok hn).symm, (holdOf_back_of _).symm, (routeOf_ok hxa).symm, (routeOf_ok hxb).symm,
      bit_zero_of_not hz, (bit1_getLsbD w 0).symm⟩, rfl⟩
  · rintro ⟨h, rfl⟩
    refine ⟨f.t, h.t ▸ dstOf_code _, f.a, h.a ▸ srcOf_code _, f.b, h.b ▸ srcOf_code _, f.n, h.n ▸ nOf_code _,
      f.xa, h.xa ▸ routeOf_code _, f.xb, h.xb ▸ routeOf_code _, not_bit_of_zero h.z, ?_⟩
    rw [h.pm, fin_ofNat_field (m := 8) rfl, getLsbD_of_bit1 h.e, getLsbD_of_bit1 h.pn, h.hold, holdOf_code]

theorem encEng_eq_iff {w : BitVec 64} {opc cmd : Nat} {f : Eng} :
    encEng opc cmd f = w ↔ HasOpc w f.lit opc ∧ f.In w ∧ w.extractLsb' 2 7 = BitVec.ofNat 7 cmd := by
  constructor
  · rintro rfl
    obtain ⟨hfmt, he, hopc, hpm, ht, ha, hb, hn, hhold, hxa, hxb, hcmd, hz, hpn⟩ := fieldsEng (fmtCode f.lit)
      (bit1 f.e) (BitVec.ofNat 9 opc) (BitVec.ofNat 3 f.pm.val) f.t.code f.a.code f.b.code (nCode f.n) f.hold.code
      f.xa.code f.xb.code (BitVec.ofNat 7 cmd) 0#1 (bit1 f.pn)
    exact ⟨⟨hfmt, hopc⟩, ⟨he, hpm, ht, ha, hb, hn, hhold, hxa, hxb, hz, hpn⟩, hcmd⟩
  · rintro ⟨ho, h, hcmd⟩
    rw [← joinedEng w, ho.fmt, ho.opc, h.e, h.pm, h.t, h.a, h.b, h.n, h.hold, h.xa, h.xb, hcmd, h.z, h.pn]
    rfl

/-! ### CTL class (R86) -/

/-- What a CTL word holds, but for its format bits, its opcode, CF and LEN2. -/
structure Ctl.In (f : Ctl) (w : BitVec 64) : Prop where
  e   : w.extractLsb' 61 1 = bit1 f.e
  pm  : w.extractLsb' 49 3 = 0#3
  d   : w.extractLsb' 43 6 = f.d.code
  a   : w.extractLsb' 37 6 = f.a.code
  xa  : w.extractLsb' 16 7 = f.xa.code
  off : w.extractLsb' 0 16 = f.off

theorem ctlOf_ok_iff {w : BitVec 64} {lit : Option W32} {f : Ctl} :
    ctlOf w lit = .ok f ↔ f.In w ∧ f.lit = lit := by
  simp only [ctlOf, bind_ok_iff, need_ok_iff, exists_const, pure_ok_iff, decide_eq_true_eq]
  constructor
  · rintro ⟨hpm, d, hd, a, ha, xa, hxa, rfl⟩
    exact ⟨⟨(bit1_getLsbD w 61).symm, hpm, (dstOf_ok hd).symm, (srcOf_ok ha).symm, (routeOf_ok hxa).symm, rfl⟩, rfl⟩
  · rintro ⟨h, rfl⟩
    refine ⟨h.pm, f.d, h.d ▸ dstOf_code _, f.a, h.a ▸ srcOf_code _, f.xa, h.xa ▸ routeOf_code _, ?_⟩
    rw [getLsbD_of_bit1 h.e, h.off]

theorem encCtl_eq_iff {w : BitVec 64} {opc cf : Nat} {len2 : BitVec 10} {f : Ctl} :
    encCtl opc cf len2 f = w ↔
      HasOpc w f.lit opc ∧ f.In w ∧ w.extractLsb' 33 4 = BitVec.ofNat 4 cf ∧ len2Of w = len2 := by
  constructor
  · rintro rfl
    obtain ⟨hfmt, he, hopc, hpm, hd, ha, hcf, hlen2, hxa, hoff⟩ := fieldsCtl (fmtCode f.lit)
      (bit1 f.e) (BitVec.ofNat 9 opc) 0#3 f.d.code f.a.code (BitVec.ofNat 4 cf) len2 f.xa.code f.off
    exact ⟨⟨hfmt, hopc⟩, ⟨he, hpm, hd, ha, hxa, hoff⟩, hcf, hlen2⟩
  · rintro ⟨ho, h, hcf, hlen2⟩
    rw [len2Of] at hlen2
    rw [← joinedCtl w, ho.fmt, ho.opc, h.e, h.pm, h.d, h.a, hcf, hlen2, h.xa, h.off]
    rfl

/-- A CTL word of which only E, and a code in OFF, varies. -/
theorem plainOf_ok_iff {w : BitVec 64} {lit : Option W32} {code : Bool} {e : Bool} {off : BitVec 16} :
    plainOf w lit code = .ok (e, off) ↔
      (plainCtlF e off).In w ∧ lit = none ∧ len2Of w = 0 ∧ (code = false → off = 0) := by
  simp only [plainOf, bind_ok_iff, need_ok_iff, exists_const, pure_ok_iff, ctlOf_ok_iff, Bool.and_eq_true,
    Bool.or_eq_true, decide_eq_true_eq, Option.isNone_iff_eq_none, Prod.mk.injEq]
  constructor
  · rintro ⟨⟨e', d, a, xa, off', l⟩, ⟨h, rfl⟩, hlit, ⟨⟨⟨⟨rfl, rfl⟩, rfl⟩, hlen⟩, hcode⟩, rfl, rfl⟩
    dsimp only at hlit hcode
    subst hlit
    exact ⟨h, rfl, hlen, fun hc => hcode.resolve_left (by simp [hc])⟩
  · rintro ⟨h, rfl, hlen, hcode⟩
    refine ⟨plainCtlF e off, ⟨h, rfl⟩, rfl, ⟨⟨⟨⟨rfl, rfl⟩, rfl⟩, hlen⟩, ?_⟩, rfl, rfl⟩
    cases code with
    | true => exact .inl rfl
    | false => exact .inr (hcode rfl)

/-! ### Stream instructions (R89) -/

/-- What a stream word of the ALU layout holds, but for its format bits, its opcode and the place of C. -/
structure Str.In (f : Str) (w : BitVec 64) : Prop where
  e  : w.extractLsb' 61 1 = bit1 f.e
  pm : w.extractLsb' 49 3 = 0#3
  d  : w.extractLsb' 43 6 = adstCode f.d
  a  : w.extractLsb' 37 6 = f.a.code
  b  : w.extractLsb' 31 6 = f.b.code
  z  : w.extractLsb' 0 25 = 0#25

theorem strOf_ok_iff {w : BitVec 64} {lit : Option W32} {c : ASrc} {f : Str} :
    strOf w lit c = .ok f ↔ f.In w ∧ f.lit = lit ∧ f.c = c := by
  simp only [strOf, bind_ok_iff, need_ok_iff, exists_const, pure_ok_iff, Bool.and_eq_true, decide_eq_true_eq]
  constructor
  · rintro ⟨⟨hpm, hz⟩, d, hd, a, ha, b, hb, rfl⟩
    exact ⟨⟨(bit1_getLsbD w 61).symm, hpm, (adstOf_ok hd).symm, (asrcOf_ok ha).symm, (asrcOf_ok hb).symm, hz⟩, rfl, rfl⟩
  · rintro ⟨h, rfl, rfl⟩
    refine ⟨⟨h.pm, h.z⟩, f.d, h.d ▸ adstOf_code _, f.a, h.a ▸ asrcOf_code _, f.b, h.b ▸ asrcOf_code _, ?_⟩
    rw [getLsbD_of_bit1 h.e]

theorem encStr_eq_iff {w : BitVec 64} {opc : Nat} {fn : Option Nat} {f : Str} :
    encStr opc fn f = w ↔ HasOpc w f.lit opc ∧ f.In w ∧ w.extractLsb' 25 6 = fnField fn f.c.code := by
  constructor
  · rintro rfl
    obtain ⟨hfmt, he, hopc, hpm, hd, ha, hb, hc, hz⟩ := fieldsStr (fmtCode f.lit) (bit1 f.e)
      (BitVec.ofNat 9 opc) 0#3 (adstCode f.d) f.a.code f.b.code (fnField fn f.c.code) 0#25
    exact ⟨⟨hfmt, hopc⟩, ⟨he, hpm, hd, ha, hb, hz⟩, hc⟩
  · rintro ⟨ho, h, hc⟩
    rw [← joinedStr w, ho.fmt, ho.opc, h.e, h.pm, h.d, h.a, h.b, hc, h.z]
    rfl

/-- What a stream word of the CTL layout holds, but for its format bits, its opcode, CF and LEN2. -/
structure StrCtl.In (f : StrCtl) (w : BitVec 64) : Prop where
  e   : w.extractLsb' 61 1 = bit1 f.e
  pm  : w.extractLsb' 49 3 = 0#3
  d   : w.extractLsb' 43 6 = 1#6
  a   : w.extractLsb' 37 6 = f.a.code
  z   : w.extractLsb' 16 7 = 0#7
  off : w.extractLsb' 0 16 = f.off

theorem strCtlOf_ok_iff {w : BitVec 64} {lit : Option W32} {f : StrCtl} :
    strCtlOf w lit = .ok f ↔ f.In w ∧ f.lit = lit := by
  simp only [strCtlOf, bind_ok_iff, need_ok_iff, exists_const, pure_ok_iff, Bool.and_eq_true, decide_eq_true_eq]
  constructor
  · rintro ⟨⟨⟨hpm, hz⟩, hd⟩, a, ha, rfl⟩
    exact ⟨⟨(bit1_getLsbD w 61).symm, hpm, hd, (asrcOf_ok ha).symm, hz, rfl⟩, rfl⟩
  · rintro ⟨h, rfl⟩
    refine ⟨⟨⟨h.pm, h.z⟩, h.d⟩, f.a, h.a ▸ asrcOf_code _, ?_⟩
    rw [getLsbD_of_bit1 h.e, h.off]

theorem encStrCtl_eq_iff {w : BitVec 64} {opc cf : Nat} {len2 : BitVec 10} {f : StrCtl} :
    encStrCtl opc cf len2 f = w ↔
      HasOpc w f.lit opc ∧ f.In w ∧ w.extractLsb' 33 4 = BitVec.ofNat 4 cf ∧ len2Of w = len2 := by
  constructor
  · rintro rfl
    obtain ⟨hfmt, he, hopc, hpm, hd, ha, hcf, hlen2, hz, hoff⟩ := fieldsStrCtl (fmtCode f.lit)
      (bit1 f.e) (BitVec.ofNat 9 opc) 0#3 1#6 f.a.code (BitVec.ofNat 4 cf) len2 0#7 f.off
    exact ⟨⟨hfmt, hopc⟩, ⟨he, hpm, hd, ha, hz, hoff⟩, hcf, hlen2⟩
  · rintro ⟨ho, h, hcf, hlen2⟩
    rw [len2Of] at hlen2
    rw [← joinedStrCtl w, ho.fmt, ho.opc, h.e, h.pm, h.d, h.a, hcf, hlen2, h.z, h.off]
    rfl

/-! ### S format (R74) -/

/-- What an S word holds, but for its format bits and its opcode. -/
structure Short.In (f : Short) (w : W32) : Prop where
  e  : w.extractLsb' 29 1 = bit1 f.e
  d  : w.extractLsb' 16 6 = f.d.code
  a  : w.extractLsb' 10 6 = f.a.code
  b  : w.extractLsb' 4 6 = f.b.code
  pm : w.extractLsb' 1 3 = BitVec.ofNat 3 f.pm.val
  ha : w.extractLsb' 0 1 = bit1 f.ha

theorem shortOf_ok_iff {w : W32} {f : Short} : shortOf w = .ok f ↔ f.In w := by
  simp only [shortOf, bind_ok_iff, pure_ok_iff]
  constructor
  · rintro ⟨d, hd, a, ha, b, hb, rfl⟩
    exact ⟨(bit1_getLsbD w 29).symm, (dstOf_ok hd).symm, (srcOf_ok ha).symm, (srcOf_ok hb).symm,
      (ofNat_field_fin rfl _).symm, (bit1_getLsbD w 0).symm⟩
  · intro h
    refine ⟨f.d, h.d ▸ dstOf_code _, f.a, h.a ▸ srcOf_code _, f.b, h.b ▸ srcOf_code _, ?_⟩
    rw [h.pm, fin_ofNat_field (m := 8) rfl, getLsbD_of_bit1 h.e, getLsbD_of_bit1 h.ha]

theorem encShort_eq_iff {w : W32} {ops : Nat} {f : Short} :
    encShort ops f = w ↔ w.extractLsb' 30 2 = 0#2 ∧ w.extractLsb' 22 7 = BitVec.ofNat 7 ops ∧ f.In w := by
  constructor
  · rintro rfl
    obtain ⟨hfmt, he, hops, hd, ha, hb, hpm, hha⟩ := fieldsShort 0#2 (bit1 f.e) (BitVec.ofNat 7 ops) f.d.code f.a.code
      f.b.code (BitVec.ofNat 3 f.pm.val) (bit1 f.ha)
    exact ⟨hfmt, hops, he, hd, ha, hb, hpm, hha⟩
  · rintro ⟨hfmt, hops, h⟩
    rw [← joinedShort w, hfmt, hops, h.e, h.d, h.a, h.b, h.pm, h.ha]
    rfl

/-! ## Words and their format bits (R72) -/

/-- The format bits stand at the top of the first word (R72). -/
theorem fmt_append (w0 w1 : W32) : (w0 ++ w1 : BitVec 64).extractLsb' 62 2 = w0.extractLsb' 30 2 :=
  ex_hi w0 w1 62 30 2 rfl

theorem wordsLX_append (w0 w1 : W32) (lit : Option W32) : wordsLX (w0 ++ w1) lit = w0 :: w1 :: lit.toList := by
  have hhi : (w0 ++ w1 : BitVec 64).extractLsb' 32 32 = w0 :=
    (ex_hi w0 w1 32 0 32 rfl).trans BitVec.extractLsb'_eq_self
  have hlo : (w0 ++ w1 : BitVec 64).extractLsb' 0 32 = w1 := ex_lo w0 w1
  rw [wordsLX, hhi, hlo]
  rfl

/-! ## Header words (R90) -/

/-- A word is the fields of the header layout, joined. -/
theorem joinedHeader (w : BitVec 64) :
    (w.extractLsb' 62 2 ++ w.extractLsb' 52 10 ++ w.extractLsb' 20 32 ++ w.extractLsb' 6 14 ++ w.extractLsb' 4 2 ++
      w.extractLsb' 3 1 ++ w.extractLsb' 2 1 ++ w.extractLsb' 1 1 ++ w.extractLsb' 0 1 : BitVec 64) = w := by
  rw [ex_join w 62 52 2 10 rfl, ex_join w 52 20 12 32 rfl, ex_join w 20 6 44 14 rfl, ex_join w 6 4 58 2 rfl,
    ex_join w 4 3 60 1 rfl, ex_join w 3 2 61 1 rfl, ex_join w 2 1 62 1 rfl, ex_join w 1 0 63 1 rfl]
  exact BitVec.extractLsb'_eq_self

/-- The header that the fields of a word make. -/
def Header.ofWord (w : BitVec 64) : Header :=
  { len := w.extractLsb' 52 10, live := w.extractLsb' 20 32, join := w.extractLsb' 6 14,
    pf := Fin.ofNat 4 (w.extractLsb' 4 2).toNat, cold := w.getLsbD 2, loop := w.getLsbD 1, entry := w.getLsbD 0 }

/-- The 64 bits that a header's two words hold. -/
def Header.word (h : Header) : BitVec 64 :=
  3#2 ++ h.len ++ h.live ++ h.join ++ BitVec.ofNat 2 h.pf.val ++ 0#1 ++ bit1 h.cold ++ bit1 h.loop ++ bit1 h.entry

theorem Header.encode_eq (h : Header) : h.encode = wordsLX h.word none := rfl

/-- A word with the top bits of a header and FLAGS[3] clear is that of its header. -/
theorem Header.word_ofWord {w : BitVec 64} (hfmt : w.extractLsb' 62 2 = 3) (hres : w.getLsbD 3 = false) :
    (Header.ofWord w).word = w := by
  have hzero : w.extractLsb' 3 1 = 0#1 := bit_zero_of_not (by rw [hres]; rfl)
  refine Eq.trans ?_ (joinedHeader w)
  rw [hfmt, hzero, Header.word, Header.ofWord, bit1_getLsbD, bit1_getLsbD, bit1_getLsbD,
    ofNat_field_fin (n := 2) (m := 4) rfl]
  rfl

theorem isHeader_iff (w0 w1 : W32) : isHeader w0 = true ↔ (w0 ++ w1 : BitVec 64).extractLsb' 62 2 = 3 := by
  rw [isHeader, decide_eq_true_eq, fmt_append]

/-- R90, R97: which words are a header, and which header they are. -/
theorem headerOf_ok_iff {w0 w1 : W32} {h : Header} :
    headerOf w0 w1 = .ok h ↔
      ((w0 ++ w1 : BitVec 64).extractLsb' 62 2 = 3 ∧ 3 ≤ ((w0 ++ w1 : BitVec 64).extractLsb' 52 10).toNat ∧
        (w0 ++ w1 : BitVec 64).getLsbD 3 = false) ∧ Header.ofWord (w0 ++ w1) = h := by
  simp only [headerOf, bind_ok_iff, need_ok_iff, exists_const, pure_ok_iff, isHeader_iff w0 w1, Bool.and_eq_true,
    decide_eq_true_eq, Bool.not_eq_true', and_assoc]
  rfl

/-- Settles O48: the fields that the decoder takes make up the two words, as the reserved bit is clear. -/
theorem headerWords : Obligations.HeaderWords := by
  unfold Obligations.HeaderWords
  intro w0 w1 w
  refine ⟨fun hw => ?header, fun hw => ?refused⟩
  case header =>
    have ⟨hfmt, _, hres⟩ := hw
    refine ⟨Header.ofWord w, headerOf_ok_iff.2 ⟨hw, rfl⟩, rfl, rfl, rfl, Nat.mod_eq_of_lt (BitVec.isLt _), rfl, rfl,
      rfl, ?_⟩
    rw [Header.encode_eq, Header.word_ofWord hfmt hres]
    exact wordsLX_append w0 w1 none
  case refused =>
    cases hread : headerOf w0 w1 with
    | error e => exact ⟨e, rfl⟩
    | ok h => exact absurd (headerOf_ok_iff.1 hread).1 hw

/-! ## The opcode map by blocks (R93 to R95) -/

section Blocks

variable {w : BitVec 64} {lit : Option W32} {row tc opc : Nat}

theorem opcOf_lt (w : BitVec 64) : opcOf w < 512 := (w.extractLsb' 52 9).isLt

theorem decodeOpc_int (h : opcOf w = 8 * row + tc) (hrow : row < 32) (htc : tc < 8) :
    decodeOpc w lit = decodeInt row tc w lit := by
  unfold opcOf at h
  rw [decodeOpc, h, if_pos (by omega), show (8 * row + tc) / 8 = row by omega, show (8 * row + tc) % 8 = tc by omega]

theorem decodeOpc_flt (h : opcOf w = 0x100 + 4 * row + tc) (hrow : row < 24) (htc : tc < 4) :
    decodeOpc w lit = decodeFlt row tc w lit := by
  unfold opcOf at h
  rw [decodeOpc, h, if_neg (by omega), if_pos (by omega), show (0x100 + 4 * row + tc - 0x100) / 4 = row by omega,
    show (0x100 + 4 * row + tc) % 4 = tc by omega]

theorem decodeOpc_str (h : opcOf w = opc) (hlo : 0x160 ≤ opc) (hhi : opc < 0x180) :
    decodeOpc w lit = decodeStr (opc - 0x160) w lit := by
  unfold opcOf at h
  rw [decodeOpc, h, if_neg (by omega), if_neg (by omega), if_pos hhi]

theorem decodeOpc_alu2 (h : opcOf w = opc) (hlo : 0x180 ≤ opc) (hhi : opc < 0x1B0) :
    decodeOpc w lit = decodeAlu2 (opc - 0x180) w lit := by
  unfold opcOf at h
  rw [decodeOpc, h, if_neg (by omega), if_neg (by omega), if_neg (by omega), if_pos hhi]

theorem decodeOpc_mem (h : opcOf w = opc) (hlo : 0x1B0 ≤ opc) (hhi : opc < 0x1C0) :
    decodeOpc w lit = decodeMem (opc - 0x1B0) w lit := by
  unfold opcOf at h
  rw [decodeOpc, h, if_neg (by omega), if_neg (by omega), if_neg (by omega), if_neg (by omega), if_pos hhi]

theorem decodeOpc_mat (h : opcOf w = opc) (hlo : 0x1C0 ≤ opc) (hhi : opc < 0x1C8) :
    decodeOpc w lit = decodeMat (opc - 0x1C0) w lit := by
  unfold opcOf at h
  rw [decodeOpc, h, if_neg (by omega), if_neg (by omega), if_neg (by omega), if_neg (by omega), if_neg (by omega),
    if_pos hhi]

theorem decodeOpc_eng (h : opcOf w = opc) (hlo : 0x1C8 ≤ opc) (hhi : opc < 0x1E8) :
    decodeOpc w lit = decodeEng (opc - 0x1C8) w lit := by
  unfold opcOf at h
  rw [decodeOpc, h, if_neg (by omega), if_neg (by omega), if_neg (by omega), if_neg (by omega), if_neg (by omega),
    if_neg (by omega), if_pos hhi]

theorem decodeOpc_ctl (h : opcOf w = opc) (hlo : 0x1E8 ≤ opc) :
    decodeOpc w lit = decodeCtl (opc - 0x1E8) w lit := by
  unfold opcOf at h
  rw [decodeOpc, h, if_neg (by omega), if_neg (by omega), if_neg (by omega), if_neg (by omega), if_neg (by omega),
    if_neg (by omega), if_neg (by omega)]

end Blocks

/-! ## From words to instructions: each decoded instruction is written by the word (R72 to R95) -/

/-- An L or X word, with its literal, is what the encoder writes for an instruction. -/
structure Instr.WrittenAs (i : Instr) (w : BitVec 64) (lit : Option W32) : Prop where
  words : encode i = wordsLX w lit
  instr : (i.shape.isSome || i.isStream) = true

/-- An instruction is written as a word that is its layout's. -/
theorem Instr.WrittenAs.of_layout {i : Instr} {v w : BitVec 64} {l lit : Option W32} (h : v = w ∧ l = lit)
    (hi : encode i = wordsLX v l) (hs : (i.shape.isSome || i.isStream) = true) : i.WrittenAs w lit := by
  obtain ⟨rfl, rfl⟩ := h
  exact ⟨hi, hs⟩

section Written

variable {w : BitVec 64} {lit : Option W32} {opc x : Nat}

theorem encAlu_of_aluC {f : Alu} (ho : HasOpc w lit opc) (hf : aluC w lit = .ok f) :
    encAlu opc none f = w ∧ f.lit = lit := by
  obtain ⟨h, rfl, hc⟩ := aluC_ok_iff.1 hf
  exact ⟨encAlu_eq_iff.2 ⟨ho, h, hc⟩, rfl⟩

theorem encAlu_of_fn {f : Alu} (ho : HasOpc w lit opc) (hx : fnOf w = x) (hf : aluOf w lit .zero = .ok f) :
    encAlu opc (some x) f = w ∧ f.lit = lit := by
  obtain ⟨h, rfl, -⟩ := aluOf_ok_iff.1 hf
  exact ⟨encAlu_eq_iff.2 ⟨ho, h, field_of_toNat hx⟩, rfl⟩

theorem encStr_of_fn {f : Str} (ho : HasOpc w lit opc) (hx : fnOf w = x) (hf : strOf w lit .zero = .ok f) :
    encStr opc (some x) f = w ∧ f.lit = lit := by
  obtain ⟨h, rfl, -⟩ := strOf_ok_iff.1 hf
  exact ⟨encStr_eq_iff.2 ⟨ho, h, field_of_toNat hx⟩, rfl⟩

theorem encStr_of_c {f : Str} {c : ASrc} (ho : HasOpc w lit opc) (hc : asrcOf (w.extractLsb' 25 6) = .ok c)
    (hf : strOf w lit c = .ok f) : encStr opc none f = w ∧ f.lit = lit := by
  obtain ⟨h, rfl, rfl⟩ := strOf_ok_iff.1 hf
  exact ⟨encStr_eq_iff.2 ⟨ho, h, (asrcOf_ok hc).symm⟩, rfl⟩

theorem encStrCtl_of {f : StrCtl} (ho : HasOpc w lit opc) (hx : cfOf w = x) (hf : strCtlOf w lit = .ok f) :
    encStrCtl opc x (len2Of w) f = w ∧ f.lit = lit := by
  obtain ⟨h, rfl⟩ := strCtlOf_ok_iff.1 hf
  exact ⟨encStrCtl_eq_iff.2 ⟨ho, h, field_of_toNat hx, rfl⟩, rfl⟩

theorem encMem_of_off {f : Mem} (ho : HasOpc w lit opc) (hf : memOf w lit (offOf w) = .ok f) :
    encMem opc (f.off.extractLsb' 6 6) f = w ∧ f.lit = lit := by
  obtain ⟨h, rfl, hoff⟩ := memOf_ok_iff.1 hf
  exact ⟨encMem_eq_iff.2 ⟨ho, h, offOf_eq_iff.1 hoff⟩, rfl⟩

theorem encMem_of_atomic {f : Mem} {op : AOp} (ho : HasOpc w lit opc) (hop : aopOf (w.extractLsb' 27 4).toNat = .ok op)
    (hf : memOf w lit (0#6 ++ w.extractLsb' 3 6) = .ok f) :
    encMem opc (BitVec.ofNat 4 op.code ++ (ordOf (w.extractLsb' 25 2)).code) f = w ∧ f.lit = lit := by
  obtain ⟨h, rfl, hoff⟩ := memOf_ok_iff.1 hf
  refine ⟨encMem_eq_iff.2 ⟨ho, h, ?_, ?_⟩, rfl⟩
  · rw [← field_of_toNat (aopOf_ok (BitVec.isLt _) hop).symm, ordOf_back_of]
    exact (ex_join w 27 25 4 2 rfl).symm
  · rw [hoff, ex_lo]

theorem encMat_of {f : Mat} (ho : HasOpc w lit opc) (hf : matOf w lit = .ok f) : encMat opc f = w ∧ f.lit = lit := by
  obtain ⟨h, rfl⟩ := matOf_ok_iff.1 hf
  exact ⟨encMat_eq_iff.2 ⟨ho, h⟩, rfl⟩

theorem encEng_of {f : Eng} (ho : HasOpc w lit opc) (hx : cmdOf w = x) (hf : engOf w lit = .ok f) :
    encEng opc x f = w ∧ f.lit = lit := by
  obtain ⟨h, rfl⟩ := engOf_ok_iff.1 hf
  exact ⟨encEng_eq_iff.2 ⟨ho, h, field_of_toNat hx⟩, rfl⟩

theorem encCtl_of {f : Ctl} (ho : HasOpc w lit opc) (hx : cfOf w = x) (hf : ctlOf w lit = .ok f) :
    encCtl opc x (len2Of w) f = w ∧ f.lit = lit := by
  obtain ⟨h, rfl⟩ := ctlOf_ok_iff.1 hf
  exact ⟨encCtl_eq_iff.2 ⟨ho, h, field_of_toNat hx, rfl⟩, rfl⟩

theorem encCtl_of_plain {code e : Bool} {off : BitVec 16} (ho : HasOpc w lit opc) (hx : cfOf w = x)
    (hf : plainOf w lit code = .ok (e, off)) :
    encCtl opc x 0 (plainCtlF e off) = w ∧ none = lit := by
  obtain ⟨h, rfl, hlen, -⟩ := plainOf_ok_iff.1 hf
  exact ⟨encCtl_eq_iff.2 ⟨ho, h, field_of_toNat hx, hlen⟩, rfl⟩

theorem encCtl_of_mute {e : Bool} {off : BitVec 16} (ho : HasOpc w lit opc) (hx : cfOf w = x)
    (hf : plainOf w lit false = .ok (e, off)) : encCtl opc x 0 (plainCtlF e 0) = w ∧ none = lit := by
  obtain ⟨-, -, -, hoff⟩ := plainOf_ok_iff.1 hf
  exact hoff rfl ▸ encCtl_of_plain ho hx hf

/-- A control register's number is all of OFF that may be set (R380). -/
theorem csrField {off : BitVec 16} (h : off.toNat < 4096) : (off.extractLsb' 0 12).zeroExtend 16 = off := by
  apply BitVec.eq_of_toNat_eq
  simp only [BitVec.zeroExtend, BitVec.toNat_setWidth, BitVec.extractLsb'_toNat, Nat.shiftRight_zero]
  omega

theorem encCtl_of_csrr {f : Ctl} (ho : HasOpc w none opc) (hx : cfOf w = x) (hlen : len2Of w = 0)
    (hf : ctlOf w none = .ok f) (ha : f.a = .zero) (hxa : f.xa = .own) (hoff : f.off.toNat < 4096) :
    encCtl opc x 0 { plainCtlF f.e ((f.off.extractLsb' 0 12).zeroExtend 16) with d := f.d } = w := by
  have hlit := (ctlOf_ok_iff.1 hf).2
  obtain ⟨e, d, a, xa, off, l⟩ := f
  dsimp only at ha hxa hoff hlit ⊢
  subst ha hxa hlit
  rw [csrField hoff, ← hlen]
  exact (encCtl_of ho hx hf).1

theorem encCtl_of_csrw {f : Ctl} (ho : HasOpc w lit opc) (hx : cfOf w = x) (hlen : len2Of w = 0)
    (hf : ctlOf w lit = .ok f) (hoff : f.off.toNat < 4096) :
    encCtl opc x 0 { f with off := (f.off.extractLsb' 0 12).zeroExtend 16 } = w ∧ f.lit = lit := by
  rw [csrField hoff, ← hlen]
  exact encCtl_of ho hx hf

end Written

theorem fnOf_lt (w : BitVec 64) : fnOf w < 64 := (w.extractLsb' 25 6).isLt
theorem cmdOf_lt (w : BitVec 64) : cmdOf w < 128 := (w.extractLsb' 2 7).isLt
theorem cfOf_lt (w : BitVec 64) : cfOf w < 16 := (w.extractLsb' 33 4).isLt

theorem boolN_decide (p : Prop) [Decidable p] : boolN (decide p) = if p then 1 else 0 := by
  by_cases h : p <;> simp [boolN, h]

theorem boolN_of_lt_two {x : Nat} (h : x < 2) : boolN (decide (x = 1)) = x := by
  rw [boolN_decide]
  split <;> omega

theorem ITy.code_lt (t : ITy) : t.code < 8 := by
  obtain ⟨s, w⟩ := t
  cases s <;> cases w <;> decide

/-- A signed type's code is that of its width (R92). -/
theorem ITy.code_signed (t : ITy) (h : t.code < 4) : t.code = t.width.code := by
  obtain ⟨s, w⟩ := t
  cases s with
  | true => exact Nat.zero_add _
  | false => exact absurd h (Nat.not_lt.2 (Nat.le_add_right _ _))

/-- LEA takes the types of 64 bits (R93). -/
theorem ITy.code_wide (t : ITy) (h : t.code % 4 = 3) : 8 * 10 + t.code = if t.signed then 0x53 else 0x57 := by
  obtain ⟨s, w⟩ := t
  revert h
  cases s <;> cases w <;> decide

theorem ofNat_val_of_lt {n x : Nat} [NeZero n] (h : x < n) : (Fin.ofNat n x).val = x := Nat.mod_eq_of_lt h

/-- A flag in the bit of weight n. -/
theorem boolN_of_weight {n x : Nat} (h : x < 2 * n) : boolN (decide (n ≤ x)) = x / n := by
  rw [boolN_decide]
  split
  next hle => exact (Nat.div_eq_of_lt_le (by omega) (by omega)).symm
  next hlt => rw [Nat.div_eq_of_lt (by omega)]

theorem ttyOf_ok {c : Nat} {t : TTy} (hc : c < 4) (h : ttyOf c = .ok t) : t.code = c + 8 := by
  have key : ∀ c < 4, (ttyOf c).toOption.all (fun t => t.code = c + 8) = true := by decide
  have := key c hc
  rw [toOption_of_ok h] at this
  simpa using this

theorem collKindOf_back : ∀ c < 4, (collKindOf c).code = c := by decide

section Tables

variable {w : BitVec 64} {lit : Option W32} {i : Instr}

/-- R93. -/
theorem decodeInt_writes {row : Nat} {t : ITy} (hfmt : w.extractLsb' 62 2 = fmtCode lit)
    (ho : opcOf w = 8 * row + t.code) (h : decodeInt row t.code w lit = .ok i) : i.WrittenAs w lit := by
  replace ho := HasOpc.of_opcOf hfmt ho
  unfold decodeInt at h
  rw [ityOf_code] at h
  dsimp only at h
  split at h
  case h_27 => cases h
  all_goals simp only [bind_ok_iff, need_ok_iff, exists_const, pure_ok_iff, decide_eq_true_eq] at h
  case h_1 =>
    obtain ⟨hfn, f, hf, rfl⟩ := h
    rw [Nat.mul_zero, Nat.zero_add] at ho
    exact .of_layout (encAlu_of_fn ho (boolN_of_lt_two hfn).symm hf) rfl rfl
  case h_2 =>
    obtain ⟨hfn, f, hf, rfl⟩ := h
    exact .of_layout (encAlu_of_fn ho (boolN_of_lt_two hfn).symm hf) rfl rfl
  case h_8 | h_9 =>
    obtain ⟨ht, f, hf, rfl⟩ := h
    rw [t.code_signed ht] at ho
    exact .of_layout (encAlu_of_aluC ho hf) rfl rfl
  case h_10 =>
    obtain ⟨cc, hcc, f, hf, rfl⟩ := h
    exact .of_layout (encAlu_of_fn ho (iccOf_ok (fnOf_lt w) hcc).symm hf) rfl rfl
  case h_11 =>
    obtain ⟨ht, hfn, f, hf, rfl⟩ := h
    rw [t.code_wide ht] at ho
    exact .of_layout (encAlu_of_fn ho (ofNat_val_of_lt hfn).symm hf) rfl rfl
  all_goals
    obtain ⟨f, hf, rfl⟩ := h
    exact .of_layout (encAlu_of_aluC ho hf) rfl rfl

/-- R94. -/
theorem decodeFlt_writes {row : Nat} {t : FTy} (hfmt : w.extractLsb' 62 2 = fmtCode lit)
    (ho : opcOf w = 248 + 4 * row + t.code) (h : decodeFlt row (t.code - 8) w lit = .ok i) : i.WrittenAs w lit := by
  replace ho := HasOpc.of_opcOf hfmt ho
  have hwide : ∀ {u : TTy}, ttyOf (t.code - 8) = .ok u → t.code = u.code := fun hu => by
    rw [ttyOf_ok (by cases t <;> decide) hu]
    cases t <;> rfl
  unfold decodeFlt at h
  rw [ftyOf_code] at h
  dsimp only at h
  split at h
  case h_19 => cases h
  all_goals simp only [bind_ok_iff, pure_ok_iff] at h
  case h_7 =>
    obtain ⟨cc, hcc, f, hf, rfl⟩ := h
    exact .of_layout (encAlu_of_fn ho (fccOf_ok (fnOf_lt w) hcc).symm hf) rfl rfl
  case h_1 | h_2 | h_3 | h_4 | h_5 | h_6 | h_8 | h_9 =>
    obtain ⟨f, hf, rfl⟩ := h
    exact .of_layout (encAlu_of_aluC ho hf) rfl rfl
  all_goals
    obtain ⟨u, hu, f, hf, rfl⟩ := h
    rw [hwide hu] at ho
    exact .of_layout (encAlu_of_aluC ho hf) rfl rfl

/-- R89, R95: the stream block. -/
theorem decodeStr_writes {k : Nat} (hfmt : w.extractLsb' 62 2 = fmtCode lit)
    (ho : opcOf w = 0x160 + k) (h : decodeStr k w lit = .ok i) : i.WrittenAs w lit := by
  replace ho := HasOpc.of_opcOf hfmt ho
  have hfn := fnOf_lt w
  have hcf := cfOf_lt w
  unfold decodeStr at h
  dsimp only at h
  split at h
  case h_12 => cases h
  all_goals simp only [bind_ok_iff, need_ok_iff, exists_const, pure_ok_iff, decide_eq_true_eq] at h
  case h_1 =>
    obtain ⟨hx, f, hf, rfl⟩ := h
    exact .of_layout (encStr_of_fn ho (boolN_of_lt_two hx).symm hf) rfl rfl
  case h_2 | h_6 | h_11 =>
    obtain ⟨hx, f, hf, rfl⟩ := h
    exact .of_layout (encStr_of_fn ho hx hf) rfl rfl
  case h_3 =>
    obtain ⟨cc, hcc, f, hf, rfl⟩ := h
    exact .of_layout (encStr_of_fn ho (iccOf_ok hfn hcc).symm hf) rfl rfl
  case h_4 =>
    obtain ⟨hlen, c, hc, f, hf, rfl⟩ := h
    exact .of_layout (hlen ▸ encStrCtl_of ho (brOf_ok hcf hc).symm hf) rfl rfl
  case h_5 =>
    obtain ⟨hx, f, hf, rfl⟩ := h
    refine .of_layout (encStrCtl_of ho (x := 4 * (Fin.ofNat 4 (cfOf w / 4)).val) ?_ hf) rfl rfl
    rw [ofNat_val_of_lt (by omega)]
    omega
  case h_7 | h_8 =>
    obtain ⟨c, hc, f, hf, rfl⟩ := h
    exact .of_layout (encStr_of_c ho hc hf) rfl rfl
  case h_9 | h_10 =>
    obtain ⟨hx, f, hf, rfl⟩ := h
    exact .of_layout (encStr_of_fn ho (ofNat_val_of_lt hx).symm hf) rfl rfl

/-- R95: the rest of the ALU class. -/
theorem decodeAlu2_writes {k : Nat} (hfmt : w.extractLsb' 62 2 = fmtCode lit)
    (ho : opcOf w = 0x180 + k) (h : decodeAlu2 k w lit = .ok i) : i.WrittenAs w lit := by
  have hfn := fnOf_lt w
  simp only [decodeAlu2, bind_ok_iff] at h
  obtain ⟨f, hf, h⟩ := h
  split at h
  next hk =>
    simp only [bind_ok_iff, need_ok_iff, exists_const, pure_ok_iff, decide_eq_true_eq] at h
    obtain ⟨hx, op, hop, t, ht, rfl⟩ := h
    rw [← redOf_ok (by omega) hop] at ho
    exact .of_layout (encAlu_of_fn (.of_opcOf hfmt ho) (tyOf_ok hx ht).symm hf) rfl rfl
  split at h
  next hk hk2 =>
    simp only [bind_ok_iff, need_ok_iff, exists_const, pure_ok_iff, decide_eq_true_eq] at h
    obtain ⟨hx, op, hop, t, ht, rfl⟩ := h
    have hcode := redOf_ok (by omega) hop
    have hty := tyOf_ok (by omega) ht
    have hexcl := boolN_of_weight (n := 16) (x := fnOf w) hx
    exact .of_layout (encAlu_of_fn (opc := 0x188 + op.code) (x := 16 * boolN (decide (16 ≤ fnOf w)) + t.code)
      (.of_opcOf hfmt (by omega)) (by omega) hf) rfl rfl
  split at h
  next hk hk2 hk3 =>
    simp only [bind_ok_iff, pure_ok_iff] at h
    obtain ⟨d, hd, s, hs, rfl⟩ := h
    have hcode := tyOf_ok (by omega) hs
    have hty := tyOf_ok (by omega) hd
    have hpart := ofNat_val_of_lt (n := 4) (x := fnOf w / 16) (by omega)
    exact .of_layout (encAlu_of_fn (opc := 0x190 + s.code) (x := 16 * (Fin.ofNat 4 (fnOf w / 16)).val + d.code)
      (.of_opcOf hfmt (by omega)) (by omega) hf) rfl rfl
  next hk hk2 hk3 =>
    obtain ⟨j, rfl⟩ := Nat.exists_eq_add_of_le (Nat.le_of_not_lt hk3)
    rw [Nat.add_sub_cancel_left, ← Nat.add_assoc] at *
    replace ho := HasOpc.of_opcOf hfmt ho
    split at h
    case h_14 => cases h
    all_goals simp only [bind_ok_iff, need_ok_iff, exists_const, pure_ok_iff, Bool.and_eq_true, decide_eq_true_eq] at h
    case h_1 =>
      obtain ⟨⟨hlo, hhi⟩, rfl⟩ := h
      have hcode := ftyOf_back (fnOf w - 8) (by omega)
      exact .of_layout (encAlu_of_fn ho (x := (ftyOf (fnOf w - 8)).code) (by omega) hf) rfl rfl
    case h_2 | h_3 | h_4 | h_5 | h_6 =>
      obtain ⟨hx, rfl⟩ := h
      exact .of_layout (encAlu_of_fn ho (ofNat_val_of_lt hx).symm hf) rfl rfl
    case h_7 | h_9 | h_11 =>
      obtain ⟨hx, t, ht, rfl⟩ := h
      exact .of_layout (encAlu_of_fn ho (tyOf_ok hx ht).symm hf) rfl rfl
    case h_8 =>
      obtain ⟨v, hv, rfl⟩ := h
      exact .of_layout (encAlu_of_fn ho (voteOf_ok hfn hv).symm hf) rfl rfl
    case h_10 =>
      obtain ⟨g, hg, rfl⟩ := h
      exact .of_layout (encAlu_of_aluC ho hg) rfl rfl
    case h_12 =>
      subst h
      have hmask := ofNat_val_of_lt (n := 8) (x := fnOf w / 8) (by omega)
      have hdir := boolN_of_lt_two (x := fnOf w / 4 % 2) (by omega)
      have hwidth := widthOf_back (3 - fnOf w % 4) (by omega)
      exact .of_layout (encAlu_of_fn ho (x := 8 * (Fin.ofNat 8 (fnOf w / 8)).val
        + 4 * boolN (decide (fnOf w / 4 % 2 = 1)) + (3 - (widthOf (3 - fnOf w % 4)).code)) (by omega) hf) rfl rfl
    case h_13 =>
      subst h
      exact .of_layout (encAlu_of_fn ho (ofNat_val_of_lt hfn).symm hf) rfl rfl

/-- R82, R83, R95: the MEM class. -/
theorem decodeMem_writes {k : Nat} (hfmt : w.extractLsb' 62 2 = fmtCode lit)
    (ho : opcOf w = 0x1B0 + k) (h : decodeMem k w lit = .ok i) : i.WrittenAs w lit := by
  replace ho := HasOpc.of_opcOf hfmt ho
  unfold decodeMem at h
  split at h
  next hk =>
    simp only [Bool.or_eq_true, decide_eq_true_eq] at hk
    simp only [bind_ok_iff, pure_ok_iff] at h
    obtain ⟨op, hop, f, hf, rfl⟩ := h
    rcases hk with rfl | rfl
    · exact .of_layout (encMem_of_atomic ho hop hf) rfl rfl
    · exact .of_layout (encMem_of_atomic ho hop hf) rfl rfl
  next hk =>
    simp only [bind_ok_iff] at h
    obtain ⟨f, hf, h⟩ := h
    split at h
    case h_11 => cases h
    all_goals
      cases pure_ok_iff.1 h
      exact .of_layout (encMem_of_off ho hf) rfl rfl

/-- R84, R95: the MAT class. -/
theorem decodeMat_writes {k : Nat} (hfmt : w.extractLsb' 62 2 = fmtCode lit)
    (ho : opcOf w = 0x1C0 + k) (h : decodeMat k w lit = .ok i) : i.WrittenAs w lit := by
  replace ho := HasOpc.of_opcOf hfmt ho
  simp only [decodeMat, bind_ok_iff] at h
  obtain ⟨f, hf, h⟩ := h
  split at h
  case h_5 => cases h
  all_goals
    cases pure_ok_iff.1 h
    exact .of_layout (encMat_of ho hf) rfl rfl

/-- R85, R95: the ENG class. -/
theorem decodeEng_writes {k : Nat} (hfmt : w.extractLsb' 62 2 = fmtCode lit)
    (ho : opcOf w = 0x1C8 + k) (h : decodeEng k w lit = .ok i) : i.WrittenAs w lit := by
  replace ho := HasOpc.of_opcOf hfmt ho
  have hcmd := cmdOf_lt w
  simp only [decodeEng, bind_ok_iff] at h
  obtain ⟨f, hf, h⟩ := h
  split at h
  case h_33 => cases h
  all_goals simp only [bind_ok_iff, need_ok_iff, exists_const, pure_ok_iff, Bool.and_eq_true, decide_eq_true_eq] at h
  case h_1 =>
    obtain ⟨hx, rfl⟩ := h
    have hwidth := widthOf_back (cmdOf w % 4) (by omega)
    have hsrc := boolN_of_lt_two (x := cmdOf w / 4 % 2) (by omega)
    have hdst := boolN_of_lt_two (x := cmdOf w / 8 % 2) (by omega)
    exact .of_layout (encEng_of ho (x := (widthOf (cmdOf w % 4)).code + 4 * boolN (decide (cmdOf w / 4 % 2 = 1))
      + 8 * boolN (decide (cmdOf w / 8 % 2 = 1))) (by omega) hf) rfl rfl
  case h_4 | h_5 | h_6 | h_7 =>
    obtain ⟨hx, rfl⟩ := h
    exact .of_layout (encEng_of ho (ofNat_val_of_lt hx).symm hf) rfl rfl
  case h_8 =>
    obtain ⟨hx, rfl⟩ := h
    have hkin := ofNat_val_of_lt (n := 8) (x := cmdOf w % 8) (by omega)
    have hmout := ofNat_val_of_lt (n := 4) (x := cmdOf w / 8) (by omega)
    exact .of_layout (encEng_of ho (x := (Fin.ofNat 8 (cmdOf w % 8)).val + 8 * (Fin.ofNat 4 (cmdOf w / 8)).val)
      (by omega) hf) rfl rfl
  case h_9 | h_24 =>
    obtain ⟨hx, rfl⟩ := h
    exact .of_layout (encEng_of ho (boolN_of_lt_two hx).symm hf) rfl rfl
  case h_14 =>
    obtain ⟨⟨hlow, hx⟩, rfl⟩ := h
    have hslot := ofNat_val_of_lt (n := 8) (x := cmdOf w / 4) (by omega)
    exact .of_layout (encEng_of ho (x := 4 * (Fin.ofNat 8 (cmdOf w / 4)).val) (by omega) hf) rfl rfl
  case h_15 =>
    obtain ⟨hx, rfl⟩ := h
    have hvar := ofNat_val_of_lt (n := 4) (x := cmdOf w % 4) (by omega)
    have hslot := ofNat_val_of_lt (n := 8) (x := cmdOf w / 4) (by omega)
    exact .of_layout (encEng_of ho (x := (Fin.ofNat 4 (cmdOf w % 4)).val + 4 * (Fin.ofNat 8 (cmdOf w / 4)).val)
      (by omega) hf) rfl rfl
  case h_16 =>
    obtain ⟨hx, op, hop, rfl⟩ := h
    have hcode := aopOf_ok (by omega) hop
    have hwide := boolN_of_weight (n := 16) (x := cmdOf w) hx
    exact .of_layout (encEng_of ho (x := op.code + 16 * boolN (decide (16 ≤ cmdOf w))) (by omega) hf) rfl rfl
  case h_22 =>
    subst h
    have hkin := ofNat_val_of_lt (n := 8) (x := cmdOf w % 8) (by omega)
    have hproj := ofNat_val_of_lt (n := 16) (x := cmdOf w / 8) (by omega)
    exact .of_layout (encEng_of ho (x := (Fin.ofNat 8 (cmdOf w % 8)).val + 8 * (Fin.ofNat 16 (cmdOf w / 8)).val)
      (by omega) hf) rfl rfl
  case h_25 =>
    obtain ⟨-, l, hl, rfl⟩ := h
    exact .of_layout (encEng_of ho (lodOf_ok hcmd hl).symm hf) rfl rfl
  case h_26 =>
    obtain ⟨hx, l, hl, rfl⟩ := h
    have hcode := lodOf_ok (by omega) hl
    have hch := ofNat_val_of_lt (n := 4) (x := cmdOf w / 4) (by omega)
    exact .of_layout (encEng_of ho (x := l.code + 4 * (Fin.ofNat 4 (cmdOf w / 4)).val) (by omega) hf) rfl rfl
  case h_28 =>
    obtain ⟨hx, rfl⟩ := h
    have htgt := ofNat_val_of_lt (n := 16) (x := cmdOf w % 16) (by omega)
    have hdepth := boolN_of_weight (n := 16) (x := cmdOf w) hx
    exact .of_layout (encEng_of ho (x := (Fin.ofNat 16 (cmdOf w % 16)).val + 16 * boolN (decide (16 ≤ cmdOf w)))
      (by omega) hf) rfl rfl
  case h_30 =>
    obtain ⟨hx, rfl⟩ := h
    have hany := boolN_of_lt_two (x := cmdOf w % 2) (by omega)
    have hcull := boolN_of_weight (n := 2) (x := cmdOf w) hx
    exact .of_layout (encEng_of ho (x := boolN (decide (cmdOf w % 2 = 1)) + 2 * boolN (decide (2 ≤ cmdOf w)))
      (by omega) hf) rfl rfl
  case h_31 =>
    obtain ⟨o, hop, t, ht, rfl⟩ := h
    have hkind := collKindOf_back (cmdOf w % 4) (by omega)
    have hcode := collOpOf_ok (by omega) hop
    have hty := collTyOf_ok (by omega) ht
    exact .of_layout (encEng_of ho (x := (collKindOf (cmdOf w % 4)).code + 4 * o.code + 16 * t.code)
      (by omega) hf) rfl rfl
  all_goals
    obtain ⟨hx, rfl⟩ := h
    exact .of_layout (encEng_of ho hx hf) rfl rfl

/-- R86, R95: the CTL class. -/
theorem decodeCtl_writes {k : Nat} (hfmt : w.extractLsb' 62 2 = fmtCode lit)
    (ho : opcOf w = 0x1E8 + k) (h : decodeCtl k w lit = .ok i) : i.WrittenAs w lit := by
  replace ho := HasOpc.of_opcOf hfmt ho
  have hcf := cfOf_lt w
  unfold decodeCtl at h
  dsimp only at h
  split at h
  case h_20 => cases h
  all_goals simp only [bind_ok_iff, need_ok_iff, exists_const, pure_ok_iff, Bool.and_eq_true, decide_eq_true_eq,
    Prod.exists] at h
  case h_1 =>
    obtain ⟨hlen, c, hc, f, hf, rfl⟩ := h
    exact .of_layout (hlen ▸ encCtl_of ho (brOf_ok hcf hc).symm hf) rfl rfl
  case h_2 | h_3 | h_4 | h_7 =>
    obtain ⟨⟨hx, hlen⟩, f, hf, rfl⟩ := h
    exact .of_layout (hlen ▸ encCtl_of ho hx hf) rfl rfl
  case h_6 =>
    obtain ⟨hx, f, hf, rfl⟩ := h
    have hreg := ofNat_val_of_lt (n := 4) (x := cfOf w / 4) (by omega)
    exact .of_layout (encCtl_of ho (x := 4 * (Fin.ofNat 4 (cfOf w / 4)).val) (by omega) hf) rfl rfl
  case h_10 | h_15 =>
    obtain ⟨hx, e, off, hf, rfl⟩ := h
    exact .of_layout (encCtl_of_mute ho (boolN_of_lt_two hx).symm hf) rfl rfl
  case h_14 | h_18 =>
    obtain ⟨hx, e, off, hf, rfl⟩ := h
    exact .of_layout (encCtl_of_plain ho hx hf) rfl rfl
  case h_16 =>
    obtain ⟨⟨⟨hx, hlen⟩, hlit⟩, f, hf, ⟨⟨ha, hxa⟩, hoff⟩, rfl⟩ := h
    obtain rfl := Option.isNone_iff_eq_none.1 hlit
    exact .of_layout ⟨encCtl_of_csrr ho hx hlen hf ha hxa hoff, rfl⟩ rfl rfl
  case h_17 =>
    obtain ⟨⟨⟨hx, hlen⟩, -⟩, f, hf, hoff, rfl⟩ := h
    exact .of_layout (encCtl_of_csrw ho hx hlen hf hoff) rfl rfl
  all_goals
    obtain ⟨hx, e, off, hf, rfl⟩ := h
    exact .of_layout (encCtl_of_mute ho hx hf) rfl rfl

/-- R72, R93 to R95: an instruction that an L or X word decodes to is written as that word. -/
theorem decodeOpc_writes (hfmt : w.extractLsb' 62 2 = fmtCode lit) (h : decodeOpc w lit = .ok i) :
    i.WrittenAs w lit := by
  have hlt := opcOf_lt w
  by_cases hint : opcOf w < 0x100
  · have hcode := ityOf_back (opcOf w % 8) (by omega)
    rw [decodeOpc_int (row := opcOf w / 8) (tc := (ityOf (opcOf w % 8)).code) (by omega) (by omega) (by omega)] at h
    exact decodeInt_writes hfmt (by omega) h
  by_cases hflt : opcOf w < 0x160
  · have hcode := ftyOf_back (opcOf w % 4) (by omega)
    rw [decodeOpc_flt (row := (opcOf w - 0x100) / 4) (tc := (ftyOf (opcOf w % 4)).code - 8) (by omega) (by omega)
      (by omega)] at h
    exact decodeFlt_writes hfmt (by omega) h
  by_cases hstr : opcOf w < 0x180
  · rw [decodeOpc_str rfl (by omega) hstr] at h
    exact decodeStr_writes hfmt (by omega) h
  by_cases halu : opcOf w < 0x1B0
  · rw [decodeOpc_alu2 rfl (by omega) halu] at h
    exact decodeAlu2_writes hfmt (by omega) h
  by_cases hmem : opcOf w < 0x1C0
  · rw [decodeOpc_mem rfl (by omega) hmem] at h
    exact decodeMem_writes hfmt (by omega) h
  by_cases hmat : opcOf w < 0x1C8
  · rw [decodeOpc_mat rfl (by omega) hmat] at h
    exact decodeMat_writes hfmt (by omega) h
  by_cases heng : opcOf w < 0x1E8
  · rw [decodeOpc_eng rfl (by omega) heng] at h
    exact decodeEng_writes hfmt (by omega) h
  · rw [decodeOpc_ctl rfl (by omega)] at h
    exact decodeCtl_writes hfmt (by omega) h

end Tables

/-! ## Short words (R96) -/

/-- An S word is what the encoder writes for an instruction. -/
structure Instr.ShortAs (i : Instr) (w : W32) : Prop where
  words : encode i = [w]
  instr : (i.shape.isSome || i.isStream) = true

theorem Instr.ShortAs.of_layout {i : Instr} {v w : W32} (h : v = w) (hi : encode i = [v])
    (hs : (i.shape.isSome || i.isStream) = true) : i.ShortAs w := by
  subst h
  exact ⟨hi, hs⟩

/-- R96. -/
theorem decodeShort_writes {w : W32} {i : Instr} (hfmt : w.extractLsb' 30 2 = 0#2) (h : decodeShort w = .ok i) :
    i.ShortAs w := by
  have hlt : (w.extractLsb' 22 7).toNat < 128 := BitVec.isLt _
  simp only [decodeShort, bind_ok_iff, shortOf_ok_iff] at h
  obtain ⟨f, hf, h⟩ := h
  have hword : ∀ {ops : Nat}, (w.extractLsb' 22 7).toNat = ops → encShort ops f = w := fun ho =>
    encShort_eq_iff.2 ⟨hfmt, field_of_toNat ho, hf⟩
  have hint := ityOf_back ((w.extractLsb' 22 7).toNat % 8) (by omega)
  have hflt := ftyOf_back ((w.extractLsb' 22 7).toNat % 4) (by omega)
  split at h
  case h_11 =>
    split at h
    case h_11 =>
      split at h
      case h_6 => cases h
      all_goals
        cases pure_ok_iff.1 h
        exact .of_layout (hword (by omega)) rfl rfl
    all_goals
      cases pure_ok_iff.1 h
      exact .of_layout (hword (by omega)) rfl rfl
  case h_1 ho =>
    obtain ⟨e, d, a, b, pm, ha⟩ := f
    simp only [bind_ok_iff, need_ok_iff, exists_const, pure_ok_iff, Bool.and_eq_true, decide_eq_true_eq,
      Bool.not_eq_true'] at h
    obtain ⟨⟨⟨⟨⟨rfl, rfl⟩, rfl⟩, rfl⟩, rfl⟩, rfl⟩ := h
    exact .of_layout (hword ho) rfl rfl
  all_goals
    cases pure_ok_iff.1 h
    exact .of_layout (hword (by assumption)) rfl rfl

/-! ### Checked words -/

theorem checked_ok_iff {i j : Instr} : checked i = .ok j ↔ i.check = none ∧ i = j := by
  unfold checked
  split
  next h => simp [h]
  next b h => simp [h]

theorem checked_bind_ok_iff {x : Except Bad Instr} {n m : Nat} {i : Instr} :
    (do let j ← x; return (← checked j, n) : Except Bad (Instr × Nat)) = .ok (i, m) ↔
      x = .ok i ∧ i.check = none ∧ n = m := by
  simp only [bind_ok_iff, checked_ok_iff, pure_ok_iff, Prod.mk.injEq]
  constructor
  · rintro ⟨j, hx, _, ⟨hc, rfl⟩, rfl, rfl⟩
    exact ⟨hx, hc, rfl⟩
  · rintro ⟨hx, hc, rfl⟩
    exact ⟨i, hx, i, ⟨hc, rfl⟩, rfl, rfl⟩

theorem wellFormed_iff {i : Instr} : i.WellFormed = true ↔ i.check = none ∧ (i.shape.isSome || i.isStream) = true := by
  rw [Instr.WellFormed, Bool.and_eq_true, Option.isNone_iff_eq_none]

/-- Settles O47: by the format bits, the words are those that the tables of their format write for the instruction. -/
theorem decodeEncode : Obligations.DecodeEncode := by
  unfold Obligations.DecodeEncode
  intro w0 ws i n h
  dsimp only [decodeWords] at h
  unfold formatWords
  split at h
  next hfmt =>
    obtain ⟨hd, hc, rfl⟩ := checked_bind_ok_iff.1 h
    obtain ⟨hwords, hi⟩ := decodeShort_writes (BitVec.eq_of_toNat_eq hfmt) hd
    rw [hfmt]
    exact ⟨wellFormed_iff.2 ⟨hc, hi⟩, rfl, hwords⟩
  next w1 rest hfmt =>
    obtain ⟨hd, hc, rfl⟩ := checked_bind_ok_iff.1 h
    obtain ⟨hwords, hi⟩ := decodeOpc_writes (lit := none) ((fmt_append w0 w1).trans (BitVec.eq_of_toNat_eq hfmt)) hd
    rw [hfmt, hwords, wordsLX_append]
    exact ⟨wellFormed_iff.2 ⟨hc, hi⟩, rfl, rfl⟩
  next w1 w2 rest hfmt =>
    obtain ⟨hd, hc, rfl⟩ := checked_bind_ok_iff.1 h
    obtain ⟨hwords, hi⟩ := decodeOpc_writes (lit := some w2) ((fmt_append w0 w1).trans (BitVec.eq_of_toNat_eq hfmt)) hd
    rw [hfmt, hwords, wordsLX_append]
    exact ⟨wellFormed_iff.2 ⟨hc, hi⟩, rfl, rfl⟩
  · cases h
  · cases h

/-! ## From instructions to words: an encoded instruction is read from its words (R72 to R96) -/

@[simp] theorem ok_bind {ε α β : Type} (a : α) (f : α → Except ε β) : (Except.ok a >>= f) = f a := rfl

@[simp] theorem need_true (b : Bad) : need true b = .ok () := rfl

theorem firstBad_cons_iff {p : Bool × Bad} {cs : List (Bool × Bad)} :
    firstBad (p :: cs) = none ↔ p.1 = true ∧ firstBad cs = none := by
  obtain ⟨ok, b⟩ := p
  cases ok <;> simp [firstBad]

/-- Whatever words follow, the words of an instruction decode to it and to their number. -/
def Instr.Reads (i : Instr) : Prop := ∀ rest, decodeWords (encode i ++ rest) = .ok (i, (encode i).length)

/-- An L or X word that its opcode's row reads. -/
theorem Instr.Reads.long {i : Instr} {w : BitVec 64} {lit : Option W32} (hc : i.check = none)
    (he : encode i = wordsLX w lit) (hfmt : w.extractLsb' 62 2 = fmtCode lit) (hd : decodeOpc w lit = .ok i) :
    i.Reads := by
  intro rest
  obtain ⟨w0, w1, rfl⟩ : ∃ w0 w1 : W32, w = w0 ++ w1 :=
    ⟨w.extractLsb' 32 32, w.extractLsb' 0 32, (BitVec.extractLsb'_eq_self.symm.trans (ex_join w 32 0 32 32 rfl).symm)⟩
  rw [fmt_append] at hfmt
  rw [he, wordsLX_append]
  cases lit with
  | none =>
    simp only [Option.toList, List.cons_append, List.nil_append, decodeWords, hfmt]
    exact checked_bind_ok_iff.2 ⟨hd, hc, rfl⟩
  | some l =>
    simp only [Option.toList, List.cons_append, List.nil_append, decodeWords, hfmt]
    exact checked_bind_ok_iff.2 ⟨hd, hc, rfl⟩

/-! ### By layouts: the fields of an encoded word are at hand where its opcode's row reads them -/

theorem bitVec_append_inj {n m : Nat} {x y : BitVec n} {u v : BitVec m} (h : x ++ u = y ++ v) : x = y ∧ u = v := by
  have hhi := congrArg (BitVec.extractLsb' m n) h
  have hlo := congrArg (BitVec.extractLsb' 0 m) h
  rw [ex_lo, ex_lo] at hlo
  rw [ex_hi x u m 0 n rfl, ex_hi y v m 0 n rfl, BitVec.extractLsb'_eq_self, BitVec.extractLsb'_eq_self] at hhi
  exact ⟨hhi, hlo⟩

theorem toNat_aopField (op : AOp) : (BitVec.ofNat 4 op.code).toNat = op.code := by cases op <;> rfl

section Layouts

variable {i : Instr} {opc x : Nat} (hc : i.check = none)
include hc

theorem Instr.Reads.of_aluC {f : Alu} (he : encode i = wordsLX (encAlu opc none f) f.lit) (hlt : opc < 512)
    (hd : ∀ w lit, opcOf w = opc → aluC w lit = .ok f → decodeOpc w lit = .ok i) : i.Reads := by
  obtain ⟨ho, hf, hfield⟩ := encAlu_eq_iff.1 (Eq.refl (encAlu opc none f))
  exact .long hc he ho.fmt (hd _ _ (toNat_of_field ho.opc hlt) (aluC_ok_iff.2 ⟨hf, rfl, hfield⟩))

theorem Instr.Reads.of_aluFn {f : Alu} (he : encode i = wordsLX (encAlu opc (some x) f) f.lit) (hlt : opc < 512)
    (hx : x < 64) (hzero : f.c = .zero)
    (hd : ∀ w lit, opcOf w = opc → fnOf w = x → aluOf w lit .zero = .ok f → decodeOpc w lit = .ok i) : i.Reads := by
  obtain ⟨ho, hf, hfn⟩ := encAlu_eq_iff.1 (Eq.refl (encAlu opc (some x) f))
  exact .long hc he ho.fmt
    (hd _ _ (toNat_of_field ho.opc hlt) (toNat_of_field hfn hx) (aluOf_ok_iff.2 ⟨hf, rfl, hzero⟩))

theorem Instr.Reads.strFn {f : Str} (he : encode i = wordsLX (encStr opc (some x) f) f.lit) (hlo : 0x160 ≤ opc)
    (hhi : opc < 0x180) (hx : x < 64) (hzero : f.c = .zero)
    (hd : ∀ w lit, fnOf w = x → strOf w lit .zero = .ok f → decodeStr (opc - 0x160) w lit = .ok i) : i.Reads := by
  obtain ⟨ho, hf, hfn⟩ := encStr_eq_iff.1 (Eq.refl (encStr opc (some x) f))
  exact .long hc he ho.fmt ((decodeOpc_str (toNat_of_field ho.opc (by omega)) hlo hhi).trans
    (hd _ _ (toNat_of_field hfn hx) (strOf_ok_iff.2 ⟨hf, rfl, hzero⟩)))

theorem Instr.Reads.strC {f : Str} (he : encode i = wordsLX (encStr opc none f) f.lit) (hlo : 0x160 ≤ opc)
    (hhi : opc < 0x180)
    (hd : ∀ w lit, asrcOf (w.extractLsb' 25 6) = .ok f.c → strOf w lit f.c = .ok f →
      decodeStr (opc - 0x160) w lit = .ok i) : i.Reads := by
  obtain ⟨ho, hf, hfield⟩ := encStr_eq_iff.1 (Eq.refl (encStr opc none f))
  exact .long hc he ho.fmt ((decodeOpc_str (toNat_of_field ho.opc (by omega)) hlo hhi).trans
    (hd _ _ (hfield ▸ asrcOf_code f.c) (strOf_ok_iff.2 ⟨hf, rfl, rfl⟩)))

theorem Instr.Reads.strCtl {f : StrCtl} {len2 : BitVec 10} (he : encode i = wordsLX (encStrCtl opc x len2 f) f.lit)
    (hlo : 0x160 ≤ opc) (hhi : opc < 0x180) (hx : x < 16)
    (hd : ∀ w lit, cfOf w = x → len2Of w = len2 → strCtlOf w lit = .ok f → decodeStr (opc - 0x160) w lit = .ok i) :
    i.Reads := by
  obtain ⟨ho, hf, hcf, hlen⟩ := encStrCtl_eq_iff.1 (Eq.refl (encStrCtl opc x len2 f))
  exact .long hc he ho.fmt ((decodeOpc_str (toNat_of_field ho.opc (by omega)) hlo hhi).trans
    (hd _ _ (toNat_of_field hcf hx) hlen (strCtlOf_ok_iff.2 ⟨hf, rfl⟩)))

theorem Instr.Reads.mem {f : Mem} (he : encode i = wordsLX (encMem opc (f.off.extractLsb' 6 6) f) f.lit)
    (hlo : 0x1B0 ≤ opc) (hhi : opc < 0x1C0)
    (hd : ∀ w lit, memOf w lit (offOf w) = .ok f → decodeMem (opc - 0x1B0) w lit = .ok i) : i.Reads := by
  obtain ⟨ho, hf, hoff⟩ := encMem_eq_iff.1 (Eq.refl (encMem opc (f.off.extractLsb' 6 6) f))
  exact .long hc he ho.fmt ((decodeOpc_mem (toNat_of_field ho.opc (by omega)) hlo hhi).trans
    (hd _ _ (memOf_ok_iff.2 ⟨hf, rfl, offOf_eq_iff.2 hoff⟩)))

theorem Instr.Reads.atomic {f : Mem} {op : AOp} {ord : Ord4}
    (he : encode i = wordsLX (encMem opc (BitVec.ofNat 4 op.code ++ ord.code) f) f.lit) (hlo : 0x1B0 ≤ opc)
    (hhi : opc < 0x1C0) (hoff : f.off = 0)
    (hd : ∀ w lit, aopOf (w.extractLsb' 27 4).toNat = .ok op → ordOf (w.extractLsb' 25 2) = ord →
      memOf w lit (0#6 ++ w.extractLsb' 3 6) = .ok f → decodeMem (opc - 0x1B0) w lit = .ok i) : i.Reads := by
  obtain ⟨ho, hf, hhigh, hlow⟩ := encMem_eq_iff.1 (Eq.refl (encMem opc (BitVec.ofNat 4 op.code ++ ord.code) f))
  obtain ⟨hop, hord⟩ := bitVec_append_inj ((ex_join _ 27 25 4 2 rfl).trans hhigh)
  refine .long hc he ho.fmt ((decodeOpc_mem (toNat_of_field ho.opc (by omega)) hlo hhi).trans
    (hd _ _ ?_ ?_ (memOf_ok_iff.2 ⟨hf, rfl, hlow ▸ lowOff_eq hoff⟩)))
  · rw [hop, toNat_aopField, aopOf_code]
  · rw [hord, ordOf_code]

theorem Instr.Reads.mat {f : Mat} (he : encode i = wordsLX (encMat opc f) f.lit) (hlo : 0x1C0 ≤ opc) (hhi : opc < 0x1C8)
    (hd : ∀ w lit, matOf w lit = .ok f → decodeMat (opc - 0x1C0) w lit = .ok i) : i.Reads := by
  obtain ⟨ho, hf⟩ := encMat_eq_iff.1 (Eq.refl (encMat opc f))
  exact .long hc he ho.fmt ((decodeOpc_mat (toNat_of_field ho.opc (by omega)) hlo hhi).trans
    (hd _ _ (matOf_ok_iff.2 ⟨hf, rfl⟩)))

theorem Instr.Reads.eng {f : Eng} (he : encode i = wordsLX (encEng opc x f) f.lit) (hlo : 0x1C8 ≤ opc)
    (hhi : opc < 0x1E8) (hx : x < 128)
    (hd : ∀ w lit, cmdOf w = x → engOf w lit = .ok f → decodeEng (opc - 0x1C8) w lit = .ok i) : i.Reads := by
  obtain ⟨ho, hf, hcmd⟩ := encEng_eq_iff.1 (Eq.refl (encEng opc x f))
  exact .long hc he ho.fmt ((decodeOpc_eng (toNat_of_field ho.opc (by omega)) hlo hhi).trans
    (hd _ _ (toNat_of_field hcmd hx) (engOf_ok_iff.2 ⟨hf, rfl⟩)))

theorem Instr.Reads.ctl {f : Ctl} {len2 : BitVec 10} {lit : Option W32} (hlit : f.lit = lit)
    (he : encode i = wordsLX (encCtl opc x len2 f) lit) (hlo : 0x1E8 ≤ opc) (hlt : opc < 512) (hx : x < 16)
    (hd : ∀ w, cfOf w = x → len2Of w = len2 → ctlOf w lit = .ok f → decodeCtl (opc - 0x1E8) w lit = .ok i) :
    i.Reads := by
  subst hlit
  obtain ⟨ho, hf, hcf, hlen⟩ := encCtl_eq_iff.1 (Eq.refl (encCtl opc x len2 f))
  exact .long hc he ho.fmt ((decodeOpc_ctl (toNat_of_field ho.opc hlt) hlo).trans
    (hd _ (toNat_of_field hcf hx) hlen (ctlOf_ok_iff.2 ⟨hf, rfl⟩)))

theorem Instr.Reads.plain {e : Bool} {off : BitVec 16} (he : encode i = wordsLX (encCtl opc x 0 (plainCtlF e off)) none)
    (hlo : 0x1E8 ≤ opc) (hlt : opc < 512) (hx : x < 16)
    (hd : ∀ w, cfOf w = x → (∀ code, (code = false → off = 0) → plainOf w none code = .ok (e, off)) →
      decodeCtl (opc - 0x1E8) w none = .ok i) : i.Reads :=
  .ctl hc rfl he hlo hlt hx fun w hcf hlen hf =>
    hd w hcf fun _ hoff => plainOf_ok_iff.2 ⟨(ctlOf_ok_iff.1 hf).1, rfl, hlen, hoff⟩

/-- An S word that its opcode's row reads (R96). -/
theorem Instr.Reads.short {f : Short} (he : encode i = [encShort opc f]) (hlt : opc < 128)
    (hd : ∀ w, (w.extractLsb' 22 7).toNat = opc → shortOf w = .ok f → decodeShort w = .ok i) : i.Reads := by
  intro rest
  obtain ⟨hfmt, hops, hf⟩ := encShort_eq_iff.1 (Eq.refl (encShort opc f))
  have hread := hd _ (toNat_of_field hops hlt) (shortOf_ok_iff.2 hf)
  rw [he]
  simp only [List.cons_append, List.nil_append, decodeWords, hfmt]
  exact checked_bind_ok_iff.2 ⟨hread, hc, rfl⟩

end Layouts

/-! ### By blocks -/

/-- An instruction of fewer than three sources leaves C unused (R78). -/
theorem Alu.c_zero {f : Alu} {n : Nat} {rnd : Bool} (h : firstBad (f.checks n rnd) = none) (hn : n < 3) :
    f.c = .zero := by
  simp only [Alu.checks, firstBad_cons_iff] at h
  obtain ⟨-, -, hc, -⟩ := h
  have hn3 : decide (n ≥ 3) = false := decide_eq_false (Nat.not_le.2 hn)
  simp only [hn3, Bool.false_or, Bool.and_eq_true, decide_eq_true_eq] at hc
  exact hc.1

theorem Str.c_zero {f : Str} {n : Nat} {hasD : Bool} (h : firstBad (f.checks n hasD) = none) (hn : n < 3) :
    f.c = .zero := by
  simp only [Str.checks, firstBad_cons_iff] at h
  obtain ⟨-, -, -, hc, -⟩ := h
  have hn3 : decide (n ≥ 3) = false := decide_eq_false (Nat.not_le.2 hn)
  simpa only [hn3, Bool.false_or, decide_eq_true_eq] using hc

theorem Ty.code_lt (t : Ty) : t.code < 16 := by
  obtain ⟨s, w⟩ | t | _ | _ | _ := t
  · exact Nat.lt_of_lt_of_le (ITy.code_lt ⟨s, w⟩) (by decide)
  · cases t <;> decide
  all_goals decide

/-- A word that holds C can be read without it. -/
theorem aluOf_zero_of_aluC {w : BitVec 64} {lit : Option W32} {f : Alu} (h : aluC w lit = .ok f) :
    aluOf w lit .zero = .ok { f with c := .zero } := by
  obtain ⟨⟨he, hpm, hd, ha, hb, hhold, hxa, hxb, hxc, hrm⟩, hlit, -⟩ := aluC_ok_iff.1 h
  exact aluOf_ok_iff.2 ⟨⟨he, hpm, hd, ha, hb, hhold, hxa, hxb, hxc, hrm⟩, hlit, rfl⟩

/-- An atomic has no offset (R83). -/
theorem Mem.off_zero {op : AOp} {f : Mem} (h : firstBad (f.atomChecks op) = none) : f.off = 0 := by
  simp only [Mem.atomChecks, firstBad_cons_iff, Bool.and_eq_true, decide_eq_true_eq] at h
  obtain ⟨-, -, -, ⟨hoff, -⟩, -⟩ := h
  exact hoff

/-- A CTL instruction without a target has neither offset nor literal (R86, R88). -/
theorem Ctl.bare {f : Ctl} {n : Nat} {dOk : Bool} (h : firstBad (f.checks n false dOk) = none) :
    f.off = 0 ∧ f.lit = none := by
  simp only [Ctl.checks, firstBad_cons_iff, Bool.false_or, decide_eq_true_eq, Option.isNone_iff_eq_none] at h
  obtain ⟨-, -, -, -, hoff, hlit, -⟩ := h
  exact ⟨hoff, hlit⟩

theorem csrNum_lt (n : BitVec 12) : n.toNat % 65536 < 4096 := by
  have := n.isLt
  omega

theorem csrNum_field (n : BitVec 12) : (n.setWidth 16).extractLsb' 0 12 = n := by
  apply BitVec.eq_of_toNat_eq
  have := n.isLt
  simp only [BitVec.extractLsb'_toNat, BitVec.toNat_setWidth, Nat.shiftRight_zero]
  omega

/-- A flag in the bit of weight n, above a number below n. -/
theorem decide_weight {n x y : Nat} (b : Bool) (hy : y < n) (hx : x = y + n * boolN b) : decide (n ≤ x) = b := by
  subst hx
  cases b with
  | false => exact decide_eq_false (by simpa [boolN] using hy)
  | true => exact decide_eq_true (by simp [boolN])

theorem collKindOf_code (k : CollKind) : collKindOf k.code = k := by cases k <;> rfl

theorem firstBad_tail {p : Bool × Bad} {cs : List (Bool × Bad)} (h : firstBad (p :: cs) = none) : firstBad cs = none :=
  (firstBad_cons_iff.1 h).2

@[simp] theorem boolN_le_one (b : Bool) : boolN b ≤ 1 := by cases b <;> decide

@[simp] theorem boolN_eq_one (b : Bool) : decide (boolN b = 1) = b := by cases b <;> rfl

section Blocks

variable {base x : Nat} {f : Alu} {t : ITy} {u : FTy}

/-- A row of the integer block that holds C (R93). -/
theorem Instr.Reads.intC {k : ITy → Alu → Instr} (hc : (k t f).check = none)
    (he : encode (k t f) = wordsLX (encAlu (base + t.code) none f) f.lit) (hbase : base % 8 = 0) (hlt : base < 0x100)
    (hk : ∀ tc w lit, decodeInt (base / 8) tc w lit = aluC w lit >>= fun f => pure (k (ityOf tc) f)) :
    (k t f).Reads := by
  have ht := t.code_lt
  refine .of_aluC hc he (by omega) fun w lit ho hf => ?_
  rw [decodeOpc_int (row := base / 8) (tc := t.code) (by omega) (by omega) ht, hk, hf, ityOf_code]
  rfl

/-- A row of the integer block that holds FN. -/
theorem Instr.Reads.intFn {i : Instr} (hc : i.check = none)
    (he : encode i = wordsLX (encAlu (base + t.code) (some x) f) f.lit) (hbase : base % 8 = 0) (hlt : base < 0x100)
    (hx : x < 64) (hzero : f.c = .zero)
    (hk : ∀ w lit, fnOf w = x → aluOf w lit .zero = .ok f → decodeInt (base / 8) t.code w lit = .ok i) : i.Reads := by
  have ht := t.code_lt
  refine .of_aluFn hc he (by omega) hx hzero fun w lit ho hfn hf => ?_
  rw [decodeOpc_int (row := base / 8) (tc := t.code) (by omega) (by omega) ht, hk w lit hfn hf]

/-- A row of the float block that holds C (R94). -/
theorem Instr.Reads.fltC {k : FTy → Alu → Instr} (hc : (k u f).check = none)
    (he : encode (k u f) = wordsLX (encAlu (base + u.code) none f) f.lit) (hbase : base % 4 = 0) (hlo : 248 ≤ base)
    (hhi : base < 248 + 0x60)
    (hk : ∀ tc w lit, decodeFlt ((base - 248) / 4) tc w lit = aluC w lit >>= fun f => pure (k (ftyOf tc) f)) :
    (k u f).Reads := by
  have hu : 8 ≤ u.code ∧ u.code < 12 := by cases u <;> decide
  refine .of_aluC hc he (by omega) fun w lit ho hf => ?_
  rw [decodeOpc_flt (row := (base - 248) / 4) (tc := u.code - 8) (by omega) (by omega) (by omega), hk, hf, ftyOf_code]
  rfl

theorem ttyOf_code (t : TTy) : ttyOf (t.code - 8) = .ok t := by cases t <;> rfl

/-- A row of the float block for a function (R94). -/
theorem Instr.Reads.fltT {k : TTy → Alu → Instr} {u : TTy} (hc : (k u f).check = none)
    (he : encode (k u f) = wordsLX (encAlu (base + u.code) none f) f.lit) (hbase : base % 4 = 0) (hlo : 248 ≤ base)
    (hhi : base < 248 + 0x60)
    (hk : ∀ tc w lit, decodeFlt ((base - 248) / 4) tc w lit =
      ttyOf tc >>= fun t => aluC w lit >>= fun f => pure (k t f)) :
    (k u f).Reads := by
  have hu : 8 ≤ u.code ∧ u.code < 12 := by cases u <;> decide
  refine .of_aluC hc he (by omega) fun w lit ho hf => ?_
  rw [decodeOpc_flt (row := (base - 248) / 4) (tc := u.code - 8) (by omega) (by omega) (by omega), hk, hf, ttyOf_code]
  rfl

/-- A row of the integer block for signed types alone (R93). -/
theorem Instr.Reads.intSigned {k : Width → Alu → Instr} {n : Width} (hc : (k n f).check = none)
    (he : encode (k n f) = wordsLX (encAlu (base + n.code) none f) f.lit) (hbase : base % 8 = 0) (hlt : base < 0x100)
    (hk : ∀ tc w lit, decodeInt (base / 8) tc w lit =
      need (tc < 4) .typeNotAllowed >>= fun _ => aluC w lit >>= fun f => pure (k (ityOf tc).width f)) :
    (k n f).Reads := by
  have hn := n.code_lt
  refine .of_aluC hc he (by omega) fun w lit ho hf => ?_
  rw [decodeOpc_int (row := base / 8) (tc := n.code) (by omega) (by omega) (by omega), hk, hf, decide_eq_true hn]
  cases n <;> rfl

/-- A row of the other ALU opcodes that holds FN (R95). -/
theorem Instr.Reads.alu2 {i : Instr} {opc : Nat} (hc : i.check = none)
    (he : encode i = wordsLX (encAlu opc (some x) f) f.lit) (hlo : 0x180 ≤ opc) (hhi : opc < 0x1B0) (hx : x < 64)
    (hzero : f.c = .zero)
    (hk : ∀ w lit, fnOf w = x → aluOf w lit .zero = .ok f → decodeAlu2 (opc - 0x180) w lit = .ok i) : i.Reads :=
  .of_aluFn hc he (by omega) hx hzero fun w lit ho hfn hf => (decodeOpc_alu2 ho hlo hhi).trans (hk w lit hfn hf)

end Blocks

/-! ### Rows of their own -/

section Rows

variable {f : Alu} {g : Eng}

theorem reads_iadd {b : Bool} {t : ITy} (hc : (Instr.iadd b t f).check = none) : (Instr.iadd b t f).Reads := by
  refine .intFn (base := 0) (t := t) hc (by rw [Nat.zero_add]; rfl) (by decide) (by decide)
    (Nat.lt_of_le_of_lt (boolN_le_one b) (by decide)) (Alu.c_zero (n := 2) hc (by decide)) fun w lit hx hf => ?_
  simp [decodeInt, hx, hf, ityOf_code]

theorem reads_isub {b : Bool} {t : ITy} (hc : (Instr.isub b t f).check = none) : (Instr.isub b t f).Reads := by
  refine .intFn (t := t) hc rfl (by decide) (by decide) (Nat.lt_of_le_of_lt (boolN_le_one b) (by decide))
    (Alu.c_zero (n := 2) hc (by decide)) fun w lit hx hf => ?_
  simp [decodeInt, hx, hf, ityOf_code]

theorem reads_icmp {c : Icc} {t : ITy} (hc : (Instr.icmp c t f).check = none) : (Instr.icmp c t f).Reads := by
  refine .intFn (t := t) hc rfl (by decide) (by decide) (by cases c <;> decide) (Alu.c_zero (n := 2) hc (by decide))
    fun w lit hx hf => ?_
  simp [decodeInt, hx, hf, ityOf_code, iccOf_code]

theorem reads_lea {b : Bool} {k : Fin 8} (hc : (Instr.lea b k f).check = none) : (Instr.lea b k f).Reads := by
  refine .intFn (base := 80) (t := ⟨b, .b64⟩) hc (by cases b <;> rfl) (by decide) (by decide)
    (Nat.lt_of_lt_of_le k.isLt (by decide)) (Alu.c_zero (n := 2) hc (by decide)) fun w lit hx hf => ?_
  cases b <;> simp [decodeInt, hx, hf, ITy.code, Width.code, ityOf]

theorem reads_fcmp {c : Fcc} {t : FTy} (hc : (Instr.fcmp c t f).check = none) : (Instr.fcmp c t f).Reads := by
  have ht : 8 ≤ t.code ∧ t.code < 12 := by cases t <;> decide
  refine .of_aluFn hc rfl (by omega) (by cases c <;> decide) (Alu.c_zero (n := 2) hc (by decide))
    fun w lit ho hx hf => ?_
  rw [decodeOpc_flt (row := 6) (tc := t.code - 8) (by omega) (by decide) (by omega)]
  simp [decodeFlt, hx, hf, ftyOf_code, fccOf_code]

theorem reads_red {o : RedOp} {t : Ty} (hc : (Instr.red o t f).check = none) : (Instr.red o t f).Reads := by
  have ho : o.code < 8 := by cases o <;> decide
  have ht := t.code_lt
  refine .alu2 hc rfl (by omega) (by omega) (by omega) (Alu.c_zero (n := 1) (firstBad_tail hc) (by decide))
    fun w lit hx hf => ?_
  simp [decodeAlu2, hx, hf, ho, ht, redOf_code, tyOf_code]

theorem reads_scan {o : RedOp} {e : Bool} {t : Ty} (hc : (Instr.scan o e t f).check = none) :
    (Instr.scan o e t f).Reads := by
  have ho : o.code < 8 := by cases o <;> decide
  have ht := t.code_lt
  have he := boolN_le_one e
  refine .alu2 hc rfl (by omega) (by omega) (by omega) (Alu.c_zero (n := 1) (firstBad_tail hc) (by decide))
    fun w lit hx hf => ?_
  have hrow : 0x188 + o.code - 0x180 = 8 + o.code := by omega
  have hhi : 8 + o.code < 16 := by omega
  have hlt : fnOf w < 32 := by omega
  have hexcl : decide (16 ≤ fnOf w) = e := decide_weight (y := t.code) e ht (by omega)
  have hty : fnOf w % 16 = t.code := by omega
  simp [decodeAlu2, hf, hrow, hhi, hlt, hexcl, hty, redOf_code, tyOf_code]

theorem reads_cvt {d s : Ty} {p : Fin 4} (hc : (Instr.cvt d s p f).check = none) : (Instr.cvt d s p f).Reads := by
  have hd := d.code_lt
  have hs := s.code_lt
  refine .alu2 hc rfl (by omega) (by omega) (by omega) (Alu.c_zero (n := 1) (firstBad_tail hc) (by decide))
    fun w lit hx hf => ?_
  have hrow : 0x190 + s.code - 0x180 = 16 + s.code := by omega
  have hlo : ¬16 + s.code < 8 := by omega
  have hhi : 16 + s.code < 32 := by omega
  have hdst : fnOf w % 16 = d.code := by omega
  have hpart : fnOf w / 16 = p.val := by omega
  simp [decodeAlu2, hf, hrow, hlo, hhi, hdst, hpart, tyOf_code]

theorem reads_amax {t : FTy} (hc : (Instr.amax t f).check = none) : (Instr.amax t f).Reads := by
  have ht : 8 ≤ t.code ∧ t.code < 12 := by cases t <;> decide
  refine .alu2 hc rfl (by decide) (by decide) (by omega) (Alu.c_zero (n := 2) hc (by decide)) fun w lit hx hf => ?_
  simp [decodeAlu2, hx, hf, ht, ftyOf_code]

theorem reads_vote {v : VoteFn} (hc : (Instr.vote v f).check = none) : (Instr.vote v f).Reads := by
  refine .alu2 hc rfl (by decide) (by decide) (by cases v <;> decide) (Alu.c_zero (n := 1) hc (by decide))
    fun w lit hx hf => ?_
  simp [decodeAlu2, hx, hf, voteOf_code]

theorem reads_wsync (hc : (Instr.wsync f).check = none) : (Instr.wsync f).Reads := by
  refine .of_aluC hc rfl (by decide) fun w lit ho hf => ?_
  rw [decodeOpc_alu2 ho (by decide) (by decide)]
  simp [decodeAlu2, aluOf_zero_of_aluC hf, hf]

theorem reads_movm {k : Fin 8} {r : Bool} {n : Width} (hc : (Instr.movm k r n f).check = none) :
    (Instr.movm k r n f).Reads := by
  have hr := boolN_le_one r
  have hn := n.code_lt
  refine .alu2 hc rfl (by decide) (by decide) (by omega)
    (Alu.c_zero (n := if r then 0 else 1) (firstBad_tail hc) (by cases r <;> decide)) fun w lit hx hf => ?_
  have hmask : fnOf w / 8 = k.val := by omega
  have hdir : fnOf w / 4 % 2 = boolN r := by omega
  have hwidth : 3 - fnOf w % 4 = n.code := by omega
  simp [decodeAlu2, hf, hmask, hdir, hwidth, widthOf_code]

theorem reads_movs {c : Fin 64} (hc : (Instr.movs c f).check = none) : (Instr.movs c f).Reads := by
  refine .alu2 hc rfl (by decide) (by decide) c.isLt (Alu.c_zero (n := 0) (firstBad_tail hc) (by decide))
    fun w lit hx hf => ?_
  simp [decodeAlu2, hx, hf]

theorem reads_copy {l : Width} {s d : Bool} (hc : (Instr.copy l s d g).check = none) : (Instr.copy l s d g).Reads := by
  have hl := l.code_lt
  have hs := boolN_le_one s
  have hd := boolN_le_one d
  refine .eng hc rfl (by decide) (by decide) (by omega) fun w lit hx hf => ?_
  have hlt : cmdOf w < 16 := by omega
  have hgran : cmdOf w % 4 = l.code := by omega
  have hsrc : cmdOf w / 4 % 2 = boolN s := by omega
  have hdst : cmdOf w / 8 % 2 = boolN d := by omega
  simp [decodeEng, hf, hlt, hgran, hsrc, hdst, widthOf_code]

theorem reads_ncall {k : Fin 8} {m : Fin 4} (hc : (Instr.ncall k m g).check = none) : (Instr.ncall k m g).Reads := by
  refine .eng hc rfl (by decide) (by decide) (by omega) fun w lit hx hf => ?_
  have hlt : cmdOf w < 32 := by omega
  have hkin : cmdOf w % 8 = k.val := by omega
  have hmout : cmdOf w / 8 = m.val := by omega
  simp [decodeEng, hf, hlt, hkin, hmout]

theorem reads_gmv {k : Fin 8} (hc : (Instr.gmv k g).check = none) : (Instr.gmv k g).Reads := by
  refine .eng hc rfl (by decide) (by decide) (by omega) fun w lit hx hf => ?_
  have hlt : cmdOf w < 32 := by omega
  have hlow : cmdOf w % 4 = 0 := by omega
  have hslot : cmdOf w / 4 = k.val := by omega
  simp [decodeEng, hf, hlt, hlow, hslot]

theorem reads_gmm {v : Fin 4} {k : Fin 8} (hc : (Instr.gmm v k g).check = none) : (Instr.gmm v k g).Reads := by
  refine .eng hc rfl (by decide) (by decide) (by omega) fun w lit hx hf => ?_
  have hlt : cmdOf w < 32 := by omega
  have hvar : cmdOf w % 4 = v.val := by omega
  have hslot : cmdOf w / 4 = k.val := by omega
  simp [decodeEng, hf, hlt, hvar, hslot]

theorem reads_binapp {op : AOp} {b : Bool} (hc : (Instr.binapp op b g).check = none) : (Instr.binapp op b g).Reads := by
  have hop : op.code < 16 := by cases op <;> decide
  have hb := boolN_le_one b
  refine .eng hc rfl (by decide) (by decide) (by omega) fun w lit hx hf => ?_
  have hlt : cmdOf w < 32 := by omega
  have hcode : cmdOf w % 16 = op.code := by omega
  have hwide : decide (16 ≤ cmdOf w) = b := decide_weight (y := op.code) b hop (by omega)
  simp [decodeEng, hf, hlt, hcode, hwide, aopOf_code]

theorem reads_hashb {k : Fin 8} {p : Fin 16} (hc : (Instr.hashb k p g).check = none) : (Instr.hashb k p g).Reads := by
  refine .eng hc rfl (by decide) (by decide) (by omega) fun w lit hx hf => ?_
  have hkin : cmdOf w % 8 = k.val := by omega
  have hproj : cmdOf w / 8 = p.val := by omega
  simp [decodeEng, hf, hkin, hproj]

theorem Lod.code_lt (l : Lod) : l.code < 4 := by cases l <;> decide

theorem reads_tex {l : Lod} (hc : (Instr.tex l g).check = none) : (Instr.tex l g).Reads := by
  have hl := l.code_lt
  refine .eng hc rfl (by decide) (by decide) (by omega) fun w lit hx hf => ?_
  simp [decodeEng, hf, hx, hl, lodOf_code]

theorem reads_texg {l : Lod} {c : Fin 4} (hc : (Instr.texg l c g).check = none) : (Instr.texg l c g).Reads := by
  have hl := l.code_lt
  refine .eng hc rfl (by decide) (by decide) (by omega) fun w lit hx hf => ?_
  have hlt : cmdOf w < 16 := by omega
  have hlod : cmdOf w % 4 = l.code := by omega
  have hch : cmdOf w / 4 = c.val := by omega
  simp [decodeEng, hf, hlt, hlod, hch, lodOf_code]

theorem reads_exportV {k : Fin 16} {d : Bool} (hc : (Instr.exportV k d g).check = none) :
    (Instr.exportV k d g).Reads := by
  have hd := boolN_le_one d
  refine .eng hc rfl (by decide) (by decide) (by omega) fun w lit hx hf => ?_
  have hlt : cmdOf w < 32 := by omega
  have htgt : cmdOf w % 16 = k.val := by omega
  have hdepth : decide (16 ≤ cmdOf w) = d := decide_weight (y := k.val) d k.isLt (by omega)
  simp [decodeEng, hf, hlt, htgt, hdepth]

theorem reads_rayq {a c : Bool} (hc : (Instr.rayq a c g).check = none) : (Instr.rayq a c g).Reads := by
  have ha := boolN_le_one a
  have hone := boolN_le_one c
  refine .eng hc rfl (by decide) (by decide) (by omega) fun w lit hx hf => ?_
  have hlt : cmdOf w < 4 := by omega
  have hany : cmdOf w % 2 = boolN a := by omega
  have hcull : decide (2 ≤ cmdOf w) = c := decide_weight (y := boolN a) c (by omega) (by omega)
  simp [decodeEng, hf, hlt, hany, hcull]

theorem reads_coll {k : CollKind} {o : CollOp} {t : CollTy} (hc : (Instr.coll k o t g).check = none) :
    (Instr.coll k o t g).Reads := by
  have hk : k.code < 4 := by cases k <;> decide
  have ho : o.code < 4 := by cases o <;> decide
  have ht : t.code < 8 := by cases t <;> decide
  refine .eng hc rfl (by decide) (by decide) (by omega) fun w lit hx hf => ?_
  have hkind : cmdOf w % 4 = k.code := by omega
  have hop : cmdOf w / 4 % 4 = o.code := by omega
  have hty : cmdOf w / 16 = t.code := by omega
  simp [decodeEng, hf, hkind, hop, hty, collKindOf_code, collOpOf_code, collTyOf_code]

/-- R380: the register's number stands in OFF, which the instruction has not otherwise. -/
theorem reads_csrr {n : BitVec 12} {e : Bool} {d : Dst} (hc : (Instr.csrr n e d).check = none) :
    (Instr.csrr n e d).Reads := by
  refine .ctl (lit := none) hc rfl rfl (by decide) (by decide) (by decide) fun w hx hl hf => ?_
  change ctlOf w none = .ok ⟨e, d, .zero, .own, n.setWidth 16, none⟩ at hf
  simp [decodeCtl, hx, hl, hf, csrNum_lt n, csrNum_field n]

theorem reads_csrw {n : BitVec 12} {f : Ctl} (hc : (Instr.csrw n f).check = none) : (Instr.csrw n f).Reads := by
  obtain ⟨hoff, hlit⟩ := Ctl.bare (n := 1) (firstBad_tail hc)
  obtain ⟨e, d, a, xa, off, lit⟩ := f
  dsimp only at hoff hlit
  subst hoff hlit
  refine .ctl (lit := none) hc rfl rfl (by decide) (by decide) (by decide) fun w hx hl hf => ?_
  simp [decodeCtl, hx, hl, hf, csrNum_lt n, csrNum_field n]

end Rows

/-! ## O46 -/

/-- The map of opcodes and short opcodes: each row reads what the encoder writes for its instruction. -/
theorem reads_of_check {i : Instr} (hs : (i.shape.isSome || i.isStream) = true) (hc : i.check = none) : i.Reads := by
  cases i with
  | imul t f | imulh t f | imad t f | imin t f | imax t f | andI t f | andn t f | orI t f | xorI t f | notI t f
  | shl t f | shr t f | sar t f | rol t f | popc t f | clz t f | brev t f | bfe t f | bfi t f | sel t f =>
    exact .intC hc rfl (by decide) (by decide) fun _ _ _ => rfl
  | iabs n f | ineg n f => exact .intSigned hc rfl (by decide) (by decide) fun _ _ _ => rfl
  | iadd => exact reads_iadd hc
  | isub => exact reads_isub hc
  | icmp => exact reads_icmp hc
  | lea => exact reads_lea hc
  | fadd t f | fsub t f | fmul t f | ffma t f | fmin t f | fmax t f | fclass t f | frnd t f =>
    exact .fltC hc rfl (by decide) (by decide) (by decide) fun _ _ _ => rfl
  | frcp t f | frsq t f | fsqrt t f | fexp2 t f | flog2 t f | fsin t f | fcos t f | ftanh t f | fsigm t f =>
    exact .fltT hc rfl (by decide) (by decide) (by decide) fun _ _ _ => rfl
  | fcmp => exact reads_fcmp hc
  | red => exact reads_red hc
  | scan => exact reads_scan hc
  | cvt => exact reads_cvt hc
  | amax => exact reads_amax hc
  | qscale k f | bpsplit k f | bpjoin k f =>
    exact .alu2 hc rfl (by decide) (by decide) (Nat.lt_of_lt_of_le k.isLt (by decide))
      (Alu.c_zero (n := 1) hc (by decide)) fun w lit hx hf => by simp [decodeAlu2, hx, hf]
  | qpack k f | qunpack k f =>
    exact .alu2 hc rfl (by decide) (by decide) (Nat.lt_of_lt_of_le k.isLt (by decide))
      (Alu.c_zero (n := 2) hc (by decide)) fun w lit hx hf => by simp [decodeAlu2, hx, hf]
  | perm t f =>
    exact .alu2 hc rfl (by decide) (by decide) (Nat.lt_of_lt_of_le t.code_lt (by decide))
      (Alu.c_zero (n := 2) (firstBad_tail hc) (by decide)) fun w lit hx hf => by
        simp [decodeAlu2, hx, hf, t.code_lt, tyOf_code]
  | matchI t f | mov t f =>
    exact .alu2 hc rfl (by decide) (by decide) (Nat.lt_of_lt_of_le t.code_lt (by decide))
      (Alu.c_zero (n := 1) (firstBad_tail hc) (by decide)) fun w lit hx hf => by
        simp [decodeAlu2, hx, hf, t.code_lt, tyOf_code]
  | vote => exact reads_vote hc
  | wsync => exact reads_wsync hc
  | movm => exact reads_movm hc
  | movs => exact reads_movs hc
  | ld f | st f | lda f | stl f | lds f | sts f | ldx f | stx f | ldc f | fence f =>
    exact .mem hc rfl (by decide) (by decide) fun w lit hf => by simp [decodeMem, hf]
  | atom op ord f | atoms op ord f =>
    exact .atomic hc rfl (by decide) (by decide) (Mem.off_zero hc) fun w lit hop hord hf => by
      simp [decodeMem, -BitVec.extractLsb'_toNat, hop, hord, hf]
  | mma f | accload f | accdrain f | accrel f =>
    exact .mat hc rfl (by decide) (by decide) fun w lit hf => by simp [decodeMat, hf]
  | engage f | rdv f | wbind f | wpin f | wunpin f | wpref f | binreplay f | wlinit f | wlpush f | wlins f | wlpopb f
  | enq f | attr f | discard f | deal f =>
    exact .eng hc rfl (by decide) (by decide) (by decide) fun w lit hx hf => by simp [decodeEng, hf, hx]
  | semsig k f | semwait k f | qpop k f | qpush k f =>
    exact .eng hc rfl (by decide) (by decide) (Nat.lt_of_lt_of_le k.isLt (by decide)) fun w lit hx hf => by
      simp [decodeEng, hf, hx]
  | nflush b f | depdec b f =>
    exact .eng hc rfl (by decide) (by decide) (Nat.lt_of_le_of_lt (boolN_le_one b) (by decide)) fun w lit hx hf => by
      simp [decodeEng, hf, hx]
  | copy => exact reads_copy hc
  | ncall => exact reads_ncall hc
  | gmv => exact reads_gmv hc
  | gmm => exact reads_gmm hc
  | binapp => exact reads_binapp hc
  | hashb => exact reads_hashb hc
  | tex => exact reads_tex hc
  | texg => exact reads_texg hc
  | exportV => exact reads_exportV hc
  | rayq => exact reads_rayq hc
  | coll => exact reads_coll hc
  | bra c f =>
    exact .ctl hc rfl rfl (by decide) (by decide) (by cases c <;> decide) fun w hx hl hf => by
      simp [decodeCtl, hx, hl, hf, brOf_code]
  | brx f | call f | ret f | fork f =>
    exact .ctl hc rfl rfl (by decide) (by decide) (by decide) fun w hx hl hf => by simp [decodeCtl, hx, hl, hf]
  | lsetup k l f =>
    exact .ctl hc rfl rfl (by decide) (by decide) (by omega) fun w hx hl hf => by simp [decodeCtl, hx, hl, hf]
  | exit e | fjoin e | bar e | yield e | nop e | trig e | halt e =>
    exact .plain hc rfl (by decide) (by decide) (by decide) fun w hx hf => by
      simp [decodeCtl, hx, hf false fun _ => rfl]
  | cbar b e | rft b e =>
    exact .plain hc rfl (by decide) (by decide) (Nat.lt_of_le_of_lt (boolN_le_one b) (by decide)) fun w hx hf => by
      simp [decodeCtl, hx, hf false fun _ => rfl]
  | trap c e | brk c e =>
    exact .plain hc rfl (by decide) (by decide) (by decide) fun w hx hf => by
      simp [decodeCtl, hx, hf true Bool.noConfusion]
  | csrr => exact reads_csrr hc
  | csrw => exact reads_csrw hc
  | nopS e =>
    exact .short hc rfl (by decide) fun w ho hf => by simp [decodeShort, ho, hf]
  | movS f | ldS64 f | stS64 f | ldsS64 f | stsS64 f | ldS32 f | stS32 f | ldsS32 f | stsS32 f =>
    exact .short hc rfl (by decide) fun w ho hf => by simp [decodeShort, ho, hf]
  | iaddS t f | isubS t f | imulS t f | andS t f | orS t f | xorS t f | shlS t f | shrS t f | iminS t f | imaxS t f =>
    have ht := t.code_lt
    exact .short hc rfl (by omega) fun w ho hf => by
      obtain ⟨s, n⟩ := t
      cases s <;> cases n <;> simp [decodeShort, ho, hf, ITy.code, Width.code, ityOf, widthOf]
  | faddS t f | fsubS t f | fmulS t f | fminS t f | fmaxS t f =>
    have ht : t.code < 12 := by cases t <;> decide
    exact .short hc rfl (by omega) fun w ho hf => by cases t <;> simp [decodeShort, ho, hf, FTy.code, ftyOf]
  | amov b f =>
    exact .strFn hc rfl (by decide) (by decide) (Nat.lt_of_le_of_lt (boolN_le_one b) (by decide))
      (Str.c_zero (n := 1) hc (by decide)) fun w lit hx hf => by simp [decodeStr, hx, hf]
  | aadd f =>
    exact .strFn hc rfl (by decide) (by decide) (by decide) (Str.c_zero (n := 2) hc (by decide)) fun w lit hx hf => by
      simp [decodeStr, hx, hf]
  | amove f =>
    exact .strFn hc rfl (by decide) (by decide) (by decide) (Str.c_zero (n := 2) (firstBad_tail hc) (by decide))
      fun w lit hx hf => by simp [decodeStr, hx, hf]
  | ahalt f =>
    exact .strFn hc rfl (by decide) (by decide) (by decide) (Str.c_zero (n := 0) hc (by decide)) fun w lit hx hf => by
      simp [decodeStr, hx, hf]
  | acmp c f =>
    exact .strFn hc rfl (by decide) (by decide) (by cases c <;> decide) (Str.c_zero (n := 2) hc (by decide))
      fun w lit hx hf => by simp [decodeStr, hx, hf, iccOf_code]
  | asig k f | await k f =>
    exact .strFn hc rfl (by decide) (by decide) (Nat.lt_of_lt_of_le k.isLt (by decide))
      (Str.c_zero (n := 1) hc (by decide)) fun w lit hx hf => by simp [decodeStr, hx, hf]
  | agather f | ascatter f =>
    exact .strC hc rfl (by decide) (by decide) fun w lit ha hf => by simp [decodeStr, ha, hf]
  | abr c f =>
    exact .strCtl hc rfl (by decide) (by decide) (by cases c <;> decide) fun w lit hx hl hf => by
      simp [decodeStr, hx, hl, hf, brOf_code]
  | aloop k l f =>
    exact .strCtl hc rfl (by decide) (by decide) (by omega) fun w lit hx hl hf => by simp [decodeStr, hx, hl, hf]
  -- a device step, which no word encodes
  | _ => cases hs

/-- Settles O46: what the encoder writes into each field of its layout, the row of its opcode reads back. -/
theorem encodeDecode : Obligations.EncodeDecode := by
  unfold Obligations.EncodeDecode
  intro i rest hw
  obtain ⟨hc, hs⟩ := wellFormed_iff.1 hw
  exact reads_of_check hs hc rest

end Sys2Proof

namespace Sys2Proof.Machine

open Sys2Proof

/-! ## Float results (R127 to R130, R389 to R392) -/

/-- Settles O3: FCLASS and AMAX give codes without flags; each other one is its float function, rounded per sub-element. -/
theorem floatResults : Obligations.FloatResults := by
  unfold Obligations.FloatResults
  refine ⟨?fadd, ?fsub, ?fmul, ?ffma, ?fmin, ?fmax, ?fcmp, ?fclass, ?frnd, ?amax, ?faddS, ?fsubS, ?fmulS, ?fminS, ?fmaxS⟩
  case fclass => exact fun t f => (governs_codes (i := .fclass t f) fun _ => rfl).computes
  case amax => exact fun t f => (governs_codes (i := .amax t f) fun _ => rfl).computes
  case fcmp => exact fun cc t f => governs_round (i := .fcmp cc t f) fun _ => rfl
  all_goals exact fun t f => governs_round fun _ => rfl

/-- Settles O4: each of the nine is the body of a float instruction at its function, which R148 rounds correctly (log 3). -/
theorem transcendentals : Obligations.Transcendentals := by
  unfold Obligations.Transcendentals
  refine ⟨?frcp, ?frsq, ?fsqrt, ?fexp2, ?flog2, ?fsin, ?fcos, ?ftanh, ?fsigm⟩
  all_goals exact fun t f => governs_round fun _ => rfl

/-! ## Conversions (R134, R143 to R145, R370, R381, R427) -/

theorem cvtRule_governs (dst src : Ty) (p : Fin 4) (f : Alu) :
    (cvtRule dst src p.val (Mode.ofRm f.rm)).Governs (.cvt dst src p f) :=
  governs_of_body (fun _ _ _ => rfl) fun _ _ _ => rfl

theorem qscaleRule_governs (fs : Fin 8) (f : Alu) : (qscaleRule fs).Governs (.qscale fs f) :=
  governs_of_body (fun _ _ _ => rfl) fun _ _ _ => rfl

/-- QPACK reads its second source in the scale type of the run's slot (R449). -/
theorem qpackRule_governs (fs : Fin 8) (f : Alu) : (qpackRule fs).Governs (.qpack fs f) :=
  governs_of_body (fun s _ h => congrArg (execute s _ · _) (slotTys_of_head h fs _)) fun _ _ _ => rfl

/-- QUNPACK reads its second source as QPACK does. -/
theorem qunpackRule_governs (fs : Fin 8) (f : Alu) : (qunpackRule fs).Governs (.qunpack fs f) :=
  governs_of_body (fun s _ h => congrArg (execute s _ · _) (slotTys_of_head h fs _)) fun _ _ _ => rfl

theorem bpsplitRule_governs (fs : Fin 8) (f : Alu) : (bpsplitRule fs).Governs (.bpsplit fs f) :=
  governs_of_body (fun _ _ _ => rfl) fun _ _ _ => rfl

theorem bpjoinRule_governs (fs : Fin 8) (f : Alu) : (bpjoinRule fs).Governs (.bpjoin fs f) :=
  governs_of_body (fun _ _ _ => rfl) fun _ _ _ => rfl

/-- Settles O7: each conversion's body checks poison and FPX and writes as its rule says. The flags of QSCALE are those of
log 77; a poisoned byte poisons each 4-bit code in it (log 51). -/
theorem conversions : Obligations.Conversions := by
  unfold Obligations.Conversions
  exact ⟨cvtRule_governs, qscaleRule_governs, qpackRule_governs, qunpackRule_governs, bpsplitRule_governs,
    fun fs f => (bpjoinRule_governs fs f).computes⟩

/-! ## Control registers (R380, R399) -/

/-- R380: CSRR of a register that is a thread's gives each lane its committed value, and raises no flag. -/
theorem csrrBody_thread {num : BitVec 12} (h : ¬systemReg num) (s : State) (r : Run) (sh : Shape) :
    csrrBody num s r sh = .done s (r.write (fun _ => 0) fun l regs =>
      regs.put sh.dst .b64 0xFF ⟨(csrRead (s.thread r.wave l).regs num.toNat).zeroExtend 64, 0⟩) .goOn := if_neg h

theorem csrrBody_system {num : BitVec 12} (h : systemReg num) (s : State) (r : Run) (sh : Shape) :
    csrrBody num s r sh = .fault s (privExc r num.toNat) := if_pos h

/-- The effect of CSRW at commit: each lane of the group gets `v` of it in the register, and the group goes on. -/
def csrwEffect (num : BitVec 12) (v : Fin 32 → W32) (t : State) (q : Run) : State :=
  ((lanesOf q.group).foldl (fun t l => t.setRegs q.wave l fun g => csrWrite g num.toNat (v l)) t).goOnRun q

theorem csrwBody_thread {num : BitVec 12} (h : ¬systemReg num) {s : State} {r : Run} {sh : Shape} (hc : CleanLow s r sh) :
    csrwBody num s r sh = .done s r (.own (csrwEffect num fun l => w32 (low32 (s.laneIn r sh [tyW64] l).a))) :=
  (if_neg h).trans (if_neg (not_not.2 hc))

/-- R192: PRIV of a system register is raised whether or not the operand is poisoned. -/
theorem csrwBody_system {num : BitVec 12} (h : systemReg num) (s : State) (r : Run) (sh : Shape) :
    csrwBody num s r sh = .fault s (privExc r num.toNat) := if_pos h

/-- R192: where PRIV is all that a body does, every lane of the group raises it. -/
theorem raises_priv {i : Instr} {tys : List Ty} {body : State → Run → Shape → Body} {sub : Nat}
    (he : ∀ s, exec i s = execute s i tys body) (hb : ∀ s r sh, body s r sh = .fault s (privExc r sub)) :
    Raises i (fun _ r _ x => x = { code := Code.priv, sub := sub, lanes := r.group }) := by
  rintro s r sh _ hr rfl
  exact (he s).trans (execute_fault hr (hb _ _ _))

/-- Settles O26: a system register gives PRIV; of any other, CSRR reads what is committed (log 13) and CSRW writes at commit. -/
theorem controlRegisters : Obligations.ControlRegisters := by
  unfold Obligations.ControlRegisters
  refine ⟨?csrr, ?csrw, ?csrrSystem, ?csrwSystem, ?halt⟩
  case csrr => exact fun num e d s r sh hn hr hf => execute_plain (body := csrrBody num) hr (csrrBody_thread hn _ _ _) hf
  case csrw => exact fun num f hn s r sh hr hc hf => execute_own (body := csrwBody num) hr (csrwBody_thread hn hc) hf
  case csrrSystem => exact fun num e d hn => raises_priv (fun _ => rfl) (csrrBody_system hn)
  case csrwSystem => exact fun num f hn => raises_priv (fun _ => rfl) (csrwBody_system hn)
  case halt => exact fun e => raises_priv (tys := []) (body := haltBody) (fun _ => rfl) fun _ _ _ => rfl

end Sys2Proof.Machine

namespace Sys2Proof.Machine

open Sys2Proof

/-! ## Events that a frozen device holds back -/

/-- An event whose meaning tests first what holds it back turns where nothing does. -/
theorem turns_of_bar {i : Instr} {ok : State → Prop} {t : State → State} {bar : State → Bool}
    (he : ∀ s, exec i s = if bar s then .next s else .next (t s)) (hb : ∀ s, bar s = false ↔ ok s) : Turns i ok t :=
  ⟨fun s h => (he s).trans (if_neg (ne_true_of_eq_false ((hb s).2 h))),
    fun s h => (he s).trans (if_pos (eq_true_of_ne_false (mt (hb s).1 h)))⟩

/-! ## Quotes (R340) -/

/-- What the answer to the oldest quote request leaves (R340): the status says whether the device attested its boot and
has a signature left; only a signed answer takes a leaf. -/
def State.answerQuote (s : State) (q : QuoteReq) (rest : List QuoteReq) : State :=
  let u := { s with quotes := rest }
  let r := s.part q.part
  if s.attested = false then u.setPart q.part { r with qgo := false, qstatus := 2 }
  else if leafCount ≤ s.quoteLeaf then u.setPart q.part { r with qgo := false, qstatus := 1 }
  else { u.setPart q.part { r with qgo := false, qstatus := 0, qresp := u.quoteResponse q } with
    quoteLeaf := s.quoteLeaf + 1 }

theorem exec_quoteDone_nil {part : Nat} {s : State} (hq : s.quotes = []) : exec (.quoteDone part) s = .next s := by
  change execQuoteDone part s = _
  simp only [execQuoteDone, hq]

theorem exec_quoteDone_cons {part : Nat} {s : State} {q : QuoteReq} {rest : List QuoteReq} (hq : s.quotes = q :: rest) :
    exec (.quoteDone part) s =
      if s.frozen = false ∧ q.part = part then .next (s.answerQuote q rest) else .next s := by
  change execQuoteDone part s = _
  simp only [execQuoteDone, hq]
  by_cases h : s.frozen = false ∧ q.part = part
  · obtain ⟨hf, rfl⟩ := h
    simp [hf, State.answerQuote, apply_ite Host.Outcome.next]
  · rw [if_neg h, if_pos (by simpa [imp_iff_not_or] using h)]

/-- The three answers to a quote request exclude each other and leave none out. -/
theorem State.eq_answerQuote_iff {s t : State} {q : QuoteReq} {rest : List QuoteReq} :
    let u := { s with quotes := rest }
    let r := s.part q.part
    t = s.answerQuote q rest ↔
      (s.attested = false ∧ t = u.setPart q.part { r with qgo := false, qstatus := 2 } ∨
        s.attested = true ∧ leafCount ≤ s.quoteLeaf ∧ t = u.setPart q.part { r with qgo := false, qstatus := 1 } ∨
        s.attested = true ∧ s.quoteLeaf < leafCount ∧
          t = { u.setPart q.part { r with qgo := false, qstatus := 0, qresp := u.quoteResponse q } with
            quoteLeaf := s.quoteLeaf + 1 }) := by
  unfold State.answerQuote
  split_ifs with ha hl
  · simp [ha]
  · simp [ha, hl, Nat.not_lt.2 hl]
  · simp [ha, hl, Nat.not_le.1 hl]

/-- Settles O41: a GO bit, a bank's change and a quote request each end by the test that the event makes, unless the
device is frozen. What a harvest walks is log 25, that a bank's change wipes it log 27. -/
theorem managementEvents : Obligations.ManagementEvents := by
  unfold Obligations.ManagementEvents
  refine ⟨fun vf => ?harvest, fun vf => ?tlbinv, fun bank => ?bank, fun part => ?quote⟩
  case harvest => exact turns_of_bar (fun _ => rfl) fun s => by simp
  case tlbinv => exact turns_of_bar (fun _ => rfl) fun s => by simp
  case bank => exact turns_of_bar (bar := State.frozen) (fun _ => rfl) fun _ => Iff.rfl
  case quote =>
    refine becomes_of_cases (fun s t => ?_) fun s => ?_
    · rintro ⟨q, rest, hq, hf, rfl, ht⟩
      rw [exec_quoteDone_cons hq, if_pos ⟨hf, rfl⟩, State.eq_answerQuote_iff.2 ht]
    · cases hq : s.quotes with
      | nil => exact .inl (exec_quoteDone_nil hq)
      | cons q rest =>
        rw [exec_quoteDone_cons hq]
        split
        next h =>
          obtain ⟨hf, rfl⟩ := h
          exact .inr ⟨_, q, rest, rfl, hf, rfl, State.eq_answerQuote_iff.1 rfl⟩
        next => exact .inl rfl

/-! ## Requests between devices (R318, R319) -/

section Requests

variable {dev part p : Nat} {hpa : Word} {k : ReqKind} {s : State}

/-- The partitions whose map and grants let a request of another device pass (R318, log 33). -/
def State.openTo (s : State) (dev part : Nat) (hpa : Word) (k : ReqKind) : List Nat :=
  (List.range 32).filter fun p => s.requestOpen p dev part (ReqKind.writes k) hpa.toNat (ReqKind.size k)

theorem State.openTo_eq_nil
    (h : ∀ p < 32, s.requestOpen p dev part (ReqKind.writes k) hpa.toNat (ReqKind.size k) = false) :
    s.openTo dev part hpa k = [] :=
  List.filter_eq_nil_iff.2 fun p hp => ne_true_of_eq_false (h p (List.mem_range.1 hp))

theorem exec_remoteRequest_served (hf : s.frozen = false)
    (hp : choose (s.pickNo 12 0) (s.openTo dev part hpa k) = some p) :
    exec (.remoteRequest dev part hpa k) s = .next (s.serve p hpa.toNat k) := by
  change execRemoteRequest dev part hpa k s = _
  unfold State.openTo at hp
  simp only [execRemoteRequest, hf, hp, Bool.false_eq_true, if_false]

theorem exec_remoteRequest_refused (hf : s.frozen = false) (hn : s.openTo dev part hpa k = []) :
    exec (.remoteRequest dev part hpa k) s = .next { s with resp := some (0, true), readData := [] } := by
  change execRemoteRequest dev part hpa k s = _
  unfold State.openTo at hn
  simp only [execRemoteRequest, hf, hn, choose, Bool.false_eq_true, if_false]

end Requests

section Remotes

variable {job team wave : Nat} {lane : Fin 32} {hpa : Word} {write : Bool} {s : State} {x : Remote}

theorem exec_remoteRefusal (hx : s.remoteOf job team wave lane hpa write = some x) (hf : s.frozen = false) :
    exec (.remoteRefusal job team wave lane hpa write) s = .next (s.remoteRefuse x) := by
  change execRemoteRefusal job team wave lane hpa write s = _
  simp only [execRemoteRefusal, hx, hf, Bool.false_eq_true, if_false]

/-- R319: a request times out once 2,400,000 cycles have passed since it was sent. -/
theorem exec_remoteTimeout (hx : s.remoteOf job team wave lane hpa write = some x) (hf : s.frozen = false) :
    exec (.remoteTimeout job team wave lane hpa write) s =
      if s.now < x.since + 2400000 then .next s else .next (s.remoteRefuse x) := by
  change execRemoteTimeout job team wave lane hpa write s = _
  simp only [execRemoteTimeout, hx, hf, Bool.false_or, decide_eq_true_eq]

end Remotes

/-- Settles O42: a request by the partitions open to it, one of ours by the cycles since it was sent, a line and an error
by the test that the event makes (logs 33, 34, 43). -/
theorem outsideEvents : Obligations.OutsideEvents := by
  unfold Obligations.OutsideEvents
  refine ⟨fun _ _ _ _ _ _ => exec_remoteRequest_served,
    fun _ _ _ _ _ hf hn => exec_remoteRequest_refused hf (State.openTo_eq_nil hn),
    fun job team wave lane hpa write s x hx hf => ⟨exec_remoteRefusal hx hf, fun hold => ?late, fun hnew => ?early⟩,
    fun core line => ?line, fun job team wave lane r => ?register, fun hpa => ?corrected, fun hpa => ?poisoned⟩
  case late => exact (exec_remoteTimeout hx hf).trans (if_neg (Nat.not_lt.2 hold))
  case early => exact (exec_remoteTimeout hx hf).trans (if_pos hnew)
  case line => exact turns_of_bar (bar := State.frozen) (fun _ => rfl) fun _ => Iff.rfl
  case register => exact turns_of_bar (fun _ => rfl) fun s => by simp
  case corrected => exact turns_of_bar (fun _ => rfl) fun s => by simp
  case poisoned => exact turns_of_bar (fun _ => rfl) fun s => by simp

/-! ## Reset (R337) -/

theorem State.reset_mem_wf : State.reset.mem.wf = true := rfl

/-- The model's choice (log 1): every byte of the memory that reset leaves reads as 0. -/
theorem State.reset_mem_read (a : Nat) : State.reset.mem.read a = 0 := rfl

theorem State.reset_nothingRuns : NothingRuns State.reset := fun _ => ⟨rfl, rfl, rfl⟩

/-- No table holds a partition's registers after reset, so they read as their reset values. -/
theorem State.reset_part (p : Nat) : State.reset.part p = PartRegs.reset p := rfl

theorem State.reset_vf (v : Nat) : State.reset.vf v = VfRegs.reset := rfl

theorem State.reset_bankReg (b : Nat) : State.reset.bankReg b = { bank := b, cfg := bankReset b, due := none } := rfl

/-- R314: no unit belongs to a partition but partition 0 after reset. -/
theorem PartRegs.reset_partown_of_ne {p : Nat} (h : p ≠ 0) : (PartRegs.reset p).partown = 0 := by
  unfold PartRegs.reset
  rw [if_neg h]

theorem PartRegs.reset_grants (p : Nat) (k : Fin 64) : (PartRegs.reset p).grants[k] = 0 :=
  Vector.getElem_replicate k.isLt

/-- Settles O52: each register's table is empty at reset, and its default is the reset value. -/
theorem resetState : Obligations.ResetState := by
  unfold Obligations.ResetState
  refine ⟨State.reset_mem_wf, State.reset_mem_read, State.reset_nothingRuns, rfl, rfl, ?owner, ?others, ?partitions, ?banks,
    ?functions, rfl, rfl, rfl, rfl, rfl⟩
  case owner =>
    rw [State.reset_part]
    unfold PartRegs.reset
    rw [if_pos rfl]
  case others => exact fun p hp => State.reset_part p ▸ PartRegs.reset_partown_of_ne hp
  case partitions => exact fun p => State.reset_part p ▸ ⟨rfl, rfl, PartRegs.reset_grants p⟩
  case banks => exact fun b => by rw [State.reset_bankReg, bankReset]
  case functions => exact fun v => State.reset_vf v ▸ ⟨rfl, rfl, rfl, rfl, rfl, rfl⟩

end Sys2Proof.Machine

namespace Sys2Proof.Machine

open Sys2Proof

/-! ## Atomics and FENCE -/

/-- The run that is handed to an effect at commit has the group of the run that the body leaves. -/
theorem State.afterOwn_congr {s s' : State} {tys : List Ty} {r r' : Run} {sh : Shape} {f g : State → Run → State}
    (h : ∀ t q, q.group = r'.group → f t q = g t q) :
    s.afterOwn tys r sh s' r' f = s.afterOwn tys r sh s' r' g := by
  have hq : (s.runAfter tys r sh r').group = r'.group := rfl
  simp only [State.afterOwn, h _ _ hq]

/-- The order of an atomic's read-modify-writes: the lanes' for a scratchpad, the device's choice for memory (R179). -/
def atomOrder (sp : Space) (a : List AtomReq × List (Fin 32 × Exc) × State) : List AtomReq :=
  if sp = .scr then a.1 else shuffle (fun n => a.2.2.pickNo 4 n) a.1.length a.1

/-- The body of an atomic, by the checks of its lanes (R193, R362). -/
theorem atomBody_eq (sp : Space) (op : AOp) (ord : Ord4) (w : Width) (d : Dst) (s : State) (r : Run) (sh : Shape) :
    atomBody sp op ord w d s r sh =
      let a := atomLanes sp op w d s r sh
      match firstExc a.2.1 with
      | some e => .fault a.2.2 e
      | none => .done a.2.2 r (.own fun t q =>
          atomEffect op ord w d (atomOrder sp a) (q.group &&& ~~~(s.actors r sh)) r.pc (r.next sh) t q) := rfl

theorem atomBody_done {sp : Space} {op : AOp} {w : Width} {d : Dst} {s : State} {r : Run} {sh : Shape}
    (h : (atomLanes sp op w d s r sh).2.1 = []) (ord : Ord4) :
    atomBody sp op ord w d s r sh = .done (atomLanes sp op w d s r sh).2.2 r (.own fun t q =>
      atomEffect op ord w d (atomOrder sp (atomLanes sp op w d s r sh)) (q.group &&& ~~~(s.actors r sh)) r.pc (r.next sh)
        t q) := by
  rw [atomBody_eq]
  simp only [firstExc_none.2 h]

theorem atomBody_fault {sp : Space} {op : AOp} {w : Width} {d : Dst} {s : State} {r : Run} {sh : Shape} {e : Exc}
    (h : firstExc (atomLanes sp op w d s r sh).2.1 = some e) (ord : Ord4) :
    atomBody sp op ord w d s r sh = .fault (atomLanes sp op w d s r sh).2.2 e := by
  rw [atomBody_eq]
  simp only [h]

theorem atomGoverns {sp : Space} {op : AOp} {ord : Ord4} {f : Mem} {i : Instr}
    (he : ∀ s, exec i s = execute s i memTys (atomBody sp op ord f.w f.d)) : AtomGoverns sp op ord f i := by
  intro s r sh hr a
  refine ⟨fun hx hf => ?done, fun e hx => ?fault⟩
  case done =>
    rw [he, execute_own hr (atomBody_done hx ord) hf]
    exact congrArg _ (State.afterOwn_congr fun t q hq => by simp only [hq, atomOrder, a])
  case fault =>
    rw [he]
    exact execute_fault hr (atomBody_fault hx ord)

/-- Settles O11: an atomic's meaning is its lanes' checks and its effect at commit; FENCE only marks its run. -/
theorem atomicsAndFence : Obligations.AtomicsAndFence := by
  unfold Obligations.AtomicsAndFence
  refine ⟨fun _ _ _ => atomGoverns fun _ => rfl, fun _ _ _ => atomGoverns fun _ => rfl, fun f s r sh hr hf => ?fence⟩
  case fence => exact execute_plain (body := fenceBody) hr rfl hf

end Sys2Proof.Machine

namespace Sys2Proof.Machine

open Sys2Proof

/-! ## Addresses that are reached, and addresses that are not -/

section Reach

variable {s : State} {c : Xctx} {va : Nat} {a : Acc} {h : Nat}

/-- An access to an address that is reached ends there, and its translation changes nothing (R172). -/
theorem HeldAs.translate (hh : HeldAs s c va a h) : ∃ x : Xlat, s.translate c va a = .ok (x, s) ∧ x.hpa = h := by
  obtain ⟨hva, hheld, hlocal, hregion⟩ := hh
  obtain ⟨e, he, rfl⟩ := Option.map_eq_some_iff.1 hheld
  have hok : s.hostOk c.part (e.hpa + va % 2 ^ e.log2) = true := by
    obtain hg | ⟨b, hb⟩ := hregion
    · simp [State.hostOk, hlocal, hg]
    · simp [State.hostOk, hlocal, hb]
  refine ⟨{ hpa := e.hpa + va % 2 ^ e.log2, nc := e.nc, used := [] }, ?_, rfl⟩
  unfold State.translate
  rw [if_neg (by simpa using Nat.div_eq_of_lt hva), he]
  simp only [bind, Except.bind, pure, Except.pure, hok]
  rfl

theorem HeldAs.isLocal (hh : HeldAs s c va a h) : s.isLocal h = true := by
  obtain ⟨-, -, hlocal, -⟩ := hh
  exact hlocal

/-- An engine's reads of its sources translate as its other accesses do (R186). -/
theorem HeldAs.src {m : Cmd} (hh : HeldAs s m.ctx va a h) : HeldAs s m.srcCtx va a h := hh

theorem Unmapped.src {m : Cmd} (hu : Unmapped s m.ctx va a) : Unmapped s m.srcCtx va a := hu

/-- The walk to an address whose top-level entry is not valid stops there (R168). -/
theorem State.walk1_invalid {sys : Bool} (hs2 : c.asd.s2en = false)
    (hreach : s.reachable c.part (c.asd.s1root + 8 * (va / 2 ^ 48 % 512)) = true)
    (hv : (s.readDword c.part (c.asd.s1root + 8 * (va / 2 ^ 48 % 512))).getLsbD 0 = false) :
    s.walk1 c.part c.asd sys va a [] 5 c.asd.s1root = .error (.xlate 1 va) := by
  have hmet : (Pte.of (s.readDword c.part (c.asd.s1root + 8 * (va / 2 ^ 48 % 512)))).met 4 false = .bad := by
    simp only [Pte.met, Pte.of, hv, Bool.not_false, Bool.true_or, if_true]
  rw [State.walk1]
  simp [-Nat.reducePow, State.stage2, hs2, Except.mapError, bind, Except.bind, hreach, hmet, throw, throwThe,
    MonadExceptOf.throw, XErr.after, XErr.xlate]

/-- An access to an address without a mapping is an XLATE of stage 1 there (R166 to R168). -/
theorem Unmapped.translate (hu : Unmapped s c va a) : s.translate c va a = .error (.xlate 1 va) := by
  unfold State.translate
  by_cases hva : va / 2 ^ 57 ≠ 0
  · rw [if_pos hva]
    rfl
  · rw [if_neg hva]
    obtain hbig | ⟨hheld, hs2, hreach, hv⟩ := hu
    · exact absurd (Nat.div_pos hbig (by decide)) (by omega)
    · rw [Option.map_eq_none_iff.1 hheld]
      simp only [bind, Except.bind, State.walk1_invalid hs2 hreach hv]

end Reach

/-! ## Writes to addresses that are reached -/

/-- A write of the device changes bytes of memory, with the owners, signatures and L1 lines of its words (R180, R182). -/
theorem State.writePhys_fields (s : State) (p hpa : Nat) (bs : List Byte) :
    ∃ mem owners sigs l1, s.writePhys p hpa bs = { s with mem := mem, owners := owners, sigs := sigs, l1 := l1 } := by
  unfold State.writePhys
  split
  · exact ⟨_, _, _, _, rfl⟩
  · exact ⟨_, _, _, _, rfl⟩

theorem State.poisonLine_fields (s : State) (p hpa : Nat) : ∃ ps, s.poisonLine p hpa = { s with poisoned := ps } := by
  simp only [State.poisonLine]
  split
  · exact ⟨_, rfl⟩
  · exact ⟨_, rfl⟩

theorem HeldAs.writePhys {s : State} {c : Xctx} {va h : Nat} {a : Acc} (hh : HeldAs s c va a h) (p hpa : Nat)
    (bs : List Byte) : HeldAs (s.writePhys p hpa bs) c va a h := by
  obtain ⟨_, _, _, _, e⟩ := s.writePhys_fields p hpa bs
  rw [e]
  exact hh

theorem HeldAs.poisonLine {s : State} {c : Xctx} {va h : Nat} {a : Acc} (hh : HeldAs s c va a h) (p hpa : Nat) :
    HeldAs (s.poisonLine p hpa) c va a h := by
  obtain ⟨_, e⟩ := s.poisonLine_fields p hpa
  rw [e]
  exact hh

/-- A write to an address that is reached is made, and what was reached before it is reached after it. -/
theorem HeldAs.xput {s : State} {c : Xctx} {va h : Nat} (hh : HeldAs s c va .write h) (bs : List Byte) (poison : Bool) :
    ∃ sig t, s.xput c va bs poison = .ok (sig, t) ∧ ∀ x v a k, HeldAs s x v a k → HeldAs t x v a k := by
  obtain ⟨x, hx, -⟩ := hh.translate
  let t := s.writePhys c.part x.hpa bs
  refine ⟨rangeSig x.hpa bs.length, if poison then t.poisonLine c.part x.hpa else t, ?_, fun _ _ _ _ hk => ?_⟩
  · rw [State.xput, hx]
    rfl
  · split
    · exact (hk.writePhys _ _ _).poisonLine _ _
    · exact hk.writePhys _ _ _

theorem State.xputs_held {c : Xctx} (ws : List (Nat × List Byte × Bool)) : ∀ {s : State} (g : Sig),
    (∀ w ∈ ws, ∃ h, HeldAs s c w.1 .write h) → ∃ sig u, s.xputs c ws g = .ok (sig, u) := by
  induction ws with
  | nil => exact fun g _ => ⟨_, _, rfl⟩
  | cons w ws ih =>
    intro s g hw
    obtain ⟨va, bs, p⟩ := w
    obtain ⟨h, hh⟩ := hw _ (List.mem_cons_self ..)
    obtain ⟨g', t, hput, hkeep⟩ := hh.xput bs p
    obtain ⟨sig, u, hrest⟩ := ih (s := t) (g ||| g') fun w hmem =>
      let ⟨k, hk⟩ := hw w (List.mem_cons_of_mem _ hmem)
      ⟨k, hkeep _ _ _ _ hk⟩
    refine ⟨sig, u, ?_⟩
    rw [State.xputs]
    simp only [hput, hrest, bind, Except.bind, Except.mapError]

/-! ## Reads from addresses that are reached -/

/-- A read of a range all of which is reached gives its bytes and changes nothing (R186). -/
theorem State.fetchGo_held {s : State} {c : Xctx} (fuel : Nat) : ∀ {va n : Nat}, HeldRange s c va n .read →
    ∃ bs, s.fetchGo c fuel va n = .got bs s := by
  induction fuel with
  | zero => exact fun _ => ⟨_, rfl⟩
  | succ fuel ih =>
    intro va n hr
    by_cases hn : n = 0
    · exact ⟨[], by rw [State.fetchGo, if_pos hn]⟩
    · obtain ⟨h, hh⟩ := hr 0 (Nat.pos_of_ne_zero hn)
      obtain ⟨x, hx, rfl⟩ := hh.translate
      rw [Nat.add_zero] at hx
      have hrest : HeldRange s c (va + min n (128 - va % 128)) (n - min n (128 - va % 128)) .read := fun i hi => by
        rw [Nat.add_assoc]
        exact hr _ (by omega)
      obtain ⟨bs, hbs⟩ := ih hrest
      rw [State.fetchGo, if_neg hn]
      simp only [hx, hh.isLocal, hbs]
      exact ⟨_, rfl⟩

theorem State.fetch_held {s : State} {c : Xctx} {va n : Nat} (hr : HeldRange s c va n .read) :
    ∃ bs, s.fetch c va n = .got bs s := State.fetchGo_held _ hr

/-- A read whose first address has no mapping stops there (R219). -/
theorem State.fetch_unmapped {s : State} {c : Xctx} {va n : Nat} (hn : n ≠ 0) (hu : Unmapped s c va .read) :
    s.fetch c va n = .stop (.xlate 1 va) := by
  rw [State.fetch, State.fetchGo, if_neg hn]
  simp only [hu.translate]

/-! ## The copy engine -/

section Copies

variable {s : State} {m : Cmd} {k : Copy} {e : Nat}

/-- What a copy within a scratchpad reads: the bytes at its commit (R187, R379). -/
theorem State.copyRead_scr (hs : k.srcS = true) (hd : k.dstS = true) (hp : (s.team m.wave.team).scrPoison = [])
    (n i : Nat) :
    s.copyRead m k e n i =
      .all ((List.range (n * e)).map fun j => m.scr0.read (k.src.toNat + i * e + j)) false s := by
  induction n generalizing i with
  | zero => simp [State.copyRead]
  | succ n ih =>
    have hsplit : List.range ((n + 1) * e) = List.range e ++ (List.range (n * e)).map (e + ·) := by
      rw [Nat.succ_mul, Nat.add_comm, List.range_add]
    have hplace : ∀ j, k.src.toNat + (i + 1) * e + j = k.src.toNat + i * e + (e + j) := fun j => by
      rw [Nat.succ_mul]
      omega
    rw [State.copyRead, ih, hsplit]
    simp [hs, hd, hp, Moved.cons, State.scrSource, hplace, Function.comp_def]

/-- The elements of a source in global memory are read where they are reached. -/
theorem State.copyRead_held (hs : k.srcS = false) : ∀ (n i : Nat),
    (∀ j, i ≤ j → j < i + n → ∃ h, HeldAs s m.ctx (k.src.toNat + j * e) .read h) →
    ∃ bs p, s.copyRead m k e n i = .all bs p s := by
  intro n
  induction n with
  | zero => exact fun i _ => ⟨_, _, rfl⟩
  | succ n ih =>
    intro i hr
    obtain ⟨h, hh⟩ := hr i (Nat.le_refl i) (by omega)
    obtain ⟨x, hx, rfl⟩ := hh.src.translate
    obtain ⟨bs, p, hrest⟩ := ih (i + 1) fun j h1 h2 => hr j (by omega) (by omega)
    rw [State.copyRead]
    simp only [hs, hx, hh.isLocal, hrest]
    exact ⟨_, _, rfl⟩

theorem State.copyRead_unmapped (hs : k.srcS = false) {n i : Nat} (hn : n ≠ 0)
    (hu : Unmapped s m.ctx (k.src.toNat + i * e) .read) :
    s.copyRead m k e n i = .stop (.xlate 1 (k.src.toNat + i * e)) i [] s := by
  obtain ⟨n, rfl⟩ := Nat.exists_eq_succ_of_ne_zero hn
  rw [State.copyRead]
  simp [hs, hu.src.translate]

/-- Destination elements in GDDR 7 that are reached are written in place (R188). -/
theorem State.copyDests_plain {c : Xctx} : ∀ (n i : Nat),
    (∀ j, i ≤ j → j < i + n → ∃ h, HeldAs s c (k.dst.toNat + j * e) .write h ∧ s.region c.part h = some .gddr) →
    s.copyDests c k e n i = (List.replicate n .plain, none, s) := by
  intro n
  induction n with
  | zero => exact fun i _ => rfl
  | succ n ih =>
    intro i hr
    obtain ⟨h, hh, hg⟩ := hr i (Nat.le_refl i) (by omega)
    obtain ⟨x, hx, rfl⟩ := hh.translate
    have hkind : s.destKind c.part x.hpa = .plain := by simp [State.destKind, hh.isLocal, hg]
    rw [State.copyDests]
    simp only [hx, ih (i + 1) fun j h1 h2 => hr j (by omega) (by omega), hkind]
    rfl

/-- A copy to places that are all written in place, with nothing in a shadow, ends with its words written (R188). -/
theorem State.copyGlob_plain {n : Nat} {bs : List Byte} {p : Bool} (hsh : k.shadow = [])
    (hdst : s.copyDests m.ctx k (2 ^ k.log2) (n - k.first) k.first =
      (List.replicate (n - k.first) .plain, none, s))
    (hsrc : s.copyRead m k (2 ^ k.log2) (n - k.first) k.first = .all bs p s) :
    s.copyGlob m k n =
      let w := s.copyWrite m.ctx k p (List.replicate (k.first * 2 ^ k.log2) 0 ++ bs)
        (k.words (k.first * 2 ^ k.log2) (n * 2 ^ k.log2)) m.sig
      .complete 0 w.1 w.2 := by
  have hfull : (List.replicate (n - k.first) DestKind.plain).contains .full = false := by simp
  have hhall : (List.replicate (n - k.first) DestKind.plain).any (fun d => decide (d ≠ .plain)) = false := by simp
  have hat : ∀ j, (List.replicate (n - k.first) DestKind.plain).getD j .plain = .plain := by
    intro j
    rw [List.getD_eq_getElem?_getD, List.getElem?_replicate]
    split <;> rfl
  unfold State.copyGlob
  simp only [hsh, List.isEmpty_nil, if_true, hdst, hsrc, hfull, hhall, hat]
  simp [State.copyWrite, State.uncacheAll]

end Copies

theorem copyEnds : CopyEnds .copyComplete := by
  refine ⟨fun cmd s m k hready hs hd hp => ?scr, fun cmd s m k hready hs hd hsh => ?glob⟩
  case scr =>
    intro e n bs
    have hread := State.copyRead_scr (e := e) hs hd hp (n - k.cursor) k.cursor
    have hrun : s.copyRun m k = .complete 0 0 (if n = 0 then s else s.writeScr m.wave.team k.dst.toNat (k.shadow ++ bs)) := by
      simp only [State.copyRun, hd, if_true, State.copyScr]
      rw [hread]
      rfl
    change execCopyComplete cmd s = _
    simp only [execCopyComplete, hready, hrun]
  case glob =>
    intro e n hreach
    obtain ⟨bs, p, hsrc⟩ := State.copyRead_held (e := e) hs (n - k.first) k.first fun j h1 h2 =>
      (hreach j h1 (by omega)).1
    have hdst := State.copyDests_plain (c := m.ctx) (e := e) (n - k.first) k.first fun j h1 h2 =>
      (hreach j h1 (by omega)).2
    have hrun := State.copyGlob_plain hsh hdst hsrc
    refine ⟨bs, p, _, _, hsrc, rfl, ?_⟩
    change execCopyComplete cmd s = _
    simp only [execCopyComplete, hready, State.copyRun, hd]
    rw [if_neg (by decide), hrun]

theorem copyFaults : CopyFaults .copyFault := by
  intro cmd s m k hready hs hd hleft va hu
  have hread := State.copyRead_unmapped hs (Nat.sub_ne_zero_of_lt hleft) hu
  have hrun : s.copyRun m k = .stuck (.xlate 1 va) k.cursor k.shadow s := by
    simp [State.copyRun, hd, State.copyScr, hread, va]
  change execCopyFault cmd s = _
  simp only [execCopyFault, hready, hrun]

/-! ## The matrix engine -/

theorem State.cmd?_id {s : State} {cmd : Nat} {c : Cmd} (h : s.cmd? cmd = some c) : c.id = cmd := by
  simpa using List.find?_some h

theorem mmaEnds : MmaEnds .mmaComplete := by
  intro cmd s c x k fs kc rows a b hc hkind hturn slot n ha hb
  obtain ⟨as, has⟩ := State.fetch_held (c := c.srcCtx) ha
  obtain ⟨bs, hbs⟩ := State.fetch_held (c := c.srcCtx) hb
  refine ⟨as, bs, has, hbs, ?_⟩
  change (s.mmaWork cmd).out s = _
  simp only [State.mmaWork, hc, hkind, hturn, if_true, State.runMma]
  rw [has]
  simp only [Fetched.bind]
  rw [hbs]
  rfl

theorem mmaFaults : MmaFaults .commandTranslationFault := by
  intro cmd s c x k fs kc rows a b hc hkind hturn hloud hn hu
  have hwork : s.work c = .stop (.xlate 1 a.toNat) := by
    simp only [State.work, hkind, State.mmaWork, State.cmd?_id hc, hc, hturn, if_true, State.runMma,
      State.fetch_unmapped hn hu.src, Fetched.bind]
  change execCommandTranslationFault cmd s = _
  simp only [execCommandTranslationFault, hc, hloud, hwork]
  rfl

/-- The pieces of a row of a drain begin within the row (R230). -/
theorem drainPieces_within {slot : W32} {z : AccSlot} {wid : Word} {rowv colv : List (Byte × Bool)} {a r : Nat}
    {w : Nat × List Byte × Bool} (hw : w ∈ (drainPieces slot z wid rowv colv a r).1) :
    ∃ i < drainRow slot, w.1 = a + r * drainRow slot + i := by
  obtain ⟨i, hi, rfl⟩ := List.mem_map.1 hw
  have hi := List.mem_range.1 hi
  refine ⟨i * min (drainRow slot) 128, ?_, rfl⟩
  have hpos : 0 < min (drainRow slot) 128 := by
    by_contra h
    simp [Nat.eq_zero_of_not_pos h] at hi
  calc i * min (drainRow slot) 128
    _ < (i + 1) * min (drainRow slot) 128 := Nat.mul_lt_mul_of_pos_right (Nat.lt_succ_self i) hpos
    _ ≤ drainRow slot / min (drainRow slot) 128 * min (drainRow slot) 128 := Nat.mul_le_mul_right _ hi
    _ ≤ drainRow slot := Nat.div_mul_le_self _ _

theorem drainEnds : DrainEnds .accdrainComplete := by
  intro cmd s c x k fs rows a hc hkind hturn slot out hheld
  obtain ⟨sig, u, hput⟩ := State.xputs_held (c := c.ctx) (s := s) ((rowsOf rows).flatMap fun r => (out r).1) 0
    fun w hw => by
      obtain ⟨r, hr, hw⟩ := List.mem_flatMap.1 hw
      obtain ⟨i, hi, hva⟩ := drainPieces_within hw
      rw [hva]
      exact hheld r hr i hi
  refine ⟨sig, u, hput, ?_⟩
  intro v w
  change (s.drainWork cmd).out s = _
  simp only [State.drainWork, hc, hkind, hturn, if_true, State.runDrain, State.fetchVec, Fetched.bind]
  rw [hput]
  rfl

/-- Settles O34: each command's work, read off its definition where its operands are reached or not. -/
theorem copyAndTileCompletions : Obligations.CopyAndTileCompletions := by
  unfold Obligations.CopyAndTileCompletions
  exact ⟨copyEnds, copyFaults, mmaEnds, mmaFaults, drainEnds⟩

end Sys2Proof.Machine

namespace Sys2Proof.Machine

open Sys2Proof

/-! ## What a fault record, a sample and a fetch leave of the teams -/

theorem State.Walks.teams {s t : State} (h : s.Walks t) : t.teams = s.teams := by
  obtain ⟨-, _, _, _, _, _, rfl⟩ := h
  rfl

theorem State.xwrite_walks {c : Xctx} : ∀ {fuel va : Nat} {bs : List Byte} {s t : State},
    s.xwrite c fuel va bs = .ok t → s.Walks t := by
  intro fuel
  induction fuel with
  | zero => intro _ _ s _ h; cases h; exact .refl s
  | succ fuel ih =>
    intro va bs s t h
    rw [State.xwrite] at h
    dsimp only at h
    split at h
    · cases h; exact .refl s
    · obtain ⟨⟨x, s1⟩, hx, h⟩ := bind_eq_ok h
      exact (State.translate_walks hx).trans ((State.Walks.writePhys s1 _ _ _).trans (ih (mapError_eq_ok h)))

theorem State.irqVf_teams (s : State) (v src : Nat) : (s.irqVf v src).teams = s.teams := by
  simp only [State.irqVf, State.countUp]
  split
  · exact State.writePhys_teams ..
  · split
    · rfl
    · exact State.writePhys_teams ..

theorem State.irq_teams (s : State) (v src : Nat) : (s.irq v src).teams = s.teams := by
  unfold State.irq
  split
  · exact State.writePhys_teams ..
  · exact State.irqVf_teams ..

theorem State.ringWrite_teams {s t : State} {v : Nat} {k : RingKind} {record : BitVec 512}
    (h : s.ringWrite v k record = some t) : t.teams = s.teams := by
  unfold State.ringWrite at h
  dsimp only at h
  split at h
  · cases h
  · split at h
    · split at h
      · cases h
      · split at h
        · cases h
        · rename_i hw
          cases h
          exact (State.irq_teams ..).trans (State.xwrite_walks hw).teams
    · split at h
      · cases h; rfl
      · split at h
        · cases h
        · rename_i hw
          cases h
          exact (State.xwrite_walks hw).teams
    · split at h
      · cases h
      · rename_i hw
        cases h
        exact (State.irq_teams ..).trans (State.xwrite_walks hw).teams

theorem State.noteStall_teams (s : State) (v : Nat) (k : RingKind) : (s.noteStall v k).teams = s.teams := by
  unfold State.noteStall
  split
  · exact State.irq_teams ..
  · rfl

/-- A record changes no team, written or held back (R195). -/
theorem State.report_teams (s : State) (v : Nat) (k : RingKind) (record : BitVec 512) (into : Option (WaveId × LaneMask)) :
    (s.report v k record into).1.teams = s.teams := by
  simp only [State.report]
  split
  · rename_i hw
    split at hw
    · cases hw
    · exact State.ringWrite_teams hw
  · exact State.noteStall_teams ..

theorem State.sampleRecords_teams (s : State) (v : Nat) (xs : List Sample) (ab st : Bool) :
    (s.sampleRecords v xs ab st).teams = s.teams :=
  foldl_keeps State.teams (fun s _ _ => State.report_teams s ..) s

theorem State.dropRuns_teams (s : State) (p : Run → Bool) : (s.dropRuns p).teams = s.teams := by
  unfold State.dropRuns
  exact foldl_keeps State.teams (fun s _ _ => State.sampleRecords_teams s ..) _

theorem State.fetchInstr_walks {s t : State} {c : Xctx} {va : Word} {ws : List W32}
    (h : s.fetchInstr c va = .ok (ws, t)) : s.Walks t := by
  unfold State.fetchInstr at h
  split at h
  · cases h
  · rename_i x s1 hx
    dsimp only at h
    split at h
    · cases h
      exact State.translate_walks hx
    · split at h
      · cases h
      · rename_i hy
        cases h
        exact (State.translate_walks hx).trans (State.translate_walks hy)

theorem State.touchInstr_teams (s : State) (c : Xctx) (va : Word) : (s.touchInstr c va).teams = s.teams := by
  unfold State.touchInstr
  split
  · rename_i h
    exact (State.fetchInstr_walks h).teams
  · exact (State.Walks.markLeaves _ _ s).teams

/-! ## What becomes of scratchpads -/

/-- Every team's scratchpad stays as it is, or its storage is released, which empties it (R154). -/
def State.ScrKept (s t : State) : Prop := ∀ k, (t.team k).scr = (s.team k).scr ∨ (t.team k).scr = ⟨[]⟩

namespace State.ScrKept

variable {s t u : State}

theorem of_teams (h : t.teams = s.teams) : s.ScrKept t := fun k =>
  .inl (congrArg Team.scr (State.team_congr (State.team?_congr h k)))

theorem refl (s : State) : s.ScrKept s := of_teams rfl

theorem trans (h : s.ScrKept t) (g : t.ScrKept u) : s.ScrKept u := fun k => by
  obtain hg | hg := g k
  · rw [hg]
    exact h k
  · exact .inr hg

/-- A change of every team that keeps its identity, and its scratchpad unless it empties it. -/
theorem map (s : State) {f : Team → Team} (hid : ∀ x, (f x).id = x.id)
    (hscr : ∀ x, (f x).scr = x.scr ∨ (f x).scr = ⟨[]⟩) : s.ScrKept { s with teams := s.teams.map f } := by
  intro k
  have hfound : ({ s with teams := s.teams.map f } : State).team? k = (s.team? k).map f := by
    simp only [State.team?, List.find?_map, Function.comp_def, hid]
  rw [State.team, State.team, hfound]
  cases s.team? k with
  | none => exact .inl rfl
  | some x => exact hscr x

theorem modTeam (s : State) (k : TeamId) {f : Team → Team} (hid : ∀ x, (f x).id = x.id)
    (hscr : ∀ x, (f x).scr = x.scr ∨ (f x).scr = ⟨[]⟩) : s.ScrKept (s.modTeam k f) := by
  refine map s (fun x => ?_) (fun x => ?_)
  · split
    · exact hid x
    · rfl
  · split
    · exact hscr x
    · exact .inl rfl

theorem foldl {α : Type} {f : State → α → State} (hf : ∀ (s : State) a, s.ScrKept (f s a)) (as : List α) :
    ∀ s : State, s.ScrKept (as.foldl f s) := by
  induction as with
  | nil => exact refl
  | cons a as ih => exact fun s => (hf s a).trans (ih _)

theorem unplace (s : State) (k : TeamId) (p : Place) : s.ScrKept (s.unplace k p) := by
  have habort : (s.abortTeam k).teams = s.teams := State.dropRuns_teams s _
  exact (of_teams habort).trans (modTeam _ k (fun _ => rfl) fun _ => .inl rfl)

theorem freeSlots (s : State) (k : TeamId) : s.ScrKept (s.freeSlots k) := of_teams rfl

theorem parkStranded (s : State) : s.ScrKept s.parkStranded :=
  foldl (fun s _ => foldl (fun s _ => unplace s _ _) _ s) _ s

/-- The ends of teams release scratchpads and change none otherwise (R154). -/
theorem settle (s : State) : s.ScrKept s.settle := by
  unfold State.settle
  refine .trans (foldl (fun s x => ?ended) _ s) (.trans (map _ ?id ?release) (.trans (of_teams rfl) (parkStranded _)))
  case ended =>
    refine .trans (modTeam s x.id ?same fun y => ?kept) (freeSlots _ x.id)
    case same => exact fun _ => rfl
    case kept =>
      dsimp only
      split
      · exact .inl rfl
      · exact .inr rfl
  case id =>
    intro x
    dsimp only
    split <;> rfl
  case release =>
    intro x
    dsimp only
    split
    · exact .inr rfl
    · exact .inl rfl

theorem modStream (s : State) (k : TeamId) (f : Stream → Stream) : s.ScrKept (s.modStream k f) :=
  modTeam s k (fun _ => rfl) fun _ => .inl rfl

theorem touchInstr (s : State) (c : Xctx) (va : Word) : s.ScrKept (s.touchInstr c va) :=
  of_teams (State.touchInstr_teams s c va)

theorem strEnter (s : State) (k : TeamId) (h : Word) : s.ScrKept (s.strEnter k h) := by
  unfold State.strEnter
  dsimp only
  split
  · exact (touchInstr s _ h).trans ((touchInstr _ _ _).trans (modStream _ k _))
  · exact (touchInstr s _ h).trans (modStream _ k _)

theorem strGo (s : State) (k : TeamId) (pc : Word) : s.ScrKept (s.strGo k pc) := by
  unfold State.strGo
  dsimp only
  split
  · exact strEnter s k pc
  · exact modStream s k _

/-- The step of a stream program to its next instruction changes no scratchpad but by releasing it (R154, R355). -/
theorem strDone (s : State) (k : TeamId) (x : Team) (lit : Option W32) : s.ScrKept (s.strDone k x lit) :=
  ((modStream s k _).trans (strGo _ k _)).trans (settle _)

end State.ScrKept

end Sys2Proof.Machine

namespace Sys2Proof.Machine

open Sys2Proof

/-! ## AMOVE in a scratchpad, in canonical form or not -/

theorem natLE_lt : ∀ bs : List Byte, natLE bs < 256 ^ bs.length
  | [] => Nat.one_pos
  | b :: bs => by
    have hb := b.isLt
    have hbs := natLE_lt bs
    rw [natLE, List.length_cons, Nat.pow_succ]
    omega

theorem bytesLE_natLE : ∀ bs : List Byte, bytesLE bs.length (natLE bs) = bs
  | [] => rfl
  | b :: bs => by
    have hb := b.isLt
    have hlow : BitVec.ofNat 8 (b.toNat + 256 * natLE bs) = b := by
      apply BitVec.eq_of_toNat_eq
      rw [BitVec.toNat_ofNat]
      omega
    have hhigh : (b.toNat + 256 * natLE bs) / 256 = natLE bs := by omega
    rw [List.length_cons, natLE, bytesLE, hlow, hhigh, bytesLE_natLE bs]

/-- A dword read from memory is written back byte for byte. -/
theorem bytesLE_wordOf {bs : List Byte} (h : bs.length = 8) : bytesLE 8 (wordOf bs).toNat = bs := by
  have hlt : natLE bs < 2 ^ 64 := by
    have := natLE_lt bs
    rwa [h] at this
  have hword : (wordOf bs).toNat = natLE bs := by
    change (BitVec.ofNat 64 (natLE bs)).toNat = _
    rw [BitVec.toNat_ofNat, Nat.mod_eq_of_lt hlt]
  rw [hword, ← h, bytesLE_natLE]

theorem State.team?_modStream {s : State} {t : TeamId} {v : Team} (h : s.team? t = some v) (f : Stream → Stream) :
    (s.modStream t f).team? t = some { v with stream := f v.stream } := by
  have hfound : (s.modStream t f).team? t = _ := State.team?_modTeam (s := s) fun _ h => h
  rw [hfound, h]
  rfl

/-- AMOVE from `a` to `b` in the scratchpad of `t` has read its first `c` bytes, which its program's shadow holds; the
scratchpad is still `m` (R187). -/
def State.MovedTo (s : State) (t : TeamId) (m : Memory) (a b c : Nat) : Prop :=
  ∃ v, s.team? t = some v ∧ v.scr = m ∧ v.stream.cursor = c ∧
    v.stream.shadow = (List.range c).map fun i => (Loc.scr t (b + i), m.read (a + i))

section Move

variable {s : State} {t : TeamId} {m : Memory} {a b c n : Nat}

theorem State.moveDword_scr {v : Team} (hv : s.team? t = some v) : ∃ bad, s.moveDword t (.scr a) (.scr b) =
    .ok ((s.modStream t fun x => x.shade (.scr t (b + v.stream.cursor)) (v.scr.readN (a + v.stream.cursor) 8) bad).modStream t
      fun x => { x with cursor := x.cursor + 8, entry := x.entry.drop 1 }) := by
  have hlen : (v.scr.readN (a + v.stream.cursor) 8).length = 8 := by simp [Memory.readN]
  let x : Val :=
    ⟨wordOf (v.scr.readN (a + v.stream.cursor) 8),
      if v.scrPoison.contains ((a + v.stream.cursor) / 128) then BitVec.allOnes 8 else 0⟩
  refine ⟨x.bad, ?_⟩
  simp only [State.moveDword, SAddr.isQueue, SAddr.plus, State.strRead, State.strWrite, State.readScr,
    State.team_of_team? hv, bytesLE_wordOf hlen, bind, Except.bind, pure, Except.pure, Bool.false_eq_true, if_false]
  rfl

/-- The dwords that a move has read, and the next one. -/
theorem shade_moved (t : TeamId) (m : Memory) (a b c : Nat) :
    ((List.range c).map fun i => (Loc.scr t (b + i), m.read (a + i))) ++
        (List.range (m.readN (a + c) 8).length).map (fun i => ((Loc.scr t (b + c)).plus i, (m.readN (a + c) 8).getD i 0)) =
      (List.range (c + 8)).map fun i => (Loc.scr t (b + i), m.read (a + i)) := by
  rw [List.range_add, List.map_append, List.map_map]
  rfl

theorem State.MovedTo.dword (h : s.MovedTo t m a b c) :
    ∃ s', s.moveDword t (.scr a) (.scr b) = .ok s' ∧ s'.MovedTo t m a b (c + 8) := by
  obtain ⟨v, hv, rfl, rfl, hshadow⟩ := h
  obtain ⟨bad, hmove⟩ := State.moveDword_scr (a := a) (b := b) hv
  refine ⟨_, hmove, _, State.team?_modStream (State.team?_modStream hv _) _, rfl, rfl, ?_⟩
  rw [← shade_moved, ← hshadow]
  rfl

/-- The move goes on to its end and publishes its shadow in one step (R187, R211). -/
theorem State.MovedTo.amoveGo : ∀ (fuel : Nat) {s : State} {c : Nat}, s.MovedTo t m a b c → (n - c) % 8 = 0 → c ≤ n →
    n - c < 8 * fuel → ∃ s' : State, s.amoveGo t (.scr a) (.scr b) n fuel = .next (s'.publish t) ∧ s'.MovedTo t m a b n := by
  intro fuel
  induction fuel with
  | zero => intro _ _ _ _ _ hfuel; exact absurd hfuel (Nat.not_lt_zero _)
  | succ fuel ih =>
    intro s c h heven hle hfuel
    have hcursor : (s.team t).stream.cursor = c := by
      obtain ⟨v, hv, -, hc, -⟩ := h
      rw [State.team_of_team? hv, hc]
    rw [State.amoveGo]
    simp only [Stream.moveTurn, Stream.moveTurn.pull, hcursor]
    by_cases hend : n ≤ c
    · obtain rfl : c = n := by omega
      exact ⟨s, if_pos (Nat.le_refl c), h⟩
    · obtain ⟨s1, hmove, h1⟩ := h.dword
      rw [if_neg hend, hmove]
      exact ih h1 (by omega) (by omega) (by omega)

/-- Publishing bytes in a scratchpad writes them one after another. -/
theorem State.publish_bytes {α : Type} (place : α → Nat) (byte : α → Byte) (is : List α) : ∀ {s : State},
    s.team? t ≠ none →
    (((is.map fun i => (Loc.scr t (place i), byte i)).foldl (fun s p => s.publishByte t p.1 p.2) s).team t).scr =
      is.foldl (fun m i => m.write (place i) (byte i)) (s.team t).scr := by
  induction is with
  | nil => exact fun _ => rfl
  | cons i is ih =>
    intro s ht
    have hstays : (s.writeScr t (place i) [byte i]).team? t ≠ none := by
      have hfound : (s.writeScr t (place i) [byte i]).team? t = _ := State.team?_modTeam (s := s) fun _ h => h
      rw [hfound]
      simpa using ht
    rw [List.map_cons, List.foldl_cons, List.foldl_cons]
    refine (ih hstays).trans ?_
    rw [State.scr_writeScr_same _ _ ht]
    rfl

theorem State.MovedTo.publish_scr (h : s.MovedTo t m a b n) :
    ((s.publish t).team t).scr = (List.range n).foldl (fun m' i => m'.write (b + i) (m.read (a + i))) m := by
  obtain ⟨v, hv, rfl, -, hshadow⟩ := h
  have hteam : s.team t = v := State.team_of_team? hv
  have hbytes := State.publish_bytes (t := t) (fun i => b + i) (fun i => v.scr.read (a + i)) (List.range n) (s := s) (by simp [hv])
  rw [hteam] at hbytes
  rw [State.publish, hteam, hshadow]
  refine (foldl_keeps (fun s : State => (s.team t).scr) (fun s l _ => ?_) _).trans hbytes
  cases l with
  | scr u o =>
    refine State.scr_modTeam_of_keeps ?_ ?_ t
    all_goals exact fun _ => rfl
  | phys p o =>
    obtain ⟨_, e⟩ := s.poisonLine_fields p o
    dsimp only
    rw [e]
    rfl

end Move

/-- AMOVE from one place of a team's scratchpad to another, from its start, ends with the bytes it read written in order,
whatever the scratchpad holds. -/
theorem exec_amove_scr {f : Str} {s : State} {t : TeamId} {u : Team} {a b n : Nat} (hr : StrReady s (.amove f) t u)
    (ha : SAddr.of (u.stream.src f.a f.lit) = .scr a) (hb : SAddr.of (u.stream.src f.b f.lit) = .scr b)
    (hn : (u.stream.dest f.d).toNat = n) (heven : n % 8 = 0 ∧ a % 8 = 0 ∧ b % 8 = 0)
    (hin : a + n ≤ u.scrSize ∧ b + n ≤ u.scrSize) (hstart : u.stream.cursor = 0 ∧ u.stream.shadow = []) :
    ∃ s' : State, exec (.amove f) s = .next (s'.strDone t u f.lit) ∧
      (s'.team t).scr = (List.range n).foldl (fun m i => m.write (b + i) (u.scr.read (a + i))) u.scr := by
  obtain ⟨hn8, ha8, hb8⟩ := heven
  obtain ⟨hain, hbin⟩ := hin
  obtain ⟨hcursor, hshadow⟩ := hstart
  have hat : (s.strAt t u).team? t = some u := (State.team?_congr (State.touchInstr_teams ..) t).trans hr.held
  change ∃ s' : State, execAmove f s = _ ∧ _
  rw [execAmove, strExec_ready hr]
  by_cases h0 : n = 0
  · subst h0
    refine ⟨s.strAt t u, ?_, by rw [State.team_of_team? hat]; rfl⟩
    simp only [hn, if_true]
    rfl
  · have hbegin : (s.strAt t u).MovedTo t u.scr a b 0 := ⟨u, hat, rfl, hcursor, hshadow⟩
    obtain ⟨s', hgo, hend⟩ := hbegin.amoveGo (n := n) (n + 3) hn8 (Nat.zero_le n) (by omega)
    refine ⟨s'.publish t, ?_, hend.publish_scr⟩
    simp [hn, ha, hb, h0, hn8, ha8, hb8, SAddr.aligned, SAddr.outside, Nat.not_lt.2 hain, Nat.not_lt.2 hbin,
      team?_id hr.held, hgo]
    rfl

/-- What `Obligations.StreamMoveCopies` says of AMOVE holds where the scratchpad is in canonical form; its last clause needs
no such form. -/
theorem amove_copies_of_canonical {f : Str} {s : State} {t : TeamId} {u : Team} {a b n : Nat}
    (hr : StrReady s (.amove f) t u)
    (ha : SAddr.of (u.stream.src f.a f.lit) = .scr a) (hb : SAddr.of (u.stream.src f.b f.lit) = .scr b)
    (hn : (u.stream.dest f.d).toNat = n) (heven : n % 8 = 0 ∧ a % 8 = 0 ∧ b % 8 = 0)
    (hin : a + n ≤ u.scrSize ∧ b + n ≤ u.scrSize) (hstart : u.stream.cursor = 0 ∧ u.stream.shadow = []) :
    ∃ s' : State, exec (.amove f) s = .next (s'.strDone t u f.lit) ∧
      (u.scr.wf = true → ∀ i < n, s'.readScr t (b + i) 1 = s.readScr t (a + i) 1) ∧
      ∀ o, ¬(b ≤ o ∧ o < b + n) → s'.readScr t o 1 = s.readScr t o 1 := by
  obtain ⟨s', hexec, hscr⟩ := exec_amove_scr hr ha hb hn heven hin hstart
  have hteam : s.team t = u := State.team_of_team? hr.held
  have hbyte : ∀ (x : State) o, x.readScr t o 1 = [(x.team t).scr.read o] := fun _ _ => rfl
  refine ⟨s', hexec, fun hwf i hi => ?copied, fun o ho => ?other⟩
  case copied =>
    rw [hbyte, hbyte, hscr, hteam]
    exact congrArg (· :: []) (Memory.read_foldl_write (f := fun i => b + i) (g := fun i => u.scr.read (a + i)) hwf hi
      fun _ _ h => Nat.add_left_cancel h)
  case other =>
    rw [hbyte, hbyte, hscr, hteam]
    refine congrArg (· :: []) (foldl_keeps (fun m : Memory => m.read o) (fun m i hi => ?_) _)
    exact Memory.read_write_ne _ fun h => ho (by have := List.mem_range.1 hi; omega)

/-! ## AMOVE in a scratchpad that is not in canonical form

A scratchpad that is not in canonical form can hold two cells for one byte. The 0 that AMOVE writes there takes the first
away and uncovers the second. In canonical form every byte is copied, and the bytes outside the destination stay in either
(`amove_copies_of_canonical`). -/

/-- AMOVE of a3 bytes from a1 to a2. -/
def movesUp : Str := { e := true, d := some 3, a := .a 1, b := .a 2, c := .zero, lit := none }

/-- A team with 16 bytes of scratchpad, two cells for the first of them, whose program is to move the upper dword down. -/
def doubledTeam : Team :=
  { Team.new ⟨0, 0⟩ with
    scrSize := 16, scr := ⟨[(0, 1), (0, 1)]⟩,
    stream := { Stream.idle with
      st := .running,
      a := (((Vector.replicate 16 0).set 1 0x4000000000000008).set 2 0x4000000000000000).set 3 8 } }

def doubledScr : State := { State.reset with teams := [doubledTeam], focus := .stream ⟨0, 0⟩ }

/-- A byte of a scratchpad after an instruction; none where the instruction does not end in a state. -/
def scrByteAfter (i : Instr) (s : State) (t : TeamId) (o : Nat) : Option Byte :=
  match exec i s with
  | .next s' => some ((s'.team t).scr.read o)
  | _ => none

/-- The second cell is what is read after the move. -/
theorem doubledScr_amove_read : scrByteAfter (.amove movesUp) doubledScr ⟨0, 0⟩ 0 = some 1 := by decide +kernel

theorem doubledScr_ready : StrReady doubledScr (.amove movesUp) ⟨0, 0⟩ doubledTeam :=
  ⟨rfl, rfl, rfl, by decide⟩

/-- Refutes O30: the statement takes any list of cells for a scratchpad. In one that lists its first byte twice
(`doubledScr`), a 0 moved there leaves a 1 to be read. The fault is the missing hypothesis that the scratchpad is in canonical
form; with it the statement holds (`amove_copies_of_canonical`). -/
theorem not_streamMoveCopies : ¬ Obligations.StreamMoveCopies := by
  unfold Obligations.StreamMoveCopies
  intro h
  obtain ⟨s', hexec, hcopied, -⟩ := h movesUp doubledScr ⟨0, 0⟩ doubledTeam 8 0 8 doubledScr_ready (by decide) (by decide)
    (by decide) (by decide) (by decide) (by decide) (by decide) (by decide) rfl rfl
  have hzero : (s'.team ⟨0, 0⟩).scr.read 0 = 0 := by
    have hsource : doubledScr.readScr ⟨0, 0⟩ 8 1 = [0] := by decide +kernel
    exact List.head_eq_of_cons_eq ((hcopied 0 (by decide)).trans hsource)
  have hone : ((s'.strDone ⟨0, 0⟩ doubledTeam none).team ⟨0, 0⟩).scr.read 0 = 1 := by
    have hread := doubledScr_amove_read
    rw [scrByteAfter, hexec] at hread
    exact Option.some.inj hread
  obtain hsame | hempty := State.ScrKept.strDone s' ⟨0, 0⟩ doubledTeam none ⟨0, 0⟩
  · rw [hsame, hzero] at hone
    exact absurd hone (by decide)
  · rw [hempty] at hone
    exact absurd hone (by decide)

end Sys2Proof.Machine

namespace Sys2Proof.Machine

open Sys2Proof

/-! ## RFT and TRAP (R433, R440) -/

/-- The state once the headers that an RFT checks are fetched (R433). -/
def State.rftFetched (s : State) (r : Run) (skip : Bool) : State :=
  s.fetched r.wave ((s.rftChecks r skip).map fun c => c.2.1)

/-- The first fault of an RFT (R193). -/
def State.rftExc (s : State) (r : Run) (skip : Bool) : Option Exc :=
  firstExc ((s.rftFetched r skip).targetExcs r.wave (s.rftChecks r skip))

theorem rftBody_eq (skip : Bool) (s : State) (r : Run) (sh : Shape) :
    rftBody skip s r sh =
      match s.rftExc r skip with
      | some e => .fault (s.rftFetched r skip) e
      | none => .done (s.rftFetched r skip) r (.leave fun t q => t.returnFrom q.wave q.group q.blk skip) := rfl

/-- No address that RFT checks comes from an operand, so none is poisoned. -/
theorem State.rftChecks_clean {s : State} {r : Run} {skip : Bool} : ∀ c ∈ s.rftChecks r skip, c.2.2 = false := by
  intro c hc
  obtain ⟨l, -, hc⟩ := List.mem_flatMap.1 hc
  rcases List.mem_cons.1 hc with rfl | hc
  · rfl
  · split at hc
    · rw [List.mem_singleton.1 hc]
    · cases hc

theorem State.rftExc_headers {s : State} {r : Run} {skip : Bool}
    (hh : HeadersAt (s.rftFetched r skip) r (s.rftChecks r skip)) : s.rftExc r skip = none :=
  firstExc_none.2 (targetExcs_headers hh rftChecks_clean)

theorem exec_rft_return {skip e : Bool} {s : State} {r : Run} {sh : Shape} (hr : Ready s (.rft skip e) r sh)
    (hh : HeadersAt ((s.tokenReads r sh).rftFetched r skip) r ((s.tokenReads r sh).rftChecks r skip)) :
    exec (.rft skip e) s = .next (s.afterLeave [] r sh ((s.tokenReads r sh).rftFetched r skip) r fun t q =>
      t.returnFrom q.wave q.group q.blk skip) :=
  execute_leave (body := rftBody skip) hr (by rw [rftBody_eq, State.rftExc_headers hh])

theorem exec_rft_fault {skip e : Bool} {s : State} {r : Run} {sh : Shape} {x : Exc} (hr : Ready s (.rft skip e) r sh)
    (hx : (s.tokenReads r sh).rftExc r skip = some x) :
    exec (.rft skip e) s =
      .next (((s.tokenReads r sh).rftFetched r skip).raiseRun r { x with enc := encode (.rft skip e) }) :=
  execute_fault (body := rftBody skip) hr (by rw [rftBody_eq, hx])

theorem exec_trap {code : BitVec 16} {e : Bool} {s : State} {r : Run} {sh : Shape} (hr : Ready s (.trap code e) r sh) :
    exec (.trap code e) s = .next (s.afterLeave [] r sh (s.tokenReads r sh) r fun t q =>
      t.raise q.wave q.group r.pc (r.next sh) q.blk
        { code := Code.trap, sub := code.toNat, lanes := q.group, enc := encode (.trap code e) }) :=
  execute_leave (body := trapBody code (encode (.trap code e))) hr rfl

/-- Settles O23: RFT by the headers it checks, none of which is named by an operand; TRAP's body is always done. -/
theorem trapAndReturn : Obligations.TrapAndReturn := by
  unfold Obligations.TrapAndReturn
  refine ⟨fun skip e s r sh hr => ?rft, fun code e s r sh => exec_trap⟩
  case rft => exact ⟨exec_rft_return hr, fun x => exec_rft_fault hr⟩

/-! ## What a fault record leaves of the machine -/

/-- What reporting a record may change of a machine: what a translation may, the registers of virtual functions and the
records held back (R195, R196). -/
def State.Reports (s t : State) : Prop := ∃ u vfs held, s.Walks u ∧ t = { u with vfs := vfs, held := held }

namespace State.Reports

variable {s t u : State}

theorem of_walks (h : s.Walks t) : s.Reports t := ⟨t, _, _, h, rfl⟩

theorem refl (s : State) : s.Reports s := of_walks (.refl s)

theorem trans (h : s.Reports t) (g : t.Reports u) : s.Reports u := by
  obtain ⟨x, _, _, hx, rfl⟩ := h
  obtain ⟨_, vfs, held, ⟨gm, mem, owners, sigs, l1, tlb, rfl⟩, rfl⟩ := g
  exact ⟨{ x with mem := mem, owners := owners, sigs := sigs, l1 := l1, tlb := tlb }, vfs, held,
    hx.trans ⟨gm, mem, owners, sigs, l1, tlb, rfl⟩, rfl⟩

theorem teams (h : s.Reports t) : t.teams = s.teams := by
  obtain ⟨u, _, _, hu, rfl⟩ := h
  exact hu.teams

theorem now (h : s.Reports t) : t.now = s.now := by
  obtain ⟨_, _, _, ⟨-, _, _, _, _, _, rfl⟩, rfl⟩ := h
  rfl

theorem setVf (s : State) (v : Nat) (r : VfRegs) : s.Reports (s.setVf v r) := ⟨s, _, _, .refl s, rfl⟩

theorem countUp (s : State) (part hpa : Nat) : s.Reports (s.countUp part hpa) := of_walks (.writePhys ..)

theorem irqVf (s : State) (v src : Nat) : s.Reports (s.irqVf v src) := by
  unfold State.irqVf
  dsimp only
  split
  · exact countUp ..
  · split
    · exact setVf ..
    · exact (of_walks (.writePhys ..)).trans (setVf ..)

theorem irq (s : State) (v src : Nat) : s.Reports (s.irq v src) := by
  unfold State.irq
  split
  · exact countUp ..
  · exact irqVf ..

theorem ringWrite {v : Nat} {k : RingKind} {record : BitVec 512} (h : s.ringWrite v k record = some t) : s.Reports t := by
  unfold State.ringWrite at h
  dsimp only at h
  split at h
  · cases h
  · split at h
    case h_1 =>
      split at h
      · cases h
      · split at h
        next => cases h
        next hw =>
          cases h
          exact ((of_walks (xwrite_walks hw)).trans (setVf ..)).trans (irq ..)
    case h_2 =>
      split at h
      · cases h
        exact setVf ..
      · split at h
        next => cases h
        next hw =>
          cases h
          exact (of_walks (xwrite_walks hw)).trans (setVf ..)
    case h_3 =>
      split at h
      next => cases h
      next hw =>
        cases h
        exact (of_walks (xwrite_walks hw)).trans (irq ..)

theorem noteStall (s : State) (v : Nat) (k : RingKind) : s.Reports (s.noteStall v k) := by
  unfold State.noteStall
  split
  · exact (setVf ..).trans (irq ..)
  · exact refl s

theorem holdBack (s : State) (h : Held) : s.Reports { s with held := s.held ++ [h] } := ⟨s, _, _, .refl s, rfl⟩

theorem report (s : State) (v : Nat) (k : RingKind) (record : BitVec 512) (into : Option (WaveId × LaneMask)) :
    s.Reports (s.report v k record into).1 := by
  simp only [State.report]
  split
  next hw =>
    split at hw
    · cases hw
    · exact ringWrite hw
  next => exact (holdBack ..).trans (noteStall ..)

theorem foldl {α : Type} {f : State → α → State} (hf : ∀ s a, Reports s (f s a)) (as : List α) :
    ∀ s, Reports s (as.foldl f s) := by
  induction as with
  | nil => exact refl
  | cons a as ih => exact fun s => (hf s a).trans (ih _)

theorem logScrubbed (s : State) (w : WaveId) (l : Fin 32) (n : Nat) : s.Reports (s.logScrubbed w l n) :=
  foldl (fun s _ => report s ..) _ s

end State.Reports

/-! ## Return from the handler (R199, R433) -/

/-- A thread that returns from its handler. -/
def Thread.returning (t : Thread) (skip : Bool) (now : Nat) : Thread :=
  { t with
    regs := { t.regs with q := t.snapshot }, inHandler := false, blk := t.resumeBlk, pc := t.resumption skip, since := now,
    status := .ready }

/-- The poison that a return scrubs from the queues of its group is logged (R194). -/
def State.queuesLogged (s : State) (w : WaveId) (m : LaneMask) : State :=
  (lanesOf m).foldl (fun s l => s.logScrubbed w l (s.thread w l).queueScrubbed) s

theorem State.Reports.queuesLogged (s : State) (w : WaveId) (m : LaneMask) : s.Reports (s.queuesLogged w m) :=
  foldl (fun s l => logScrubbed s w l _) _ s

/-- Threads that return without skipping to one place stay together: no rejoin entry is pushed (R36). -/
theorem State.returnFrom_together {s : State} {w : WaveId} {m : LaneMask} {blk : Word}
    (hg : ∀ l k, LaneMask.has m l = true → LaneMask.has m k = true →
      (s.thread w l).resumption false = (s.thread w k).resumption false) :
    s.returnFrom w m blk false =
      (s.queuesLogged w m).modLanes w m fun _ t => t.returning false (s.queuesLogged w m).now := by
  rw [State.returnFrom, pushDiverge_together hg]
  rfl

theorem State.thread_eq_lane {s : State} {w : WaveId} {u : Team} {v : Wave} (hu : s.team? w.team = some u)
    (hv : u.wave? w.uid = some v) (l : Fin 32) : s.thread w l = v.lanes[l] := by
  rw [State.thread, State.wave, team_of_team? hu, hv]
  rfl

/-- Settles O58: a group with one resumption point is not split, and what it logs changes no thread and takes no time; so
each thread returns as it stands. -/
theorem handlerReturn : Obligations.HandlerReturn := by
  unfold Obligations.HandlerReturn
  intro s w m blk u v l hu hv hl hpoint
  have hpoint' : ∀ k, LaneMask.has m k = true → (s.thread w k).resumption false = v.lanes[l].resumption false := by
    intro k hk
    rw [State.thread_eq_lane hu hv k]
    exact hpoint k hk
  have hlog := State.Reports.queuesLogged s w m
  have hu' : (s.queuesLogged w m).team? w.team = some u := (State.team?_congr hlog.teams _).trans hu
  rw [State.returnFrom_together fun i k hi hk => (hpoint' i hi).trans (hpoint' k hk).symm,
    State.thread_modLanes l hu' hv, if_pos hl, hlog.now]
  rfl

end Sys2Proof.Machine

namespace Sys2Proof.Machine

open Sys2Proof

/-! ## Engine instructions by their forms -/

/-- What an engine instruction of a form does in every case: it goes on with no thread, raises its first fault, waits, or is
done with its effect at commit (R193, R220). -/
def EngForm.body (g : EngForm) (s : State) (r : Run) (sh : Shape) : Body :=
  if g.acts s r sh = 0 then .done s r (.own (g.idle s r sh))
  else
    match firstExc (g.checks s r sh) with
    | some e => .fault s e
    | none => if g.late s r sh = true then .wait s else .done s r (.own (g.effect s r sh))

/-- A form governs an instruction whose body is the form's. -/
theorem EngForm.queues_of_body_eq {g : EngForm} {tys : List Ty} {i : Instr} {body : State → Run → Shape → Body}
    (he : ∀ s, exec i s = execute s i tys body) (hb : ∀ s r sh, body s r sh = g.body s r sh) : g.Queues tys i := by
  refine EngForm.queues he (fun s r sh ha => ?idle) (fun s r sh e ha hx => ?fault) (fun s r sh ha hx hl => ?wait)
    fun s r sh ha hx hl => ?done
  all_goals rw [hb, EngForm.body]
  case idle => exact if_pos ha
  case fault => rw [if_neg ha, hx]
  case wait => rw [if_neg ha, hx]; exact if_pos hl
  case done => rw [if_neg ha, hx]; exact if_neg (ne_true_of_eq_false hl)

/-- The same for an instruction that never waits. -/
theorem EngForm.governs_of_body_eq {g : EngForm} {tys : List Ty} {i : Instr} {body : State → Run → Shape → Body}
    (he : ∀ s, exec i s = execute s i tys body) (hb : ∀ s r sh, body s r sh = g.body s r sh) : g.Governs tys i :=
  (EngForm.queues_of_body_eq he hb).1

theorem copyBody_eq (lg : Width) (srcS dstS : Bool) (tok n : Nat) (s : State) (r : Run) (sh : Shape) :
    copyBody lg srcS dstS tok n s r sh = (copyForm lg srcS dstS tok n).body s r sh := by
  simp only [EngForm.body, copyForm, decide_eq_true_eq]
  rfl

/-- Settles O20: the body of each is that of its form; RAYQ and COLL never wait. -/
theorem copyRayAndCollectiveCommands : Obligations.CopyRayAndCollectiveCommands := by
  unfold Obligations.CopyRayAndCollectiveCommands
  refine ⟨fun lg srcS dstS f => ?copy, fun any cull f => ?rayq, fun kind op ty f => ?coll⟩
  case copy => exact EngForm.queues_of_body_eq (fun _ => rfl) (copyBody_eq lg srcS dstS _ _)
  case rayq => exact EngForm.governs_of_body_eq (body := rayqBody any cull _ _) (fun _ => rfl) fun _ _ _ => rfl
  case coll => exact EngForm.governs_of_body_eq (body := collBody kind op ty _ _) (fun _ => rfl) fun _ _ _ => rfl

/-! ## Operations at the stream engine -/

/-- An instruction that does nothing where no thread takes part is the form that acts once for its group, with the operands
of its lowest participating thread (R437). -/
theorem onceBody_eq {op : Fin 32 → State → Run → WaitOp × State} {checks : Fin 32 → List (Fin 32 × Exc)} {owner : Bool}
    {op' : State → Run → Shape → State → Run → WaitOp × State} {checks' : State → Run → Shape → List (Fin 32 × Exc)}
    {s : State} {r : Run} {sh : Shape} (hop : ∀ t q, op (lowestLane (s.actors r sh)) t q = op' s r sh t q)
    (hchecks : checks (lowestLane (s.actors r sh)) = checks' s r sh) :
    onceBody false op checks owner s r sh = (onceForm checks' owner op').body s r sh := by
  by_cases h : s.actors r sh = 0
  · simp [onceBody, EngForm.body, onceForm, h]
  · cases hx : firstExc (checks' s r sh) with
    | none | some =>
      simp only [onceBody, EngForm.body, onceForm, h, hop, hchecks, hx, decide_false, Bool.false_and, Bool.false_eq_true,
        if_false]

/-- One that acts without a participating thread, too, and checks nothing, is always done (R214). -/
theorem onceBody_always (op : WaitOp) (owner : Bool) (s : State) (r : Run) (sh : Shape) :
    onceBody true (fun _ t _ => (op, t)) (fun _ => []) owner s r sh =
      .done s r (.own fun t q => t.startOp q (s.actors r sh) r.pc op owner) := by
  simp [onceBody, firstExc]

/-- Settles O21: ENGAGE, RDV, SEMSIG and SEMWAIT act once for their group; QPOP and QPUSH are always done. -/
theorem streamEngineCommands : Obligations.StreamEngineCommands := by
  unfold Obligations.StreamEngineCommands
  refine ⟨fun f => ?engage, fun f => ?rdv, fun k f => ?semsig, fun k f => ?semwait, fun k f => ?qpop, fun k f => ?qpush⟩
  case engage =>
    exact EngForm.governs_of_body_eq (body := engageBody) (fun _ => rfl) fun _ _ _ => onceBody_eq (fun _ _ => rfl) rfl
  case rdv =>
    exact (EngForm.governs_of_body_eq (g := onceForm (fun _ _ _ => []) false fun _ _ _ t _ => (.rdv, t)) (body := rdvBody)
      (fun _ => rfl) fun _ _ _ => onceBody_eq (fun _ _ => rfl) rfl).1
  case semsig =>
    exact EngForm.governs_of_body_eq (body := semsigBody k) (fun _ => rfl) fun _ _ _ => onceBody_eq (fun _ _ => rfl) rfl
  case semwait =>
    exact EngForm.governs_of_body_eq (body := semwaitBody k) (fun _ => rfl) fun _ _ _ => onceBody_eq (fun _ _ => rfl) rfl
  case qpop => exact commits_of_body (body := qpopBody k f.t) (fun _ => rfl) fun _ _ _ _ => onceBody_always ..
  case qpush => exact commits_of_body (body := qpushBody k) (fun _ => rfl) fun _ _ _ _ => onceBody_always ..

end Sys2Proof.Machine

namespace Sys2Proof.Machine

open Sys2Proof

/-! ## Moves of stream programs -/

/-- An instruction whose meaning is what is left of it moves as far as that goes (R212). -/
theorem strMoves_of {i : Instr} {f : Str} {ok : Team → Prop} {step go : State → Team → StrRes}
    (he : ∀ s, exec i s = strExec s i (litWords f.lit) step) (hgo : ∀ s u, ok u → step s u = go s u) :
    StrMoves i f ok go := by
  intro s t u hr hok
  have hx : exec i s = (go (s.strAt t u) u).out t (u.stream.pc + w64 (4 * litWords f.lit)) := by
    rw [he, strExec_ready hr, hgo _ _ hok]
  refine ⟨fun s' h => ?next, fun s' h => ?stay, fun s' e h => ?park⟩
  all_goals
    rw [hx, h]
    rfl

/-- What AMOVE comes to (R211, R358). -/
def amoveStep (f : Str) (s : State) (u : Team) : StrRes :=
  let n := (u.stream.dest f.d).toNat
  let src := SAddr.of (u.stream.src f.a f.lit)
  let dst := SAddr.of (u.stream.src f.b f.lit)
  if n = 0 then .next s
  else if src = .bad ∨ dst = .bad then .fault s Code.illegal 0
  else if ¬(n % 8 = 0 ∧ src.aligned 8 = true ∧ dst.aligned 8 = true) then .fault s Code.align 0
  else if src.outside u n = true ∨ dst.outside u n = true then .fault s Code.prot 0
  else s.amoveGo u.id src dst n (n + 3)

theorem exec_amove (f : Str) (s : State) : exec (.amove f) s = strExec s (.amove f) (litWords f.lit) (amoveStep f) := by
  change execAmove f s = _
  unfold execAmove
  congr 1
  funext s u
  simp [amoveStep, imp_iff_not_or, or_assoc]

theorem exec_amove_ready {f : Str} {s : State} {t : TeamId} {u : Team} (hr : StrReady s (.amove f) t u) :
    exec (.amove f) s = (amoveStep f (s.strAt t u) u).out t (u.stream.pc + w64 (4 * litWords f.lit)) := by
  rw [exec_amove, strExec_ready hr]

/-- What AGATHER and ASCATTER come to (R275, R353, R360). -/
def indexStep (f : Str) (scatter : Bool) (s : State) (u : Team) : StrRes :=
  let n := (u.stream.dest f.d).toNat
  let base := SAddr.of (u.stream.src f.a f.lit)
  if n = 0 then .next s
  else
    match SAddr.of (u.stream.src f.c f.lit), SAddr.of (u.stream.src f.b f.lit) with
    | .queue lg q, .glob v =>
      if base = .bad ∨ base.isQueue = true then .fault s Code.illegal 0
      else if ¬(base.aligned (2 ^ lg) = true ∧ v % 4 = 0) then .fault s Code.align 0
      else s.indexGo u.id scatter base (.glob v) (2 ^ lg) n q (3 * n + 3)
    | _, _ => .fault s Code.illegal 0

theorem exec_index (f : Str) (scatter : Bool) (s : State) :
    exec (if scatter then .ascatter f else .agather f) s =
      strExec s (if scatter then .ascatter f else .agather f) (litWords f.lit) (indexStep f scatter) := by
  have he : ∀ i, strIndex i scatter f s = strExec s i (litWords f.lit) (indexStep f scatter) := by
    intro i
    unfold strIndex
    congr 1
    funext s u
    unfold indexStep
    generalize SAddr.of (u.stream.src f.a f.lit) = base
    generalize SAddr.of (u.stream.src f.b f.lit) = list
    generalize SAddr.of (u.stream.src f.c f.lit) = queue
    cases queue with
    | queue lg q =>
      cases list with
      | glob v => cases base <;> simp [SAddr.isQueue, imp_iff_not_or]
      | scr | queue | bad => rfl
    | glob | scr | bad => rfl
  cases scatter with
  | false => exact he _
  | true => exact he _

/-- Settles O29: AMOVE by its tests in their order; AGATHER and ASCATTER by theirs, which good operands pass. -/
theorem streamMoves : Obligations.StreamMoves := by
  unfold Obligations.StreamMoves
  refine ⟨fun f s t u hr hd => ?nothing, fun f => ⟨?moves, fun s t u hr hn => ⟨fun hbad => ?illegal, ?align, ?prot⟩⟩,
    fun f scatter => ⟨fun s t u hr hn => ?none, fun lg q v => ?index⟩⟩
  case nothing =>
    have hn : (u.stream.dest f.d).toNat = 0 := by rw [hd]; rfl
    rw [exec_amove_ready hr, amoveStep, if_pos hn]
    rfl
  case moves =>
    refine strMoves_of (exec_amove f) fun s u hok => ?_
    obtain ⟨hn, hsrc, hdst, heven, hsin, hdin⟩ := hok
    simp [amoveStep, hn, hsrc, hdst, heven, hsin, hdin]
  case illegal => rw [exec_amove_ready hr, amoveStep, if_neg hn, if_pos hbad]; rfl
  case align =>
    rintro ⟨hsrc, hdst, hodd⟩
    rw [exec_amove_ready hr, amoveStep, if_neg hn, if_neg (not_or.2 ⟨hsrc, hdst⟩), if_pos hodd]
    rfl
  case prot =>
    rintro ⟨hsrc, hdst, heven, hout⟩
    rw [exec_amove_ready hr, amoveStep, if_neg hn, if_neg (not_or.2 ⟨hsrc, hdst⟩), if_neg (not_not.2 heven), if_pos hout]
    rfl
  case none =>
    rw [exec_index, strExec_ready hr, indexStep, if_pos hn]
    rfl
  case index =>
    refine strMoves_of (exec_index f scatter) fun s u hok => ?_
    obtain ⟨hn, hqueue, hlist, hbase, hplace, haligned, hwords⟩ := hok
    rw [indexStep, if_neg hn, hqueue, hlist]
    simp [hbase, hplace, haligned, hwords]

end Sys2Proof.Machine

namespace Sys2Proof.Machine

open Sys2Proof

/-! ## Commands that end -/

/-- An event whose meaning is the work of a command. -/
theorem works_of_out {i : Instr} {w : State → Worked} (he : ∀ s, exec i s = (w s).out s) : Works i w := by
  refine ⟨fun s s' h => by rw [he, h]; rfl, fun s h => ?_⟩
  rw [he]
  cases hw : w s with
  | ok s' => exact absurd hw (h s')
  | stop | partly | later => rfl

/-- Where the work ends by one rule and no other way, the event becomes what that rule says. -/
theorem Works.becomes {i : Instr} {w : State → Worked} {r : State → State → Prop} (h : Works i w)
    (hr : ∀ s t, r s t ↔ ∃ u, w s = .ok u ∧ t = u.settle) : Becomes i r := by
  refine ⟨fun s t hrt => ?_, fun s hn => h.2 s fun u hu => hn _ ((hr s _).2 ⟨u, hu, rfl⟩)⟩
  obtain ⟨u, hu, rfl⟩ := (hr s t).1 hrt
  exact h.1 s u hu

/-- What follows a read ends where the read came and what follows it ended. -/
theorem Fetched.bind_eq_ok {f : Fetched} {k : List (Byte × Bool) → State → Worked} {t : State} :
    f.bind k = .ok t ↔ ∃ bs s, f = .got bs s ∧ k bs s = .ok t := by
  cases f with
  | got bs s => cases hk : k bs s <;> simp [Fetched.bind, hk]
  | stop e => simp [Fetched.bind]
  | later => simp [Fetched.bind]

/-- An MMA ends where both its operands are read (R226, R228). -/
theorem State.runMma_eq_ok {s t : State} {c : Cmd} {x k fs kc : Nat} {rows : LaneMask} {a b : Word} :
    s.runMma c x k fs kc rows a b = .ok t ↔
      let slot := (s.job c.wave.team.job).card.slots.toList.getD fs 0
      let n := operandBytes slot kc
      ∃ as bs u v, s.fetch (c.srcCtx) a.toNat n = .got as u ∧ u.fetch (c.srcCtx) b.toNat n = .got bs v ∧
        t = ((v.setAcc ((v.accSlot c.cluster x k).mma slot kc rows as bs)).tileDone (v.jobOf c.wave).vf c.cluster x
          1).endCmd c 0 0 := by
  simp only [State.runMma, Fetched.bind_eq_ok, Worked.ok.injEq]
  constructor
  · rintro ⟨as, u, ha, bs, v, hb, rfl⟩
    exact ⟨as, bs, u, v, ha, hb, rfl⟩
  · rintro ⟨as, bs, u, v, ha, hb, rfl⟩
    exact ⟨as, u, ha, bs, v, hb, rfl⟩

/-- A command's MMA ends where it is the command's turn (R233). -/
theorem State.mmaWork_eq_ok {s t : State} {cmd : Nat} : s.mmaWork cmd = .ok t ↔
    ∃ (c : Cmd) (x k fs kc : Nat) (rows : LaneMask) (a b : Word), s.cmd? cmd = some c ∧ c.kind = .mma x k fs kc rows a b ∧
      s.tileTurn c = true ∧ s.runMma c x k fs kc rows a b = .ok t := by
  unfold State.mmaWork
  constructor
  · intro h
    split at h
    · split at h
      · split at h
        · exact ⟨_, _, _, _, _, _, _, _, ‹_›, ‹_›, ‹_›, h⟩
        · cases h
      · cases h
    · cases h
  · rintro ⟨c, x, k, fs, kc, rows, a, b, hc, hkind, hturn, hrun⟩
    simp only [hc, hkind, hturn, if_true, hrun]

theorem becomes_mmaComplete (cmd : Nat) : Becomes (.mmaComplete cmd) fun s t =>
    ∃ (c : Cmd) (x k fs kc : Nat) (rows : LaneMask) (a b : Word),
      s.cmd? cmd = some c ∧ c.kind = .mma x k fs kc rows a b ∧ s.tileTurn c = true ∧
        let slot := (s.job c.wave.team.job).card.slots.toList.getD fs 0
        let n := operandBytes slot kc
        ∃ as bs u v, s.fetch (c.srcCtx) a.toNat n = .got as u ∧ u.fetch (c.srcCtx) b.toNat n = .got bs v ∧
          t = (((v.setAcc ((v.accSlot c.cluster x k).mma slot kc rows as bs)).tileDone (v.jobOf c.wave).vf c.cluster x
            1).endCmd c 0 0).settle := by
  refine (works_of_out (w := fun s => s.mmaWork cmd) fun _ => rfl).becomes fun s t => ⟨?ends, ?rule⟩
  case ends =>
    rintro ⟨c, x, k, fs, kc, rows, a, b, hc, hkind, hturn, as, bs, u, v, ha, hb, rfl⟩
    exact ⟨_, State.mmaWork_eq_ok.2 ⟨c, x, k, fs, kc, rows, a, b, hc, hkind, hturn,
      State.runMma_eq_ok.2 ⟨as, bs, u, v, ha, hb, rfl⟩⟩, rfl⟩
  case rule =>
    rintro ⟨u, hu, rfl⟩
    obtain ⟨c, x, k, fs, kc, rows, a, b, hc, hkind, hturn, hrun⟩ := State.mmaWork_eq_ok.1 hu
    obtain ⟨as, bs, u, v, ha, hb, rfl⟩ := State.runMma_eq_ok.1 hrun
    exact ⟨c, x, k, fs, kc, rows, a, b, hc, hkind, hturn, as, bs, u, v, ha, hb, rfl⟩

/-! ## Copies -/

theorem exec_copyComplete {cmd : Nat} {s u : State} {m : Cmd} {k : Copy} {v : Word} {sig : Sig}
    (hready : s.copyReady cmd = some (m, k)) (hrun : s.copyRun m k = .complete v sig u) :
    exec (.copyComplete cmd) s = .next (u.endCmd m v sig).settle := by
  change execCopyComplete cmd s = _
  simp only [execCopyComplete, hready, hrun]

theorem exec_copyFault {cmd : Nat} {s u : State} {m : Cmd} {k : Copy} {e : XErr} {i : Nat} {shadow : List Byte}
    (hready : s.copyReady cmd = some (m, k)) (hrun : s.copyRun m k = .stuck e i shadow u) :
    exec (.copyFault cmd) s =
      .next ((u.modCmd cmd fun m => { m with kind := .copy { k with cursor := i, shadow := shadow } }).suspendCmd m e) := by
  change execCopyFault cmd s = _
  simp only [execCopyFault, hready, hrun]

/-- Neither of the two changes anything for a copy that may not run, or waits for another device. -/
theorem exec_copy_unready {cmd : Nat} {s : State} (hready : s.copyReady cmd = none) :
    exec (.copyComplete cmd) s = .next s ∧ exec (.copyFault cmd) s = .next s := by
  change execCopyComplete cmd s = _ ∧ execCopyFault cmd s = _
  simp only [execCopyComplete, execCopyFault, hready, and_self]

theorem becomes_copyComplete (cmd : Nat) : Becomes (.copyComplete cmd) fun s t => ∃ m k v sig u,
    s.copyReady cmd = some (m, k) ∧ s.copyRun m k = .complete v sig u ∧ t = (u.endCmd m v sig).settle := by
  refine becomes_of_cases (fun s t => ?rule) fun s => ?cases
  case rule =>
    rintro ⟨m, k, v, sig, u, hready, hrun, rfl⟩
    exact exec_copyComplete hready hrun
  case cases =>
    cases hready : s.copyReady cmd with
    | none => exact .inl (exec_copy_unready hready).1
    | some p =>
      obtain ⟨m, k⟩ := p
      cases hrun : s.copyRun m k with
      | complete v sig u => exact .inr ⟨_, m, k, v, sig, u, rfl, hrun, rfl⟩
      | stuck | later =>
        left
        change execCopyComplete cmd s = _
        simp only [execCopyComplete, hready, hrun]

theorem becomes_copyFault (cmd : Nat) : Becomes (.copyFault cmd) fun s t => ∃ m k e i shadow u,
    s.copyReady cmd = some (m, k) ∧ s.copyRun m k = .stuck e i shadow u ∧
      t = (u.modCmd cmd fun m => { m with kind := .copy { k with cursor := i, shadow := shadow } }).suspendCmd m e := by
  refine becomes_of_cases (fun s t => ?rule) fun s => ?cases
  case rule =>
    rintro ⟨m, k, e, i, shadow, u, hready, hrun, rfl⟩
    exact exec_copyFault hready hrun
  case cases =>
    cases hready : s.copyReady cmd with
    | none => exact .inl (exec_copy_unready hready).2
    | some p =>
      obtain ⟨m, k⟩ := p
      cases hrun : s.copyRun m k with
      | stuck e i shadow u => exact .inr ⟨_, m, k, e, i, shadow, u, rfl, hrun, rfl⟩
      | complete | later =>
        left
        change execCopyFault cmd s = _
        simp only [execCopyFault, hready, hrun]

/-! ## Collectives, ENQ, and commands and elements at a fault -/

/-- The work meets a translation or permission fault, with nothing done or after a part of it (R219). -/
def Worked.Faults (w : Worked) : Prop := ∃ e, w = .stop e ∨ ∃ u, w = .partly u e

/-- What a collective that meets a fault comes to: one of a terminated team goes on without a token (log 23). -/
theorem exec_collComplete_faults {cmd : Nat} {peers : List CollPeer} {s : State} (hf : (s.collWork cmd peers).Faults) :
    exec (.collComplete cmd peers) s =
      if ∃ c, s.cmd? cmd = some c ∧ c.silent = true then .next (s.dropCmd cmd).settle else .next s := by
  change execCollComplete cmd peers s = _
  obtain ⟨e, he | ⟨u, he⟩⟩ := hf
  all_goals cases hc : s.cmd? cmd <;> simp [execCollComplete, hc, he, Worked.out]

theorem exec_collComplete_ok {cmd : Nat} {peers : List CollPeer} {s u : State} (hu : s.collWork cmd peers = .ok u) :
    exec (.collComplete cmd peers) s = .next u.settle := by
  change execCollComplete cmd peers s = _
  cases hc : s.cmd? cmd <;> simp only [execCollComplete, hc, hu, Worked.out]

theorem exec_collComplete_later {cmd : Nat} {peers : List CollPeer} {s : State} (hl : s.collWork cmd peers = .later) :
    exec (.collComplete cmd peers) s = .next s := by
  change execCollComplete cmd peers s = _
  cases hc : s.cmd? cmd <;> simp only [execCollComplete, hc, hl, Worked.out]

theorem becomes_collComplete (cmd : Nat) (peers : List CollPeer) : Becomes (.collComplete cmd peers) fun s t =>
    (∃ u, s.collWork cmd peers = .ok u ∧ t = u.settle) ∨
      ∃ c, s.cmd? cmd = some c ∧ c.silent = true ∧ (s.collWork cmd peers).Faults ∧ t = (s.dropCmd cmd).settle := by
  refine becomes_of_cases (fun s t => ?rule) fun s => ?cases
  case rule =>
    rintro (⟨u, hu, rfl⟩ | ⟨c, hc, hsilent, hf, rfl⟩)
    · exact exec_collComplete_ok hu
    · rw [exec_collComplete_faults hf, if_pos ⟨c, hc, hsilent⟩]
  case cases =>
    have faults : (s.collWork cmd peers).Faults → exec (.collComplete cmd peers) s = .next s ∨
        ∃ c, s.cmd? cmd = some c ∧ c.silent = true ∧ (s.collWork cmd peers).Faults := by
      intro hf
      rw [exec_collComplete_faults hf]
      by_cases h : ∃ c, s.cmd? cmd = some c ∧ c.silent = true
      · obtain ⟨c, hc, hsilent⟩ := h
        exact .inr ⟨c, hc, hsilent, hf⟩
      · exact .inl (if_neg h)
    cases hw : s.collWork cmd peers with
    | ok u => exact .inr ⟨_, .inl ⟨u, rfl, rfl⟩⟩
    | later => exact .inl (exec_collComplete_later hw)
    | stop e | partly u e =>
      refine (faults (by rw [hw]; exact ⟨e, by simp⟩)).imp_right ?_
      rintro ⟨c, hc, hsilent, hf⟩
      exact ⟨_, .inr ⟨c, hc, hsilent, hw ▸ hf, rfl⟩⟩

theorem becomes_enqComplete (cmd : Nat) : Becomes (.enqComplete cmd) fun s t => ∃ c cards d vs u,
    s.cmd? cmd = some c ∧ c.kind = .enq cards d ∧ s.enqAll c cards = some (vs, u) ∧
      t = (u.listResults c d fun l => w64 ((getAssoc l.val vs).getD 0)).settle := by
  refine becomes_of_cases (fun s t => ?rule) fun s => ?cases
  case rule =>
    rintro ⟨c, cards, d, vs, u, hc, hkind, hall, rfl⟩
    change execEnqComplete cmd s = _
    simp only [execEnqComplete, hc, hkind, hall]
  case cases =>
    change execEnqComplete cmd s = _ ∨ _
    unfold execEnqComplete
    split
    · split
      · split
        · exact .inl rfl
        · exact .inr ⟨_, _, _, _, _, _, ‹_›, ‹_›, ‹_›, rfl⟩
      · exact .inl rfl
    · exact .inl rfl

theorem becomes_commandTranslationFault (cmd : Nat) : Becomes (.commandTranslationFault cmd) fun s t => ∃ c e,
    s.cmd? cmd = some c ∧ c.silent = false ∧
      (s.work c = .stop e ∧ t = s.suspendCmd c e ∨ ∃ u, s.work c = .partly u e ∧ t = u.suspendCmd c e) := by
  refine becomes_of_cases (fun s t => ?rule) fun s => ?cases
  case rule =>
    rintro ⟨c, e, hc, hloud, ⟨hw, rfl⟩ | ⟨u, hw, rfl⟩⟩
    all_goals
      change execCommandTranslationFault cmd s = _
      simp only [execCommandTranslationFault, hc, hloud, hw, Bool.false_eq_true, if_false]
  case cases =>
    change execCommandTranslationFault cmd s = _ ∨ _
    unfold execCommandTranslationFault
    split
    · exact .inl rfl
    · split
      · exact .inl rfl
      · have hloud := eq_false_of_ne_true ‹_›
        split
        · exact .inr ⟨_, _, _, ‹_›, hloud, .inl ⟨‹_›, rfl⟩⟩
        · exact .inr ⟨_, _, _, ‹_›, hloud, .inr ⟨_, ‹_›, rfl⟩⟩
        · exact .inl rfl

theorem becomes_indexElementPark (cmd element : Nat) : Becomes (.indexElementPark cmd element) fun s t =>
    ∃ c op wide recs bs u e,
      s.cmd? cmd = some c ∧ c.kind = .binapp op wide recs ∧ s.binTurn c = true ∧
        (c.open_ recs.length).contains element = true ∧ s.binDescs (c.srcCtx) recs = .ok (bs, u) ∧
        u.appendAt (c.ctx) bs op wide recs element = .park e ∧ t = u.parkElement c element e := by
  refine becomes_of_cases (fun s t => ?rule) fun s => ?cases
  case rule =>
    rintro ⟨c, op, wide, recs, bs, u, e, hc, hkind, hturn, hopen, hdescs, hpark, rfl⟩
    change execIndexElementPark cmd element s = _
    simp only [execIndexElementPark, hc, hkind, hturn, hopen, hdescs, hpark]
    rfl
  case cases =>
    change execIndexElementPark cmd element s = _ ∨ _
    unfold execIndexElementPark
    split
    · exact .inl rfl
    · split
      · dsimp only
        split
        · exact .inl rfl
        · rename_i hgo
          simp only [Bool.or_eq_true, Bool.not_eq_true', not_or, Bool.not_eq_false] at hgo
          obtain ⟨hturn, hopen⟩ := hgo
          split
          · exact .inl rfl
          · split
            · exact .inr ⟨_, _, _, _, _, _, _, _, ‹_›, ‹_›, hturn, hopen, ‹_›, ‹_›, rfl⟩
            · exact .inl rfl
      · exact .inl rfl

/-- Settles O33: the commands of the copy engine, the matrix engine, the fabric and the scheduler, and the faults, by their
rules; the others are the work of their command. -/
theorem commandEvents : Obligations.CommandEvents := by
  unfold Obligations.CommandEvents
  refine ⟨becomes_copyComplete, becomes_copyFault, becomes_mmaComplete, fun _ => ?_, fun _ => ?_, fun _ => ?_,
    fun _ => ?_, fun _ => ?_, fun _ => ?_, becomes_collComplete, becomes_enqComplete, becomes_commandTranslationFault,
    becomes_indexElementPark⟩
  all_goals exact works_of_out fun _ => rfl

end Sys2Proof.Machine

namespace Sys2Proof.Machine

open Sys2Proof

/-! ## Waits at the stream engine -/

/-- An event whose meaning is the end of a wait serves the first waiter that is ready (R209). -/
theorem serves_of_finishWait {i : Instr} {job team : Nat} {p : WaitOp → Bool}
    (he : ∀ s, exec i s = finishWait job team p s) : Serves i job team p := by
  refine ⟨fun s x hx => ?_, fun s hx => ?_⟩
  all_goals rw [he, finishWait, hx]

theorem Team.awaitReady_iff (u : Team) (o : Nat) (k : Fin 8) (n : Nat) : u.awaitReady o k n = true ↔
    n = 0 ∨ n ≤ u.sem[k] ∧ ∀ y ∈ u.waiters, ¬(y.order < o ∧ y.op.line = k.val) := by
  simp [Team.awaitReady]

theorem exec_awaitComplete {job team o n : Nat} {k : Fin 8} {s : State} {u : Team} {w : W32}
    (hu : s.team? ⟨job, team⟩ = some u) (hst : u.stream.st = .awaiting o k n) (hready : u.awaitReady o k n = true)
    (hw : s.peekWord (s.strCtx ⟨job, team⟩) u.stream.pc = some w) :
    exec (.awaitComplete job team) s = .next
      (((s.takeSem ⟨job, team⟩ k n).modStream ⟨job, team⟩ Stream.fresh).strGo ⟨job, team⟩
        (u.stream.pc + w64 (4 * formatWords w))) := by
  change execAwaitComplete job team s = _
  simp only [execAwaitComplete, hu, hst, hready, hw, if_true]

/-- Becoming the owner leaves a team's waiters. -/
theorem State.own_waiters {s t : State} {k : TeamId} (ho : s.own k = (true, t)) :
    (t.team k).waiters = (s.team k).waiters := by
  unfold State.own at ho
  dsimp only at ho
  split at ho
  · cases ho; rfl
  · split at ho
    · cases ho
    · cases ho
      exact s.modTeam_keeps (p := Team.waiters) k (by intro; rfl) (by intro; rfl) k

theorem State.claim_owned {s t : State} {k : TeamId} (ho : s.own k = (true, t)) :
    s.claim k = (true, ((s.team k).waiters.filter fun x => !x.owned).foldl State.tryOp t) := by
  rw [State.claim, ho]
  dsimp only
  rw [State.own_waiters ho]

theorem exec_streamOwnerAcquire {job team : Nat} {s t : State} (hplace : (s.team ⟨job, team⟩).place = .resident)
    (howner : (s.team ⟨job, team⟩).owner = false)
    (hneed : (∃ x ∈ (s.team ⟨job, team⟩).waiters, x.owned = false) ∨ (s.team ⟨job, team⟩).stream.st ≠ .idle)
    (ho : s.own ⟨job, team⟩ = (true, t)) :
    exec (.streamOwnerAcquire job team) s = .next
      (((s.team ⟨job, team⟩).waiters.filter fun x => !x.owned).foldl (fun s x => s.tryOp x) t) := by
  have hgo : ((s.team ⟨job, team⟩).waiters.any (fun x => !x.owned) || decide ((s.team ⟨job, team⟩).stream.st ≠ .idle))
      = true := by
    simpa using hneed
  change execStreamOwnerAcquire job team s = _
  simp only [execStreamOwnerAcquire, hplace, howner, hgo, State.claim_owned ho]
  rfl

/-- Settles O32: a wait by its first ready waiter, and the other events by their tests. -/
theorem streamEvents : Obligations.StreamEvents := by
  unfold Obligations.StreamEvents
  refine ⟨?semwait, ?qpop, ?qpush, ?engage, ?rdv, ?await, fun _ _ _ _ => exec_streamOwnerAcquire,
    fun job team s u hu hruns => ?fault, fun job team s => ?grow⟩
  case semwait | qpop | qpush | engage | rdv => intros; exact serves_of_finishWait fun _ => rfl
  case await =>
    intro job team s u o n words k w hu hst hmay hw hwords
    rw [exec_awaitComplete hu hst ((u.awaitReady_iff o k n).2 hmay) hw, State.takeSem, State.team_of_team? hu, hwords]
  case fault =>
    change (_ → execStreamFault job team s = _) ∧ (_ → execStreamFault job team s = _) ∧
      (∀ e, _ → execStreamFault job team s = _) ∧ (_ → execStreamFault job team s = _)
    refine ⟨fun h => ?_, fun h => ?_, fun e h => ?_, fun h => ?_⟩
    all_goals simp only [execStreamFault, hu, hruns, Bool.not_true, Bool.false_eq_true, if_false, h]
  case grow =>
    refine ⟨fun hdead hpool => ?grows, fun hdead hpool => ?told, fun hlive => ?unchanged⟩
    case grows => exact (if_neg (by simp [hdead])).trans (if_pos hpool)
    case told => exact (if_neg (by simp [hdead])).trans (if_neg (Nat.not_le.2 hpool))
    case unchanged => exact if_pos (by simp [hlive])

end Sys2Proof.Machine

namespace Sys2Proof.Machine

open Sys2Proof

/-! ## MMA -/

/-- What an MMA that passes its checks comes to, its context known: it takes the slot that its handle names or a fresh one,
waits for room or for a slot, or raises ACCSLOTS (R222, R224). -/
def mmaIssue (f : Mat) (x : Nat) (s : State) (r : Run) (sh : Shape) : Body :=
  let l := lowestLane (s.actors r sh)
  let cl := (s.team r.wave.team).cluster
  let full := (s.tileQueue cl x).length ≥ 16
  let h := (handleOf r f.s l).bits
  if handleValid h then if full then .wait s else .done s r (.own (mmaEffect f x (handleSlot h) false s r sh))
  else
    match s.slotFor r cl x with
    | some k =>
      if full then .waitWith s { r with reserve := some (x, k) } else .done s r (.own (mmaEffect f x k true s r sh))
    | none =>
      if s.holdsAll r.wave.team cl x then .fault s { code := Code.accSlots, sub := x, lanes := laneBit l } else .wait s

theorem mmaBody_eq (f : Mat) (s : State) (r : Run) (sh : Shape) :
    mmaBody f s r sh =
      if s.actors r sh = 0 then .done s r (.own fun t q => t.goOnRun q)
      else
        match firstExc (mmaChecks f s r sh) with
        | some e => .fault s e
        | none =>
          match s.mmaCtx r.wave.team with
          | none => .wait s
          | some x => mmaIssue f x s r sh := rfl

section Mma

variable {f : Mat} {x k : Nat} {s : State} {r : Run} {sh : Shape}

theorem mmaBody_idle (ha : s.actors r sh = 0) : mmaBody f s r sh = .done s r (.own fun t q => t.goOnRun q) := by
  rw [mmaBody_eq, if_pos ha]

theorem mmaBody_fault {e : Exc} (ha : s.actors r sh ≠ 0) (he : firstExc (mmaChecks f s r sh) = some e) :
    mmaBody f s r sh = .fault s e := by
  simp only [mmaBody_eq, if_neg ha, he]

theorem mmaBody_unbound (ha : s.actors r sh ≠ 0) (hc : mmaChecks f s r sh = []) (hx : s.mmaCtx r.wave.team = none) :
    mmaBody f s r sh = .wait s := by
  simp only [mmaBody_eq, if_neg ha, firstExc_none.2 hc, hx]

/-- Its checks passed and its context known, an MMA issues, waits or raises ACCSLOTS. -/
theorem mmaBody_bound (h : s.actors r sh ≠ 0 ∧ mmaChecks f s r sh = [] ∧ s.mmaCtx r.wave.team = some x) :
    mmaBody f s r sh = mmaIssue f x s r sh := by
  obtain ⟨ha, hc, hx⟩ := h
  simp only [mmaBody_eq, if_neg ha, firstExc_none.2 hc, hx]

section Held

variable (hv : handleValid (handleOf r f.s (lowestLane (s.actors r sh))).bits = true)

include hv

theorem mmaIssue_held (hroom : (s.tileQueue (s.team r.wave.team).cluster x).length < 16) :
    mmaIssue f x s r sh = .done s r
      (.own (mmaEffect f x (handleSlot (handleOf r f.s (lowestLane (s.actors r sh))).bits) false s r sh)) := by
  simp only [mmaIssue, if_pos hv, if_neg (Nat.not_le.2 hroom), ge_iff_le]

theorem mmaIssue_held_full (hfull : ¬(s.tileQueue (s.team r.wave.team).cluster x).length < 16) :
    mmaIssue f x s r sh = .wait s := by
  simp only [mmaIssue, if_pos hv, if_pos (Nat.not_lt.1 hfull), ge_iff_le]

end Held

section Fresh

variable (hv : handleValid (handleOf r f.s (lowestLane (s.actors r sh))).bits = false)

include hv

theorem mmaIssue_fresh (hk : s.slotFor r (s.team r.wave.team).cluster x = some k)
    (hroom : (s.tileQueue (s.team r.wave.team).cluster x).length < 16) :
    mmaIssue f x s r sh = .done s r (.own (mmaEffect f x k true s r sh)) := by
  simp only [mmaIssue, hv, hk, if_neg (Nat.not_le.2 hroom), ge_iff_le, Bool.false_eq_true, if_false]

theorem mmaIssue_reserves (hk : s.slotFor r (s.team r.wave.team).cluster x = some k)
    (hfull : ¬(s.tileQueue (s.team r.wave.team).cluster x).length < 16) :
    mmaIssue f x s r sh = .waitWith s { r with reserve := some (x, k) } := by
  simp only [mmaIssue, hv, hk, if_pos (Nat.not_lt.1 hfull), ge_iff_le, Bool.false_eq_true, if_false]

theorem mmaIssue_noSlot (hk : s.slotFor r (s.team r.wave.team).cluster x = none) :
    mmaIssue f x s r sh =
      if s.holdsAll r.wave.team (s.team r.wave.team).cluster x then
        .fault s { code := Code.accSlots, sub := x, lanes := laneBit (lowestLane (s.actors r sh)) }
      else .wait s := by
  simp only [mmaIssue, hv, hk, Bool.false_eq_true, if_false]

end Fresh

end Mma

/-- Settles O12: the body's tests, in their order, are the conditions of its cases. -/
theorem mmaCommand : Obligations.MmaCommand := by
  unfold Obligations.MmaCommand
  intro f ready room handle free
  have he : ∀ s, exec (.mma f) s = execute s (.mma f) engTys (mmaBody f) := fun _ => rfl
  refine ⟨?idle, fun x => ?held, fun x k => ?fresh, fun x k s r sh hr hready hfull hv hk => ?reserves, ?fault,
    fun x => ?noSlot, ?waits⟩
  case idle => exact commits_of_body he fun s r sh => mmaBody_idle
  case held =>
    exact commits_of_body he fun s r sh ⟨hready, hroom, hv⟩ => (mmaBody_bound hready).trans (mmaIssue_held hv hroom)
  case fresh =>
    exact commits_of_body he fun s r sh ⟨hready, hroom, hv, hk⟩ =>
      (mmaBody_bound hready).trans (mmaIssue_fresh hv hk hroom)
  case reserves =>
    rw [he, execute_ready hr, mmaBody_bound hready, mmaIssue_reserves hv hk hfull]
  case fault => exact raises_of_body he fun s r sh e ⟨ha, hx⟩ => mmaBody_fault ha hx
  case noSlot =>
    refine raises_of_body he fun s r sh e ⟨hready, hv, hk, hall, hx⟩ => ?_
    rw [mmaBody_bound hready, mmaIssue_noSlot hv hk, if_pos hall, hx]
  case waits =>
    refine waits_of_body he fun s r sh ⟨ha, hc, hwhy⟩ => ?_
    obtain hx | ⟨x, hx, ⟨hfull, hv⟩ | ⟨hv, hk, hall⟩⟩ := hwhy
    · exact mmaBody_unbound ha hc hx
    · exact (mmaBody_bound ⟨ha, hc, hx⟩).trans (mmaIssue_held_full hv hfull)
    · rw [mmaBody_bound ⟨ha, hc, hx⟩, mmaIssue_noSlot hv hk, if_neg (ne_true_of_eq_false hall)]

/-! ## ACCDRAIN, ACCREL and ACCLOAD -/

theorem State.Walks.dropStale (s : State) (core hpa : Nat) : s.Walks (s.dropStale core hpa) := ⟨id, _, _, _, _, _, rfl⟩

theorem State.Walks.loadL1 (s : State) (core ctx : Nat) (va : Word) (part hpa n : Nat) :
    s.Walks (s.loadL1 core ctx va part hpa n).2 := by
  unfold State.loadL1
  dsimp only
  split
  · exact refl s
  · exact (dropStale s core hpa).trans ⟨id, _, _, _, _, _, rfl⟩

/-- A load through the L1 changes what its translation changes, and the L1. -/
theorem State.Walks.loadLane (s : State) (r : Run) (l : Fin 32) (sp : Space) (ch : Bool) (a : Val) (va : Word) (n : Nat) :
    s.Walks (s.loadLane r l sp (.l1 ch) a va n).2 := by
  unfold State.loadLane
  cases hspot : s.spot r l sp va n .read with
  | error e => exact refl s
  | ok p =>
    obtain ⟨⟨loc, nc⟩, t⟩ := p
    refine (spot_walks hspot).trans ?_
    dsimp only
    split
    · exact refl t
    · cases loc with
      | scr => exact refl t
      | phys part hpa =>
        dsimp only
        split
        · split <;> exact refl t
        · cases ch <;> cases nc
          · exact loadL1 ..
          all_goals exact dropStale ..

theorem State.Walks.drainDesc (s : State) (r : Run) (l : Fin 32) (b : Val) : s.Walks (s.drainDesc r l b).2 :=
  (loadLane s r l .glob false b b.bits 8).trans (loadLane ..)

theorem drainVectors_walks (f : Mat) (s : State) (r : Run) (sh : Shape) : s.Walks (drainVectors f s r sh).2 := by
  unfold drainVectors
  dsimp only
  split
  · exact .drainDesc ..
  · exact .refl s

theorem State.Walks.jobOf {s t : State} (h : s.Walks t) (w : WaveId) : t.jobOf w = s.jobOf w := by
  obtain ⟨-, _, _, _, _, _, rfl⟩ := h
  rfl

/-- Reading the descriptor changes no handle, job or team: the drain enters the queue that its handle named before. -/
theorem State.Walks.drainQueue {s t : State} (h : s.Walks t) (f : Mat) (r : Run) (sh : Shape) :
    Machine.drainQueue f t r sh =
      t.tileQueue (s.team r.wave.team).cluster (handleCtx (handleOf r f.s (lowestLane (s.actors r sh))).bits) := by
  obtain ⟨-, _, _, _, _, _, rfl⟩ := h
  rfl

/-- The effect of a drain at commit: its command, of the descriptor's two dwords, for which its threads wait (R229, R230). -/
def drainEffect (f : Mat) (s : State) (r : Run) (sh : Shape) (t : State) (q : Run) : State :=
  let act := s.actors r sh
  let h := (handleOf r f.s (lowestLane act)).bits
  let gs := (drainVectors f s r sh).1
  let (seq, t) := t.takeSeq q.wave
  let t := t.tally (t.jobOf q.wave).vf (245 + (s.team r.wave.team).cluster) 1 1
  let t := t.newCmd q.wave act none seq r.pc
    (.drain (handleCtx h) (handleSlot h) f.fs.val act (s.engArg r sh 0 (lowestLane act)).bits (wordGot gs[0]?)
      (wordGot gs[1]?))
  waitCommand act r.pc t q

/-- R230: ACCDRAIN's body, by the reads of its descriptor. -/
theorem accdrainBody_eq (f : Mat) (s : State) (r : Run) (sh : Shape) :
    accdrainBody f s r sh =
      if s.actors r sh = 0 then .done s r (.own fun t q => t.goOnRun q)
      else
        let d := drainVectors f s r sh
        match firstExc (drainChecks f s r sh) with
        | some e => .fault d.2 e
        | none =>
          if !(holdsOf d.1).isEmpty then .wait (d.2.awaitRemote r (holdsOf d.1))
          else if (drainQueue f d.2 r sh).length ≥ 16 then .wait d.2
          else
            .done (drainSamples f s r sh).2 { r with samples := r.samples ++ (drainSamples f s r sh).1 }
              (.own (drainEffect f s r sh)) := by
  have hw := drainVectors_walks f s r sh
  simp only [drainChecks, hw.drainQueue, hw.jobOf]
  rfl

section Drain

variable {f : Mat} {s : State} {r : Run} {sh : Shape}

theorem accdrainBody_idle (ha : s.actors r sh = 0) :
    accdrainBody f s r sh = .done s r (.own fun t q => t.goOnRun q) := by
  rw [accdrainBody_eq, if_pos ha]

theorem accdrainBody_fault {e : Exc} (ha : s.actors r sh ≠ 0) (he : firstExc (drainChecks f s r sh) = some e) :
    accdrainBody f s r sh = .fault (drainVectors f s r sh).2 e := by
  simp only [accdrainBody_eq, if_neg ha, he]

section Checked

variable (ha : s.actors r sh ≠ 0) (hc : drainChecks f s r sh = [])

include ha hc

theorem accdrainBody_awaits (hh : holdsOf (drainVectors f s r sh).1 ≠ []) :
    accdrainBody f s r sh =
      .wait ((drainVectors f s r sh).2.awaitRemote r (holdsOf (drainVectors f s r sh).1)) := by
  simp only [accdrainBody_eq, if_neg ha, firstExc_none.2 hc, List.isEmpty_eq_false_iff.2 hh, Bool.not_false, if_true]

theorem accdrainBody_full (hh : holdsOf (drainVectors f s r sh).1 = [])
    (hfull : 16 ≤ (drainQueue f (drainVectors f s r sh).2 r sh).length) :
    accdrainBody f s r sh = .wait (drainVectors f s r sh).2 := by
  simp only [accdrainBody_eq, if_neg ha, firstExc_none.2 hc, hh, List.isEmpty_nil, Bool.not_true, Bool.false_eq_true,
    if_false, ge_iff_le, if_pos hfull]

theorem accdrainBody_done (hh : holdsOf (drainVectors f s r sh).1 = [])
    (hroom : (drainQueue f (drainVectors f s r sh).2 r sh).length < 16) :
    accdrainBody f s r sh =
      .done (drainSamples f s r sh).2 { r with samples := r.samples ++ (drainSamples f s r sh).1 }
        (.own (drainEffect f s r sh)) := by
  simp only [accdrainBody_eq, if_neg ha, firstExc_none.2 hc, hh, List.isEmpty_nil, Bool.not_true, Bool.false_eq_true,
    if_false, ge_iff_le, if_neg (Nat.not_le.2 hroom)]

end Checked

end Drain

theorem drainGoverns (f : Mat) : DrainGoverns f (.accdrain f) := by
  have he : ∀ s, exec (.accdrain f) s = execute s (.accdrain f) engTys (accdrainBody f) := fun _ => rfl
  refine ⟨commits_of_body he fun _ _ _ => accdrainBody_idle, fun s r sh hr ha => ⟨fun e hx => ?fault, fun hc hh => ?awaits,
    fun hc hh hfull => ?full, fun hc hh hroom hf => ?done⟩⟩
  all_goals rw [he]
  case fault => exact execute_fault hr (accdrainBody_fault ha hx)
  case awaits => exact execute_wait hr (accdrainBody_awaits ha hc hh)
  case full => exact execute_wait hr (accdrainBody_full ha hc hh hfull)
  case done => exact execute_own hr (accdrainBody_done ha hc hh hroom) hf

/-- R229: ACCLOAD's body, by its checks, the commands of its slots and its rule. -/
theorem accloadBody_eq (f : Mat) (s : State) (r : Run) (sh : Shape) :
    accloadBody f s r sh =
      match firstExc (accloadChecks f s r sh) with
      | some e => .fault s e
      | none =>
        if accloadBusy f s r sh then .wait s
        else finishPut s r false ((accloadRule f).flags s r sh) ((accloadRule f).put s r sh) := rfl

theorem accloadBody_done {f : Mat} {s : State} {r : Run} {sh : Shape} (hc : accloadChecks f s r sh = [])
    (hb : accloadBusy f s r sh = false) (hclean : (accloadRule f).Clean s r sh) :
    accloadBody f s r sh = .done s ((accloadRule f).run s r sh) .goOn := by
  obtain ⟨-, hfpx⟩ := hclean
  simp only [accloadBody_eq, firstExc_none.2 hc, hb, Bool.false_eq_true, if_false]
  exact finishPut_clean hfpx

/-- Settles O13: ACCDRAIN by the reads of its descriptor, which change no job and no queue; ACCREL's body is that of its
form; ACCLOAD writes as its rule says once no command will write its slots. -/
theorem accumulatorCommands : Obligations.AccumulatorCommands := by
  unfold Obligations.AccumulatorCommands
  have he : ∀ f s, exec (.accload f) s = execute s (.accload f) [tyW64] (accloadBody f) := fun _ _ => rfl
  refine ⟨drainGoverns, fun f => ?accrel, fun f s r sh hr hc hb hclean hf => ?loads, fun f => ?faults, fun f => ?waits⟩
  case accrel => exact EngForm.queues_of_body_eq (body := accrelBody f) (fun _ => rfl) fun _ _ _ => rfl
  case loads =>
    rw [he]
    exact execute_plain hr (accloadBody_done hc hb hclean) hf
  case faults => exact raises_of_body (he f) fun s r sh e hx => by rw [accloadBody_eq, hx]
  case waits =>
    refine waits_of_body (he f) fun s r sh ⟨hc, hb⟩ => ?_
    rw [accloadBody_eq, firstExc_none.2 hc]
    exact if_pos hb

end Sys2Proof.Machine

namespace Sys2Proof.Machine

open Sys2Proof

/-! ## Calls and bins -/

theorem exec_ncallComplete {cmd : Nat} {s : State} {b : Bin} {c : Call}
    (hb : (s.bins.find? fun b => b.calls.any fun c => c.id = cmd) = some b)
    (hc : (b.calls.find? fun c => c.id = cmd) = some c) :
    exec (.ncallComplete cmd) s = if s.tileReady b = true then .next (s.tileCall b c).settle else .next s := by
  change execNcallComplete cmd s = _
  simp only [execNcallComplete, hb, hc]

theorem becomes_ncallComplete (cmd : Nat) : Becomes (.ncallComplete cmd) fun s t => ∃ b c,
    (s.bins.find? fun b => b.calls.any fun c => c.id = cmd) = some b ∧ (b.calls.find? fun c => c.id = cmd) = some c ∧
      s.tileReady b = true ∧ t = (s.tileCall b c).settle := by
  refine becomes_of_cases (fun s t => ?rule) fun s => ?cases
  case rule =>
    rintro ⟨b, c, hb, hc, hready, rfl⟩
    rw [exec_ncallComplete hb hc, if_pos hready]
  case cases =>
    change execNcallComplete cmd s = _ ∨ _
    unfold execNcallComplete
    split
    · exact .inl rfl
    · split
      · split
        · exact .inr ⟨_, _, _, ‹_›, ‹_›, ‹_›, rfl⟩
        · exact .inl rfl
      · exact .inl rfl

theorem Bin.expired_iff (b : Bin) (now : Nat) :
    b.expired now = true ↔ b.opened = true ∧ ∃ c ∈ b.calls, c.at_ + 2048 ≤ now := by
  simp [Bin.expired]

theorem becomes_binDispatchTimer (bin : Nat) : Becomes (.binDispatchTimer bin) fun s t => ∃ b,
    (s.bins.find? fun b => b.id = bin) = some b ∧ b.opened = true ∧ (∃ c ∈ b.calls, c.at_ + 2048 ≤ s.now) ∧
      t = s.dispatchAll (s.bins.filter fun x => x.expired s.now) := by
  refine becomes_of_cases (fun s t => ?rule) fun s => ?cases
  case rule =>
    rintro ⟨b, hb, hopen, hold, rfl⟩
    change execBinDispatchTimer bin s = _
    simp only [execBinDispatchTimer, hb, (b.expired_iff s.now).2 ⟨hopen, hold⟩, if_true]
  case cases =>
    change execBinDispatchTimer bin s = _ ∨ _
    unfold execBinDispatchTimer
    split
    next b hb =>
      split
      next hx =>
        obtain ⟨hopen, hold⟩ := (b.expired_iff s.now).1 hx
        exact .inr ⟨_, b, hb, hopen, hold, rfl⟩
      · exact .inl rfl
    · exact .inl rfl

/-! ## WBIND (R242) -/

/-- The check of a set has ended, with the state after it. -/
def BindCheck.Ends (k : BindCheck) (u : State) : Prop :=
  (∃ hpa size, k = .good hpa size u) ∨ ∃ code sub at_, k = .bad code sub at_ u

theorem BindCheck.ends_or_later (k : BindCheck) : k = .later ∨ ∃ u, k.Ends u := by
  cases k with
  | good hpa size u => exact .inr ⟨u, .inl ⟨_, _, rfl⟩⟩
  | bad code sub at_ u => exact .inr ⟨u, .inr ⟨_, _, _, rfl⟩⟩
  | later => exact .inl rfl

/-- The open bins of a handle, which WBIND dispatches before it goes on. -/
def State.openBins (s : State) (vf handle : Nat) : List Bin := (s.binsOf vf handle).filter Bin.opened

/-- A handle is unbound and its set leaves every Belfry. -/
def State.unbound (s : State) (vf handle : Nat) : State :=
  { s with
    belfry := s.belfry.filter fun b => !(b.vf = vf && b.handle = handle),
    handles := s.handles.filter fun k => !(k.vf = vf && k.handle = handle) }

/-- What the end of a check leaves of an unbound handle: bound to the set that was found good, or with a record. -/
def State.rebound (s : State) (c : Cmd) (handle : Nat) : BindCheck → State
  | .good hpa size _ =>
    State.trimPins { s with handles := s.handles ++ [{ vf := c.vf, handle := handle, hpa := hpa, size := size }] } c.vf
      handle
  | .bad code sub at_ _ => s.cmdReport c code sub at_
  | .later => s

/-- The command of a WBIND ends, and its threads go on. -/
def State.endWbind (s : State) (c : Cmd) : State := ((s.endCmd c 0 0).resumeCmd c.wave c.lanes).settle

theorem State.wbindStep_later {s : State} {c : Cmd} {h : Nat} {a : Word} (hk : s.checkSet c a = .later) :
    s.wbindStep c h a = s := by
  simp only [State.wbindStep, hk]

/-- Steps 2 to 4 of R242, once the check has ended. -/
theorem State.wbindStep_ends {s u : State} {c : Cmd} {h : Nat} {a : Word} (hk : (s.checkSet c a).Ends u) :
    s.wbindStep c h a =
      if u.openBins c.vf h ≠ [] then u.dispatchAll (u.openBins c.vf h)
      else if ∃ b ∈ u.binsOf c.vf h, b.weights = .waiting then u
      else ((u.unbound c.vf h).rebound c h (s.checkSet c a)).endWbind c := by
  obtain ⟨hpa, size, hk⟩ | ⟨code, sub, at_, hk⟩ := hk
  all_goals
    simp only [State.wbindStep, hk, Bool.not_eq_true', List.isEmpty_eq_false_iff, List.any_eq_true, decide_eq_true_eq]
    rfl

/-- The three outcomes of WBIND, once the check has ended, exclude each other and leave none out. -/
theorem State.eq_wbindStep_iff {s t u : State} {c : Cmd} {h : Nat} {a : Word} (hk : (s.checkSet c a).Ends u) :
    t = s.wbindStep c h a ↔
      (u.openBins c.vf h ≠ [] ∧ t = u.dispatchAll (u.openBins c.vf h) ∨
        u.openBins c.vf h = [] ∧ (∃ b ∈ u.binsOf c.vf h, b.weights = .waiting) ∧ t = u ∨
        u.openBins c.vf h = [] ∧ (∀ b ∈ u.binsOf c.vf h, b.weights ≠ .waiting) ∧
          t = ((u.unbound c.vf h).rebound c h (s.checkSet c a)).endWbind c) := by
  have hnone : (¬∃ b ∈ u.binsOf c.vf h, b.weights = .waiting) ↔ ∀ b ∈ u.binsOf c.vf h, b.weights ≠ .waiting := by simp
  rw [State.wbindStep_ends hk, ← hnone]
  split_ifs with hopen hwait
  · simp [hopen]
  · simp [not_not.1 hopen, hwait]
  · simp [not_not.1 hopen, hwait]

/-- A bound handle's set was found good; one with a record was not. -/
theorem State.eq_rebound_iff {s t u : State} {c : Cmd} {h : Nat} {k : BindCheck} (hk : k.Ends u) :
    t = (s.rebound c h k).endWbind c ↔
      (∃ hpa size, k = .good hpa size u ∧ t = (s.rebound c h (.good hpa size u)).endWbind c) ∨
        ∃ code sub at_, k = .bad code sub at_ u ∧ t = (s.rebound c h (.bad code sub at_ u)).endWbind c := by
  obtain ⟨hpa, size, rfl⟩ | ⟨code, sub, at_, rfl⟩ := hk
  · simp
  · simp

theorem exec_wbindComplete {cmd h : Nat} {a : Word} {s : State} {c : Cmd} (hc : s.cmd? cmd = some c)
    (hkind : c.kind = .wbind h a) : exec (.wbindComplete cmd) s = .next (s.wbindStep c h a) := by
  change execWbindComplete cmd s = _
  simp only [execWbindComplete, hc, hkind]

/-- A WBIND whose check ends takes one step of R242. -/
theorem becomes_wbindStep (cmd : Nat) : Becomes (.wbindComplete cmd) fun s t => ∃ c h a u,
    s.cmd? cmd = some c ∧ c.kind = .wbind h a ∧ (s.checkSet c a).Ends u ∧ t = s.wbindStep c h a := by
  refine becomes_of_cases (fun s t => ?rule) fun s => ?cases
  case rule =>
    rintro ⟨c, h, a, u, hc, hkind, -, rfl⟩
    exact exec_wbindComplete hc hkind
  case cases =>
    by_cases hcmd : ∃ c h a, s.cmd? cmd = some c ∧ c.kind = .wbind h a
    · obtain ⟨c, h, a, hc, hkind⟩ := hcmd
      obtain hk | ⟨u, hk⟩ := (s.checkSet c a).ends_or_later
      · left
        rw [exec_wbindComplete hc hkind, State.wbindStep_later hk]
      · exact .inr ⟨_, c, h, a, u, hc, hkind, hk, rfl⟩
    · left
      change execWbindComplete cmd s = _
      unfold execWbindComplete
      split
      · split
        · exact absurd ⟨_, _, _, ‹_›, ‹_›⟩ hcmd
        · rfl
      · rfl

theorem Becomes.congr {i : Instr} {p q : State → State → Prop} (h : Becomes i p) (hpq : ∀ s t, p s t ↔ q s t) :
    Becomes i q := by
  rwa [show q = p from funext fun s => funext fun t => propext (hpq s t).symm]

theorem becomes_wbindComplete (cmd : Nat) : Becomes (.wbindComplete cmd) fun s t => ∃ c h a u,
    s.cmd? cmd = some c ∧ c.kind = .wbind h a ∧ (s.checkSet c a).Ends u ∧
      (u.openBins c.vf h ≠ [] ∧ t = u.dispatchAll (u.openBins c.vf h) ∨
        u.openBins c.vf h = [] ∧ (∃ b ∈ u.binsOf c.vf h, b.weights = .waiting) ∧ t = u ∨
        u.openBins c.vf h = [] ∧ (∀ b ∈ u.binsOf c.vf h, b.weights ≠ .waiting) ∧
          ((∃ hpa size, s.checkSet c a = .good hpa size u ∧
              t = ((u.unbound c.vf h).rebound c h (.good hpa size u)).endWbind c) ∨
            ∃ code sub at_, s.checkSet c a = .bad code sub at_ u ∧
              t = ((u.unbound c.vf h).rebound c h (.bad code sub at_ u)).endWbind c)) := by
  refine (becomes_wbindStep cmd).congr fun s t => exists_congr fun c => exists_congr fun h => exists_congr fun a =>
    exists_congr fun u => and_congr_right fun _ => and_congr_right fun _ => and_congr_right fun hk => ?_
  rw [State.eq_wbindStep_iff hk, State.eq_rebound_iff hk]

/-! ## A job leaves a tile engine (R234) -/

/-- What the leaving of a tile engine comes to: bins are dispatched first, then their tiles run (R234, R246). -/
theorem exec_jobLeaveEngine (job cluster : Nat) (s : State) :
    let mine := s.bins.filter fun b => b.job = job && b.cluster = cluster
    exec (.jobLeaveEngine job cluster) s =
      if s.ctxIdle job cluster = true ∧ (s.ctxWanted job cluster = true ∨ s.awayWanted job cluster = true) then
        if ∃ b ∈ mine, b.opened = true then .next (s.dispatchAll mine)
        else if mine ≠ [] then .next s
        else .next (s.saveCtx job cluster).settle
      else .next s := by
  intro mine
  have hdue : (!s.ctxIdle job cluster || !(s.ctxWanted job cluster || s.awayWanted job cluster)) = true ↔
      ¬(s.ctxIdle job cluster = true ∧ (s.ctxWanted job cluster = true ∨ s.awayWanted job cluster = true)) := by
    simp only [Bool.or_eq_true, Bool.not_eq_true', ← Bool.not_eq_true, not_and_or]
  have hopen : mine.any Bin.opened = true ↔ ∃ b ∈ mine, b.opened = true := List.any_eq_true
  have hmine : (!mine.isEmpty) = true ↔ mine ≠ [] := by simp
  have he : exec (.jobLeaveEngine job cluster) s = _ := if_congr hdue rfl (if_congr hopen rfl (if_congr hmine rfl rfl))
  rw [he, ite_not]

/-- Settles O36: each event by the tests that its meaning makes, in their order; what becomes of pins that a rebound handle
makes too large is log 65. -/
theorem carillonEvents : Obligations.CarillonEvents := by
  unfold Obligations.CarillonEvents
  refine ⟨becomes_ncallComplete, fun cluster vf handle => ?load, becomes_binDispatchTimer, fun cluster => ?blocked,
    becomes_wbindComplete, fun job cluster s => ?leave⟩
  case load => exact turns_of_not_test (fun _ => rfl) fun _ => Iff.rfl
  case blocked =>
    exact turns_of_test (fun _ => rfl) fun s => by simp [imp_iff_not_or]
  case leave =>
    have hx := exec_jobLeaveEngine job cluster s
    refine ⟨fun hdue => hx.trans (if_neg hdue), fun hdue hopen => ?dispatches, fun hdue hshut hmine => ?runs,
      fun hdue hmine => ?leaves⟩
    all_goals rw [hx, if_pos hdue]
    case dispatches => exact if_pos hopen
    case runs => rw [if_neg fun ⟨b, hb, hopen⟩ => by simp [hshut b hb] at hopen, if_pos hmine]
    case leaves => rw [if_neg fun ⟨b, hb, _⟩ => by simp [hmine] at hb, if_neg (not_not.2 hmine)]

end Sys2Proof.Machine

namespace Sys2Proof.Machine

open Sys2Proof

/-! ## Neural calls -/

/-- R243, R244, R421: NCALL waits where its job has no context, so the context that it takes at commit is one it has. -/
theorem ncallBody_eq (kin : Fin 8) (mout : Fin 4) (f : Eng) (s : State) (r : Run) (sh : Shape) :
    ncallBody kin mout f s r sh = (ncallForm kin mout f).body s r sh := by
  -- `rfl` is for a build by files, where the two sides match by matchers of their own.
  cases hx : s.mmaCtx r.wave.team with
  | none => simp only [ncallBody, EngForm.body, ncallForm, hx, Option.isNone_none, if_true] <;> rfl
  | some x =>
    simp only [ncallBody, EngForm.body, ncallForm, hx, Option.isNone_some, Bool.false_eq_true, if_false,
      Option.getD_some] <;> rfl

/-- R241, R422, R443: an instruction without a command of its own is its form, which never waits. -/
theorem controlBody_eq (reads one : Bool) (go : List Nat → TeamId → State → State) (s : State) (r : Run) (sh : Shape) :
    controlBody reads one go s r sh = (neuralForm reads one go).body s r sh := rfl

theorem wbindBody_eq (s : State) (r : Run) (sh : Shape) : wbindBody s r sh = wbindForm.body s r sh := rfl

/-- An instruction without a command of its own, by the body that it is given. -/
theorem neuralForm_governs {reads one : Bool} {go : List Nat → TeamId → State → State} {i : Instr}
    (he : ∀ s, exec i s = execute s i [tyW64] (controlBody reads one go)) : (neuralForm reads one go).Governs [tyW64] i :=
  EngForm.governs_of_body_eq he (controlBody_eq reads one go)

/-- Settles O14: the body of each is that of its form, and only NCALL waits; NFLUSH of every handle reads none, so that it has
no fault. -/
theorem neuralCommands : Obligations.NeuralCommands := by
  unfold Obligations.NeuralCommands
  refine ⟨fun kin mout f => ?ncall, fun f => ?nflush, fun f => ?nflushAll, fun f => ?wbind, fun f => ?wpin,
    fun f => ?wunpin, fun f => ?wpref⟩
  case ncall => exact EngForm.queues_of_body_eq (fun _ => rfl) (ncallBody_eq kin mout f)
  case wbind => exact EngForm.governs_of_body_eq (fun _ => rfl) wbindBody_eq
  case nflushAll => exact (neuralForm_governs fun _ => rfl).1
  case nflush | wpin | wunpin | wpref => exact neuralForm_governs fun _ => rfl

end Sys2Proof.Machine

namespace Sys2Proof.Machine

open Sys2Proof

/-! ## Rule engine commands (R256, R257, R264, R398) -/

theorem gramBody_eq (k : Nat) (fs : Fin 8) (f : Eng) (s : State) (r : Run) (sh : Shape) :
    gramBody k fs f s r sh = (grammarForm k fs f).body s r sh := by
  simp only [EngForm.body, grammarForm, decide_eq_true_eq]
  rfl

/-- Settles O15: the body of GMV and GMM is the grammar form's, whose command carries the kind of the instruction. -/
theorem grammarCommands : Obligations.GrammarCommands := by
  unfold Obligations.GrammarCommands
  exact ⟨fun fs f => EngForm.queues_of_body_eq (fun _ => rfl) (gramBody_eq 1 fs f),
    fun v fs f => EngForm.queues_of_body_eq (fun _ => rfl) (gramBody_eq (v.val + 1) fs f)⟩

/-! ## Bins, work-lists and HASHB (R267 to R277, R368, R369, R400, R444, R445) -/

theorem binappBody_eq (op : AOp) (wide : Bool) (n : Nat) (s : State) (r : Run) (sh : Shape) :
    binappBody op wide n s r sh = (binappForm op wide n).body s r sh := rfl

theorem binreplayBody_eq (tok n : Nat) (s : State) (r : Run) (sh : Shape) :
    binreplayBody tok n s r sh = (binreplayForm tok n).body s r sh := rfl

theorem listBody_eq (waits rel items : Bool) (d : Dst) (kind : Word → List (Nat × W32) → LaneMask → CmdKind) (s : State)
    (r : Run) (sh : Shape) : listBody waits rel items d kind s r sh = (listForm waits rel items d kind).body s r sh := by
  simp only [EngForm.body, listForm, Bool.false_eq_true, if_false]
  rfl

/-- R194: of HASHB only lanes that take part consume poison, and these are in the group. -/
theorem hashbRule_poisons_eq (kin : Fin 8) (proj : Fin 16) (n : Nat) (s : State) (r : Run) (sh : Shape) :
    (hashbRule kin proj n).poisons s r sh = maskWhere ((hashbRule kin proj n).bad s r sh) :=
  mask_ext fun l => by
    rw [AluRule.poisons, has_maskWhere, has_maskWhere]
    cases hbad : (hashbRule kin proj n).bad s r sh l with
    | false => exact Bool.and_false _
    | true => rw [Run.group_of_active ((Bool.and_eq_true _ _).mp hbad).1]; rfl

theorem hashbRule_poisons (kin : Fin 8) (proj : Fin 16) (f : Eng) :
    (hashbRule kin proj ((f.n.map Fin.val).getD 0)).Poisons (.hashb kin proj f) := by
  intro s r sh hr hp
  rw [hashbRule_poisons_eq] at hp ⊢
  exact execute_fault (tys := [tyW64]) (body := hashbBody kin proj _) (e := poisonExc _) hr (if_pos hp)

/-- Settles O16: the body of each is its form's; BINAPP and BINREPLAY also wait for a command of their wave at another binning
engine (log 58). -/
theorem irregularCommands : Obligations.IrregularCommands := by
  unfold Obligations.IrregularCommands
  refine ⟨fun op wide f => ?binapp, fun f => ?binreplay, fun f => ?wlinit, fun f => ?wlpush, fun f => ?wlins, fun f => ?wlpopb,
    fun kin proj f => ?hashb⟩
  case binapp => exact EngForm.queues_of_body_eq (fun _ => rfl) (binappBody_eq op wide _)
  case binreplay => exact EngForm.queues_of_body_eq (fun _ => rfl) (binreplayBody_eq _ _)
  case hashb => exact ⟨hashbRule_completes kin proj f, hashbRule_poisons kin proj f⟩
  all_goals exact EngForm.governs_of_body_eq (fun _ => rfl) (listBody_eq _ _ _ _ _)

/-! ## Scheduler commands (R283, R287, R290, R382, R383, R386) -/

theorem enqBody_eq (d : Dst) (s : State) (r : Run) (sh : Shape) : enqBody d s r sh = (enqForm d).body s r sh := rfl

theorem depdecBody_eq (set : Bool) (s : State) (r : Run) (sh : Shape) :
    depdecBody set s r sh = (depdecForm set).body s r sh := by
  cases set <;> rfl

/-- Settles O17: the bodies of ENQ, DEPDEC and DEPSET are their forms'; DEAL is always done, and takes records only where a
thread takes part. -/
theorem schedulerCommands : Obligations.SchedulerCommands := by
  unfold Obligations.SchedulerCommands
  refine ⟨fun f => ?enq, fun set f => ?depdec, fun f => ?dealIdle, fun f => ?deal⟩
  case enq => exact EngForm.governs_of_body_eq (fun _ => rfl) (enqBody_eq f.t)
  case depdec => exact EngForm.governs_of_body_eq (fun _ => rfl) (depdecBody_eq set)
  case dealIdle =>
    refine commits_of_body (body := dealBody f.t) (fun _ => rfl) fun s r sh ha => ?_
    simp only [dealBody, ha, if_true]
  case deal =>
    refine commits_of_body (body := dealBody f.t) (fun _ => rfl) fun s r sh ha => ?_
    simp only [dealBody, ha, if_false]

/-! ## Pixel commands (R303, R308, R384, R388) -/

theorem exportBody_clean {tgt : Fin 16} {depth : Bool} {s : State} {r : Run} {sh : Shape}
    (h : s.engPoison r sh (s.actors r sh) [] = []) : exportBody tgt depth s r sh =
      .done s r (.own fun t q => (t.modLanes q.wave (s.actors r sh) fun l th => recordExport
          { tgt := tgt.val, a := (s.argAs r sh ((exportTys tgt).headD tyF32) 0 l).bits,
            b := (s.argAs r sh tyF32 1 l).bits, depth := depth } th).goOnRun q) := by
  rw [exportBody, firstExc_none.2 h]

/-- Settles O19: EXPORT checks the poison of its participating lanes first; DISCARD is always done. -/
theorem pixelCommands : Obligations.PixelCommands := by
  unfold Obligations.PixelCommands
  refine ⟨fun tgt depth f => ?exports, fun tgt depth f => ?poison, fun f => ?discard⟩
  case exports => exact commits_of_body (body := exportBody tgt depth) (fun _ => rfl) fun s r sh => exportBody_clean
  case poison =>
    exact raises_of_body (tys := exportTys tgt) (body := exportBody tgt depth) (fun _ => rfl) fun s r sh e h => by
      rw [exportBody, h]
  case discard => exact commits_of_body (body := discardBody) (fun _ => rfl) fun _ _ _ _ => rfl

end Sys2Proof.Machine

namespace Sys2Proof.Machine

open Sys2Proof

/-! ## Integer results (R401 to R408, R413) -/

/-- Settles O1: the function of each instruction on numbers is its rule on bit vectors. -/
theorem integerArithmetic : Obligations.IntegerArithmetic := by
  unfold Obligations.IntegerArithmetic
  refine ⟨?iadd, ?iaddSat, ?isub, ?isubSat, ?imul, ?imulh, ?imad, ?imin, ?imax, ?iabs, ?ineg, ?icmp, ?lea, ?iaddS, ?isubS,
    ?imulS, ?iminS, ?imaxS⟩
  case iadd => exact fun t f => (governs_sub (fun _ => rfl) fun ha hb _ => iaddF_eq ha hb).computes
  case iaddSat => exact fun t f => (governs_sub (fun _ => rfl) fun ha hb _ => iaddSatF_eq ha hb).computes
  case isub => exact fun t f => (governs_sub (fun _ => rfl) fun ha hb _ => isubF_eq ha hb).computes
  case isubSat => exact fun t f => (governs_sub (fun _ => rfl) fun ha hb _ => isubSatF_eq ha hb).computes
  case imul => exact fun t f => (governs_sub (fun _ => rfl) fun ha hb _ => imulF_eq ha hb).computes
  case imulh => exact fun t f => (governs_sub (fun _ => rfl) fun ha hb _ => imulhF_eq ha hb).computes
  case imad => exact fun t f => (governs_sub (fun _ => rfl) fun ha hb hc => imadF_eq ha hb hc).computes
  case imin => exact fun t f => (governs_sub (fun _ => rfl) fun ha hb _ => iminF_eq ha hb).computes
  case imax => exact fun t f => (governs_sub (fun _ => rfl) fun ha hb _ => imaxF_eq ha hb).computes
  case iabs => exact fun w f => (governs_sub (fun _ => rfl) fun ha _ _ => iabsF_eq ha).computes
  case ineg => exact fun w f => (governs_sub (fun _ => rfl) fun ha _ _ => inegF_eq ha).computes
  case icmp => classical exact fun cc t f => (governs_sub (fun _ => rfl) fun ha hb _ => icmpF_eq ha hb).computes
  case lea => exact fun sg k f => (governs_sub (fun _ => rfl) fun _ _ _ => leaF_eq).computes
  case iaddS => exact fun t f => (governs_sub (fun _ => rfl) fun ha hb _ => iaddF_eq ha hb).computes
  case isubS => exact fun t f => (governs_sub (fun _ => rfl) fun ha hb _ => isubF_eq ha hb).computes
  case imulS => exact fun t f => (governs_sub (fun _ => rfl) fun ha hb _ => imulF_eq ha hb).computes
  case iminS => exact fun t f => (governs_sub (fun _ => rfl) fun ha hb _ => iminF_eq ha hb).computes
  case imaxS => exact fun t f => (governs_sub (fun _ => rfl) fun ha hb _ => imaxF_eq ha hb).computes

/-! ## Logical, shift, count and bit-field results (R359, R366, R367, R372, R377, R424, R426, R434, R447) -/

/-- Settles O2: the function of each instruction on numbers is its rule on bit vectors; a short form has the function of its
long one. -/
theorem integerBits : Obligations.IntegerBits := by
  unfold Obligations.IntegerBits
  refine ⟨?and, ?andn, ?or, ?xor, ?not, ?shl, ?shr, ?sar, ?rol, ?popc, ?clz, ?brev, ?bfe, ?bfi, ?andS, ?orS, ?xorS, ?shlS,
    ?shrS⟩
  case and | andS => exact fun t f => (governs_sub (fun _ => rfl) fun ha hb _ => andF_eq ha hb).computes
  case or | orS => exact fun t f => (governs_sub (fun _ => rfl) fun ha hb _ => orF_eq ha hb).computes
  case xor | xorS => exact fun t f => (governs_sub (fun _ => rfl) fun ha hb _ => xorF_eq ha hb).computes
  case shl | shlS => exact fun t f => (governs_sub (fun _ => rfl) fun ha hb _ => shlF_eq ha hb).computes
  case shr | shrS => exact fun t f => (governs_sub (fun _ => rfl) fun ha hb _ => shrF_eq ha hb).computes
  case andn => exact fun t f => (governs_sub (fun _ => rfl) fun ha hb _ => andnF_eq ha hb).computes
  case not => exact fun t f => (governs_sub (fun _ => rfl) fun ha _ _ => notF_eq ha).computes
  case sar => exact fun t f => (governs_sub (fun _ => rfl) fun ha hb _ => sarF_eq ha hb).computes
  case rol => exact fun t f => (governs_sub (fun _ => rfl) fun ha hb _ => rolF_eq ha hb).computes
  case popc => exact fun t f => (governs_sub (fun _ => rfl) fun ha _ _ => popcF_eq ha).computes
  case clz => exact fun t f => (governs_sub (fun _ => rfl) fun ha _ _ => clzF_eq ha).computes
  case brev => exact fun t f => (governs_sub (fun _ => rfl) fun ha _ _ => brevF_eq ha).computes
  case bfe => exact fun t f => (governs_sub (fun _ => rfl) fun ha hb hc => bfeF_eq ha hb hc).computes
  case bfi => exact fun t f => (governs_sub (fun _ => rfl) fun ha hb hc => bfiF_eq ha hb hc).computes

/-! ## Results over the issue group (R415, R431, R435, R442) -/

theorem reduceRule_governs (op : RedOp) (t : Ty) (f : Alu) : (reduceRule op t (Mode.ofRm f.rm)).Governs (.red op t f) :=
  governs_of_body (fun _ _ _ => rfl) fun _ _ _ => rfl

theorem scanRule_governs (op : RedOp) (excl : Bool) (t : Ty) (f : Alu) :
    (scanRule op excl t (Mode.ofRm f.rm)).Governs (.scan op excl t f) :=
  governs_of_body (fun _ _ _ => rfl) fun _ _ _ => rfl

theorem matchRule_governs (t : Ty) (f : Alu) : (matchRule t).Governs (.matchI t f) :=
  governs_of_body (fun _ _ _ => rfl) fun s r sh => by
    simp only [matchBody, finishWhole, has_maskWhere]
    rfl

/-- R194, R442: a lane consumes poison in VOTE where its contributing condition is poisoned. -/
theorem voteRule_poisons_eq (fn : VoteFn) (s : State) (r : Run) (sh : Shape) : (voteRule fn).poisons s r sh =
    maskWhere fun l =>
      LaneMask.has (maskWhere (votes s r sh)) l && ((s.laneIn r sh [tyW64] l).ops.getD 0 Val.zero).poisoned .b32 1 :=
  mask_ext fun l => by
    rw [AluRule.poisons, has_maskWhere, has_maskWhere, has_maskWhere]
    cases hg : LaneMask.has r.group l with
    | false => rw [votes, voted, hg]; rfl
    | true => rfl

theorem voteRule_poisons (fn : VoteFn) (f : Alu) : (voteRule fn).Poisons (.vote fn f) := by
  intro s r sh hr hp
  rw [voteRule_poisons_eq] at hp ⊢
  refine execute_fault (tys := [tyW64]) (body := voteBody fn) (e := poisonExc _) hr ?_
  simp only [voteBody, voters_eq]
  exact if_pos hp

/-- Settles O6: the body of each is its rule's; what a lane gives to the others it gives only where no route takes it from
outside the group (log 70). -/
theorem groupResults : Obligations.GroupResults := by
  unfold Obligations.GroupResults
  exact ⟨reduceRule_governs, scanRule_governs, fun fn f => ⟨voteRule_completes fn f, voteRule_poisons fn f⟩,
    fun t f => (matchRule_governs t f).computes⟩

/-! ## NOP and BRK (R326, R373, R423) -/

/-- Settles O25: NOP's body does nothing; BRK's stops the lanes that no run passes, where breakpoints are on (log 35). -/
theorem nopAndBreakpoint : Obligations.NopAndBreakpoint := by
  unfold Obligations.NopAndBreakpoint
  refine ⟨fun e s r sh i hi hr hf => ?nop, fun code e s r sh hr => ⟨fun l => ?lanes, fun hgo hf => ?passes, fun hstop => ?stops⟩⟩
  case nop =>
    obtain rfl | rfl : i = .nop e ∨ i = .nopS e := by simpa using hi
    · exact execute_plain (body := nopBody) hr rfl hf
    · exact execute_plain (body := nopBody) hr rfl hf
  case lanes => rw [State.stoppable, has_maskWhere, Bool.and_eq_true, Bool.not_eq_true']
  case passes =>
    refine execute_plain (body := brkBody code _) hr (if_neg ?_) hf
    rwa [Bool.and_eq_true, decide_eq_true_eq]
  case stops =>
    refine (execute_ready hr [] (brkBody code _)).trans ?_
    rw [brkBody, if_pos (by rwa [Bool.and_eq_true, decide_eq_true_eq])]

/-! ## Words that the spec writes out -/

/-- Settles O45: the decoder, evaluated at each. -/
theorem decodeWords_written : Obligations.DecodeWords := by
  unfold Obligations.DecodeWords
  refine ⟨?rft, ?rftSkip, ?brk, ?iaddS, ?atoms, ?enq, ?aadd⟩
  all_goals decide +kernel

end Sys2Proof.Machine

namespace Sys2Proof.Machine

open Sys2Proof

/-! ## Registers of stream programs (R347, R352, R357, R361) -/

/-- R352: the comparison of ACMP on numbers is that of its rule. -/
theorem execAcmp_relation (cc : Icc) (a b : Nat) : execAcmp.relation' cc a b = true ↔ compareRule cc a b := by
  cases cc <;> simp [execAcmp.relation', compareRule]

theorem acmpRule_eq (cc : Icc) (a b : Word) :
    (if execAcmp.relation' cc a.toNat b.toNat then 1 else 0 : Word) = acmpRule cc a b := by
  classical exact if_congr (execAcmp_relation cc _ _) rfl rfl

/-- What ASIG comes to (R357). -/
def asigStep (k : Fin 8) (f : Str) (s : State) (u : Team) : StrRes :=
  .next (s.modTeam u.id fun v =>
    { v with
      sem := v.sem.set k (min (v.sem[k] + bits (u.stream.src f.a f.lit) 15 0) 65535),
      semSig := v.semSig.set k (v.semSig[k] ||| v.stream.sig) })

theorem exec_asig {k : Fin 8} {f : Str} {s : State} {t : TeamId} {u : Team} (hr : StrReady s (.asig k f) t u) :
    exec (.asig k f) s = (asigStep k f (s.strAt t u) u).out t (u.stream.pc + w64 (4 * litWords f.lit)) :=
  strExec_ready hr (litWords f.lit) (asigStep k f)

/-- Settles O27: AMOV, AADD and ACMP compute their register, ACMP by the unsigned relation; ASIG adds the low 16 bits of its
count. -/
theorem streamRegisters : Obligations.StreamRegisters := by
  unfold Obligations.StreamRegisters
  refine ⟨fun f => ?amov, fun f => ?amovHigh, fun f => ?aadd, fun cc f => ?acmp, fun k f s t u hr => ?asig⟩
  case amov => exact strSets_of (fun _ => rfl) fun _ => rfl
  case aadd => exact strSets_of (fun _ => rfl) fun _ => rfl
  case acmp => exact strSets_of (fun _ => rfl) fun x => acmpRule_eq cc _ _
  case amovHigh =>
    refine strSets_of (fun _ => rfl) fun x => ?_
    have low (v : Word) : w32 (low32 v) = v.extractLsb' 0 32 := BitVec.eq_of_toNat_eq (by simp [w32, low32_eq])
    simp only [if_true, low]
  case asig =>
    rw [exec_asig hr, asigStep, team?_id hr.held, ← bits_low16]
    rfl

/-! ## Control of stream programs (R348, R354, R355, R364) -/

theorem strTo_header {s v : State} {t : TeamId} {goal : Word} (h : StrTarget s t goal v true) :
    s.strTo t goal = .jump v goal := by
  obtain ⟨ws, hfetch, hheader⟩ := h
  simp only [State.strTo, hfetch, hheader, if_true]

theorem strTo_other {s v : State} {t : TeamId} {goal : Word} (h : StrTarget s t goal v false) :
    s.strTo t goal = .fault v Code.badTarget 0 := by
  obtain ⟨ws, hfetch, hheader⟩ := h
  simp only [State.strTo, hfetch, hheader, Bool.false_eq_true, if_false]

/-- Is a stream branch taken, as the machine tests it? -/
def strTaken (c : BrCond) (a : Word) : Bool :=
  match c with | .always => true | .nonzero => decide (a ≠ 0) | .zero => decide (a = 0)

theorem strTaken_iff (c : BrCond) (a : Word) : strTaken c a = true ↔ StrTaken c a := by
  cases c <;> simp [strTaken, StrTaken]

/-- What ABR comes to (R348). -/
def abrStep (c : BrCond) (f : StrCtl) (s : State) (u : Team) : StrRes :=
  match s.strTo u.id (strTarget u.stream.pc f) with
  | .jump s goal => if strTaken c (u.stream.src f.a f.lit) = true then .jump s goal else .next s
  | r => r

theorem exec_abr {c : BrCond} {f : StrCtl} {s : State} {t : TeamId} {u : Team} (hr : StrReady s (.abr c f) t u) :
    exec (.abr c f) s = (abrStep c f (s.strAt t u) u).out t (u.stream.pc + w64 (4 * litWords f.lit)) :=
  strExec_ready hr (litWords f.lit) (abrStep c f)

/-- The program's loop level `k` as ALOOP arms it (R355). -/
def State.armLoop (s : State) (t : TeamId) (k : Fin 4) (start stop : Word) (n : Nat) : State :=
  s.modStream t fun x => { x with loops := x.loops.set k ⟨start, stop, w32 n, decide (n ≠ 0)⟩ }

/-- What ALOOP comes to (R355). -/
def aloopStep (k : Fin 4) (len2 : BitVec 10) (f : StrCtl) (s : State) (u : Team) : StrRes :=
  let start := strTarget u.stream.pc f
  let stop := wordsAfter start (len2.zeroExtend 64)
  let n := low32 (u.stream.src f.a f.lit)
  match s.strTo u.id start with
  | .jump s _ =>
    match s.strTo u.id stop with
    | .jump s _ => .jump (s.armLoop u.id k start stop n) (if n = 0 then stop else start)
    | r => r
  | r => r

theorem exec_aloop {k : Fin 4} {len2 : BitVec 10} {f : StrCtl} {s : State} {t : TeamId} {u : Team}
    (hr : StrReady s (.aloop k len2 f) t u) : exec (.aloop k len2 f) s =
      (aloopStep k len2 f (s.strAt t u) u).out t (u.stream.pc + w64 (4 * litWords f.lit)) :=
  strExec_ready hr (litWords f.lit) (aloopStep k len2 f)

/-- What AWAIT comes to: it takes its count, or joins the semaphore's waiters (R216, R364). -/
def awaitStep (k : Fin 8) (f : Str) (s : State) (u : Team) : StrRes :=
  let n := bits (u.stream.src f.a f.lit) 15 0
  if u.awaitReady u.arrivals k n = true then .next (s.takeSem u.id k n)
  else
    .stay (s.modTeam u.id fun v =>
      { v with stream := { v.stream with st := .awaiting v.arrivals k n }, arrivals := v.arrivals + 1 })

theorem exec_await {k : Fin 8} {f : Str} {s : State} {t : TeamId} {u : Team} (hr : StrReady s (.await k f) t u) :
    exec (.await k f) s = (awaitStep k f (s.strAt t u) u).out t (u.stream.pc + w64 (4 * litWords f.lit)) :=
  strExec_ready hr (litWords f.lit) (awaitStep k f)

/-- Fetching the instruction a program stands at leaves its team. -/
theorem StrReady.team_strAt {i : Instr} {s : State} {t : TeamId} {u : Team} (hr : StrReady s i t u) :
    (s.strAt t u).team t = u :=
  State.team_of_team? ((State.team?_congr (s.touchInstr_teams _ _) t).trans hr.held)

/-- Settles O28: each by its step; ABR checks its target taken or not (log 66). -/
theorem streamControl : Obligations.StreamControl := by
  unfold Obligations.StreamControl
  refine ⟨fun c f s v t u header hr ht => ⟨?taken, ?passed, ?noHeader⟩,
    ?aloop,
    fun k f s t u hr => ⟨fun hmay => ?takes, fun hmay => ?waits⟩, fun f s t u hr => ?ahalt⟩
  case taken =>
    rintro rfl htaken
    rw [exec_abr hr, abrStep, team?_id hr.held, strTo_header ht]
    exact congrArg (StrRes.out · t _) (if_pos ((strTaken_iff c _).2 htaken))
  case passed =>
    rintro rfl htaken
    rw [exec_abr hr, abrStep, team?_id hr.held, strTo_header ht]
    exact congrArg (StrRes.out · t _) (if_neg (mt (strTaken_iff c _).1 htaken))
  case noHeader =>
    rintro rfl
    rw [exec_abr hr, abrStep, team?_id hr.held, strTo_other ht]
    rfl
  case aloop =>
    intro k len2 f s v w t u first second hr
    dsimp only
    intro hfirst
    refine ⟨?startNoHeader, ?start⟩
    case startNoHeader =>
      rintro rfl
      rw [exec_aloop hr, aloopStep, team?_id hr.held, strTo_other hfirst]
      rfl
    case start =>
      rintro rfl hsecond
      rw [exec_aloop hr, aloopStep, team?_id hr.held, strTo_header hfirst]
      refine ⟨?stopNoHeader, ?stop⟩
      case stopNoHeader =>
        rintro rfl
        simp only [strTo_other hsecond]
        rfl
      case stop =>
        rintro rfl
        simp only [strTo_header hsecond]
        rfl
  case takes =>
    rw [← bits_low16, ← Team.awaitReady_iff] at hmay
    rw [exec_await hr, awaitStep, if_pos hmay, team?_id hr.held, State.takeSem, hr.team_strAt, ← bits_low16]
    rfl
  case waits =>
    rw [← bits_low16, ← Team.awaitReady_iff] at hmay
    rw [exec_await hr, awaitStep, if_neg hmay, team?_id hr.held, ← bits_low16]
    rfl
  case ahalt =>
    have hexec := strExec_ready hr (litWords f.lit) fun s u =>
      .stay (s.modStream u.id fun x => { x.fresh with st := .idle }).settle
    rwa [team?_id hr.held] at hexec

end Sys2Proof.Machine

namespace Sys2Proof.Machine

open Sys2Proof

/-! ## Freeze, the test port, reset and boot (R332, R333, R337 to R339) -/

/-- What the test port is loaded with changes its registers alone (R333). -/
theorem State.portCode_port (s : State) (code : BitVec 8) : ∃ ir tdo, s.portCode code = { s with ir := ir, tdo := tdo } := by
  unfold State.portCode
  split
  · exact ⟨_, _, rfl⟩
  · split
    · exact ⟨_, _, rfl⟩
    · split
      · exact ⟨_, _, rfl⟩
      · exact ⟨_, _, rfl⟩

theorem State.portCode_bypass (s : State) :
    s.portCode 0xFF = if s.portOpen then { s with ir := 0xFF, tdo := [0] } else s := by
  simp [State.portCode]

theorem State.portCode_idcode (s : State) :
    s.portCode 0x01 = if s.portOpen then { s with ir := 0x01, tdo := [Config.idcode.zeroExtend 64] } else s := by
  simp [State.portCode]

theorem State.portCode_scanrd (s : State) :
    s.portCode 0x20 = if s.frozen && !s.restricted then { s with ir := 0x20, tdo := s.dump } else s := by
  simp [State.portCode]

/-- What measured boot comes to on a device that has not booted (R337). -/
theorem exec_measuredBoot_pending (img : BootImage) {s : State} (hf : s.frozen = false) (hb : s.boot = .pending) :
    exec (.measuredBoot img) s = .next
      (if imageGood img then
        img.parts.foldl State.startPart
          { ((shake256 img.image :: img.stages).foldl State.measure (s.measure Config.romDigest)).attest with
            boot := .done, mgrid := (1 : BitVec 32) ++ img.mgrid, quoteLeaf := 0 }
      else { s.measure Config.romDigest with boot := .failed, restricted := true }) := by
  change execMeasuredBoot img s = _
  simp only [execMeasuredBoot, hf, hb]
  cases imageGood img with
  | false | true => rfl

theorem exec_measuredBoot_idle (img : BootImage) {s : State} (h : s.frozen = true ∨ s.boot ≠ .pending) :
    exec (.measuredBoot img) s = .next s := by
  refine if_pos ?_
  rwa [Bool.or_eq_true, decide_eq_true_eq]

/-- An event whose meaning leaves the state it gives where its condition holds turns there. -/
theorem turns_of_next_ite {i : Instr} {ok : State → Prop} {t : State → State} {test : State → Bool}
    (he : ∀ s, exec i s = .next (if test s then t s else s)) (ht : ∀ s, test s = true ↔ ok s) : Turns i ok t :=
  turns_of_test (fun s => (he s).trans (by split <;> rfl)) ht

/-- Settles O43: each instruction of the test port by what it is offered for (log 32); boot by the checks of its image
(log 31). -/
theorem freezeResetBoot : Obligations.FreezeResetBoot := by
  unfold Obligations.FreezeResetBoot
  refine ⟨fun _ => rfl, ?bypass, ?idcode, ?scanrd, fun _ => rfl, fun img s => exec_measuredBoot_pending img,
    fun img s => exec_measuredBoot_idle img⟩
  case bypass => exact turns_of_next_ite (fun s => congrArg Host.Outcome.next s.portCode_bypass) fun _ => Iff.rfl
  case idcode => exact turns_of_next_ite (fun s => congrArg Host.Outcome.next s.portCode_idcode) fun _ => Iff.rfl
  case scanrd =>
    refine turns_of_next_ite (fun s => congrArg Host.Outcome.next s.portCode_scanrd) fun s => ?_
    rw [Bool.and_eq_true, Bool.not_eq_true']

/-! ## Frozen devices (R332, R333) -/

/-- A frozen device answers its pins and its test port alone. -/
theorem Instr.whileFrozen_cases {i : Instr} (h : Instr.whileFrozen i = true) :
    i = .rstN ∨ i = .frzNAssert ∨ i = .bypass ∨ i = .idcode ∨ i = .scanrd := by
  unfold Instr.whileFrozen at h
  split at h <;> simp_all

theorem State.takeInput_frozen {s t : State} {i : Instr} (hf : s.frozen = true) (hi : i ≠ .rstN)
    (ht : s.takeInput i = .next t) : ∃ ir tdo, t = { s with ir := ir, tdo := tdo } := by
  unfold State.takeInput at ht
  split at ht
  case isFalse => cases ht; exact ⟨_, _, rfl⟩
  case isTrue h =>
    have hw : Instr.whileFrozen i = true := by simpa [hf] using ((Bool.and_eq_true _ _).mp h).2
    obtain rfl | rfl | rfl | rfl | rfl := Instr.whileFrozen_cases hw
    · exact absurd rfl hi
    · cases ht
      exact ⟨s.ir, s.tdo, by rw [← hf]⟩
    all_goals
      cases ht
      exact s.portCode_port _

/-- On a frozen device the clocks stand. -/
theorem State.passTime_frozen {s : State} (hf : s.frozen = true) : s.passTime = { s with tick := s.tick + 1 } := if_pos hf

/-- Settles O50: a frozen device takes its pins and the test port's instructions alone, makes no move, and its clocks stand. -/
theorem frozenStays : Obligations.FrozenStays := by
  unfold Obligations.FrozenStays
  intro s s' hf hin hs
  unfold step at hs
  cases hrest : s.inputs with
  | nil =>
    rw [hrest] at hs
    simp only [State.ownMove, hf, Bool.true_or, if_true, afterTime, State.passTime_frozen hf] at hs
    cases hs
    simp [hrest, hf]
  | cons i rest =>
    rw [hrest] at hs hin
    dsimp only at hs
    cases ht : State.takeInput { s with inputs := rest } i with
    | fault e | refused e => rw [ht] at hs; cases hs
    | next t =>
      rw [ht] at hs
      obtain ⟨ir, tdo, rfl⟩ := State.takeInput_frozen (by exact hf) (fun h => hin (congrArg some h)) ht
      cases hs
      rw [State.passTime_frozen (by exact hf)]
      rfl

end Sys2Proof.Machine

namespace Sys2Proof.Machine

open Sys2Proof

/-! ## New values of atomic operations (R179, R362) -/

section Atomic

variable {b : Nat} (old v cmp : BitVec b)

theorem ofNat_ite_toNat (c : Prop) [Decidable c] (x y : BitVec b) :
    BitVec.ofNat b (if c then x.toNat else y.toNat) = if c then x else y := by
  split <;> rw [BitVec.ofNat_toNat, BitVec.setWidth_eq]

theorem atomicNew_add : BitVec.ofNat b (atomicNew .add b old.toNat v.toNat cmp.toNat) = old + v :=
  BitVec.eq_of_toNat_eq (by simp [atomicNew])

theorem signed_toNat (hb : 0 < b) : signed b v.toNat = v.toInt := by
  rw [signed_eq hb v.isLt, BitVec.ofNat_toNat, BitVec.setWidth_eq]

theorem atomicNew_smin (hb : 0 < b) :
    BitVec.ofNat b (atomicNew .smin b old.toNat v.toNat cmp.toNat) = if v.slt old then v else old := by
  simp only [atomicNew, signed_toNat _ hb, ofNat_ite_toNat, BitVec.slt, decide_eq_true_eq]

theorem atomicNew_smax (hb : 0 < b) :
    BitVec.ofNat b (atomicNew .smax b old.toNat v.toNat cmp.toNat) = if old.slt v then v else old := by
  simp only [atomicNew, signed_toNat _ hb, ofNat_ite_toNat, BitVec.slt, decide_eq_true_eq]

theorem atomicNew_umin :
    BitVec.ofNat b (atomicNew .umin b old.toNat v.toNat cmp.toNat) = if v < old then v else old := by
  simp only [atomicNew, BitVec.lt_def]
  rw [← ofNat_ite_toNat]
  congr 1
  split <;> omega

theorem atomicNew_umax :
    BitVec.ofNat b (atomicNew .umax b old.toNat v.toNat cmp.toNat) = if old < v then v else old := by
  simp only [atomicNew, BitVec.lt_def]
  rw [← ofNat_ite_toNat]
  congr 1
  split <;> omega

theorem atomicNew_cas :
    BitVec.ofNat b (atomicNew .cas b old.toNat v.toNat cmp.toNat) = if old = cmp then v else old := by
  simp only [atomicNew, ← BitVec.toNat_inj, ofNat_ite_toNat]

end Atomic

/-- R362: what `Obligations.AtomicValues` says of the new values. -/
theorem atomicNew_values (wide : Bool) :
    let b := if wide then 64 else 32
    let f := if wide then Fmt.f64 else Fmt.f32
    ∀ old v cmp : BitVec b,
      let new := fun op => BitVec.ofNat b (atomicNew op b old.toNat v.toNat cmp.toNat)
      new .add = old + v ∧ new .smin = (if v.slt old then v else old) ∧ new .smax = (if old.slt v then v else old) ∧
      new .umin = (if v < old then v else old) ∧ new .umax = (if old < v then v else old) ∧ new .and = old &&& v ∧
      new .or = old ||| v ∧ new .xor = old ^^^ v ∧ new .exch = v ∧ new .cas = (if old = cmp then v else old) ∧
      new .fadd = BitVec.ofNat b (f.add .ne (f.decode old.toNat) (f.decode v.toNat)).bits ∧
      new .fmin = BitVec.ofNat b (f.minmax false old.toNat v.toNat).bits ∧
      new .fmax = BitVec.ofNat b (f.minmax true old.toNat v.toNat).bits := by
  intro b f old v cmp new
  have hb : 0 < b := by cases wide <;> decide
  have hf : fmtOf (b = 64) = f := by cases wide <;> rfl
  refine ⟨atomicNew_add .., atomicNew_smin _ _ _ hb, atomicNew_smax _ _ _ hb, atomicNew_umin .., atomicNew_umax .., ?and, ?or, ?xor,
    ?exch, atomicNew_cas .., ?fadd, ?fmin, ?fmax⟩
  case and => simp [new, atomicNew]
  case or => simp [new, atomicNew]
  case xor => simp [new, atomicNew]
  case exch => simp [new, atomicNew]
  all_goals simp only [new, atomicNew, hf]

/-! ### An atomic on a scratchpad word -/

theorem natLE_bytesLE (n x : Nat) : natLE (bytesLE n x) = x % 2 ^ (8 * n) := by
  induction n generalizing x with
  | zero => simp [bytesLE, natLE, Nat.mod_one]
  | succ n ih =>
    have hpow : 2 ^ (8 * (n + 1)) = 256 * 2 ^ (8 * n) := by rw [Nat.mul_succ, Nat.pow_add, Nat.mul_comm]
    rw [bytesLE, natLE, ih, BitVec.toNat_ofNat, hpow, Nat.mod_mul]

theorem length_bytesLE (n x : Nat) : (bytesLE n x).length = n := by
  induction n generalizing x with
  | zero => rfl
  | succ n ih => rw [bytesLE, List.length_cons, ih]

/-- An atomic on a word of a scratchpad in canonical form answers the old value, and leaves the new one there. -/
theorem State.atomicAt_scr {s : State} (core : Nat) {t : TeamId} (o : Nat) (op : AOp) (n v cmp : Nat) (ht : s.team? t ≠ none)
    (hm : (s.team t).scr.wf = true) :
    let old := natLE (s.readScr t o n)
    let s' := (s.atomicAt core (.scr t o) op n v cmp).2
    (s.atomicAt core (.scr t o) op n v cmp).1 = old ∧
      natLE (s'.readScr t o n) = atomicNew op (8 * n) old v cmp % 2 ^ (8 * n) ∧
      ∀ a, (a < o ∨ o + n ≤ a) → (s'.team t).scr.read a = (s.team t).scr.read a := by
  intro old s'
  have hscr : (s'.team t).scr = (s.team t).scr.writeL o (bytesLE n (atomicNew op (8 * n) old v cmp)) :=
    State.scr_writeScr_same o _ ht
  have hlen := length_bytesLE n (atomicNew op (8 * n) old v cmp)
  refine ⟨rfl, ?_, fun a ha => ?_⟩
  · have hread : s'.readScr t o n = bytesLE n (atomicNew op (8 * n) old v cmp) := by
      rw [State.readScr, hscr, Memory.readN]
      refine List.ext_getElem (by simp [hlen]) fun i hi hj => ?_
      rw [List.getElem_map, List.getElem_range, Memory.read_writeL_in hm hj, List.getD_eq_getElem _ _ hj]
    rw [hread, natLE_bytesLE]
  · rw [hscr, Memory.read_writeL_out (by rwa [hlen])]

/-! A scratchpad that is not in canonical form can hold two cells for one byte. The 0 that an atomic leaves there takes the
first away and uncovers the second. In canonical form the new value is read again (`State.atomicAt_scr`). -/

/-- The second cell of `doubledScr` is what is read after EXCH of 0. -/
theorem doubledScr_exch_read :
    natLE ((doubledScr.atomicAt 0 (.scr ⟨0, 0⟩ 0) .exch 1 0 0).2.readScr ⟨0, 0⟩ 0 1) = 1 := by
  decide +kernel

/-- Refutes O60: the statement takes any list of cells for a scratchpad. In one that lists its first byte twice (`doubledScr`),
EXCH of 0 there leaves a 1 to be read. The fault is the missing hypothesis that the scratchpad is in canonical form; with it
the word holds the new value (`State.atomicAt_scr`), and the new values are those of R362 (`atomicNew_values`). -/
theorem not_atomicValues : ¬ Obligations.AtomicValues := by
  unfold Obligations.AtomicValues
  rintro ⟨-, h⟩
  obtain ⟨-, hnew, -⟩ := h doubledScr 0 ⟨0, 0⟩ 0 .exch 1 0 0 (by decide)
  exact absurd (doubledScr_exch_read.symm.trans hnew) (by decide)

end Sys2Proof.Machine

namespace Sys2Proof.Machine

open Sys2Proof

/-! ## Texture samples (R302 to R306, R363, R439) -/

/-- The run of a sample that is made: each participating lane's value, RX where a partner stands outside the group, and the
requests that are recorded (R303, R305, R331). -/
def sampledRun (lod : Lod) (d : Dst) (gs : List (Fin 32 × Got)) (xs : List Sample) (r : Run) (sh : Shape) : Run :=
  let q := r.write (fun _ => 0) fun l regs => regs.putThread d (LaneMask.has (r.active sh) l) ⟨valueOf gs l, 0⟩
  { q with rx := q.rx || (quadLanes lod r sh).any (fun l => !(LaneMask.has r.group l)), samples := q.samples ++ xs }

/-- The body of TEX and TEXG, by the samples of its lanes (R193, R303, R319). -/
theorem sampleBody_eq (lod : Lod) (gath : Bool) (n : Option (Fin 32)) (d : Dst)
    (finish : Word → Image → List (Tap × Texel) → Word) (s : State) (r : Run) (sh : Shape) :
    sampleBody lod gath n d finish s r sh =
      let g := sampleLanes lod gath n finish s r sh
      let a := sampleAfter lod gath n s g.2 r sh
      if quadLate lod s r sh = true then .wait s
      else
        match firstExc (excsOf g.1) with
        | some e => .fault g.2 e
        | none =>
          if !(holdsOf g.1).isEmpty then .wait (g.2.awaitRemote r (holdsOf g.1))
          else .done a.2 (sampledRun lod d g.1 a.1 r sh) .goOn := rfl

theorem sampleGoverns {lod : Lod} {gath : Bool} {n : Option (Fin 32)} {d : Dst}
    {finish : Word → Image → List (Tap × Texel) → Word} {i : Instr}
    (he : ∀ s, exec i s = execute s i texTys (sampleBody lod gath n d finish)) : SampleGoverns lod gath n d finish i := by
  refine fun s r sh hr => ⟨fun hlate => ?late, fun hlate e hx => ?fault, fun hlate hx hh => ?hold, fun hlate hx hh hf => ?done⟩
  all_goals rw [he]
  case late => exact execute_wait hr (by rw [sampleBody_eq]; exact if_pos hlate)
  all_goals have hn := ne_true_of_eq_false hlate
  case fault => exact execute_fault hr (by rw [sampleBody_eq]; dsimp only; rw [if_neg hn, hx])
  case hold =>
    refine execute_wait hr ?_
    rw [sampleBody_eq]
    dsimp only
    rw [if_neg hn, firstExc_none.2 hx, List.isEmpty_eq_false_iff.2 hh]
    rfl
  case done =>
    refine execute_plain (r' := sampledRun lod d _ _ r sh) hr ?_ hf
    rw [sampleBody_eq]
    dsimp only
    rw [if_neg hn, firstExc_none.2 hx, hh]
    rfl

/-! ## ATTR (R305, R307) -/

/-- The reads of a lane's block (R305). -/
def attrWords (s : State) (r : Run) (sh : Shape) (l : Fin 32) : Except Got (List Word × State) :=
  s.loadAll r l .scr .scr ((List.range 3).map fun k => (s.engArg r sh 0 l, (s.engArg r sh 0 l).bits + w64 (8 * k), 8))

/-- A lane of ATTR that is aligned, in bounds and clean, and whose block is read (R193, R307). -/
def AttrClean (s : State) (r : Run) (sh : Shape) (l : Fin 32) : Prop :=
  (s.engArg r sh 0 l).bits.toNat % 16 = 0 ∧ (s.engArg r sh 0 l).bits.toNat + 32 ≤ (s.team r.wave.team).scrSize ∧
    (s.argAs r sh tyF32 1 l).bad = false ∧ ∃ ws t, attrWords s r sh l = .ok (ws, t)

theorem attrLane_clean {s : State} {r : Run} {sh : Shape} {l : Fin 32} (h : AttrClean s r sh l) :
    s.attrLane r l (s.engArg r sh 0 l) (s.argAs r sh tyF32 1 l) = (.got 0, s) := by
  obtain ⟨haligned, hbound, hpoison, -⟩ := h
  rw [State.attrLane, if_neg (not_not.2 haligned), if_neg (Nat.not_lt.2 hbound), if_neg (ne_true_of_eq_false hpoison)]

/-- Lanes that leave the state alone are gathered in it. -/
theorem gather_still {one : State → Fin 32 → Got × State} {g : Fin 32 → Got} {s : State} :
    ∀ {ls : List (Fin 32)}, (∀ l ∈ ls, one s l = (g l, s)) → gather one ls s = (ls.map fun l => (l, g l), s)
  | [], _ => rfl
  | l :: ls, h => by
    rw [gather, h l List.mem_cons_self]
    dsimp only
    rw [gather_still fun k hk => h k (List.mem_cons_of_mem l hk)]
    rfl

/-- The interpolated components of each participating lane. -/
def attrOuts (s : State) (r : Run) (sh : Shape) (l : Fin 32) : List Rnd :=
  if LaneMask.has (r.active sh) l then attrOut s s r sh l else []

def attrFlags (s : State) (r : Run) (sh : Shape) (l : Fin 32) : Flags :=
  (attrOuts s r sh l).foldl (fun a x => a ||| x.flags) 0

theorem find?_map_lane {α : Type} (f : Fin 32 → α) (ls : List (Fin 32)) (l : Fin 32) :
    (ls.map fun k => (k, f k)).find? (fun x => x.1 = l) = if l ∈ ls then some (l, f l) else none := by
  induction ls with
  | nil => rfl
  | cons k ks ih =>
    rw [List.map_cons, List.find?_cons]
    by_cases hk : k = l
    · simp [hk]
    · simp [hk, Ne.symm hk, ih]

/-- The components that the body of ATTR computes from the blocks of its lanes. -/
theorem attrOuts_eq (s : State) (r : Run) (sh : Shape) (l : Fin 32) :
    (match ((lanesOf (r.active sh)).map fun k => (k, attrWords s r sh k)).find? fun x => x.1 = l with
      | some (_, .ok (ws, _)) =>
        let c := fun (k : Nat) => subN 32 (ws.getD (k / 2) 0) (k % 2)
        let b := (s.argAs r sh tyF32 1 l).bits
        [interpolate (c 0) (c 1) (c 2) (low32 b) (high32 b), interpolate (c 3) (c 4) (c 5) (low32 b) (high32 b)]
      | _ => []) = attrOuts s r sh l := by
  rw [find?_map_lane]
  simp only [attrOuts, mem_lanesOf]
  by_cases hl : LaneMask.has (r.active sh) l = true
  · rw [if_pos hl, if_pos hl, attrOut, ← attrWords]
    cases attrWords s r sh l <;> rfl
  · rw [if_neg hl, if_neg hl]

theorem attrBody_clean {d : Dst} {s : State} {r : Run} {sh : Shape}
    (h : ∀ l, LaneMask.has (r.active sh) l = true → AttrClean s r sh l) (hx : NoFpx r false (attrFlags s r sh)) :
    attrBody d s r sh = .done s (r.write (attrFlags s r sh) fun l regs =>
      regs.putThread d (LaneMask.has (r.active sh) l) ⟨w64 (packN 32 ((attrOuts s r sh l).map fun x => x.bits)), 0⟩) .goOn := by
  have hlanes : gather (fun t l => t.attrLane r l (s.engArg r sh 0 l) (s.argAs r sh tyF32 1 l)) (lanesOf (r.active sh)) s =
      ((lanesOf (r.active sh)).map fun l => (l, .got 0), s) :=
    gather_still fun l hl => attrLane_clean (h l (mem_lanesOf.1 hl))
  have hexc : excsOf ((lanesOf (r.active sh)).map fun l => (l, Got.got 0)) = [] := by
    simp [excsOf, List.filterMap_map, Function.comp]
  have hput := finishPut_clean (s := s) (put := fun l regs => regs.putThread d (LaneMask.has (r.active sh) l)
    ⟨w64 (packN 32 ((attrOuts s r sh l).map fun x => x.bits)), 0⟩) hx
  simp only [attrBody, hlanes, hexc, List.nil_append]
  rw [firstExc_none.2 (List.filterMap_eq_nil_iff.2 ?read)]
  case read =>
    simp only [List.mem_map, mem_lanesOf]
    rintro _ ⟨l, hl, rfl⟩
    obtain ⟨-, -, -, ws, t, hws⟩ := h l hl
    rw [attrWords] at hws
    simp only [hws]
  have hflags : attrFlags s r sh = fun l => (attrOuts s r sh l).foldl (fun a x => a ||| x.flags) 0 := rfl
  simp only [hflags, ← attrOuts_eq, attrWords] at hput ⊢
  exact hput

/-- Settles O18: TEX and TEXG by the samples of their lanes (log 21); ATTR of clean lanes by the reads of their blocks. -/
theorem textureResults : Obligations.TextureResults := by
  unfold Obligations.TextureResults
  refine ⟨fun lod f => sampleGoverns fun _ => rfl, fun lod ch f => sampleGoverns fun _ => rfl, fun f s r sh hr => ?attr⟩
  case attr =>
    intro u words hclean out flags hx hf
    exact execute_plain (body := attrBody f.t) hr (attrBody_clean hclean hx) hf

end Sys2Proof.Machine

/-! Reads of a range within one page that is reached; the scheduler's launches and completions (O37). -/
namespace Sys2Proof.Machine
open Sys2Proof

/-! ### Reads within one page -/

/-- A range that lies in one page, whose first byte is reached, reads as the bytes there, and nothing changes. -/
theorem State.xreadN_held {s : State} {c : Xctx} {va h n : Nat} (hh : HeldAs s c va .read h) (hn : n ≠ 0)
    (hpage : va % 4096 + n ≤ 4096) :
    s.xreadN c va n = .ok (s.readPhys c.part h n,
      (List.range ((va % 128 + n + 127) / 128)).any fun i => s.linePoisoned c.part (h / 128 * 128 + 128 * i), s) := by
  obtain ⟨x, hx, rfl⟩ := hh.translate
  have hmin : min n (4096 - va % 4096) = n := by omega
  simp [State.xreadN, pages, State.xread, hn, hx, hmin, Except.mapError, bind, Except.bind, pure, Except.pure]

/-- Such a range as a number. -/
theorem State.xreadNat_held {s : State} {c : Xctx} {va h n : Nat} (hh : HeldAs s c va .read h) (hn : n ≠ 0)
    (hpage : va % 4096 + n ≤ 4096) : s.xreadNat c va n = .ok (natLE (s.readPhys c.part h n), s) := by
  simp [State.xreadNat, State.xreadN_held hh hn hpage, bind, Except.bind, pure, Except.pure]

/-- An aligned card that is reached reads as the bytes there. -/
theorem State.readCard_held {s : State} {c : Xctx} {a h : Nat} (ha : a % 128 = 0) (hh : HeldAs s c a .read h) :
    s.readCard c a = .ok (natLE (s.readPhys c.part h 128), s) :=
  State.xreadNat_held hh (by decide) (by omega)

/-! ### Launches -/

section CardLaunch
variable {vf queue : Nat} {s t : State}

/-- The head card of a queue may be read: its partition runs, and the queue is mapped, enabled and not empty. -/
def State.launchable (s : State) (vf queue : Nat) : Prop :=
  s.mayStart (s.vf vf).partition = true ∧ s.mapped vf queue = true ∧ (s.qdesc vf queue).empty = false ∧
    (s.qdesc vf queue).en = true ∧ (s.qdesc vf queue).draw = false

theorem exec_cardLaunch_unready (hq : ¬s.launchable vf queue) : exec (.cardLaunch vf queue) s = .next s := by
  have hstop : (!s.mayStart (s.vf vf).partition || !s.mapped vf queue || (s.qdesc vf queue).empty ||
      !(s.qdesc vf queue).en || (s.qdesc vf queue).draw) = true := by
    simp only [State.launchable] at hq
    grind
  change execCardLaunch vf queue s = _
  simp only [execCardLaunch, hstop, if_true]

/-- What a launch does, once its queue is ready. -/
theorem exec_cardLaunch_ready (hq : s.launchable vf queue) :
    exec (.cardLaunch vf queue) s =
      let q := s.qdesc vf queue
      let x := s.queueCtx vf q
      let go := fun (t : State) (d : Nat) (reject : Option (Nat × Nat × Nat)) =>
        Host.Outcome.next ((((t.startJob vf (some queue) (w32 q.head) (w64 (q.cardAt q.head)) (Card.decode d) x.asd
          reject).putHead vf queue ((q.head + 1) % 2 ^ 32)).releaseSlot vf queue).settle)
      match s.readCard x (q.cardAt q.head) with
      | .error e => go (s.markLeaves x.part e.marks) 0 (some (e.code, e.sub, e.addr))
      | .ok (d, t) =>
        if !t.waitDone vf (Card.decode d).wait then .next t
        else go t d (if cardOk d (s.vf vf).ccount then none else some (Code.illegal, 0, q.cardAt q.head)) := by
  obtain ⟨hstart, hmap, hempty, hen, hdraw⟩ := hq
  change execCardLaunch vf queue s = _
  simp only [execCardLaunch, hstart, hmap, hempty, hen, hdraw, Bool.not_true, Bool.or_self, Bool.false_eq_true, if_false]
    <;> rfl

end CardLaunch

/-- An early successor whose card is read and whose wait is over launches. -/
theorem exec_earlyLaunch_read {job : Nat} {s t : State} {j : Job} {d : Nat}
    (hj : (s.jobs.find? fun j => j.id = job) = some j) (he : j.earlyDone = false) (hd : j.draw = none)
    (hrun : (s.part j.part).run = true) (htrig : s.allTrig j = true)
    (hread : s.readCard { part := j.part, cluster := 0, core := none, asd := j.asd, sys := false } j.card.early.toNat =
      .ok (d, t)) (hw : t.waitDone j.vf (Card.decode d).wait = true) :
    exec (.earlyLaunch job) s =
      let u := (t.startJob j.vf none 0 j.card.early (Card.decode d) j.asd
        (if cardOk d (t.vf j.vf).ccount then none else some (Code.illegal, 0, j.card.early.toNat))).modJob job
          fun j => { j with earlyDone := true }
      .next { u with jobs := u.jobs.filter fun j => !(j.id = job && j.completed) } := by
  change execEarlyLaunch job s = _
  simp [execEarlyLaunch, hj, he, hd, hrun, htrig, hread, hw]

/-- A job that is over makes its record, and completes once no record of it is held. -/
theorem exec_jobComplete_over {job : Nat} {s : State} {j : Job}
    (hj : (s.jobs.find? fun j => j.id = job) = some j) (hc : j.completed = false) (hd : j.draw = none)
    (ho : s.jobOver j = true) :
    exec (.jobComplete job) s =
      let t := if j.recorded then s else s.recordJob j
      if t.recordHeld job then .next t else .next (t.finishJob j) := by
  change execJobComplete job s = _
  simp [execJobComplete, hj, hc, hd, ho]

/-- Settles O37, by the branches of the launch of a card, of an early successor and of the end of a job. -/
theorem launchEvents : Obligations.LaunchEvents := by
  unfold Obligations.LaunchEvents
  refine ⟨fun vf queue s => ⟨fun hq => exec_cardLaunch_unready hq, fun e hq hread => ?_,
    fun h ha hh => State.readCard_held ha hh, fun d t hq hread => ⟨fun hw => ?_, fun hw => ?_⟩⟩,
    fun job s t j d hj he hd hrun htrig hread hw => exec_earlyLaunch_read hj he hd hrun htrig hread hw,
    fun job s j hj hc hd ho => ⟨fun hheld => ?_, fun hheld => ?_⟩⟩
  · rw [exec_cardLaunch_ready hq]
    simp only [hread]
  · rw [exec_cardLaunch_ready hq]
    simp [hread, hw]
  · rw [exec_cardLaunch_ready hq]
    simp [hread, hw]
  · rw [exec_jobComplete_over hj hc hd ho]
    simp [hheld]
  · rw [exec_jobComplete_over hj hc hd ho]
    simp [hheld]

end Sys2Proof.Machine

/-! Draws from launch to completion, and the blending of a fragment (O39). -/
namespace Sys2Proof.Machine
open Sys2Proof Sys2Proof.Tests

/-- A write of bytes without poison to an address that is reached puts them there. -/
theorem State.xput_clean_held {s : State} {c : Xctx} {va h : Nat} (hh : HeldAs s c va .write h) (bs : List Byte) :
    s.xput c va bs false = .ok (rangeSig h bs.length, s.writePhys c.part h bs) := by
  obtain ⟨x, hx, rfl⟩ := hh.translate
  simp [State.xput, hx, bind, Except.bind, pure, Except.pure]

/-- A range within one line that is not poisoned reads without poison. -/
theorem State.xreadN_clean_held {s : State} {c : Xctx} {va h n : Nat} (hh : HeldAs s c va .read h) (hn : n ≠ 0)
    (hline : va % 128 + n ≤ 128) (hp : s.linePoisoned c.part (h / 128 * 128) = false) :
    s.xreadN c va n = .ok (s.readPhys c.part h n, false, s) := by
  have hone : (va % 128 + n + 127) / 128 = 1 := by omega
  rw [State.xreadN_held hh hn (by omega), hone]
  simp [hp]

/-! ### Launch -/

section DrawLaunch
variable {vf queue : Nat} {s : State}

/-- The head card of a queue of draws may be read: as a job's, and the front end has fetched the vertices of the queue's
earlier draws. -/
def State.drawLaunchable (s : State) (vf queue : Nat) : Prop :=
  s.mayStart (s.vf vf).partition = true ∧ s.mapped vf queue = true ∧ (s.qdesc vf queue).empty = false ∧
    (s.qdesc vf queue).en = true ∧ (s.qdesc vf queue).draw = true ∧
    ∀ d ∈ s.draws, d.vf = vf → d.queue = queue → s.verticesFetched d = true

/-- No draw of a queue still fetches its vertices. -/
theorem State.draws_fetched_iff : (s.draws.any fun d => d.vf = vf && d.queue = queue && !s.verticesFetched d) = false ↔
    ∀ d ∈ s.draws, d.vf = vf → d.queue = queue → s.verticesFetched d = true := by
  simp

theorem exec_drawLaunch_unready (hq : ¬s.drawLaunchable vf queue) : exec (.drawLaunch vf queue) s = .next s := by
  have hstop : (!s.mayStart (s.vf vf).partition || !s.mapped vf queue || (s.qdesc vf queue).empty ||
      !(s.qdesc vf queue).en || !(s.qdesc vf queue).draw ||
      s.draws.any fun d => d.vf = vf && d.queue = queue && !s.verticesFetched d) = true := by
    rw [State.drawLaunchable, ← State.draws_fetched_iff] at hq
    grind
  change execDrawLaunch vf queue s = _
  simp only [execDrawLaunch, hstop, if_true]

/-- The state after a draw is launched, or rejected, from the head card of its queue. -/
def State.drawLaunched (s t : State) (vf queue d : Nat) (stages : Nat × Nat) (verts : List Word)
    (reject : Option (Nat × Nat × Nat)) : State :=
  let q := s.qdesc vf queue
  (((t.startDraw vf queue q.head (q.cardAt q.head) d (s.queueCtx vf q).asd stages verts reject).putHead vf queue
    ((q.head + 1) % 2 ^ 32)).releaseSlot vf queue).settle

/-- What a launch does with the card of a queue that is ready. -/
theorem exec_drawLaunch_ready (hq : s.drawLaunchable vf queue) :
    exec (.drawLaunch vf queue) s =
      let q := s.qdesc vf queue
      let x := s.queueCtx vf q
      let a := q.cardAt q.head
      let go := fun (t : State) (d : Nat) stages verts reject =>
        Host.Outcome.next (s.drawLaunched t vf queue d stages verts reject)
      let stop := fun (t : State) (d : Nat) (e : XErr) => go (t.markLeaves x.part e.marks) d (0, 0) [] (some (e.code, e.sub, a))
      match s.readCard x a with
      | .error e => stop s 0 e
      | .ok (d, t) =>
        let c := DrawCard.decode d
        let bad := go t d (0, 0) [] (some (Code.illegal, 0, a))
        if !t.waitDone vf c.wait then .next t
        else if !drawCardOk d (s.vf vf).ccount then bad
        else
          match t.readCard x c.vstage with
          | .error e => stop t d e
          | .ok (v, t) =>
            match t.readCard x c.pstage with
            | .error e => stop t d e
            | .ok (p, u) =>
              if !stageOk v c true || !stageOk p c false then bad
              else
                match u.vertexIndices x c with
                | .error e => stop u d e
                | .ok (vs, u) => go u d (v, p) vs none := by
  obtain ⟨hstart, hmap, hempty, hen, hdraw, hdraws⟩ := hq
  change execDrawLaunch vf queue s = _
  simp only [execDrawLaunch, hstart, hmap, hempty, hen, hdraw, State.draws_fetched_iff.2 hdraws, Bool.not_true, Bool.or_self,
    Bool.false_eq_true, if_false]
  rfl

/-- The launch of a queue of draws, as R296 and R297 tell it: its clauses of O39. -/
theorem drawLaunch_clauses (vf queue : Nat) (s : State) :
    let q := s.qdesc vf queue
    let x := s.queueCtx vf q
    let a := q.cardAt q.head
    (¬s.drawLaunchable vf queue → exec (.drawLaunch vf queue) s = .next s) ∧
    (∀ e, s.drawLaunchable vf queue → s.readCard x a = .error e → exec (.drawLaunch vf queue) s =
      .next (s.drawLaunched (s.markLeaves x.part e.marks) vf queue 0 (0, 0) [] (some (e.code, e.sub, a)))) ∧
    (∀ d t, s.drawLaunchable vf queue → s.readCard x a = .ok (d, t) → t.waitDone vf (DrawCard.decode d).wait = true →
      drawCardOk d (s.vf vf).ccount = false → exec (.drawLaunch vf queue) s =
        .next (s.drawLaunched t vf queue d (0, 0) [] (some (Code.illegal, 0, a)))) ∧
    (∀ d t v t1 p t2 vs t3, s.drawLaunchable vf queue → s.readCard x a = .ok (d, t) →
      t.waitDone vf (DrawCard.decode d).wait = true → drawCardOk d (s.vf vf).ccount = true →
      t.readCard x (DrawCard.decode d).vstage = .ok (v, t1) → t1.readCard x (DrawCard.decode d).pstage = .ok (p, t2) →
      stageOk v (DrawCard.decode d) true = true → stageOk p (DrawCard.decode d) false = true →
      t2.vertexIndices x (DrawCard.decode d) = .ok (vs, t3) →
      exec (.drawLaunch vf queue) s = .next (s.drawLaunched t3 vf queue d (v, p) vs none)) := by
  dsimp only
  refine ⟨exec_drawLaunch_unready, fun e hq hread => ?_, fun d t hq hread hw hbad => ?_,
    fun d t v t1 p t2 vs t3 hq hread hw hok hv hp hsv hsp hvs => ?_⟩
  · rw [exec_drawLaunch_ready hq]
    simp only [hread]
  · rw [exec_drawLaunch_ready hq]
    simp [hread, hw, hbad]
  · rw [exec_drawLaunch_ready hq]
    simp [hread, hw, hok, hv, hp, hsv, hsp, hvs]

end DrawLaunch

/-! ### Rasterisation -/

/-- The next primitive of a draw that tests depth late becomes pixel teams of every pixel it covers, with the waves and the attributes of
that draw. -/
theorem exec_rasterise_late {draw : Nat} {s : State} {d : Draw} {v0 v1 v2 : VertexOut} (hd : s.draw? draw = some d)
    (hrej : d.rejected = false) (hnext : d.nextPrim < d.desc.primCount)
    (hbefore : ∀ e ∈ s.earlierDraws d, e.rejected = true ∨ e.desc.primCount ≤ e.nextPrim) (hlate : d.early = false)
    (hv : (d.desc.primitive d.nextPrim).map d.vertex? = [some v0, some v1, some v2]) :
    let free := fun (k : Nat) => s.openWord 5 k
    let clip := fun (i : Fin 3) (v : VertexOut) => clipVertex (fun k => free (2 ^ 36 + 4 * i.val + k)) i v.pos
    let cs := coverage d.desc [clip 0 v0, clip 1 v1, clip 2 v2]
    let quads := (quadsOf cs).map
      (quadSeeds draw d.nextPrim d.desc cs (fun x y => (cs.map fun p => (p.1, p.2.1)).contains (x, y)) free)
    exec (.rasterise draw) s = .next (s.modDraw draw fun e =>
      { e with
        nextPrim := e.nextPrim + 1,
        formed := e.formed ++ formTeams (s.job d.pjob).card.waves quads (attrBlocks v0 v1 v2 d.desc.apairs),
        pending := e.pending ++ quads.flatten.filterMap fun x =>
          match x with | some x => if x.covered then some x.frag else none | none => none }) := by
  dsimp only
  have hstop : (d.rejected || d.nextPrim ≥ d.desc.primCount ||
      (s.earlierDraws d).any fun e => !e.rejected && e.nextPrim < e.desc.primCount) = false := by
    simpa [hrej, hnext, ← Bool.not_eq_true, ← or_iff_not_imp_left] using hbefore
  change execRasterise draw s = _
  simp only [execRasterise, hd, hstop, hv, hlate, Bool.false_and, Bool.false_eq_true, if_false]
    <;> generalize coverage d.desc _ = cs <;> rfl

/-! ### Blending -/

/-- A colour with room in its target: its format has pixels of 4 or 8 bytes. -/
theorem Target.bytes_of_holds {t : Target} {x y : Nat} (h : t.holds false x y = true) : t.bytes = 4 ∨ t.bytes = 8 := by
  have hf : t.fmt ≤ 2 := by
    simp [Target.holds, Target.present] at h
    omega
  obtain ⟨fmt, w, ht, base⟩ := t
  interval_cases fmt <;> simp [Target.bytes, texelBytes]

/-- A target's descriptor that is reached reads as the bytes there (R298). -/
theorem State.target_held {s : State} {d : Draw} {k h : Nat} (ha : (d.desc.targets + 16 * k) % 16 = 0)
    (hh : HeldAs s d.ctx (d.desc.targets + 16 * k) .read h) :
    let n := natLE (s.readPhys d.part h 16)
    s.target d k = .ok ({ fmt := fld n 103 100, w := fld n 79 64 + 1, h := fld n 95 80 + 1, base := fld n 63 0 }, s) := by
  simp only [State.target, State.xreadNat_held hh (by decide : 16 ≠ 0) (by omega)]
  rfl

/-- The one colour of a fragment is blended into a target that holds its pixel. -/
theorem State.blendTargets_held {s : State} {d : Draw} {x y : Nat} {e : Export} {t : Target} {hr hw : Nat} (htgt : e.tgt < 8)
    (ht : s.target d e.tgt = .ok (t, s)) (hholds : t.holds false x y = true) (halign : t.addr x y % t.bytes = 0)
    (hread : HeldAs s d.ctx (t.addr x y) .read hr) (hwrite : HeldAs s d.ctx (t.addr x y) .write hw)
    (hclean : s.linePoisoned d.part (hr / 128 * 128) = false) :
    s.blendTargets d x y [e] = .ok (s.writePhys d.part hw
      (blendPixel (fld d.desc.pstate (9 + 2 * e.tgt) (8 + 2 * e.tgt)) t.fmt e.a (natLE (s.readPhys d.part hr t.bytes))
        (s.openWord 6 e.tgt))) := by
  have hline : t.addr x y % 128 + t.bytes ≤ 128 := by
    obtain hb | hb := Target.bytes_of_holds hholds <;> rw [hb] at halign ⊢ <;> omega
  have hpos : t.bytes ≠ 0 := by
    obtain hb | hb := Target.bytes_of_holds hholds <;> omega
  have hstay : (decide (e.tgt ≥ 8) || !t.holds false x y) = false := by simp [hholds, htgt]
  simp only [State.blendTargets, ht, bind, Except.bind, State.xreadN_clean_held hread hpos hline hclean, Bool.false_and,
    State.xput_clean_held hwrite, hstay]
  rfl

/-- A fragment that blends leaves its pixel's blended bytes, and the draw no longer waits for it. -/
theorem exec_fragmentBlend_blends {draw : Nat} {s t : State} {d : Draw} {f : Fragment} (hd : s.draw? draw = some d)
    (hf : s.nextFragment d = some f) (hb : s.blend d f = .ok t) :
    exec (.fragmentBlend draw) s = .next (t.modDraw draw fun d =>
      { d with pending := d.pending.erase f.frag, ready := d.ready.erase f }) := by
  change execFragmentBlend draw s = _
  simp only [execFragmentBlend, hd, hf, hb]

theorem fragmentEnds : FragmentEnds .fragmentBlend := by
  intro draw s d f e h hr hw hd hf hdrop hearly hexp htgt at_ halign hh n t va hholds hva hread hwrite hclean new
  refine exec_fragmentBlend_blends hd hf ?_
  have hblend : s.blend d f = s.blendTargets d f.frag.x f.frag.y [e] := by
    simp [State.blend, hdrop, hearly, hexp]
  rw [hblend]
  exact State.blendTargets_held htgt (State.target_held halign hh) hholds hva hread hwrite hclean

/-! ### Completion -/

/-- A draw that is over makes its record, and completes once no record of it is held. -/
theorem exec_drawComplete_over {draw : Nat} {s : State} {d : Draw} (hd : s.draw? draw = some d) (ho : s.drawOver d = true) :
    exec (.drawComplete draw) s =
      let t := if d.recorded then s else s.recordDraw d
      if t.recordHeld draw then .next t else .next (t.finishDraw d) := by
  change execDrawComplete draw s = _
  simp [execDrawComplete, hd, ho]

/-! ### Two draws of one name

The clause of O39 about `rasterise` gives every draw of that name the teams of its own card and job, while the model gives
all of them those of the first such draw. -/

/-- A draw of one triangle that covers the one pixel of its viewport. -/
def pixelDraw : Draw :=
  { tDraw with
    vout := [(0, 0xBF800000, 0xBF800000), (1, 0x40400000, 0xBF800000), (2, 0xBF800000, 0x40400000)].map fun v =>
      { pair := v.1, pos := #v[v.2.1, v.2.2, 0, 0x3F800000], attrs := Vector.replicate 4 #v[0, 0] } }

/-- The same draw, but with a pair of attributes. -/
def twinDraw : Draw := { pixelDraw with card := pixelDraw.card ||| BitVec.ofNat 1024 (2 ^ 136) }

/-- A state that holds both under one name. -/
def twinState : State := { drawState pixelDraw with draws := [pixelDraw, twinDraw] }

/-- Attribute bytes of the pixel teams of each draw. -/
def attrBytes : Host.Outcome State Fault Refusal → List Nat
  | .next t => t.draws.map fun d => (d.formed.map fun p => p.attrs.length).sum
  | _ => []

/-- The model gives the second draw the first one's attributes: none. -/
theorem attrBytes_rasterise_twins : attrBytes (exec (.rasterise 9) twinState) = [0, 0] := by
  decide +kernel

/-- Refutes O39: where two draws have one name, rasterising gives the second the first one's attributes, not its own. -/
theorem not_renderEvents : ¬ Obligations.RenderEvents := by
  unfold Obligations.RenderEvents
  rintro ⟨-, hraster, -⟩
  have htwins := hraster 9 twinState pixelDraw pixelDraw.vout[0] pixelDraw.vout[1] pixelDraw.vout[2] (by decide +kernel)
    rfl (by decide +kernel) (by decide +kernel) (by decide +kernel) (by decide +kernel)
  have hbytes := attrBytes_rasterise_twins
  rw [htwins] at hbytes
  revert hbytes
  decide +kernel

end Sys2Proof.Machine

/-! ENQ by a command whose virtual function is not its job's (O35). -/
namespace Sys2Proof.Machine
open Sys2Proof Sys2Proof.Tests

/-! ### The virtual function of an ENQ

The clause of O35 about ENQ takes the queue of the function of the command's job, while the model takes that of the function
kept with the command, which no hypothesis ties to the job's. -/

/-- An ENQ of one card, kept for virtual function 1; its job is one of function 0. -/
def strayEnq : Cmd := { tCmd (.enq [(0, 0, here)] .push) with mem0 := enqState.mem, vf := 1 }

/-- The state of the architect's witness, in which queue 0 of function 0 has room, with that command in it. -/
def strayState : State := { enqState with cmds := [strayEnq] }

/-- TAIL of the one queue of function 0, after an outcome. -/
def tailOf : Host.Outcome State Fault Refusal → Option Nat
  | .next t => some (t.qdesc 0 0).tail
  | _ => none

theorem strayState_paged : Paged strayState := ⟨rfl, rfl, by decide +kernel⟩

/-- Function 1 has no queue, so the model stores no card. -/
theorem tailOf_enqComplete_stray : tailOf (exec (.enqComplete 0) strayState) = some 0 := by
  decide +kernel

/-- Refutes O35: of an ENQ that is not kept for its job's function, the model does not put the card into the queue of the
job's function. -/
theorem not_engineCompletions : ¬ Obligations.EngineCompletions := by
  unfold Obligations.EngineCompletions
  rintro ⟨-, -, -, -, -, -, -, henq⟩
  have hstored := henq 0 strayState strayEnq .push 0 0 here 0x1000 0x1000 (by decide +kernel) rfl rfl (by decide +kernel)
    (by decide +kernel) (by decide +kernel) (by decide +kernel)
    (paged_held strayState_paged (by unfold Near; decide +kernel) _ here_in).1
    (by decide +kernel) (by decide +kernel) (by decide +kernel) (by decide +kernel)
    (by
      rw [show QDesc.cardAt _ _ = 0x201000 by decide +kernel]
      exact (paged_held strayState_paged (by unfold Near; decide +kernel) _ (by omega)).1)
  have htail := tailOf_enqComplete_stray
  rw [hstored] at htail
  revert htail
  decide +kernel

end Sys2Proof.Machine

namespace Sys2Proof.Machine
open Sys2Proof

/-! ## What lasts: facts about the boot, the jobs, the teams and the runs that the device's operations keep -/

/-- A fact about the boot, the restriction of the test port, and the jobs, teams and runs there are, which is kept when
jobs, teams and runs are changed or leave. -/
structure Lasting where
  holds : Boot → Bool → List Job → List Team → List Run → Prop
  mapJobs : ∀ {b p j t r} (f : Job → Job), holds b p j t r → holds b p (j.map f) t r
  filterJobs : ∀ {b p j t r} (f : Job → Bool), holds b p j t r → holds b p (j.filter f) t r
  mapTeams : ∀ {b p j t r} (f : Team → Team), holds b p j t r → holds b p j (t.map f) r
  filterTeams : ∀ {b p j t r} (f : Team → Bool), holds b p j t r → holds b p j (t.filter f) r
  mapRuns : ∀ {b p j t r} (f : Run → Run), holds b p j t r → holds b p j t (r.map f)
  filterRuns : ∀ {b p j t r} (f : Run → Bool), holds b p j t r → holds b p j t (r.filter f)

/-- A fact that is kept also when jobs, teams and runs are added: one about the boot alone. -/
def Lasting.Grows (L : Lasting) : Prop :=
  ∀ {b p j t r} (j' : List Job) (t' : List Team) (r' : List Run), L.holds b p j t r → L.holds b p j' t' r'

/-! ### The fact, of states and of what computations give -/

/-- The fact holds of a state. -/
def State.Has (L : Lasting) (x : State) : Prop := L.holds x.boot x.restricted x.jobs x.teams x.runs

/-- What a computation gives where it succeeds, and where it fails. -/
def GivesOr {ε α : Type} (P : α → Prop) (Q : ε → Prop) : Except ε α → Prop
  | .ok v => P v
  | .error e => Q e

/-- What a computation gives where it succeeds. -/
abbrev Gives {ε α : Type} (P : α → Prop) (m : Except ε α) : Prop := GivesOr P (fun _ => True) m

/-- What a value is where there is one. -/
def May {α : Type} (P : α → Prop) : Option α → Prop
  | some v => P v
  | none => True

theorem May.some {α : Type} {P : α → Prop} {m : Option α} {v : α} (h : May P m) (e : m = .some v) : P v := by
  subst e
  exact h

theorem May.getD {α : Type} {P : α → Prop} {m : Option α} {v : α} (h : May P m) (g : P v) : P (m.getD v) := by
  cases m with
  | none => exact g
  | some w => exact h

section
variable {ε ε' α β : Type} {P : α → Prop} {P' : β → Prop} {Q : ε → Prop} {Q' : ε' → Prop} {m : Except ε α}

theorem GivesOr.ok {v : α} (h : GivesOr P Q m) (e : m = .ok v) : P v := by
  subst e
  exact h

theorem GivesOr.error {v : ε} (h : GivesOr P Q m) (e : m = .error v) : Q v := by
  subst e
  exact h

theorem GivesOr.bind {f : α → Except ε β} (h : GivesOr P Q m) (hf : ∀ v, P v → GivesOr P' Q (f v)) :
    GivesOr P' Q (m >>= f) := by
  cases m with
  | error e => exact h
  | ok v => exact hf v h

theorem GivesOr.any_mapError {f : ε' → ε} {m : Except ε' α} (hf : ∀ e, Q (f e)) :
    GivesOr (fun _ => True) Q (m.mapError f) := by
  cases m with
  | error e => exact hf e
  | ok v => trivial

theorem GivesOr.foldlM {f : α → β → Except ε α} {xs : List β} {a : α} (hf : ∀ a b, P a → GivesOr P Q (f a b))
    (h : P a) : GivesOr P Q (xs.foldlM f a) := by
  induction xs generalizing a with
  | nil => exact h
  | cons b xs ih => exact (hf a b h).bind fun _ hv => ih hv

theorem GivesOr.map {f : α → β} (h : GivesOr P Q m) (hf : ∀ v, P v → P' (f v)) : GivesOr P' Q (m.map f) := by
  cases m with
  | error e => exact h
  | ok v => exact hf v h

theorem GivesOr.mapErrorOr {f : ε → ε'} (h : GivesOr P Q m) (hf : ∀ e, Q e → Q' (f e)) :
    GivesOr P Q' (m.mapError f) := by
  cases m with
  | error e => exact hf e h
  | ok v => exact h

theorem GivesOr.mapError {f : ε → ε'} (h : Gives P m) : Gives P (m.mapError f) := h.mapErrorOr fun _ _ => trivial

theorem Gives.bind_any {f : α → Except ε β} (hf : ∀ v, Gives P' (f v)) : Gives P' (m >>= f) := by
  cases m with
  | error e => trivial
  | ok v => exact hf v

end

/-- What is left to do at commit keeps the fact. -/
def Effect.Has (L : Lasting) : Effect → Prop
  | .goOn => True
  | .own f => ∀ s r, State.Has L s → (f s r).Has L
  | .leave f => ∀ s r, State.Has L s → (f s r).Has L

def Body.Has (L : Lasting) : Body → Prop
  | .fault s _ => s.Has L
  | .wait s => s.Has L
  | .waitWith s _ => s.Has L
  | .gone s => s.Has L
  | .done s _ e => s.Has L ∧ e.Has L

def Fetched.Has (L : Lasting) : Fetched → Prop
  | .got _ s => s.Has L
  | .stop _ => True
  | .later => True

def Worked.Has (L : Lasting) : Worked → Prop
  | .ok s => s.Has L
  | .stop _ => True
  | .partly s _ => s.Has L
  | .later => True

def Element.Has (L : Lasting) : Element → Prop
  | .ok s => s.Has L
  | .park _ => True
  | .later => True

def Trace.Has (L : Lasting) : Trace → Prop
  | .hits _ _ s => s.Has L
  | .bad s => s.Has L
  | .stop _ => True
  | .later => True

def Moved.Has (L : Lasting) : Moved → Prop
  | .all _ _ s => s.Has L
  | .stop _ _ _ s => s.Has L
  | .later => True

def Start.Has (L : Lasting) : Start → Prop
  | .ended s => s.Has L
  | .first _ s => s.Has L

def StrRes.Has (L : Lasting) : StrRes → Prop
  | .next s => s.Has L
  | .jump s _ => s.Has L
  | .stay s => s.Has L
  | .fault s _ _ => s.Has L
  | .park s _ => s.Has L

def CopyEnd.Has (L : Lasting) : CopyEnd → Prop
  | .complete _ _ s => s.Has L
  | .stuck _ _ _ s => s.Has L
  | .later => True

def BindCheck.Has (L : Lasting) : BindCheck → Prop
  | .good _ _ s => s.Has L
  | .bad _ _ _ s => s.Has L
  | .later => True

/-- Every next state has the fact. -/
def Leaves (L : Lasting) : Host.Outcome State Fault Refusal → Prop
  | .next s => s.Has L
  | .fault _ => True
  | .refused _ => True

section
variable {L : Lasting} {s : State}

theorem Body.Has.fault {b : Body} {e} (h : b.Has L) (hb : b = .fault s e) : s.Has L := by
  subst hb
  exact h

theorem Body.Has.wait {b : Body} (h : b.Has L) (hb : b = .wait s) : s.Has L := by
  subst hb
  exact h

theorem Body.Has.waitWith {b : Body} {r} (h : b.Has L) (hb : b = .waitWith s r) : s.Has L := by
  subst hb
  exact h

theorem Body.Has.gone {b : Body} (h : b.Has L) (hb : b = .gone s) : s.Has L := by
  subst hb
  exact h

theorem Body.Has.done {b : Body} {r e} (h : b.Has L) (hb : b = .done s r e) : s.Has L ∧ e.Has L := by
  subst hb
  exact h

theorem Fetched.Has.got {f : Fetched} {bs} (h : f.Has L) (e : f = .got bs s) : s.Has L := by
  subst e
  exact h

theorem Fetched.Has.bind {f : Fetched} {k : List (Byte × Bool) → State → Worked} (h : f.Has L)
    (hk : ∀ bs s, State.Has L s → (k bs s).Has L) : (f.bind k).Has L := by
  cases f with
  | got bs s =>
    have hw := hk bs s h
    show Worked.Has L (match k bs s with | .stop e => .partly s e | w => w)
    cases hr : k bs s with
    | stop e => exact h
    | ok s' => simpa only [hr] using hw
    | partly s' e => simpa only [hr] using hw
    | later => trivial
  | stop e => trivial
  | later => trivial

theorem Worked.Has.partly {w : Worked} {x} (h : w.Has L) (e : w = .partly s x) : s.Has L := by
  subst e
  exact h

theorem Element.Has.ok {w : Element} (h : w.Has L) (e : w = .ok s) : s.Has L := by
  subst e
  exact h

theorem Element.Has.after {w : Element} {ms} (h : w.Has L) : (w.after ms).Has L := by
  cases w with
  | ok s => exact h
  | park e => trivial
  | later => trivial

theorem Trace.Has.hits {w : Trace} {hs p} (h : w.Has L) (e : w = .hits hs p s) : s.Has L := by
  subst e
  exact h

theorem Trace.Has.bad {w : Trace} (h : w.Has L) (e : w = .bad s) : s.Has L := by
  subst e
  exact h

theorem Moved.Has.all {w : Moved} {bs p} (h : w.Has L) (e : w = .all bs p s) : s.Has L := by
  subst e
  exact h

theorem Moved.Has.stop {w : Moved} {x a bs} (h : w.Has L) (e : w = .stop x a bs s) : s.Has L := by
  subst e
  exact h

theorem Moved.Has.cons {w : Moved} {bs p} (h : w.Has L) : (w.cons bs p).Has L := by
  cases w with
  | all => exact h
  | stop => exact h
  | later => trivial

theorem CopyEnd.Has.complete {w : CopyEnd} {v g} (h : w.Has L) (e : w = .complete v g s) : s.Has L := by
  subst e
  exact h

theorem CopyEnd.Has.stuck {w : CopyEnd} {x i bs} (h : w.Has L) (e : w = .stuck x i bs s) : s.Has L := by
  subst e
  exact h

end

/-! ### The fact, kept by the operations of the device, in the order of the model's definitions -/

namespace State.Has

variable {L : Lasting} {x y : State}

section
variable {α β γ : Type}

theorem of_fst {p : State × β} {b : β} (h : p.1.Has L) (e : p = (y, b)) : y.Has L := by
  subst e
  exact h

theorem of_snd {p : α × State} {a : α} (h : p.2.Has L) (e : p = (a, y)) : y.Has L := by
  subst e
  exact h

theorem of_snd_snd {p : α × β × State} {a : α} {b : β} (h : p.2.2.Has L) (e : p = (a, b, y)) : y.Has L := by
  subst e
  exact h

theorem of_snd_snd_snd {p : α × β × γ × State} {a : α} {b : β} {c : γ} (h : p.2.2.2.Has L) (e : p = (a, b, c, y)) :
    y.Has L := by
  subst e
  exact h

theorem ite {c : Prop} [Decidable c] (h : x.Has L) (g : y.Has L) : (if c then x else y).Has L := by
  split
  · exact h
  · exact g

theorem ite_snd {c : Prop} [Decidable c] {p q : α × State} (h : p.2.Has L) (g : q.2.Has L) :
    (if c then p else q).2.Has L := by
  split
  · exact h
  · exact g

theorem foldl {f : State → α → State} {xs : List α} (hf : ∀ x a, State.Has L x → (f x a).Has L) (h : x.Has L) :
    (xs.foldl f x).Has L := by
  induction xs generalizing x with
  | nil => exact h
  | cons a xs ih => exact ih (hf _ _ h)

theorem foldl_snd {f : β × State → α → β × State} {xs : List α} {p : β × State}
    (hf : ∀ p a, State.Has L p.2 → (f p a).2.Has L) (h : p.2.Has L) : (xs.foldl f p).2.Has L := by
  induction xs generalizing p with
  | nil => exact h
  | cons a xs ih => exact ih (hf _ _ h)

end

theorem mapJobs {f : Job → Job} (h : x.Has L) : ({ x with jobs := x.jobs.map f } : State).Has L := L.mapJobs f h
theorem filterJobs {f : Job → Bool} (h : x.Has L) : ({ x with jobs := x.jobs.filter f } : State).Has L := L.filterJobs f h
theorem mapTeams {f : Team → Team} (h : x.Has L) : ({ x with teams := x.teams.map f } : State).Has L := L.mapTeams f h
theorem filterTeams {f : Team → Bool} (h : x.Has L) : ({ x with teams := x.teams.filter f } : State).Has L :=
  L.filterTeams f h
theorem mapRuns {f : Run → Run} (h : x.Has L) : ({ x with runs := x.runs.map f } : State).Has L := L.mapRuns f h
theorem filterRuns {f : Run → Bool} (h : x.Has L) : ({ x with runs := x.runs.filter f } : State).Has L := L.filterRuns f h

theorem of_walks (h : x.Has L) (hw : x.Walks y) : y.Has L := by
  obtain ⟨-, _, _, _, _, _, rfl⟩ := hw
  exact h

theorem of_walked {ε α : Type} {m : Except ε (α × State)} (h : x.Has L) (hw : ∀ {a t}, m = .ok (a, t) → x.Walks t) :
    Gives (fun v => v.2.Has L) m := by
  cases m with
  | error e => trivial
  | ok v => exact of_walks h (hw rfl)

theorem of_reports (h : x.Has L) (hr : x.Reports y) : y.Has L := by
  obtain ⟨u, _, _, hw, rfl⟩ := hr
  have hu : u.Has L := of_walks h hw
  exact hu

theorem pass {d} (h : x.Has L) : (x.pass d).Has L := .ite h (.mapTeams h)

theorem passTime (h : x.Has L) : x.passTime.Has L := .pass h

theorem writeMem {w keepSig part hpa bs} (h : x.Has L) : (x.writeMem w keepSig part hpa bs).Has L := h

theorem writePhys {part hpa bs} (h : x.Has L) : (x.writePhys part hpa bs).Has L := .ite (.writeMem h) h

theorem translate {c va a} (h : x.Has L) : Gives (fun v => v.2.Has L) (x.translate c va a) :=
  of_walked h State.translate_walks

theorem fetchInstr {c va} (h : x.Has L) : Gives (fun v => v.2.Has L) (x.fetchInstr c va) :=
  of_walked h State.fetchInstr_walks

theorem markLeaves {part ms} (h : x.Has L) : (x.markLeaves part ms).Has L :=
  .foldl (fun _ _ h1 => .ite h1 (.writePhys h1)) h

theorem setVf {v r} (h : x.Has L) : (x.setVf v r).Has L := h

theorem irqVf {v src} (h : x.Has L) : (x.irqVf v src).Has L := of_reports h (.irqVf ..)

theorem irq {v src} (h : x.Has L) : (x.irq v src).Has L := of_reports h (.irq ..)

theorem ringWrite {v k record} (h : x.Has L) : May (Has L) (x.ringWrite v k record) := by
  cases hw : x.ringWrite v k record with
  | none => trivial
  | some s => exact of_reports h (.ringWrite hw)

theorem noteStall {v k} (h : x.Has L) : (x.noteStall v k).Has L := of_reports h (.noteStall ..)

theorem report {v k record into} (h : x.Has L) : (x.report v k record into).1.Has L := of_reports h (.report ..)

theorem sampleRecord {v a2 ab st} (h : x.Has L) : (x.sampleRecord v a2 ab st).Has L := .report h

theorem sampleRecords {v xs ab st} (h : x.Has L) : (x.sampleRecords v xs ab st).Has L :=
  .foldl (fun _ _ h1 => .sampleRecord h1) h

theorem dropRuns {p} (h : x.Has L) : (x.dropRuns p).Has L := .foldl (fun _ _ h1 => .sampleRecords h1) (.filterRuns h)

theorem abort {w m} (h : x.Has L) : (x.abort w m).Has L := .dropRuns h

theorem modTeam {t f} (h : x.Has L) : (x.modTeam t f).Has L := .mapTeams h

theorem modWave {w f} (h : x.Has L) : (x.modWave w f).Has L := .modTeam h

theorem modLanes {w m f} (h : x.Has L) : (x.modLanes w m f).Has L := .modWave h

theorem noteResume {w m after blk len} (h : x.Has L) : (x.noteResume w m after blk len).Has L := .modLanes h

theorem newTicket {vf who code sub stop} (h : x.Has L) : (x.newTicket vf who code sub stop).2.Has L := h

theorem fixBlocks {w m} (h : x.Has L) : (x.fixBlocks w m).Has L := .modLanes h

theorem readThreads {w m part named} (h : x.Has L) : (x.readThreads w m part named).Has L := by
  unfold State.readThreads
  extract_lets
  split
  · exact h
  · exact .ite h (.fixBlocks (.modWave (.modLanes h)))

theorem readShadows {t bs was} (h : x.Has L) : (x.readShadows t bs was).Has L :=
  .ite h (.foldl_snd (fun _ _ h1 => h1) (.modTeam h))

theorem readCursors {t bs was} (h : x.Has L) : (x.readCursors t bs was).Has L := .foldl (fun _ _ h1 => .ite h1 h1) h

theorem readTeam {id part named} (h : x.Has L) : (x.readTeam id part named).Has L := by
  unfold State.readTeam
  extract_lets
  split
  · exact h
  · exact .modTeam (.readShadows (.readCursors (.foldl (fun _ _ h2 => .modWave (.readThreads h2)) h)))

theorem saveWrite {part cluster off bs} (h : x.Has L) : (x.saveWrite part cluster off bs).Has L := by
  induction bs generalizing x off with
  | nil => exact h
  | cons b bs ih =>
    unfold State.saveWrite
    split
    · exact ih (.writePhys h)
    · exact ih h

theorem setDir {part cluster i e} (h : x.Has L) : (x.setDir part cluster i e).Has L := .saveWrite h

theorem dropImage {t part} (h : x.Has L) : (x.dropImage t part).Has L := by
  unfold State.dropImage
  split
  · exact .modTeam (.setDir h)
  · exact h

theorem evictImage {t part} (h : x.Has L) : (x.evictImage t part).Has L := .dropImage (.readTeam h)

theorem packImages {part cluster} (h : x.Has L) : (x.packImages part cluster).Has L := by
  rw [State.packImages]
  refine foldl_snd (fun p e h1 => ?_) h
  dsimp only
  exact .setDir (.saveWrite h1)

theorem makeRoom {part cluster n} (h : x.Has L) : (x.makeRoom part cluster n).Has L := by
  unfold State.makeRoom
  extract_lets s
  have hs : s.Has L := .foldl (fun _ _ h1 => .ite h1 (.evictImage h1)) h
  split
  · exact h
  · split
    · exact hs
    · exact .packImages hs

theorem writeImage {t part named stop held} (h : x.Has L) : (x.writeImage t part named stop held).2.Has L := by
  unfold State.writeImage
  extract_lets bs own n s
  have hs : s.Has L := .makeRoom (.dropImage h)
  clear_value s
  cases s.freeEntry part t.cluster with
  | none => exact hs
  | some i =>
    cases s.imageHole part t.cluster n with
    | none => exact hs
    | some off => exact .modTeam (.saveWrite (.setDir hs))

theorem inImage {w m f} (hf : ∀ s, State.Has L s → (f s).Has L) (h : x.Has L) : (x.inImage w m f).Has L := by
  unfold State.inImage
  extract_lets j s
  have hs : s.Has L := hf _ (.ite (.readTeam h) (.readThreads h))
  cases hw : s.writeImage (s.team w.team) j.part j.card.named (s.hasStop w.team)
      fun i l => s.debugHeld w.team i l && !(decide (i = w.wave) && LaneMask.has m l) with | mk off t =>
  have ht : t.Has L := of_snd (.writeImage hs) hw
  cases (x.team w.team).image with
  | none => exact hf _ h
  | some i => exact ht

theorem enterHandler {w m code sub epc} (h : x.Has L) : (x.enterHandler w m code sub epc).Has L :=
  .inImage (fun _ h1 => .modLanes h1) h

theorem leaveDraw {w m exit} (h : x.Has L) : (x.leaveDraw w m exit).Has L := by
  unfold State.leaveDraw
  refine .foldl (fun s l h1 => ?_) h
  extract_lets t
  cases t.frag with
  | none => exact h1
  | some f => exact h1

theorem endThreads {w m how} (h : x.Has L) : (x.endThreads w m how).Has L := .modWave (.modTeam (.leaveDraw h))

theorem modJob {id f} (h : x.Has L) : (x.modJob id f).Has L := .mapJobs h

theorem noteStatus {job code} (h : x.Has L) : (x.noteStatus job code).Has L := by
  unfold State.noteStatus
  extract_lets
  split
  · exact .modJob h
  · exact .modJob h

theorem freeSlots {t} (h : x.Has L) : (x.freeSlots t).Has L := h

theorem abortTeam {t} (h : x.Has L) : (x.abortTeam t).Has L := .dropRuns h

theorem unplace {t p} (h : x.Has L) : (x.unplace t p).Has L := .modTeam (.abortTeam h)

theorem parkCohort {job cohort} (h : x.Has L) : (x.parkCohort job cohort).Has L := .foldl (fun _ _ h1 => .unplace h1) h

theorem parkStranded (h : x.Has L) : x.parkStranded.Has L := .foldl (fun _ _ h1 => .parkCohort h1) h

theorem unbindIdle (h : x.Has L) : x.unbindIdle.Has L := h

theorem settle (h : x.Has L) : x.settle.Has L :=
  .parkStranded (.unbindIdle (.mapTeams (.foldl (fun _ _ h1 => .freeSlots (.modTeam h1)) h)))

theorem terminate {t code} (h : x.Has L) : (x.terminate t code).Has L :=
  .settle (.freeSlots (.noteStatus (.dropImage (.modTeam (.foldl (fun _ _ h1 => .endThreads h1) (.dropRuns h))))))

theorem raise {w m epc after blk e} (h : x.Has L) : (x.raise w m epc after blk e).Has L :=
  .ite (.report (.modLanes (.noteResume (.markLeaves (.abort h))))) (.ite (by
      split
      next e1 =>
        have g1 : State.Has L _ := of_fst (.report (.noteResume (.markLeaves (.abort h)))) e1
        exact .enterHandler g1
      next e1 =>
        have g1 : State.Has L _ := of_fst (.report (.noteResume (.markLeaves (.abort h)))) e1
        exact .modLanes g1) (.terminate (.report (.noteResume (.markLeaves (.abort h))))))

theorem raiseRun {r e} (h : x.Has L) : (x.raiseRun r e).Has L := .raise h

theorem putRun {r} (hg : L.Grows) (h : x.Has L) : (x.putRun r).Has L := hg _ _ _ h

theorem holdStores {r sh i} (h : x.Has L) : (x.holdStores r sh i).Has L := .foldl (fun _ _ h1 => .ite h1 h1) h

theorem acquire {core sig} (h : x.Has L) : (x.acquire core sig).Has L := h

theorem tokenReads {r sh} (h : x.Has L) : (x.tokenReads r sh).Has L := .ite h (.modLanes (.acquire h))

theorem debugStop {w m epc sub enc} (h : x.Has L) : (x.debugStop w m epc sub enc).Has L := by
  unfold State.debugStop
  extract_lets j held s0
  have hs0 : s0.Has L := .abort h
  clear_value s0 held j
  have hwrite : ∀ {y : State} {t p n st held}, y.Has L → (y.writeImage t p n st held).2.Has L := fun g => .writeImage g
  generalize State.writeImage = write at hwrite ⊢
  exact .report (hwrite (.ite (.modTeam (.dropRuns (.modLanes (.newTicket hs0)))) (.modLanes (.newTicket hs0))))

theorem stepStop {r} (h : x.Has L) : (x.stepStop r).Has L := by
  unfold State.stepStop
  extract_lets m at_
  exact .foldl (fun _ _ h1 => .debugStop h1) h

theorem takeSig {w m} (h : x.Has L) : (x.takeSig w m).2.Has L := .modLanes h

theorem putSig {loc sig merge} (h : x.Has L) : (x.putSig loc sig merge).Has L := h

theorem putSigs {loc n sig merge} (h : x.Has L) : (x.putSigs loc n sig merge).Has L :=
  .foldl (fun _ _ h1 => .putSig h1) h

theorem fenceAt {w m} (h : x.Has L) : (x.fenceAt w m).Has L := by
  unfold State.fenceAt
  extract_lets j
  split
  next sig s e1 =>
    have hs : s.Has L := of_snd (.takeSig h) e1
    split
    · exact .acquire hs
    · exact .acquire (.putSigs hs)

theorem fenced {r} (h : x.Has L) : (x.fenced r).Has L := .ite (.fenceAt h) h

theorem checkTarget {w l va} (h : x.Has L) : Gives (fun v => v.Has L) (x.checkTarget w l va) := by
  unfold State.checkTarget
  split
  · exact trivial
  next e1 =>
    have g1 : State.Has L _ := (translate h).ok e1
    split
    · exact g1
    · exact trivial

theorem checkTargets {w ls bad} (h : x.Has L) : Gives (Has L) (x.checkTargets w ls bad) := by
  induction ls generalizing x bad with
  | nil =>
    unfold State.checkTargets
    split
    · trivial
    · exact h
  | cons a ls ih =>
    unfold State.checkTargets
    split
    · exact ih h
    next hcheck => exact ih ((checkTarget h).ok hcheck)

theorem checkFall {r sh} (h : x.Has L) : Gives (fun v => v.Has L) (x.checkFall r sh) := by
  unfold State.checkFall
  extract_lets
  split
  · exact checkTargets h
  · exact h

theorem logPoison {w lane} (h : x.Has L) : (x.logPoison w lane).Has L := .report h

theorem logScrubbed {w lane n} (h : x.Has L) : (x.logScrubbed w lane n).Has L := .foldl (fun _ _ h1 => .logPoison h1) h

theorem releaseWords {r es} (h : x.Has L) : (x.releaseWords r es).Has L := .modLanes (.foldl (fun _ _ h1 => by
      split
      · exact .ite (.putSigs h1) h1
      · exact h1) h)

theorem writeScr {t o bs} (h : x.Has L) : (x.writeScr t o bs).Has L := .modTeam h

theorem touch {c va a} (h : x.Has L) : (x.touch c va a).Has L := of_walks h (State.touch_walks ..)

theorem poisonLine {part hpa} (h : x.Has L) : (x.poisonLine part hpa).Has L := .ite h h

theorem refusalRecord {w lane pc enc hpa} (h : x.Has L) : (x.refusalRecord w lane pc enc hpa).Has L := .report h

theorem applyStore {r e} (h : x.Has L) : (x.applyStore r e).Has L := by
  unfold State.applyStore
  extract_lets core s0 
  split
  · exact .ite (.modTeam (.writeScr h)) (.writeScr h)
  next p hpa _ =>
    extract_lets s s1
    have hs : s.Has L := .modLanes (.touch h)
    clear_value s
    split
    · exact .ite (.poisonLine (.writeMem hs)) (.writeMem hs)
    · exact .ite (.refusalRecord hs) (.ite hs hs)

theorem storeWord {r w e} (h : x.Has L) : (x.storeWord r w e).Has L := by
  unfold State.storeWord
  split
  · exact .ite (.writeMem h) h
  · exact h

theorem applyGroup {r es} (h : x.Has L) : (x.applyGroup r es).Has L :=
  .foldl (fun _ _ h1 => .foldl (fun _ _ h2 => .storeWord h2) h1) (.foldl (fun _ _ h1 => .applyStore h1) (.ite h
    (.releaseWords h)))

theorem applyStores {r} (h : x.Has L) : (x.applyStores r).Has L := .foldl (fun _ _ h1 => .applyGroup h1) h

theorem sampleHit {v} (h : x.Has L) : (x.sampleHit v).2.Has L := by
  unfold State.sampleHit
  extract_lets
  split
  · exact h
  · exact .ite_snd (.setVf h) (.setVf h)

theorem sampled {v xs} (h : x.Has L) : (x.sampled v xs).2.Has L := by
  induction xs generalizing x with
  | nil => exact h
  | cons a xs ih => exact ih (.sampleHit h)

theorem tally {v u event n} (h : x.Has L) : (x.tally v u event n).Has L := .ite h h

theorem tallyHomes {v ls} (h : x.Has L) : (x.tallyHomes v ls).Has L := .foldl (fun _ _ h1 => .tally h1) h

theorem commit {r} (h : x.Has L) : (x.commit r).Has L :=
  .tallyHomes (.sampleRecords (.sampleRecords (.sampled (.applyStores (.foldl (fun _ _ h1 => .logScrubbed h1)
    (.modWave (.modLanes (.filterRuns h))))))))

theorem goOn {w m next} (h : x.Has L) : (x.goOn w m next).Has L := .ite (.modWave h) (.modLanes h)

theorem conclude {tys words r sh r' eff} (hg : L.Grows) (h : y.Has L) (he : eff.Has L) :
    (x.conclude tys words r sh y r' eff).Has L := by
  unfold State.conclude
  extract_lets r'' closed falls
  have hclosed : ∀ t, State.Has L t → (closed t).Has L := fun t h1 => .settle (.stepStop (.fenced h1))
  have hfalls : ∀ f, (∀ t, State.Has L t → (f t).Has L) → (falls f).Has L := by
    intro f hf
    dsimp only [falls]
    split
    · exact .raiseRun h
    next hcheck => exact hclosed _ (hf _ (.commit ((checkFall h).ok hcheck)))
  clear_value closed falls
  split
  · exact .putRun hg h
  · cases eff with
    | goOn => exact hfalls _ fun _ h1 => .goOn h1
    | own f => exact hfalls _ fun _ h1 => he _ _ h1
    | leave f => exact hclosed _ (he _ _ (.commit h))

theorem execute {i tys body} (hg : L.Grows) (hbody : ∀ s r sh, State.Has L s → (body s r sh).Has L) (h : x.Has L) :
    Leaves L (execute x i tys body) := by
  unfold Machine.execute
  split
  · trivial
  · trivial
  next r _ sh _ _ =>
    extract_lets words
    split
    · exact raiseRun h
    · split
      · exact putRun hg h
      · split
        · exact putRun hg (holdStores h)
        · have hb := hbody _ r sh (tokenReads (r := r) (sh := sh) h)
          cases hbody : body (x.tokenReads r sh) r sh with
          | fault s e => exact raiseRun (hb.fault hbody)
          | wait s => exact putRun hg (hb.wait hbody)
          | waitWith s r' => exact putRun hg (hb.waitWith hbody)
          | gone s => exact hb.gone hbody
          | done s r' e => exact conclude hg (hb.done hbody).1 (hb.done hbody).2

end State.Has
end Sys2Proof.Machine

namespace Sys2Proof.Machine
open Sys2Proof
namespace State.Has

variable {L : Lasting} {x y : State}

/-! #### Instructions that compute -/

theorem finishPut {r trap flags put} (h : x.Has L) : (finishPut x r trap flags put).Has L := by
  unfold Machine.finishPut
  extract_lets
  split
  · exact h
  · exact ⟨h, trivial⟩

theorem finishLanes {r sh w trap mask out} (h : x.Has L) : (finishLanes x r sh w trap mask out).Has L := finishPut h

theorem aluBody {tys pw w copies trap f r sh} (h : x.Has L) : (aluBody tys pw w copies trap f x r sh).Has L := by
  unfold Machine.aluBody
  extract_lets
  split
  · exact h
  · exact finishLanes h

theorem aluOp {i t f} (hg : L.Grows) (h : x.Has L) : Leaves L (aluOp i t f x) :=
  execute hg (fun _ _ _ h1 => aluBody h1) h

theorem intOp {i t g} (hg : L.Grows) (h : x.Has L) : Leaves L (intOp i t g x) := aluOp hg h

theorem execIadd {sat t f} (hg : L.Grows) (h : x.Has L) : Leaves L (execIadd sat t f x) := intOp hg h

theorem execIsub {sat t f} (hg : L.Grows) (h : x.Has L) : Leaves L (execIsub sat t f x) := intOp hg h

theorem execImul {t f} (hg : L.Grows) (h : x.Has L) : Leaves L (execImul t f x) := intOp hg h

theorem execImulh {t f} (hg : L.Grows) (h : x.Has L) : Leaves L (execImulh t f x) := intOp hg h

theorem execImad {t f} (hg : L.Grows) (h : x.Has L) : Leaves L (execImad t f x) := intOp hg h

theorem execImin {t f} (hg : L.Grows) (h : x.Has L) : Leaves L (execImin t f x) := intOp hg h

theorem execImax {t f} (hg : L.Grows) (h : x.Has L) : Leaves L (execImax t f x) := intOp hg h

theorem execIabs {w f} (hg : L.Grows) (h : x.Has L) : Leaves L (execIabs w f x) := intOp hg h

theorem execIneg {w f} (hg : L.Grows) (h : x.Has L) : Leaves L (execIneg w f x) := intOp hg h

theorem execIcmp {cc t f} (hg : L.Grows) (h : x.Has L) : Leaves L (execIcmp cc t f x) := intOp hg h

theorem execLea {sg sh f} (hg : L.Grows) (h : x.Has L) : Leaves L (execLea sg sh f x) := intOp hg h

theorem execAnd {t f} (hg : L.Grows) (h : x.Has L) : Leaves L (execAnd t f x) := intOp hg h

theorem execAndn {t f} (hg : L.Grows) (h : x.Has L) : Leaves L (execAndn t f x) := intOp hg h

theorem execOr {t f} (hg : L.Grows) (h : x.Has L) : Leaves L (execOr t f x) := intOp hg h

theorem execXor {t f} (hg : L.Grows) (h : x.Has L) : Leaves L (execXor t f x) := intOp hg h

theorem execNot {t f} (hg : L.Grows) (h : x.Has L) : Leaves L (execNot t f x) := intOp hg h

theorem execShl {t f} (hg : L.Grows) (h : x.Has L) : Leaves L (execShl t f x) := intOp hg h

theorem execShr {t f} (hg : L.Grows) (h : x.Has L) : Leaves L (execShr t f x) := intOp hg h

theorem execSar {t f} (hg : L.Grows) (h : x.Has L) : Leaves L (execSar t f x) := intOp hg h

theorem execRol {t f} (hg : L.Grows) (h : x.Has L) : Leaves L (execRol t f x) := intOp hg h

theorem execPopc {t f} (hg : L.Grows) (h : x.Has L) : Leaves L (execPopc t f x) := intOp hg h

theorem execClz {t f} (hg : L.Grows) (h : x.Has L) : Leaves L (execClz t f x) := intOp hg h

theorem execBrev {t f} (hg : L.Grows) (h : x.Has L) : Leaves L (execBrev t f x) := intOp hg h

theorem execBfe {t f} (hg : L.Grows) (h : x.Has L) : Leaves L (execBfe t f x) := intOp hg h

theorem execBfi {t f} (hg : L.Grows) (h : x.Has L) : Leaves L (execBfi t f x) := intOp hg h

theorem selBody {t r sh} (h : x.Has L) : (selBody t x r sh).Has L := by
  unfold Machine.selBody
  extract_lets
  split
  · exact h
  · exact finishLanes h

theorem execSel {t f} (hg : L.Grows) (h : x.Has L) : Leaves L (execSel t f x) :=
  execute hg (fun _ _ _ h1 => selBody h1) h

theorem fltOp {i t g} (hg : L.Grows) (h : x.Has L) : Leaves L (fltOp i t g x) := aluOp hg h

theorem execFadd {t f} (hg : L.Grows) (h : x.Has L) : Leaves L (execFadd t f x) := fltOp hg h

theorem execFsub {t f} (hg : L.Grows) (h : x.Has L) : Leaves L (execFsub t f x) := fltOp hg h

theorem execFmul {t f} (hg : L.Grows) (h : x.Has L) : Leaves L (execFmul t f x) := fltOp hg h

theorem execFfma {t f} (hg : L.Grows) (h : x.Has L) : Leaves L (execFfma t f x) := fltOp hg h

theorem execFmin {t f} (hg : L.Grows) (h : x.Has L) : Leaves L (execFmin t f x) := fltOp hg h

theorem execFmax {t f} (hg : L.Grows) (h : x.Has L) : Leaves L (execFmax t f x) := fltOp hg h

theorem execFcmp {cc t f} (hg : L.Grows) (h : x.Has L) : Leaves L (execFcmp cc t f x) := fltOp hg h

theorem execFclass {t f} (hg : L.Grows) (h : x.Has L) : Leaves L (execFclass t f x) := aluOp hg h

theorem execFrnd {t f} (hg : L.Grows) (h : x.Has L) : Leaves L (execFrnd t f x) := fltOp hg h

theorem execFrcp {t f} (hg : L.Grows) (h : x.Has L) : Leaves L (execFrcp t f x) := fltOp hg h

theorem execFrsq {t f} (hg : L.Grows) (h : x.Has L) : Leaves L (execFrsq t f x) := fltOp hg h

theorem execFsqrt {t f} (hg : L.Grows) (h : x.Has L) : Leaves L (execFsqrt t f x) := fltOp hg h

theorem execFexp2 {t f} (hg : L.Grows) (h : x.Has L) : Leaves L (execFexp2 t f x) := fltOp hg h

theorem execFlog2 {t f} (hg : L.Grows) (h : x.Has L) : Leaves L (execFlog2 t f x) := fltOp hg h

theorem execFsin {t f} (hg : L.Grows) (h : x.Has L) : Leaves L (execFsin t f x) := fltOp hg h

theorem execFcos {t f} (hg : L.Grows) (h : x.Has L) : Leaves L (execFcos t f x) := fltOp hg h

theorem execFtanh {t f} (hg : L.Grows) (h : x.Has L) : Leaves L (execFtanh t f x) := fltOp hg h

theorem execFsigm {t f} (hg : L.Grows) (h : x.Has L) : Leaves L (execFsigm t f x) := fltOp hg h

theorem redBody {op t m r sh} (h : x.Has L) : (redBody op t m x r sh).Has L := by
  unfold Machine.redBody
  extract_lets
  split
  · exact h
  · exact finishLanes h

theorem execRed {op t f} (hg : L.Grows) (h : x.Has L) : Leaves L (execRed op t f x) :=
  execute hg (fun _ _ _ h1 => redBody h1) h

theorem scanBody {op excl t m r sh} (h : x.Has L) : (scanBody op excl t m x r sh).Has L := by
  unfold Machine.scanBody
  extract_lets
  split
  · exact h
  · exact finishLanes h

theorem execScan {op excl t f} (hg : L.Grows) (h : x.Has L) : Leaves L (execScan op excl t f x) :=
  execute hg (fun _ _ _ h1 => scanBody h1) h

theorem cvtBody {dst src p m r sh} (h : x.Has L) : (cvtBody dst src p m x r sh).Has L := by
  unfold Machine.cvtBody
  extract_lets
  split
  · exact h
  · exact finishPut h

theorem execCvt {dst src p f} (hg : L.Grows) (h : x.Has L) : Leaves L (execCvt dst src p f x) :=
  execute hg (fun _ _ _ h1 => cvtBody h1) h

theorem execAmax {t f} (hg : L.Grows) (h : x.Has L) : Leaves L (execAmax t f x) := aluOp hg h

theorem quantBody {tys trap put flags r sh} (h : x.Has L) : (quantBody tys trap put flags x r sh).Has L := by
  unfold Machine.quantBody
  extract_lets
  split
  · exact h
  · exact finishPut h

theorem qscaleBody {fs r sh} (h : x.Has L) : (qscaleBody fs x r sh).Has L := by
  unfold Machine.qscaleBody
  exact quantBody h

theorem execQscale {fs f} (hg : L.Grows) (h : x.Has L) : Leaves L (execQscale fs f x) :=
  execute hg (fun _ _ _ h1 => qscaleBody h1) h

theorem qpackBody {fs r sh} (h : x.Has L) : (qpackBody fs x r sh).Has L := by
  unfold Machine.qpackBody
  exact quantBody h

theorem execQpack {fs f} (hg : L.Grows) (h : x.Has L) : Leaves L (execQpack fs f x) :=
  execute hg (fun _ _ _ h1 => qpackBody h1) h

theorem qunpackBody {fs r sh} (h : x.Has L) : (qunpackBody fs x r sh).Has L := by
  unfold Machine.qunpackBody
  extract_lets
  split
  · exact h
  · exact finishPut h

theorem execQunpack {fs f} (hg : L.Grows) (h : x.Has L) : Leaves L (execQunpack fs f x) :=
  execute hg (fun _ _ _ h1 => qunpackBody h1) h

theorem bpsplitBody {fs r sh} (h : x.Has L) : (bpsplitBody fs x r sh).Has L := by
  unfold Machine.bpsplitBody
  extract_lets
  split
  · exact h
  · exact finishPut h

theorem execBpsplit {fs f} (hg : L.Grows) (h : x.Has L) : Leaves L (execBpsplit fs f x) :=
  execute hg (fun _ _ _ h1 => bpsplitBody h1) h

theorem bpjoinBody {fs r sh} (h : x.Has L) : (bpjoinBody fs x r sh).Has L := by
  unfold Machine.bpjoinBody
  extract_lets
  split
  · exact h
  · exact finishLanes h

theorem execBpjoin {fs f} (hg : L.Grows) (h : x.Has L) : Leaves L (execBpjoin fs f x) :=
  execute hg (fun _ _ _ h1 => bpjoinBody h1) h

theorem permBody {t r sh} (h : x.Has L) : (permBody t x r sh).Has L := by
  unfold Machine.permBody
  extract_lets
  split
  · exact h
  · exact finishLanes h

theorem execPerm {t f} (hg : L.Grows) (h : x.Has L) : Leaves L (execPerm t f x) :=
  execute hg (fun _ _ _ h1 => permBody h1) h

theorem finishWhole {r sh m v} (h : x.Has L) : (finishWhole x r sh m v).Has L := finishLanes h

theorem voteBody {fn r sh} (h : x.Has L) : (voteBody fn x r sh).Has L := by
  unfold Machine.voteBody
  extract_lets
  split
  · exact h
  · exact finishWhole h

theorem execVote {fn f} (hg : L.Grows) (h : x.Has L) : Leaves L (execVote fn f x) :=
  execute hg (fun _ _ _ h1 => voteBody h1) h

theorem matchBody {t r sh} (h : x.Has L) : (matchBody t x r sh).Has L := by
  unfold Machine.matchBody
  extract_lets
  split
  · exact h
  · exact finishWhole h

theorem execMatch {t f} (hg : L.Grows) (h : x.Has L) : Leaves L (execMatch t f x) :=
  execute hg (fun _ _ _ h1 => matchBody h1) h

theorem waitAt {w m pc next k} (h : x.Has L) : (x.waitAt w m pc next k).Has L := .modLanes h

theorem wsyncBody {r sh} (h : x.Has L) : (wsyncBody x r sh).Has L := by
  unfold Machine.wsyncBody
  extract_lets
  split
  · exact h
  · exact ⟨h, fun _ _ h1 => .foldl (fun _ _ h2 => .waitAt h2) h1⟩

theorem execWsync {f} (hg : L.Grows) (h : x.Has L) : Leaves L (execWsync f x) :=
  execute hg (fun _ _ _ h1 => wsyncBody h1) h

theorem execMov {t f} (hg : L.Grows) (h : x.Has L) : Leaves L (execMov t f x) :=
  execute hg (fun _ _ _ h1 => aluBody h1) h

theorem movmBody {k toReg w r sh} (h : x.Has L) : (movmBody k toReg w x r sh).Has L := by
  unfold Machine.movmBody
  extract_lets
  split
  · exact h
  · split
    · exact finishLanes h
    · exact finishPut h

theorem execMovm {k toReg w f} (hg : L.Grows) (h : x.Has L) : Leaves L (execMovm k toReg w f x) :=
  execute hg (fun _ _ _ h1 => movmBody h1) h

theorem movsBody {code r sh} (h : x.Has L) : (movsBody code x r sh).Has L := finishLanes h

theorem execMovs {code f} (hg : L.Grows) (h : x.Has L) : Leaves L (execMovs code f x) :=
  execute hg (fun _ _ _ h1 => movsBody h1) h

end State.Has
end Sys2Proof.Machine

namespace Sys2Proof.Machine
open Sys2Proof
namespace State.Has

variable {L : Lasting} {x y : State}

/-! #### Instructions on memory and matrices, control, and stream programs -/

theorem spot {r l sp a n acc} (h : x.Has L) : Gives (fun v => v.2.Has L) (x.spot r l sp a n acc) :=
  of_walked h State.spot_walks

theorem reached {r sp acc as_} (h : x.Has L) : (x.reached r sp acc as_).Has L := .foldl (fun _ _ h1 => by
    split
    next e2 =>
      have g2 : State.Has L _ := (spot h1).ok e2
      exact g2
    · exact h1) h

theorem gather {one ls} (hone : ∀ s l, State.Has L s → (one s l).2.Has L) (h : x.Has L) :
    (gather one ls x).2.Has L := by
  induction ls generalizing x with
  | nil => exact h
  | cons l ls ih => exact ih (hone _ _ h)

theorem dropStale {core hpa} (h : x.Has L) : (x.dropStale core hpa).Has L := h

theorem loadL1 {core ctx va part hpa n} (h : x.Has L) : (x.loadL1 core ctx va part hpa n).2.Has L := by
  unfold State.loadL1
  extract_lets
  split
  · exact h
  · exact h

theorem loadConst {core ctx va part hpa n} (h : x.Has L) : (x.loadConst core ctx va part hpa n).2.Has L := by
  unfold State.loadConst
  extract_lets
  split
  · exact h
  · exact h

theorem loadLane {r l sp path a va n} (h : x.Has L) : (x.loadLane r l sp path a va n).2.Has L := by
  unfold State.loadLane
  split
  · exact h
  next e1 =>
    have g1 : State.Has L _ := (spot h).ok e1
    exact .ite_snd g1 (by
      extract_lets
      split
      · exact g1
      · exact .ite_snd (.ite_snd g1 (.ite (.acquire g1) g1)) (by
          extract_lets
          split
          · exact .ite_snd (.dropStale g1) (by
              split
              next e4 =>
                have g4 : State.Has L _ := of_snd (.loadL1 g1) e4
                exact g4)
          · split
            next e4 =>
              have g4 : State.Has L _ := of_snd (.loadConst g1) e4
              exact g4
          · exact .acquire g1
          · exact .dropStale g1))

theorem awaitRemote {r hs} (h : x.Has L) : (x.awaitRemote r hs).Has L := .foldl (fun _ _ h1 => .ite h1 h1) h

theorem remoteDone {r} (h : x.Has L) : (x.remoteDone r).Has L := h

theorem loadBody {sp path w off r sh} (h : x.Has L) : (loadBody sp path w off x r sh).Has L := by
  unfold Machine.loadBody
  extract_lets
  split
  next e1 =>
    have g1 : State.Has L _ := of_snd (.gather (fun _ _ h1 => .loadLane h1) (.ite (.reached h) h)) e1
    split
    · exact g1
    · extract_lets
      split
      · exact awaitRemote g1
      · split
        next e3 =>
          have g3 : State.Has L _ := of_snd (.ite_snd (.sampled (.remoteDone g1)) (remoteDone (r := r) g1)) e3
          exact ⟨g3, trivial⟩

theorem execLd {f} (hg : L.Grows) (h : x.Has L) : Leaves L (execLd f x) := execute hg (fun _ _ _ h1 => loadBody h1) h

theorem storeLanes {one ls} (hone : ∀ s l, State.Has L s → Gives (fun v => v.2.Has L) (one s l)) (h : x.Has L) :
    (storeLanes one ls x).2.2.Has L := by
  induction ls generalizing x with
  | nil => exact h
  | cons l ls ih =>
    unfold Machine.storeLanes
    split
    · exact ih h
    next hok => exact ih ((hone _ _ h).ok hok)

theorem storeLane {r l sp kind a d va n} (h : x.Has L) :
    Gives (fun v => v.2.Has L) (x.storeLane r l sp kind a d va n) := by
  unfold State.storeLane
  split
  · exact trivial
  next e1 =>
    have g1 : State.Has L _ := (spot h).ok e1
    split
    · exact trivial
    · exact g1

theorem storeBody {sp kind w off r sh} (h : x.Has L) : (storeBody sp kind w off x r sh).Has L := by
  unfold Machine.storeBody
  extract_lets
  split
  next e1 =>
    have g1 : State.Has L _ := of_snd_snd (.storeLanes (fun _ _ h1 => storeLane h1) h) e1
    split
    · exact g1
    · exact ⟨g1, trivial⟩

theorem execSt {f} (hg : L.Grows) (h : x.Has L) : Leaves L (execSt f x) := execute hg (fun _ _ _ h1 => storeBody h1) h

theorem execLda {f} (hg : L.Grows) (h : x.Has L) : Leaves L (execLda f x) := execute hg (fun _ _ _ h1 => loadBody h1) h

theorem execStl {f} (hg : L.Grows) (h : x.Has L) : Leaves L (execStl f x) := execute hg (fun _ _ _ h1 => storeBody h1) h

theorem execLds {f} (hg : L.Grows) (h : x.Has L) : Leaves L (execLds f x) := execute hg (fun _ _ _ h1 => loadBody h1) h

theorem execSts {f} (hg : L.Grows) (h : x.Has L) : Leaves L (execSts f x) := execute hg (fun _ _ _ h1 => storeBody h1) h

theorem execLdx {f} (hg : L.Grows) (h : x.Has L) : Leaves L (execLdx f x) := execute hg (fun _ _ _ h1 => loadBody h1) h

theorem execStx {f} (hg : L.Grows) (h : x.Has L) : Leaves L (execStx f x) := execute hg (fun _ _ _ h1 => storeBody h1) h

theorem execLdc {f} (hg : L.Grows) (h : x.Has L) : Leaves L (execLdc f x) := execute hg (fun _ _ _ h1 => loadBody h1) h

theorem atomChecks {one ls} (hone : ∀ s l, State.Has L s → Gives (fun v => v.2.Has L) (one s l)) (h : x.Has L) :
    (atomChecks one ls x).2.2.Has L := by
  induction ls generalizing x with
  | nil => exact h
  | cons l ls ih =>
    unfold Machine.atomChecks
    split
    · exact ih h
    next hok => exact ih ((hone _ _ h).ok hok)

theorem atomCheck {r sh sp op w d l} (h : x.Has L) : Gives (fun v => v.2.Has L) (x.atomCheck r sh sp op w d l) := by
  unfold State.atomCheck
  extract_lets
  split
  · exact trivial
  next e1 =>
    have g1 : State.Has L _ := (spot h).ok e1
    split
    · exact trivial
    · exact g1

theorem saveDiff {t part cluster base o old new} (h : x.Has L) : (x.saveDiff t part cluster base o old new).Has L :=
  .foldl (fun _ _ h1 => .ite h1 (.modTeam (.saveWrite h1))) h

theorem imaged {old w l} (h : x.Has L) : (x.imaged old w l).Has L := by
  unfold State.imaged
  extract_lets
  split
  · exact h
  · exact .ite h (.saveDiff (.saveDiff h))

theorem putRegs {w l f} (h : x.Has L) : (x.putRegs w l f).Has L := .mapRuns (.modLanes h)

theorem setRegs {w l f} (h : x.Has L) : (x.setRegs w l f).Has L := .logScrubbed (.imaged (.putRegs h))

theorem atomicAt {core loc op n v cmp} (h : x.Has L) : (x.atomicAt core loc op n v cmp).2.Has L := by
  unfold State.atomicAt
  split
  · exact h
  · exact .modTeam h

theorem atomLane {r op ord w d q} (h : x.Has L) : (x.atomLane r op ord w d q).Has L := by
  unfold State.atomLane
  extract_lets core m rel acq put
  split
  next sig s e1 =>
    have hs : s.Has L := of_snd (.ite_snd (.takeSig h) h) e1
    cases q.loc with
    | scr t o =>
      cases hw : s.atomicAt core (.scr t o) op w.bytes q.v q.cmp with | mk old u =>
      have hu : u.Has L := of_snd (.atomicAt hs) hw
      exact .ite (.acquire (.setRegs (.ite (.putSigs hu) hu))) (.setRegs (.ite (.putSigs hu) hu))
    | phys p hpa =>
      dsimp only
      cases s.isLocal hpa with
      | true =>
        cases hw : s.atomicAt core (.phys p hpa) op w.bytes q.v q.cmp with | mk old u =>
        have hu : u.Has L := of_snd (.atomicAt hs) hw
        exact .ite (.acquire (.setRegs (.modLanes (.ite (.putSigs hu) hu))))
          (.setRegs (.modLanes (.ite (.putSigs hu) hu)))
      | false =>
        have hm : (s.modLanes r.wave m fun _ t => t.addSig (lineSig hpa)).Has L := .modLanes hs
        exact .ite (.ite (.acquire (.setRegs hm)) (.setRegs hm)) hm

theorem putIdle {w m d} (h : x.Has L) : (x.putIdle w m d).Has L := .foldl (fun _ _ h1 => .setRegs h1) h

theorem goOnRemote {w m pc next} (h : x.Has L) : (x.goOnRemote w m pc next).Has L := .goOn (.waitAt h)

theorem atomBody {sp op ord w d r sh} (h : x.Has L) : (atomBody sp op ord w d x r sh).Has L := by
  unfold Machine.atomBody
  extract_lets
  split
  next e1 =>
    have g1 : State.Has L _ := of_snd_snd (.atomChecks (fun _ _ h1 => atomCheck h1) h) e1
    split
    · exact g1
    · exact ⟨g1, fun _ _ h3 => .goOnRemote (.tallyHomes (.sampleRecords (.sampled (.putIdle (.foldl (fun _ _ h4 => .atomLane h4) h3)))))⟩

theorem execAtom {op ord f} (hg : L.Grows) (h : x.Has L) : Leaves L (execAtom op ord f x) :=
  execute hg (fun _ _ _ h1 => atomBody h1) h

theorem execAtoms {op ord f} (hg : L.Grows) (h : x.Has L) : Leaves L (execAtoms op ord f x) :=
  execute hg (fun _ _ _ h1 => atomBody h1) h

theorem fenceBody {r sh} (h : x.Has L) : (fenceBody x r sh).Has L := ⟨h, trivial⟩

theorem execFence {f} (hg : L.Grows) (h : x.Has L) : Leaves L (execFence f x) :=
  execute hg (fun _ _ _ h1 => fenceBody h1) h

theorem goOnRun {r} (h : x.Has L) : (x.goOnRun r).Has L := .goOn h

theorem bindCtx {cluster ctx job} (h : x.Has L) : (x.bindCtx cluster ctx job).Has L := .ite h h

theorem takeSeq {w} (h : x.Has L) : (x.takeSeq w).2.Has L := .modWave h

theorem setAcc {a} (h : x.Has L) : (x.setAcc a).Has L := h

theorem walkChecked {c rs} (h : x.Has L) : (x.walkChecked c rs).Has L :=
  .foldl (fun _ _ h1 => .foldl (fun _ _ h2 => .touch h2) h1) h

theorem setPending {w m k} (h : x.Has L) : (x.setPending w m k).Has L := .modLanes h

theorem newCmd {w m tok seq pc kind} (h : x.Has L) : (x.newCmd w m tok seq pc kind).Has L := by
  unfold State.newCmd
  extract_lets
  split
  · exact .setPending (.walkChecked h)
  · exact .walkChecked h

theorem setNamed {w m k v} (h : x.Has L) : (x.setNamed w m k v).Has L := .foldl (fun _ _ h1 => .setRegs h1) h

theorem mmaBody {f r sh} (h : x.Has L) : (mmaBody f x r sh).Has L := by
  unfold Machine.mmaBody
  extract_lets
  split
  · exact ⟨h, fun _ _ h1 => .goOnRun h1⟩
  · split
    · exact h
    · split
      · exact h
      · extract_lets
        split
        · split
          · exact h
          · exact ⟨h, fun _ _ h3 => .goOnRun (.setNamed (.newCmd (.tally (.modWave (.bindCtx h3)))))⟩
        · split
          · split
            · exact h
            · exact ⟨h, fun _ _ h4 => .goOnRun (.setNamed (.newCmd (.tally (.setAcc (.modWave (.bindCtx h4))))))⟩
          · split
            · exact h
            · exact h

theorem execMma {f} (hg : L.Grows) (h : x.Has L) : Leaves L (execMma f x) := execute hg (fun _ _ _ h1 => mmaBody h1) h

theorem accloadBody {f r sh} (h : x.Has L) : (accloadBody f x r sh).Has L := by
  unfold Machine.accloadBody
  extract_lets
  split
  · exact h
  · split
    · exact h
    · exact finishPut h

theorem execAccload {f} (hg : L.Grows) (h : x.Has L) : Leaves L (execAccload f x) :=
  execute hg (fun _ _ _ h1 => accloadBody h1) h

theorem drainDesc {r l b} (h : x.Has L) : (x.drainDesc r l b).2.Has L := by
  unfold State.drainDesc
  split
  next e1 =>
    have g1 : State.Has L _ := of_snd (.loadLane h) e1
    split
    next e2 =>
      have g2 : State.Has L _ := of_snd (.loadLane g1) e2
      exact g2

theorem accdrainBody {f r sh} (h : x.Has L) : (accdrainBody f x r sh).Has L := by
  unfold Machine.accdrainBody
  extract_lets
  split
  · exact ⟨h, fun _ _ h1 => .goOnRun h1⟩
  · split
    next e1 =>
      have g1 : State.Has L _ := of_snd (.ite_snd (.drainDesc h) h) e1
      extract_lets
      split
      · exact g1
      · split
        · exact awaitRemote g1
        · split
          · exact g1
          · split
            next e3 =>
              have g3 : State.Has L _ := of_snd (.sampled (.remoteDone g1)) e3
              exact ⟨g3, fun _ _ h4 => .goOn (.waitAt (.newCmd (.tally (.modWave h4))))⟩

theorem execAccdrain {f} (hg : L.Grows) (h : x.Has L) : Leaves L (execAccdrain f x) :=
  execute hg (fun _ _ _ h1 => accdrainBody h1) h

theorem accrelBody {f r sh} (h : x.Has L) : (accrelBody f x r sh).Has L := by
  unfold Machine.accrelBody
  extract_lets
  split
  · exact ⟨h, fun _ _ h1 => .goOnRun h1⟩
  · split
    · exact h
    · split
      · exact h
      · exact ⟨h, fun _ _ h2 => .goOnRun (.setNamed (.setAcc (.tally (.modWave h2))))⟩

theorem execAccrel {f} (hg : L.Grows) (h : x.Has L) : Leaves L (execAccrel f x) :=
  execute hg (fun _ _ _ h1 => accrelBody h1) h

theorem copyBody {lg srcS dstS tok n r sh} (h : x.Has L) : (copyBody lg srcS dstS tok n x r sh).Has L := by
  unfold Machine.copyBody
  extract_lets
  split
  · exact ⟨h, fun _ _ h1 => .goOnRun h1⟩
  · split
    · exact h
    · split
      · exact h
      · exact ⟨h, fun _ _ h2 => .goOnRun (.foldl (fun _ _ h3 => .newCmd h3) (.modWave h2))⟩

theorem execCopy {lg srcS dstS f} (hg : L.Grows) (h : x.Has L) : Leaves L (execCopy lg srcS dstS f x) :=
  execute hg (fun _ _ _ h1 => copyBody h1) h

theorem reimaged {old w m} (h : x.Has L) : (x.reimaged old w m).Has L := .foldl (fun _ _ h1 => .imaged h1) h

theorem resume {w m} (h : x.Has L) : (x.resume w m).Has L := .foldl (fun _ _ h1 => .goOn h1) h

theorem resumeCmd {w m} (h : x.Has L) : (x.resumeCmd w m).Has L := .reimaged (.resume h)

theorem doOp {a1} (h : x.Has L) : (x.doOp a1).Has L := .resumeCmd (by
    split
    · exact .modTeam (.modLanes (.modTeam h))
    · exact .acquire (.modTeam (.modTeam h))
    · split
      · exact .modTeam h
      · exact .foldl (fun _ _ h3 => .setRegs h3) (.acquire (.modTeam (.modTeam h)))
    · exact .modTeam (.modLanes (.modTeam h))
    · exact .modTeam (.modLanes (.modTeam h))
    · exact .acquire (.modTeam h))

theorem tryOp {a1} (h : x.Has L) : (x.tryOp a1).Has L := .ite (.doOp h) (.modLanes (.modTeam h))

theorem own {t} (h : x.Has L) : (x.own t).2.Has L := .ite_snd h (.ite_snd h (.modTeam h))

theorem claim {t} (h : x.Has L) : (x.claim t).2.Has L := by
  unfold State.claim
  split
  next e1 =>
    have g1 : State.Has L _ := of_snd (.own h) e1
    exact g1
  next e1 =>
    have g1 : State.Has L _ := of_snd (.own h) e1
    exact .foldl (fun _ _ h2 => .tryOp h2) g1

theorem startOp {r act pc op needsOwner} (h : x.Has L) : (x.startOp r act pc op needsOwner).Has L :=
  .ite (.ite (.tryOp (.waitAt (.modTeam h))) (.doOp (.waitAt (.modTeam h)))) (by
    split
    next e1 =>
      have g1 : State.Has L _ := of_snd (.claim (.waitAt (.modTeam h))) e1
      exact .tryOp g1
    next e1 =>
      have g1 : State.Has L _ := of_snd (.claim (.waitAt (.modTeam h))) e1
      exact .modTeam g1)

theorem onceBody {idle op excs needsOwner r sh} (hop : ∀ a0 s a2, State.Has L s → (op a0 s a2).2.Has L) (h : x.Has L) :
    (onceBody idle op excs needsOwner x r sh).Has L := by
  unfold Machine.onceBody
  extract_lets
  split
  · exact ⟨h, fun _ _ h1 => .goOnRun h1⟩
  · split
    · exact h
    · exact ⟨h, fun _ _ h2 => .startOp (hop _ _ _ h2)⟩

theorem engageBody {r sh} (h : x.Has L) : (engageBody x r sh).Has L := onceBody (fun _ _ _ h1 => .modWave h1) h

theorem execEngage {f} (hg : L.Grows) (h : x.Has L) : Leaves L (execEngage f x) :=
  execute hg (fun _ _ _ h1 => engageBody h1) h

theorem rdvBody {r sh} (h : x.Has L) : (rdvBody x r sh).Has L := onceBody (fun _ _ _ h1 => h1) h

theorem execRdv {f} (hg : L.Grows) (h : x.Has L) : Leaves L (execRdv f x) := execute hg (fun _ _ _ h1 => rdvBody h1) h

theorem semsigBody {k r sh} (h : x.Has L) : (semsigBody k x r sh).Has L := onceBody (fun _ _ _ h1 => h1) h

theorem execSemsig {k f} (hg : L.Grows) (h : x.Has L) : Leaves L (execSemsig k f x) :=
  execute hg (fun _ _ _ h1 => semsigBody h1) h

theorem semwaitBody {k r sh} (h : x.Has L) : (semwaitBody k x r sh).Has L := onceBody (fun _ _ _ h1 => h1) h

theorem execSemwait {k f} (hg : L.Grows) (h : x.Has L) : Leaves L (execSemwait k f x) :=
  execute hg (fun _ _ _ h1 => semwaitBody h1) h

theorem qpopBody {k d r sh} (h : x.Has L) : (qpopBody k d x r sh).Has L := onceBody (fun _ _ _ h1 => h1) h

theorem execQpop {k f} (hg : L.Grows) (h : x.Has L) : Leaves L (execQpop k f x) :=
  execute hg (fun _ _ _ h1 => qpopBody h1) h

theorem qpushBody {k r sh} (h : x.Has L) : (qpushBody k x r sh).Has L := by
  unfold Machine.qpushBody
  exact onceBody (fun _ _ _ h1 => h1) h

theorem execQpush {k f} (hg : L.Grows) (h : x.Has L) : Leaves L (execQpush k f x) :=
  execute hg (fun _ _ _ h1 => qpushBody h1) h

theorem dispatch {b} (h : x.Has L) : (x.dispatch b).Has L := .tally h

theorem placeCall {job vf handle c} (h : x.Has L) : (x.placeCall job vf handle c).Has L := by
  unfold State.placeCall
  dsimp only
  split
  · exact .ite (.dispatch h) h
  · generalize x.bins.filter (fun b => b.opened && b.cluster = c.cluster) = mine
    cases mine with
    | nil => exact h
    | cons b bs => exact .ite h (.dispatch h)

theorem ncallBody {kin mout f r sh} (h : x.Has L) : (ncallBody kin mout f x r sh).Has L := by
  unfold Machine.ncallBody
  extract_lets
  split
  · exact ⟨h, fun _ _ h1 => .goOnRun h1⟩
  · split
    · exact h
    · split
      · exact h
      · exact ⟨h, fun _ _ h3 => .goOnRun (.foldl (fun _ _ h4 => .placeCall h4) (.foldl (fun _ _ h4 => .setPending h4) (.tally (.modWave (.bindCtx h3)))))⟩

theorem execNcall {kin mout f} (hg : L.Grows) (h : x.Has L) : Leaves L (execNcall kin mout f x) :=
  execute hg (fun _ _ _ h1 => ncallBody h1) h

theorem controlBody {reads one go r sh} (hgo : ∀ a0 a1 s, State.Has L s → (go a0 a1 s).Has L) (h : x.Has L) :
    (controlBody reads one go x r sh).Has L := by
  unfold Machine.controlBody
  extract_lets
  split
  · exact ⟨h, fun _ _ h1 => .goOnRun h1⟩
  · split
    · exact h
    · exact ⟨h, fun _ _ h2 => .goOnRun (hgo _ _ _ (.modWave h2))⟩

theorem dispatchAll {bs} (h : x.Has L) : (x.dispatchAll bs).Has L := .foldl (fun _ _ h1 => .dispatch h1) h

theorem flush {all hs t} (h : x.Has L) : (flush all hs t x).Has L := .dispatchAll (.tally h)

theorem execNflush {all f} (hg : L.Grows) (h : x.Has L) : Leaves L (execNflush all f x) :=
  execute hg (fun _ _ _ h1 => controlBody (fun _ _ _ h2 => .flush h2) h1) h

theorem wbindBody {r sh} (h : x.Has L) : (wbindBody x r sh).Has L := by
  unfold Machine.wbindBody
  extract_lets
  split
  · exact ⟨h, fun _ _ h1 => .goOnRun h1⟩
  · split
    · exact h
    · exact ⟨h, fun _ _ h2 => .goOn (.waitAt (.newCmd (.modWave h2)))⟩

theorem execWbind {f} (hg : L.Grows) (h : x.Has L) : Leaves L (execWbind f x) :=
  execute hg (fun _ _ _ h1 => wbindBody h1) h

theorem evict {cluster n fuel} (h : x.Has L) : (x.evict cluster n fuel).Has L := by
  induction fuel generalizing x with
  | zero => exact h
  | succ fuel ih =>
    unfold State.evict
    extract_lets mine
    split
    · exact h
    · split
      · exact h
      · exact ih h

theorem bringIn {cluster a2} (h : x.Has L) : (x.bringIn cluster a2).Has L := .ite h (.ite h (.evict h))

theorem pin {hs t} (h : x.Has L) : (pin hs t x).Has L := .foldl (fun _ _ h1 => by
    split
    · exact h1
    · exact .ite h1 (.ite (.tally h1) (.bringIn h1))) h

theorem execWpin {f} (hg : L.Grows) (h : x.Has L) : Leaves L (execWpin f x) :=
  execute hg (fun _ _ _ h1 => controlBody (fun _ _ _ h2 => .pin h2) h1) h

theorem unpin {hs t} (h : x.Has L) : (unpin hs t x).Has L := h

theorem execWunpin {f} (hg : L.Grows) (h : x.Has L) : Leaves L (execWunpin f x) :=
  execute hg (fun _ _ _ h1 => controlBody (fun _ _ _ h2 => .unpin h2) h1) h

theorem prefetch {hs t} (h : x.Has L) : (prefetch hs t x).Has L := .foldl (fun _ _ h1 => by
    split
    · exact .bringIn h1
    · exact h1) h

theorem execWpref {f} (hg : L.Grows) (h : x.Has L) : Leaves L (execWpref f x) :=
  execute hg (fun _ _ _ h1 => controlBody (fun _ _ _ h2 => .prefetch h2) h1) h

theorem gramBody {k fs f r sh} (h : x.Has L) : (gramBody k fs f x r sh).Has L := by
  unfold Machine.gramBody
  extract_lets
  split
  · exact ⟨h, fun _ _ h1 => .goOnRun h1⟩
  · split
    · exact h
    · split
      · exact h
      · exact ⟨h, fun _ _ h2 => .goOnRun (.foldl (fun _ _ h3 => .newCmd h3) (by
              split
              · exact .tally (.modWave h2)
              · exact .modWave h2))⟩

theorem execGmv {fs f} (hg : L.Grows) (h : x.Has L) : Leaves L (execGmv fs f x) :=
  execute hg (fun _ _ _ h1 => gramBody h1) h

theorem execGmm {v fs f} (hg : L.Grows) (h : x.Has L) : Leaves L (execGmm v fs f x) :=
  execute hg (fun _ _ _ h1 => gramBody h1) h

theorem modCmd {id f} (h : x.Has L) : (x.modCmd id f).Has L := h

theorem binappBody {op wide n r sh} (h : x.Has L) : (binappBody op wide n x r sh).Has L := by
  unfold Machine.binappBody
  extract_lets
  split
  · exact ⟨h, fun _ _ h1 => .goOnRun h1⟩
  · split
    · exact h
    · split
      · exact h
      · exact ⟨h, fun _ _ h2 => .goOnRun (.modCmd (.newCmd (.modLanes (.modWave h2))))⟩

theorem execBinapp {op wide f} (hg : L.Grows) (h : x.Has L) : Leaves L (execBinapp op wide f x) :=
  execute hg (fun _ _ _ h1 => binappBody h1) h

theorem binreplayBody {tok n r sh} (h : x.Has L) : (binreplayBody tok n x r sh).Has L := by
  unfold Machine.binreplayBody
  extract_lets
  split
  · exact ⟨h, fun _ _ h1 => .goOnRun h1⟩
  · split
    · exact h
    · split
      · exact h
      · exact ⟨h, fun _ _ h2 => .goOnRun (.foldl (fun _ _ h3 => .newCmd h3) (.modWave h2))⟩

theorem execBinreplay {f} (hg : L.Grows) (h : x.Has L) : Leaves L (execBinreplay f x) :=
  execute hg (fun _ _ _ h1 => binreplayBody h1) h

theorem listBody {waits rel items d kind r sh} (h : x.Has L) : (listBody waits rel items d kind x r sh).Has L := by
  unfold Machine.listBody
  extract_lets
  split
  · exact ⟨h, fun _ _ h1 => .goOnRun (.putIdle h1)⟩
  · split
    · exact h
    · refine ⟨h, fun _ _ h1 => ?_⟩
      cases rel with
      | true =>
        exact .ite (.goOn (.waitAt (.putIdle (.modCmd (.newCmd (.takeSig (.takeSeq h1)))))))
          (.goOnRun (.putIdle (.modCmd (.newCmd (.takeSig (.takeSeq h1))))))
      | false =>
        exact .ite (.goOn (.waitAt (.putIdle (.modCmd (.newCmd (.takeSeq h1))))))
          (.goOnRun (.putIdle (.modCmd (.newCmd (.takeSeq h1)))))

theorem execWlinit {f} (hg : L.Grows) (h : x.Has L) : Leaves L (execWlinit f x) :=
  execute hg (fun _ _ _ h1 => listBody h1) h

theorem execWlpush {f} (hg : L.Grows) (h : x.Has L) : Leaves L (execWlpush f x) :=
  execute hg (fun _ _ _ h1 => listBody h1) h

theorem execWlins {f} (hg : L.Grows) (h : x.Has L) : Leaves L (execWlins f x) :=
  execute hg (fun _ _ _ h1 => listBody h1) h

theorem execWlpopb {f} (hg : L.Grows) (h : x.Has L) : Leaves L (execWlpopb f x) :=
  execute hg (fun _ _ _ h1 => listBody h1) h

theorem hashbBody {k proj n r sh} (h : x.Has L) : (hashbBody k proj n x r sh).Has L := by
  unfold Machine.hashbBody
  extract_lets
  split
  · exact h
  · exact ⟨h, trivial⟩

theorem execHashb {kin proj f} (hg : L.Grows) (h : x.Has L) : Leaves L (execHashb kin proj f x) :=
  execute hg (fun _ _ _ h1 => hashbBody h1) h

theorem enqBody {d r sh} (h : x.Has L) : (enqBody d x r sh).Has L := by
  unfold Machine.enqBody
  extract_lets
  split
  · exact ⟨h, fun _ _ h1 => .goOnRun (.putIdle h1)⟩
  · split
    · exact h
    · exact ⟨h, fun _ _ h2 => .goOn (.waitAt (.putIdle (.newCmd (.modLanes (.modWave h2)))))⟩

theorem execEnq {f} (hg : L.Grows) (h : x.Has L) : Leaves L (execEnq f x) := execute hg (fun _ _ _ h1 => enqBody h1) h

theorem setCounter {part n v} (h : x.Has L) : (x.setCounter part n v).Has L := h

theorem decCounter {vf c v} (h : x.Has L) : (x.decCounter vf c v).Has L := .ite h (.setCounter h)

theorem depdecBody {set r sh} (h : x.Has L) : (depdecBody set x r sh).Has L := by
  unfold Machine.depdecBody
  extract_lets
  split
  · exact ⟨h, fun _ _ h1 => .goOnRun h1⟩
  · split
    · exact h
    · refine ⟨h, fun _ _ h1 => ?_⟩
      cases set with
      | true => exact .goOnRun (.foldl (fun _ _ h2 => .setCounter h2) (.takeSeq h1))
      | false => exact .goOnRun (.foldl (fun _ _ h2 => .decCounter h2) (.takeSig (.takeSeq h1)))

theorem execDepdec {set f} (hg : L.Grows) (h : x.Has L) : Leaves L (execDepdec set f x) :=
  execute hg (fun _ _ _ h1 => depdecBody h1) h

theorem loadAll {r l sp path ls} (h : x.Has L) : Gives (fun v => v.2.Has L) (x.loadAll r l sp path ls) := by
  induction ls generalizing x with
  | nil => exact h
  | cons a ls ih =>
    unfold State.loadAll
    split
    next hload =>
      split
      next hrest =>
        have hs : State.Has L _ := (ih (of_snd (.loadLane h) hload)).ok hrest
        exact hs
      · trivial
    · trivial

theorem loadTaps {r l m ts} (h : x.Has L) : Gives (fun v => v.2.Has L) (x.loadTaps r l m ts) := by
  induction ts generalizing x with
  | nil => exact h
  | cons t ts ih =>
    unfold State.loadTaps
    extract_lets go
    have hgo : ∀ v s, State.Has L s → Gives (fun v => v.2.Has L) (go v s) := by
      intro v s hs
      dsimp only [go]
      split
      next hrest =>
        have ht : State.Has L _ := (ih hs).ok hrest
        exact ht
      · trivial
    clear_value go
    split
    · exact hgo _ _ h
    · split
      next hload => exact hgo _ _ (of_snd (.loadLane h) hload)
      · trivial

theorem sampleLane {r l a3 gath finish} (h : x.Has L) : (x.sampleLane r l a3 gath finish).2.Has L :=
  .ite_snd h (.ite_snd h (by
      split
      · exact h
      next e1 =>
        have g1 : State.Has L _ := (loadAll h).ok e1
        exact .ite_snd g1 (.ite_snd g1 (.ite_snd g1 (by
              split
              · exact g1
              next e2 =>
                have g2 : State.Has L _ := (loadTaps g1).ok e2
                exact g2)))))

theorem sampleBody {lod gath n d finish r sh} (h : x.Has L) : (sampleBody lod gath n d finish x r sh).Has L := by
  unfold Machine.sampleBody
  extract_lets
  split
  · exact h
  · split
    next e1 =>
      have g1 : State.Has L _ := of_snd (.gather (fun _ _ h1 => .sampleLane h1) h) e1
      split
      · exact g1
      · extract_lets
        split
        · exact awaitRemote g1
        · split
          next e3 =>
            have g3 : State.Has L _ := of_snd (.sampled (.remoteDone g1)) e3
            exact ⟨g3, trivial⟩

theorem execTex {lod f} (hg : L.Grows) (h : x.Has L) : Leaves L (execTex lod f x) :=
  execute hg (fun _ _ _ h1 => sampleBody h1) h

theorem execTexg {lod ch f} (hg : L.Grows) (h : x.Has L) : Leaves L (execTexg lod ch f x) :=
  execute hg (fun _ _ _ h1 => sampleBody h1) h

theorem attrLane {r l a b} (h : x.Has L) : (x.attrLane r l a b).2.Has L := .ite_snd h (.ite_snd h (.ite_snd h h))

theorem attrBody {d r sh} (h : x.Has L) : (attrBody d x r sh).Has L := by
  unfold Machine.attrBody
  extract_lets
  split
  next e1 =>
    have g1 : State.Has L _ := of_snd (.gather (fun _ _ h1 => .attrLane h1) h) e1
    extract_lets
    split
    · exact g1
    · exact finishPut g1

theorem execAttr {f} (hg : L.Grows) (h : x.Has L) : Leaves L (execAttr f x) :=
  execute hg (fun _ _ _ h1 => attrBody h1) h

theorem exportBody {tgt depth r sh} (h : x.Has L) : (exportBody tgt depth x r sh).Has L := by
  unfold Machine.exportBody
  extract_lets
  split
  · exact h
  · exact ⟨h, fun _ _ h2 => .goOnRun (.modLanes h2)⟩

theorem execExport {tgt depth f} (hg : L.Grows) (h : x.Has L) : Leaves L (execExport tgt depth f x) :=
  execute hg (fun _ _ _ h1 => exportBody h1) h

theorem discardBody {r sh} (h : x.Has L) : (discardBody x r sh).Has L := ⟨h, fun _ _ h1 => .goOnRun (.modLanes h1)⟩

theorem execDiscard {f} (hg : L.Grows) (h : x.Has L) : Leaves L (execDiscard f x) :=
  execute hg (fun _ _ _ h1 => discardBody h1) h

theorem rayqBody {any cull tok n r sh} (h : x.Has L) : (rayqBody any cull tok n x r sh).Has L := by
  unfold Machine.rayqBody
  extract_lets
  split
  · exact ⟨h, fun _ _ h1 => .goOnRun h1⟩
  · split
    · exact h
    · exact ⟨h, fun _ _ h2 => .goOnRun (.foldl (fun _ _ h3 => .setPending (.setPending (.newCmd h3))) (.modWave h2))⟩

theorem execRayq {any cull f} (hg : L.Grows) (h : x.Has L) : Leaves L (execRayq any cull f x) :=
  execute hg (fun _ _ _ h1 => rayqBody h1) h

theorem collBody {kind op ty tok n r sh} (h : x.Has L) : (collBody kind op ty tok n x r sh).Has L := by
  unfold Machine.collBody
  extract_lets
  split
  · exact ⟨h, fun _ _ h1 => .goOnRun h1⟩
  · split
    · exact h
    · exact ⟨h, fun _ _ h2 => .goOnRun (.newCmd (.modWave h2))⟩

theorem execColl {kind op ty f} (hg : L.Grows) (h : x.Has L) : Leaves L (execColl kind op ty f x) :=
  execute hg (fun _ _ _ h1 => collBody h1) h

theorem dealBody {d r sh} (h : x.Has L) : (dealBody d x r sh).Has L :=
  ⟨h, fun _ _ h1 => .ite (.goOnRun (.putIdle h1)) (.goOnRun (.foldl (fun _ _ h2 => .setRegs h2) (.modJob
    (.putIdle h1))))⟩

theorem execDeal {f} (hg : L.Grows) (h : x.Has L) : Leaves L (execDeal f x) :=
  execute hg (fun _ _ _ h1 => dealBody h1) h

theorem fetched {w vas} (h : x.Has L) : (x.fetched w vas).Has L := .foldl (fun _ _ h1 => .touch h1) h

theorem pushDiverge {w m blk goal} (h : x.Has L) : (x.pushDiverge w m blk goal).Has L := .ite (.modWave h) h

theorem transfer {w m blk goal} (h : x.Has L) : (x.transfer w m blk goal).Has L := .modWave (.pushDiverge h)

theorem transferBody {first checks excs goal put r} (h : x.Has L) :
    (transferBody first checks excs goal put x r).Has L := by
  unfold Machine.transferBody
  extract_lets
  split
  · exact fetched h
  · exact ⟨.fetched h, fun _ _ h2 => .transfer h2⟩

theorem braBody {c f r sh} (h : x.Has L) : (braBody c f x r sh).Has L := transferBody h

theorem execBra {c f} (hg : L.Grows) (h : x.Has L) : Leaves L (execBra c f x) :=
  execute hg (fun _ _ _ h1 => braBody h1) h

theorem indirectBody {r sh} (h : x.Has L) : (indirectBody x r sh).Has L := transferBody h

theorem execBrx {f} (hg : L.Grows) (h : x.Has L) : Leaves L (execBrx f x) :=
  execute hg (fun _ _ _ h1 => indirectBody h1) h

theorem callBody {f r sh} (h : x.Has L) : (callBody f x r sh).Has L := transferBody h

theorem execCall {f} (hg : L.Grows) (h : x.Has L) : Leaves L (execCall f x) :=
  execute hg (fun _ _ _ h1 => callBody h1) h

theorem execRet {f} (hg : L.Grows) (h : x.Has L) : Leaves L (execRet f x) :=
  execute hg (fun _ _ _ h1 => indirectBody h1) h

theorem scrubExit {w l} (h : x.Has L) : (x.scrubExit w l).Has L := .foldl (fun _ _ h1 => .logPoison h1) h

theorem dropWaves {t} (h : x.Has L) : (x.dropWaves t).Has L := .modTeam h

theorem exitThreads {w m} (h : x.Has L) : (x.exitThreads w m).Has L :=
  .dropWaves (.endThreads (.foldl (fun _ _ h1 => .scrubExit h1) h))

theorem exitBody {r _sh} (h : x.Has L) : (exitBody x r _sh).Has L := ⟨h, fun _ _ h1 => .exitThreads h1⟩

theorem execExit {e} (hg : L.Grows) (h : x.Has L) : Leaves L (execExit e x) :=
  execute hg (fun _ _ _ h1 => exitBody h1) h

theorem lsetupBody {k len2 f r sh} (h : x.Has L) : (lsetupBody k len2 f x r sh).Has L := transferBody h

theorem execLsetup {k len2 f} (hg : L.Grows) (h : x.Has L) : Leaves L (execLsetup k len2 f x) :=
  execute hg (fun _ _ _ h1 => lsetupBody h1) h

theorem seatWave {w} (h : x.Has L) : (x.seatWave w).Has L := by
  unfold State.seatWave
  extract_lets
  split
  · exact h
  · exact .ite (.modWave h) h

theorem forkWave {w m target v} (h : x.Has L) : (x.forkWave w m target v).Has L :=
  .seatWave (.acquire (.modWave (.modTeam (.modLanes h))))

theorem forkBody {f r sh} (h : x.Has L) : (forkBody f x r sh).Has L := by
  unfold Machine.forkBody
  extract_lets
  split
  · exact fetched h
  · exact ⟨.fetched h, fun _ _ h2 => .goOn (.foldl (fun _ _ h3 => .setRegs h3) (.ite (.forkWave h2) h2))⟩

theorem execFork {f} (hg : L.Grows) (h : x.Has L) : Leaves L (execFork f x) :=
  execute hg (fun _ _ _ h1 => forkBody h1) h

theorem joinDone {w} (h : x.Has L) : (x.joinDone w).Has L := .acquire h

theorem fjoinBody {r _sh} (h : x.Has L) : (fjoinBody x r _sh).Has L :=
  ⟨h, fun _ _ h1 => .ite (.goOn (.joinDone h1)) (.waitAt h1)⟩

theorem execFjoin {e} (hg : L.Grows) (h : x.Has L) : Leaves L (execFjoin e x) :=
  execute hg (fun _ _ _ h1 => fjoinBody h1) h

theorem barBody {r _sh} (h : x.Has L) : (barBody x r _sh).Has L := ⟨h, fun _ _ h1 => .waitAt (.modTeam (.modLanes h1))⟩

theorem execBar {e} (hg : L.Grows) (h : x.Has L) : Leaves L (execBar e x) := execute hg (fun _ _ _ h1 => barBody h1) h

theorem cbarBody {hold r _sh} (h : x.Has L) : (cbarBody hold x r _sh).Has L :=
  ⟨h, fun _ _ h1 => .waitAt (.modTeam (.modLanes h1))⟩

theorem execCbar {hold e} (hg : L.Grows) (h : x.Has L) : Leaves L (execCbar hold e x) :=
  execute hg (fun _ _ _ h1 => cbarBody h1) h

theorem yieldBody {r _sh} (h : x.Has L) : (yieldBody x r _sh).Has L := ⟨h, fun _ _ h1 => .modLanes (.goOn h1)⟩

theorem execYield {e} (hg : L.Grows) (h : x.Has L) : Leaves L (execYield e x) :=
  execute hg (fun _ _ _ h1 => yieldBody h1) h

theorem nopBody {r _sh} (h : x.Has L) : (nopBody x r _sh).Has L := ⟨h, trivial⟩

theorem execNop {e} (hg : L.Grows) (h : x.Has L) : Leaves L (execNop e x) := execute hg (fun _ _ _ h1 => nopBody h1) h

theorem trigBody {r _sh} (h : x.Has L) : (trigBody x r _sh).Has L :=
  ⟨h, fun _ _ h1 => .goOn (.modLanes (.modJob (.modLanes h1)))⟩

theorem execTrig {e} (hg : L.Grows) (h : x.Has L) : Leaves L (execTrig e x) :=
  execute hg (fun _ _ _ h1 => trigBody h1) h

theorem trapBody {code words r sh} (h : x.Has L) : (trapBody code words x r sh).Has L := ⟨h, fun _ _ h1 => .raise h1⟩

theorem execTrap {code e} (hg : L.Grows) (h : x.Has L) : Leaves L (execTrap code e x) :=
  execute hg (fun _ _ _ h1 => trapBody h1) h

theorem returnFrom {w m blk skip} (h : x.Has L) : (x.returnFrom w m blk skip).Has L :=
  .ite (.foldl (fun _ _ h1 => .goOn h1) (.modLanes (.foldl (fun _ _ h1 => .logScrubbed h1) (.pushDiverge h))))
    (.modLanes (.foldl (fun _ _ h1 => .logScrubbed h1) (.pushDiverge h)))

theorem rftBody {skip r _sh} (h : x.Has L) : (rftBody skip x r _sh).Has L := by
  unfold Machine.rftBody
  extract_lets
  split
  · exact fetched h
  · exact ⟨.fetched h, fun _ _ h2 => .returnFrom h2⟩

theorem execRft {skip e} (hg : L.Grows) (h : x.Has L) : Leaves L (execRft skip e x) :=
  execute hg (fun _ _ _ h1 => rftBody h1) h

theorem csrrBody {num r sh} (h : x.Has L) : (csrrBody num x r sh).Has L := by
  unfold Machine.csrrBody
  split
  · exact h
  · exact ⟨h, trivial⟩

theorem execCsrr {num e d} (hg : L.Grows) (h : x.Has L) : Leaves L (execCsrr num e d x) :=
  execute hg (fun _ _ _ h1 => csrrBody h1) h

theorem csrwBody {num r sh} (h : x.Has L) : (csrwBody num x r sh).Has L := by
  unfold Machine.csrwBody
  extract_lets
  split
  · exact h
  · split
    · exact h
    · exact ⟨h, fun _ _ h1 => .goOn (.foldl (fun _ _ h2 => .setRegs h2) h1)⟩

theorem execCsrw {num f} (hg : L.Grows) (h : x.Has L) : Leaves L (execCsrw num f x) :=
  execute hg (fun _ _ _ h1 => csrwBody h1) h

theorem brkBody {code words r _sh} (h : x.Has L) : (brkBody code words x r _sh).Has L := by
  unfold Machine.brkBody
  extract_lets
  split
  · exact debugStop h
  · exact ⟨h, trivial⟩

theorem execBrk {code e} (hg : L.Grows) (h : x.Has L) : Leaves L (execBrk code e x) :=
  execute hg (fun _ _ _ h1 => brkBody h1) h

theorem haltBody {r _sh} (h : x.Has L) : (haltBody x r _sh).Has L := h

theorem execHalt {e} (hg : L.Grows) (h : x.Has L) : Leaves L (execHalt e x) :=
  execute hg (fun _ _ _ h1 => haltBody h1) h

theorem execNopS {e} (hg : L.Grows) (h : x.Has L) : Leaves L (execNopS e x) := execute hg (fun _ _ _ h1 => nopBody h1) h

theorem execMovS {f} (hg : L.Grows) (h : x.Has L) : Leaves L (execMovS f x) := execute hg (fun _ _ _ h1 => aluBody h1) h

theorem execLdS64 {f} (hg : L.Grows) (h : x.Has L) : Leaves L (execLdS64 f x) :=
  execute hg (fun _ _ _ h1 => loadBody h1) h

theorem execStS64 {f} (hg : L.Grows) (h : x.Has L) : Leaves L (execStS64 f x) :=
  execute hg (fun _ _ _ h1 => storeBody h1) h

theorem execLdsS64 {f} (hg : L.Grows) (h : x.Has L) : Leaves L (execLdsS64 f x) :=
  execute hg (fun _ _ _ h1 => loadBody h1) h

theorem execStsS64 {f} (hg : L.Grows) (h : x.Has L) : Leaves L (execStsS64 f x) :=
  execute hg (fun _ _ _ h1 => storeBody h1) h

theorem execLdS32 {f} (hg : L.Grows) (h : x.Has L) : Leaves L (execLdS32 f x) :=
  execute hg (fun _ _ _ h1 => loadBody h1) h

theorem execStS32 {f} (hg : L.Grows) (h : x.Has L) : Leaves L (execStS32 f x) :=
  execute hg (fun _ _ _ h1 => storeBody h1) h

theorem execLdsS32 {f} (hg : L.Grows) (h : x.Has L) : Leaves L (execLdsS32 f x) :=
  execute hg (fun _ _ _ h1 => loadBody h1) h

theorem execStsS32 {f} (hg : L.Grows) (h : x.Has L) : Leaves L (execStsS32 f x) :=
  execute hg (fun _ _ _ h1 => storeBody h1) h

theorem execIaddS {t f} (hg : L.Grows) (h : x.Has L) : Leaves L (execIaddS t f x) := intOp hg h

theorem execIsubS {t f} (hg : L.Grows) (h : x.Has L) : Leaves L (execIsubS t f x) := intOp hg h

theorem execImulS {t f} (hg : L.Grows) (h : x.Has L) : Leaves L (execImulS t f x) := intOp hg h

theorem execAndS {t f} (hg : L.Grows) (h : x.Has L) : Leaves L (execAndS t f x) := intOp hg h

theorem execOrS {t f} (hg : L.Grows) (h : x.Has L) : Leaves L (execOrS t f x) := intOp hg h

theorem execXorS {t f} (hg : L.Grows) (h : x.Has L) : Leaves L (execXorS t f x) := intOp hg h

theorem execShlS {t f} (hg : L.Grows) (h : x.Has L) : Leaves L (execShlS t f x) := intOp hg h

theorem execShrS {t f} (hg : L.Grows) (h : x.Has L) : Leaves L (execShrS t f x) := intOp hg h

theorem execIminS {t f} (hg : L.Grows) (h : x.Has L) : Leaves L (execIminS t f x) := intOp hg h

theorem execImaxS {t f} (hg : L.Grows) (h : x.Has L) : Leaves L (execImaxS t f x) := intOp hg h

theorem execFaddS {t f} (hg : L.Grows) (h : x.Has L) : Leaves L (execFaddS t f x) := fltOp hg h

theorem execFsubS {t f} (hg : L.Grows) (h : x.Has L) : Leaves L (execFsubS t f x) := fltOp hg h

theorem execFmulS {t f} (hg : L.Grows) (h : x.Has L) : Leaves L (execFmulS t f x) := fltOp hg h

theorem execFminS {t f} (hg : L.Grows) (h : x.Has L) : Leaves L (execFminS t f x) := fltOp hg h

theorem execFmaxS {t f} (hg : L.Grows) (h : x.Has L) : Leaves L (execFmaxS t f x) := fltOp hg h

theorem strInRun {i} (h : x.Has L) : Leaves L (strInRun x i) := by
  unfold Machine.strInRun
  split
  · exact trivial
  · exact raiseRun h

theorem strFault {t code sub} (h : x.Has L) : (x.strFault t code sub).Has L := .terminate (.report h)

theorem touchInstr {c va} (h : x.Has L) : (x.touchInstr c va).Has L := by
  unfold State.touchInstr
  split
  next e1 =>
    have g1 : State.Has L _ := (fetchInstr h).ok e1
    exact g1
  · exact .markLeaves h

theorem modStream {t f} (h : x.Has L) : (x.modStream t f).Has L := .modTeam h

theorem strEnter {t a2} (h : x.Has L) : (x.strEnter t a2).Has L :=
  .ite (.modStream (.touchInstr (.touchInstr h))) (.modStream (.touchInstr h))

theorem strGo {t pc} (h : x.Has L) : (x.strGo t pc).Has L := .ite (.strEnter h) (.modStream h)

theorem strPark {t e} (h : x.Has L) : (x.strPark t e).Has L := .report (.modStream (.markLeaves h))

theorem leavesOut {w : StrRes} {t next} (h : w.Has L) : Leaves L (w.out t next) := by
  cases w with
  | next s => exact settle (.strGo (.modStream h))
  | jump s goal => exact strEnter (.modStream h)
  | stay s => exact h
  | fault s code sub => exact strFault h
  | park s e => exact strPark h

theorem strExec {i words f} (hf : ∀ s u, State.Has L s → (f s u).Has L) (h : x.Has L) :
    Leaves L (strExec x i words f) := by
  unfold Machine.strExec
  split
  · exact strInRun h
  next t _ =>
    split
    · exact h
    next u _ =>
      split
      · exact h
      · split
        · exact strFault h
        · exact leavesOut (hf _ _ (touchInstr h))

theorem strAlu {i f g} (h : x.Has L) : Leaves L (strAlu i f g x) := strExec (fun _ _ h1 => modStream h1) h

theorem execAmov {hi f} (h : x.Has L) : Leaves L (execAmov hi f x) := strAlu h

theorem execAadd {f} (h : x.Has L) : Leaves L (execAadd f x) := strAlu h

theorem execAcmp {cc f} (h : x.Has L) : Leaves L (execAcmp cc f x) := strAlu h

theorem strTo {t goal} (h : x.Has L) : (x.strTo t goal).Has L := by
  unfold State.strTo
  extract_lets
  split
  · exact h
  next e1 =>
    have g1 : State.Has L _ := (fetchInstr h).ok e1
    split
    · exact g1
    · exact g1

theorem execAbr {c f} (h : x.Has L) : Leaves L (execAbr c f x) :=
  strExec (fun s u h1 => by
    dsimp only
    have hr : (s.strTo u.id (strTarget u.stream.pc f)).Has L := strTo h1
    generalize s.strTo u.id (strTarget u.stream.pc f) = r at hr ⊢
    cases r with
    | jump t goal =>
      have hc : ∀ b : Bool, (if b then StrRes.jump t goal else .next t).Has L := fun b => by cases b <;> exact hr
      exact hc _
    | next t => exact hr
    | stay t => exact hr
    | fault t code sub => exact hr
    | park t e => exact hr) h

theorem execAloop {k len2 f} (h : x.Has L) : Leaves L (execAloop k len2 f x) :=
  strExec (fun s u h1 => by
    dsimp only
    have hr : (s.strTo u.id (strTarget u.stream.pc f)).Has L := strTo h1
    generalize s.strTo u.id (strTarget u.stream.pc f) = r at hr ⊢
    cases r with
    | jump t goal =>
      have hs : (t.strTo u.id (wordsAfter (strTarget u.stream.pc f) (len2.zeroExtend 64))).Has L := strTo hr
      dsimp only
      generalize t.strTo u.id (wordsAfter (strTarget u.stream.pc f) (len2.zeroExtend 64)) = r' at hs ⊢
      cases r' with
      | jump t' goal' => exact modStream hs
      | next t' => exact hs
      | stay t' => exact hs
      | fault t' code sub => exact hs
      | park t' e => exact hs
    | next t => exact hr
    | stay t => exact hr
    | fault t code sub => exact hr
    | park t e => exact hr) h

theorem block {t k full} (h : x.Has L) : (x.block t k full).Has L := modStream h

theorem pushEntry {t k e} (h : x.Has L) : (x.pushEntry t k e).Has L := .modTeam h

theorem pushGot {t k vs} (h : x.Has L) : (x.pushGot t k vs).Has L := .modStream (.pushEntry h)

theorem popEntry {t k} (h : x.Has L) : (x.popEntry t k).Has L := .modTeam h

theorem takeEntry {t k} (h : x.Has L) : (x.takeEntry t k).Has L := .modStream (.acquire (.popEntry h))

theorem uncache {hpa} (h : x.Has L) : (x.uncache hpa).Has L := h

theorem publishByte {t l b} (h : x.Has L) : (x.publishByte t l b).Has L := by
  unfold State.publishByte
  split
  · exact .writeScr h
  · exact .modStream (.uncache (.writePhys h))

theorem publish {t} (h : x.Has L) : (x.publish t).Has L := .foldl (fun _ _ h1 => by
    split
    · exact .modTeam h1
    · exact .poisonLine h1) (.foldl (fun _ _ h1 => .publishByte h1) h)

theorem xput {c va bs poison} (h : x.Has L) : Gives (fun v => v.2.Has L) (x.xput c va bs poison) :=
  (translate h).bind fun _ h1 => by
    split
    · exact ite (.poisonLine (.writePhys h1)) (.writePhys h1)

theorem strWrite {t a n v} (h : x.Has L) : Gives (fun v => v.Has L) (x.strWrite t a n v) := by
  unfold State.strWrite
  extract_lets
  split
  · exact (translate h).bind fun _ h2 => by
      split
      · split
        · exact (xput h).bind fun _ h4 => by
            split
            · exact modStream h4
        · exact modStream h2
  · exact modStream h
  · exact h

end State.Has
end Sys2Proof.Machine

namespace Sys2Proof.Machine
open Sys2Proof
namespace State.Has

variable {L : Lasting} {x y : State}

/-! #### Commands of the engines -/

theorem xread {c fuel va n} (h : x.Has L) : Gives (fun v => v.2.2.Has L) (x.xread c fuel va n) := by
  induction fuel generalizing x va n with
  | zero => exact h
  | succ fuel ih =>
    unfold State.xread
    split
    · exact h
    · exact (translate h).bind fun _ h1 => (ih h1).mapError.bind fun _ h2 => h2

theorem xreadN {c va n} (h : x.Has L) : Gives (fun v => v.2.2.Has L) (x.xreadN c va n) := xread h

theorem strRead {t a n} (h : x.Has L) : Gives (fun v => v.2.Has L) (x.strRead t a n) := by
  unfold State.strRead
  split
  · exact (xreadN h).bind fun _ h2 => by
      split
      · exact h2
  · exact h
  · exact h

theorem moveDword {t src dst} (h : x.Has L) : Gives (Has L) (x.moveDword t src dst) := by
  unfold State.moveDword
  extract_lets u last store
  have hlast : ∀ s, State.Has L s → Gives (Has L) (last s) := fun s h1 => modStream h1
  have hstore : ∀ p : Val × State, p.2.Has L → Gives (Has L) (store p) := by
    rintro ⟨v, s⟩ hp
    dsimp only [store]
    split
    · exact hlast _ (.modStream hp)
    · exact (strWrite hp).bind hlast
  clear_value last store
  split
  · exact hstore _ h
  · exact (strRead h).bind hstore

theorem amoveGo {t src dst n fuel} (h : x.Has L) : (x.amoveGo t src dst n fuel).Has L := by
  induction fuel generalizing x with
  | zero => exact h
  | succ fuel ih =>
    unfold State.amoveGo
    extract_lets u
    split
    · split
      · exact block h
      · exact ih (.modStream (.pushGot h))
    · split
      · exact block h
      · exact ih (.takeEntry h)
    · split
      · exact publish h
      · split
        · exact h
        next hmove => exact ih ((moveDword h).ok hmove)

theorem execAmove {f} (h : x.Has L) : Leaves L (execAmove f x) := strExec (fun _ _ h1 => by
    extract_lets
    split
    · exact h1
    · split
      · exact h1
      · split
        · exact h1
        · split
          · exact h1
          · exact amoveGo h1) h

theorem strParkElem {t i idx v e} (h : x.Has L) : (x.strParkElem t i idx v e).Has L :=
  .report (.modStream (.markLeaves h))

theorem scatterElem {t base size i idx v} (h : x.Has L) : (x.scatterElem t base size i idx v).Has L := .ite h (by
    split
    next e1 =>
      have g1 : State.Has L _ := (Gives.bind_any fun _ => strWrite h).ok e1
      exact .modStream g1
    · exact .strParkElem h)

theorem gatherElem {t base size i idx} (h : x.Has L) : (x.gatherElem t base size i idx).Has L := by
  unfold State.gatherElem
  split
  next e1 =>
    have g1 : State.Has L _ := (Gives.bind_any fun _ => strRead h).ok e1
    exact .modStream g1
  · exact .strParkElem h

theorem settleElem {t scatter base size a5} (h : x.Has L) : (x.settleElem t scatter base size a5).Has L :=
  .ite (.ite (.modStream h) (.scatterElem (.modStream h))) (.ite (.modStream (.modStream h)) (.gatherElem
    (.modStream h)))

theorem nextIdx {t b} (h : x.Has L) : Gives (fun v => v.2.2.Has L) (x.nextIdx t b) := (strRead h).bind fun _ h1 => by
    split
    · exact modStream h1

theorem scatterGo {t base b size n q fuel} (h : x.Has L) : (x.scatterGo t base b size n q fuel).Has L := by
  induction fuel generalizing x with
  | zero => exact h
  | succ fuel ih =>
    unfold State.scatterGo
    extract_lets u v
    split
    · exact ih (.settleElem h)
    · split
      · split
        · exact publish h
        · exact h
      · split
        · split
          · exact block h
          · exact ih (.takeEntry h)
        · split
          · exact h
          next hidx => exact ih (.scatterElem (.modStream ((nextIdx h).ok hidx)))

theorem gatherGo {t base b size n q fuel} (h : x.Has L) : (x.gatherGo t base b size n q fuel).Has L := by
  induction fuel generalizing x with
  | zero => exact h
  | succ fuel ih =>
    unfold State.gatherGo
    extract_lets u v stop
    split
    · exact ih (.settleElem h)
    · split
      · exact publish h
      · split
        · split
          · exact block h
          · exact ih (.modStream (.pushGot h))
        · split
          · exact h
          · split
            · exact h
            next hidx => exact ih (.gatherElem ((nextIdx h).ok hidx))

theorem indexGo {t scatter base b size n q fuel} (h : x.Has L) : (x.indexGo t scatter base b size n q fuel).Has L := by
  unfold State.indexGo
  split
  · exact scatterGo h
  · exact gatherGo h

theorem strIndex {i scatter f} (h : x.Has L) : Leaves L (strIndex i scatter f x) :=
  strExec (fun _ _ h1 => by
    dsimp only
    split
    · exact h1
    · split
      · split
        · exact h1
        · exact h1
        · split
          · exact h1
          · exact indexGo h1
      · exact h1) h

theorem execAgather {f} (h : x.Has L) : Leaves L (execAgather f x) := strIndex h

theorem execAscatter {f} (h : x.Has L) : Leaves L (execAscatter f x) := strIndex h

theorem execAsig {k f} (h : x.Has L) : Leaves L (execAsig k f x) := strExec (fun _ _ h1 => modTeam h1) h

theorem takeSem {t k n} (h : x.Has L) : (x.takeSem t k n).Has L := .acquire (.modTeam h)

theorem execAwait {k f} (h : x.Has L) : Leaves L (execAwait k f x) := strExec (fun _ _ h1 => by
    extract_lets
    split
    · exact takeSem h1
    · exact modTeam h1) h

theorem execAhalt {f} (h : x.Has L) : Leaves L (execAhalt f x) := strExec (fun _ _ h1 => settle (.modStream h1)) h

theorem resumeTeam {t k} (h : x.Has L) : (x.resumeTeam t k).Has L := .foldl (fun _ _ h1 => .resumeCmd h1) h

theorem execTakenWaitResumeBar {job team} (h : x.Has L) : Leaves L (execTakenWaitResumeBar job team x) := by
  unfold Machine.execTakenWaitResumeBar
  extract_lets
  split
  · exact settle (.resumeTeam (.modTeam (.acquire h)))
  · exact h

theorem execCbarComplete {job cohort} (h : x.Has L) : Leaves L (execCbarComplete job cohort x) := by
  unfold Machine.execCbarComplete
  extract_lets
  split
  · exact settle (.foldl (fun _ _ h1 => .resumeTeam (.modTeam (.acquire h1))) h)
  · exact h

theorem execFjoinComplete {job team wave} (h : x.Has L) : Leaves L (execFjoinComplete job team wave x) := by
  unfold Machine.execFjoinComplete
  extract_lets
  split
  · exact resumeCmd (.joinDone h)
  · split
    · exact resumeCmd (.acquire h)
    · exact h

theorem execWsyncRelease {job team wave pc} (h : x.Has L) : Leaves L (execWsyncRelease job team wave pc x) := by
  unfold Machine.execWsyncRelease
  extract_lets
  split
  · exact h
  · exact reimaged (.modWave (.resume h))

theorem execRejoinTimeout {job team wave entry} (h : x.Has L) : Leaves L (execRejoinTimeout job team wave entry x) :=
  reimaged (.modWave h)

theorem finishWait {job team p} (h : x.Has L) : Leaves L (finishWait job team p x) := by
  unfold Machine.finishWait
  split
  · exact doOp h
  · exact h

theorem execSemwaitComplete {job team k} (h : x.Has L) : Leaves L (execSemwaitComplete job team k x) := finishWait h

theorem execAwaitComplete {job team} (h : x.Has L) : Leaves L (execAwaitComplete job team x) := by
  unfold Machine.execAwaitComplete
  extract_lets
  split
  · exact h
  · split
    · split
      · exact strGo (.modStream (.takeSem h))
      · exact h
    · exact h

theorem execStreamOwnerAcquire {job team} (h : x.Has L) : Leaves L (execStreamOwnerAcquire job team x) := by
  unfold Machine.execStreamOwnerAcquire
  extract_lets
  split
  · exact h
  · split
    · exact h
    next e1 =>
      have g1 : State.Has L _ := of_snd (.claim h) e1
      exact g1

theorem execQpopComplete {job team k} (h : x.Has L) : Leaves L (execQpopComplete job team k x) := finishWait h

theorem execQpushComplete {job team k} (h : x.Has L) : Leaves L (execQpushComplete job team k x) := finishWait h

theorem execEngageStart {job team} (h : x.Has L) : Leaves L (execEngageStart job team x) := finishWait h

theorem execRdvComplete {job team} (h : x.Has L) : Leaves L (execRdvComplete job team x) := finishWait h

theorem execStreamFault {job team} (h : x.Has L) : Leaves L (execStreamFault job team x) := by
  unfold Machine.execStreamFault
  extract_lets
  split
  · exact h
  · split
    · exact h
    · split
      · exact h
      · exact strFault h
      · exact strFault h
      · exact strPark h

theorem dqDead {a1} (h : x.Has L) : (x.dqDead a1).Has L := .ite (.raise (.modTeam h)) (.modTeam h)

theorem execDqGrow {job team} (h : x.Has L) : Leaves L (execDqGrow job team x) := by
  unfold Machine.execDqGrow
  extract_lets
  split
  · exact h
  · split
    · exact modTeam h
    · exact foldl (fun _ _ h1 => .dqDead h1) h

theorem copyRead {m k e n i} (h : x.Has L) : (x.copyRead m k e n i).Has L := by
  induction n generalizing x i with
  | zero => exact h
  | succ n ih =>
    unfold State.copyRead
    extract_lets
    split
    · exact (ih h).cons
    · split
      · exact h
      next hok =>
        split
        · trivial
        · exact (ih ((translate h).ok hok)).cons

theorem copyDests {c k e n i} (h : x.Has L) : (x.copyDests c k e n i).2.2.Has L := by
  induction n generalizing x i with
  | zero => exact h
  | succ n ih =>
    unfold State.copyDests
    split
    · exact h
    next hok => exact ih ((translate h).ok hok)

theorem copyWrite {c k poison bs ws g} (h : x.Has L) : (x.copyWrite c k poison bs ws g).2.Has L := by
  induction ws generalizing x g with
  | nil => exact h
  | cons w ws ih =>
    unfold State.copyWrite
    split
    · exact ih h
    next hput => exact ih ((xput h).ok hput)

theorem uncacheAll {c k ws} (h : x.Has L) : (x.uncacheAll c k ws).Has L := .foldl (fun _ _ h1 => by
    split
    · exact .uncache h1
    · exact h1) h

theorem dropCmd {id} (h : x.Has L) : (x.dropCmd id).Has L := h

theorem rouse {old w} (h : x.Has L) : (x.rouse old w).Has L := .ite h (.modLanes h)

theorem settleReg {w l k} (h : x.Has L) : (x.settleReg w l k).Has L := .rouse (.imaged (.modLanes h))

theorem engineWrite {w l k v} (h : x.Has L) : (x.engineWrite w l k v).Has L := .ite (.settleReg (.setRegs h)) h

theorem writeToken {w l k v sig} (h : x.Has L) : (x.writeToken w l k v sig).Has L := .ite (.modLanes (.engineWrite h)) h

theorem endCmd {c v sig} (h : x.Has L) : (x.endCmd c v sig).Has L := by
  unfold State.endCmd
  extract_lets
  split
  · exact .foldl (fun _ _ h2 => .writeToken h2) (.dropCmd h)
  · exact .dropCmd h

theorem copyScr {m k n} (h : x.Has L) : (x.copyScr m k n).Has L := by
  unfold State.copyScr
  split
  · trivial
  next hread => exact (copyRead h).stop hread
  next hread =>
    have hs : State.Has L _ := (copyRead h).all hread
    exact ite (.modTeam (.ite hs (.writeScr hs))) (.ite hs (.writeScr hs))

theorem copyGlob {m k n} (h : x.Has L) : (x.copyGlob m k n).Has L := by
  unfold State.copyGlob
  extract_lets c e start base from_
  split
  next ds bad s hdests =>
    have hs : s.Has L := of_snd_snd (.copyDests h) hdests
    extract_lets hall plain reach held part
    have hpart : ∀ {t : State} {e i bs}, t.Has L → (part t e i bs).Has L := fun h1 => modCmd (.copyWrite h1)
    clear_value part
    split
    · exact hs
    · split
      · trivial
      next hread => exact hpart ((copyRead hs).stop hread)
      next hread =>
        have ht : State.Has L _ := (copyRead hs).all hread
        cases bad with
        | some b => exact hpart ht
        | none => exact uncacheAll (.copyWrite (.copyWrite ht))

theorem copyRun {m k} (h : x.Has L) : (x.copyRun m k).Has L := by
  unfold State.copyRun
  extract_lets n
  split
  · exact copyScr h
  · exact copyGlob h

theorem execCopyComplete {cmd} (h : x.Has L) : Leaves L (execCopyComplete cmd x) := by
  unfold Machine.execCopyComplete
  split
  · exact h
  · split
    next hrun => exact settle (.endCmd ((copyRun h).complete hrun))
    · exact h

theorem suspendCmd {c e} (h : x.Has L) : (x.suspendCmd c e).Has L := .report (.modCmd (.markLeaves h))

theorem execCopyFault {cmd} (h : x.Has L) : Leaves L (execCopyFault cmd x) := by
  unfold Machine.execCopyFault
  split
  · exact h
  · split
    next hrun => exact suspendCmd (.modCmd ((copyRun h).stuck hrun))
    · exact h

theorem fetchGo {c fuel va n} (h : x.Has L) : (x.fetchGo c fuel va n).Has L := by
  induction fuel generalizing x va n with
  | zero => exact h
  | succ fuel ih =>
    unfold State.fetchGo
    split
    · exact h
    · extract_lets
      split
      · trivial
      next hok =>
        split
        · trivial
        · extract_lets
          split
          next hrest => exact (ih ((translate h).ok hok)).got hrest
          · trivial
          · trivial

theorem fetch {c va n} (h : x.Has L) : (x.fetch c va n).Has L := fetchGo h

theorem binDesc {c desc} (h : x.Has L) : Gives (fun v => v.2.Has L) (x.binDesc c desc) := by
  unfold State.binDesc
  split
  · exact trivial
  · exact trivial
  next e1 =>
    have g1 : State.Has L _ := (fetch h).got e1
    extract_lets
    split
    · exact g1
    · exact trivial

theorem binDescs {c rs} (h : x.Has L) : GivesOr (fun v => v.2.Has L) (fun v => v.2.Has L) (x.binDescs c rs) := by
  induction rs generalizing x with
  | nil => exact h
  | cons r rs ih =>
    unfold State.binDescs
    split
    · exact h
    next hok => exact (ih ((binDesc h).ok hok)).bind fun _ h2 => h2

theorem appendRec {c b g r n} (h : x.Has L) : (x.appendRec c b g r n).Has L := by
  unfold State.appendRec
  split
  · exact trivial
  next e1 =>
    have g1 : State.Has L _ := (xput h).ok e1
    split
    · exact trivial
    next e2 =>
      have g2 : State.Has L _ := (xput g1).ok e2
      exact g2

theorem binRecs {c b g n} (h : x.Has L) : (x.binRecs c b g n).Has L := fetch h

theorem bankAtomic {part hpa op n v} (h : x.Has L) : (x.bankAtomic part hpa op n v).Has L := .ite (.writeMem h) h

theorem applyRecs {c b g rs} (h : x.Has L) : Gives (fun v => v.Has L) (x.applyRecs c b g rs) := by
  induction rs generalizing x with
  | nil => exact h
  | cons r rs ih =>
    unfold State.applyRecs
    split
    · exact ih h
    · exact (translate h).bind fun _ h1 => (ih (.ite (.poisonLine (.bankAtomic h1)) (.bankAtomic h1))).mapError

theorem flushBin {c b g n} (h : x.Has L) : (x.flushBin c b g n).Has L := by
  unfold State.flushBin
  split
  · exact trivial
  · exact trivial
  next e1 =>
    have g1 : State.Has L _ := (binRecs h).got e1
    extract_lets
    split
    · exact trivial
    next e2 =>
      have g2 : State.Has L _ := (applyRecs g1).ok e2
      split
      · exact trivial
      next e3 =>
        have g3 : State.Has L _ := (xput g2).ok e3
        exact g3

theorem appendElem {c b op wide off v} (h : x.Has L) : (x.appendElem c b op wide off v).Has L := by
  unfold State.appendElem
  extract_lets r g
  split
  · trivial
  · split
    · trivial
    · trivial
    next hfetch =>
      have ht : State.Has L _ := (fetch h).got hfetch
      extract_lets n
      refine Element.Has.after ?_
      split
      · exact appendRec ht
      · split
        next hflush => exact appendRec ((flushBin ht).ok hflush)
        next hnot => exact flushBin ht

theorem appendAt {a1 bs op wide recs i} (h : x.Has L) : (x.appendAt a1 bs op wide recs i).Has L := by
  unfold State.appendAt
  split
  · exact appendElem h

theorem parkElement {c i e} (h : x.Has L) : (x.parkElement c i e).Has L := .report (.modCmd (.markLeaves h))

theorem execIndexElementPark {cmd element} (h : x.Has L) : Leaves L (execIndexElementPark cmd element x) := by
  unfold Machine.execIndexElementPark
  split
  · exact h
  · split
    · extract_lets
      split
      · exact h
      · split
        · exact h
        next e3 =>
          have g3 : State.Has L _ := (binDescs h).ok e3
          split
          · exact parkElement g3
          · exact h
    · exact h

theorem out {w : Worked} (hw : w.Has L) (h : x.Has L) : Leaves L (w.out x) := by
  cases w with
  | ok s => exact settle hw
  | stop e => exact h
  | partly s e => exact h
  | later => exact h

theorem tookTurn {cluster ctx} (h : x.Has L) : (x.tookTurn cluster ctx).Has L := h

theorem tileDone {vf cluster ctx n} (h : x.Has L) : (x.tileDone vf cluster ctx n).Has L := .tookTurn (.tally h)

theorem runMma {c a2 k fs kc rows a b} (h : x.Has L) : (x.runMma c a2 k fs kc rows a b).Has L :=
  Fetched.Has.bind (fetch h) fun _ _ h1 => Fetched.Has.bind (fetch h1) fun _ _ h2 => endCmd (.tileDone (.setAcc h2))

theorem mmaWork {id} (h : x.Has L) : (x.mmaWork id).Has L := by
  unfold State.mmaWork
  split
  · split
    · split
      · exact runMma h
      · exact trivial
    · exact trivial
  · exact trivial

theorem execMmaComplete {cmd} (h : x.Has L) : Leaves L (execMmaComplete cmd x) := out (mmaWork h) h

theorem fetchVec {c a} (h : x.Has L) : (x.fetchVec c a).Has L := by
  unfold State.fetchVec
  split
  · exact h
  · exact fetch h

theorem xputs {c ps g} (h : x.Has L) : Gives (fun v => v.2.Has L) (x.xputs c ps g) := by
  induction ps generalizing x g with
  | nil => exact h
  | cons p ps ih =>
    unfold State.xputs
    exact (xput h).bind fun _ h1 => (ih h1).mapError

theorem runDrain {c k slot fs rows a rowv colv} (h : x.Has L) : (x.runDrain c k slot fs rows a rowv colv).Has L :=
  Fetched.Has.bind (fetchVec h) fun rv s hs => Fetched.Has.bind (fetchVec hs) fun cv s ht => by
    extract_lets
    split
    · trivial
    next hput =>
      exact reimaged (.resume (.endCmd (.tileDone (.modLanes (.acquire (.foldl (fun _ _ h1 => .setRegs h1)
        ((xputs ht).ok hput)))))))

theorem drainWork {id} (h : x.Has L) : (x.drainWork id).Has L := by
  unfold State.drainWork
  split
  · split
    · split
      · exact runDrain h
      · exact trivial
    · exact trivial
  · exact trivial

theorem execAccdrainComplete {cmd} (h : x.Has L) : Leaves L (execAccdrainComplete cmd x) := out (drainWork h) h

theorem saveCtx {job cluster} (h : x.Has L) : (x.saveCtx job cluster).Has L := by
  unfold State.saveCtx
  split
  · exact h
  · extract_lets part here held bs
    split
    next image s hstored =>
      suffices hs : s.Has L from hs
      refine of_snd ?_ hstored
      cases x.freeEntry part cluster with
      | none => exact h
      | some i =>
        cases x.ctxHole part cluster (roundUp bs.length 128) with
        | none => exact h
        | some off =>
          dsimp only
          refine .saveWrite ?_
          refine .setDir ?_
          exact h

theorem execJobLeaveEngine {job cluster} (h : x.Has L) : Leaves L (execJobLeaveEngine job cluster x) := by
  unfold Machine.execJobLeaveEngine
  extract_lets
  split
  · exact h
  · split
    · exact dispatchAll h
    · split
      · exact h
      · exact settle (.saveCtx h)

theorem execBinDispatchTimer {bin} (h : x.Has L) : Leaves L (execBinDispatchTimer bin x) := by
  unfold Machine.execBinDispatchTimer
  split
  · split
    · exact dispatchAll h
    · exact h
  · exact h

theorem execBinDispatchBlocked {cluster} (h : x.Has L) : Leaves L (execBinDispatchBlocked cluster x) := by
  unfold Machine.execBinDispatchBlocked
  extract_lets
  split
  · exact dispatchAll h
  · exact h

theorem execBelfryLoad {cluster vf handle} (h : x.Has L) : Leaves L (execBelfryLoad cluster vf handle x) := by
  unfold Machine.execBelfryLoad
  dsimp only
  split
  · exact h
  · cases x.handleEntry vf handle with
    | none => exact h
    | some e => exact bringIn (cluster := cluster) (a2 := e) h

theorem runLayer {b} (h : x.Has L) : (x.runLayer b).Has L := by
  unfold State.runLayer
  extract_lets
  split
  · exact .tileDone h
  · exact h

theorem engineWriteVal {w l k v} (h : x.Has L) : (x.engineWriteVal w l k v).Has L := .ite (.setRegs (.engineWrite h)) h

theorem finishCall {b c} (h : x.Has L) : (x.finishCall b c).Has L := by
  unfold State.finishCall
  split
  · exact .engineWrite (.foldl (fun _ _ h2 => .engineWriteVal h2) h)

theorem tileCall {b c} (h : x.Has L) : (x.tileCall b c).Has L :=
  .ite (.ite (.runLayer h) h) (.finishCall (.ite (.runLayer h) h))

theorem execNcallComplete {cmd} (h : x.Has L) : Leaves L (execNcallComplete cmd x) := by
  unfold Machine.execNcallComplete
  split
  · exact h
  · split
    · split
      · exact settle (.tileCall h)
      · exact h
    · exact h

theorem contiguous {c va hpa ps} (h : x.Has L) : (x.contiguous c va hpa ps).2.Has L := by
  induction ps generalizing x with
  | nil => exact h
  | cons p ps ih =>
    unfold State.contiguous
    split
    next hok =>
      split
      · exact ih ((translate h).ok hok)
      · exact (translate h).ok hok
    · exact .markLeaves h

theorem trimPins {vf handle} (h : x.Has L) : (x.trimPins vf handle).Has L := h

theorem cmdReport {c code sub addr} (h : x.Has L) : (x.cmdReport c code sub addr).Has L := .report h

theorem bindError {c e} (h : x.Has L) : (x.bindError c e).Has L := markLeaves h

theorem checkSet {c addr} (h : x.Has L) : (x.checkSet c addr).Has L := by
  unfold State.checkSet
  extract_lets y a
  split
  · trivial
  · exact bindError h
  next hhead =>
    have hs : State.Has L _ := (fetch h).got hhead
    extract_lets hd
    split
    · exact hs
    · split
      · trivial
      · exact bindError hs
      next hset =>
        have ht : State.Has L _ := (fetch hs).got hset
        split
        · exact ht
        · split
          · exact bindError ht
          next hok =>
            have hu : State.Has L _ := (translate ht).ok hok
            split
            next hpages => exact of_snd (.contiguous hu) hpages
            next hpages => exact of_snd (.contiguous hu) hpages

theorem wbindStep {c handle addr} (h : x.Has L) : (x.wbindStep c handle addr).Has L := by
  have hk : (x.checkSet c addr).Has L := checkSet h
  unfold State.wbindStep
  extract_lets vf checked
  dsimp only [checked]
  generalize x.checkSet c addr = k at hk ⊢
  cases k with
  | later => exact h
  | good hpa size s =>
    exact .ite (.dispatchAll hk) (.ite hk (.settle (.resumeCmd (.endCmd (.trimPins hk)))))
  | bad code sub a s =>
    exact .ite (.dispatchAll hk) (.ite hk (.settle (.resumeCmd (.endCmd (.cmdReport hk)))))

theorem execWbindComplete {cmd} (h : x.Has L) : Leaves L (execWbindComplete cmd x) := by
  unfold Machine.execWbindComplete
  split
  · split
    · exact wbindStep h
    · exact h
  · exact h

theorem gramEnd {c code gp sig} (h : x.Has L) : (x.gramEnd c code gp sig).Has L := .endCmd (.ite (.setRegs h) h)

theorem gword {c va} (h : x.Has L) : GivesOr (fun v => v.2.Has L) (fun v => v.2.Has L) (x.gword c va) := by
  unfold State.gword
  split
  next e1 =>
    have g1 : State.Has L _ := (fetch h).got e1
    exact g1
  · exact h
  · exact h

theorem gwords {c n va} (h : x.Has L) : GivesOr (fun v => v.2.Has L) (fun v => v.2.Has L) (x.gwords c n va) := by
  induction n generalizing x va with
  | zero => exact h
  | succ n ih =>
    unfold State.gwords
    exact (gword h).bind fun _ h1 => (ih h1).bind fun _ h2 => h2

theorem runSyms {g i} (h : x.Has L) : GivesOr (fun v => v.2.2.2.Has L) (fun v => v.2.Has L) (x.runSyms g i) :=
  (gword h).bind fun _ h1 => by
    split
    · exact (gword h1).bind fun _ h3 => by
        split
        · split
          · split
            · exact h3
            · exact h3
          · exact (gwords h3).bind fun _ h5 => by
              split
              · exact h5

theorem addends {g rules v ws} (h : x.Has L) :
    GivesOr (fun v => v.2.2.Has L) (fun v => v.2.Has L) (x.addends g rules v ws) := by
  induction ws generalizing x with
  | nil => exact h
  | cons w ws ih =>
    unfold State.addends
    extract_lets rest
    have hrest : ∀ p : Fp × Bool × State, p.2.2.Has L →
        GivesOr (fun v => v.2.2.Has L) (fun v => v.2.Has L) (rest p) := fun _ h1 => (ih h1).bind fun _ h2 => h2
    clear_value rest
    split
    · exact hrest _ h
    · exact (gword h).bind fun _ h1 => hrest _ h1

theorem runVals {g rules ws n v} (h : x.Has L) :
    GivesOr (fun v => v.2.Has L) (fun v => v.2.Has L) (x.runVals g rules ws n v) := by
  induction n generalizing x v with
  | zero => exact h
  | succ n ih =>
    unfold State.runVals
    exact (addends h).bind fun _ h1 => (ih h1).bind fun _ h2 => h2

theorem tallySyms {g ws} (h : x.Has L) : (x.tallySyms g ws).Has L := .tally h

theorem oneRule {g i rules} (h : x.Has L) :
    GivesOr (fun v => v.2.2.Has L) (fun v => v.2.Has L) (x.oneRule g i rules) := by
  unfold State.oneRule
  refine (runSyms h).bind fun p h1 => ?_
  obtain ⟨ws, first, rev, s⟩ := p
  refine (GivesOr.any_mapError (Q := fun v : GStop × State => v.2.Has L) fun _ => h1).bind fun _ _ => ?_
  dsimp only
  split
  · exact h1
  · exact (runVals h1).bind fun _ h2 => tallySyms h2

theorem phase1 {g n i rules gp} (h : x.Has L) : (x.phase1 g n i rules gp).2.2.2.Has L := by
  induction n generalizing x i rules gp with
  | zero => exact h
  | succ n ih =>
    unfold State.phase1
    split
    next hbad => exact (oneRule h).error hbad
    next hok => exact ih ((oneRule h).ok hok)

theorem rowVals {g rules r} (h : x.Has L) :
    GivesOr (fun v => v.2.2.Has L) (fun v => v.2.Has L) (x.rowVals g rules r) := by
  unfold State.rowVals
  split
  · refine (runSyms h).bind fun p h1 => ?_
    obtain ⟨ws, first, rev, s⟩ := p
    refine (GivesOr.any_mapError (Q := fun v : GStop × State => v.2.Has L) fun _ => h1).bind fun _ _ => ?_
    exact (runVals h1).bind fun _ h2 => tallySyms h2
  · refine (gword h).bind fun p h1 => ?_
    split
    split
    · exact h1
    · split
      · exact h1
      · exact h1

theorem putRow {g o r zero v vs sig} (h : x.Has L) : (x.putRow g o r zero v vs sig).2.2.Has L := by
  induction vs generalizing x v sig with
  | nil => exact h
  | cons a vs ih =>
    unfold State.putRow
    split
    · exact h
    next hput => exact ih ((xput h).ok hput)

theorem putWords {g ws} (h : x.Has L) : (x.putWords g ws).Has L := .foldl (fun _ _ h1 => by
    split
    next e2 =>
      have g2 : State.Has L _ := (xput h1).ok e2
      exact g2
    · exact h1) h

theorem phase2 {g o desc rules n r hand gp sig} (h : x.Has L) : (x.phase2 g o desc rules n r hand gp sig).s.Has L := by
  induction n generalizing x r hand gp sig with
  | zero => exact h
  | succ n ih =>
    unfold State.phase2
    extract_lets row
    have hrow : GivesOr (fun v => v.2.2.Has L) (fun v => v.2.Has L) row := by
      cases hand with
      | some y => exact h
      | none => exact rowVals h
    clear_value row
    split
    · exact hrow
    · have hs : State.Has L _ := hrow
      split
      next hput => exact of_snd_snd (.putRow hs) hput
      next hput => exact ih (of_snd_snd (.putRow hs) hput)

theorem gramRun {g p desc sig o} (h : x.Has L) : (x.gramRun g p desc sig o).s.Has L := by
  unfold State.gramRun
  extract_lets ends
  split
  · exact h
  · split
    · exact h
    · have hrules : ∀ {n i rules gp}, ((if g.d.csr then (none, [], p.growPtr, x) else x.phase1 g n i rules gp :
          Option GStop × List Rule × Bool × State)).2.2.2.Has L := by
        intro n i rules gp
        split
        · exact h
        · exact .phase1 h
      split
      next hph => exact of_snd_snd_snd hrules hph
      next hph => exact phase2 (.putWords (of_snd_snd_snd hrules hph))

theorem gramEval {c part sig k desc b istride trapen vf unit o} (h : x.Has L) :
    (x.gramEval c part sig k desc b istride trapen vf unit o).s.Has L := by
  unfold State.gramEval
  extract_lets p ends ctx
  split
  · exact gramRun h
  · split
    · exact h
    · exact h
    next hfetch => exact gramRun ((fetch h).got hfetch)

theorem gramWork {id} (h : x.Has L) : (x.gramWork id).Has L := by
  unfold State.gramWork
  split
  · split
    · split
      · trivial
      · split
        · exact gramEnd (.cmdReport h)
        · extract_lets slot c o e
          have he : e.s.Has L := gramEval h
          clear_value e
          split
          · exact modCmd he
          · trivial
          · exact gramEnd (.cmdReport he)
          · exact gramEnd he
    · trivial
  · trivial

theorem execGrammarComplete {cmd} (h : x.Has L) : Leaves L (execGrammarComplete cmd x) := out (gramWork h) h

theorem appendAll {c bs op wide recs is} (h : x.Has L) : (x.appendAll c bs op wide recs is).2.Has L := by
  induction is generalizing x with
  | nil => exact h
  | cons i is ih =>
    unfold State.appendAll
    split
    next hok => exact ih ((appendAt h).ok hok)
    · exact ih h

theorem binappWork {id} (h : x.Has L) : (x.binappWork id).Has L := by
  unfold State.binappWork
  split
  · split
    · split
      · exact trivial
      · split
        · exact endCmd (.cmdReport h)
        · extract_lets
          split
          next e3 =>
            have g3 : State.Has L _ := (binDescs h).error e3
            exact g3
          · exact trivial
          next e3 =>
            have g3 : State.Has L _ := (binDescs h).error e3
            exact endCmd (.cmdReport g3)
          next e3 =>
            have g3 : State.Has L _ := (binDescs h).ok e3
            split
            next e4 =>
              have g4 : State.Has L _ := of_snd (.appendAll g3) e4
              extract_lets
              split
              · exact endCmd g4
              · exact modCmd g4
    · exact trivial
  · exact trivial

theorem execBinappAppend {cmd} (h : x.Has L) : Leaves L (execBinappAppend cmd x) := out (binappWork h) h

theorem allHall {c va n hall} (h : x.Has L) :
    GivesOr (fun v => v.2.Has L) (fun v => v.2.Has L) (x.allHall c va n hall) := by
  unfold State.allHall
  refine GivesOr.foldlM (P := fun v : Bool × State => v.2.Has L) (fun b p hb => ?_) h
  split
  split
  · exact hb
  · exact touch hb

theorem replay {c b g stage} (h : x.Has L) : (x.replay c b g stage).Has L :=
  Fetched.Has.bind (fetch h) fun _ _ h1 => Fetched.Has.bind (binRecs h1) fun _ _ h2 =>
    Fetched.Has.bind (fetch h2) fun _ _ h3 => by
      extract_lets
      split
      · trivial
      next hput => exact endCmd ((xputs h3).ok hput)

theorem replayWork {id} (h : x.Has L) : (x.replayWork id).Has L := by
  unfold State.replayWork
  split
  · split
    · split
      · exact trivial
      · split
        · exact modCmd h
        · split
          · exact trivial
          · split
            · exact endCmd (.cmdReport h)
            · split
              · exact trivial
              · exact trivial
              · exact endCmd (.cmdReport h)
              next e3 =>
                have g3 : State.Has L _ := (binDesc h).ok e3
                split
                · exact endCmd g3
                · split
                  next e4 =>
                    have g4 : State.Has L _ := (allHall g3).error e4
                    exact g4
                  next e4 =>
                    have g4 : State.Has L _ := (allHall g3).ok e4
                    exact endCmd g4
                  next e4 =>
                    have g4 : State.Has L _ := (allHall g3).ok e4
                    exact replay g4
    · exact trivial
  · exact trivial

theorem execBinreplayComplete {cmd} (h : x.Has L) : Leaves L (execBinreplayComplete cmd x) := out (replayWork h) h

theorem wellFormed {c desc w} (h : x.Has L) :
    GivesOr (fun v => v.2.Has L) (fun v => v.2.Has L) (x.wellFormed c desc w) := by
  unfold State.wellFormed
  split
  · exact h
  · exact (allHall h).bind fun _ h1 => by
      split
      · exact (allHall h1).bind fun _ h3 => by
          split
          · exact (allHall h3).bind fun _ h5 => by
              split
              · exact (allHall h5).bind fun _ h7 => by
                  split
                  · exact h7

theorem listResults {c d v} (h : x.Has L) : (x.listResults c d v).Has L :=
  .reimaged (.resume (.endCmd (.foldl (fun _ _ h1 => .ite (.setRegs h1) h1) h)))

end State.Has

/-- The fact, of a command's work on a list. -/
def WWork.Has (L : Lasting) (k : WWork) : Prop := k.s.Has L

namespace WWork.Has

variable {L : Lasting} {k k' : WWork}

theorem ite {c : Prop} [Decidable c] (h : k.Has L) (g : k'.Has L) : (if c then k else k').Has L := by
  split
  · exact h
  · exact g

theorem of_snd {α : Type} {p : α × WWork} {a : α} (h : p.2.Has L) (e : p = (a, k)) : k.Has L := by
  subst e
  exact h

theorem foldl {α : Type} {f : WWork → α → WWork} {as : List α} (hf : ∀ k a, WWork.Has L k → (f k a).Has L)
    (h : k.Has L) : (as.foldl f k).Has L := by
  induction as generalizing k with
  | nil => exact h
  | cons a as ih => exact ih (hf _ _ h)

theorem withList {w} (h : k.Has L) : ({ k with w := w } : WWork).Has L := h

theorem set {va n v} (h : k.Has L) : (k.set va n v).Has L := by
  unfold WWork.set
  split
  next hput => exact (State.Has.xput h).ok hput
  · exact h

theorem toRing {v} (h : k.Has L) : (k.toRing v).Has L := .withList (.set h)

theorem append {v} (h : k.Has L) : (k.append v).Has L := .ite (.toRing h) (.withList (.set h))

theorem refill (h : k.Has L) : k.refill.Has L :=
  .withList (.foldl (fun _ _ h1 => .set h1) (.foldl (fun _ _ h1 => .toRing h1) h))

theorem push {v} (h : k.Has L) : (k.push v).Has L := .ite (.withList h) (.ite (.append (.refill h)) (.append h))

theorem insert {key} (h : k.Has L) : (k.insert key).2.Has L := by
  unfold WWork.insert
  split
  · exact h
  · extract_lets at_ old
    split
    · exact h
    · split
      · exact .push (.set h)
      · exact .push h

theorem insertAll {keys} (h : k.Has L) : (k.insertAll keys).2.Has L := by
  induction keys generalizing k with
  | nil => exact h
  | cons key keys ih => exact ih (.insert h)

theorem pop (h : k.Has L) : May (fun v => v.2.Has L) k.pop := by
  have hr : (if k.w.held = 0 && k.w.scount > 0 then k.refill else k).Has L := .ite (.refill h) h
  unfold WWork.pop
  extract_lets k0 v k1
  have hk : k0.Has L := hr
  clear_value k0
  split
  · trivial
  · exact .ite (.refill (.withList hk)) (.withList hk)

/-- What each step of a recursion on a number keeps holds of its result. It serves `WWork.popN` through its body: unfolding
`popN` at a successor makes the kernel evaluate `pop`, whose counts lie above 2 ^ 32. -/
theorem brecOn_holds {β : Type} {F : ∀ n, Nat.below (motive := fun _ => β) n → β} {Q : β → Prop}
    (hF : ∀ n b, (∀ m, (e : n = m + 1) → Q (e ▸ b : Nat.below (motive := fun _ => β) (m + 1)).1) → Q (F n b)) (n : Nat) :
    Q (Nat.brecOn n F) := by
  induction n with
  | zero => exact hF 0 _ fun m e => nomatch e
  | succ n ih => exact hF (n + 1) _ fun m e => by cases e; exact ih

theorem popN {n} (h : k.Has L) : (k.popN n).2.Has L := by
  delta WWork.popN
  refine brecOn_holds (F := WWork.popN._f) (Q := fun f => ∀ k : WWork, k.Has L → (f k).2.Has L) ?_ n k h
  intro n b hb k h
  delta WWork.popN._f
  have hk : May (fun v : Nat × WWork => v.2.Has L) k.pop := pop h
  generalize k.pop = o at hk ⊢
  cases o with
  | none =>
    cases n with
    | zero => exact h
    | succ m => exact h
  | some v =>
    cases n with
    | zero => exact h
    | succ m => exact hb m rfl _ hk

theorem close {desc loc old sig rel} (h : k.Has L) : (k.close desc loc old sig rel).Has L := by
  unfold WWork.close
  extract_lets k0
  have hk : k0.s.Has L := set h
  clear_value k0
  split
  · exact hk
  · split
    · exact .putSig hk
    · exact .putSig hk
    · exact hk

end WWork.Has

namespace State.Has

variable {L : Lasting} {x y : State}

theorem listRun {c desc} (h : x.Has L) : (x.listRun c desc).Has L := by
  unfold State.listRun
  extract_lets y a
  refine Fetched.Has.bind (fetch h) fun bs s hs => ?_
  extract_lets w
  split
  next hbad => exact (wellFormed hs).error hbad
  next hok =>
    have ht : State.Has L _ := (wellFormed hs).ok hok
    extract_lets
    split
    · exact listResults (.cmdReport ht)
    · exact listResults (.cmdReport ht)
    · exact resumeCmd (.endCmd (.cmdReport ht))
    · exact endCmd (.cmdReport ht)
  next hok =>
    have ht : State.Has L _ := (wellFormed hs).ok hok
    extract_lets loc old k
    have hk : k.Has L := ht
    clear_value k
    split
    · exact resumeCmd (.endCmd (WWork.Has.close (.withList (.foldl (fun _ _ h1 => .set h1) hk))))
    · exact endCmd (WWork.Has.close (.foldl (fun _ _ h1 => .push h1) hk))
    · split
      next ds k' hins =>
        have hk' : k'.s.Has L := WWork.Has.of_snd (.insertAll hk) hins
        extract_lets rel
        split
        next sig s hsig =>
          have hs : s.Has L := of_snd (.ite_snd (.takeSig hk') hk') hsig
          exact listResults (WWork.Has.close (k := { k' with s := s }) hs)
    · split
      next vs k' hpop =>
        have hk' : k'.Has L := .of_snd (.popN hk) hpop
        extract_lets s t
        have hs : s.Has L := WWork.Has.close hk'
        clear_value s
        exact listResults (.ite hs (.acquire hs))
    · trivial

theorem listWork {id} (h : x.Has L) : (x.listWork id).Has L := by
  unfold State.listWork
  split
  · split
    · extract_lets
      split
      · exact listRun h
      · exact trivial
    · exact trivial
  · exact trivial

theorem execWorklistApply {cmd} (h : x.Has L) : Leaves L (execWorklistApply cmd x) := out (listWork h) h

theorem addSlot {part vf queue} (h : x.Has L) : (x.addSlot part vf queue).Has L := h

theorem setPend {vf queue b} (h : x.Has L) : (x.setPend vf queue b).Has L := .writePhys h

theorem wantSlot {vf queue} (h : x.Has L) : (x.wantSlot vf queue).Has L := .ite h (.ite (.addSlot h) (by
      split
      · exact .addSlot (.setPend h)
      · exact .irq (.setVf (.setPend h))))

theorem putTail {vf queue v} (h : x.Has L) : (x.putTail vf queue v).Has L := .writePhys h

theorem enqOne {c queue addr} (h : x.Has L) : May (fun v => v.2.Has L) (x.enqOne c queue addr) := by
  unfold State.enqOne
  extract_lets
  split
  · exact h
  · split
    · exact h
    · split
      · exact trivial
      · exact cmdReport h
      next e1 =>
        have g1 : State.Has L _ := (fetch h).got e1
        split
        · split
          · exact g1
          · split
            · exact g1
            · split
              · exact cmdReport g1
              next e3 =>
                have g3 : State.Has L _ := (xput g1).ok e3
                exact wantSlot (.putTail g3)

theorem enqAll {c rs} (h : x.Has L) : May (fun v => v.2.Has L) (x.enqAll c rs) := by
  induction rs generalizing x with
  | nil => exact h
  | cons r rs ih =>
    unfold State.enqAll
    split
    · trivial
    next hone =>
      split
      · trivial
      next hrest =>
        have hs : State.Has L _ := (ih ((enqOne h).some hone)).some hrest
        exact hs

theorem execEnqComplete {cmd} (h : x.Has L) : Leaves L (execEnqComplete cmd x) := by
  unfold Machine.execEnqComplete
  split
  · split
    · split
      · exact h
      next e3 =>
        have g3 : State.Has L _ := (enqAll h).some e3
        exact settle (.listResults g3)
    · exact h
  · exact h

theorem collEnd {c dst bs poison code} (h : x.Has L) : (x.collEnd c dst bs poison code).Has L := by
  unfold State.collEnd
  split
  · exact trivial
  next e1 =>
    have g1 : State.Has L _ := (xputs h).ok e1
    exact endCmd g1

theorem collWork {id peers} (h : x.Has L) : (x.collWork id peers).Has L := by
  unfold State.collWork
  split
  · split
    · extract_lets e c
      split
      · trivial
      · refine Fetched.Has.bind (fetch h) fun _ _ h1 => ?_
        extract_lets
        split
        · exact endCmd (.cmdReport h1)
        · refine Fetched.Has.bind (fetch h1) fun _ _ h2 => ?_
          extract_lets
          split
          · exact endCmd (.cmdReport h2)
          · refine Fetched.Has.bind (fetch h2) fun _ _ h3 => ?_
            extract_lets
            split
            · trivial
            · split
              · exact collEnd h3
              · split
                · trivial
                · exact collEnd h3
    · trivial
  · trivial

theorem execCollComplete {cmd peers} (h : x.Has L) : Leaves L (execCollComplete cmd peers x) := by
  have hw : (x.collWork cmd peers).Has L := collWork h
  have hs : Leaves L (.next (x.dropCmd cmd).settle) := settle (dropCmd h)
  unfold Machine.execCollComplete
  generalize x.collWork cmd peers = w at hw ⊢
  cases hc : x.cmd? cmd with
  | none => exact out hw h
  | some c =>
    cases w with
    | stop e =>
      dsimp only
      split
      · exact hs
      · exact h
    | partly s e =>
      dsimp only
      split
      · exact hs
      · exact h
    | ok s => exact out hw h
    | later => exact out hw h

theorem rayEnd {c n out code} (h : x.Has L) : (x.rayEnd c n out code).Has L :=
  .endCmd (.engineWriteVal (.engineWriteVal h))

theorem eachChild {visit take bs n k} (hvisit : ∀ kind i s, State.Has L s → (visit kind i s).Has L) (h : x.Has L) :
    (eachChild visit take bs n k x).Has L := by
  induction n generalizing x k with
  | zero => exact h
  | succ n ih =>
    unfold Machine.eachChild
    extract_lets w kind
    split
    · exact h
    · split
      · exact ih h
      · have hv := hvisit kind (w % 2 ^ 30) x h
        generalize visit kind (w % 2 ^ 30) x = r at hv ⊢
        cases r with
        | hits hs p s =>
          have hr : (Machine.eachChild visit take bs n (k + 1) s).Has L := ih hv
          dsimp only
          generalize Machine.eachChild visit take bs n (k + 1) s = r at hr ⊢
          cases r with
          | hits hs' p' s' => exact hr
          | bad s' => exact hr
          | stop e => exact hr
          | later => exact hr
        | bad s => exact hv
        | stop e => exact hv
        | later => exact hv

theorem trace {c root r cull depth kind index} (h : x.Has L) :
    (State.trace c root r cull depth kind index x).Has L := by
  induction depth generalizing x kind index with
  | zero => exact h
  | succ depth ih =>
    unfold State.trace
    split
    · trivial
    · trivial
    next hfetch =>
      have hs : State.Has L _ := (fetch h).got hfetch
      extract_lets poisoned take
      split
      · exact hs
      · split
        next hall => exact (eachChild (fun _ _ _ h1 => ih h1) hs).hits hall
        · exact eachChild (fun _ _ _ h1 => ih h1) hs

theorem rayWork {id} (h : x.Has L) : (x.rayWork id).Has L := by
  unfold State.rayWork
  split
  · split
    · split
      · exact trivial
      · split
        · exact rayEnd h
        · exact rayEnd h
        · split
          · exact trivial
          · exact trivial
          next e4 =>
            have g4 : State.Has L _ := (trace h).bad e4
            exact rayEnd g4
          next e4 =>
            have g4 : State.Has L _ := (trace h).hits e4
            exact rayEnd g4
    · exact trivial
  · exact trivial

theorem execRayqComplete {cmd} (h : x.Has L) : Leaves L (execRayqComplete cmd x) := out (rayWork h) h

theorem work {c} (h : x.Has L) : (x.work c).Has L := by
  unfold State.work
  split
  · exact mmaWork h
  · exact drainWork h
  · exact gramWork h
  · exact binappWork h
  · exact replayWork h
  · exact listWork h
  · exact listWork h
  · exact listWork h
  · exact listWork h
  · exact rayWork h
  · exact collWork h
  · exact trivial
  · exact trivial
  · exact trivial

theorem execCommandTranslationFault {cmd} (h : x.Has L) : Leaves L (execCommandTranslationFault cmd x) := by
  unfold Machine.execCommandTranslationFault
  split
  · exact h
  · split
    · exact h
    · split
      · exact suspendCmd h
      next e2 =>
        have g2 : State.Has L _ := (work h).partly e2
        exact suspendCmd g2
      · exact h

theorem remoteAck {a1 v} (h : x.Has L) : (x.remoteAck a1 v).Has L :=
  .ite (.ite (.reimaged (.resume (.ite (.acquire (.setRegs h)) (.setRegs h)))) (.ite (.acquire (.setRegs h))
    (.setRegs h))) h

theorem remoteRefuse {a1} (h : x.Has L) : (x.remoteRefuse a1).Has L :=
  .ite h (.ite (.settle (.refusalRecord (.remoteAck h))) (by
      split
      · exact h
      · exact .raiseRun h))

theorem execRemoteTimeout {job team wave lane hpa write} (h : x.Has L) :
    Leaves L (execRemoteTimeout job team wave lane hpa write x) := by
  unfold Machine.execRemoteTimeout
  split
  · split
    · exact h
    · exact remoteRefuse h
  · exact h

theorem serve {p hpa k} (h : x.Has L) : (x.serve p hpa k).Has L := by
  unfold State.serve
  split
  · exact h
  · exact .writePhys h
  · exact .putSigs (.writeMem h)
  · exact .ite h (.ite (.putSigs (.writeMem h)) (.writeMem h))

theorem execRemoteRequest {dev part hpa k} (h : x.Has L) : Leaves L (execRemoteRequest dev part hpa k x) := by
  unfold Machine.execRemoteRequest
  split
  · exact h
  · split
    · exact serve h
    · exact h

theorem execL1LineExpire {core line} (h : x.Has L) : Leaves L (execL1LineExpire core line x) := by
  unfold Machine.execL1LineExpire
  split
  · exact h
  · exact h

theorem execRegisterFileError {job team wave lane r} (h : x.Has L) :
    Leaves L (execRegisterFileError job team wave lane r x) := by
  unfold Machine.execRegisterFileError
  extract_lets
  split
  · exact h
  · exact putRegs h

theorem execStarvationPromote {job team wave pc} (h : x.Has L) :
    Leaves L (execStarvationPromote job team wave pc x) := by
  unfold Machine.execStarvationPromote
  extract_lets
  split
  · exact modWave h
  · exact h

theorem execGuardExpire {job team} (h : x.Has L) : Leaves L (execGuardExpire job team x) := by
  unfold Machine.execGuardExpire
  extract_lets
  split
  · exact modTeam h
  · exact h

end State.Has
end Sys2Proof.Machine

namespace Sys2Proof.Machine
open Sys2Proof
namespace State.Has

variable {L : Lasting} {x y : State}

/-! #### Cards, draws, management, boot, and what a step performs -/

theorem cardRecord {vf part jobid code sub addr} (h : x.Has L) : (x.cardRecord vf part jobid code sub addr).Has L :=
  .report h

theorem startJob {vf queue idx addr card asd reject} (hg : L.Grows) (h : x.Has L) :
    (x.startJob vf queue idx addr card asd reject).Has L := by
  cases reject with
  | none => exact hg _ _ _ h
  | some e => exact .cardRecord (hg _ _ _ h)

theorem putHead {vf queue v} (h : x.Has L) : (x.putHead vf queue v).Has L := .writePhys h

theorem giveSlot {part} (h : x.Has L) : (x.giveSlot part).Has L := .ite h (by
  extract_lets
  split
  · exact h
  next v q _ _ => exact addSlot (part := part) (vf := v) (queue := q) (.setPend (vf := v) (queue := q) (b := false) h))

theorem releaseSlot {vf queue} (h : x.Has L) : (x.releaseSlot vf queue).Has L := .ite (.giveSlot h) h

theorem xreadNat {c va n} (h : x.Has L) : Gives (fun v => v.2.Has L) (x.xreadNat c va n) :=
  (xreadN h).bind fun _ h1 => by
    split
    · exact h1

theorem readCard {c addr} (h : x.Has L) : Gives (fun v => v.2.Has L) (x.readCard c addr) := xreadNat h

theorem execCardLaunch {vf queue} (hg : L.Grows) (h : x.Has L) : Leaves L (execCardLaunch vf queue x) := by
  unfold Machine.execCardLaunch
  extract_lets
  split
  · exact h
  · split
    · exact settle (.releaseSlot (.putHead (.startJob hg (.markLeaves h))))
    next e1 =>
      have g1 : State.Has L _ := (readCard h).ok e1
      split
      · exact g1
      · exact settle (.releaseSlot (.putHead (.startJob hg g1)))

theorem execEarlyLaunch {job} (hg : L.Grows) (h : x.Has L) : Leaves L (execEarlyLaunch job x) := by
  unfold Machine.execEarlyLaunch
  split
  · exact h
  · split
    · exact h
    · extract_lets
      split
      · exact filterJobs (.modJob (.startJob hg (.markLeaves h)))
      next e2 =>
        have g2 : State.Has L _ := (readCard h).ok e2
        split
        · exact g2
        · exact filterJobs (.modJob (.startJob hg g2))

theorem recordCompletion {vf queue id status idx} (h : x.Has L) : (x.recordCompletion vf queue id status idx).Has L :=
  .ite h (.report h)

theorem recordJob {j} (h : x.Has L) : (x.recordJob j).Has L := by
  unfold State.recordJob
  extract_lets
  split
  · exact .recordCompletion (.modJob h)
  · exact .ite (.modJob h) (.cardRecord (.modJob h))

theorem forgetJob {job} (h : x.Has L) : (x.forgetJob job).Has L := .filterTeams h

theorem finishJob {j} (hg : L.Grows) (h : x.Has L) : (x.finishJob j).Has L :=
  have hs : ((x.decCounter j.vf j.card.signal 1).forgetJob j.id).Has L := .forgetJob (.decCounter h)
  hg _ _ _ hs

theorem execJobComplete {job} (hg : L.Grows) (h : x.Has L) : Leaves L (execJobComplete job x) := by
  unfold Machine.execJobComplete
  split
  · exact h
  · split
    · exact h
    · extract_lets
      split
      · exact ite h (.recordJob h)
      · exact finishJob hg (.ite h (.recordJob h))

theorem restoreCtx {job left cluster} (h : x.Has L) : (x.restoreCtx job left cluster).Has L := by
  unfold State.restoreCtx
  split
  · exact .mapTeams (by
      split
      · exact .setDir h
      · exact h)
  · exact h

theorem seatTeam {t} (h : x.Has L) : (x.seatTeam t).Has L := .foldl (fun _ _ h1 => .seatWave h1) h

theorem seatCohort {job cohort guard} (h : x.Has L) : May (fun v => v.Has L) (x.seatCohort job cohort guard) := by
  unfold State.seatCohort
  extract_lets
  split
  · exact foldl (fun _ _ h1 => .seatTeam h1) (.foldl (fun _ _ h1 => .ite h1 (.foldl (fun _ _ h2 => .seatWave h2) h1)) (.foldl (fun _ _ h1 => .modTeam h1) h))
  · exact trivial

theorem settleCohort {job cohort guard} (h : x.Has L) : (x.settleCohort job cohort guard).Has L :=
  (seatCohort h).getD (.foldl (fun _ _ h1 => .modTeam h1) h)

theorem takeIn {w cluster cores} (hg : L.Grows) (h : x.Has L) : (x.takeIn w cluster cores).Has L := by
  unfold State.takeIn
  extract_lets j left s new s1 s2
  have hs : s.Has L := .ite (.restoreCtx h) h
  clear_value s
  have hs1 : s1.Has L := .ite (.modJob (hg _ _ _ hs)) (.foldl (fun _ _ h1 => .modTeam h1) hs)
  clear_value s1
  exact .settleCohort (.foldl (fun _ _ h1 => .acquire h1) hs1)

theorem execTeamAdmit {job cohort cluster cores} (hg : L.Grows) (h : x.Has L) :
    Leaves L (execTeamAdmit job cohort cluster cores x) := by
  unfold Machine.execTeamAdmit
  split
  · exact h
  · extract_lets
    split
    · exact takeIn hg h
    · exact h

theorem reload {job cohort} (h : x.Has L) : (x.reload job cohort).Has L :=
  .foldl (fun _ _ h1 => .ite (.readTeam h1) (.dropImage (.readTeam h1))) h

theorem swapOut {job cohort} (h : x.Has L) : (x.swapOut job cohort).Has L :=
  .settle (.foldl (fun _ _ h1 => .unplace h1) (.reload h))

theorem execSliceStep {cluster} (hg : L.Grows) (h : x.Has L) : Leaves L (execSliceStep cluster x) := by
  unfold Machine.execSliceStep
  extract_lets last s0 waits s
  have hs : s.Has L := by
    dsimp only [s]
    split
    · exact .swapOut h
    · exact h
  clear_value s
  split
  · exact h
  · split
    · exact h
    · cases waits with
      | nil => exact hs
      | cons w ws =>
        dsimp only
        cases s.pickCores w cluster with
        | none => exact hs
        | some cores => exact takeIn hg hs

theorem saveTeam {t part named} (h : x.Has L) : (x.saveTeam t part named).Has L := .writeImage (.ite (.readTeam h) h)

theorem execPreempt {job cohort} (h : x.Has L) : Leaves L (execPreempt job cohort x) := by
  unfold Machine.execPreempt
  extract_lets
  split
  · exact h
  · exact settle (.parkCohort (.foldl (fun _ _ h1 => .saveTeam h1) (.foldl (fun _ _ h1 => .abortTeam h1) h)))

theorem returnCohort {w cohort} (h : x.Has L) : (x.returnCohort w cohort).Has L :=
  (seatCohort (.seatWave (.reload h))).getD h

theorem execRestore {job team wave} (h : x.Has L) : Leaves L (execRestore job team wave x) := by
  unfold Machine.execRestore
  extract_lets
  split
  · exact h
  · split
    · exact seatWave h
    · split
      · exact returnCohort h
      · exact h

theorem parkWave {w} (h : x.Has L) : (x.parkWave w).Has L := .modWave (.dropRuns h)

theorem execParking {job team wave} (h : x.Has L) : Leaves L (execParking job team wave x) := by
  unfold Machine.execParking
  extract_lets
  split
  · exact h
  · split
    · exact ite (.settle (.parkCohort h)) h
    · split
      · exact settle (.parkWave h)
      · exact h

theorem execSwapping {job cohort} (h : x.Has L) : Leaves L (execSwapping job cohort x) := by
  unfold Machine.execSwapping
  split
  · exact swapOut h
  · exact h

theorem execKettleGrant {demands} (h : x.Has L) : Leaves L (execKettleGrant demands x) := by
  unfold Machine.execKettleGrant
  split
  · exact h
  · exact h

theorem modDraw {id f} (h : x.Has L) : (x.modDraw id f).Has L := h

theorem startDraw {vf queue idx addr d asd stages verts reject} (hg : L.Grows) (h : x.Has L) :
    (x.startDraw vf queue idx addr d asd stages verts reject).Has L := by
  cases reject with
  | none => exact .modDraw (hg _ _ _ h)
  | some e => exact .cardRecord h

theorem vertexIndices {a1 c} (h : x.Has L) : Gives (fun v => v.2.Has L) (x.vertexIndices a1 c) := by
  unfold State.vertexIndices
  split
  · exact h
  · exact (xreadN h).map fun _ h1 => h1

theorem execDrawLaunch {vf queue} (hg : L.Grows) (h : x.Has L) : Leaves L (execDrawLaunch vf queue x) := by
  unfold Machine.execDrawLaunch
  extract_lets
  split
  · exact h
  · split
    · exact settle (.releaseSlot (.putHead (.startDraw hg (.markLeaves h))))
    next e1 =>
      have g1 : State.Has L _ := (readCard h).ok e1
      extract_lets
      split
      · exact g1
      · split
        · exact settle (.releaseSlot (.putHead (.startDraw hg g1)))
        · split
          · exact settle (.releaseSlot (.putHead (.startDraw hg (.markLeaves g1))))
          next e2 =>
            have g2 : State.Has L _ := (readCard g1).ok e2
            split
            · exact settle (.releaseSlot (.putHead (.startDraw hg (.markLeaves g2))))
            next e3 =>
              have g3 : State.Has L _ := (readCard g2).ok e3
              split
              · exact settle (.releaseSlot (.putHead (.startDraw hg g1)))
              · split
                · exact settle (.releaseSlot (.putHead (.startDraw hg (.markLeaves g3))))
                next e4 =>
                  have g4 : State.Has L _ := (vertexIndices g3).ok e4
                  exact settle (.releaseSlot (.putHead (.startDraw hg g4)))

theorem target {d k} (h : x.Has L) : Gives (fun v => v.2.Has L) (x.target d k) := (xreadNat h).map fun _ h1 => h1

theorem depthTest {d a2 y z} (h : x.Has L) : Gives (fun v => v.2.Has L) (x.depthTest d a2 y z) :=
  (target h).bind fun _ h1 => by
    split
    · split
      · exact h1
      · exact (xreadNat h1).bind fun _ h3 => by
          split
          · split
            · exact h3
            · split
              · exact (xput h3).bind fun _ h5 => by
                  split
                  · exact h5
              · exact h3

theorem earlyTests {d free cs} (h : x.Has L) : Gives (fun v => v.2.Has L) (x.earlyTests d free cs) := by
  induction cs generalizing x with
  | nil => exact h
  | cons c cs ih =>
    unfold State.earlyTests
    exact (depthTest h).bind fun _ h1 => (ih h1).bind fun _ h2 => h2

theorem execRasterise {draw} (h : x.Has L) : Leaves L (execRasterise draw x) := by
  have htests : ∀ early d free cs, Gives (fun v : List (Nat × Nat) × State => v.2.Has L)
      (if early = true then x.earlyTests d free cs else .ok (cs.map fun p => (p.1, p.2.1), x)) := by
    intro early d free cs
    split
    · exact earlyTests h
    · exact h
  unfold Machine.execRasterise
  split
  · exact h
  · extract_lets
    split
    · exact h
    · split
      · extract_lets
        split
        · exact h
        · split
          · exact h
          next hok => exact modDraw ((htests _ _ _ _).ok hok)
      · exact h

theorem blendTargets {d a y es} (h : x.Has L) : Gives (fun v => v.Has L) (x.blendTargets d a y es) := by
  induction es generalizing x with
  | nil => exact h
  | cons e es ih =>
    unfold State.blendTargets
    refine (target h).bind fun p h1 => ?_
    split
    split
    · exact ih h1
    · exact (xreadN h1).bind fun _ h2 => (xput h2).bind fun _ h3 => ih h3

theorem blend {d f} (h : x.Has L) : Gives (fun v => v.Has L) (x.blend d f) := by
  unfold State.blend
  split
  · exact h
  · split
    · exact blendTargets h
    · exact (depthTest h).bind fun _ h1 => by
        split
        · split
          · exact blendTargets h1
          · exact h1

theorem execFragmentBlend {draw} (h : x.Has L) : Leaves L (execFragmentBlend draw x) := by
  unfold Machine.execFragmentBlend
  split
  · exact h
  · split
    · exact h
    · split
      · exact h
      next e3 =>
        have g3 : State.Has L _ := (blend h).ok e3
        exact modDraw g3

theorem recordDraw {d} (h : x.Has L) : (x.recordDraw d).Has L := .recordCompletion (.modDraw h)

theorem finishDraw {d} (hg : L.Grows) (h : x.Has L) : (x.finishDraw d).Has L :=
  have hs : (x.decCounter d.vf d.desc.signal 1).Has L := .decCounter h
  have ht : (if d.rejected then x.decCounter d.vf d.desc.signal 1
      else ((x.decCounter d.vf d.desc.signal 1).forgetJob d.vjob).forgetJob d.pjob).Has L :=
    .ite hs (.forgetJob (.forgetJob hs))
  hg _ _ _ ht

theorem execDrawComplete {draw} (hg : L.Grows) (h : x.Has L) : Leaves L (execDrawComplete draw x) := by
  unfold Machine.execDrawComplete
  split
  · exact h
  · split
    · exact h
    · extract_lets
      split
      · exact ite h (.recordDraw h)
      · exact finishDraw hg (.ite h (.recordDraw h))

theorem answer {v err} (h : x.Has L) : (x.answer v err).Has L := h

theorem manage {by_ space index offset f} (hf : ∀ s, State.Has L s → (f s).Has L) (h : x.Has L) :
    Leaves L (manage by_ space index offset f x) := by
  unfold Machine.manage
  split
  · exact h
  · split
    · exact settle (.answer (hf _ h))
    · exact answer h

theorem notify {v w} (h : x.Has L) : (x.notify v w).Has L := .ite h (.wantSlot (.releaseSlot (.putTail h)))

theorem execQnotify {by_ vf v} (h : x.Has L) : Leaves L (execQnotify by_ vf v x) := manage (fun _ h1 => .notify h1) h

theorem ack {v num f} (hf : ∀ s a1, State.Has L s → (f s a1).Has L) (h : x.Has L) : (x.ack v num f).Has L := by
  unfold State.ack
  split
  · exact hf _ _ h
  · exact h

theorem dropTicket {num} (h : x.Has L) : (x.dropTicket num).Has L := h

theorem unstop {k w m} (h : x.Has L) : (x.unstop k w m).Has L :=
  .ite (.modTeam (.dropTicket (.ite (.readTeam h) (.readThreads h)))) (.dropImage (.modTeam (.dropTicket (.ite
    (.readTeam h) (.readThreads h)))))

theorem resumeStopped {k w m} (h : x.Has L) : (x.resumeStopped k w m).Has L := .modLanes (.unstop h)

theorem ackRetry {k} (h : x.Has L) : (x.ackRetry k).Has L := by
  unfold State.ackRetry
  extract_lets
  split
  · exact .ite (.resumeStopped h) (.modLanes (.dropTicket h))
  · exact .modCmd (.dropTicket h)
  · exact .modCmd (.dropTicket h)
  · exact .modStream (.dropTicket h)
  · exact .modStream (.dropTicket h)

theorem execFaultackRetry {by_ vf ticket} (h : x.Has L) : Leaves L (execFaultackRetry by_ vf ticket x) :=
  manage (fun _ h1 => .ack (fun _ _ h2 => .ackRetry h2) h1) h

theorem deliverTo {w l k} (h : x.Has L) : (x.deliverTo w l k).Has L := .enterHandler (.ite (.noteResume h) h)

theorem engFault {c code} (h : x.Has L) : (x.engFault c code).Has L := by
  unfold State.engFault
  extract_lets
  split
  · exact .rayEnd (.cmdReport h)
  · exact .listResults (.cmdReport h)
  · exact .listResults (.cmdReport h)
  · exact .resumeCmd (.endCmd (.cmdReport h))
  · exact .resumeCmd (.endCmd (.cmdReport h))
  · exact .gramEnd (.cmdReport h)
  · exact .endCmd (.cmdReport h)

theorem ackDeliver {k} (h : x.Has L) : (x.ackDeliver k).Has L := by
  unfold State.ackDeliver
  split
  · exact .ite (.terminate (.ite (.unstop h) (.dropTicket h))) (.foldl (fun _ _ h2 => .deliverTo h2) (.ite (.unstop h) (.dropTicket h)))
  · split
    · exact .engFault (.dropTicket h)
    · exact .dropTicket h
  · exact .modCmd (.dropTicket h)
  · exact .terminate (.dropTicket h)
  · exact .modStream (.dropTicket h)

theorem execFaultackDeliver {by_ vf ticket} (h : x.Has L) : Leaves L (execFaultackDeliver by_ vf ticket x) :=
  manage (fun _ h1 => .ack (fun _ _ h2 => .ackDeliver h2) h1) h

theorem ackTerminate {k} (h : x.Has L) : (x.ackTerminate k).Has L := by
  unfold State.ackTerminate
  extract_lets
  split
  · exact .terminate (.dropTicket h)
  · split
    · exact .terminate (.dropTicket h)
    · exact .dropTicket h
  · split
    · exact .terminate (.dropTicket h)
    · exact .dropTicket h
  · exact .terminate (.dropTicket h)
  · exact .terminate (.dropTicket h)

theorem execFaultackTerminate {by_ vf ticket} (h : x.Has L) : Leaves L (execFaultackTerminate by_ vf ticket x) :=
  manage (fun _ h1 => .ack (fun _ _ h2 => .ackTerminate h2) h1) h

theorem writeTlbinv {v w} (h : x.Has L) : (x.writeTlbinv v w).Has L := .ite h (.setVf h)

theorem execTlbinv {by_ vf v} (h : x.Has L) : Leaves L (execTlbinv by_ vf v x) := manage (fun _ h1 => .writeTlbinv h1) h

theorem invalidate {v w} (h : x.Has L) : (x.invalidate v w).Has L := .dropRuns h

theorem retryHeldGo {v hs blocked} (h : x.Has L) : (x.retryHeldGo v hs blocked).Has L := by
  induction hs generalizing x blocked with
  | nil => exact h
  | cons r hs ih =>
    unfold State.retryHeldGo
    split
    · exact ih h
    · split
      · exact ih (.noteStall h)
      next hring =>
        have hs : State.Has L _ := (ringWrite h).some hring
        dsimp only
        cases r.into with
        | none => exact ih hs
        | some p => exact ih (.enterHandler hs)

theorem retryHeld {v} (h : x.Has L) : (x.retryHeld v).Has L :=
  .ite (.retryHeldGo h) (.ite (.setVf (.retryHeldGo h)) (.retryHeldGo h))

theorem execTlbinvDone {vf} (h : x.Has L) : Leaves L (execTlbinvDone vf x) := by
  unfold Machine.execTlbinvDone
  extract_lets
  split
  · exact h
  · exact foldl (fun _ _ h1 => by
      split
      · exact .ite (.retryHeld h1) h1
      · exact h1) (.setVf (.invalidate h))

theorem setBank {r} (h : x.Has L) : (x.setBank r).Has L := h

theorem writeBank {p b v} (h : x.Has L) : (x.writeBank p b v).Has L :=
  .ite (.setBank h) (.ite (.setBank h) (.setBank h))

theorem execBankcfgWrite {by_ part bank v} (h : x.Has L) : Leaves L (execBankcfgWrite by_ part bank v x) :=
  manage (fun _ h1 => .ite (.writeBank h1) h1) h

theorem wipe {lo hi} (h : x.Has L) : (x.wipe lo hi).Has L := h

theorem bankDone {b} (h : x.Has L) : (x.bankDone b).Has L := by
  unfold State.bankDone
  extract_lets
  split
  · exact h
  · exact .setBank (.wipe (.wipe h))

theorem execBankcfgChangeDone {bank} (h : x.Has L) : Leaves L (execBankcfgChangeDone bank x) := by
  unfold Machine.execBankcfgChangeDone
  split
  · exact h
  · exact bankDone h

theorem setPart {p r} (h : x.Has L) : (x.setPart p r).Has L := h

theorem changeOwner {old new} (h : x.Has L) : (x.changeOwner old new).Has L :=
  .foldl (fun _ _ h1 => .wipe h1) (.foldl (fun _ _ h1 => .setBank (.wipe h1)) h)

theorem writeOwn {p v} (h : x.Has L) : (x.writeOwn p v).Has L := .ite (.setPart (.changeOwner h)) (.setPart h)

theorem execPartownWrite {by_ part v} (h : x.Has L) : Leaves L (execPartownWrite by_ part v x) :=
  manage (fun _ h1 => .ite (.writeOwn h1) h1) h

theorem writeHarvest {v w} (h : x.Has L) : (x.writeHarvest v w).Has L := .ite (.ite (.setVf h) (.setVf h)) (.setVf h)

theorem execHarvestStart {by_ vf v} (h : x.Has L) : Leaves L (execHarvestStart by_ vf v x) :=
  manage (fun _ h1 => .writeHarvest h1) h

theorem harvest {v} (h : x.Has L) : (x.harvest v).Has L := by
  unfold State.harvest
  extract_lets r p first n dirty bit words s whole s'
  have hs : s.Has L := .foldl (fun _ _ h1 => .writePhys h1) h
  clear_value s
  have hs' : s'.Has L := .foldl (fun s e h1 => .ite (.writePhys h1) h1) hs
  clear_value s'
  exact hs'

theorem execHarvestDone {vf} (h : x.Has L) : Leaves L (execHarvestDone vf x) := by
  unfold Machine.execHarvestDone
  extract_lets
  split
  · exact h
  · exact irqVf (.setVf (.harvest h))

theorem writeFqcfg {v w} (h : x.Has L) : (x.writeFqcfg v w).Has L := .retryHeld (.ite (.setVf h) h)

theorem execFqcfgWrite {by_ vf v} (h : x.Has L) : Leaves L (execFqcfgWrite by_ vf v x) :=
  manage (fun _ h1 => .writeFqcfg h1) h

theorem writeFqptr {v w} (h : x.Has L) : (x.writeFqptr v w).Has L := .retryHeld (.setVf h)

theorem execFqptrWrite {by_ vf v} (h : x.Has L) : Leaves L (execFqptrWrite by_ vf v x) :=
  manage (fun _ h1 => .writeFqptr h1) h

theorem writeSysasd {v w} (h : x.Has L) : (x.writeSysasd v w).Has L := .retryHeld (.setVf h)

theorem execSysasdWrite {by_ vf v} (h : x.Has L) : Leaves L (execSysasdWrite by_ vf v x) :=
  manage (fun _ h1 => .writeSysasd h1) h

theorem writeSampcfg {v w} (h : x.Has L) : (x.writeSampcfg v w).Has L := .retryHeld (.ite (.setVf h) h)

theorem execSampcfgWrite {by_ vf v} (h : x.Has L) : Leaves L (execSampcfgWrite by_ vf v x) :=
  manage (fun _ h1 => .writeSampcfg h1) h

theorem writeVfcfg {v w} (h : x.Has L) : (x.writeVfcfg v w).Has L :=
  .ite (.setVf (.foldl (fun _ _ h1 => .irqVf h1) (.setVf h))) (.setVf h)

theorem execVfcfgWrite {by_ vf v} (h : x.Has L) : Leaves L (execVfcfgWrite by_ vf v x) :=
  manage (fun _ h1 => .writeVfcfg h1) h

theorem writeQuota {v w} (h : x.Has L) : (x.writeQuota v w).Has L := .ite (.setVf h) (.setVf h)

theorem execVfquotaWrite {by_ vf v} (h : x.Has L) : Leaves L (execVfquotaWrite by_ vf v x) :=
  manage (fun _ h1 => .writeQuota h1) h

theorem writeKbudget {w} (h : x.Has L) : (x.writeKbudget w).Has L := .ite h h

theorem execKbudgetWrite {by_ v} (h : x.Has L) : Leaves L (execKbudgetWrite by_ v x) :=
  manage (fun _ h1 => .writeKbudget h1) h

theorem writeIrqlog {v w} (h : x.Has L) : (x.writeIrqlog v w).Has L := .ite (.setVf h) h

theorem execIrqlogWrite {by_ vf v} (h : x.Has L) : Leaves L (execIrqlogWrite by_ vf v x) :=
  manage (fun _ h1 => .writeIrqlog h1) h

theorem writeHvid {by_ p w} (h : x.Has L) : (x.writeHvid by_ p w).Has L := .ite (.setPart h) h

theorem execHvidWrite {by_ part v} (h : x.Has L) : Leaves L (execHvidWrite by_ part v x) :=
  manage (fun _ h1 => .writeHvid h1) h

theorem manageRead {by_ space index offset v f} (hf : ∀ s, State.Has L s → (f s).Has L) (h : x.Has L) :
    Leaves L (manageRead by_ space index offset v f x) := by
  unfold Machine.manageRead
  split
  · exact h
  · split
    · exact answer (hf _ h)
    · exact answer h

theorem execVftablesRead {by_ vf} (h : x.Has L) : Leaves L (execVftablesRead by_ vf x) :=
  manageRead (fun _ h1 => .setVf h1) h

theorem execIrqptrRead {by_ vf} (h : x.Has L) : Leaves L (execIrqptrRead by_ vf x) :=
  manageRead (fun _ h1 => .setVf h1) h

theorem execSampptrRead {by_ vf} (h : x.Has L) : Leaves L (execSampptrRead by_ vf x) :=
  manageRead (fun _ h1 => .setVf h1) h

theorem writeQctl {p w} (h : x.Has L) : (x.writeQctl p w).Has L := .ite (.setPart h) (.ite (.setPart h) h)

theorem execQctlGo {by_ part v} (h : x.Has L) : Leaves L (execQctlGo by_ part v x) :=
  manage (fun _ h1 => .writeQctl h1) h

theorem execQuoteDone {part} (h : x.Has L) : Leaves L (execQuoteDone part x) := by
  unfold Machine.execQuoteDone
  split
  · exact h
  · split
    · exact h
    · dsimp only
      split
      · exact h
      · split
        · exact h
        · exact h

theorem writeFreeze {w} (h : x.Has L) : (x.writeFreeze w).Has L := .ite h h

theorem writeDevice {p offset w} (h : x.Has L) : (x.writeDevice p offset w).Has L :=
  .ite (.ite (.writeFreeze h) (.ite (.writeKbudget h) h)) (.ite (.writeOwn h) (.ite (.setPart h) h))

theorem writePart {by_ p offset w} (h : x.Has L) : (x.writePart by_ p offset w).Has L :=
  .ite (.setPart h) (.ite (.writeHvid h) (.ite (.writeBank h) h))

theorem writeHv {v offset w} (h : x.Has L) : (x.writeHv v offset w).Has L := by
  unfold State.writeHv
  extract_lets
  split
  · exact .writeQuota h
  · exact .setVf h
  · exact .writeVfcfg h
  · exact .writeIrqlog h
  · exact .setVf h
  · exact .setVf h
  · exact .setVf h
  · exact .writeHarvest h
  · exact .writeSysasd h
  · exact .setVf h
  · exact h

theorem writeFaultack {v w} (h : x.Has L) : (x.writeFaultack v w).Has L := by
  unfold State.writeFaultack
  extract_lets
  split
  · exact .ack (fun _ _ h2 => .ackRetry h2) h
  · exact .ack (fun _ _ h2 => .ackDeliver h2) h
  · exact .ack (fun _ _ h2 => .ackTerminate h2) h
  · exact h

theorem setCounterAt {c} (h : x.Has L) : (x.setCounterAt c).Has L := h

theorem writeGuest {v offset w} (h : x.Has L) : (x.writeGuest v offset w).Has L := by
  unfold State.writeGuest
  extract_lets
  split
  · exact .notify h
  · exact .writeFqcfg h
  · exact .writeFqptr h
  · exact .writeTlbinv h
  · exact .setVf h
  · exact .writeSampcfg h
  · exact .setVf h
  · exact .ite (.setVf h) (by
      split
      · exact .setCounterAt h
      · exact h)

theorem writeIdentity {p offset w} (h : x.Has L) : (x.writeIdentity p offset w).Has L :=
  .ite (.setPart h) (.ite (.writeQctl h) h)

theorem writeReg {by_ space index offset w} (h : x.Has L) : (x.writeReg by_ space index offset w).Has L := by
  unfold State.writeReg
  split
  · exact .writeDevice h
  · exact .writePart h
  · exact .writeHv h
  · exact .ite (.writeFaultack h) (.writeGuest h)
  · exact .writeIdentity h

theorem clearRead {space v offset} (h : x.Has L) : (x.clearRead space v offset).Has L :=
  .ite (.setVf h) (.ite (.setVf h) (.ite (.setVf h) h))

theorem execRegisterWrite {by_ space index offset a} (h : x.Has L) :
    Leaves L (execRegisterWrite by_ space index offset a x) := by
  unfold Machine.execRegisterWrite
  split
  · exact manage (fun _ h2 => .writeReg h2) h
  · exact manageRead (fun _ h2 => .clearRead h2) h

theorem execFrzNAssert (h : x.Has L) : Leaves L (execFrzNAssert x) := h

theorem execFreezeWrite {by_ v} (h : x.Has L) : Leaves L (execFreezeWrite by_ v x) :=
  manage (fun _ h1 => .writeFreeze h1) h

theorem portCode {code} (h : x.Has L) : (x.portCode code).Has L := .ite h (.ite h (.ite h h))

theorem execBypass (h : x.Has L) : Leaves L (execBypass x) := portCode h

theorem execIdcode (h : x.Has L) : Leaves L (execIdcode x) := portCode h

theorem execScanrd (h : x.Has L) : Leaves L (execScanrd x) := portCode h

theorem withDigest {l d} (h : x.Has L) : ({ x with log := l, digest := d } : State).Has L := h

theorem measure {e} (h : x.Has L) : (x.measure e).Has L := .withDigest h

theorem startPart {p} (h : x.Has L) : (x.startPart p).Has L := .writeOwn h

theorem execMeasuredBoot {img} (hb : x.boot ≠ .pending) (h : x.Has L) : Leaves L (execMeasuredBoot img x) := by
  rw [Machine.execMeasuredBoot, if_pos (by simp [hb])]
  exact h

theorem execGddr7UncorrectableError {hpa corrected} (h : x.Has L) :
    Leaves L (execGddr7UncorrectableError hpa corrected x) := by
  unfold Machine.execGddr7UncorrectableError
  extract_lets
  split
  · exact h
  · split
    · exact h
    · exact h

theorem execRemoteRefusal {job team wave lane hpa write} (h : x.Has L) :
    Leaves L (execRemoteRefusal job team wave lane hpa write x) := by
  unfold Machine.execRemoteRefusal
  split
  · split
    · exact h
    · exact remoteRefuse h
  · exact h

theorem exec {i} (hg : L.Grows) (hi : i ≠ .rstN) (hb : x.boot ≠ .pending) (h : x.Has L) : Leaves L (exec i x) := by
  unfold Machine.exec
  split
  · exact execIadd hg h
  · exact execIsub hg h
  · exact execImul hg h
  · exact execImulh hg h
  · exact execImad hg h
  · exact execImin hg h
  · exact execImax hg h
  · exact execIabs hg h
  · exact execIneg hg h
  · exact execIcmp hg h
  · exact execLea hg h
  · exact execAnd hg h
  · exact execAndn hg h
  · exact execOr hg h
  · exact execXor hg h
  · exact execNot hg h
  · exact execShl hg h
  · exact execShr hg h
  · exact execSar hg h
  · exact execRol hg h
  · exact execPopc hg h
  · exact execClz hg h
  · exact execBrev hg h
  · exact execBfe hg h
  · exact execBfi hg h
  · exact execSel hg h
  · exact execFadd hg h
  · exact execFsub hg h
  · exact execFmul hg h
  · exact execFfma hg h
  · exact execFmin hg h
  · exact execFmax hg h
  · exact execFcmp hg h
  · exact execFclass hg h
  · exact execFrnd hg h
  · exact execFrcp hg h
  · exact execFrsq hg h
  · exact execFsqrt hg h
  · exact execFexp2 hg h
  · exact execFlog2 hg h
  · exact execFsin hg h
  · exact execFcos hg h
  · exact execFtanh hg h
  · exact execFsigm hg h
  · exact execRed hg h
  · exact execScan hg h
  · exact execCvt hg h
  · exact execAmax hg h
  · exact execQscale hg h
  · exact execQpack hg h
  · exact execQunpack hg h
  · exact execBpsplit hg h
  · exact execBpjoin hg h
  · exact execPerm hg h
  · exact execVote hg h
  · exact execMatch hg h
  · exact execWsync hg h
  · exact execMov hg h
  · exact execMovm hg h
  · exact execMovs hg h
  · exact execLd hg h
  · exact execSt hg h
  · exact execLda hg h
  · exact execStl hg h
  · exact execLds hg h
  · exact execSts hg h
  · exact execLdx hg h
  · exact execStx hg h
  · exact execLdc hg h
  · exact execAtom hg h
  · exact execAtoms hg h
  · exact execFence hg h
  · exact execMma hg h
  · exact execAccload hg h
  · exact execAccdrain hg h
  · exact execAccrel hg h
  · exact execCopy hg h
  · exact execEngage hg h
  · exact execRdv hg h
  · exact execSemsig hg h
  · exact execSemwait hg h
  · exact execQpop hg h
  · exact execQpush hg h
  · exact execNcall hg h
  · exact execNflush hg h
  · exact execWbind hg h
  · exact execWpin hg h
  · exact execWunpin hg h
  · exact execWpref hg h
  · exact execGmv hg h
  · exact execGmm hg h
  · exact execBinapp hg h
  · exact execBinreplay hg h
  · exact execWlinit hg h
  · exact execWlpush hg h
  · exact execWlins hg h
  · exact execWlpopb hg h
  · exact execHashb hg h
  · exact execEnq hg h
  · exact execDepdec hg h
  · exact execTex hg h
  · exact execTexg hg h
  · exact execAttr hg h
  · exact execExport hg h
  · exact execDiscard hg h
  · exact execRayq hg h
  · exact execColl hg h
  · exact execDeal hg h
  · exact execBra hg h
  · exact execBrx hg h
  · exact execCall hg h
  · exact execRet hg h
  · exact execExit hg h
  · exact execLsetup hg h
  · exact execFork hg h
  · exact execFjoin hg h
  · exact execBar hg h
  · exact execCbar hg h
  · exact execYield hg h
  · exact execNop hg h
  · exact execTrig hg h
  · exact execTrap hg h
  · exact execRft hg h
  · exact execCsrr hg h
  · exact execCsrw hg h
  · exact execBrk hg h
  · exact execHalt hg h
  · exact execNopS hg h
  · exact execMovS hg h
  · exact execLdS64 hg h
  · exact execStS64 hg h
  · exact execLdsS64 hg h
  · exact execStsS64 hg h
  · exact execLdS32 hg h
  · exact execStS32 hg h
  · exact execLdsS32 hg h
  · exact execStsS32 hg h
  · exact execIaddS hg h
  · exact execIsubS hg h
  · exact execImulS hg h
  · exact execAndS hg h
  · exact execOrS hg h
  · exact execXorS hg h
  · exact execShlS hg h
  · exact execShrS hg h
  · exact execIminS hg h
  · exact execImaxS hg h
  · exact execFaddS hg h
  · exact execFsubS hg h
  · exact execFmulS hg h
  · exact execFminS hg h
  · exact execFmaxS hg h
  · exact execAmov h
  · exact execAadd h
  · exact execAcmp h
  · exact execAbr h
  · exact execAloop h
  · exact execAmove h
  · exact execAgather h
  · exact execAscatter h
  · exact execAsig h
  · exact execAwait h
  · exact execAhalt h
  · exact execTakenWaitResumeBar h
  · exact execCbarComplete h
  · exact execFjoinComplete h
  · exact execWsyncRelease h
  · exact execRejoinTimeout h
  · exact execSemwaitComplete h
  · exact execAwaitComplete h
  · exact execStreamOwnerAcquire h
  · exact execQpopComplete h
  · exact execQpushComplete h
  · exact execEngageStart h
  · exact execRdvComplete h
  · exact execStreamFault h
  · exact execDqGrow h
  · exact execCopyComplete h
  · exact execCopyFault h
  · exact execIndexElementPark h
  · exact execMmaComplete h
  · exact execAccdrainComplete h
  · exact execJobLeaveEngine h
  · exact execBinDispatchTimer h
  · exact execBinDispatchBlocked h
  · exact execBelfryLoad h
  · exact execNcallComplete h
  · exact execWbindComplete h
  · exact execGrammarComplete h
  · exact execBinappAppend h
  · exact execBinreplayComplete h
  · exact execWorklistApply h
  · exact execEnqComplete h
  · exact execCollComplete h
  · exact execRayqComplete h
  · exact execCommandTranslationFault h
  · exact execRemoteTimeout h
  · exact execRemoteRequest h
  · exact execL1LineExpire h
  · exact execRegisterFileError h
  · exact execStarvationPromote h
  · exact execGuardExpire h
  · exact execCardLaunch hg h
  · exact execEarlyLaunch hg h
  · exact execJobComplete hg h
  · exact execTeamAdmit hg h
  · exact execSliceStep hg h
  · exact execPreempt h
  · exact execRestore h
  · exact execParking h
  · exact execSwapping h
  · exact execKettleGrant h
  · exact execDrawLaunch hg h
  · exact execRasterise h
  · exact execFragmentBlend h
  · exact execDrawComplete hg h
  · exact execQnotify h
  · exact execFaultackRetry h
  · exact execFaultackDeliver h
  · exact execFaultackTerminate h
  · exact execTlbinv h
  · exact execTlbinvDone h
  · exact execBankcfgWrite h
  · exact execBankcfgChangeDone h
  · exact execPartownWrite h
  · exact execHarvestStart h
  · exact execHarvestDone h
  · exact execFqcfgWrite h
  · exact execFqptrWrite h
  · exact execSysasdWrite h
  · exact execSampcfgWrite h
  · exact execVfcfgWrite h
  · exact execVfquotaWrite h
  · exact execKbudgetWrite h
  · exact execIrqlogWrite h
  · exact execHvidWrite h
  · exact execVftablesRead h
  · exact execIrqptrRead h
  · exact execSampptrRead h
  · exact execQctlGo h
  · exact execQuoteDone h
  · exact execRegisterWrite h
  · exact execFrzNAssert h
  · exact execFreezeWrite h
  · exact execBypass h
  · exact execIdcode h
  · exact execScanrd h
  · exact absurd rfl hi
  · exact execMeasuredBoot hb h
  · exact execGddr7UncorrectableError h
  · exact execRemoteRefusal h

theorem noteServed {w} (h : x.Has L) : (x.noteServed w).Has L := by
  unfold State.noteServed
  split
  · exact h
  · exact h

theorem headerBad {c a2 m} (h : x.Has L) : (x.headerBad c a2 m).1.Has L := by
  unfold State.headerBad
  split
  · exact h
  next e1 =>
    have g1 : State.Has L _ := (fetchInstr h).ok e1
    split
    · exact g1
    · split
      · exact g1
      · exact g1

theorem fetchText {c stop n pc} (h : x.Has L) : Gives (fun v => v.2.Has L) (State.fetchText c stop n pc x) := by
  induction n generalizing x pc with
  | zero => exact h
  | succ n ih =>
    unfold State.fetchText
    split
    · exact h
    · split
      · trivial
      next hok =>
        have hs : State.Has L _ := (fetchInstr h).ok hok
        extract_lets
        split
        · exact hs
        · split
          · exact hs
          · split
            next hrest =>
              have ht : State.Has L _ := (ih hs).ok hrest
              exact ht
            · trivial

theorem begins {r i} (hg : L.Grows) (h : x.Has L) : (x.begins r i).Has L := by
  unfold State.begins
  split
  · exact h
  · exact putRun hg h
  · exact raiseRun h

theorem beginRun {w m r} (hg : L.Grows) (h : x.Has L) : (x.beginRun w m r).Has L := by
  unfold State.beginRun
  extract_lets
  split
  · exact raise h
  next e1 =>
    have g1 : State.Has L _ := (fetchText h).ok e1
    exact ite (.goOn g1) (.raise g1)
  next e1 =>
    have g1 : State.Has L _ := (fetchText h).ok e1
    extract_lets
    split
    · exact raise g1
    · split
      · exact begins hg (hg _ _ _ g1)
      · exact g1

theorem startRun {w m} (hg : L.Grows) (h : x.Has L) : (x.startRun w m).Has L := by
  unfold State.startRun
  extract_lets
  split
  · exact debugStop h
  · split
    · exact debugStop h
    · split
      · split
        next e1 =>
          have g1 : State.Has L _ := of_fst (.headerBad h) e1
          exact raise g1
        next e1 =>
          have g1 : State.Has L _ := of_fst (.headerBad h) e1
          exact beginRun hg g1
      · exact beginRun hg h

theorem stepRun {r} (hg : L.Grows) (h : x.Has L) : (x.stepRun r).Has L := by
  unfold State.stepRun
  extract_lets s
  have hs : s.Has L := hg _ _ _ h
  clear_value s
  split
  · exact raiseRun hs
  next hok =>
    split
    · exact begins hg ((fetchInstr hs).ok hok)
    · exact raiseRun ((fetchInstr hs).ok hok)

theorem copyAhead {cmd} (h : x.Has L) : (x.copyAhead cmd).Has L := by
  unfold State.copyAhead
  split
  · exact h
  · extract_lets
    split
    · extract_lets
      split
      next e3_0 e3_1 =>
        have g3 : State.Has L _ := (copyRead h).all e3_0
        exact .ite g3 (by
          split
          next e4 =>
            have g4 : State.Has L _ := (xput g3).ok e4
            exact .modCmd g4
          · exact g3)
      · exact h
    · exact h

theorem remoteAnswer (h : x.Has L) : x.remoteAnswer.Has L := by
  unfold State.remoteAnswer
  split
  · exact .settle (.remoteAck h)
  · exact h

end State.Has
end Sys2Proof.Machine

namespace Sys2Proof.Machine
open Sys2Proof

/-! ## Nothing runs before the device has booted (R289, R314, R337, R338) -/

/-- Whether the device has booted, which nothing but reset changes once it has. -/
def Lasting.booted : Lasting where
  holds b _ _ _ _ := b = .done
  mapJobs _ h := h
  filterJobs _ h := h
  mapTeams _ h := h
  filterTeams _ h := h
  mapRuns _ h := h
  filterRuns _ h := h

theorem Lasting.booted_grows : Lasting.booted.Grows := fun _ _ _ h => h

/-- `NothingRuns`, with what else may be known of the boot and the restriction of the test port. -/
def Lasting.nothingRuns (also : Boot → Bool → Prop) : Lasting where
  holds b p j t r := also b p ∧ (b ≠ .done → j = [] ∧ t = [] ∧ r = [])
  mapJobs f h := ⟨h.1, fun hb => by simpa using h.2 hb⟩
  filterJobs f h := ⟨h.1, fun hb => by simp [h.2 hb]⟩
  mapTeams f h := ⟨h.1, fun hb => by simpa using h.2 hb⟩
  filterTeams f h := ⟨h.1, fun hb => by simp [h.2 hb]⟩
  mapRuns f h := ⟨h.1, fun hb => by simpa using h.2 hb⟩
  filterRuns f h := ⟨h.1, fun hb => by simp [h.2 hb]⟩

/-- `NothingRuns`, alone. -/
abbrev Lasting.idle : Lasting := .nothingRuns fun _ _ => True

theorem State.has_idle_iff {s : State} : s.Has .idle ↔ NothingRuns s := iff_of_eq (true_and _)

theorem State.has_idle_of_booted {s : State} (h : s.Has .booted) : s.Has .idle := ⟨trivial, fun hb => absurd h hb⟩

section
variable {L : Lasting} {o : Host.Outcome State Fault Refusal}

theorem Leaves.next {t : State} (h : Leaves L o) (e : o = .next t) : t.Has L := by
  subst e
  exact h

theorem Leaves.of_next {t : State} (e : o = .next t) (h : t.Has L) : Leaves L o := by
  subst e
  exact h

theorem Leaves.idle_of_booted (h : Leaves .booted o) : Leaves .idle o := by
  cases o with
  | next t => exact State.has_idle_of_booted h
  | fault e => trivial
  | refused e => trivial

theorem Leaves.afterTime (h : Leaves L o) : Leaves L (afterTime o) := by
  cases o with
  | next t => exact State.Has.passTime h
  | fault e => trivial
  | refused e => trivial

end

/-! ### Once it has booted: it stays so, but for a reset, after which nothing runs -/

section
variable {s : State}

theorem exec_leaves_idle (i : Instr) (h : s.Has .booted) : Leaves .idle (exec i s) := by
  by_cases hi : i = .rstN
  · subst hi
    exact State.has_idle_iff.mpr State.reset_nothingRuns
  · refine (State.Has.exec Lasting.booted_grows hi ?_ h).idle_of_booted
    rw [show s.boot = .done from h]
    decide

theorem Start.Has.go_leaves_idle {st : Start} (h : st.Has .booted) : Leaves .idle st.go := by
  cases st with
  | ended t => exact State.has_idle_of_booted h
  | first i t => exact exec_leaves_idle i h

theorem State.perform_leaves_idle (m : Move) (h : s.Has .booted) : Leaves .idle (s.perform m) := by
  cases m with
  | issue w g => exact (State.Has.startRun Lasting.booted_grows (.modWave (.noteServed h))).go_leaves_idle
  | run r => exact (State.Has.stepRun Lasting.booted_grows h).go_leaves_idle
  | stream t =>
    cases hteam : s.team? t with
    | none =>
      simp only [State.perform, hteam]
      exact State.has_idle_of_booted h
    | some u =>
      cases hnext : (s.strNext u).2 with
      | none =>
        simp only [State.perform, hteam, hnext]
        exact State.has_idle_of_booted h
      | some i =>
        rw [State.perform_stream hteam hnext]
        exact exec_leaves_idle i h
  | enter t a => exact State.has_idle_of_booted (.strEnter h)
  | event i => exact exec_leaves_idle i h
  | ahead id => exact State.has_idle_of_booted (.copyAhead h)
  | answer => exact State.has_idle_of_booted (.remoteAnswer h)

end

/-! ### Before: it makes no move, and what comes from outside starts nothing -/

section
variable {L : Lasting} {s : State}

/-- What comes from outside adds no job, team or run: reset and measured boot apart, it keeps any lasting fact. -/
theorem exec_external_leaves {i : Instr} (hext : Instr.external i = true) (hrst : i ≠ .rstN)
    (hboot : ∀ img, i ≠ .measuredBoot img) (h : s.Has L) : Leaves L (exec i s) := by
  cases i with
  | collComplete => exact State.Has.execCollComplete h
  | remoteRequest => exact State.Has.execRemoteRequest h
  | remoteRefusal => exact State.Has.execRemoteRefusal h
  | registerFileError => exact State.Has.execRegisterFileError h
  | gddr7UncorrectableError => exact State.Has.execGddr7UncorrectableError h
  | frzNAssert => exact State.Has.execFrzNAssert h
  | bypass => exact State.Has.execBypass h
  | idcode => exact State.Has.execIdcode h
  | scanrd => exact State.Has.execScanrd h
  | qnotify => exact State.Has.execQnotify h
  | faultackRetry => exact State.Has.execFaultackRetry h
  | faultackDeliver => exact State.Has.execFaultackDeliver h
  | faultackTerminate => exact State.Has.execFaultackTerminate h
  | tlbinv => exact State.Has.execTlbinv h
  | bankcfgWrite => exact State.Has.execBankcfgWrite h
  | partownWrite => exact State.Has.execPartownWrite h
  | harvestStart => exact State.Has.execHarvestStart h
  | fqcfgWrite => exact State.Has.execFqcfgWrite h
  | fqptrWrite => exact State.Has.execFqptrWrite h
  | sysasdWrite => exact State.Has.execSysasdWrite h
  | sampcfgWrite => exact State.Has.execSampcfgWrite h
  | vfcfgWrite => exact State.Has.execVfcfgWrite h
  | vfquotaWrite => exact State.Has.execVfquotaWrite h
  | kbudgetWrite => exact State.Has.execKbudgetWrite h
  | irqlogWrite => exact State.Has.execIrqlogWrite h
  | hvidWrite => exact State.Has.execHvidWrite h
  | vftablesRead => exact State.Has.execVftablesRead h
  | irqptrRead => exact State.Has.execIrqptrRead h
  | sampptrRead => exact State.Has.execSampptrRead h
  | qctlGo => exact State.Has.execQctlGo h
  | registerWrite => exact State.Has.execRegisterWrite h
  | freezeWrite => exact State.Has.execFreezeWrite h
  | measuredBoot img => exact absurd rfl (hboot img)
  | rstN => exact absurd rfl hrst
  | _ => cases hext

/-- R337: a device whose image is good has booted. -/
theorem exec_measuredBoot_good {img : BootImage} (hgood : imageGood img = true) (hf : s.frozen = false)
    (hb : s.boot = .pending) : ∃ t, exec (.measuredBoot img) s = .next t ∧ t.boot = .done := by
  have h : exec (.measuredBoot img) s = _ := exec_measuredBoot_pending img hf hb
  rw [if_pos hgood] at h
  exact ⟨_, h, State.Has.foldl (L := .booted) (fun _ _ h1 => .startPart h1) rfl⟩

/-- R338: one whose image is not has failed to. -/
theorem exec_measuredBoot_bad {img : BootImage} (hbad : imageGood img = false) (hf : s.frozen = false)
    (hb : s.boot = .pending) :
    exec (.measuredBoot img) s = .next { s.measure Config.romDigest with boot := .failed, restricted := true } := by
  rw [exec_measuredBoot_pending img hf hb, hbad]
  rfl

theorem State.Has.bootFails (h : s.Has (.nothingRuns fun b _ => b = .pending)) :
    State.Has .idle { s with boot := .failed, restricted := true } := by
  obtain ⟨hb, hn⟩ := h
  exact ⟨trivial, fun _ => hn (by rw [hb]; decide)⟩

/-- R337, R338: measured boot starts nothing; before it, or where it fails, no job, team or run is there. -/
theorem exec_measuredBoot_leaves_idle (img : BootImage) (h : s.Has .idle) : Leaves .idle (exec (.measuredBoot img) s) := by
  by_cases hdone : s.frozen = true ∨ s.boot ≠ .pending
  · exact .of_next (exec_measuredBoot_idle img hdone) h
  · rw [not_or, not_not, Bool.not_eq_true] at hdone
    obtain ⟨hf, hb⟩ := hdone
    cases hgood : imageGood img with
    | false => exact .of_next (exec_measuredBoot_bad hgood hf hb) (State.Has.bootFails (.measure ⟨hb, h.2⟩))
    | true =>
      obtain ⟨t, ht, hdone⟩ := exec_measuredBoot_good hgood hf hb
      exact .of_next ht (State.has_idle_of_booted hdone)

theorem State.takeInput_leaves_idle (i : Instr) (h : s.Has .idle) : Leaves .idle (s.takeInput i) := by
  unfold State.takeInput
  split
  case isFalse => exact h
  case isTrue hc =>
    have hext : Instr.external i = true := ((Bool.and_eq_true _ _).mp hc).1
    by_cases hrst : i = .rstN
    · subst hrst
      exact State.has_idle_iff.mpr State.reset_nothingRuns
    · by_cases hboot : ∃ img, i = .measuredBoot img
      · obtain ⟨img, rfl⟩ := hboot
        exact exec_measuredBoot_leaves_idle img h
      · exact exec_external_leaves hext hrst (not_exists.mp hboot) h

theorem State.ownMove_before_boot (hb : s.boot ≠ .done) : s.ownMove = .next s := by
  simp [State.ownMove, hb]

theorem State.ownMove_leaves_idle (h : s.Has .idle) : Leaves .idle s.ownMove := by
  by_cases hb : s.boot = .done
  · unfold State.ownMove
    split
    · exact h
    · split
      · exact State.perform_leaves_idle _ hb
      · exact h
  · rw [State.ownMove_before_boot hb]
    exact h

end

/-- Settles O51: a booted device stays booted but for a reset; one that has not booted makes no move, and of what comes from
outside only measured boot can change that it has not. -/
theorem nothingRunsBeforeBoot : Obligations.NothingRunsBeforeBoot := by
  unfold Obligations.NothingRunsBeforeBoot
  intro s s' h hstep
  rw [← State.has_idle_iff] at h ⊢
  refine Leaves.next (o := step s) ?_ hstep
  unfold step
  split
  next i rest _ => exact (State.takeInput_leaves_idle (s := { s with inputs := rest }) i h).afterTime
  next => exact (State.ownMove_leaves_idle h).afterTime

/-! ## A device whose boot has failed (R338) -/

/-- R338: boot fails where a check of the image fails, and only there; the test port is then restricted. -/
theorem exec_measuredBoot_failed_iff (img : BootImage) {s : State} (hf : s.frozen = false) (hb : s.boot = .pending) :
    ∃ t, exec (.measuredBoot img) s = .next t ∧ (imageGood img = false ↔ t.boot = .failed) ∧
      (t.boot = .failed → t.restricted = true) := by
  cases hgood : imageGood img with
  | false => exact ⟨_, exec_measuredBoot_bad hgood hf hb, iff_of_true rfl rfl, fun _ => rfl⟩
  | true =>
    obtain ⟨t, ht, hdone⟩ := exec_measuredBoot_good hgood hf hb
    refine ⟨t, ht, iff_of_false (by decide) ?_, fun hfailed => ?_⟩
    · rw [hdone]
      decide
    · cases hdone.symm.trans hfailed

theorem spaceHas_identity {index : Nat} : spaceHas 4 index = true ↔ index < 32 := by
  simp [spaceHas]

/-- R338, log 26: after a failed boot the identity block alone is read, by any sender. -/
theorem State.admits_failed_iff {s : State} (hb : s.boot = .failed) (by_ : Ident) (space index offset : Nat) (read : Bool) :
    s.admits by_ space index offset read = true ↔ space = 4 ∧ index < 32 ∧ read = true ∧ offset < 0x100 := by
  by_cases h4 : space = 4
  · subst h4
    have hforeign : s.foreign 4 index offset = false := by simp [State.foreign]
    by_cases hi : index < 32
    · simp [State.admits, hforeign, hb, hi, spaceHas_identity.mpr hi]
    · simp [State.admits, hi, Bool.eq_false_iff.mpr (spaceHas_identity.not.mpr hi)]
  · simp [State.admits, hb, h4]

/-- The state of a device whose boot has failed. -/
abbrev Lasting.failed : Lasting := .nothingRuns fun b p => b = .failed ∧ p = true

/-- What comes from outside, but for the reset pin, leaves a failed device as failed. -/
theorem State.takeInput_leaves_failed {s : State} {i : Instr} (hi : i ≠ .rstN) (h : s.Has .failed) :
    Leaves .failed (s.takeInput i) := by
  unfold State.takeInput
  split
  case isFalse => exact h
  case isTrue hc =>
    have hext : Instr.external i = true := ((Bool.and_eq_true _ _).mp hc).1
    by_cases hboot : ∃ img, i = .measuredBoot img
    · obtain ⟨img, rfl⟩ := hboot
      rw [exec_measuredBoot_idle img (.inr (by rw [show s.boot = .failed from h.1.1]; decide))]
      exact h
    · exact exec_external_leaves hext hi (not_exists.mp hboot) h

theorem step_leaves_failed {s : State} (h : s.Has .failed) (hin : s.inputs.head? ≠ some .rstN) :
    Leaves .failed (step s) := by
  unfold step
  cases hrest : s.inputs with
  | nil =>
    dsimp only
    rw [State.ownMove_before_boot (by rw [show s.boot = .failed from h.1.1]; decide)]
    exact Leaves.afterTime (o := .next s) h
  | cons i rest =>
    rw [hrest] at hin
    exact (State.takeInput_leaves_failed (s := { s with inputs := rest }) (fun hi => hin (congrArg some hi)) h).afterTime

/-- Settles O44: by the branches of measured boot and of `admits`, what the test port offers a restricted device, and what
lasts over a step. -/
theorem bootFailed : Obligations.BootFailed := by
  unfold Obligations.BootFailed
  refine ⟨fun img s => exec_measuredBoot_failed_iff img, fun s by_ space index offset read hb =>
    s.admits_failed_iff hb by_ space index offset read, fun s hr => ⟨?bypass, ?idcode, ?scanrd⟩, ?step⟩
  case bypass => exact congrArg Host.Outcome.next (s.portCode_bypass.trans (by simp [State.portOpen, hr]))
  case idcode => exact congrArg Host.Outcome.next (s.portCode_idcode.trans (by simp [State.portOpen, hr]))
  case scanrd => exact congrArg Host.Outcome.next (s.portCode_scanrd.trans (by simp [hr]))
  case step =>
    intro s s' hb hr hn hin hstep
    obtain ⟨⟨hb', hr'⟩, hn'⟩ := (step_leaves_failed ⟨⟨hb, hr⟩, hn⟩ hin).next hstep
    exact ⟨hb', hr', hn'⟩

end Sys2Proof.Machine
